-- ==== Sys2Proof/Word.lean ====
section
/-!
DEFINITION. The word types of the Opique Q64 and the plainest reading of their bits. Every
quantity the manual treats as bits is a `BitVec`; addresses of memory cells are `Nat`
locations (see `Machine/Ops.lean`).
-/

namespace Sys2Proof

/-- A 64-bit word: a scalar register, a special register, an address (05 R72, R78). -/
abbrev Word := BitVec 64

/-- A byte of memory. -/
abbrev Byte := BitVec 8

/-- An instruction word (03 R20). -/
abbrev IWord := BitVec 32

/-- A scalar register field; 63 is `lq` as a source and no register otherwise (03 R36). -/
abbrev SReg := BitVec 6

/-- A predicate field (03 R36). -/
abbrev PRegNum := BitVec 3

/-- A region-descriptor field (03 R36). -/
abbrev DReg := BitVec 5

end Sys2Proof
end

