-- ==== Sys2Proof/Config.lean ====
section
/-!
DEFINITION. What an implementation fixes and the values the manual leaves free. Every free
value is an opaque constant: nothing can evaluate it, so a claim holds whatever it is.
-/

namespace Sys2Proof.Machine

open Sys2Proof

/-- What a register of a finalised code holds: the value of a record, or a task-start value by its negative number,
a constant, the return address of the last call (05 R91), or something else (21 R314). -/
inductive Named where
  | record (j : Int)
  | const (w : Word)
  | link
  | other
  deriving DecidableEq, Repr

/-- What a scalar (0 to 62) or predicate (100 to 107) register, or a state that words write and read without a
register field (from 200 on), holds, and for how many cycles still its value may not have landed. -/
structure Holds where
  loc : Nat
  val : Named
  wait : Nat
  deriving DecidableEq, Repr

/-- What the registers and the entries of `lq` hold when a bundle issues. -/
structure Account where
  holds : List Holds := []
  lq : List Named := []
  deriving DecidableEq, Repr, Inhabited

/-- What the finalizer answers with: the code, the record that each of its words carries out, the word at which each
label stands, and an account of what the registers hold at each bundle (21 R316; log entry 24). -/
structure Finalized where
  code : List Byte := []
  does : List (Option Nat) := []
  labels : List (Nat × Nat) := []
  accounts : List (Nat × Account) := []
  deriving DecidableEq, Repr, Inhabited

end Sys2Proof.Machine

namespace Sys2Proof.Config

open Sys2Proof

/-- A fresh undefined 64-bit value, indexed by the counter `State.fv` (03 R3, 05 R81, 08 R169
and the other undefined values; log entry 3). -/
opaque freeWord : Nat → Word

/-- A fresh free choice among finitely many, read modulo the number of choices (log entry 3). -/
opaque freeNat : Nat → Nat

/-- When a result with a bound lands (03 R31): read modulo the bound (log entry 4). -/
opaque landing : Nat → Nat

/-- Whether a result in flight lands in a stall cycle (03 R26, R31), by cycle and place among the
results in flight (log entry 4). -/
opaque landsInStall : Nat → Nat → Bool

/-- Which candidate a read of an overlapped destination returns (03 R32), by issue cycle and
destination, so that all reads of one bundle agree (log entry 4). -/
opaque readPick : Nat → Nat → Nat

/-- The bank key that the entropy source gives a partition, by the cycle of its grant and the location
of the partition (06 R100; log entry 57). -/
opaque bankKey : Nat → Nat → Word

/-- The masks that come from a bank key, by index; the manual does not say how (06 R100; log entry 57). -/
opaque bankMask : Word → Nat → Nat

/-- How many accesses lose the cycle at the banks of the core scratchpad (0) or of the quad scratchpad
(1), by cycle (06 R101; log entry 57). -/
opaque lostBankCycles : Nat → Nat → Word

/-- Whether a special function away from its exact points gives the upper of the two FP32 values that
bracket its result, by function number and FP32 source (07 R139; log entry 9). -/
opaque specialUp : Nat → BitVec 32 → Bool

/-- Where in HBM the firmware keeps the buffer of a die's trace records (20 R307; log entry 29). -/
opaque traceBase : Nat → Nat

/-- The size of that buffer, read as 1 to 64 MiB (20 R307; log entry 29). -/
opaque traceSize : Nat → Nat

/-- The chip's serial number, by byte (22 R324). -/
opaque identity : Nat → Byte

/-- The vendor's public key, x and y, whose digest the fuses hold (22 R323). -/
opaque vendorKey : Nat × Nat

/-- The device's private key in its fuses (22 R324). -/
opaque deviceKey : Nat

/-- The secret numbers that the device signs a hash with, in turn (22 R324). -/
opaque signSecret : Nat → Nat → Nat

/-- A byte of scale indices, by the free values drawn and by its location, that software may not read (17 R276; log
entry 85). -/
opaque freeIndex : Nat → Nat → Byte

/-- What the finalizer makes of a list of Chroner records it accepts (21 R316; log entry 24). -/
opaque finalize : List Byte → Machine.Finalized

/-- The level-4 table of an address space, in which hosts' posts are read (14 R235; log entry 25). -/
opaque tableRoot : Nat → Nat

/-- Whether the pre-emption reserves stand at the top of their scratchpads or at the bottom (06 R98;
log entry 26). -/
opaque reserveAtTop : Bool

/-- The stepping id of the Opique Q64 (03 R43, 22 R324). -/
def steppingId : BitVec 6 := 1

/-- The OQA generation of the part (03 R41). -/
def generation : Nat := 1

end Sys2Proof.Config
end

