-- ==== Sys2Proof/Machine/Numbers.lean ====
section
/-!
DEFINITION. Number formats, exact values, rounding and conversion (04 R44 to R69). Operands are
decoded to exact dyadic values, arithmetic is exact, and one rounding narrows the result; carry,
overflow and inexactness come out of that one comparison. This file knows nothing of the state.
-/

namespace Sys2Proof.Machine

open Sys2Proof

/-- The sticky arithmetic flags, bits 5:0 of `kstat` (04 R67). -/
abbrev Flags := BitVec 6

namespace Flag

/-- Inexact result. -/
def nx : Flags := 0x01
/-- Underflow (04 R63). -/
def uf : Flags := 0x02
/-- Overflow or integer saturation. -/
def of : Flags := 0x04
/-- Exact infinite result from a finite input. -/
def dz : Flags := 0x08
/-- Invalid. -/
def nv : Flags := 0x10
/-- A scale entry of −128 was used. -/
def sn : Flags := 0x20

/-- The flag when the condition holds. -/
def when (b : Bool) (f : Flags) : Flags := if b then f else 0

end Flag

/-- An exact floating value: a NaN (signalling or quiet), an infinity, or ±m × 2^e; a zero has
m = 0 and keeps its sign (04 R45, R49). -/
inductive FVal where
  | nan (sig : Bool)
  | inf (neg : Bool)
  | fin (neg : Bool) (m : Nat) (e : Int)
  deriving DecidableEq, Repr

/-- A floating-point format: sign bit, exponent and mantissa widths, bias, special-value policy
and saturation (04 R44, R47). -/
structure FFmt where
  sgn : Bool
  ebits : Nat
  mbits : Nat
  bias : Int
  spec : Nat
  sat : Bool
  deriving DecidableEq, Repr

/-- FP64 (04 R44). -/
def fp64 : FFmt := ⟨true, 11, 52, 1023, 0, false⟩
/-- FP32 (04 R44). -/
def fp32 : FFmt := ⟨true, 8, 23, 127, 0, false⟩
/-- FP16 (04 R44). -/
def fp16 : FFmt := ⟨true, 5, 10, 15, 0, false⟩
/-- BF16 (04 R44). -/
def bf16 : FFmt := ⟨true, 8, 7, 127, 0, false⟩

/-- The code width W (04 R48). -/
def FFmt.width (f : FFmt) : Nat := (if f.sgn then 1 else 0) + f.ebits + f.mbits

/-- The magnitude code, exponent and mantissa, of an infinity under policy 0 (04 R49). -/
def FFmt.infMag (f : FFmt) : Nat := (2 ^ f.ebits - 1) * 2 ^ f.mbits

/-- The magnitude code of the largest finite value (04 R49, R51). -/
def FFmt.maxMag (f : FFmt) : Nat :=
  match f.spec with
  | 0 => f.infMag - 1
  | 1 => 2 ^ (f.ebits + f.mbits) - 2
  | _ => 2 ^ (f.ebits + f.mbits) - 1

/-- The canonical NaN code (04 R44, R49). -/
def FFmt.nanCode (f : FFmt) : Nat :=
  let top := 2 ^ (f.mbits - 1)
  let ones := 2 ^ (f.ebits + f.mbits) - 1
  match f.spec with
  | 0 => if f.sgn then f.infMag + top else ones - top
  | _ => ones

/-- A code from a sign and a magnitude; a format without a sign bit has no negative codes. -/
def FFmt.code (f : FFmt) (neg : Bool) (mag : Nat) : Nat :=
  if f.sgn && neg then 2 ^ (f.ebits + f.mbits) + mag else mag

/-- The value of a code (04 R45, R49). A NaN code with a clear top mantissa bit is signalling, in a format of a
format register too, for which the manual does not say which NaN codes signal (log entry 72). -/
def FFmt.decode (f : FFmt) (code : Nat) : FVal :=
  let mw := f.ebits + f.mbits
  let mag := code % 2 ^ mw
  let neg := f.sgn && (code / 2 ^ mw) % 2 == 1
  let e := mag / 2 ^ f.mbits
  let m := mag % 2 ^ f.mbits
  if f.spec == 0 && e == 2 ^ f.ebits - 1 then
    if m == 0 then .inf neg else .nan (m < 2 ^ (f.mbits - 1))
  else if f.spec == 1 && mag == 2 ^ mw - 1 then .nan false
  else if e == 0 then .fin neg m (1 - f.bias - f.mbits)
  else .fin neg (2 ^ f.mbits + m) ((e : Int) - f.bias - f.mbits)

/-- m × 2^(−s) as an integer under a rounding mode, with whether it was inexact (04 R61). A tie to even, or a
rounding to odd, goes by the parity of the significand with its hidden bit, also where the format has no mantissa
bit (log entry 73). -/
def roundShift (mode : Nat) (neg : Bool) (m s : Nat) : Nat × Bool :=
  let k := m / 2 ^ s
  let r := m % 2 ^ s
  let inexact := r != 0
  let up : Bool :=
    match mode with
    | 0 => decide (2 * r > 2 ^ s) || (decide (2 * r = 2 ^ s) && k % 2 == 1)
    | 2 => neg && inexact
    | 3 => !neg && inexact
    | _ => false
  let k' := if up then k + 1 else k
  (if mode == 4 && inexact && k' % 2 == 0 then k' + 1 else k', inexact)

/-- m × 2^e as a multiple of 2^q under a rounding mode. -/
def roundAt (mode : Nat) (neg : Bool) (m : Nat) (e q : Int) : Nat × Bool :=
  if q ≤ e then (m * 2 ^ (e - q).toNat, false) else roundShift mode neg m (q - e).toNat

/-- Whether a directed mode rounds toward zero at this sign (04 R62). -/
def towardZero (mode : Nat) (neg : Bool) : Bool :=
  match mode with
  | 1 | 4 => true
  | 2 => !neg
  | 3 => neg
  | _ => false

/-- Conversion of an exact value into a floating-point format: the code and the flags raised
(04 R61 to R64). Where the largest finite value is 0, every value that is not 0 exceeds it with an unbounded
exponent (R62). -/
def FFmt.round (f : FFmt) (mode : Nat) : FVal → Nat × Flags
  | .nan sig =>
    match f.spec with
    | 0 => (f.nanCode, Flag.when sig Flag.nv)
    | 1 => (f.nanCode, 0)
    | _ => (0, Flag.nv)
  | .inf neg =>
    if !f.sgn && neg then (0, Flag.nv)
    else
      match f.spec with
      | 0 => (f.code neg f.infMag, 0)
      | 1 => if f.sat then (f.code neg f.maxMag, Flag.of) else (f.nanCode, Flag.nv)
      | _ => (f.code neg f.maxMag, Flag.of)
  | .fin neg m e =>
    if m == 0 then (f.code neg 0, 0)
    else if !f.sgn && neg then (0, Flag.of ||| Flag.nx)
    else
      let emin : Int := 1 - f.bias
      let top : Int := (Nat.log2 m : Int) + e
      let ex := if top < emin then emin else top
      let (k, inexact) := roundAt mode neg m e (ex - f.mbits)
      let mag := (ex - emin).toNat * 2 ^ f.mbits + k
      if mag > f.maxMag || f.maxMag == 0 then
        let fl := Flag.of ||| Flag.nx
        if f.sat || f.spec == 2 || towardZero mode neg then (f.code neg f.maxMag, fl)
        else if f.spec == 0 then (f.code neg f.infMag, fl)
        else (f.nanCode, fl)
      else (f.code neg mag, Flag.when inexact Flag.nx ||| Flag.when (inexact && top < emin) Flag.uf)

/-- Whether a value is a NaN. -/
def FVal.isNaN : FVal → Bool
  | .nan _ => true
  | _ => false

/-- Whether a value is a signalling NaN. -/
def FVal.isSig : FVal → Bool
  | .nan s => s
  | _ => false

/-- Whether a value is a zero of either sign. -/
def FVal.isZero : FVal → Bool
  | .fin _ m _ => m == 0
  | _ => false

/-- The sign of a value. -/
def FVal.neg : FVal → Bool
  | .nan _ => false
  | .inf n => n
  | .fin n _ _ => n

/-- The value with its sign inverted. -/
def FVal.negate : FVal → FVal
  | .nan s => .nan s
  | .inf n => .inf (!n)
  | .fin n m e => .fin (!n) m e

/-- The value with its sign cleared. -/
def FVal.abs : FVal → FVal
  | .nan s => .nan s
  | .inf _ => .inf false
  | .fin _ m e => .fin false m e

/-- A signed integer times 2^e; zero is +0. -/
def FVal.ofScaled (i : Int) (e : Int) : FVal := .fin (decide (i < 0)) i.natAbs e

/-- An integer as an exact value. -/
def FVal.ofInt (i : Int) : FVal := .ofScaled i 0

/-- The signed significand of a finite value. -/
def signedMant (neg : Bool) (m : Nat) : Int := if neg then -(m : Int) else m

/-- The exact sum of two finite values, as a signed significand and exponent. -/
def alignSum (n1 : Bool) (m1 : Nat) (e1 : Int) (n2 : Bool) (m2 : Nat) (e2 : Int) : Int × Int :=
  let e := if e1 ≤ e2 then e1 else e2
  (signedMant n1 m1 * 2 ^ (e1 - e).toNat + signedMant n2 m2 * 2 ^ (e2 - e).toNat, e)

/-- x + y, exactly; ∞ − ∞ is a NaN and sets NV, a signalling NaN input sets NV, and an exact zero
sum is +0 unless both addends are −0 (05 R87, 04 R68, 12 R208). -/
def FVal.add : FVal → FVal → FVal × Flags
  | .nan s, y => (.nan false, Flag.when (s || y.isSig) Flag.nv)
  | x, .nan s => (.nan false, Flag.when (s || x.isSig) Flag.nv)
  | .inf a, .inf b => if a == b then (.inf a, 0) else (.nan false, Flag.nv)
  | .inf a, .fin _ _ _ => (.inf a, 0)
  | .fin _ _ _, .inf b => (.inf b, 0)
  | .fin n1 m1 e1, .fin n2 m2 e2 =>
    let (i, e) := alignSum n1 m1 e1 n2 m2 e2
    if i == 0 then (.fin (m1 == 0 && m2 == 0 && n1 && n2) 0 0, 0) else (.ofScaled i e, 0)

/-- x − y (05 R87). -/
def FVal.sub (x y : FVal) : FVal × Flags := x.add y.negate

/-- x × y, exactly; 0 × ∞ is a NaN and sets NV (05 R87); a zero product has the exclusive-or of
the signs (12 R208). -/
def FVal.mul : FVal → FVal → FVal × Flags
  | .nan s, y => (.nan false, Flag.when (s || y.isSig) Flag.nv)
  | x, .nan s => (.nan false, Flag.when (s || x.isSig) Flag.nv)
  | .inf a, .inf b => (.inf (a != b), 0)
  | .inf a, .fin n m _ => if m == 0 then (.nan false, Flag.nv) else (.inf (a != n), 0)
  | .fin n m _, .inf b => if m == 0 then (.nan false, Flag.nv) else (.inf (n != b), 0)
  | .fin n1 m1 e1, .fin n2 m2 e2 => (.fin (n1 != n2) (m1 * m2) (e1 + e2), 0)

/-- x × y + z with no intermediate rounding; 0 × ∞ sets NV whatever z is (05 R87). -/
def FVal.fma (x y z : FVal) : FVal × Flags :=
  let (p, f1) := x.mul y
  let (r, f2) := p.add z
  (r, f1 ||| f2)

/-- How two values compare: none when either is a NaN; −0 and +0 are equal (05 R89). -/
def FVal.cmp : FVal → FVal → Option Ordering
  | .nan _, _ => none
  | _, .nan _ => none
  | .inf a, .inf b => some (if a == b then .eq else if a then .lt else .gt)
  | .inf a, .fin _ _ _ => some (if a then .lt else .gt)
  | .fin _ _ _, .inf b => some (if b then .gt else .lt)
  | .fin n1 m1 e1, .fin n2 m2 e2 =>
    let (i, _) := alignSum n1 m1 e1 (!n2) m2 e2
    some (if i == 0 then .eq else if i < 0 then .lt else .gt)

/-- x is taken before y by `FMIN`: less, or −0 against +0 (05 R87). -/
def FVal.before (x y : FVal) : Bool :=
  match x.cmp y with
  | some .lt => true
  | some .eq => x.neg && !y.neg
  | _ => false

/-- `FMIN` (05 R87): the non-NaN operand when one is a NaN. -/
def FVal.min (x y : FVal) : FVal × Flags :=
  let f := Flag.when (x.isSig || y.isSig) Flag.nv
  if x.isNaN then (if y.isNaN then .nan false else y, f)
  else if y.isNaN then (x, f)
  else (if y.before x then y else x, f)

/-- `FMAX` (05 R87). -/
def FVal.max (x y : FVal) : FVal × Flags :=
  let f := Flag.when (x.isSig || y.isSig) Flag.nv
  if x.isNaN then (if y.isNaN then .nan false else y, f)
  else if y.isNaN then (x, f)
  else (if x.before y then y else x, f)

/-- An exact value as an integer under a rounding mode, with whether it was inexact; only for
finite values. -/
def roundInt (mode : Nat) (neg : Bool) (m : Nat) (e : Int) : Int × Bool :=
  let (k, inexact) := roundAt mode neg m e 0
  (signedMant neg k, inexact)

/-- An integer clamped to lo .. hi; OF when it was outside (04 R46, R65). -/
def clampInt (lo hi i : Int) : Int × Flags :=
  if i < lo then (lo, Flag.of) else if hi < i then (hi, Flag.of) else (i, 0)

/-- Conversion of a floating value to an integer range (04 R65). -/
def FVal.toInt (lo hi : Int) (mode : Nat) : FVal → Int × Flags
  | .nan _ => (0, Flag.nv)
  | .inf n => (if n then lo else hi, Flag.nv)
  | .fin n m e =>
    let (i, inexact) := roundInt mode n m e
    let (j, f) := clampInt lo hi i
    (j, if f == 0 then Flag.when inexact Flag.nx else f)

/-- An element format: floating, or an integer kind and width (04 R46, R47; 07 R128). -/
inductive Fmt where
  | flt (f : FFmt)
  | int (signed : Bool) (w : Nat)
  deriving DecidableEq, Repr

/-- The code width of a format. -/
def Fmt.width : Fmt → Nat
  | .flt f => f.width
  | .int _ w => w

/-- Whether a format is floating. -/
def Fmt.isFloat : Fmt → Bool
  | .flt _ => true
  | .int _ _ => false

/-- Whether a format is an integer format of a signed kind. -/
def Fmt.isSigned : Fmt → Bool
  | .flt _ => false
  | .int s _ => s

/-- The least value of an integer range. -/
def intLo (signed : Bool) (w : Nat) : Int := if signed then -(2 ^ (w - 1) : Int) else 0

/-- The largest value of an integer range. -/
def intHi (signed : Bool) (w : Nat) : Int := if signed then 2 ^ (w - 1) - 1 else 2 ^ w - 1

/-- The value of an integer code (04 R46). -/
def intOfCode (signed : Bool) (w code : Nat) : Int :=
  let c := code % 2 ^ w
  if signed && decide (2 ^ (w - 1) ≤ c) then (c : Int) - 2 ^ w else c

/-- The two's-complement code of an integer, reduced to the width. -/
def codeOfInt (w : Nat) (i : Int) : Nat := (i % (2 ^ w : Int)).toNat

/-- The floating or integer format a legal format register describes (04 R47, R48). -/
def fmtOfReg (r : BitVec 32) : Fmt :=
  let kind := (r.extractLsb' 30 2).toNat
  let mbits := (r.extractLsb' 20 3).toNat
  match kind with
  | 0 =>
    .flt ⟨r.getLsbD 26, (r.extractLsb' 23 3).toNat, mbits, (r.extractLsb' 8 8).toInt,
      (r.extractLsb' 28 2).toNat, r.getLsbD 27⟩
  | 1 => .int true (mbits + 1)
  | _ => .int false (mbits + 1)

/-- Whether a format-register value is legal (04 R48). -/
def fmtRegLegal (r : BitVec 32) : Bool :=
  let kind := (r.extractLsb' 30 2).toNat
  let spec := (r.extractLsb' 28 2).toNat
  let sgn := r.getLsbD 26
  let ebits := (r.extractLsb' 23 3).toNat
  let mbits := (r.extractLsb' 20 3).toNat
  let bias := r.extractLsb' 8 8
  let w := (if sgn then 1 else 0) + ebits + mbits
  kind != 3 && spec != 3 && (r.extractLsb' 16 4 == 0) && (r.extractLsb' 0 8 == 0) &&
  (if kind == 0 then
    decide (1 ≤ ebits) && decide (2 ≤ w) && decide (w ≤ 8) &&
      (spec != 0 || (decide (2 ≤ ebits) && decide (1 ≤ mbits)))
  else ebits == 0 && spec == 0 && r.getLsbD 27 && bias == 0 && (sgn == (kind == 1)))

/-- The format of a format code (07 R128); codes 16 to 31 read the format registers. -/
def fmtOfCode (fm : Nat → BitVec 32) (code : Nat) : Option Fmt :=
  match code with
  | 1 => some (.flt fp64)
  | 2 => some (.flt fp32)
  | 3 => some (.flt fp16)
  | 4 => some (.flt bf16)
  | 5 => some (.int true 64)
  | 6 => some (.int true 32)
  | 7 => some (.int true 16)
  | 8 => some (.int true 8)
  | 9 => some (.int false 64)
  | 10 => some (.int false 32)
  | 11 => some (.int false 16)
  | 12 => some (.int false 8)
  | c => if 16 ≤ c && c < 32 then some (fmtOfReg (fm (c - 16))) else none

/-- An element's exact value: floating or integer (07 R137). -/
inductive Num where
  | f (x : FVal)
  | i (x : Int)
  deriving DecidableEq, Repr

/-- The exact value of an element code, without scale. -/
def Fmt.value (fmt : Fmt) (code : Nat) : Num :=
  match fmt with
  | .flt f => .f (f.decode code)
  | .int s w => .i (intOfCode s w code)

/-- A value as a floating value. -/
def Num.toF : Num → FVal
  | .f x => x
  | .i x => FVal.ofInt x

/-- Whether a value is nonzero, a NaN included (07 R138 `VSEL`, R144). -/
def Num.nonzero : Num → Bool
  | .f x => !x.isZero
  | .i x => x != 0

/-- Conversion of an exact value into a format under a mode (04 R61 to R65; 07 R137): integer to
integer saturates with OF. -/
def Fmt.convert (fmt : Fmt) (mode : Nat) (x : Num) : Nat × Flags :=
  match fmt, x with
  | .flt f, x => f.round mode x.toF
  | .int s w, .f v =>
    let (i, fl) := v.toInt (intLo s w) (intHi s w) mode
    (codeOfInt w i, fl)
  | .int s w, .i v =>
    let (i, fl) := clampInt (intLo s w) (intHi s w) v
    (codeOfInt w i, fl)

/-- A value times 2^e, e the entry of a scale register; −128 stands for NaN and sets SN (04 R56,
R58). -/
def scaleUp (e : BitVec 8) (x : FVal) : FVal × Flags :=
  if e == 0x80 then (.nan false, Flag.sn)
  else
    match x with
    | .fin n m ex => (.fin n m (ex + e.toInt), 0)
    | y => (y, 0)

/-- A value divided by 2^e exactly; an entry of −128 gives the conversion of a NaN, and SN (04
R59). -/
def scaleDown (e : BitVec 8) (x : FVal) : FVal × Flags :=
  if e == 0x80 then (.nan false, Flag.sn)
  else
    match x with
    | .fin n m ex => (.fin n m (ex - e.toInt), 0)
    | y => (y, 0)

end Sys2Proof.Machine
end

