-- ==== Sys2Proof/Syntax.lean ====
section
/-!
DEFINITION. The whole syntax: one constructor of `Instr` for every row of the opcode table,
the 181 encoded words of 03 R28 first and then the 108 steps that no word encodes (engines,
the pricking, the fabric, hosts, tools), in the table's order. Operand fields keep the width
of the word's field; the chain bit (03 R20) belongs to the bundle and stands in no constructor.
The operands of an event name the part of the machine it happens to, or what arrives from
outside.
-/

namespace Sys2Proof

/-- The identity of one collective: its group rank and sequence number (17 R272). -/
structure CollId where
  group : Nat
  seq : Nat
  deriving DecidableEq, Repr

/-- A start ticket: its collective and its rank, issue time then hoop (17 R278). -/
structure Ticket where
  coll : CollId
  issue : Nat
  hoopid : Nat
  deriving DecidableEq, Repr

/-- The values of a post that the hoop compares (17 R278). -/
structure PostKey where
  op : Nat
  accop : Nat
  sat : Bool
  fmt : Nat
  role : Nat
  count : Nat
  notbefore : Nat
  slot : Nat
  deriving DecidableEq, Repr

/-- One piece of a collective on its way: the group position it comes from, the chunk or block it belongs to, its
element offset within it, the ring step it makes, whether it carries final values, and its elements as exact
partial codes (17 R281). -/
structure Piece where
  coll : CollId
  src : Nat
  chunk : Nat
  offset : Nat
  step : Nat
  final : Bool
  elems : List (BitVec 80)
  deriving DecidableEq, Repr

/-- What a die reports of one of its cores (14 R236); `ended` says that the task running there has ended since
the last report. -/
structure CoreReport where
  free : Bool
  emptyBank : Bool
  coreGranules : Nat
  quadGranules : Nat
  barriers : Nat
  ended : Bool := false
  deriving DecidableEq, Repr

/-- An instruction word of the opcode map, or one whole step of the table. -/
inductive Instr where
  -- CTL, BR, CALL (05 R91, R93, R94; 14 R241)
  | nop
  | endTask
  | yield
  | jmp (a : SReg)
  | jmpl (a : SReg)
  | ret
  | loop (a : SReg) (n : BitVec 14)
  | br (k : PRegNum) (n : BitVec 1) (off : BitVec 22)
  | call (off : BitVec 26)
  -- SYS (13 R228 to R230)
  | trap (n : BitVec 14)
  | eret
  | eretTo (a : SReg)
  | check (a : SReg)
  | checkPred (a : SReg)
  | mfs (a : SReg) (n : BitVec 14)
  | mts (a : SReg) (n : BitVec 14)
  | brk (n : BitVec 14)
  | mark (a : SReg) (n : BitVec 14)
  | swapc
  | tlbinvPage (a : SReg)
  | tlbinvAsid (a : SReg)
  | tlbinvLocal
  | tlbinvAll
  | svc (n : BitVec 14)
  -- IALU (05 R83, R84)
  | add (d a b : SReg)
  | sub (d a b : SReg)
  | mul (d a b : SReg)
  | mulh (d a b : SReg)
  | mulhn (d a b : SReg)
  | div (d a b : SReg)
  | divn (d a b : SReg)
  | rem (d a b : SReg)
  | remn (d a b : SReg)
  | and (d a b : SReg)
  | or (d a b : SReg)
  | xor (d a b : SReg)
  | andn (d a b : SReg)
  | shl (d a b : SReg)
  | shr (d a b : SReg)
  | sar (d a b : SReg)
  | rotl (d a b : SReg)
  | min (d a b : SReg)
  | max (d a b : SReg)
  | minn (d a b : SReg)
  | maxn (d a b : SReg)
  | clz (d a : SReg)
  | popc (d a : SReg)
  | sext (d a : SReg) (z : BitVec 6)
  | zext (d a : SReg) (z : BitVec 6)
  -- IALI, MOVI, MOVK (05 R85, R86)
  | addi (d a : SReg) (imm : BitVec 11)
  | andi (d a : SReg) (imm : BitVec 11)
  | ori (d a : SReg) (imm : BitVec 11)
  | xori (d a : SReg) (imm : BitVec 11)
  | shli (d a : SReg) (n : BitVec 6)
  | shri (d a : SReg) (n : BitVec 6)
  | sari (d a : SReg) (n : BitVec 6)
  | movi (d : SReg) (imm : BitVec 20)
  | movk (d : SReg) (sh : BitVec 2) (imm : BitVec 18)
  -- FPU (05 R87, R88); p is fn 7:6
  | fadd (p : BitVec 2) (d a b : SReg)
  | fsub (p : BitVec 2) (d a b : SReg)
  | fmul (p : BitVec 2) (d a b : SReg)
  | ffma (p : BitVec 2) (d a b : SReg)
  | fmin (p : BitVec 2) (d a b : SReg)
  | fmax (p : BitVec 2) (d a b : SReg)
  | fabs (p : BitVec 2) (d a : SReg)
  | fneg (p : BitVec 2) (d a : SReg)
  | fcpys (p : BitVec 2) (d a b : SReg)
  | fcvti (p : BitVec 2) (d a : SReg) (k : BitVec 2) (m : BitVec 3)
  | fcvtf (p : BitVec 2) (d a : SReg) (k : BitVec 2) (m : BitVec 3)
  | fcvtw (p : BitVec 2) (d a : SReg) (m : BitVec 3)
  -- CMP (05 R89); c is fn 3:0
  | cmp (d a b : SReg) (c : BitVec 4)
  | fcmp (d a b : SReg) (c : BitVec 4)
  | plog (d a b : SReg) (c : BitVec 4)
  | tst (d a b : SReg) (c : BitVec 4)
  -- FIELD (05 R90)
  | bfx (d a b : SReg)
  | bfi (d a b : SReg)
  | lea (d a b : SReg)
  | sel (d a b : SReg)
  -- LD, ST, TAG (06 R112 to R116)
  | ld (base : SReg) (cls : BitVec 4) (sz : BitVec 2) (off : BitVec 8)
  | lds (base : SReg) (cls : BitVec 4) (sz : BitVec 2) (off : BitVec 8)
  | ldc (base : SReg) (cls : BitVec 4) (sz : BitVec 2) (off : BitVec 8)
  | ldf (base : SReg) (cls : BitVec 4) (sz : BitVec 2) (off : BitVec 8)
  | ldfe (base : SReg) (cls : BitVec 4) (sz : BitVec 2) (off : BitVec 8)
  | st (x base : SReg) (cls : BitVec 4) (sz : BitVec 2) (off : BitVec 8)
  | stf (x base : SReg) (cls : BitVec 4) (sz : BitVec 2) (off : BitVec 5)
  | ste (x base : SReg) (cls : BitVec 4) (sz : BitVec 2) (off : BitVec 5)
  | sete (base : SReg) (cls : BitVec 4) (sz : BitVec 2) (off : BitVec 5)
  | setf (base : SReg) (cls : BitVec 4) (sz : BitVec 2) (off : BitVec 5)
  | tagq (base : SReg) (cls : BitVec 4) (sz : BitVec 2) (off : BitVec 5)
  -- ATOM (06 R117 to R120)
  | aadd (v base : SReg) (cls : BitVec 4) (sz : BitVec 2) (fetch : BitVec 1)
  | amin (v base : SReg) (cls : BitVec 4) (sz : BitVec 2) (fetch : BitVec 1)
  | amax (v base : SReg) (cls : BitVec 4) (sz : BitVec 2) (fetch : BitVec 1)
  | aminn (v base : SReg) (cls : BitVec 4) (sz : BitVec 2) (fetch : BitVec 1)
  | amaxn (v base : SReg) (cls : BitVec 4) (sz : BitVec 2) (fetch : BitVec 1)
  | aand (v base : SReg) (cls : BitVec 4) (sz : BitVec 2) (fetch : BitVec 1)
  | aor (v base : SReg) (cls : BitVec 4) (sz : BitVec 2) (fetch : BitVec 1)
  | axor (v base : SReg) (cls : BitVec 4) (sz : BitVec 2) (fetch : BitVec 1)
  | aswp (v base : SReg) (cls : BitVec 4) (sz : BitVec 2) (fetch : BitVec 1)
  | afadd (v base : SReg) (cls : BitVec 4) (sz : BitVec 2) (fetch : BitVec 1)
  | acas (v base : SReg) (cls : BitVec 4) (sz : BitVec 2) (fetch : BitVec 1)
  -- ORDER (06 R123, R124)
  | fence (scope : BitVec 3) (mask : BitVec 16)
  | slkset (a : SReg) (cls : BitVec 4)
  | wdrain (w : BitVec 3)
  | wallow (a : SReg) (w : BitVec 3)
  -- VOP (07 R137, R138)
  | vadd (dd da db : DReg) (opt : BitVec 3)
  | vsub (dd da db : DReg) (opt : BitVec 3)
  | vmul (dd da db : DReg) (opt : BitVec 3)
  | vfma (dd da db : DReg) (opt : BitVec 3)
  | vmin (dd da db : DReg) (opt : BitVec 3)
  | vmax (dd da db : DReg) (opt : BitVec 3)
  | vabs (dd da : DReg) (opt : BitVec 3)
  | vneg (dd da : DReg) (opt : BitVec 3)
  | vand (dd da db : DReg) (opt : BitVec 3)
  | vor (dd da db : DReg) (opt : BitVec 3)
  | vxor (dd da db : DReg) (opt : BitVec 3)
  | vshl (dd da db : DReg) (opt : BitVec 3)
  | vshr (dd da db : DReg) (opt : BitVec 3)
  | vcmp (dd da db : DReg) (opt : BitVec 3)
  | vsel (dd da db : DReg) (opt : BitVec 3)
  | vcopy (dd da : DReg) (opt : BitVec 3)
  | vfill (dd da : DReg) (opt : BitVec 3)
  | vcvt (dd da : DReg) (opt : BitVec 3)
  | viota (dd : DReg) (opt : BitVec 3)
  -- VSFN (07 R139)
  | vexp2 (dd da : DReg) (opt : BitVec 3)
  | vlog2 (dd da : DReg) (opt : BitVec 3)
  | vrcp (dd da : DReg) (opt : BitVec 3)
  | vrsq (dd da : DReg) (opt : BitVec 3)
  | vsig (dd da : DReg) (opt : BitVec 3)
  | vtanh (dd da : DReg) (opt : BitVec 3)
  | vgelu (dd da : DReg) (opt : BitVec 3)
  -- VCHAIN (07 R141, R142)
  | vchain (dd da db : DReg) (opt : BitVec 3)
  | chset (r : SReg) (opt : BitVec 3)
  -- VPERM (07 R143 to R148)
  | vcomp (dd da db : DReg) (opt : BitVec 3)
  | vexpd (dd da db : DReg) (opt : BitVec 3)
  | vgath (dd da db : DReg) (opt : BitVec 3)
  | vscat (dd da db : DReg) (opt : BitVec 3)
  | vscan (dd da : DReg) (opt : BitVec 3)
  | vtrn (dd da : DReg) (opt : BitVec 3)
  -- VDESC (07 R149 to R151); every field is a six-bit field of F-R
  | dset (d a b : SReg)
  | dget (d a b : SReg)
  | dadv (a b : SReg)
  | dcnt (a b : SReg)
  -- RED (07 R153)
  | radd (da : DReg) (ps : BitVec 2)
  | rmin (da : DReg) (ps : BitVec 2)
  | rmax (da : DReg) (ps : BitVec 2)
  | rdrn (r : SReg) (ps : BitVec 2)
  | rdrnDesc (dd : DReg) (ps : BitVec 2)
  | rclr (k : BitVec 2) (o : BitVec 2) (ps : BitVec 2)
  -- MSTEP, MCTL (08 R173, R177)
  | mstep (acc : BitVec 3) (wide : BitVec 1) (da db : DReg) (depth : BitVec 6) (tag : BitVec 2)
      (flags : BitVec 2)
  | mzero (n : BitVec 3) (wide : BitVec 1) (v f : BitVec 2)
  | mdrain (d : BitVec 6) (n : BitVec 3) (m : BitVec 3) (clr : BitVec 1)
  | mlda (n : BitVec 3) (a : BitVec 6) (f : BitVec 2) (m : BitVec 3)
  | mwgt (b : BitVec 6)
  | sload (n : BitVec 2) (a : BitVec 6)
  | ssel (p : BitVec 6)
  | mflow (p : BitVec 6)
  | mskew (p : BitVec 6)
  | mfmt (p q : BitVec 6) (opt : BitVec 6)
  -- TABLE (10 R206)
  | scld (a : SReg) (n : BitVec 3) (f : BitVec 4)
  | fmset (a : SReg) (n : BitVec 4)
  | fmget (a : SReg) (n : BitVec 4)
  -- COPY (10 R201, R202)
  | cpy (p q : SReg) (patch : BitVec 2) (cls : BitVec 4)
  | cpyt (p q : SReg) (patch : BitVec 2) (cls : BitVec 4)
  | cpyp (p q : SReg) (patch : BitVec 2) (cls : BitVec 4)
  | cpyg (p q : SReg) (patch : BitVec 2) (cls : BitVec 4)
  | cpyw (p q : SReg) (patch : BitVec 2) (cls : BitVec 4)
  | cpyc (p q : SReg) (patch : BitVec 2) (cls : BitVec 4)
  -- FAB (16 R268, R269; 17 R287)
  | cpost (p : SReg) (cls : BitVec 4)
  | ccancel (p : SReg) (cls : BitVec 4)
  | cquery (p : SReg) (cls : BitVec 4)
  | tsend (p : SReg) (cls : BitVec 4)
  -- BATCH (08 R183; 14 R249, R250)
  | commit (a : SReg)
  | waitb (a : SReg)
  | testb (a : SReg)
  | bara (n : BitVec 9)
  | barw (n : BitVec 9)
  | bart (a : SReg) (n : BitVec 9)
  | barcfg (a : SReg) (n : BitVec 9)
  | npost (a : SReg)
  | requeue (a : SReg)
  -- EXPER (03 R43)
  | exper (step : BitVec 6) (op : BitVec 20)
  -- Steps of the A pipe and its memories (06)
  | loadDataReturn (id : Nat)
  | writeEntryBegin (id : Nat)
  | writePerform (id : Nat)
  | parkedAccessWake (word : Nat)
  -- Streams, shuttle, copy engines (07, 08, 10)
  | streamGroupPass (id : Nat)
  | shuttleCommandStart
  | beat
  | shuttleCommandComplete
  | copyCommandStart (eng : Bool)
  | copySegmentWrite (id : Nat)
  | copyPause (id : Nat)
  | copyResume (id : Nat)
  | copyComplete (id : Nat)
  -- HBM and the weight store (10 R188 to R195; 11 R207)
  | hbmServiceStart (pc bank : Nat)
  | bankIdleClose (pc bank : Nat)
  | refreshDue (pc : Nat)
  | allBankRefreshStart (pc : Nat)
  | bankRefreshEnd (pc bank : Nat)
  | allBankRefreshEnd (pc : Nat)
  -- Translation, faults, traps, banks (13)
  | sharedTlbLookup
  | tableRead
  | faultFreeze
  | faultResolve (kill : Bool)
  | tlbinvComplete
  | trapDelivery
  | interrupt
  | contextSwitch
  | spill
  | spillComplete
  | emergencySpill
  | fill (va : Nat)
  | fillComplete
  -- The pricking (14; 21 R317)
  | postTake
  | imageLoad (node : Nat)
  | imageLoadComplete (node : Nat)
  | nodeFinish (node : Nat)
  | taskPlacement
  | claimant (node : Nat)
  | taskStart
  | victimChoice
  | yieldRequest
  | yieldWindowExpiry
  | yieldRequestWithdraw
  | prefetch
  | taskEnd (node : Nat) (reason : Nat)
  | arrivalCounted (nb : Nat) (own : Bool)
  | barrierDelivery (nb : Nat)
  -- The fabric (16)
  | combineLineExpiry (k : Nat)
  | arbitration (port : Nat)
  | reorderAccept (id : Nat)
  | remotePerform (id : Nat)
  | ackReturn (id : Nat)
  | remoteReply (id : Nat)
  | withdrawalArrival (id : Nat)
  | noRouteDrop (id : Nat)
  | tsendDeparture (id : Nat)
  | tsendComplete (id : Nat)
  -- Collectives (17)
  | pieceDeparture (c : CollId) (chunk offset : Nat)
  | deferralResend (p : Piece)
  | postEntry (id : Nat)
  | collectiveComplete (c : CollId)
  | collectiveTimeout (c : CollId)
  | hoopPostArrival (c : CollId) (pos : Nat) (key : PostKey)
  | ticketArrival (t : Ticket)
  | admission
  | orderNotice (c : CollId)
  | pieceArrival (p : Piece)
  | abortNotice (c : CollId) (cancelled : Bool)
  | hoopWithdrawal (c : CollId) (cancelled : Bool)
  -- Other accesses to HBM and windows of refresh (10); links, tables, mailboxes, reports and memory errors,
  -- which come from outside (06 R102; 14 R234, R236; 16). A configuration comes from the firmware, or from the
  -- host port named (22 R322)
  | hbmArrival (pa : Nat) (read : Bool)
  | wsRefreshWindowStart (bank : Nat)
  | wsRefreshWindowEnd (bank : Nat)
  | linkDown (port : Nat)
  | routeTableLoad (dest : Nat) (alts : List (Nat × Nat))
  | rankTableWrite (rank : Nat) (entry : Word) (members : List Nat)
  | mailboxWrite (i : Nat) (addr : Nat)
  | resourceReport (core : Nat) (r : CoreReport)
  | uncorrectableError (line : Nat)
  -- Time, hosts, boot, power (02 R19; 22)
  | timeService (skew : Int)
  | hostWrite (port rod : Bool) (pa : Nat) (data : List Byte)
  | hostRead (port : Bool) (pa n : Nat)
  | hsemWrite (port : Bool) (v : Word)
  | hsemRelease
  | registerWrite (port : Bool) (off : Nat) (v : Word)
  | powerTick (watts hot : Nat)
  | thermalPowerOff
  | packageReset
  | firmwareImage
  | watchdog
  | attestation (nonce : List Byte)
  | identityRead
  -- Debug rights (20)
  | delegate (who parent : Nat) (rights : BitVec 6) (holder : Nat)
  | revoke (who entry : Nat)
  | stopRequest (who : Nat)
  | breakpoint
  | singleStepStop
  | resume (who : Nat) (step : Bool)
  | debugRead (who : Nat) (off n : Nat)
  | debugWrite (who : Nat) (off : Nat) (data : List Byte)
  | sample
  | chargeRecord
  | partitionEviction (quad : Bool)
  | partitionRestore (quad : Bool)
  | breakpointSet (who : Nat) (slot : Nat) (addr : Option Nat)
  | sessionOpen (who : Nat) (kind : Nat) (k : Nat)
  | rootEntry (asid holder : Nat)
  | overflowQuota (port : Bool) (mib : Nat)
  | migration (pkg : Nat)
  deriving DecidableEq, Repr

end Sys2Proof
end

