-- ==== Sys2Proof/Machine/State.lean ====
section
/-!
DEFINITION. The state of the followed core, of its two context banks and of the package units
its instructions and the table's steps reach, as plain data; the faults and refusals; and the
state after package reset. Each field names the rule of the manual that gives it.
-/

namespace Sys2Proof.Machine

open Sys2Proof

/-- Why the machine stops without a next state. -/
inductive Fault where
  /-- Raised by `step` alone, when a package from which a sensor at 125 °C has removed power is
  asked to issue (22 R325): nothing runs until a reset from outside. Safe. -/
  | poweredOff
  deriving DecidableEq, Repr

/-- Why an instruction has no meaning here. -/
inductive Refusal where
  /-- Raised by an arm of `exec` for an instruction that has no meaning yet. Safe. -/
  | notModelled (mnemonic : String)
  deriving DecidableEq, Repr

/-- A scalar register: 64 bits, poison bit, taint set (the ids of `LDC`s) (05 R72, R73). -/
structure Reg where
  val : Word := 0
  poison : Bool := false
  taint : List Nat := []
  deriving DecidableEq, Repr

/-- A predicate: one bit, poison bit, taint set (05 R72, R73). -/
structure PReg where
  val : Bool := false
  poison : Bool := false
  taint : List Nat := []
  deriving DecidableEq, Repr

/-- A region descriptor's two words (07 R126, R127). -/
structure Desc where
  w0 : Word := 0
  w1 : Word := 0
  deriving DecidableEq, Repr

/-- The kind of a partial-sum latch, in the coding of 07 R153. -/
inductive LKind where
  | fp32 | fp64 | int64 | n64
  deriving DecidableEq, Repr

/-- The operator of a partial-sum latch, in the coding of 07 R153. -/
inductive LOp where
  | add | min | max
  deriving DecidableEq, Repr

/-- A partial-sum latch; at task start FP32 add holding +0.0 (07 R152). -/
structure Latch where
  val : Word := 0
  kind : LKind := .fp32
  op : LOp := .add
  poison : Bool := false
  deriving DecidableEq, Repr

/-- The form of an accumulator tile (08 R155, R177). -/
inductive Form where
  | fp32 | fp64 | i32 | i16
  deriving DecidableEq, Repr

/-- An accumulator tile: its form and its elements' codes by row-major index, in canonical form:
indices strictly rising, no zero code listed (08 R155, R168). -/
structure Tile where
  form : Form := .fp32
  elems : List (Nat × Word) := []
  deriving DecidableEq, Repr

/-- A tag mode (06 R108). -/
inductive TagMode where
  | keep | wait | take | fill
  deriving DecidableEq, Repr

/-- A result on its way to a register, predicate, latch, descriptor, table entry or special
register (03 R30); `base` is the first word that a `DADV` leaves in a descriptor (07 R151), `count` the count that a
`DCNT` or a `VCOMP` stream leaves there, none until the stream has landed (07 R144, R151). -/
inductive Write where
  | sreg (r : SReg) (v : Reg)
  | pred (k : PRegNum) (v : PReg)
  | special (n : Nat) (v : Word) (priv : Bool)
  | desc (d : DReg) (v : Desc)
  | base (d : DReg) (v : Word)
  | count (d : DReg) (n : Option Nat)
  | chain (n : BitVec 3) (v : Word)
  | fm (n : BitVec 4) (v : BitVec 32)
  | sc (n : BitVec 4) (v : BitVec 8)
  | slack (c : BitVec 4) (v : BitVec 16)
  | allow (w : BitVec 3) (v : Nat)
  | latch (p : BitVec 2) (v : Latch)
  | flags (f : Flags)
  deriving DecidableEq, Repr

/-- A result in flight: issued in issue cycle `issued` with bound `bound`, landing `land` issue
cycles after it (03 R31). `applied` says that it has landed in a special register, where it stays
listed until its bound elapses because a later write may overlap it (03 R32). `latch` is the latch an
`RDRN` read it from (07 R154), `stream` the stream that gives a count (R144). -/
structure Pend where
  w : Write
  issued : Nat
  bound : Nat
  land : Nat
  applied : Bool := false
  latch : Option (BitVec 2) := none
  stream : Option Nat := none
  deriving DecidableEq, Repr

/-- An entry of the load-data queue: reserved at issue, with its value once it is back (06 R103). -/
structure LqEnt where
  id : Nat
  data : Option Reg := none
  deriving DecidableEq, Repr

/-- What an A-pipe access does at its word (06 R112 to R119). -/
inductive AccKind where
  | read (mode : TagMode)
  | tagq
  | write (mode : TagMode) (data : List Byte)
  | setTag (full : Bool)
  | atom (op : Nat) (v v2 : Word) (fetch : Bool)
  deriving DecidableEq, Repr

/-- How far an access to HBM has come at its bank: not arrived, queued, or its service started (10 R188). -/
inductive BankStage where
  | before | queued | served
  deriving DecidableEq, Repr

/-- An A-pipe access issued and not yet performed: a load-address or write-queue entry (06 R103).
`deps` are the outstanding operations it waits for under 06 R107, R123 and 05 R82; `opened` is the cycle of
its opening and, once it has begun, that of its beginning (06 R121); `win` and `rank` name the window it goes
through, `slack` is that of its class at its issue (16 R263); `joined` lists the atomics that have merged into
it; `source` says, for an access through a window that waits at its source for a stream of its own bundle, whether it
is an `LDS` (18 R292). -/
structure Acc where
  id : Nat
  kind : AccKind
  cls : Nat
  addr : Word
  loc : Nat
  size : Nat
  deps : List Nat := []
  lq : Option Nat := none
  ldc : Bool := false
  begun : Bool := false
  opened : Nat := 0
  merged : List (Nat × Word) := []
  win : Option Nat := none
  rank : Nat := 0
  bank : BankStage := .before
  slack : Nat := 0
  joined : List Nat := []
  source : Option Bool := none
  deriving DecidableEq, Repr

/-- How a stream or a command reaches the elements of one region, carried from issue (07 R129,
R131; 04 R60): the descriptor's number and fields, the location of the base, when the region
is scaled the scale table and the location of the index region, and the owner and number of what carries it. -/
structure Region where
  d : Nat
  kind : Nat
  base : Word
  loc : Nat
  stride : Int
  count : Nat
  code : Nat
  fmt : Fmt
  tag : TagMode
  cls : Nat
  scales : Option (List (BitVec 8) × Nat) := none
  actor : Option (Nat × Nat) := none
  deriving DecidableEq, Repr

/-- What a stream computes (07 R138 to R148, R153), by function number of its major. -/
inductive StreamOp where
  | vop (fn opt : Nat)
  | vsfn (fn : Nat)
  | chain (w : Word)
  | perm (fn : Nat)
  | scan (op : Nat)
  | red (fn : Nat) (ps : BitVec 2)
  | latchOut (ps : BitVec 2) (l : Latch)
  deriving DecidableEq, Repr

/-- A destination element computed by a group: index, code, poison. -/
structure OutElem where
  i : Nat
  code : Nat
  poison : Bool
  deriving DecidableEq, Repr

/-- A V or R stream issued and not yet landed (07 R125, R133, R134). Its bound is `lat` plus
`left`, the groups left when it was issued or resumed; `group` is the next group to pass, `seen` holds the source
words of the pass whose tags it has met, as it read them, `out`
the results of a group whose sources are read and whose destination tags are awaited, `acted` the destination words
of it that are written (R132),
`idx` the running index of a packing stream, `part` the carried partial. Where tags act once per element
access (R132), `single` is set, `pos` elements of the group have been read, and `held` are their results.
`savedA` and `savedB` hold source elements as they stood before a permuting stream overwrote the storage that each
shares with the destination element of its index, `keepA` and `keepB` a broadcast
element that the stream overwrites, as it was read (R133); `cover` gives the half-bytes written of lines
not yet written whole, `bad` the lines that took a poisoned element (R135). -/
structure Stream where
  id : Nat
  vpipe : Bool
  op : StreamOp
  n : Nat
  dst : Option Region := none
  a : Option Region := none
  b : Option Region := none
  deps : List Nat := []
  issued : Nat
  lat : Nat
  groups : Nat
  left : Nat
  group : Nat := 0
  seen : List (Nat × Nat × Bool) := []
  out : Option (List OutElem) := none
  acted : List Nat := []
  idx : Nat := 0
  part : Option Num := none
  flags : Flags := 0
  poison : Bool := false
  single : Bool := false
  pos : Nat := 0
  held : List OutElem := []
  savedA : List (Nat × Nat × Bool) := []
  savedB : List (Nat × Nat × Bool) := []
  keepA : Option (Nat × Bool) := none
  keepB : Option (Nat × Bool) := none
  cover : List (Nat × Nat) := []
  bad : List Nat := []
  deriving DecidableEq, Repr

/-- The shuttle configuration: flow, skew, selector and the `MFMT` formats, form and precision
(08 R156, R157, R159, R177); a step carries the format of B from issue beside it (R173). -/
structure MCfg where
  flow : Nat := 0
  skew : Nat := 1
  sel : Nat := 8
  fa : Nat := 3
  fb : Nat := 3
  form : Form := .fp32
  p : Nat := 1
  bFmt : Option Fmt := none
  deriving DecidableEq, Repr

/-- A shuttle command (08 R173, R177), with what it carries from issue. -/
inductive MKind where
  | step (acc : Nat) (wide : Bool) (depth : Nat) (tag : TagMode) (init : Nat) (a : Region)
      (b : Option Region) (cfg : MCfg)
  | zero (n : Nat) (wide : Bool) (v : Nat) (f : Form)
  | drain (d : Region) (n : Nat) (mode : Nat) (clr : Bool)
  | load (n : Nat) (a : Region) (f : Form) (mode : Nat)
  | weights (b : Region) (nr lanes : Nat) (p : Nat)
  | program (slot : Nat) (a : Region)
  | config (cfg : MCfg)
  deriving DecidableEq, Repr

/-- A shuttle command issued and not yet completed (08 R170 to R172): whether it has started, the beats or groups done,
the beats of a started step, its failure reason (R165), the words whose tags it has tested, the operand words that
earlier beats of the product under way have read with their values and poison (09 R185), and whether a configuration
command has started behind it. -/
structure MCmd where
  id : Nat
  owner : Nat
  badr : Word
  kind : MKind
  deps : List Nat := []
  started : Bool := false
  beat : Nat := 0
  total : Nat := 0
  fail : Option Nat := none
  flags : Flags := 0
  acted : List Nat := []
  seen : List (Nat × Nat × Bool) := []
  fenced : Bool := false
  deriving DecidableEq, Repr

/-- A copy command issued and not yet completed (10 R198 to R205): its engine and die, its block's
words with any patch applied, what it carries from issue, and its progress: destination bytes
done, words whose tags it has acted on. `die` is the engine's, `store` that of the weight store a `CPYW`
fills, `source` the context bank it came from, or 2 for the control core (R198). Of the segment in hand,
`seen` holds the source words taken so far with their values and poison, `put` the words written; `cover`
and `bad` are as in a stream. `dirty` lists the bytes that software has written since the issue (R199; log entry 85). -/
structure CopyCmd where
  id : Nat
  owner : Nat
  fn : Nat
  eng : Bool
  die : Nat
  blk : List Word
  blkLoc : Nat
  cls : Nat
  sfmt : Option Fmt := none
  dfmt : Option Fmt := none
  scales : List (BitVec 8) := []
  deps : List Nat := []
  priv : Bool := false
  ptbase : Nat := 0
  asid : Nat := 0
  accepted : Bool := false
  started : Bool := false
  done : Nat := 0
  paused : Bool := false
  fail : Option Nat := none
  flags : Flags := 0
  actedS : List Nat := []
  actedD : List Nat := []
  store : Nat := 0
  source : Nat := 2
  dirty : List Nat := []
  seen : List (Nat × Nat × Bool) := []
  put : List Nat := []
  cover : List (Nat × Nat) := []
  bad : List Nat := []
  deriving DecidableEq, Repr

/-- A command of a commit batch: its batch token, its engine of 08 R183 and its error reason. -/
structure CmdRec where
  id : Nat
  tok : Nat
  eng : Nat
  done : Bool := false
  err : Option Nat := none
  deriving DecidableEq, Repr

/-- A batch id's state (08 R182). -/
inductive BatchSt where
  | free
  | held (tok : Nat)
  | error (eng reason : Nat)
  deriving DecidableEq, Repr

/-- A `FENCE` still standing: its class mask and the earlier accesses it waits for (06 R123). -/
structure FenceSt where
  mask : BitVec 16
  deps : List Nat
  deriving DecidableEq, Repr

/-- A walk or lookup in progress for a held A word (13 R211, R212), in the address space and under the table
root of its issue (R220). -/
structure Walk where
  va : Word
  asid : Nat
  root : Nat
  write : Bool
  priv : Bool
  shared : Bool
  level : Nat
  entry : Nat
  deriving DecidableEq, Repr

/-- What became of a held A word's translation. -/
inductive WalkResult where
  | running
  | done (pa : Nat)
  | fault (reason : Nat)
  | machine
  deriving DecidableEq, Repr

/-- What the current bundle's words have decided about control: nothing; a transfer; a trap
delivered; a stall (on an entry of `lq` that is not back, or not); the bundle held in the replay
buffer; the context gone from the core. The last three are decisions of a C word that waits for
the replay buffer (13 R221): a cause of completion kind, an `ERET.to`, another word. -/
inductive Ctl where
  | seq
  | jump (t : Word)
  | trapped
  | stalled (lqEmpty : Bool)
  | held
  | gone
  | deferTrap (cause : Nat) (tval : Word)
  | deferEret (t : Word)
  | deferWord (i : Instr)
  deriving DecidableEq, Repr

/-- The replay buffer (13 R209, R221): the held access with its operand values, its `LDS` mark,
the bundle's address and words, the index of the A word, the outcome of the C word, and the
translation in progress. -/
structure Replay where
  acc : Acc
  lds : Bool
  badr : Word
  words : List IWord
  slot : Nat
  ctl : Ctl := .seq
  walk : Walk
  result : WalkResult := .running
  deriving DecidableEq, Repr

/-- What a task's launch gives its context (05 R74, R75; 14 R236, R244; 21 R313). -/
structure Task where
  node : Nat := 0
  launch : Nat := 0
  level : Nat := 0
  regsN : Nat := 60
  accsN : Nat := 8
  yieldwin : Nat := 4096
  lifetime : Nat := 1000000
  coreBase : Nat := 0
  coreSize : Nat := 0
  quadBase : Nat := 0
  quadSize : Nat := 0
  reserve : Bool := false
  reserveQ : Bool := false
  barriers : List Nat := []
  placed : Nat := 0
  deriving DecidableEq, Repr

/-- A fault record for the firmware: header word 1 to 3 of 13 R226. -/
structure FaultRec where
  cause : Nat
  under : Nat := 0
  reason : Nat := 0
  pbits : Nat := 0
  words : Nat := 0
  code : Nat := 0
  addr : Word := 0
  badr : Word := 0
  deriving DecidableEq, Repr

/-- One context: everything 02 R12 lists as held per context, with the replay buffer and the
hidden resume state (13 R224). `uid` names it to the engines; `codePages` and `codeOff` say where its
code lies, `codeLit` holds a finalised code (21 R316, R317); `captured` says that it has been captured
and not yet restored; `areaFv` is the count of the free values that its spill left in the words reserved to hardware
(13 R226); `stop` is the capability entry that stops it, `bps` its breakpoints as (slot,
address, entry) (20 R304). -/
structure Ctx where
  uid : Nat := 0
  regs : Vector Reg 64 := Vector.replicate 64 {}
  preds : Vector PReg 8 := Vector.replicate 8 {}
  pend : List Pend := []
  icyc : Nat := 0
  descs : Vector Desc 32 := Vector.replicate 32 {}
  chains : Vector Word 8 := Vector.replicate 8 0
  latches : Vector Latch 4 := Vector.replicate 4 {}
  fms : Vector (BitVec 32) 16 := Vector.replicate 16 0
  scs : Vector (BitVec 8) 16 := Vector.replicate 16 0
  tiles : Vector Tile 8 := Vector.replicate 8 {}
  lq : List LqEnt := []
  accs : List Acc := []
  streams : List Stream := []
  fences : List FenceSt := []
  drains : List Nat := []
  slack : Vector (BitVec 16) 16 := Vector.replicate 16 0xFFFF
  allow : Vector Nat 8 := Vector.replicate 8 64
  outWin : Vector Nat 8 := Vector.replicate 8 0
  openTok : Nat := 0
  cmds : List CmdRec := []
  batches : Vector BatchSt 8 := Vector.replicate 8 .free
  unseen : Bool := false
  xq : List Nat := []
  mcfg : MCfg := {}
  forms : Vector Form 8 := Vector.replicate 8 .fp32
  savedCmds : List MCmd := []
  pc : Word := 0
  codeOrigin : Word := 0
  codeLen : Nat := 0
  codePages : List Nat := []
  codeOff : Nat := 0
  codeLit : Option (List Byte) := none
  lbeg : Word := 0
  lend : Word := 0
  lcnt : Word := 0
  flags : Flags := 0
  priv : Bool := false
  acchk : Bool := false
  tcx : Word := 0
  tcy : Word := 0
  tcz : Word := 0
  tcause : Word := 0
  tbadr : Word := 0
  tval : Word := 0
  thand : Word := 0
  lqwait : Word := 0
  lotflags : BitVec 16 := 0
  ptbase : Word := 0
  asid : Word := 0
  ctxsave : Word := 0
  resumeAddr : Word := 0
  savedLbeg : Word := 0
  savedLend : Word := 0
  savedLcnt : Word := 0
  replay : Option Replay := none
  fault : Option FaultRec := none
  ending : Bool := false
  tlbWait : Option (List Nat) := none
  tlbSegs : List (Nat × Nat) := []
  task : Task := {}
  captured : Bool := false
  stop : Option Nat := none
  bps : List (Nat × Word × Nat) := []
  bpSkip : Bool := false
  stepOne : Bool := false
  stepDone : Bool := false
  withdrawn : List Nat := []
  capDeps : List Nat := []
  stepped : Bool := false
  areaFv : Nat := 0
  deriving DecidableEq, Repr

/-- The state of a context bank (13 R224). -/
inductive BankSt where
  | running | ready | held | spilling | filling | empty
  deriving DecidableEq, Repr

/-- A slot of the stitch store: its micro-words and the task that last loaded it (08 R155, R167). -/
structure Slot where
  words : List (BitVec 16) := []
  owner : Option Nat := none
  deriving DecidableEq, Repr

/-- An open line of the source combining buffer (16 R257). -/
structure Line where
  owner : Nat
  ids : List Nat
  addr : Nat
  rank : Nat
  win : Nat
  cls : Nat
  bytes : List (Option Byte)
  slack : Nat
  opened : Nat
  openedNs : Nat
  deriving DecidableEq, Repr

/-- One named barrier of the core: who holds it, its configuration, its arrival pending and
counted, the arrivals of the open phase, a phase completed, in cycle `doneAt`, and not yet delivered, and the
scope `span` of this core's last arrival (14 R244 to R249). -/
structure Barrier where
  holder : Option Nat := none
  number : Nat := 0
  conf : Option (Nat × Nat) := none
  pending : Bool := false
  counted : Bool := false
  deps : List Nat := []
  arrivals : Nat := 0
  completed : Bool := false
  doneAt : Nat := 0
  span : Nat := 0
  releasing : Bool := false
  deriving DecidableEq, Repr

/-- An access parked at a word until its tag is full or empty (06 R109). -/
structure Waiter where
  word : Nat
  owner : Nat
  id : Nat
  needFull : Bool
  deriving DecidableEq, Repr

/-- The units of the followed core that no switch exchanges (02 R12); `freed` lists, by identifier, the operations that
waited in a partition when it was freed, with its first location and size (06 R99); `bkcfl` counts the cycles lost at
the banks of its core scratchpad and of its quad scratchpad (06 R101, 20 R312). -/
structure CoreSt where
  control : Bool := false
  mc : Vector Word 5 := Vector.replicate 5 0
  emerg : Word := 0
  cfg : MCfg := {}
  slots : Vector Slot 4 := Vector.replicate 4 {}
  wtRows : Nat := 0
  wtLanes : Nat := 1
  wtCode : Nat := 3
  wtP : Nat := 1
  wts : List (Nat × Num × Flags) := []
  shq : List MCmd := []
  copies : List CopyCmd := []
  copyLast : List (Nat × Nat) := []
  lines : List Line := []
  bars : List (Nat × Barrier) := []
  yieldReq : Option (Nat × Nat) := none
  way5 : Option Nat := none
  slkexh : Vector Nat 16 := Vector.replicate 16 0
  bkcfl : Vector Word 2 := Vector.replicate 2 0
  spilling : Option Nat := none
  filling : Option Nat := none
  emergFault : Option FaultRec := none
  fillFault : Option FaultRec := none
  parked : List Waiter := []
  freed : List (Nat × Nat × Nat) := []
  saved : List (Nat × Ctx) := []
  beatDone : Bool := false
  charged : Word := -1
  chargeBank : Bool := false
  chargeAsid : Nat := 0
  lastStep : Word := 0
  lastOwner : Nat := 0
  charge : Vector Nat 5 := Vector.replicate 5 0
  deriving DecidableEq, Repr

/-- A TLB entry: asid, first virtual page address, page size in bits, frame, and the leaf's w, u,
g and d (13 R209, R211). -/
structure TlbEnt where
  asid : Nat
  va : Nat
  bits : Nat
  pa : Nat
  w : Bool
  u : Bool
  g : Bool
  d : Bool
  deriving DecidableEq, Repr

/-- Translation: the core's micro-TLB, the die's shared TLB and its walk caches, each entry of
which is an asid, a level, the address bits above it and the next table's address (13 R209). -/
structure Xlate where
  micro : List TlbEnt := []
  shared : List TlbEnt := []
  walks : List (Nat × Nat × Nat × Nat) := []
  deriving DecidableEq, Repr

/-- An access queued at a bank: its arrival cycle, its row, whether it reads a line, the die it is for, and the
A-pipe access it serves, none for a line of an engine (10 R188). -/
structure HReq where
  cyc : Nat
  row : Nat
  read : Bool
  die : Nat := 0
  id : Option Nat := none
  deriving DecidableEq, Repr

/-- A bank of a pseudo-channel: open row, last service start, the cycle its service ends, the cycle its
refresh ends, and the accesses queued in arrival order (10 R188, R189, R191). -/
structure HBank where
  row : Option Nat := none
  last : Nat := 0
  busy : Nat := 0
  refresh : Nat := 0
  queue : List HReq := []
  deriving DecidableEq, Repr

/-- A pseudo-channel: its dues acted on, postponement count, the start of a forced all-bank refresh and
whether that is still to start, and counters (10 R190, R191, R193; 11 R207). -/
structure HChan where
  dues : Nat := 0
  post : Nat := 0
  called : Bool := false
  allStart : Option Nat := none
  refpost : Nat := 0
  refall : Nat := 0
  deriving DecidableEq, Repr

/-- HBM timing state and counters, those of a die or an engine by its number; the weight store's refresh
window, and, of each die, the window whose waiting cycles `wswin` already counts (10 R188 to R197). -/
structure HbmSt where
  banks : List (Nat × HBank) := []
  chans : List (Nat × HChan) := []
  hbmrdln : List (Nat × Nat) := []
  hbmwait : List (Nat × Nat) := []
  wswin : List (Nat × Nat) := []
  cpyln : List (Nat × Nat) := []
  wsWindow : Option Nat := none
  wsNoted : List (Nat × Nat) := []
  deriving DecidableEq, Repr

/-- Where a packet is on its way (16 R259, R262, R339): in its package's queues, under way, in the
reorder buffer, performed and its answer under way, or withdrawn to its source (R261). -/
inductive PktStage where
  | queued | flight | accepted | performed | withdrawn
  deriving DecidableEq, Repr

/-- What a packet of a collective carries: a member's post, a ticket, a notice with the code it brings, a
withdrawal or cancellation to a hoop, a piece with the context that posted, or the answer to a piece, which
acknowledges or defers it (17 R278 to R285). -/
inductive CollMsg where
  | post (cmd : Nat)
  | ticket (t : Ticket)
  | notice (c : CollId) (code : Nat)
  | withdraw (c : CollId) (cancelled : Bool)
  | piece (p : Piece) (pos poster : Nat)
  | answer (p : Piece) (deferred : Bool)
  deriving DecidableEq, Repr

/-- What a packet asks of its target (16 R255, R257, R269; 17 R281). -/
inductive PktKind where
  | line (bytes : List (Option Byte))
  | access (a : Acc)
  | withdraw (acc : Nat)
  | coll (m : CollMsg)
  deriving DecidableEq, Repr

/-- A packet of the followed core: its destination package and location, the packages it was sent to and those
where it has yet to perform, class and sequence
number, slack, entry time, marks, lost arbitrations at its output, the time from which it has had no usable
output, the time it left its output, and the answer it will bring back (16 R259 to R267). Its virtual channel
is that of hop index 0, of a request or of a reply. `dup` marks a second copy that a resubmission made (R267),
`waited` that a rank hold has kept it at its source (17 R286). -/
structure Packet where
  id : Nat
  owner : Nat
  ids : List Nat := []
  kind : PktKind
  rank : Nat
  pkg : Nat
  targets : List Nat
  dests : List Nat := []
  loc : Nat
  cls : Nat
  seq : Nat
  win : Nat
  counted : Bool
  slack : Nat
  entry : Nat
  marked : Bool := false
  lost : Nat := 0
  port : Option Nat := none
  vc : Nat := 0
  stuck : Nat := 0
  left : Nat := 0
  dup : Bool := false
  waited : Bool := false
  stage : PktStage := .queued
  answer : Option Reg := none
  error : Bool := false
  tsend : Option Nat := none
  deriving DecidableEq, Repr

/-- A timed send in its table (16 R269): `fromLoc` is where its source lies, `sent` is the location, in each package of
a list, that its bytes have left for, and `dirty` lists the bytes of its source that software has written since the
issue (log entry 85). -/
structure TSend where
  id : Nat
  owner : Nat
  blkLoc : Nat
  dest : Word
  from_ : Word
  bytes : Nat
  slack : Nat
  notbefore : Nat
  cls : Nat
  deps : List Nat := []
  entered : Bool := false
  late : Bool := false
  departed : Option Nat := none
  unanswered : List Nat := []
  failed : Bool := false
  fromLoc : Nat := 0
  sent : Option (Nat × List Nat) := none
  dirty : List Nat := []
  deriving DecidableEq, Repr

/-- The fabric as the package sees it: the rank table and the member array of its current job, route table,
links down, packets, sequence numbers, timed sends, counters, and the cycle from which the core's egress queue
is free (16; log entry 89). -/
structure FabSt where
  ranks : List (Nat × Word) := []
  members : List (Nat × Nat) := []
  routes : List (Nat × List (Nat × Nat)) := []
  down : List Nat := []
  pkts : List Packet := []
  nextPkt : Nat := 0
  sendSeq : List (Nat × Nat) := []
  tsends : List TSend := []
  portod : List (Nat × Nat) := []
  portstv : List (Nat × Nat) := []
  egress : Nat := 0
  deriving DecidableEq, Repr

/-- A `CCANCEL` or `CQUERY` on its way to the posted-collective table, or a `CCANCEL` there until
it completes, with the command of the collective it cancels (17 R285, R287). -/
structure FabCmd where
  id : Nat
  owner : Nat
  query : Bool
  cid : CollId
  blkLoc : Nat
  reached : Bool := false
  cancels : Nat := 0
  deriving DecidableEq, Repr

/-- A posted collective on this member (17 R270 to R287): its block words, its place in the
group, its code of R274, its ticket, its timing, the pieces begun here, received and waiting to
leave, and the destination elements written as (first, number); whether its withdrawal went to the hoop, the ns
of the last attempt to pin, the pinned frames by page, the sequencer of its ring context, and the bytes of its buffers
that software has written since the issue; `to` and `from` as an address, a near location and a length (log entry 85);
whether its command is still to complete, its final code given, because the member has yet to read some of its source
(17 R277, R281; log entry 100). -/
structure Coll where
  cid : CollId
  cmd : Nat
  owner : Nat
  blk : List Word
  blkLoc : Nat
  cls : Nat
  asid : Nat
  ptbase : Nat
  priv : Bool
  deps : List Nat := []
  code : Nat := 1
  entered : Bool := false
  pinned : Bool := false
  left : Bool := false
  pos : Nat := 0
  n : Nat := 0
  deadline : Nat := 0
  ticket : Option Ticket := none
  admitted : Option Nat := none
  written : List (Nat × Nat) := []
  sent : List (Nat × Nat) := []
  got : List (Nat × Nat × Nat) := []
  staged : List (Nat × Piece) := []
  flags : Flags := 0
  withdrew : Bool := false
  tried : Option Nat := none
  frames : List (Nat × Nat) := []
  seqr : Nat := 0
  dirty : List Nat := []
  toAddr : Nat := 0
  toLoc : Option Nat := none
  toLen : Nat := 0
  fromAddr : Nat := 0
  fromLoc : Option Nat := none
  fromLen : Nat := 0
  unsettled : Bool := false
  deriving DecidableEq, Repr

/-- A sequence number pending at a hoop: the first post's values, who has posted, the code that later posters
complete with, and the ns from which every member's post is held (17 R278). -/
structure HoopEnt where
  cid : CollId
  key : PostKey
  posted : List Nat
  dead : Option Nat := none
  full : Option Nat := none
  deriving DecidableEq, Repr

/-- Collectives of the package: the table, those past their final code that still pass pieces on, those whose
batch may still be incomplete, hoop entries,
the highest ticketed sequence number L of each group, the ns from which the next ticket may be issued, the
highest admitted rank A, the free ring contexts of each sequencer, overflow list and quota, the pieces deferred
here and those whose receiver deferred them, with the ns of the deferral, the skew alarm, the final codes, and the
commands on their way to the table (17 R270, R272, R278 to R282, R285, R287). -/
structure CollSt where
  table : List Coll := []
  tail : List Coll := []
  closing : List Coll := []
  hoop : List HoopEnt := []
  lastSeq : List (Nat × Nat) := []
  nextIssue : Nat := 0
  admitted : Option Ticket := none
  rings : List Nat := List.replicate 32 8
  overflow : List Piece := []
  deferred : List (Nat × Piece) := []
  resend : List (Nat × Nat × Piece) := []
  quota : Nat := 256
  skewAlarm : Bool := false
  finals : List (CollId × Nat × Nat) := []
  fabq : List FabCmd := []
  deriving DecidableEq, Repr

/-- A loaded kernel image: its header fields, the pages its code lies in and the offset of the code
in the first of them, and the code as it was loaded, finalised for a form 1 image, which is what its launches run;
`ready` once loading is complete; the node that loaded it; the lowest removal generation of its code (21 R313, R316
to R318). -/
structure Image where
  addr : Nat
  asid : Nat
  regs : Nat
  accs : Nat
  barriers : Nat
  yieldwin : Nat
  scratch : Nat
  quadscratch : Nat
  lifetime : Nat
  codeLen : Nat
  pages : List Nat := []
  off : Nat := 0
  lit : Option (List Byte) := none
  ready : Bool := false
  id : Nat := 0
  rmgen : Nat := 0
  deriving DecidableEq, Repr

/-- A launch node in the pricking's own record (14 R232 to R238): the record's fields and where it
was read, the poster's address space and privilege, its state and reason of word 6, the outcome of
loading (0 loaded, else the reason to finish with), the tasks placed and ended, the error a task
ended with, its place in the order of readiness, the node whose task posted it by `REQUEUE`, and the image its
launch runs, by the node that loaded it (21 R317). -/
structure Node where
  addr : Nat
  gen : Nat
  asid : Nat := 0
  ptbase : Nat := 0
  priv : Bool := false
  kind : Nat := 0
  prio : Nat := 0
  code : Nat := 0
  cfn : Nat := 0
  gx : Nat := 1
  gy : Nat := 1
  gz : Nat := 1
  args : Nat := 0
  preds : Nat := 0
  succs : List Nat := []
  st : Nat := 1
  reason : Nat := 0
  forced : Nat := 0
  load : Option Nat := none
  loaded : Bool := false
  next : Nat := 0
  ended : Nat := 0
  readyAt : Nat := 0
  claimant : Bool := false
  failed : Option Nat := none
  copy : Option Nat := none
  requeued : Option Nat := none
  image : Option Nat := none
  deriving DecidableEq, Repr

/-- A post in, or on its way to, the post queue, or standing in a mailbox word: record address, the
poster's privilege, level and address space, the issuing node when it is a `REQUEUE`, the earlier
accesses of the poster that must perform before it enters, and whether it has entered (14 R234, R235, R250,
R338). -/
structure Post where
  addr : Nat
  priv : Bool
  level : Nat
  asid : Nat := 0
  ptbase : Nat := 0
  requeue : Option Nat := none
  mail : Option Nat := none
  deps : List Nat := []
  entered : Bool := false
  deriving DecidableEq, Repr

/-- A partition granted to a launch: of a core or of a quad, in the reserve or not, and how many
of its tasks hold it, and its bank key, which no view reads (06 R96 to R98, R100). -/
structure Grant where
  quad : Bool
  unit : Nat
  launch : Nat
  base : Nat
  size : Nat
  reserve : Bool := false
  tasks : Nat := 1
  key : Word := 0
  deriving DecidableEq, Repr

/-- A partition saved by an eviction: its grant, bytes, empty words, marked lines (06 R98). -/
structure Evicted where
  grant : Grant
  bytes : List (Nat × Byte) := []
  empties : List Nat := []
  marks : List Nat := []
  deriving DecidableEq, Repr

/-- A task placed on another core than the one followed: its core, its level, the cycle of its placement (14 R239),
its launch, and its core and quad partitions (06 R97). -/
structure Placed where
  core : Nat
  level : Nat
  at_ : Nat
  launch : Nat := 0
  base : Nat := 0
  size : Nat := 0
  quadBase : Nat := 0
  quadSize : Nat := 0
  deriving DecidableEq, Repr

/-- The pricking: post queue and mailbox posts, nodes, images, reported resources, the tasks placed on other
cores, the victim request in preparation, evicted partitions, counters, and the address space last given to a
job, in which hosts post (14 R231 to R243; 20 R301). -/
structure SchedSt where
  posts : List Post := []
  nodes : List Node := []
  gens : Nat := 0
  images : List Image := []
  reports : List (Nat × CoreReport) := []
  grants : List Grant := []
  placed : List Placed := []
  victim : Option Nat := none
  postdup : Nat := 0
  evicted : List Evicted := []
  uids : Nat := 1
  jobAsid : Nat := 0
  deriving DecidableEq, Repr

/-- A valid entry of the capability table (20 R301). -/
structure Cap where
  rights : BitVec 6
  parent : Nat
  asid : Nat
  holder : BitVec 32
  deriving DecidableEq, Repr

/-- A trace, sample or count session (20 R302, R308). -/
structure Session where
  cap : Nat
  kind : Nat
  k : Nat
  deriving DecidableEq, Repr

/-- A trace record's four words (20 R306), and the capability entries of the sessions it is for. -/
structure TraceRec where
  w0 : Word
  badr : Word
  cycle : Word
  payload : Word
  caps : List Nat := []
  deriving DecidableEq, Repr

/-- Debug rights, the entry that holds the stop of the core, sessions, the records not yet forwarded, how many
have been made and how many stand in the die's buffer, and the last cycle that was sampled (20 R301 to
R308). -/
structure DbgSt where
  caps : List (Nat × Cap) := []
  stopHolder : Option Nat := none
  sessions : List Session := []
  trace : List TraceRec := []
  traced : Nat := 0
  written : Nat := 0
  trdrop : Nat := 0
  sampled : Option Nat := none
  deriving DecidableEq, Repr

/-- The host control endpoint, boot and power (22 R320 to R325). `image` is what the hash of the
running firmware covers, `slew` the rate at which the time service corrects `ftime`, in ppm (02 R19),
`out` the last answer a host or a tool received, `refusals` the requests refused, `asks` the ports
that the next configuration requests come through, oldest first, while no port asks where it lists none (22 R322; log
entry 28), `late` the unordered host writes that have not performed (R320), `arrived` the ranges of the boot window
written since it opened (R323). -/
structure HostSt where
  hsem : Nat := 0
  pwrlim : Nat := 12000
  clkStep : Nat := 0
  hot : Nat := 0
  pcap : Bool := false
  tcap : Bool := false
  trip : Bool := false
  boot : Nat := 0
  refused : Nat := 0
  boots : Nat := 0
  off : Bool := false
  slew : Int := 0
  image : List Byte := []
  out : List Byte := []
  refusals : Nat := 0
  asks : List Bool := []
  late : List (Nat × List Byte) := []
  arrived : List (Nat × Nat) := []
  deriving DecidableEq, Repr

/-- The state of the machine. `mem` lists the bytes that differ from zero by location, `empties`
the scratchpad words whose tag is empty, `marks` the poison-marked lines (06 R95). `agenda`
holds the steps that move next, `stalled` says that the machine's other parts move before the core,
`fv` counts the free values drawn (log entries 3 and 5). -/
structure State where
  cx : Ctx
  sh : Ctx
  cxSt : BankSt
  shSt : BankSt
  bank : Bool
  coreid : Nat
  pkgid : Nat
  rank : Nat
  mem : List Host.Cell
  empties : List Nat
  marks : List Nat
  cyc : Nat
  ftime : Nat
  ftPhase : Nat
  badr : Word
  bundle : List IWord
  widx : Nat
  ctl : Ctl
  stalled : Bool
  agenda : List Instr
  fv : Nat
  nextId : Nat
  core : CoreSt
  xl : Xlate
  hbm : HbmSt
  fab : FabSt
  coll : CollSt
  sched : SchedSt
  dbg : DbgSt
  host : HostSt
  deriving DecidableEq, Repr

/-- The format registers' reset values (04 R50). -/
def fmReset : Vector (BitVec 32) 16 :=
  #v[0x1E300700, 0x06A00F00, 0x2D300100, 0x2DA00300, 0x2D100100, 0x4C700000, 0x4C300000,
     0x1E300700, 0x1E300700, 0x1E300700, 0x1E300700, 0x1E300700, 0x1E300700, 0x1E300700,
     0x1E300700, 0x1E300700]

/-- A context as a task starts with it, before its arguments (05 R74; 07 R152; 08 R167, R168;
16 R256, R263). -/
def Ctx.fresh : Ctx := { fms := fmReset }

/-- The machine right after package reset (22 R323, with the reset values of each chapter; the
values the manual does not give are those of log entry 1): no context is in a bank, the boot
ROM waits for an image, memory lists nothing, every tag is full. -/
def State.reset : State where
  cx := Ctx.fresh
  sh := Ctx.fresh
  cxSt := .empty
  shSt := .empty
  bank := false
  coreid := 0
  pkgid := 0
  rank := 0
  mem := []
  empties := []
  marks := []
  cyc := 0
  ftime := 0
  ftPhase := 0
  badr := 0
  bundle := []
  widx := 0
  ctl := .seq
  stalled := false
  agenda := []
  fv := 0
  nextId := 1
  core := {}
  xl := {}
  hbm := {}
  fab := {}
  coll := {}
  sched := {}
  dbg := {}
  host := {}

end Sys2Proof.Machine
end

