-- ==== Sys2Proof/Machine/Mem.lean ====
section
/-!
DEFINITION. Memory: the one list of bytes, its canonical form, and the sets of empty tags and of
poison-marked lines; where each memory of the package lies among the locations (02 R15, R17,
06 R95). All reads and writes of memory go through these operations.
-/

namespace Sys2Proof.Machine

open Sys2Proof

/-! ### Finite sets of numbers in rising order -/

/-- Insertion into a strictly rising list. -/
def insertNat (a : Nat) : List Nat → List Nat
  | [] => [a]
  | b :: t => if a < b then a :: b :: t else if a = b then b :: t else b :: insertNat a t

/-- Removal of a number. -/
def eraseNat (a : Nat) (l : List Nat) : List Nat := l.filter (fun b => b != a)

/-- A strictly rising list. -/
def rising : List Nat → Bool
  | a :: b :: t => decide (a < b) && rising (b :: t)
  | _ => true

/-! ### Bytes -/

/-- What an unlisted location reads as: zero (log entry 6). -/
def unlisted : Byte := 0

/-- The byte at a location. -/
def getCell : List Host.Cell → Nat → Byte
  | [], _ => unlisted
  | (k, v) :: t, a => if k = a then v else getCell t a

/-- Insertion of a byte that differs from the unlisted value. -/
def insertCell (a : Nat) (v : Byte) : List Host.Cell → List Host.Cell
  | [] => [(a, v)]
  | (k, w) :: t =>
    if a < k then (a, v) :: (k, w) :: t
    else if a = k then (a, v) :: t
    else (k, w) :: insertCell a v t

/-- A write of one byte, which keeps the canonical form. -/
def setCell (a : Nat) (v : Byte) (m : List Host.Cell) : List Host.Cell :=
  if v = unlisted then m.filter (fun c => c.1 != a) else insertCell a v m

/-- The canonical form: locations strictly rising, no unlisted value. -/
def Memory.wf : List Host.Cell → Bool
  | (a, v) :: (b, w) :: t => decide (a < b) && v != unlisted && Memory.wf ((b, w) :: t)
  | [(_, v)] => v != unlisted
  | [] => true

/-! ### Locations -/

/-- The first location of a package. -/
def pkgBase (p : Nat) : Nat := p * 2 ^ 43

/-- The location of a physical HBM address (10 R187). -/
def hbmLoc (p pa : Nat) : Nat := pkgBase p + pa % 2 ^ 41

/-- The location of an offset of a core scratchpad. -/
def coreLoc (p core off : Nat) : Nat := pkgBase p + 2 ^ 41 + core * 2 ^ 21 + off % 2 ^ 21

/-- The location of an offset of a quad scratchpad; quads are numbered core index ÷ 4. -/
def quadLoc (p quad off : Nat) : Nat := pkgBase p + 2 ^ 42 + quad * 2 ^ 23 + off % 2 ^ 23

/-- The location of an offset of a die's weight store. -/
def wsLoc (p die off : Nat) : Nat := pkgBase p + 2 ^ 42 + 2 ^ 41 + die * 2 ^ 28 + off % 2 ^ 28

/-- The memory a location lies in. -/
inductive Where where
  | hbm | core | quad | ws
  deriving DecidableEq, Repr

/-- The memory a location lies in. -/
def whereLoc (loc : Nat) : Where :=
  let o := loc % 2 ^ 43
  if o < 2 ^ 41 then .hbm
  else if o < 2 ^ 42 then .core
  else if o < 2 ^ 42 + 2 ^ 41 then .quad
  else .ws

/-- Whether the word at a location carries a tag: the two scratchpads (06 R95, R111). -/
def tagged (loc : Nat) : Bool :=
  match whereLoc loc with
  | .core | .quad => true
  | _ => false

/-! ### Operations of the state -/

/-- One byte of memory. -/
def State.byte (s : State) (loc : Nat) : Byte := getCell s.mem loc

/-- Write one byte. -/
def State.setByte (s : State) (loc : Nat) (v : Byte) : State :=
  { s with mem := setCell loc v s.mem }

/-- n bytes, lowest location first. -/
def State.bytes (s : State) (loc n : Nat) : List Byte :=
  (List.range n).map (fun i => s.byte (loc + i))

/-- Write bytes, lowest location first. -/
def State.setBytes (s : State) (loc : Nat) : List Byte → State
  | [] => s
  | b :: t => (s.setByte loc b).setBytes (loc + 1) t

/-- Write the bytes that are present. -/
def State.setMasked (s : State) (loc : Nat) : List (Option Byte) → State
  | [] => s
  | b :: t =>
    State.setMasked (match b with | some v => s.setByte loc v | none => s) (loc + 1) t

/-- A little-endian natural number from bytes. -/
def natOfBytes : List Byte → Nat
  | [] => 0
  | b :: t => b.toNat + 256 * natOfBytes t

/-- The n low bytes of a natural number, little-endian. -/
def bytesOfNat : Nat → Nat → List Byte
  | 0, _ => []
  | n + 1, v => BitVec.ofNat 8 v :: bytesOfNat n (v / 256)

/-- A little-endian number of n bytes in memory. -/
def State.readNat (s : State) (loc n : Nat) : Nat := natOfBytes (s.bytes loc n)

/-- Write a little-endian number of n bytes. -/
def State.writeNat (s : State) (loc n v : Nat) : State := s.setBytes loc (bytesOfNat n v)

/-- A 64-bit word in memory. -/
def State.word (s : State) (loc : Nat) : Word := BitVec.ofNat 64 (s.readNat loc 8)

/-- Write a 64-bit word. -/
def State.setWord (s : State) (loc : Nat) (v : Word) : State := s.writeNat loc 8 v.toNat

/-- Whether the 8-byte word at a location is full (06 R108). -/
def State.full (s : State) (loc : Nat) : Bool := !s.empties.contains (loc / 8)

/-- Set the tag of the word at a location; words of other memories have none. -/
def State.setTag (s : State) (loc : Nat) (full : Bool) : State :=
  if tagged loc then
    { s with empties := if full then eraseNat (loc / 8) s.empties
                        else insertNat (loc / 8) s.empties }
  else s

/-- Whether the 64-byte line at a location is poison-marked (06 R102). -/
def State.marked (s : State) (loc : Nat) : Bool := s.marks.contains (loc / 64)

/-- Set or clear the poison mark of the line at a location (06 R102, 10 R194). -/
def State.setMark (s : State) (loc : Nat) (m : Bool) : State :=
  if m then { s with marks := insertNat (loc / 64) s.marks }
  else { s with marks := eraseNat (loc / 64) s.marks }

/-- Whether any line of n bytes at a location is marked. -/
def State.markedRange (s : State) (loc n : Nat) : Bool :=
  s.marks.any (fun l => decide (loc / 64 ≤ l) && decide (l ≤ (loc + n - 1) / 64) && decide (0 < n))

/-- Zero a range, set its tags full and clear its marks: a grant (06 R96). -/
def State.zeroRange (s : State) (loc n : Nat) : State :=
  { s with
    mem := s.mem.filter (fun c => !(decide (loc ≤ c.1) && decide (c.1 < loc + n)))
    empties := s.empties.filter (fun w => !(decide (loc ≤ 8 * w) && decide (8 * w < loc + n)))
    marks := s.marks.filter (fun l => !(decide (loc ≤ 64 * l) && decide (64 * l < loc + n))) }

end Sys2Proof.Machine
end

