-- ==== Sys2Proof/Machine/Regs.lean ====
section
/-!
DEFINITION. Registers and results in flight: what a read sees (03 R31, R32, R36), when results
land, the special registers and their fields (05 R78 to R80; 13 R218, R220; 10 R196; 16 R265;
20 R311), the passing of one core cycle (02 R18, R19; 10 R192; 20 R309).
-/

namespace Sys2Proof.Machine

open Sys2Proof

/-- The destination of a result as a number; none for the flags, which are ORed. -/
def Write.key : Write → Option Nat
  | .sreg r _ => some r.toNat
  | .pred k _ => some (100 + k.toNat)
  | .desc d _ | .base d _ | .count d _ => some (200 + d.toNat)
  | .chain n _ => some (300 + n.toNat)
  | .fm n _ => some (400 + n.toNat)
  | .sc n _ => some (500 + n.toNat)
  | .slack c _ => some (600 + c.toNat)
  | .allow w _ => some (700 + w.toNat)
  | .latch p _ => some (800 + p.toNat)
  | .special n _ _ => some (1000 + n)
  | .flags _ => none

/-- Bits hi : lo of a word, as a number. -/
def bitsOf (w : Word) (lo len : Nat) : Nat := (w.toNat / 2 ^ lo) % 2 ^ len

/-- A word from a number. -/
def mkWord (n : Nat) : Word := BitVec.ofNat 64 n

/-- Keep bits lo + len - 1 : lo of a word. -/
def keep (w : Word) (lo len : Nat) : Word := mkWord (bitsOf w lo len * 2 ^ lo)

/-- Whether a result's value is known: that of a count is once its stream has landed (07 R144). -/
def Write.known : Write → Bool
  | .count _ none => false
  | _ => true

/-- Whether a result leaves the count of a descriptor alone (07 R151). -/
def Write.isBase : Write → Bool
  | .base _ _ => true
  | _ => false

/-! ### Landing -/

/-- Whether a result has landed for the bundle issued in issue cycle t (03 R31). -/
def Pend.landed (p : Pend) (t : Nat) : Bool := p.w.known && decide (p.issued + p.land ≤ t)

/-- Whether the bound of a result has elapsed; for a count that its stream has not found yet the core holds
issue there (07 R134). -/
def Pend.elapsed (p : Pend) (t : Nat) : Bool := p.w.known && decide (p.issued + p.bound ≤ t)

/-- The results in flight to one destination that earlier bundles issued. -/
def Ctx.inFlight (c : Ctx) (key : Nat) : List Pend :=
  c.pend.filter (fun p => p.w.key == some key && decide (p.issued < c.icyc))

/-- The results that may still be the final value: not replaced by a write issued after their
bound (03 R32). -/
def candidates (l : List Pend) : List Pend :=
  l.filter (fun p => !l.any (fun q => decide (p.issued + p.bound ≤ q.issued)))

/-- Whether a result is a later write to an earlier one's destination: it issues before the earlier
one's bound has elapsed (03 R32). -/
def Pend.overlaps (p q : Pend) : Bool := decide (p.issued < q.issued) && decide (q.issued < p.issued + p.bound)

/-- The results of several writes to one destination that a read may return in issue cycle t: those
that no write issued after their bound has replaced by its own bound (03 R31, R32). A count that its
stream has not found yet is none of them. -/
def readable (t : Nat) (l : List Pend) : List Pend :=
  l.filter (fun p => p.w.known &&
    !l.any (fun q => decide (p.issued + p.bound ≤ q.issued) && q.elapsed t))

/-- Whether a read may still return the value from before several writes to one destination: until
both bounds of some overlapping two of them have elapsed (03 R32). -/
def oldReadable (t : Nat) (l : List Pend) : Bool :=
  !l.any (fun p => p.elapsed t && l.any (fun q => p.overlaps q && q.elapsed t))

/-- The result a read of a destination sees, none for the stored value (03 R31, R32; log
entry 4). -/
def Ctx.visible (c : Ctx) (key : Nat) : Option Write :=
  match (c.inFlight key).filter (fun p => !p.w.isBase) with
  | [] => none
  | [p] => if p.applied then none else if p.landed c.icyc then some p.w else none
  | l =>
    let ps := readable c.icyc l
    let old := if oldReadable c.icyc l then 1 else 0
    let n := Config.readPick c.icyc key % (if ps.length + old = 0 then 1 else ps.length + old)
    if n < old then none else (ps[n - old]?).map Pend.w

/-! ### Reads of the running context -/

/-- A scalar register; s0 reads as zero (03 R36, 05 R72). -/
def Ctx.sreg (c : Ctx) (r : SReg) : Reg :=
  if r == 0 then {}
  else
    match c.visible r.toNat with
    | some (.sreg _ v) => v
    | _ => c.regs[r.toNat]'r.isLt

/-- A predicate; k0 reads as true (03 R36, 05 R72). -/
def Ctx.preg (c : Ctx) (k : PRegNum) : PReg :=
  if k == 0 then { val := true }
  else
    match c.visible (100 + k.toNat) with
    | some (.pred _ v) => v
    | _ => c.preds[k.toNat]'k.isLt

/-- A descriptor with its count replaced (07 R144, R151). -/
def Desc.withCount (x : Desc) (n : Nat) : Desc :=
  { x with w1 := x.w1 - keep x.w1 24 16 + mkWord (n % 2 ^ 16 * 2 ^ 24) }

/-- A descriptor after some results, in their order: base and layout are what was written last; only the count is the
destination that a `VCOMP` shares with `DSET` and `DCNT`, that of the result picked, or of none (07 R151, 03 R32). -/
def descAfter (x : Desc) (l : List Pend) (pick : Option Write) : Desc :=
  let y := l.foldl (fun y p => match p.w with | .desc _ v => v | .base _ b => { y with w0 := b } | _ => y) x
  match pick with
  | some (.count _ (some n)) => y.withCount n
  | some (.desc _ v) => if y.w1 = v.w1 then y else y.withCount (bitsOf v.w1 24 16)
  | _ => if y.w1 = x.w1 then y else y.withCount (bitsOf x.w1 24 16)

/-- A region descriptor (07 R149). -/
def Ctx.desc (c : Ctx) (d : DReg) : Desc :=
  descAfter (c.descs[d.toNat]'d.isLt) ((c.inFlight (200 + d.toNat)).filter (fun p => p.landed c.icyc))
    (c.visible (200 + d.toNat))

/-- A chain word (07 R140). -/
def Ctx.chain (c : Ctx) (n : BitVec 3) : Word :=
  match c.visible (300 + n.toNat) with
  | some (.chain _ v) => v
  | _ => c.chains[n.toNat]'n.isLt

/-- A format register (04 R47, R60). -/
def Ctx.fm (c : Ctx) (n : BitVec 4) : BitVec 32 :=
  match c.visible (400 + n.toNat) with
  | some (.fm _ v) => v
  | _ => c.fms[n.toNat]'n.isLt

/-- A scale-table entry (04 R56, R60). -/
def Ctx.sc (c : Ctx) (n : BitVec 4) : BitVec 8 :=
  match c.visible (500 + n.toNat) with
  | some (.sc _ v) => v
  | _ => c.scs[n.toNat]'n.isLt

/-- The slack of a class in 8 ns units (16 R263). -/
def Ctx.slackOf (c : Ctx) (n : BitVec 4) : BitVec 16 :=
  match c.visible (600 + n.toNat) with
  | some (.slack _ v) => v
  | _ => c.slack[n.toNat]'n.isLt

/-- The outstanding-write allowance of a window (16 R256). -/
def Ctx.allowOf (c : Ctx) (w : BitVec 3) : Nat :=
  match c.visible (700 + w.toNat) with
  | some (.allow _ v) => v
  | _ => c.allow[w.toNat]'w.isLt

/-- A partial-sum latch (07 R152). -/
def Ctx.latch (c : Ctx) (p : BitVec 2) : Latch :=
  match c.visible (800 + p.toNat) with
  | some (.latch _ v) => v
  | _ => c.latches[p.toNat]'p.isLt

/-- The sticky flags: the stored ones and those of landed results (04 R67). -/
def Ctx.flagsNow (c : Ctx) : Flags :=
  c.pend.foldl (fun f p =>
    match p.w with
    | .flags g => if decide (p.issued < c.icyc) && p.landed c.icyc then f ||| g else f
    | _ => f) c.flags

/-! ### Special registers -/

/-- `kstat` of a context (05 R80). -/
def kstatOf (c : Ctx) (bank : Bool) (flags : Flags) : Word :=
  mkWord (flags.toNat + (if c.priv then 2 ^ 8 else 0) + (if bank then 2 ^ 9 else 0)
    + (if c.acchk then 2 ^ 10 else 0) + (if c.lcnt != 0 then 2 ^ 11 else 0))

/-- `wsrf` at a cycle count (10 R196). -/
def wsrfAt (cyc : Nat) : Word :=
  let phase := cyc % 8192
  let q := phase / 512
  let inwin := decide (phase % 512 < 64)
  let bank := if inwin then q else (q + 1) % 16
  mkWord (phase + bank * 2 ^ 13 + (if inwin then 2 ^ 17 else 0) + (512 - phase % 512) * 2 ^ 18)

/-- The stored value of a special register (05 R78). -/
def State.special (s : State) (n : Nat) : Word :=
  match n with
  | 0x000 => mkWord s.cyc
  | 0x001 => mkWord s.ftime
  | 0x002 => s.cx.tcx
  | 0x003 => s.cx.tcy
  | 0x004 => s.cx.tcz
  | 0x005 => mkWord s.coreid
  | 0x006 => mkWord s.rank
  | 0x007 => kstatOf s.cx s.bank s.cx.flagsNow
  | 0x008 => s.cx.tcause
  | 0x009 => s.cx.tbadr
  | 0x00A => s.cx.tval
  | 0x00B => s.cx.thand
  | 0x00C => s.cx.lqwait
  | 0x00D => wsrfAt s.cyc
  | 0x010 => s.core.mc[0]
  | 0x011 => s.core.mc[1]
  | 0x012 => s.core.mc[2]
  | 0x013 => s.core.mc[3]
  | 0x014 => s.core.mc[4]
  | 0x018 => s.cx.lotflags.zeroExtend 64
  | 0x020 => s.cx.lbeg
  | 0x021 => s.cx.lend
  | 0x022 => s.cx.lcnt
  | 0x100 => s.cx.ptbase
  | 0x101 => s.cx.asid
  | 0x102 => s.cx.ctxsave
  | 0x103 => s.core.emerg
  | _ => 0

/-- A counter of the five matrix cycle classes replaced. -/
def State.setMc (s : State) (i : Fin 5) (v : Word) : State :=
  { s with core := { s.core with mc := s.core.mc.set i v } }

/-- What a write of v to a special register does to its writable fields, in the privileged or the
unprivileged view (05 R78 to R80; 13 R218, R220; 16 R265). -/
def State.setSpecial (s : State) (n : Nat) (v : Word) (priv : Bool) : State :=
  match n with
  | 0x001 => if priv then { s with ftime := v.toNat, ftPhase := 0 } else s
  | 0x002 => if priv then { s with cx := { s.cx with tcx := keep v 0 16 } } else s
  | 0x003 => if priv then { s with cx := { s.cx with tcy := keep v 0 16 } } else s
  | 0x004 => if priv then { s with cx := { s.cx with tcz := keep v 0 16 } } else s
  | 0x007 =>
    { s with cx := { s.cx with flags := s.cx.flags &&& ~~~(v.extractLsb' 0 6),
                               acchk := v.getLsbD 10 } }
  | 0x008 => if priv then { s with cx := { s.cx with tcause := v &&& 0xDFF } } else s
  | 0x009 => if priv then { s with cx := { s.cx with tbadr := v } } else s
  | 0x00A => if priv then { s with cx := { s.cx with tval := v } } else s
  | 0x00B => { s with cx := { s.cx with thand := keep v 2 55 } }
  | 0x00C => { s with cx := { s.cx with lqwait := v } }
  | 0x010 => if priv then s.setMc 0 v else s
  | 0x011 => if priv then s.setMc 1 v else s
  | 0x012 => if priv then s.setMc 2 v else s
  | 0x013 => if priv then s.setMc 3 v else s
  | 0x014 => if priv then s.setMc 4 v else s
  | 0x018 =>
    { s with cx := { s.cx with lotflags := s.cx.lotflags &&& ~~~(v.extractLsb' 0 16) } }
  | 0x020 => { s with cx := { s.cx with lbeg := keep v 2 55 } }
  | 0x021 => { s with cx := { s.cx with lend := keep v 2 55 } }
  | 0x022 => { s with cx := { s.cx with lcnt := v } }
  | 0x100 => if priv then { s with cx := { s.cx with ptbase := keep v 12 29 } } else s
  | 0x101 => if priv then { s with cx := { s.cx with asid := keep v 0 12 } } else s
  | 0x102 => if priv then { s with cx := { s.cx with ctxsave := keep v 12 45 } } else s
  | 0x103 =>
    if priv then
      { s with core := { s.core with
          emerg := keep v 12 29 ||| (if v.getLsbD 0 then 0 else keep s.core.emerg 0 1) } }
    else s
  | _ => s

/-- The special registers hidden from unprivileged code (05 R78). -/
def specialHidden (n : Nat) : Bool := decide (0x100 ≤ n)

/-- The special registers with no field writable in the unprivileged view, but one in the
privileged view (05 R78, R79). -/
def specialPrivWrite (n : Nat) : Bool :=
  specialHidden n || [0x001, 0x002, 0x003, 0x004, 0x008, 0x009, 0x00A, 0x010, 0x011, 0x012, 0x013,
    0x014].contains n

/-! ### Application of results -/

/-- Write a result to its destination. -/
def State.applyWrite (s : State) (w : Write) : State :=
  match w with
  | .sreg r v => { s with cx := { s.cx with regs := s.cx.regs.set r.toNat v r.isLt } }
  | .pred k v => { s with cx := { s.cx with preds := s.cx.preds.set k.toNat v k.isLt } }
  | .special n v p => s.setSpecial n v p
  | .desc d v => { s with cx := { s.cx with descs := s.cx.descs.set d.toNat v d.isLt } }
  | .base d v =>
    { s with cx := { s.cx with
      descs := s.cx.descs.set d.toNat { (s.cx.descs[d.toNat]'d.isLt) with w0 := v } d.isLt } }
  | .count d (some n) =>
    { s with cx := { s.cx with
      descs := s.cx.descs.set d.toNat ((s.cx.descs[d.toNat]'d.isLt).withCount n) d.isLt } }
  | .count _ none => s
  | .chain n v => { s with cx := { s.cx with chains := s.cx.chains.set n.toNat v n.isLt } }
  | .fm n v => { s with cx := { s.cx with fms := s.cx.fms.set n.toNat v n.isLt } }
  | .sc n v => { s with cx := { s.cx with scs := s.cx.scs.set n.toNat v n.isLt } }
  | .slack c v => { s with cx := { s.cx with slack := s.cx.slack.set c.toNat v c.isLt } }
  | .allow n v => { s with cx := { s.cx with allow := s.cx.allow.set n.toNat v n.isLt } }
  | .latch p v => { s with cx := { s.cx with latches := s.cx.latches.set p.toNat v p.isLt } }
  | .flags f => { s with cx := { s.cx with flags := s.cx.flags ||| f } }

/-- The value a special register shows to a read now (03 R31, R32). -/
def State.specialNow (s : State) (n : Nat) : Word :=
  match s.cx.visible (1000 + n) with
  | some w => (s.applyWrite w).special n
  | none => s.special n

/-- A fresh free value (log entry 3). -/
def State.draw (s : State) : Word × State := (Config.freeWord s.fv, { s with fv := s.fv + 1 })

/-- A free choice among n values (log entry 3). -/
def State.choose (s : State) (n : Nat) : Nat × State :=
  (Config.freeNat s.fv % (if n = 0 then 1 else n), { s with fv := s.fv + 1 })

/-- Send a result on its way with a bound (03 R31; log entry 4). -/
def State.push (s : State) (w : Write) (bound : Nat) : State :=
  let land := if bound ≤ 1 then 1 else 1 + Config.landing s.fv % bound
  { s with
    fv := if bound ≤ 1 then s.fv else s.fv + 1
    cx := { s.cx with pend := s.cx.pend ++ [{ w := w, issued := s.cx.icyc, bound := bound, land := land }] } }

/-- A result to a scalar register; s0 discards it (03 R36). A poisoned value is undefined
(05 R81). -/
def State.wreg (s : State) (r : SReg) (v : Reg) (bound : Nat) : State :=
  if r == 0 then s
  else if v.poison then
    let (x, s) := s.draw
    s.push (.sreg r { v with val := x }) bound
  else s.push (.sreg r v) bound

/-- A result to a predicate; k0 discards it (03 R36). -/
def State.wpred (s : State) (k : PRegNum) (v : PReg) (bound : Nat) : State :=
  if k == 0 then s
  else if v.poison then
    let (x, s) := s.draw
    s.push (.pred k { v with val := x.getLsbD 0 }) bound
  else s.push (.pred k v) bound

/-- Flags raised by a word, landing by its bound (04 R67). -/
def State.wflags (s : State) (f : Flags) (bound : Nat) : State :=
  if f == 0 then s else s.push (.flags f) bound

/-- Write one of the results of a group, or what of a descriptor's group leaves its count alone (07 R151). -/
def State.applyOne (s : State) (l : List Pend) (p : Option Pend) : State :=
  match (p.or l.head?).map Pend.w with
  | some (.desc d _) | some (.base d _) | some (.count d _) =>
    { s with cx := { s.cx with
      descs := s.cx.descs.set d.toNat (descAfter (s.cx.descs[d.toNat]'d.isLt) l (p.map Pend.w)) d.isLt } }
  | some w => if p.any (·.applied) then s else s.applyWrite w
  | none => s

/-- Apply the results that have landed in a group of one destination: none while a bound is
open, else the one result, or a free one of several (03 R31, R32). -/
def State.applyGroup (s : State) (l : List Pend) : State :=
  match candidates (l.filter (fun p => !p.w.isBase)) with
  | [] => s.applyOne l none
  | [p] => s.applyOne l (some p)
  | p :: ps =>
    let (n, s) := s.choose (ps.length + 1)
    s.applyOne l (some ((p :: ps)[n]?.getD p))

/-- Apply every result whose destination has no bound open any more. A flag, and a lone result of
a special register, is applied when it lands, since other events change those registers too. -/
def settleList (t : Nat) : Nat → List Pend → List Pend → State → State × List Pend
  | 0, l, kept, s => (s, kept ++ l)
  | _ + 1, [], kept, s => (s, kept)
  | fuel + 1, p :: l, kept, s =>
    match p.w.key with
    | none =>
      if p.elapsed t || p.landed t then settleList t fuel l kept (s.applyWrite p.w)
      else settleList t fuel l (kept ++ [p]) s
    | some k =>
      let same := p :: l.filter (fun q => q.w.key == some k)
      let rest := l.filter (fun q => q.w.key != some k)
      if same.all (fun q => q.elapsed t) then settleList t fuel rest kept (s.applyGroup same)
      else if decide (1000 ≤ k) && same.length == 1 && !p.applied && p.landed t then
        settleList t fuel rest (kept ++ [{ p with applied := true }]) (s.applyWrite p.w)
      else settleList t fuel rest (kept ++ same) s

/-- Commit the results in flight whose bounds have elapsed at the context's issue cycle. -/
def State.settle (s : State) : State :=
  let (s1, l) := settleList s.cx.icyc s.cx.pend.length s.cx.pend [] s
  { s1 with cx := { s1.cx with pend := l } }

/-- Commit every result in flight: the drain of 03 R34. A count that its stream has not found yet goes
on with the stream. -/
def State.drain (s : State) : State :=
  let far := s.cx.pend.foldl (fun n p => Nat.max n (p.issued + p.bound)) s.cx.icyc
  let (s1, _) := settleList far s.cx.pend.length (s.cx.pend.filter (·.w.known)) [] s
  { s1 with cx := { s1.cx with pend := s.cx.pend.filter (fun p => !p.w.known) } }

/-- Results in flight that land in a stall cycle: they land now (03 R26, R31; log entry 4). -/
def State.landStalled (s : State) : State :=
  ({ s with cx := { s.cx with
    pend := s.cx.pend.zipIdx.map (fun ((p, k) : Pend × Nat) =>
      if decide (p.issued < s.cx.icyc) && p.w.known && Config.landsInStall s.cyc k then
        { p with land := Nat.min p.land (s.cx.icyc - p.issued) }
      else p) } }).settle

/-! ### One core cycle -/

/-- Nanoseconds of a cycle at a clock step, in units of 1/17,640 ns (02 R19, 22 R325). -/
def nsUnits (clkStep : Nat) : Nat := 1764000 / (70 - 7 * clkStep)

/-- The cycle class of the shuttle now: the first row that applies to the commands in progress, of which several
steps may be (20 R309, 08 R170). -/
def State.cycleClass (s : State) : Fin 5 :=
  let now := s.core.shq.filter (·.started)
  let waits := fun (m : MCmd) =>
    match m.kind with
    | .step _ _ _ _ _ _ _ _ => decide (m.beat < m.total) && m.fail.isNone
    | _ => false
  let loads := fun (m : MCmd) =>
    match m.kind with
    | .weights _ _ _ _ => true
    | _ => false
  let drains := fun (m : MCmd) =>
    match m.kind with
    | .step _ _ _ _ _ _ _ _ | .drain _ _ _ _ => true
    | _ => false
  if s.core.beatDone then 0
  else if now.any loads then 1
  else if now.any waits then 2
  else if now.any drains then 3
  else 4

end Sys2Proof.Machine
end

