-- ==== Sys2Proof/Machine/Translate.lean ====
section
/-!
DEFINITION. Translation: page-table entries, one step of a walk, a whole walk, the TLBs and the
walk caches (13 R209 to R213, R230; 02 R14).
-/

namespace Sys2Proof.Machine

open Sys2Proof

/-- Index field of a virtual address at a table level; the top-level index is bits 55:48 (02 R14,
13 R211). -/
def tableIndex (va : Word) (level : Nat) : Nat :=
  if level = 4 then bitsOf va 48 8 else bitsOf va (12 + 9 * level) 9

/-- The page bits of a leaf at a level: 12, 16 with c64, 21 or 30 (13 R210). -/
def leafBits (level : Nat) (c64 : Bool) : Nat :=
  match level with
  | 0 => if c64 then 16 else 12
  | 1 => 21
  | _ => 30

/-- The frame or table address of an entry (13 R210). -/
def ptePa (e : Word) : Nat := bitsOf e 12 29 * 2 ^ 12

/-- Whether a frame is aligned to its page; a 64 KiB leaf takes its frame from bits 40:16, and
the low bits of its entries are part of the span (13 R211). -/
def frameAligned (e : Word) (level : Nat) : Bool :=
  level == 0 || ptePa e % 2 ^ leafBits level false == 0

/-- What one table read decides (13 R211). -/
inductive WalkStep where
  | fault (reason : Nat)
  | leaf (entry : Word)
  | table (pa : Nat)
  deriving DecidableEq, Repr

/-- The decision on entry e at a level, for a write or not, privileged or not (13 R211). -/
def walkDecide (e : Word) (level : Nat) (write priv : Bool) : WalkStep :=
  let leaf := e.getLsbD 1
  if !e.getLsbD 0 then .fault 0
  else if bitsOf e 41 23 != 0 || (leaf && decide (3 ≤ level)) || (!leaf && level == 0)
      || (leaf && !frameAligned e level) then .fault 3
  else if leaf then
    if write && !e.getLsbD 2 then .fault 1
    else if !priv && !e.getLsbD 3 then .fault 2
    else .leaf e
  else .table (ptePa e)

/-- The entry with a set, and d for a write (13 R211). -/
def pteUsed (e : Word) (write : Bool) : Word := e ||| (if write then 0x60 else 0x20)

/-- The physical address of va under a leaf (13 R210, R211). -/
def leafPa (e va : Word) (level : Nat) : Nat :=
  let b := leafBits level (e.getLsbD 7)
  ptePa e / 2 ^ b * 2 ^ b + bitsOf va 0 b

/-- The TLB entry of a leaf. -/
def tlbOf (asid : Nat) (e va : Word) (level : Nat) (write : Bool) : TlbEnt :=
  let b := leafBits level (e.getLsbD 7)
  { asid := asid, va := bitsOf va 0 57 / 2 ^ b * 2 ^ b, bits := b, pa := ptePa e / 2 ^ b * 2 ^ b
    w := e.getLsbD 2, u := e.getLsbD 3, g := e.getLsbD 4, d := e.getLsbD 6 || write }

/-- Whether a TLB entry covers an address in an address space. -/
def TlbEnt.covers (t : TlbEnt) (asid : Nat) (addr : Word) : Bool :=
  (t.g || t.asid == asid) && bitsOf addr 0 57 / 2 ^ t.bits * 2 ^ t.bits == t.va

/-- Whether a TLB entry serves an access: a write needs w and d, an unprivileged access u; else
the access walks (log entry 7). -/
def TlbEnt.serves (t : TlbEnt) (write priv : Bool) : Bool :=
  (!write || (t.w && t.d)) && (priv || t.u)

/-- The physical address a TLB entry gives. -/
def TlbEnt.phys (t : TlbEnt) (addr : Word) : Nat := t.pa + bitsOf addr 0 57 % 2 ^ t.bits

/-- Look an access up in a TLB. -/
def tlbFind (l : List TlbEnt) (asid : Nat) (va : Word) (write priv : Bool) : Option TlbEnt :=
  l.find? (fun t => t.covers asid va && t.serves write priv)

/-- Fill a TLB of n entries, newest first; entries for the same page are replaced, and of a full one the entry
filled first is dropped (log entry 92). -/
def tlbFill (n : Nat) (t : TlbEnt) (l : List TlbEnt) : List TlbEnt :=
  (t :: l.filter (fun u => !(u.va == t.va && u.bits == t.bits && u.asid == t.asid))).take n

/-- A translation of va: fault reason, machine error of a table line, or physical address with
the TLB entry (13 R211). -/
inductive Xlated where
  | fault (reason : Nat)
  | machine
  | ok (pa : Nat) (t : TlbEnt)
  deriving DecidableEq, Repr

/-- The entry whose translation a leaf gives: itself, or, when the 16 entries of a 64 KiB span
disagree, a free one of them (13 R211). -/
def State.spanEntry (s : State) (loc : Nat) (e : Word) (level : Nat) : Word × State :=
  if level == 0 && e.getLsbD 7 then
    let base := loc / 128 * 128
    let l := (List.range 16).map (fun i => s.word (base + 8 * i))
    if l.all (fun x => bitsOf x 0 5 == bitsOf e 0 5 && bitsOf x 16 25 == bitsOf e 16 25
        && x.getLsbD 7) then (e, s)
    else
      let (n, s) := s.choose 16
      let x := (l[n]?).getD e
      (if x.getLsbD 0 && x.getLsbD 1 && x.getLsbD 7 then x else e, s)
  else (e, s)

/-- The address bits at and above the index of a level, which a walk-cache entry matches. -/
def walkTag (va : Word) (level : Nat) : Nat := bitsOf va (12 + 9 * level) (45 - 9 * level)

/-- Entries of the walk cache of a level (13 R209). -/
def walkCacheSize : Nat → Nat
  | 4 => 16
  | 3 => 256
  | 2 => 1024
  | _ => 4096

/-- The table a walk starts at: below the lowest level whose entry is held in a walk cache, or the
level-4 table (13 R212). -/
def State.walkStart (s : State) (ptbase asid : Nat) (va : Word) : Nat × Nat :=
  let hit := fun (level : Nat) =>
    (s.xl.walks.find? (fun e => e.1 == asid && e.2.1 == level && e.2.2.1 == walkTag va level)).map
      (fun e => (level - 1, e.2.2.2))
  ([1, 2, 3, 4].findSome? hit).getD (4, ptbase)

/-- A walk cache takes a valid entry that is no leaf; of a full one the entry filled first is dropped (log entry
92). -/
def State.cacheWalk (s : State) (asid : Nat) (va : Word) (level pa : Nat) : State :=
  let e := (asid, level, walkTag va level, pa)
  let same := s.xl.walks.filter (fun x => x.2.1 == level && !(x.1 == e.1 && x.2.2.1 == e.2.2.1))
  let others := s.xl.walks.filter (fun x => x.2.1 != level)
  { s with xl := { s.xl with walks := (e :: same).take (walkCacheSize level) ++ others } }

/-- The walk from a table at a level down, with the state after the updates of a and d and of the walk
caches. -/
def walkFrom (va : Word) (asid : Nat) (write priv : Bool) : Nat → Nat → State → Xlated × State
  | level, table, s =>
    let loc := hbmLoc s.pkgid (table + 8 * tableIndex va level)
    if s.marked loc then (.machine, s)
    else
      let e := s.word loc
      match walkDecide e level write priv with
      | .fault r => (.fault r, s)
      | .leaf e =>
        let (x, s) := s.spanEntry loc e level
        (.ok (leafPa x va level) (tlbOf asid x va level write), s.setWord loc (pteUsed e write))
      | .table pa =>
        match level with
        | 0 => (.fault 3, s)
        | l + 1 => walkFrom va asid write priv l pa (s.cacheWalk asid va (l + 1) pa)

/-- A whole translation as one act: shared TLB, else a walk from where the walk caches allow, which fills
it. Used by engines, whose misses add time only (13 R212). -/
def State.translate (s : State) (ptbase asid : Nat) (va : Word) (write priv : Bool) :
    Xlated × State :=
  match tlbFind s.xl.shared asid va write priv with
  | some t => (.ok (t.phys va) t, s)
  | none =>
    let (level, table) := s.walkStart ptbase asid va
    match walkFrom va asid write priv level table s with
    | (.ok pa t, s) => (.ok pa t, { s with xl := { s.xl with shared := tlbFill 16384 t s.xl.shared } })
    | r => r

/-- The location of a global virtual address under a table root, where its page is present. -/
def State.vaLoc (s : State) (root asid va : Nat) : Option Nat :=
  if 2 ^ 56 ≤ va then none
  else
    match s.translate root asid (mkWord va) false true with
    | (.ok pa _, _) => some (hbmLoc s.pkgid pa)
    | _ => none

/-- Whether a TLB entry is dropped by `TLBINV` of form t with operand v (13 R230). -/
def tlbDropped (t : Nat) (v : Word) (e : TlbEnt) : Bool :=
  match t with
  | 0 =>
    (e.g || e.asid == bitsOf v 0 12) && bitsOf v 0 57 / 2 ^ e.bits * 2 ^ e.bits == e.va
  | 1 => !e.g && e.asid == bitsOf v 0 12
  | 2 => !e.g
  | _ => true

/-- Drop entries from every TLB and empty the walk caches (13 R230). -/
def State.tlbDrop (s : State) (t : Nat) (v : Word) : State :=
  { s with xl :=
    { micro := s.xl.micro.filter (fun e => !tlbDropped t v e)
      shared := s.xl.shared.filter (fun e => !tlbDropped t v e)
      walks := [] } }

end Sys2Proof.Machine
end

