-- ==== Sys2Proof/Machine/Ops.lean ====
section
/-!
DEFINITION. The shared operations of the core: outstanding operations and order (06 R107, R123,
18 R292), the load-data queue (01 R6, 06 R103), packets and the combining buffer (16 R257, R259,
R263), captures and banks (03 R34, 06 R110, 08 R172, 13 R224), the end of a task (05 R94, 06 R97,
R99, 14 R248), the issue of one word, and taking an exception and returning from one (13 R217,
R229).
-/

namespace Sys2Proof.Machine

open Sys2Proof

/-! ### Contexts -/

/-- Every context the core knows: running, shadow, spilled. -/
def State.contexts (s : State) : List Ctx := s.cx :: s.sh :: s.core.saved.map (·.2)

/-- Change the contexts that satisfy p. -/
def State.onCtx (s : State) (p : Ctx → Bool) (f : Ctx → Ctx) : State :=
  { s with
    cx := if p s.cx then f s.cx else s.cx
    sh := if p s.sh then f s.sh else s.sh
    core := { s.core with
      saved := s.core.saved.map (fun e => if p e.2 then (e.1, f e.2) else e) } }

/-- Change the context of an owner. -/
def State.onOwner (s : State) (uid : Nat) (f : Ctx → Ctx) : State :=
  s.onCtx (fun c => c.uid == uid) f

/-- The context of an owner. -/
def State.ctxOf (s : State) (uid : Nat) : Option Ctx := s.contexts.find? (fun c => c.uid == uid)

/-- Whether the running bank's context may issue and its accesses may perform. -/
def State.live (s : State) : Bool := s.cxSt == .running && !s.host.off

/-- Whether the firmware, and with it the pricking, runs (22 R323). -/
def State.firmware (s : State) : Bool := s.host.boot == 2 && !s.host.off

/-- Whether a port holds `hsem` (22 R321). -/
def State.holds (s : State) (port : Bool) : Bool := s.host.hsem == (if port then 2 else 1)

/-- A request refused. -/
def State.refuse (s : State) : State := { s with host := { s.host with refusals := s.host.refusals + 1 } }

/-- Whether a port's configuration request is answered: the firmware runs and the port holds `hsem` (22 R322). -/
def State.configures (s : State) (port : Bool) : Bool := s.firmware && s.holds port

/-- A configuration: the firmware's own, or the request of the port that asks next, refused where that port may
not configure (22 R322; log entry 28). -/
def State.asked (s : State) (f : State → State) : State :=
  match s.host.asks with
  | [] => f s
  | q :: l =>
    let t := { s with host := { s.host with asks := l } }
    if t.configures q then f t else t.refuse

/-- A fresh identifier. -/
def State.newId (s : State) : Nat × State := (s.nextId, { s with nextId := s.nextId + 1 })

/-- A counter of a list of counters by key, zero where nothing was counted. -/
def countAt (key : Nat) (l : List (Nat × Nat)) : Nat := ((l.find? (fun e => e.1 == key)).map (·.2)).getD 0

/-- Add to a counter of a list of counters by key; they wrap at 64 bits (20 R312). -/
def bumpBy (key n : Nat) (l : List (Nat × Nat)) : List (Nat × Nat) :=
  (key, (countAt key l + n) % 2 ^ 64) :: l.filter (fun e => e.1 != key)

/-! ### Outstanding operations -/

/-- Whether an access or a stream has not yet performed; an atomic that has merged performs with its entry (06
R120). -/
def State.outstanding (s : State) (id : Nat) : Bool :=
  s.contexts.any (fun c => c.accs.any (fun a => a.id == id || a.joined.contains id) || c.streams.any (·.id == id)
    || (c.replay.map (·.acc.id)) == some id)
  || s.core.lines.any (fun l => l.ids.contains id)
  || s.fab.pkts.any (fun p => p.ids.contains id)

/-- Whether none of a list of operations is outstanding. -/
def State.depsDone (s : State) (deps : List Nat) : Bool := deps.all (fun d => !s.outstanding d)

/-! ### Accesses -/

/-- Whether an access reads (and so holds an `lq` entry and a load-address entry). -/
def Acc.isRead (a : Acc) : Bool :=
  match a.kind with
  | .read _ | .tagq => true
  | _ => false

/-- The tag an access waits for: full, empty, or none (06 R108). -/
def Acc.waitsFor (a : Acc) : Option Bool :=
  match a.kind with
  | .read .wait | .read .take => some true
  | .write .wait _ => some false
  | _ => none

/-- Signed minimum or maximum of n-bit codes. -/
def signedPick (n : Nat) (takeMax : Bool) (x y : Nat) : Nat :=
  let a := intOfCode true n x
  let b := intOfCode true n y
  if (if takeMax then decide (a < b) else decide (b < a)) then y else x

/-- The new value of an atomic on n bits: old m, operand v, second operand v2 (06 R118, R119). -/
def atomNew (op n m v v2 : Nat) : Nat :=
  match op with
  | 0 => (m + v) % 2 ^ n
  | 1 => signedPick n false m v
  | 2 => signedPick n true m v
  | 3 => Nat.min m v
  | 4 => Nat.max m v
  | 5 => m &&& v
  | 6 => m ||| v
  | 7 => m ^^^ v
  | 8 => v
  | 9 =>
    let f := if n = 32 then fp32 else fp64
    (f.round 0 ((f.decode m).add (f.decode v)).1).1
  | _ => if m = v then v2 else m

/-- Whether the batch of a collective is still incomplete (08 R181). -/
def State.batchOpen (s : State) (c : Coll) : Bool :=
  s.contexts.any (fun x => x.uid == c.owner && x.cmds.any (fun m => m.id == c.cmd))

/-- Who accesses memory: an operation of a context, by its owner and its number, or a party outside the core. -/
abbrev Actor := Option (Nat × Nat)

/-- Whether an actor is not an operation that a context issued before one of its commands: what was issued before is
ordered by 06 R107 and 08 R175, and is no breach. -/
def isLater (x : Actor) (owner cmd : Nat) : Bool :=
  match x with
  | some (o, i) => o != owner || decide (cmd < i)
  | none => true

/-- Whether a location lies in a buffer of a collective, by the frames pinned or by the tables as they stand (17
R276). -/
def State.inBuffer (s : State) (c : Coll) (addr len : Nat) (near : Option Nat) (l : Nat) : Bool :=
  match near with
  | some b => decide (b ≤ l) && decide (l < b + len)
  | none =>
    let first := addr / 4096
    (List.range ((addr + len - 1) / 4096 - first + 1)).any (fun k =>
      let va := (first + k) * 4096
      let frame := (c.frames.find? (fun e => e.1 == first + k)).map (fun e => hbmLoc s.pkgid e.2)
      (frame.or (s.vaLoc c.ptbase c.asid va)) == some (l / 4096 * 4096)
        && decide (addr ≤ va + l % 4096) && decide (va + l % 4096 < addr + len))

/-- Whether a location is a byte of the destination of a collective (17 R276). -/
def State.inTo (s : State) (c : Coll) (l : Nat) : Bool := s.inBuffer c c.toAddr c.toLen c.toLoc l

/-- Whether a location is a byte of the source of a collective (17 R276). -/
def State.inFrom (s : State) (c : Coll) (l : Nat) : Bool := s.inBuffer c c.fromAddr c.fromLen c.fromLoc l

/-- The collectives whose buffers an actor may not touch: those whose batch is incomplete (17 R276). -/
def State.collsOpen (s : State) (x : Actor) : List Coll :=
  (s.coll.table ++ s.coll.tail ++ s.coll.closing).filter (fun c => isLater x c.owner c.cmd && s.batchOpen c)

/-- Whether an actor may not read a byte: it lies in the destination of a collective whose batch is incomplete, and
what is read there is undefined (17 R276, 00 R3). -/
def State.hot (s : State) (x : Actor) (l : Nat) : Bool := (s.collsOpen x).any (fun c => s.inTo c l)

/-- Whether an actor may not write a byte: it lies in the destination or the source of such a collective (17 R276). -/
def State.locked (s : State) (x : Actor) (l : Nat) : Bool :=
  (s.collsOpen x).any (fun c => s.inTo c l || s.inFrom c l)

/-- Whether a range holds a byte that an actor may not read. -/
def State.hotRange (s : State) (x : Actor) (l n : Nat) : Bool := (List.range n).any (fun i => s.hot x (l + i))

/-- A byte is undefined from here on. -/
def State.blurByte (s : State) (l : Nat) : State :=
  let (x, s) := s.draw
  s.setByte l (x.extractLsb' 0 8)

/-- Whether a write of a byte is a breach of a copy's source (10 R199): a word that stands empty, and that the copy's
wait or take has yet to find full, is its producer's to fill (06 R108, 10 R204). -/
def CopyCmd.notes (c : CopyCmd) (s : State) (x : Actor) (l : Nat) : Bool :=
  let code := bitsOf ((c.blk[2]?).getD 0) 45 2
  isLater x c.owner c.id
  && !((code == 1 || code == 2) && !s.full l && !c.actedS.contains (l / 8))

/-- Bytes of a timed send that are undefined (16 R269): those of its packets that have not performed, and what the
others have written. -/
def State.blurSent (s : State) (t : TSend) (k : Nat) : State :=
  match t.sent with
  | none => s
  | some (loc, pkgs) =>
    let at_ := loc + 64 * (k / 64)
    let mine := fun (p : Packet) => p.tsend == some t.id && p.loc == at_
    let (x, s) := s.draw
    let s := { s with fab := { s.fab with pkts := s.fab.pkts.map (fun p =>
      match p.kind with
      | .line b => if mine p then { p with kind := .line (b.set (k % 64) (some (x.extractLsb' 0 8))) } else p
      | _ => p) } }
    (pkgs.filter (fun g => !s.fab.pkts.any (fun p => mine p && p.targets.contains g))).foldl
      (fun (s : State) g => s.setByte (pkgBase g + loc + k) (x.extractLsb' 0 8)) s

/-- Software has written some bytes; `old` is the state before the write. Where it may not write, they are undefined
(17 R276); copies, timed sends and collectives whose sources or destinations they are note them (10 R199, 16 R269;
00 R3; log entry 85). -/
def State.wrote (s old : State) (x : Actor) (ls : List Nat) : State :=
  let add := fun (p : Nat → Bool) (d : List Nat) => (ls.filter p).foldl (fun t l => insertNat l t) d
  let note := fun (c : Coll) =>
    if isLater x c.owner c.cmd then { c with dirty := add (fun l => s.inTo c l || s.inFrom c l) c.dirty } else c
  let src := fun (t : TSend) (l : Nat) =>
    isLater x t.owner t.id && decide (t.fromLoc ≤ l) && decide (l < t.fromLoc + t.bytes)
  let s := (ls.filter (s.locked x)).foldl State.blurByte s
  let s := s.fab.tsends.foldl (fun (s : State) t =>
    (ls.filter (src t)).foldl (fun (s : State) l => s.blurSent t (l - t.fromLoc)) s) s
  { s with
    core := { s.core with copies := s.core.copies.map (fun c => { c with dirty := add (c.notes old x) c.dirty }) }
    fab := { s.fab with tsends := s.fab.tsends.map (fun t => { t with dirty := add (src t) t.dirty }) }
    coll := { s.coll with
      table := s.coll.table.map note
      tail := s.coll.tail.map note
      closing := s.coll.closing.map note } }

/-- The bytes of a range. -/
def bytesFrom (l n : Nat) : List Nat := (List.range n).map (fun i => l + i)

/-- What an access does when it performs: the value it returns, if any, and the state after;
none while its tag does not allow it (06 R108, R112 to R119, R122). -/
def State.perform (s : State) (a : Acc) : Option (Option Reg × State) :=
  match a.kind with
  | .read mode =>
    if a.waitsFor.isSome && !s.full a.loc then none
    else
      let v : Reg := { val := mkWord (s.readNat a.loc a.size), poison := s.marked a.loc }
      some (some v, if mode = .take then s.setTag a.loc false else s)
  | .tagq => some (some { val := if s.full a.loc then 1 else 0 }, s)
  | .write mode data =>
    if mode = .wait && s.full a.loc then none
    else
      let s := s.setBytes a.loc data
      some (none, if mode = .keep then s else s.setTag a.loc true)
  | .setTag b => some (none, s.setTag a.loc b)
  | .atom op v v2 fetch =>
    if s.marked a.loc then
      some (if fetch then some { poison := true } else none, s.setMark a.loc true)
    else
      let n := 8 * a.size
      let old := s.readNat a.loc a.size
      let s1 := s.writeNat a.loc a.size (atomNew op n old (v.toNat % 2 ^ n) (v2.toNat % 2 ^ n))
      let s2 := a.merged.foldl (fun t (m : Nat × Word) =>
        t.writeNat m.1 a.size
          (atomNew op n (t.readNat m.1 a.size) (m.2.toNat % 2 ^ n) 0)) s1
      some (if fetch then some { val := mkWord old } else none, s2)

/-- The bytes an access writes when it performs. -/
def Acc.stored (a : Acc) : List Nat :=
  match a.kind with
  | .write _ data => bytesFrom a.loc data.length
  | .atom _ _ _ _ => bytesFrom a.loc a.size
  | _ => []

/-- An access performs; the value of bytes that its context may not access is undefined, and so is what it leaves
there (17 R276). What has merged into it was issued later (06 R120). -/
def State.performed (s : State) (owner : Nat) (a : Acc) : Option (Option Reg × State) :=
  let x : Actor := some (owner, a.id)
  (s.perform a).map (fun (v, t) =>
    let t := t.wrote s x a.stored
    let t := if a.merged.isEmpty then t
      else t.wrote s (some (owner, a.joined.foldl Nat.max a.id)) (a.merged.flatMap (fun m => bytesFrom m.1 a.size))
    if v.isSome && s.hotRange x a.loc a.size then
      let (y, t) := t.draw
      (v.map (fun r => { r with val := keep y 0 (8 * a.size) }), t)
    else (v, t))

/-- Give an `lq` entry its data; a poisoned value is undefined (05 R81). -/
def Ctx.setLq (c : Ctx) (id : Nat) (v : Reg) : Ctx :=
  { c with lq := c.lq.map (fun e => if e.id == id then { e with data := some v } else e) }

/-- Remove an access that has performed. -/
def Ctx.dropAcc (c : Ctx) (id : Nat) : Ctx := { c with accs := c.accs.filter (·.id != id) }

/-- An operation waits at no word any more. -/
def State.unparkAll (s : State) (id : Nat) : State :=
  { s with core := { s.core with parked := s.core.parked.filter (fun w => w.id != id) } }

/-- An access has performed with a result: it leaves its queue, its waiter and its `lq` entry get
the news. An `LDC` taints its entry (06 R114). -/
def State.retire (s : State) (uid : Nat) (a : Acc) (v : Option Reg) : State :=
  let s := s.unparkAll a.id
  s.onOwner uid (fun c =>
    let c := c.dropAcc a.id
    match v, a.lq with
    | some r, some e => c.setLq e { r with taint := if a.ldc then [a.id] else [] }
    | _, _ => c)

/-- Park a waiting access at its word, once, in arrival order (06 R109). -/
def State.park (s : State) (uid id word : Nat) (needFull : Bool) : State :=
  if s.core.parked.any (fun w => w.id == id && w.word == word) then s
  else
    { s with core := { s.core with parked := s.core.parked ++ [⟨word, uid, id, needFull⟩] } }

/-- Whether a word lies in a partition that was freed while an operation waited there: what it still reads
there is poisoned, what it still writes there is dropped and counts as performed (06 R99; log entry 82). -/
def State.freedFor (s : State) (id word : Nat) : Bool :=
  s.core.freed.any (fun e => e.1 == id && decide (e.2.1 ≤ 8 * word) && decide (8 * word < e.2.1 + e.2.2))

/-- Whether an access may act on a word before those parked there with the same need (06 R109). -/
def State.firstAt (s : State) (id word : Nat) (needFull : Bool) : Bool :=
  match s.core.parked.find? (fun w => w.word == word && w.needFull == needFull) with
  | some w => w.id == id
  | none => true

/-! ### Packets -/

/-- The rank-table entry of a logical rank, zero where none was written (16 R253). -/
def State.rankEntry (s : State) (rank : Nat) : Word :=
  ((s.fab.ranks.find? (fun e => e.1 == rank)).map (·.2)).getD 0

/-- The kind of a rank: 0 absent, 1 package, 2 group, 3 reserved (16 R253). -/
def rankKind (e : Word) : Nat := bitsOf e 14 2

/-- The ranks of a group's members: as many as the entry counts, from its first in the job's member array, each
of kind 1 (16 R253, 17 R271). -/
def State.memberRanks (s : State) (rank : Nat) : List Nat :=
  let e := s.rankEntry rank
  ((List.range (bitsOf e 0 14 + 1)).filterMap (fun i =>
    (s.fab.members.find? (fun m => m.1 == bitsOf e 32 32 + i)).map (·.2))).filter
    (fun r => rankKind (s.rankEntry r) == 1)

/-- The packages a rank stands for: its own, or those of the members of its group (16 R253). -/
def State.rankPkgs (s : State) (rank : Nat) : List Nat :=
  let e := s.rankEntry rank
  if rankKind e = 1 then [bitsOf e 0 14]
  else if rankKind e = 2 then (s.memberRanks rank).map (fun r => bitsOf (s.rankEntry r) 0 14)
  else []

/-- Slack left after a wait of some nanoseconds (16 R263). -/
def slackAfter (slack entry now : Nat) : Nat := slack - (now - entry) / 8

/-- The next sequence number of a key, and the table after (16 R259). -/
def nextSeq (key : Nat) (l : List (Nat × Nat)) : Nat × List (Nat × Nat) :=
  let n := ((l.find? (fun e => e.1 == key)).map (·.2)).getD 0
  (n, (key, n + 1) :: l.filter (fun e => e.1 != key))

/-- Whether a packet takes a sequence number: a withdrawal does not, nor do the messages of a collective but its
pieces (16 R259, R261; 17 R281). -/
def PktKind.numbered : PktKind → Bool
  | .withdraw _ => false
  | .coll (.piece _ _ _) => true
  | .coll _ => false
  | _ => true

/-- The destination of a rank: a package, or a group counted as one (16 R259). -/
def State.destOf (s : State) (rank : Nat) : Nat :=
  let e := s.rankEntry rank
  if rankKind e = 2 then 2 ^ 14 + rank else bitsOf e 0 14

/-- A packet enters the router some ns from now: it gets the next sequence number of its destination and class,
and waits for its route (16 R257, R259, R264). -/
def State.enterRouter (s : State) (ns : Nat) (p : Packet) : State :=
  let (n, sq) :=
    if p.kind.numbered then nextSeq (s.destOf p.rank * 16 + p.cls) s.fab.sendSeq else (0, s.fab.sendSeq)
  let q := { p with waited := (s.rankEntry p.rank).getLsbD 20, id := s.fab.nextPkt, seq := n
                    pkg := bitsOf (s.rankEntry p.rank) 0 14
                    targets := s.rankPkgs p.rank, dests := s.rankPkgs p.rank, entry := s.ftime + ns,
                    stuck := s.ftime + ns, stage := .queued, port := none, lost := 0 }
  { s with fab := { s.fab with pkts := s.fab.pkts ++ [q], nextPkt := s.fab.nextPkt + 1, sendSeq := sq } }

/-- The ns by which `ftime` advances in some cycles from now, at the clock's step and the rate of the time service
(02 R19). -/
def State.nsIn (s : State) (cycles : Nat) : Nat :=
  (s.ftPhase + cycles * (nsUnits s.host.clkStep * (1000000 + s.host.slew).toNat)) / 17640000000

/-- Send a packet of the core toward a rank: the core sends one packet per cycle, and the wait in its egress
queue, from `ftime` at its entry to `ftime` at its exit, is charged (16 R263). -/
def State.sendPacket (s : State) (p : Packet) : State :=
  let leave := Nat.max s.cyc s.fab.egress
  let ns := s.nsIn (leave - s.cyc)
  let slack := slackAfter p.slack s.ftime (s.ftime + ns)
  { s with fab := { s.fab with egress := leave + 1 } }.enterRouter ns
    { p with slack := slack, marked := p.marked || (p.slack != 0 && slack == 0) }

/-- The owner of a packet that no context's access made. -/
def noOwner : Nat := 2 ^ 64

/-- Flush one combining line as a packet (16 R257); its wait in the buffer is charged to its
slack (R263). -/
def State.flushLine (s : State) (l : Line) : State :=
  let left := slackAfter l.slack l.openedNs s.ftime
  let s := { s with core := { s.core with lines := s.core.lines.filter (· != l) } }
  s.sendPacket
    { id := 0, owner := l.owner, ids := l.ids, kind := .line l.bytes, rank := l.rank, pkg := 0
      targets := [], loc := l.addr, cls := l.cls, seq := 0, win := l.win, counted := true
      slack := left, entry := 0, marked := l.slack != 0 && left == 0 }

/-- Flush the lines that satisfy p, oldest first (16 R257). -/
def State.flushLines (s : State) (p : Line → Bool) : State :=
  (s.core.lines.filter p).foldl State.flushLine s

/-- A window's outstanding count: open lines and unacknowledged write packets (16 R256). -/
def State.winCount (s : State) (uid w : Nat) : Nat :=
  (s.core.lines.filter (fun l => l.owner == uid && l.win == w)).length
  + (s.fab.pkts.filter (fun p => p.owner == uid && p.counted && p.win == w)).length

/-! ### Trace records -/

/-- The entries of the sessions of a kind (0 trace, 1 sample, 2 count) that cover an address space (20 R302,
R308). -/
def State.sessionsOf (s : State) (kind asid : Nat) : List Nat :=
  (s.dbg.sessions.filter (fun x => x.kind == kind &&
    s.dbg.caps.any (fun e => e.1 == x.cap && e.2.asid == asid))).map (·.cap)

/-- The entries of the sessions of a kind that cover the running context's address space. -/
def State.sessionCaps (s : State) (kind : Nat) : List Nat := s.sessionsOf kind s.cx.asid.toNat

/-- The records that the buffer of the die holds, 32 bytes each: 1 to 64 MiB (20 R307). -/
def State.traceCap (s : State) : Nat := 32768 * (Config.traceSize (s.coreid / 24) % 64 + 1)

/-- Write a trace record for some capability entries: none asks for nothing, and a full buffer drops it
(20 R306, R307). -/
def State.recordFor (s : State) (caps : List Nat) (kind sub code : Nat) (bank : Bool)
    (badr payload : Word) : State :=
  if caps.isEmpty then s
  else if s.traceCap ≤ s.dbg.trace.length then
    { s with dbg := { s.dbg with trdrop := (s.dbg.trdrop + 1) % 2 ^ 64 } }
  else
    let w0 := mkWord (kind + sub * 2 ^ 8 + s.coreid * 2 ^ 16 + (if bank then 2 ^ 27 else 0)
      + code * 2 ^ 28)
    { s with dbg := { s.dbg with
      traced := s.dbg.traced + 1
      trace := s.dbg.trace ++ [⟨w0, keep badr 0 57, mkWord s.cyc, payload, caps⟩] } }

/-- Write a trace record of kind 1, 2, 3, 4 or 6, when a trace session asks for it (20 R302, R306). -/
def State.record (s : State) (kind sub code : Nat) (badr payload : Word) : State :=
  s.recordFor (s.sessionCaps 0) kind sub code s.bank badr payload

/-! ### Charge records, samples and the cycle -/

/-- A charge record of the cycles since the last one (20 R310), where there are any, after which counting starts
anew. -/
def State.writeCharge (s : State) : State :=
  let ch := s.core.charge
  if ch.all (· == 0) then s else
  let p := ch[0] + 2 ^ 12 * ch[1] + 2 ^ 24 * ch[2] + 2 ^ 36 * ch[3] + 2 ^ 48 * ch[4]
  let s := s.recordFor (s.sessionsOf 2 s.core.chargeAsid) 7 0 0 s.core.chargeBank s.core.charged (mkWord p)
  { s with core := { s.core with charge := Vector.replicate 5 0 } }

/-- A step or an `MWGT` has started: the core's last, and one of its task (20 R310). -/
def State.noteStep (s : State) (m : MCmd) : State :=
  let s := s.onOwner m.owner (fun c => { c with stepped := true })
  { s with core := { s.core with lastStep := m.badr, lastOwner := m.owner } }

/-- Whether a command's cycles are charged to its bundle: a step or an `MWGT` in progress (20 R310). -/
def MCmd.charges (m : MCmd) : Bool :=
  m.started && (match m.kind with
    | .step _ _ _ _ _ _ _ _ | .weights _ _ _ _ => true
    | _ => false)

/-- The bundle address a cycle is charged to, and the context bank (20 R310): that of the command in progress,
else of the last that started, once one has started in the task; else all ones. -/
def State.chargeNow (s : State) : Word × Bool :=
  let of := fun (badr : Word) (owner : Nat) => (badr, if owner == s.cx.uid then s.bank else !s.bank)
  match (s.core.shq.filter MCmd.charges).getLast? with
  | some m => of m.badr m.owner
  | none => if s.cx.stepped then of s.core.lastStep s.core.lastOwner else (-1, s.bank)

/-- A cycle begins: where its charged address differs from that of the cycles before, these are recorded (20
R310). -/
def State.recharge (s : State) : State :=
  let (badr, bank) := s.chargeNow
  let asid := s.cx.asid.toNat
  if s.core.charged == badr && s.core.chargeBank == bank && s.core.chargeAsid == asid then s
  else
    let s := s.writeCharge
    { s with core := { s.core with charged := badr, chargeBank := bank, chargeAsid := asid } }

/-- A count of charged cycles that reaches 4,095 is recorded (20 R310). -/
def State.chargeRecord (s : State) : State :=
  if s.core.charge.any (fun n => decide (4095 ≤ n)) then s.writeCharge else s

/-- In a cycle that is a multiple of its period, each sample session of the running context's address space gets
one record: fetch address, charged address, cycle class, whether the bundle stalls (20 R308). A record that was made
earlier in the cycle takes the charged address, the class and the stall from what the cycle turned out to hold. -/
def State.sample (s : State) (stalled : Bool) : State :=
  let caps := (s.dbg.sessions.filter (fun x => x.kind == 1 && s.cyc % 2 ^ x.k == 0
    && s.dbg.caps.any (fun e => e.1 == x.cap && e.2.asid == s.cx.asid.toNat))).map (·.cap)
  let p := mkWord (bitsOf s.core.charged 0 57 + s.cycleClass.val * 2 ^ 57 + (if stalled then 2 ^ 60 else 0))
  if !s.live || caps.isEmpty then s
  else if s.dbg.sampled == some s.cyc then
    { s with dbg := { s.dbg with trace := s.dbg.trace.map (fun r =>
        if bitsOf r.w0 0 8 == 5 && r.cycle == mkWord s.cyc then { r with payload := p } else r) } }
  else
    let s := s.recordFor caps 5 0 0 s.bank s.cx.pc p
    { s with dbg := { s.dbg with sampled := some s.cyc } }

/-- Whether a location lies in the core's scratchpad (0) or in its quad's (1). -/
def State.inScratch (s : State) (i loc : Nat) : Bool :=
  let (lo, n) :=
    if i = 0 then (coreLoc s.pkgid (if s.core.control then 1536 else s.coreid) 0, 2 ^ 21)
    else (quadLoc s.pkgid (s.coreid / 4) 0, 2 ^ 23)
  decide (lo ≤ loc) && decide (loc < lo + n)

/-- The regions of a shuttle command. -/
def MKind.sides : MKind → List Region
  | .step _ _ _ _ _ a b _ => a :: b.toList
  | .drain d _ _ _ => [d]
  | .load _ a _ _ => [a]
  | .weights b _ _ _ => [b]
  | .program _ a => [a]
  | .zero _ _ _ _ | .config _ => []

/-- How many accesses the banks of a scratchpad may be asked for in a cycle: those of the A pipe there, a group of 64
elements and its indices of each region of a stream or a shuttle command, a segment of each side of a copy, a line of a
remote access (06 R101). -/
def State.bankUsers (s : State) (i : Nat) : Nat :=
  let region := fun (r : Region) =>
    (if s.inScratch i r.loc then 64 else 0)
      + (match r.scales with | some (_, l) => if s.inScratch i l then 64 else 0 | none => 0)
  let side := fun (c : CopyCmd) (k : Nat) =>
    let a := (c.blk[k]?).getD 0
    if a.getLsbD 56 && (bitsOf a 52 4 == i || bitsOf a 52 4 == 3) then 8 else 0
  (s.contexts.map (fun c =>
      (c.accs.filter (fun a => a.win.isNone && s.inScratch i a.loc)).length
      + (c.streams.map (fun t => (([t.dst, t.a, t.b].filterMap id).map region).sum)).sum)).sum
  + ((s.core.shq.filter (·.started)).map (fun m => (m.kind.sides.map region).sum)).sum
  + ((s.core.copies.filter (·.started)).map (fun c => side c 0 + side c 1 + side c 5)).sum
  + 8 * (s.fab.pkts.filter (fun p => p.stage == .accepted && s.inScratch i (pkgBase s.pkgid + p.loc))).length

/-- The counts of one core cycle; `ftPhase` counts millionths of the units of `nsUnits`, at the rate of the
time service (02 R19): `cyc`, `ftime`, the cycle classes and the counts of the charge record
(02 R18, R19; 20 R309 to R311), and the bank conflicts of a cycle: how many of the accesses that a scratchpad may be
asked for lose it is free, but one of them is served (06 R101, log entry 57). -/
def State.count (s : State) : State :=
  let c := s.cycleClass
  let u := s.ftPhase + nsUnits s.host.clkStep * (1000000 + s.host.slew).toNat
  { s with
    cyc := (s.cyc + 1) % 2 ^ 64
    ftime := (s.ftime + u / 17640000000) % 2 ^ 64
    ftPhase := u % 17640000000
    core := { s.core with
      mc := s.core.mc.set c (s.core.mc[c] + 1)
      charge := s.core.charge.set c (s.core.charge[c] + 1)
      bkcfl := Vector.ofFn (fun i =>
        s.core.bkcfl[i] + (if s.bankUsers i.val = 0 then 0
          else mkWord ((Config.lostBankCycles s.cyc i.val).toNat % s.bankUsers i.val)))
      beatDone := false } }

/-- One core cycle passes, in which the bundle at the fetch address stalls or not: it is sampled, counted, and
recorded where a count is full (20 R308 to R310). -/
def State.tick (s : State) (stalled : Bool := false) : State :=
  (s.recharge.sample stalled).count.chargeRecord

/-- n core cycles pass. -/
def State.ticks : Nat → State → State
  | 0, s => s
  | n + 1, s => State.ticks n s.tick

/-! ### Captures -/

/-- Clear the taint of every register, predicate and queue entry (05 R82). -/
def Ctx.clearTaint (c : Ctx) : Ctx :=
  { c with
    regs := c.regs.map (fun r => { r with taint := [] })
    preds := c.preds.map (fun r => { r with taint := [] })
    lq := c.lq.map (fun e => { e with data := e.data.map (fun r => { r with taint := [] }) }) }

/-- Whether an identifier is a command that has started in the shuttle or in a copy engine, which a
capture does not withdraw (08 R172, 10 R198). -/
def State.started (s : State) (id : Nat) : Bool :=
  s.core.copies.any (fun c => c.id == id && c.started) || s.core.shq.any (fun m => m.id == id && m.started)

/-- Accesses are withdrawn from the banks of HBM at which they queue (06 R110, 10 R188). -/
def State.unqueue (s : State) (ids : List Nat) : State :=
  { s with hbm := { s.hbm with
    banks := s.hbm.banks.map (fun e =>
      (e.1, { e.2 with queue := e.2.queue.filter (fun r => !r.id.any ids.contains) })) } }

/-- Withdraw the waiting accesses of the running context (06 R110, 16 R261): local entries start over, those of started
commands stay; a remote access that may wait at its target sends a withdrawal packet with slack 0. -/
def State.withdrawAll (s : State) : State :=
  let uid := s.cx.uid
  let remote := s.fab.pkts.filter (fun p => p.owner == uid &&
    (match p.kind with
     | .access a => a.waitsFor.isSome && s.cx.accs.any (·.id == a.id)
     | _ => false))
  let s := s.unqueue (s.cx.accs.map (·.id))
  let s := { s with
    core := { s.core with parked := s.core.parked.filter (fun w => w.owner != uid || s.started w.id) }
    cx := { s.cx with
      accs := s.cx.accs.map (fun a => if a.win.isNone then { a with begun := false, bank := .before } else a)
      withdrawn := s.cx.withdrawn ++ remote.map (·.id) } }
  remote.foldl (fun t p =>
    t.sendPacket { p with ids := [], kind := .withdraw p.id, slack := 0, marked := false,
                          counted := false, answer := none, error := false }) s

/-- The identifiers of the `LDC`s of a context that have not performed, one held in the replay buffer
among them (05 R82, 13 R221). -/
def Ctx.ldcs (c : Ctx) : List Nat :=
  ((c.accs ++ (c.replay.map (·.acc)).toList).filter (·.ldc)).map (·.id)

/-- The groups a stream passes (03 R30, 07 R148). -/
def groupsOf (n : Nat) : Nat := (n + 63) / 64

/-- The groups a stream has left, which its bound counts (03 R30, R34; 07 R148, R153); an `RDRN` has none. -/
def Stream.groupsLeft (t : Stream) : Nat :=
  match t.op with
  | .perm 5 => t.groups - t.group
  | .latchOut _ _ => 0
  | _ => groupsOf (t.n - 64 * t.group)

/-- A capture of the running context (03 R34; 05 R82; 06 R110; 08 R172; 16 R257, R261): results
in flight land, its combining lines leave, waiting accesses are withdrawn, taint is cleared with
every later access ordered after every earlier `LDC`, and the shuttle commands that have not
started go with the context. -/
def State.capture (s : State) : State :=
  let s := s.drain
  let s := s.flushLines (fun l => l.owner == s.cx.uid)
  let s := s.withdrawAll
  let mine := fun (m : MCmd) => m.owner == s.cx.uid && !m.started
  { s with
    cx := { s.cx.clearTaint with
      captured := true
      capDeps := s.cx.capDeps ++ s.cx.ldcs
      savedCmds := s.cx.savedCmds ++ s.core.shq.filter mine }
    core := { s.core with shq := s.core.shq.filter (fun m => !mine m) } }

/-- Whether a scalar register is saved and restored when n are declared (05 R75). -/
def savedReg (n r : Nat) : Bool := (decide (1 ≤ r) && decide (r ≤ n)) || r == 61 || r == 62

/-- A context restored (03 R34, R35; 05 R75; 08 R172): its shuttle commands are reissued, its
streams' bounds and those of their counts start at its next issue cycle, and registers it did not declare are
undefined. A context that has never been captured starts as it is (13 R224). -/
def State.restore (s : State) : State :=
  let c := s.cx
  let regs := Vector.ofFn (fun (i : Fin 64) =>
    if !c.captured || savedReg c.task.regsN i.val || i.val == 0 || i.val == 63 then c.regs[i]
    else { val := Config.freeWord (s.fv + i.val), poison := false, taint := [] })
  { s with
    fv := s.fv + 64
    cx := { c with
      regs := regs
      captured := false
      streams := c.streams.map (fun t => { t with issued := c.icyc, left := t.groupsLeft })
      pend := c.pend.map (fun p =>
        if p.w.known then p
        else
          match c.streams.find? (fun t => p.stream == some t.id) with
          | some t => { p with issued := c.icyc, bound := t.lat + t.groupsLeft, land := t.lat + t.groupsLeft }
          | none => { p with issued := c.icyc })
      savedCmds := [] }
    core := { s.core with shq := s.core.shq ++ c.savedCmds } }

/-- The banks are exchanged, and the incoming context runs after 24 cycles (13 R224). -/
def State.exchange (s : State) (st : BankSt) : State :=
  let s := { s with cx := s.sh, sh := s.cx, cxSt := .running, shSt := st, bank := !s.bank
                    ctl := .gone, core := { s.core with yieldReq := none } }
  (State.ticks 24 s).restore

/-- The trace record of a switch of a kind (20 R306); from a bank that holds nothing no context gives way, and none is
made. -/
def State.noteSwitch (s : State) (st : BankSt) (sub : Nat) : State :=
  if st == .empty then s else s.record 4 sub 0 s.cx.pc 0

/-- The running context leaves its bank in a state; the other bank, if ready, runs after the 24
cycles of a switch (13 R224); `sub` names the kind of switch. -/
def State.leave (s : State) (st : BankSt) (sub : Nat) : State :=
  if s.shSt == .ready then (s.noteSwitch st sub).exchange st
  else { s with cxSt := st, ctl := .gone }

/-! ### The end of a task -/

/-- The pricking hears that a task of a node ended, with an error reason or none (14 R233,
R235). -/
def State.noteTaskEnd (s : State) (node : Nat) (reason : Option Nat) : State :=
  { s with sched := { s.sched with
    nodes := s.sched.nodes.map (fun (n : Node) =>
      if n.gen == node && n.st != 4 && n.st != 5 then
        { n with ended := n.ended + 1, failed := if n.failed.isSome then n.failed else reason }
      else n) } }

/-- Complete with poison the reads, and drop the writes, of other tasks of a launch that wait in
a freed range (06 R99). -/
def releaseWaits (parked : List Waiter) (lo n : Nat) (c : Ctx) : Ctx :=
  let hit := fun (a : Acc) => decide (lo ≤ a.loc) && decide (a.loc < lo + n) &&
    parked.any (·.id == a.id)
  let c1 := (c.accs.filter hit).foldl (fun (c : Ctx) a =>
    match a.lq with
    | some e => if a.isRead then c.setLq e { poison := true } else c
    | none => c) c
  { c1 with accs := c1.accs.filter (fun a => !hit a) }

/-- Free the location range of a partition; streams and commands that wait there wait no more (06 R99). -/
def State.freeRange (s : State) (lo n : Nat) : State :=
  let dead := s.core.parked.filter (fun w => decide (lo ≤ 8 * w.word) && decide (8 * w.word < lo + n))
  let engine := fun (w : Waiter) => !s.contexts.any (fun c => c.accs.any (·.id == w.id))
  let s := s.onCtx (fun _ => true) (releaseWaits dead lo n)
  { s with core := { s.core with
    parked := s.core.parked.filter (fun w => !dead.contains w)
    freed := s.core.freed ++ (dead.filter engine).map (fun w => (w.id, lo, n)) } }

/-- A barrier after its holder's `END` (14 R248). -/
def Barrier.release (b : Barrier) : Barrier := { b with releasing := true }

/-- The running task's partitions and barriers are released (06 R97, R98; 14 R248): the core
partition is freed, the quad partition with the last task of its launch on the quad, a barrier at
once or once its pending arrival's phase completes. What was evicted of them is gone too. R97 does not say whether
tasks of the launch still to be placed on the quad count: here they do not (DESIGN CHOICE, log entry 113). -/
def State.releaseTask (s : State) : State :=
  let t := s.cx.task
  let uid := s.cx.uid
  let mine := fun (g : Grant) => !g.quad && g.unit == s.coreid && g.launch == t.launch &&
    g.base == t.coreBase && g.size == t.coreSize
  let quad := fun (g : Grant) => g.quad && g.unit == s.coreid / 4 && g.launch == t.launch &&
    g.base == t.quadBase && t.quadSize != 0
  let gone := s.sched.grants.filter (fun g => mine g || (quad g && g.tasks ≤ 1))
  let kept := (s.sched.grants.filter (fun g => !gone.contains g)).map
    (fun g => if quad g then { g with tasks := g.tasks - 1 } else g)
  let lost := fun (g : Grant) => mine g || (quad g && g.tasks ≤ 1)
  let away := (s.sched.evicted.filter (fun e => !lost e.grant)).map (fun (e : Evicted) =>
    if quad e.grant then { e with grant := { e.grant with tasks := e.grant.tasks - 1 } } else e)
  let s := { s with sched := { s.sched with grants := kept, evicted := away } }
  let s := gone.foldl (fun (s : State) g =>
    s.freeRange (if g.quad then quadLoc s.pkgid g.unit g.base else coreLoc s.pkgid g.unit g.base)
      g.size) s
  let bars := s.core.bars.map (fun (e : Nat × Barrier) =>
    if e.2.holder == some uid then
      if e.2.pending then (e.1, e.2.release) else (e.1, {})
    else e)
  { s with core := { s.core with bars := bars.filter (fun e => e.2.holder.isSome) } }

/-- The running context's task is over and its cycles are recorded: its switch is too (20 R306), what it held is
released, the pricking is told, the bank is emptied and the other bank runs if it is ready (05 R94, 13 R224, 14
R242). -/
def State.endRest (s : State) (reason : Option Nat) : State :=
  let node := s.cx.task.node
  let s := if s.shSt == .ready then s.record 4 3 0 s.cx.pc 0 else s
  let s := s.releaseTask
  let s := s.noteTaskEnd node reason
  let s := { s with
    cx := Ctx.fresh
    core := { s.core with yieldReq := none, parked := s.core.parked.filter (·.owner != s.cx.uid) } }
  if s.shSt == .ready then s.exchange .empty else { s with cxSt := .empty, ctl := .gone }

/-- The running context's task is over (20 R310; 05 R94). -/
def State.endTask (s : State) (reason : Option Nat) : State := s.writeCharge.endRest reason

/-- Whether the waits of the running context's `END` are over (05 R94): its batches complete, its
streams landed, its accesses performed, its lines flushed and its windows' writes acknowledged. -/
def State.endMet (s : State) : Bool :=
  s.live && s.cx.ending && s.cx.cmds.isEmpty && s.cx.streams.isEmpty && s.cx.accs.isEmpty
  && s.cx.replay.isNone
  && !s.core.lines.any (fun l => l.owner == s.cx.uid)
  && !s.fab.pkts.any (fun p => p.owner == s.cx.uid && p.counted)

/-- Whether a batch error of the ended task was never observed (05 R94). -/
def Ctx.unobserved (c : Ctx) : Bool :=
  c.unseen || c.batches.any (fun b => match b with | .error _ _ => true | _ => false)

/-- The first failing command of a batch, in issue order: its engine and reason (08 R183). -/
def firstError (cmds : List CmdRec) (tok : Nat) : Option (Nat × Nat) :=
  cmds.findSome? (fun c => if c.tok == tok then c.err.map (fun r => (c.eng, r)) else none)

/-- Whether every command of a batch is complete (08 R181). -/
def batchDone (cmds : List CmdRec) (tok : Nat) : Bool :=
  cmds.all (fun c => c.tok != tok || c.done)

/-- A batch id after the commands it holds have moved on (08 R182). -/
def BatchSt.settle (cmds : List CmdRec) : BatchSt → BatchSt
  | .held tok =>
    if batchDone cmds tok then
      match firstError cmds tok with
      | some (eng, r) => .error eng r
      | none => .free
    else .held tok
  | b => b

/-- Whether a batch is closed: its token is not the open one. -/
def Ctx.closedTok (c : Ctx) (tok : Nat) : Bool := tok != c.openTok

/-- Complete the batches whose commands are complete: an id becomes free or held with error; a
batch closed by `END`, which has no id, leaves only its error (08 R182, 05 R94). -/
def Ctx.settleBatches (c : Ctx) : Ctx :=
  let past := fun (tok : Nat) => c.closedTok tok && batchDone c.cmds tok
  let held := fun (tok : Nat) => c.batches.toList.contains (.held tok)
  { c with
    batches := c.batches.map (BatchSt.settle c.cmds)
    unseen := c.unseen || c.cmds.any (fun x => past x.tok && !held x.tok && x.err.isSome)
    cmds := c.cmds.filter (fun x => !past x.tok) }

/-- An `END` whose waits are over as it issues ends the task in its own cycle: the charge record covers the cycles
before it (05 R94, 20 R310). -/
def State.endNow (s : State) : State := s.writeCharge.tick.endRest (if s.cx.unobserved then some 3 else none)

/-! ### Taking an exception and returning from one -/

/-- The address of the bundle after the one in issue (05 R91). -/
def State.nextAddr (s : State) : Word := s.badr + 4 * mkWord s.bundle.length

/-- Whether an address lies in the kernel's code (05 R91, 21 R313). -/
def State.inCode (s : State) (a : Word) : Bool :=
  decide (s.cx.codeOrigin.toNat ≤ a.toNat) && decide (a.toNat < s.cx.codeOrigin.toNat + s.cx.codeLen)

/-- `tcause` of a delivery (13 R218). -/
def tcauseOf (cause : Nat) (completion pv : Bool) : Word :=
  mkWord (cause % 256 + (if completion then 2 ^ 8 else 0) + 2 ^ 10 + (if pv then 2 ^ 11 else 0))

/-- The header words 0 to 3 of a save area for a fault record (13 R226). -/
def headerWords (c : Ctx) (r : FaultRec) (valid : Bool) : List Word :=
  [ mkWord (1 + (if valid then 2 ^ 8 else 0) + 2 ^ 9 + c.task.regsN * 2 ^ 16 + c.task.accsN * 2 ^ 22),
    mkWord (r.cause + r.under * 2 ^ 8 + r.reason * 2 ^ 16 + r.pbits * 2 ^ 18 + r.words * 2 ^ 24
      + r.code * 2 ^ 32),
    r.addr, r.badr ]

/-- Write words at a location in ascending order. -/
def State.setWords (s : State) (loc : Nat) (l : List Word) : State :=
  s.setBytes loc (l.flatMap (fun w => bytesOfNat 8 w.toNat))

/-- Record a fault in the save-area header of the running context, where that is mapped (13
R217, R226; log entry 8). -/
def State.writeHeader (s : State) (r : FaultRec) : State :=
  if s.cx.ctxsave == 0 then s
  else
    match s.translate s.cx.ptbase.toNat s.cx.asid.toNat s.cx.ctxsave true true with
    | (.ok pa _, s1) => s1.setWords (hbmLoc s.pkgid pa) (headerWords s.cx r false)
    | _ => s

/-- A handler-bound cause that finds no handler, or the handler active: the context is captured,
the cause recorded, and its task ended with error, reason 2 (13 R217, 14 R233). -/
def State.dtrap (s : State) (cause : Nat) (tval : Word) : State :=
  let r : FaultRec :=
    { cause := 19, under := cause, words := s.bundle.length, addr := tval, badr := s.badr
      code := if cause = 10 || cause = 11 then tval.toNat else 0 }
  let s := s.capture
  let s := s.writeHeader r
  let s := { s with cx := { s.cx with fault := some r } }
  s.endTask (some 2)

/-- TAKING AN EXCEPTION, a handler-bound cause (13 R217, R219, 15 R251): results in flight are
drained; `tcause`, `tbadr`, `tval` are written with ha set; the resume address and the loop state
are saved and `lcnt` cleared; the handler is next, in the same context at the same privilege; 24
cycles pass. A `thand` on its way as the cause is found counts (log entry 122). -/
def State.trap (s : State) (cause : Nat) (tval : Word) (completion : Bool) (resume : Word) : State :=
  let s := s.drain
  if s.cx.thand == 0 || s.cx.tcause.getLsbD 10 then s.dtrap cause tval
  else
    let c := s.cx
    let s := { s with
      ctl := .trapped
      cx := { c with
        tcause := tcauseOf cause completion c.priv
        tbadr := s.badr
        tval := tval
        resumeAddr := resume
        savedLbeg := c.lbeg
        savedLend := c.lend
        savedLcnt := c.lcnt
        lcnt := 0
        pc := c.thand } }
    State.ticks 24 s

/-- RETURNING FROM AN EXCEPTION (13 R229): the loop state is restored and the bundle reissued,
or execution resumes at the resume address; ha is cleared. -/
def State.eretPlain (s : State) : State :=
  let c := s.cx
  let next := if c.tcause.getLsbD 8 then c.resumeAddr else s.specialNow 0x009
  { s with
    ctl := .jump next
    cx := { c with lbeg := c.savedLbeg, lend := c.savedLend, lcnt := c.savedLcnt
                   tcause := c.tcause &&& ~~~(0x400 : Word) } }

/-- Returning to another address (13 R229): the resume state is discarded. -/
def State.eretJump (s : State) (a : Word) : State :=
  let c := s.cx
  { s with
    ctl := .jump a
    cx := { c with lbeg := 0, lend := 0, lcnt := 0, resumeAddr := 0, savedLbeg := 0, savedLend := 0
                   savedLcnt := 0, tcause := c.tcause &&& ~~~(0x400 : Word) } }

/-- A cause delivered to the firmware (13 R222, R228): the context is captured with its fault
record and held; the shadow bank runs if it is ready. -/
def State.freeze (s : State) (r : FaultRec) : State :=
  let s := s.record 2 r.cause 0 r.badr 0
  let s := s.capture
  let s := { s with cx := { s.cx with fault := some r } }
  s.leave .held 2

/-- The bundle has issued: its breakpoint may fire again, a single step is done (20 R304). -/
def Ctx.noteIssued (c : Ctx) : Ctx :=
  { c with bpSkip := false, stepOne := false, stepDone := c.stepDone || c.stepOne }

/-- The bundle in issue is over and its cycle passes; execution goes on at an address (03 R33). -/
def State.advance (s : State) (next : Word) : State :=
  let s := s.tick
  ({ s with cx := { s.cx.noteIssued with pc := next, icyc := s.cx.icyc + 1 } }).settle

/-- The loop test at a completed bundle whose C word transfers no control, and the address it
chooses (05 R93). -/
def State.loopNext (s : State) : State × Word :=
  let next := s.nextAddr
  let lend := s.specialNow 0x021
  let lcnt := s.specialNow 0x022
  if next == lend && lcnt != 0 then
    if lcnt == 1 then ({ s with cx := { s.cx with lcnt := 0 } }, next)
    else
      ({ s with cx := { s.cx with lcnt := lcnt - 1 } }, s.specialNow 0x020)
  else (s, next)

/-- The cause under which a handler-bound cause is taken: DTRAP where no handler stands ready (13 R217). -/
def State.takenCause (s : State) (cause : Nat) : Nat :=
  let t := s.drain
  if t.cx.thand == 0 || t.cx.tcause.getLsbD 10 then 19 else cause

/-- The trace record of a trap (20 R306). -/
def State.recordTrap (s : State) (cause code : Nat) : State :=
  s.record 2 (s.takenCause cause) code s.badr 0

/-- A cause of completion kind (13 R214): every word has performed and the loop test is made; the
resume address is the next address the bundle chose. -/
def State.trapDone (s : State) (cause : Nat) (tval : Word) : State :=
  let s := s.recordTrap cause (if cause = 10 || cause = 11 then tval.toNat else 0)
  let (s, next) := s.loopNext
  (s.advance next).trap cause tval true next

/-- A branch target outside the code, or misaligned: ADDR of completion kind, no loop test; else
the transfer (05 R91, 03 R24). A taken branch leaves its trace record (20 R306). -/
def State.branchTo (s : State) (target : Word) : State :=
  if target.toNat % 4 != 0 || !s.inCode target then
    let next := s.nextAddr
    ((s.recordTrap 6 0).advance next).trap 6 target true next
  else { (s.record 6 0 0 s.badr target) with ctl := .jump target }

/-- A stop for the debugger (20 R304): the context is captured and held; `sub` is the source. -/
def State.stopHere (s : State) (sub code : Nat) : State :=
  let s := s.record 3 sub code s.badr 0
  let s := s.capture
  { s with cxSt := .held, ctl := .gone, cx := { s.cx with stop := s.dbg.stopHolder } }

/-! ### Issue of a word -/

/-- A cause of issue kind with its `tval`. -/
structure TrapReq where
  cause : Nat
  tval : Word
  deriving DecidableEq, Repr

/-- What a word asks at issue (03 R23, R40, R336): how many entries of `lq` it pops, whether the state
makes it illegal (a register's value, a descriptor, the context; log entry 68), when it stalls (given its
popped values and how many entries its bundle pops) and what a stall does, which other cause of issue
kind it meets, and its effect. -/
structure WordSpec where
  pops : Nat := 0
  illop : State → Bool := fun _ => false
  stall : State → List Reg → Nat → Bool := fun _ _ _ => false
  onStall : State → List Reg → State := fun s _ => s
  check : State → List Reg → Option TrapReq := fun _ _ => none
  effect : State → List Reg → State

/-- The values of the first entries of `lq`, none while one is not back (01 R6). -/
def lqValues (n : Nat) (l : List LqEnt) : Option (List Reg) := (l.take n).mapM (·.data)

/-- Pop entries of `lq`. -/
def State.popLq (s : State) (n : Nat) : State := { s with cx := { s.cx with lq := s.cx.lq.drop n } }

/-- The word in issue, as it stands in the bundle. -/
def State.curWord (s : State) : IWord := (s.bundle[s.widx]?).getD 0

/-- `tval` of a cause reported with the word and its index (13 R219, 03 R40). -/
def State.tvalWord (s : State) : Word := mkWord (s.curWord.toNat + s.widx * 2 ^ 32)

/-- ILLOP at the word in issue (03 R37, R40). -/
def State.illop (s : State) : TrapReq := ⟨1, s.tvalWord⟩

/-- `tval` of LQEMPTY (13 R219). -/
def lqEmptyTval (need have_ : Nat) : Word := mkWord (need % 256 + (have_ % 256) * 2 ^ 8)

/-- A cause of issue kind is delivered (13 R214). -/
def State.trapIssue (s : State) (t : TrapReq) : State :=
  (s.recordTrap t.cause 0).trap t.cause t.tval false s.badr

/-- The bundle stalls this cycle (03 R26); `empty` says that a pop names an entry that is not
back (10 R192). -/
def State.stallNow (s : State) (empty : Bool) : State := { s with ctl := .stalled empty }

/-- Issue of one word standing alone in its bundle: ILLOP, LQEMPTY, the head of `lq` not back, the
word's own stalls, its other causes of issue kind, then its effect (03 R336, 13 R216). -/
def issueWord (w : WordSpec) (s : State) : State :=
  if w.illop s then s.trapIssue s.illop
  else if s.cx.lq.length < w.pops then
    s.trapIssue ⟨4, lqEmptyTval w.pops s.cx.lq.length⟩
  else
    match lqValues w.pops s.cx.lq with
    | none => s.stallNow true
    | some vals =>
      if w.stall s vals w.pops then (w.onStall s vals).stallNow false
      else
        match w.check s vals with
        | some t => s.trapIssue t
        | none => w.effect (s.popLq w.pops) vals

/-- The outcome of a step of the machine that always goes on. -/
abbrev Out := Host.Outcome State Fault Refusal

/-- A word as an instruction. -/
def runWord (w : WordSpec) (s : State) : Out := .next (issueWord w s)

end Sys2Proof.Machine
end

