-- ==== Sys2Proof/Machine/Operands.lean ====
section
/-!
DEFINITION. Operand forms of the scalar and A pipes: register sources with `lq`, sign extension,
effective addresses, and the decoding and checking of addresses (02 R13 to R17; 06 R106, R111;
16 R253, R255).
-/

namespace Sys2Proof.Machine

open Sys2Proof

/-! ### Register operands -/

/-- Whether a source field names `lq` (03 R36). -/
def isLq (r : SReg) : Bool := r == 63

/-- How many entries of `lq` two source fields pop. -/
def pops2 (a b : SReg) : Nat := (if isLq a then 1 else 0) + (if isLq b then 1 else 0)

/-- A source: a register, or the next popped value. -/
def State.src (s : State) (r : SReg) (v : List Reg) (i : Nat) : Reg :=
  if isLq r then (v[i]?).getD {} else s.cx.sreg r

/-- The second of two sources: it pops after the first (01 R6). -/
def State.src2 (s : State) (a b : SReg) (v : List Reg) : Reg :=
  s.src b v (if isLq a then 1 else 0)

/-- The attributes a result takes from its sources: poison of any, taint of all (05 R81). -/
def joinAttr (v : Word) (l : List Reg) : Reg :=
  { val := v, poison := l.any (·.poison), taint := (l.flatMap (·.taint)).eraseDups }

/-- A predicate as a source's attributes. -/
def PReg.attr (p : PReg) : Reg := { poison := p.poison, taint := p.taint }

/-- POISON of a scalar register or a predicate named by the word in issue (13 R219). -/
def State.poisonTrap (s : State) (n : Nat) (pred : Bool) : TrapReq :=
  ⟨5, mkWord (n + (if pred then 2 ^ 6 else 0) + s.widx * 2 ^ 8)⟩

/-- POISON if a register source carries poison. -/
def State.poisonCheck (s : State) (r : SReg) (v : Reg) : Option TrapReq :=
  if v.poison then some (s.poisonTrap r.toNat false) else none

/-- PRIV, for a word only privileged code may issue (13 R219, R228). -/
def State.privCheck (s : State) : Option TrapReq :=
  if s.cx.priv then none else some ⟨3, s.tvalWord⟩

/-- The first of several checks that fails. -/
def firstOf (l : List (Option TrapReq)) : Option TrapReq := l.findSome? id

/-! ### Addresses -/

/-- Where an address points (02 R15). -/
inductive Place where
  | near (loc : Nat)
  | weights (loc : Nat)
  | window (w rank loc : Nat)
  | global
  deriving DecidableEq, Repr

/-- The outcome of an address check: a cause and its offending address, or the place. -/
inductive Located where
  | bad (cause : Nat) (addr : Word)
  | ok (p : Place)
  deriving DecidableEq, Repr

/-- Bit 56: near space (02 R14, R15). -/
def isNear (a : Word) : Bool := a.getLsbD 56

/-- The core index that the issuing core has among the locations: the control core's scratchpad
stands after those of the 1,536 cores. -/
def State.coreUnit (s : State) : Nat := if s.core.control then 1536 else s.coreid

/-- Decoding of a near address (02 R15, 16 R253): ADDR where the layout forbids it. Two outcomes are the
model's choice: regions 0x1 and 0x2 on the control core, which belongs to no quad and no die (02 R10), are
ADDR (log entry 71), and so are offset bits 22:21 of a window address whose peer region is 0x0 (log entry
70). -/
def State.locateNear (s : State) (a : Word) : Located :=
  let region := bitsOf a 52 4
  let p := s.pkgid
  match region with
  | 0 =>
    if bitsOf a 21 31 != 0 then .bad 6 a else .ok (.near (coreLoc p s.coreUnit (bitsOf a 0 21)))
  | 1 =>
    if bitsOf a 23 29 != 0 || s.core.control then .bad 6 a
    else .ok (.near (quadLoc p (s.coreid / 4) (bitsOf a 0 23)))
  | 2 =>
    if bitsOf a 28 24 != 0 || s.core.control then .bad 6 a
    else .ok (.weights (wsLoc p (s.coreid / 24) (bitsOf a 0 28)))
  | 3 =>
    let die := bitsOf a 46 6
    let quad := bitsOf a 43 3
    let core := bitsOf a 41 2
    if bitsOf a 23 17 != 0 || decide (5 < quad) then .bad 6 a
    else if a.getLsbD 40 then .ok (.near (quadLoc p (die * 6 + quad) (bitsOf a 0 23)))
    else if bitsOf a 21 2 != 0 then .bad 6 a
    else .ok (.near (coreLoc p (die * 24 + quad * 4 + core) (bitsOf a 0 21)))
  | r =>
    if r < 8 then .bad 6 a
    else
      let rank := bitsOf a 38 14
      let peer := bitsOf a 34 4
      let core := bitsOf a 23 11
      let e := s.rankEntry rank
      if decide (1 < peer) || decide (1535 < core) || (peer == 0 && bitsOf a 21 2 != 0) then .bad 6 a
      else if rankKind e == 0 || rankKind e == 3 || e.getLsbD 21 then .bad 6 a
      else
        .ok (.window (r - 8) rank
          (if peer == 0 then coreLoc 0 core (bitsOf a 0 21) else quadLoc 0 (core / 4) (bitsOf a 0 23)))

/-- Decoding of an address (02 R13 to R15). -/
def State.locate (s : State) (a : Word) : Located :=
  if bitsOf a 57 7 != 0 then .bad 6 a
  else if isNear a then s.locateNear a
  else .ok .global

/-- Whether a grant of a launch covers a scratchpad location (02 R16). -/
def Grant.coversLoc (g : Grant) (p : Nat) (launch loc : Nat) : Bool :=
  let lo := if g.quad then quadLoc p g.unit g.base else coreLoc p g.unit g.base
  g.launch == launch && decide (lo ≤ loc) && decide (loc < lo + g.size)

/-- Whether a task may use a granted partition: a pre-emption reserve is its holder's alone (02 R16, 06
R98). -/
def Grant.reaches (g : Grant) (t : Task) (coreUnit : Nat) : Bool :=
  !g.reserve ||
    (if g.quad then t.reserveQ && g.unit == coreUnit / 4 && g.base == t.quadBase
     else t.reserve && g.unit == coreUnit && g.base == t.coreBase)

/-- Whether the issuing task may reach a scratchpad location: a partition of its launch, the
reserve it holds, or the control core's own scratchpad (02 R16, 14 R231, R234). -/
def State.granted (s : State) (loc : Nat) : Bool :=
  (s.core.control && decide (coreLoc s.pkgid 1536 0 ≤ loc)
    && decide (loc < coreLoc s.pkgid 1536 0 + 2 ^ 21))
  || s.sched.grants.any (fun g => g.coversLoc s.pkgid s.cx.task.launch loc && g.reaches s.cx.task s.coreid)

/-- The bits of a bank's number: 32 banks in a core scratchpad, 64 in a quad scratchpad (06 R100). -/
def bankBits (quad : Bool) : Nat := if quad then 6 else 5

/-- What the keyed hash adds to a word's bank: bit j is the parity of the bits of the word index above
those of the bank, under mask j of the key (06 R100). -/
def bankMix (quad : Bool) (key : Word) (high : Nat) : Nat :=
  ((List.range (bankBits quad)).filter (fun j =>
    ((List.range 14).filter (fun i => (high &&& Config.bankMask key j).testBit i)).length % 2 == 1)).foldl
    (fun n j => n + 2 ^ j) 0

/-- The bank that serves word w of a scratchpad, under the key of the partition that holds it (06 R100).
Results never depend on it. -/
def bankOf (quad : Bool) (key : Word) (w : Nat) : Nat :=
  (w % 2 ^ bankBits quad) ^^^ bankMix quad key (w / 2 ^ bankBits quad)

/-- What an access does to its word, for the checks. -/
inductive AccessSort where
  | read | store | tagRead | tagWrite | atomic
  deriving DecidableEq, Repr

/-- Whether an access writes. -/
def AccessSort.writes : AccessSort → Bool
  | .read | .tagRead => false
  | _ => true

/-- The check of the effective address of an A-pipe access of an alignment (06 R106, R111, R117;
02 R13, R15, R16; 16 R255). -/
def State.checkAccess (s : State) (a : Word) (align : Nat) (k : AccessSort) : Located :=
  if a.toNat % align != 0 then .bad 6 a
  else
    match s.locate a with
    | .bad c x => .bad c x
    | .ok .global =>
      match k with
      | .tagRead | .tagWrite => .bad 6 a
      | _ => .ok .global
    | .ok (.near loc) => if s.granted loc then .ok (.near loc) else .bad 7 a
    | .ok (.weights loc) => if k == .read then .ok (.weights loc) else .bad 7 a
    | .ok (.window w rank loc) =>
      if rankKind (s.rankEntry rank) == 2 && k != .store then .bad 6 a
      else .ok (.window w rank loc)

/-- An address check as a cause of issue kind. -/
def Located.trap : Located → Option TrapReq
  | .bad c a => some ⟨c, a⟩
  | .ok _ => none

/-- Effective address base + off × 2^sz, the offset signed (06 R112). -/
def effAddr (base : Word) (off : Int) (sz : BitVec 2) : Word :=
  base + BitVec.ofInt 64 (off * 2 ^ sz.toNat)

end Sys2Proof.Machine
end

