-- ==== Sys2Proof/Machine/Elements.lean ====
section
/-!
DEFINITION. Elements of regions: descriptors and their checks (07 R126 to R132), where an element
lies (04 R53, R54; 07 R129), its value with its scale (04 R57 to R59), accumulator elements (08
R155, R168, R169), tags and poison marks of what a group touches (07 R132, R135).
-/

namespace Sys2Proof.Machine

open Sys2Proof

/-! ### Descriptors -/

/-- The kind of a descriptor. -/
def Desc.kind (d : Desc) : Nat := bitsOf d.w1 22 2
/-- The count of a descriptor. -/
def Desc.count (d : Desc) : Nat := bitsOf d.w1 24 16
/-- The format code of a descriptor. -/
def Desc.code (d : Desc) : Nat := bitsOf d.w1 16 5
/-- The tag mode code of a descriptor. -/
def Desc.tag (d : Desc) : Nat := bitsOf d.w1 14 2
/-- The signed stride of a descriptor. -/
def Desc.stride (d : Desc) : Int := intOfCode true 24 (bitsOf d.w1 40 24)
/-- The scl bit of a descriptor. -/
def Desc.scl (d : Desc) : Bool := d.w1.getLsbD 13
/-- The scale-index descriptor. -/
def Desc.sdesc (d : Desc) : DReg := d.w1.extractLsb' 8 5

/-- A tag mode from its code (06 R108). -/
def tagOfCode (n : Nat) : TagMode :=
  match n with
  | 0 => .keep
  | 1 => .wait
  | 2 => .take
  | _ => .fill

/-- A legal, unreserved format code (07 R128). -/
def codeNamed (c : Nat) : Bool := (decide (1 ≤ c) && decide (c ≤ 12)) || decide (16 ≤ c)

/-- Format codes an accumulator element may have (07 R129). -/
def accCode (c : Nat) : Bool := c == 1 || c == 2 || c == 6 || c == 7

/-- The field checks that need no role (07 R126 to R128, R150), without the count. -/
def Desc.fieldsOk (d : Desc) : Bool :=
  d.kind != 3 && codeNamed d.code && !d.w1.getLsbD 21 && bitsOf d.w1 0 4 == 0
  && (d.scl || d.sdesc == 0)
  && (if d.kind == 2 then bitsOf d.w0 15 49 == 0 && accCode d.code && d.tag == 0 && !d.scl
      else bitsOf d.w0 57 7 == 0)

/-- What a descriptor is used for. -/
inductive Role where
  | src | dst | both
  deriving DecidableEq, Repr

/-- A tag mode allowed in a role (07 R132). -/
def tagAllowed (tag : Nat) : Role → Bool
  | .src => tag != 3
  | .dst => tag != 2
  | .both => tag != 3 && tag != 2

/-- The format a descriptor names now (07 R128, R131). -/
def State.fmtOf (s : State) (code : Nat) : Fmt :=
  (fmtOfCode (fun n => s.cx.fm (BitVec.ofNat 4 n)) code).getD (.int false 8)

/-- A narrow floating format: one of the format registers, of kind 0 (04 R47, 07 R130). -/
def narrowFloat (code : Nat) (f : Fmt) : Bool := decide (16 ≤ code) && f.isFloat

/-- The ILLOP checks of a descriptor in a role (07 R130); of the scale-index descriptor only the base
is used, and its own fields are not checked (log entry 75). -/
def State.descOk (s : State) (d : Desc) (r : Role) (codes : Bool := false) : Bool :=
  d.fieldsOk && tagAllowed d.tag r && (!d.scl || codes || narrowFloat d.code (s.fmtOf d.code))
  && (d.kind != 1 || d.w0.toNat % 512 == 0)

/-- The location of a near address; an address that is not near has none. -/
def State.locOf (s : State) (a : Word) : Nat :=
  match s.locate a with
  | .ok (.near l) | .ok (.weights l) => l
  | _ => 0

/-- A region as a word that names the descriptor carries it (07 R131). -/
def State.regionOf (s : State) (d : DReg) : Region :=
  let x := s.cx.desc d
  let acc := x.kind == 2
  { d := d.toNat
    kind := x.kind
    base := if acc then x.w0 else keep x.w0 0 57
    loc := if acc then 0 else s.locOf (keep x.w0 0 57)
    stride := x.stride
    count := x.count
    code := x.code
    fmt := s.fmtOf x.code
    tag := tagOfCode x.tag
    cls := bitsOf x.w1 4 4
    scales :=
      if x.scl then
        some ((List.range 16).map (fun n => s.cx.sc (BitVec.ofNat 4 n)),
          s.locOf (keep (s.cx.desc x.sdesc).w0 0 57))
      else none
    actor := some (s.cx.uid, s.nextId) }

/-! ### Places -/

/-- Byte offset of element i from the base of a region in memory (04 R53, 07 R129): its first
plane word for the plane kind. -/
def Region.off (r : Region) (i : Nat) : Int :=
  let w := r.fmt.width
  if r.kind = 1 then 8 * w * r.stride * (i / 64 : Nat)
  else if 16 ≤ w then i * r.stride * (w / 8 : Nat)
  else if 5 ≤ w then i * r.stride
  else (i * r.stride) / 2

/-- Bytes that element i occupies from its offset. -/
def Region.span (r : Region) : Nat :=
  let w := r.fmt.width
  if r.kind = 1 then 8 * w else if 16 ≤ w then w / 8 else 1

/-- The location of element i in memory. -/
def Region.at (r : Region) (i : Nat) : Nat := ((r.loc : Int) + r.off i).toNat

/-- The accumulator element index of element i (07 R129). -/
def Region.accIdx (r : Region) (i : Nat) : Int :=
  (bitsOf r.base 3 12 : Int) + i * r.stride

/-- The tile an accumulator region names. -/
def Region.tile (r : Region) : BitVec 3 := r.base.extractLsb' 0 3

/-- The locations ÷ 8 of the words that hold element i. -/
def Region.words (r : Region) (i : Nat) : List Nat :=
  if r.kind = 2 then []
  else if r.kind = 1 then (List.range r.fmt.width).map (fun j => r.at i / 8 + j)
  else [r.at i / 8]

/-- The words of the first n elements, with repetitions. -/
def Region.allWords (r : Region) (n : Nat) : List Nat := (List.range n).flatMap r.words

/-- Lowest and highest byte locations of the first n elements. -/
def Region.bounds (r : Region) (n : Nat) : Nat × Nat :=
  let x := r.at 0
  let y := r.at (n - 1)
  (Nat.min x y, Nat.max x y + r.span - 1)

/-- Whether the first n elements may touch the 8-byte word w: an exact test. -/
def Region.touches (r : Region) (n w : Nat) : Bool :=
  r.kind != 2 && n != 0 && decide ((r.bounds n).1 / 8 ≤ w) && decide (w ≤ (r.bounds n).2 / 8) &&
    (List.range n).any (fun i => (r.words i).contains w)

/-- Whether two regions share a word, or a tile. -/
def Region.meets (r : Region) (n : Nat) (q : Region) (m : Nat) : Bool :=
  if r.kind = 2 || q.kind = 2 then r.kind == 2 && q.kind == 2 && r.tile == q.tile
  else
    n != 0 && m != 0 && decide ((r.bounds n).1 / 8 ≤ (q.bounds m).2 / 8)
    && decide ((q.bounds m).1 / 8 ≤ (r.bounds n).2 / 8)
    && (List.range n).any (fun i => (r.words i).any (fun w => q.touches m w))

/-! ### Issue checks -/

/-- The first address and the size of the near region that holds an address (02 R15). -/
def nearSpan (a : Word) : Word × Nat :=
  match bitsOf a 52 4 with
  | 0 => (keep a 52 5, 2 ^ 21)
  | 1 => (keep a 52 5, 2 ^ 23)
  | 2 => (keep a 52 5, 2 ^ 28)
  | _ => if a.getLsbD 40 then (keep a 40 17, 2 ^ 23) else (keep a 40 17, 2 ^ 21)

/-- ADDR of a range lo .. lo + n − 1 in near space (02 R15, R16): the lowest address that fails
its layout, or the first byte beyond its region. Windows and global memory are not reached. -/
def State.rangeAddr (s : State) (lo : Word) (n : Nat) : Option Word :=
  match s.locate lo with
  | .ok (.near _) | .ok (.weights _) =>
    let (st, len) := nearSpan lo
    if st.toNat + len < lo.toNat + n then some (st + mkWord len) else none
  | _ => some lo

/-- PERM of one end of a range (02 R16, 07 R130). -/
def State.placePerm (s : State) (a : Word) (write tag : Bool) : Bool :=
  match s.locate a with
  | .ok (.near loc) => s.granted loc
  | .ok (.weights _) => !write && !tag
  | _ => true

/-- The address of a byte of a region. -/
def Region.addr (r : Region) (off : Int) : Word := keep (r.base + BitVec.ofInt 64 off) 0 64

/-- ADDR of a region of n elements: base alignment, the spans of its first and last elements,
the index region (07 R130). For an accumulator element outside its tile there is no address, and `tval` is
its signed index (log entry 74). -/
def State.regionAddr (s : State) (r : Region) (n : Nat) (idx : Word) : Option TrapReq :=
  if n = 0 then none
  else if r.kind = 2 then
    if r.accIdx 0 < 0 ∨ 4095 < r.accIdx 0 then some ⟨6, BitVec.ofInt 64 (r.accIdx 0)⟩
    else if r.accIdx (n - 1) < 0 ∨ 4095 < r.accIdx (n - 1) then
      some ⟨6, BitVec.ofInt 64 (r.accIdx (n - 1))⟩
    else none
  else if r.kind = 0 && decide (16 ≤ r.fmt.width) && r.base.toNat % (r.fmt.width / 8) != 0 then
    some ⟨6, r.base⟩
  else
    let lo := if r.off (n - 1) < r.off 0 then r.off (n - 1) else r.off 0
    let hi := if r.off (n - 1) < r.off 0 then r.off 0 else r.off (n - 1)
    match s.rangeAddr (r.addr lo) ((hi - lo).toNat + r.span) with
    | some a => some ⟨6, a⟩
    | none =>
      if r.scales.isSome then
        (s.rangeAddr idx ((n - 1) / 64 + 1)).map (fun a => ⟨6, a⟩)
      else none

/-- The first address of a near range outside what the task may reach: partitions are granted in
multiples of 4 KiB. -/
def State.rangePerm (s : State) (lo : Word) (len : Nat) (write tag : Bool) : Option Word :=
  let first := lo.toNat / 4096
  let last := (lo.toNat + len - 1) / 4096
  (List.range (last - first + 1)).findSome? (fun k =>
    let a := if k = 0 then lo else mkWord ((first + k) * 4096)
    if s.placePerm a write tag then none else some a)

/-- The lowest of several addresses. -/
def lowestAddr : List Word → Option Word
  | [] => none
  | a :: t =>
    match lowestAddr t with
    | some b => some (if b.toNat < a.toNat then b else a)
    | none => some a

/-- PERM of a region of n elements (07 R130): its first and last elements, or each that an index may
name; then its index region. `tval` is the lowest address that fails (02 R16). -/
def State.regionPerm (s : State) (r : Region) (n : Nat) (idx : Word) (write : Bool) (whole : Bool := false) :
    Option TrapReq :=
  if n = 0 || r.kind == 2 then none
  else
    let at_ := fun (i : Nat) => s.rangePerm (r.addr (r.off i)) r.span write (r.tag != .keep)
    match lowestAddr ((if whole then List.range n else [0, n - 1]).filterMap at_) with
    | some a => some ⟨7, a⟩
    | none =>
      if r.scales.isSome then
        (s.rangePerm idx ((n - 1) / 64 + 1) false false).map (fun a => ⟨7, a⟩)
      else none

/-- The tiles a shuttle command names (08 R173, R177). -/
def MKind.tiles : MKind → List Nat
  | .step acc wide _ _ _ _ _ _ => if wide then [acc, acc + 1] else [acc]
  | .zero n wide _ _ => if wide then [n, n + 1] else [n]
  | .drain _ n _ _ => [n]
  | .load n _ _ _ => [n]
  | _ => []

/-- Whether a tile of the running context is in flight (08 R169). -/
def State.tileBusy (s : State) (t : Nat) : Bool :=
  s.core.shq.any (fun m => m.owner == s.cx.uid && m.kind.tiles.contains t)

/-- ACCBUSY of a region (07 R130, 08 R169). -/
def State.regionBusy (s : State) (r : Region) : Option TrapReq :=
  if r.kind == 2 && s.cx.acchk && s.tileBusy r.tile.toNat then
    some ⟨8, mkWord (r.tile.toNat + s.widx * 2 ^ 8)⟩
  else none

/-- The base of the scale-index region of a descriptor. -/
def State.indexBase (s : State) (d : DReg) : Word :=
  keep (s.cx.desc (s.cx.desc d).sdesc).w0 0 57

/-- A descriptor a word uses: its role and how many elements it uses; whether the word may reach any of
them (07 R130), and whether it takes codes and ignores scl (07 R138). -/
structure Use where
  d : DReg
  role : Role
  n : Nat
  whole : Bool := false
  codes : Bool := false

/-- The use of the first n elements of a descriptor in a role. -/
def Use.of (d : DReg) (role : Role) (n : Nat) : Use := { d := d, role := role, n := n }

/-- The region a word uses. -/
def State.usedRegion (s : State) (u : Use) : Region :=
  let r := s.regionOf u.d
  if u.codes then { r with scales := none } else r

/-- The ILLOP checks of every descriptor a word uses. -/
def State.usesIllop (s : State) (l : List Use) : Bool :=
  l.any (fun u => !s.descOk (s.cx.desc u.d) u.role u.codes)

/-- The ADDR, PERM and ACCBUSY checks of every descriptor a word uses, in that order (13 R216). -/
def State.usesTrap (s : State) (l : List Use) : Option TrapReq :=
  firstOf
    (l.map (fun u => s.regionAddr (s.usedRegion u) u.n (s.indexBase u.d))
    ++ l.map (fun u => s.regionPerm (s.usedRegion u) u.n (s.indexBase u.d) (u.role != .src) u.whole)
    ++ l.map (fun u => s.regionBusy (s.usedRegion u)))

/-! ### Accumulator elements -/

/-- The form a format code stands for (07 R129). -/
def formOfCode (c : Nat) : Form :=
  match c with
  | 1 => .fp64
  | 2 => .fp32
  | 6 => .i32
  | _ => .i16

/-- The element format of a form (08 R155). -/
def fmtOfForm : Form → Fmt
  | .fp64 => .flt fp64
  | .fp32 => .flt fp32
  | .i32 => .int true 32
  | .i16 => .int true 16

/-- An element of a tile; unlisted elements are zero. -/
def Tile.get (t : Tile) (i : Nat) : Word :=
  ((t.elems.find? (fun e => e.1 == i)).map (·.2)).getD 0

/-- Insertion into the elements of a tile. -/
def insertElem (i : Nat) (v : Word) : List (Nat × Word) → List (Nat × Word)
  | [] => [(i, v)]
  | (k, w) :: t =>
    if i < k then (i, v) :: (k, w) :: t
    else if i = k then (i, v) :: t
    else (k, w) :: insertElem i v t

/-- Write an element of a tile, keeping its canonical form. -/
def Tile.put (t : Tile) (i : Nat) (v : Word) : Tile :=
  { t with elems := if v == 0 then t.elems.filter (fun e => e.1 != i) else insertElem i v t.elems }

/-- A tile of a context. -/
def Ctx.tileAt (c : Ctx) (t : BitVec 3) : Tile := c.tiles[t.toNat]'t.isLt

/-- Replace a tile of the running context. -/
def State.setTile (s : State) (t : BitVec 3) (x : Tile) : State :=
  { s with cx := { s.cx with tiles := s.cx.tiles.set t.toNat x t.isLt } }

/-- Whether an accumulator access is undefined: another form, or the tile in flight (07 R129,
R136; 08 R169). -/
def State.accUndefined (s : State) (r : Region) : Bool :=
  (s.cx.tileAt r.tile).form != formOfCode r.code || s.tileBusy r.tile.toNat

/-! ### Reading and writing -/

/-- The location of the byte of scale indices that element i's block uses, if the region is scaled (04
R57). -/
def Region.scaleByte (r : Region) (i : Nat) : Option Nat := r.scales.map (fun x => x.2 + i / 32 / 2)

/-- Whether the scale index of element i comes from a marked line, so that its value is poisoned (06 R102,
07 R135). -/
def State.scalePoison (s : State) (r : Region) (i : Nat) : Bool :=
  match r.scaleByte i with
  | some l => s.marked l
  | none => false

/-- The locations of the bytes that hold element i. -/
def Region.bytesAt (r : Region) (i : Nat) : List Nat :=
  if r.kind = 2 then []
  else if r.kind = 1 then (List.range r.fmt.width).map (fun j => r.at i + 8 * j + i % 64 / 8)
  else (List.range (Nat.max 1 (r.fmt.width / 8))).map (fun j => r.at i + j)

/-- The code of element i as it stands, and whether it is poisoned (04 R53, R54; 07 R129, R135). -/
def State.codeAt (s : State) (r : Region) (i : Nat) : (Nat × Bool) × State :=
  let w := r.fmt.width
  let sp := s.scalePoison r i
  if r.kind = 2 then
    if s.accUndefined r then
      let (x, s) := s.draw
      ((x.toNat % 2 ^ w, false), s)
    else (((s.cx.tileAt r.tile).get (r.accIdx i).toNat |>.toNat, false), s)
  else if r.kind = 1 then
    let base := r.at i
    let code := (List.range w).foldl (fun c j =>
      c + (s.readNat (base + 8 * j + i % 64 / 8) 1 / 2 ^ (i % 8) % 2) * 2 ^ j) 0
    ((code, sp || s.markedRange base (8 * w)), s)
  else
    let a := r.at i
    let raw :=
      if 16 ≤ w then s.readNat a (w / 8)
      else if 5 ≤ w then s.readNat a 1 % 2 ^ w
      else s.readNat a 1 / (if (i * r.stride) % 2 = 0 then 1 else 16) % 2 ^ w
    ((raw, sp || s.marked a), s)

/-- The code of element i and whether it is poisoned: undefined where software may not read it (17 R276). -/
def State.readElem (s : State) (r : Region) (i : Nat) : (Nat × Bool) × State :=
  let (x, s) := s.codeAt r i
  if (r.bytesAt i).any (s.hot r.actor) then
    let (v, s) := s.draw
    ((v.toNat % 2 ^ r.fmt.width, x.2), s)
  else (x, s)

/-- The half-bytes of memory that writes of some elements cover wholly: of a plane word, a byte whose eight
lanes are all written. -/
def Region.covers (r : Region) (is : List Nat) : List Nat :=
  let w := r.fmt.width
  let byte := fun (b : Nat) => [2 * b, 2 * b + 1]
  if r.kind = 2 then []
  else if r.kind = 1 then
    ((is.filter (fun i => i % 8 == 0)).filter (fun i =>
      (List.range 8).all (fun k => is.contains (i + k)))).flatMap (fun i =>
        (List.range w).flatMap (fun j => byte (r.at i + 8 * j + i % 64 / 8)))
  else if w ≤ 4 then is.map (fun i => 2 * r.at i + ((i : Int) * r.stride % 2).toNat)
  else is.flatMap (fun i => (List.range r.span).flatMap (fun j => byte (r.at i + j)))

/-- The lines that an element occupies. -/
def Region.linesOf (r : Region) (i : Nat) : List Nat :=
  if r.kind = 2 then [] else (r.words i).map (· / 8)

/-- Write the code of element i, and the mark of its line if it is poisoned (04 R53, R54; 07
R135). A write in a form that the tile does not hold leaves an undefined element of the tile (R129). -/
def State.putElem (s : State) (r : Region) (i code : Nat) (poison : Bool) : State :=
  let w := r.fmt.width
  if r.kind = 2 then
    if s.accUndefined r then
      let (x, s) := s.draw
      s.setTile r.tile ((s.cx.tileAt r.tile).put (r.accIdx i).toNat
        (mkWord (x.toNat % 2 ^ (fmtOfForm (s.cx.tileAt r.tile).form).width)))
    else s.setTile r.tile ((s.cx.tileAt r.tile).put (r.accIdx i).toNat (mkWord code))
  else if r.kind = 1 then
    let base := r.at i
    let s := (List.range w).foldl (fun (s : State) j =>
      let b := base + 8 * j + i % 64 / 8
      let old := (s.byte b).toNat
      let bit := 2 ^ (i % 8)
      s.setByte b (BitVec.ofNat 8 (old - old / bit % 2 * bit + code / 2 ^ j % 2 * bit))) s
    if poison then
      (List.range w).foldl (fun (s : State) j => s.setMark (base + 8 * j) true) s
    else s
  else
    let a := r.at i
    let s :=
      if 16 ≤ w then s.writeNat a (w / 8) code
      else if 5 ≤ w then s.writeNat a 1 code
      else
        let old := (s.byte a).toNat
        if (i * r.stride) % 2 = 0 then s.writeNat a 1 (old / 16 * 16 + code % 16)
        else s.writeNat a 1 (old % 16 + code % 16 * 16)
    if poison then s.setMark a true else s

/-- Write the code of element i; who watches these bytes notes it (17 R276, 10 R199). -/
def State.writeElem (s : State) (r : Region) (i code : Nat) (poison : Bool) : State :=
  (s.putElem r i code poison).wrote s r.actor (r.bytesAt i)

/-- Memory as a command of the shuttle finds some words: undefined where software may not read (17 R276). -/
def State.hotView (s : State) (x : Actor) (words : List Nat) : State :=
  ((words.flatMap (fun w => bytesFrom (8 * w) 8)).filter (s.hot x)).foldl State.blurByte s

/-- The scale entry of element i's block, if the region is scaled (04 R57, R58): block i ÷ 32,
index in nibble (block mod 2) of byte block ÷ 2; free where software may not read the byte (17 R276). -/
def State.scaleAt (s : State) (r : Region) (i : Nat) : Option (BitVec 8) :=
  match r.scales with
  | some (l, loc) =>
    let b := i / 32
    let byte := if s.hot r.actor (loc + b / 2) then (Config.freeIndex s.fv (loc + b / 2)).toNat
      else s.readNat (loc + b / 2) 1
    l[(if b % 2 = 0 then byte % 16 else byte / 16)]?
  | none => none

/-- The exact value of a code at element i, scale included, and SN (04 R56, R58). -/
def State.valueAt (s : State) (r : Region) (i code : Nat) : Num × Flags :=
  match s.scaleAt r i, r.fmt.value code with
  | some e, .f x =>
    let (y, f) := scaleUp e x
    (.f y, f)
  | _, v => (v, 0)

/-- An exact value converted into element i's format under a mode, divided by the scale of its
block (04 R59, R61 to R65). -/
def State.convertAt (s : State) (r : Region) (i mode : Nat) (x : Num) : Nat × Flags :=
  match s.scaleAt r i with
  | some e =>
    let (y, f) := scaleDown e x.toF
    let (c, g) := r.fmt.convert mode (.f y)
    (c, f ||| g)
  | none => r.fmt.convert mode x

/-- The code a poisoned element leaves in an accumulator: canonical NaN or 0 (07 R135). -/
def Fmt.poisonCode : Fmt → Nat
  | .flt f => f.nanCode
  | .int _ _ => 0

/-! ### Tags of a group -/

/-- Distinct words, in rising order. -/
def wordSet (l : List Nat) : List Nat := l.foldl (fun t w => insertNat w t) []

/-- Whether the tags of the words let a mode act: a source in wait or take needs full, a
destination in wait needs empty (07 R132). -/
def State.tagsReady (s : State) (mode : TagMode) (dst : Bool) (words : List Nat) : Bool :=
  match mode, dst with
  | .wait, false | .take, false => words.all (fun w => s.full (8 * w))
  | .wait, true => words.all (fun w => !s.full (8 * w))
  | _, _ => true

/-- The tag actions on the words (07 R132). -/
def State.tagsAct (s : State) (mode : TagMode) (dst : Bool) (words : List Nat) : State :=
  match mode, dst with
  | .take, false => words.foldl (fun (s : State) w => s.setTag (8 * w) false) s
  | .wait, true | .fill, true => words.foldl (fun (s : State) w => s.setTag (8 * w) true) s
  | _, _ => s

/-- Whether a mode waits in a role. -/
def TagMode.waits (m : TagMode) (dst : Bool) : Bool :=
  match m, dst with
  | .wait, _ => true
  | .take, false => true
  | _, _ => false

/-- Words that an operation waits at no longer. -/
def State.unpark (s : State) (id : Nat) (words : List Nat) : State :=
  { s with core := { s.core with
    parked := s.core.parked.filter (fun w => !(w.id == id && words.contains w.word)) } }

/-- Park an operation at each word of a list (06 R109). -/
def State.parkAll (s : State) (owner id : Nat) (words : List Nat) (needFull : Bool) : State :=
  words.foldl (fun (s : State) w => s.park owner id w needFull) s

/-- The words of a list that a mode lets an operation act on now, and those at which it waits: where the tag does
not allow it, or another waiter stands before it (06 R109). A word of a partition that was freed meanwhile holds
nothing up (06 R99). -/
def State.splitWords (s : State) (id : Nat) (mode : TagMode) (dst : Bool) (l : List Nat) : List Nat × List Nat :=
  if mode.waits dst then
    l.partition (fun w => s.freedFor id w || (s.tagsReady mode dst [w] && s.firstAt id w (!dst)))
  else (l, [])

/-- A word as an operation found it: its value, and whether its line was marked. -/
def State.wordSeen (s : State) (w : Nat) : Nat × Nat × Bool := (w, s.readNat (8 * w) 8, s.marked (8 * w))

/-- An operation meets the tags of source words, word by word (06 R108, 07 R132): each that allows it is read, with
its tag action, and at the others it parks. What it read, and whether that is all of them. -/
def State.meetFull (s : State) (owner id : Nat) (mode : TagMode) (l : List Nat) :
    State × List (Nat × Nat × Bool) × Bool :=
  if mode.waits false then
    let (go, stay) := s.splitWords id mode false l
    let t := (s.tagsAct mode false (go.filter (fun w => !s.freedFor id w))).unpark id go
    (t.parkAll owner id stay true, go.map s.wordSeen, stay.isEmpty)
  else (s, [], true)

/-- Memory as an operation sees it that has read some words already. -/
def State.seenView (s : State) (seen : List (Nat × Nat × Bool)) : State :=
  seen.foldl (fun (s : State) e =>
    (s.setWord (8 * e.1) (mkWord e.2.1)).setMark (8 * e.1)
      (e.2.2 || seen.any (fun x => x.1 / 8 == e.1 / 8 && x.2.2))) s

/-- A state in which, of all that another has written, only some words are: all of them, or those of a list. -/
def State.onlyWords (s t : State) (go : List Nat) (all : Bool) : State :=
  if all then t
  else
    go.foldl (fun (u : State) w =>
      let u := u.setWord (8 * w) (t.word (8 * w))
      if t.marked (8 * w) then u.setMark (8 * w) true else u)
      { t with mem := s.mem, marks := s.marks }

/-- A half-byte added to the covered half-bytes of lines, each line with the mask of its 128. -/
def coverAdd (x : Nat) : List (Nat × Nat) → List (Nat × Nat)
  | [] => [(x / 128, 2 ^ (x % 128))]
  | (k, m) :: t => if k = x / 128 then (k, m ||| 2 ^ (x % 128)) :: t else (k, m) :: coverAdd x t

/-- Whether a line is written whole. -/
def coverWhole (e : Nat × Nat) : Bool := e.2 == 2 ^ 128 - 1

/-- Clear the marks of the lines that have been written whole, none of their elements poisoned (06 R102, 07
R135; log entry 81). -/
def State.clearWhole (s : State) (cover : List (Nat × Nat)) (bad : List Nat) : State :=
  cover.foldl (fun (s : State) e =>
    if coverWhole e && !bad.contains e.1 then s.setMark (64 * e.1) false else s) s

end Sys2Proof.Machine
end

