-- ==== Sys2Proof/Machine/APipe.lean ====
section
/-!
DEFINITION. The meanings of the A-pipe words: LD, ST, TAG, ATOM and ORDER (06 R103 to R124), with
the source side of windows (16 R254 to R259). A word checks its address and enters its queue; it
performs in later steps (`Machine/Memory.lean`, `Machine/Fabric.lean`).
-/

namespace Sys2Proof.Machine

open Sys2Proof

/-- What an A-pipe access word names. -/
structure AccOp where
  value : Option SReg := none
  second : Option SReg := none
  base : SReg
  off : Int
  cls : BitVec 4
  sz : BitVec 2
  align : Nat
  sort : AccessSort
  kind : Word → Word → AccKind
  lds : Bool := false
  ldc : Bool := false

/-- The size in bytes of a size code. -/
def szBytes (sz : BitVec 2) : Nat := 2 ^ sz.toNat

/-- Pops of an access word: the value before the base (01 R6). -/
def AccOp.pops (o : AccOp) : Nat :=
  (match o.value with | some r => if isLq r then 1 else 0 | none => 0) + (if isLq o.base then 1 else 0)

/-- The value operand. -/
def AccOp.valueOf (o : AccOp) (s : State) (v : List Reg) : Reg :=
  match o.value with
  | some r => s.src r v 0
  | none => {}

/-- The second value operand, of `ACAS`. -/
def AccOp.secondOf (o : AccOp) (s : State) : Reg :=
  match o.second with
  | some r => s.cx.sreg r
  | none => {}

/-- The base operand. -/
def AccOp.baseOf (o : AccOp) (s : State) (v : List Reg) : Reg :=
  s.src o.base v (match o.value with | some r => if isLq r then 1 else 0 | none => 0)

/-- The effective address. -/
def AccOp.ea (o : AccOp) (s : State) (v : List Reg) : Word := effAddr (o.baseOf s v).val o.off o.sz

/-- Where the access goes, or why it may not (06 R106). -/
def AccOp.located (o : AccOp) (s : State) (v : List Reg) : Located :=
  s.checkAccess (o.ea s v) o.align o.sort

/-- Whether the access reserves an `lq` entry (06 R103). -/
def AccKind.needsLq : AccKind → Bool
  | .read _ | .tagq => true
  | .atom _ _ _ f => f
  | _ => false

/-- Whether the access takes a write-queue entry (06 R103). -/
def AccKind.isWrite : AccKind → Bool
  | .read _ | .tagq => false
  | _ => true

/-- An atomic that may merge: no fetch and an operation 0 to 7 (06 R120). -/
def AccKind.mergeable : AccKind → Bool
  | .atom op _ _ f => !f && decide (op ≤ 7)
  | _ => false

/-- The operation of an atomic. -/
def AccKind.op : AccKind → Nat
  | .atom op _ _ _ => op
  | _ => 0

/-- The POISON, ADDR and PERM checks of an access (06 R106); an `LDS` defers them (R113). -/
def AccOp.check (o : AccOp) (s : State) (v : List Reg) : Option TrapReq :=
  firstOf [
    match o.value with | some r => s.poisonCheck r (o.valueOf s v) | none => none,
    match o.second with | some r => s.poisonCheck r (o.secondOf s) | none => none,
    if o.lds then none else s.poisonCheck o.base (o.baseOf s v),
    if o.lds then none else (o.located s v).trap]

/-! ### Holds at the source -/

/-- Whether a stream makes accesses of a class (07 R133). -/
def Stream.hasClass (t : Stream) (cls : Nat) : Bool :=
  [t.dst, t.a, t.b].any (fun r => match r with | some r => r.cls == cls | none => false)

/-- Whether a stream touches the 8-byte word of a location (18 R292 case 2). -/
def Stream.touches (t : Stream) (word : Nat) : Bool :=
  [t.dst, t.a, t.b].any (fun r => match r with | some r => r.touches r.count word | none => false)

/-- Whether an entry acts on the 8-byte word of a location, by its own word or a merged one (06 R107, R120). -/
def Acc.onWord (a : Acc) (word : Nat) : Bool :=
  a.win.isNone && (a.loc / 8 == word || a.merged.any (fun m => m.1 / 8 == word))

/-- The words of the issuing package that an entry of the queues acts on, through a window too (02 R17). -/
def State.accWords (s : State) (a : Acc) : List Nat :=
  let locs := a.loc :: a.merged.map (·.1)
  if a.win.isNone then locs.map (· / 8)
  else if (s.rankPkgs a.rank).contains s.pkgid then locs.map (fun l => (pkgBase s.pkgid + l) / 8)
  else []

/-- The access that the replay buffer holds, for the words of its bundle that come after it (03 R23, 13 R221),
with its word, where its page is present. -/
def State.replayAcc (s : State) : List (Acc × Option Nat) :=
  (s.cx.replay.map (fun r =>
    (r.acc, (s.vaLoc r.walk.root r.walk.asid r.walk.va.toNat).map (· / 8)))).toList

/-- The earlier operations of the context that an access of a class at a location
waits for (06 R107; 05 R82; 18 R292). -/
def State.orderDeps (s : State) (cls : Nat) (loc : Nat) (taint : List Nat) :
    List Nat :=
  (s.cx.accs.filter (fun a => a.cls == cls || a.onWord (loc / 8))).map (·.id)
  ++ (s.cx.streams.filter (fun t => t.hasClass cls || t.touches (loc / 8))).map (·.id)
  ++ taint ++ s.cx.capDeps

/-- Whether a fence or a drain still stands before the next A word (06 R123, R124). -/
def State.fenced (s : State) : Bool :=
  s.cx.fences.any (fun f => !s.depsDone f.deps)
  || s.cx.drains.any (fun w => s.winCount s.cx.uid w != 0)

/-- The context's window accesses not acknowledged or answered: class, destination, locations of
8-byte words touched, as (class, rank, location). -/
def State.remoteOpen (s : State) : List (Nat × Nat × Nat) :=
  ((s.core.lines.filter (fun l => l.owner == s.cx.uid)).map (fun l => (l.cls, l.rank, l.addr)))
  ++ (s.fab.pkts.filter (fun p => p.owner == s.cx.uid && p.tsend.isNone)).map
      (fun p => (p.cls, p.rank, p.loc))

/-- Whether a line holds a byte of an 8-byte word. -/
def lineHasWord (addr : Nat) (bytes : List (Option Byte)) (loc : Nat) : Bool :=
  addr / 64 == loc / 64 && ((bytes.drop (loc % 64 / 8 * 8)).take 8).any (·.isSome)

/-- Whether a packet may touch the 8-byte word at a location of a package, from its sending to its answer (16
R259). -/
def Packet.onWord (p : Packet) (pkg loc : Nat) : Bool :=
  p.dests.contains pkg &&
  (match p.kind with
   | .line b => lineHasWord p.loc b loc
   | .access a => a.loc / 8 == loc / 8 || a.merged.any (fun m => m.1 / 8 == loc / 8)
   | .withdraw _ | .coll _ => false)

/-- Whether an entry for a window waits in the write queue for its beginning (06 R103, R121). -/
def Acc.unsent (a : Acc) : Bool := a.win.isSome && a.kind.isWrite && !a.begun

/-- The words of the issuing package that an open line reaches by its window (02 R17). -/
def State.lineWords (s : State) (l : Line) : List Nat :=
  if (s.rankPkgs l.rank).contains s.pkgid then
    ((List.range 8).filter (fun k => lineHasWord l.addr l.bytes (l.addr + 8 * k))).map
      (fun k => (pkgBase s.pkgid + l.addr) / 8 + k)
  else []

/-- The words of the issuing package that a packet reaches (02 R17). -/
def State.packetWords (s : State) (p : Packet) : List Nat :=
  if p.dests.contains s.pkgid then
    match p.kind with
    | .line b =>
      ((List.range 8).filter (fun k => lineHasWord p.loc b (p.loc + 8 * k))).map
        (fun k => (pkgBase s.pkgid + p.loc) / 8 + k)
    | .access a => (a.loc :: a.merged.map (·.1)).map (fun l => (pkgBase s.pkgid + l) / 8)
    | .withdraw _ | .coll _ => []
  else []

/-- Whether another class has an open remote access to the word at a location of a package (16
R259, third hold). -/
def State.remoteWordOther (s : State) (cls pkg loc : Nat) : Bool :=
  (s.core.lines.any (fun l => l.owner == s.cx.uid && l.cls != cls &&
    (s.rankPkgs l.rank).contains pkg && lineHasWord l.addr l.bytes loc))
  || s.fab.pkts.any (fun p => p.owner == s.cx.uid && p.tsend.isNone && p.cls != cls && p.onWord pkg loc)
  || s.cx.accs.any (fun a => a.unsent && a.cls != cls && (s.rankPkgs a.rank).contains pkg &&
      (a.loc / 8 == loc / 8 || a.merged.any (fun m => m.1 / 8 == loc / 8)))

/-- The holds of a non-window access (16 R259). -/
def State.heldNear (s : State) (cls loc : Nat) : Bool :=
  s.remoteOpen.any (fun e => e.1 == cls)
  || s.cx.accs.any (fun a => a.unsent && a.cls == cls)
  || s.remoteWordOther cls s.pkgid (loc - pkgBase s.pkgid)

/-- Whether the rank of a window is held (16 R254). -/
def State.rankHeld (s : State) (rank : Nat) : Bool := (s.rankEntry rank).getLsbD 20

/-- What a window access of a class, or to a location of a rank, waits for: accesses of near space or global
memory (16 R259), a loopback to the issuing package among them (02 R17), and what a capture ordered before it
(05 R82). -/
def State.nearDeps (s : State) (cls rank loc : Nat) : List Nat :=
  let own := (s.rankPkgs rank).contains s.pkgid
  let word := (pkgBase s.pkgid + loc) / 8
  (s.cx.accs.filter (fun a => (a.win.isNone && a.cls == cls) || (own && a.onWord word))).map (·.id)
  ++ (s.cx.streams.filter (fun t => t.hasClass cls || (own && t.touches word))).map (·.id)
  ++ s.cx.capDeps

/-- Whether a window access waits for them. -/
def State.behindNear (s : State) (cls rank loc : Nat) : Bool := !s.depsDone (s.nearDeps cls rank loc)

/-- The holds of a window access of a class to a rank and location (16 R254, R259). -/
def State.heldWindow (s : State) (cls rank loc : Nat) : Bool :=
  s.rankHeld rank || s.behindNear cls rank loc
  || s.remoteOpen.any (fun e => e.1 == cls && s.destOf e.2.1 != s.destOf rank)
  || (s.rankPkgs rank).any (fun p => s.remoteWordOther cls p loc)

/-- The holds of a read that is served from an open line (16 R258): it performs when it is served, so that it
waits for the earlier accesses of its class and word (R254, R259; 18 R292), open lines apart. -/
def State.heldServed (s : State) (cls rank loc : Nat) : Bool :=
  let t := { s with core := { s.core with lines := [] } }
  s.rankHeld rank || s.behindNear cls rank loc
  || t.remoteOpen.any (fun e => e.1 == cls) || s.cx.accs.any (fun a => a.unsent && a.cls == cls)
  || (s.rankPkgs rank).any (fun p => t.remoteWordOther cls p loc)

/-- Whether an entry that has not left for its window stands before a window access: one of its class, or to
its line (06 R107, R120; 16 R257). -/
def State.behindUnsent (s : State) (cls rank loc : Nat) : Bool :=
  s.cx.accs.any (fun a => a.unsent && (a.cls == cls ||
    (s.destOf a.rank == s.destOf rank && a.loc / 64 == loc / 64)))

/-! ### Combining -/

/-- Whether two ranks name a common package. -/
def State.meetsRank (s : State) (r q : Nat) : Bool := (s.rankPkgs r).any (fun p => (s.rankPkgs q).contains p)

/-- The open line a window store joins: same line address, rank, window and class (16 R257). -/
def State.openLine (s : State) (rank win cls loc : Nat) : Option Line :=
  s.core.lines.find? (fun l => l.owner == s.cx.uid && l.rank == rank && l.win == win &&
    l.cls == cls && l.addr == loc / 64 * 64)

/-- Put bytes into a line at an offset. -/
def mergeBytes (off : Nat) (data : List Byte) (bytes : List (Option Byte)) : List (Option Byte) :=
  bytes.zipIdx.map (fun (b, i) =>
    if off ≤ i ∧ i < off + data.length then data[i - off]? else b)

/-- A window store enters the combining buffer (16 R257). A line of its address through another window or rank is
flushed before it, whatever its class (log entry 123). -/
def State.combine (s : State) (id rank win cls loc : Nat) (data : List Byte) : State :=
  let other := fun (l : Line) => l.owner == s.cx.uid && s.meetsRank l.rank rank &&
    l.addr == loc / 64 * 64 && !(l.rank == rank && l.win == win && l.cls == cls)
  let s := s.flushLines other
  let old := s.openLine rank win cls loc
  let l : Line :=
    match old with
    | some l => l
    | none =>
      { owner := s.cx.uid, ids := [], addr := loc / 64 * 64, rank := rank, win := win, cls := cls
        bytes := List.replicate 64 none, slack := (s.cx.slackOf (BitVec.ofNat 4 cls)).toNat
        opened := s.cyc, openedNs := s.ftime }
  let l' := { l with ids := l.ids ++ [id], bytes := mergeBytes (loc % 64) data l.bytes }
  let lines := if old.isSome then s.core.lines.map (fun x => if x == l then l' else x) else s.core.lines ++ [l']
  let s := { s with core := { s.core with lines := lines } }
  if l'.bytes.all (·.isSome) then s.flushLine l' else s

/-- A window store that must wait for its allowance or for a line (16 R256, R257). -/
def State.combineFull (s : State) (rank win cls loc : Nat) : Bool :=
  (s.openLine rank win cls loc).isNone &&
  (decide (s.cx.allowOf (BitVec.ofNat 3 win) ≤ s.winCount s.cx.uid win)
    || decide (16 ≤ s.core.lines.length))

/-- What a waiting window store flushes: its window's lines for the allowance, the oldest line
for want of a line (16 R256, R257). -/
def State.combineRoom (s : State) (win : Nat) : State :=
  if s.cx.allowOf (BitVec.ofNat 3 win) ≤ s.winCount s.cx.uid win then
    s.flushLines (fun l => l.owner == s.cx.uid && l.win == win)
  else
    match s.core.lines with
    | l :: _ => s.flushLine l
    | [] => s

/-- The bytes of a read when one open line of the context holds them all (16 R258). -/
def State.forward (s : State) (rank loc n : Nat) : Option (List Byte) :=
  (s.core.lines.filter (fun l => l.owner == s.cx.uid && s.destOf l.rank == s.destOf rank &&
    l.addr == loc / 64 * 64)).findSome? (fun l => ((l.bytes.drop (loc % 64)).take n).mapM id)

/-! ### Entry into the queues -/

/-- Reserve an `lq` entry (06 R103). -/
def State.reserveLq (s : State) (id : Nat) (data : Option Reg) : State :=
  { s with cx := { s.cx with lq := s.cx.lq ++ [{ id := id, data := data }] } }

/-- Whether an entry acts on a line through the same window or none. -/
def Acc.onLine (b : Acc) (a : Acc) : Bool := b.win == a.win && b.rank == a.rank && b.loc / 64 == a.loc / 64

/-- Whether an entry of the write queue is open to a mergeable atomic: same operation, size, class and line,
not begun, within 4 cycles of its opening (06 R120). -/
def Acc.openTo (b a : Acc) (cyc : Nat) : Bool :=
  a.kind.mergeable && b.kind.mergeable && b.kind.op == a.kind.op && b.size == a.size && b.cls == a.cls
  && b.onLine a && !b.begun && decide (cyc < b.opened + 4)

/-- Whether an entry is an atomic or a plain store, which closes an open entry of its line (06 R120). -/
def AccKind.closes : AccKind → Bool
  | .atom _ _ _ _ | .write .keep _ => true
  | _ => false

/-- What an access follows: of what its class and words order it with, the operations that are earlier in program
order (06 R107, 13 R221). -/
def State.accDeps (s : State) (a : Acc) (taint : List Nat) : List Nat :=
  (if a.win.isSome then (s.cx.accs.filter (fun x => x.cls == a.cls)).map (·.id)
   else s.orderDeps a.cls a.loc taint).filter (fun d => decide (d < a.id))

/-- The open entry a mergeable atomic joins (06 R120): the last atomic or store to the line, if it is open to
it, and if the atomic has nothing to wait for that the entry does not wait for, so that no word of the entry is
held back and no access between them is passed (06 R107, 18 R297; log entry 83). -/
def State.mergeTarget (s : State) (a : Acc) (taint : List Nat) : Option Acc :=
  match (s.cx.accs.filter (fun b => b.kind.closes && b.onLine a)).getLast? with
  | some b =>
    if b.openTo a s.cyc && (s.accDeps a taint).all (fun d => d == b.id || b.deps.contains d || !s.outstanding d) then
      some b
    else none
  | none => none

/-- Combine an operand into a merged entry's list: with one held for the same word, by the
operation itself (06 R120). -/
def mergeOperand (op n loc : Nat) (v : Word) : List (Nat × Word) → List (Nat × Word)
  | [] => [(loc, v)]
  | (l, x) :: t =>
    if l = loc then (l, mkWord (atomNew op n (x.toNat % 2 ^ n) (v.toNat % 2 ^ n) 0)) :: t
    else (l, x) :: mergeOperand op n loc v t

/-- The value operand of an atomic. -/
def AccKind.operand : AccKind → Word
  | .atom _ v _ _ => v
  | _ => 0

/-- An entry with another atomic merged into it (06 R120). -/
def Acc.merge (b a : Acc) : Acc :=
  let n := 8 * a.size
  let b := { b with joined := b.joined ++ [a.id] }
  match b.kind with
  | .atom op v v2 f =>
    if b.loc = a.loc then
      { b with kind := .atom op (mkWord (atomNew op n (v.toNat % 2 ^ n)
          (a.kind.operand.toNat % 2 ^ n) 0)) v2 f }
    else { b with merged := mergeOperand op n a.loc a.kind.operand b.merged }
  | _ => b

/-- An access enters its queue with what it waits for, or merges (06 R103, R107, R120). -/
def State.enqueue (s : State) (a : Acc) (taint : List Nat) : State :=
  match s.mergeTarget a taint with
  | some b =>
    { s with cx := { s.cx with accs := s.cx.accs.map (fun x => if x.id == b.id then b.merge a else x) } }
  | none =>
    { s with cx := { s.cx with accs := s.cx.accs ++ [{ a with deps := s.accDeps a taint, opened := s.cyc }] } }

/-- The request of an access through a window leaves as a packet (16 R255, R263). -/
def State.sendAccess (s : State) (a : Acc) : State :=
  s.sendPacket
    { id := 0, owner := s.cx.uid, ids := a.id :: a.joined, kind := .access a, rank := a.rank, pkg := 0
      targets := [], loc := a.loc, cls := a.cls, seq := 0, win := a.win.getD 0, counted := false
      slack := a.slack, entry := 0 }

/-- The lines that a remote access other than a store flushes before it leaves: those of its class and
destination, and those of its line (16 R257, R293). -/
def State.flushFor (s : State) (a : Acc) (rank : Nat) : State :=
  s.flushLines (fun l => l.owner == s.cx.uid && ((s.destOf l.rank == s.destOf rank && l.cls == a.cls)
    || (s.meetsRank l.rank rank && l.addr == a.loc / 64 * 64)))

/-- A remote access other than a store: a read leaves as a packet, an atomic or a tag write takes an entry of
the write queue and leaves when that begins (06 R103, R121; 16 R255, R257). -/
def State.remoteAccess (s : State) (a : Acc) (rank win : Nat) : State :=
  let s := s.flushFor a rank
  let a := { a with win := some win, rank := rank, slack := (s.cx.slackOf (BitVec.ofNat 4 a.cls)).toNat }
  if a.kind.isWrite then
    match s.mergeTarget a [] with
    | some b =>
      { s with cx := { s.cx with accs := s.cx.accs.map (fun x => if x.id == b.id then b.merge a else x) } }
    | none => { s with cx := { s.cx with accs := s.cx.accs ++ [{ a with deps := s.accDeps a [], opened := s.cyc }] } }
  else
    let s := { s with cx := { s.cx with accs := s.cx.accs ++ [a] } }
    s.sendAccess a

/-- A window access that a stream of its own bundle precedes waits at its source, and the next bundle with it (18 R292,
16 R259). -/
def State.atSource (s : State) (a : Acc) : State :=
  { s with cx := { s.cx with accs := s.cx.accs ++ [{ a with deps := s.nearDeps a.cls a.rank a.loc }] } }

/-- The access that waits at its source. -/
def State.sourced (s : State) : Option Acc := s.cx.accs.find? (fun a => a.source.isSome)

/-- Once those streams have performed, and its rank is not held, it goes on as it would have at its issue: a store
enters the combining buffer, a read is served from an open line or leaves, anything else takes its entry (16 R254 to
R258). -/
def State.leaveSource (s : State) : State :=
  match s.sourced with
  | none => s
  | some a =>
    let w := a.win.getD 0
    let t := { s with cx := s.cx.dropAcc a.id }
    let b := { a with deps := [], source := none }
    if !s.depsDone a.deps || s.rankHeld a.rank then s
    else
      match a.kind with
      | .write .keep d =>
        if t.combineFull a.rank w a.cls a.loc then s.combineRoom w else t.combine a.id a.rank w a.cls a.loc d
      | .read .keep =>
        match if a.source == some true then none else t.forward a.rank a.loc a.size with
        | some d =>
          { t with cx := t.cx.setLq a.id { val := mkWord (natOfBytes d), taint := if a.ldc then [a.id] else [] } }
        | none => t.remoteAccess b a.rank w
      | _ => t.remoteAccess b a.rank w

/-- The location that the micro-TLB gives an access to global memory (13 R209, R212). -/
def State.microLoc (s : State) (addr : Word) (write : Bool) : Option Nat :=
  (tlbFind s.xl.micro (s.specialNow 0x101).toNat addr write s.cx.priv).map (fun t => hbmLoc s.pkgid (t.phys addr))

/-- An access to global memory: the micro-TLB answers in the issue cycle, or the bundle is held in
the replay buffer (13 R212, R221). -/
def State.globalAccess (s : State) (a : Acc) (taint : List Nat) (lds : Bool) : State :=
  let write := a.kind.isWrite
  match s.microLoc a.addr write with
  | some loc => s.enqueue { a with loc := loc } taint
  | none =>
    let r : Replay :=
      { acc := { a with deps := taint }, lds := lds, badr := s.badr, words := s.bundle
        slot := s.widx
        walk := { va := a.addr, asid := (s.specialNow 0x101).toNat, root := (s.specialNow 0x100).toNat
                  write := write, priv := s.cx.priv, shared := false, level := 4, entry := 0 } }
    { s with ctl := .held, cx := { s.cx with replay := some r } }

/-- Whether a read is served from an open line of the combining buffer, whatever its class (16 R258). -/
def AccOp.served (o : AccOp) (s : State) (k : AccKind) (rank loc : Nat) : Bool :=
  k == .read .keep && !o.lds && (s.forward rank loc (szBytes o.sz)).isSome

/-- The entry an access would make, as far as its place in the queue needs it. -/
def AccOp.entry (o : AccOp) (s : State) (k : AccKind) (loc : Nat) : Acc :=
  { id := s.nextId, kind := k, cls := o.cls.toNat, addr := 0, loc := loc, size := szBytes o.sz }

/-- Whether all 16 entries of the write queue are taken (06 R95). -/
def State.writesFull (s : State) : Bool := decide (16 ≤ (s.cx.accs.filter (fun a => a.kind.isWrite)).length)

/-- Whether an access needs an entry of the write queue and all are taken (06 R103, R120). -/
def AccOp.writeFull (s : State) (a : Acc) (taint : List Nat) : Bool :=
  a.kind.isWrite && s.writesFull && (s.mergeTarget a taint).isNone

/-- The A-pipe stalls of an access word: fences, queues full, holds (06 R103, R123; 16 R254, R256,
R258, R259), and the `LDC`s that a window access's base depends on (05 R82). An access whose page the micro-TLB
does not hold needs an entry of its own. -/
def AccOp.stall (o : AccOp) (s : State) (v : List Reg) (bundlePops : Nat) : Bool :=
  let k := o.kind (o.valueOf s v).val (o.secondOf s).val
  let cls := o.cls.toNat
  let taint := (o.baseOf s v).taint
  s.fenced
  || (k.needsLq && decide (32 ≤ s.cx.lq.length - bundlePops))
  || (!(o.lds && (o.baseOf s v).poison) &&
    match o.located s v with
    | .bad _ _ => false
    | .ok (.near loc) | .ok (.weights loc) => AccOp.writeFull s (o.entry s k loc) taint || s.heldNear cls loc
    | .ok .global =>
      (match s.microLoc (o.ea s v) k.isWrite with
       | some loc => AccOp.writeFull s (o.entry s k loc) taint || s.heldNear cls loc
       | none => (k.isWrite && s.writesFull) || s.heldNear cls 0)
    | .ok (.window w rank loc) =>
      !s.depsDone taint ||
      if o.served s k rank loc then s.heldServed cls rank loc
      else
        let a := { o.entry s k loc with win := some w, rank := rank }
        s.heldWindow cls rank loc
        || (s.behindUnsent cls rank loc && (s.mergeTarget a []).isNone)
        || (if o.sort == .store then s.combineFull rank w cls loc else AccOp.writeFull s a []))

/-- The lines that a window access meets and does not join or read: it flushes them before it leaves (16
R257, R258). -/
def AccOp.meets (o : AccOp) (s : State) (w rank loc : Nat) (l : Line) : Bool :=
  l.owner == s.cx.uid && s.meetsRank l.rank rank && l.addr == loc / 64 * 64
  && !(o.sort == .store && l.rank == rank && l.win == w && l.cls == o.cls.toNat)

/-- What a stalled access word does: a window access flushes the lines it meets, a window store makes room
(16 R256 to R258). -/
def AccOp.onStall (o : AccOp) (s : State) (v : List Reg) : State :=
  match o.located s v with
  | .ok (.window w rank loc) =>
    let k := o.kind (o.valueOf s v).val (o.secondOf s).val
    if s.fenced || s.rankHeld rank || o.served s k rank loc then s
    else
      let s := s.flushLines (o.meets s w rank loc)
      if o.sort == .store && !s.heldWindow o.cls.toNat rank loc &&
          s.combineFull rank w o.cls.toNat loc then s.combineRoom w
      else s
  | _ => s

/-- The bytes a plain store writes. -/
def AccKind.data : AccKind → List Byte
  | .write _ d => d
  | _ => []

/-- The effect of an access word: it reserves its `lq` entry and goes to its queue, to the
combining buffer or to the fabric (06 R103, R112 to R119; 16 R255, R257, R258). A failing `LDS`
returns poison and accesses nothing (06 R113). -/
def AccOp.effect (o : AccOp) (s : State) (v : List Reg) : State :=
  let base := o.baseOf s v
  let k := o.kind (o.valueOf s v).val (o.secondOf s).val
  let ea := o.ea s v
  let s := { s with cx := { s.cx with fences := [], drains := [] } }
  let (id, s) := s.newId
  let a : Acc :=
    { id := id, kind := k, cls := o.cls.toNat, addr := ea, loc := 0, size := szBytes o.sz
      lq := if k.needsLq then some id else none, ldc := o.ldc }
  if o.lds && (base.poison || (o.located s v).trap.isSome) then
    let (x, s) := s.draw
    s.reserveLq id (some { val := x, poison := true })
  else
    let s1 := if k.needsLq then s.reserveLq id none else s
    match o.located s v with
    | .bad _ _ => s
    | .ok (.near loc) | .ok (.weights loc) => s1.enqueue { a with loc := loc } base.taint
    | .ok .global => s1.globalAccess a base.taint o.lds
    | .ok (.window w rank loc) =>
      if s.behindNear o.cls.toNat rank loc then
        s1.atSource { a with loc := loc, win := some w, rank := rank, source := some o.lds }
      else if o.sort == .store then s1.combine id rank w o.cls.toNat loc k.data
      else if o.served s k rank loc then
        match s.forward rank loc a.size with
        | some d =>
          s.reserveLq id (some { val := mkWord (natOfBytes d), taint := if o.ldc then [id] else [] })
        | none => s1.remoteAccess { a with loc := loc } rank w
      else s1.remoteAccess { a with loc := loc } rank w

/-- An access word. -/
def accWord (o : AccOp) : WordSpec where
  pops := o.pops
  stall := o.stall
  onStall := o.onStall
  check := o.check
  effect := o.effect

/-! ### LD -/

/-- A load of a tag mode (06 R112). -/
def loadOp (base : SReg) (cls : BitVec 4) (sz : BitVec 2) (off : BitVec 8) (mode : TagMode) : AccOp where
  base := base
  off := off.toInt
  cls := cls
  sz := sz
  align := szBytes sz
  sort := if mode == .keep then .read else if mode == .wait then .tagRead else .tagWrite
  kind := fun _ _ => .read mode

/-- `LD` (06 R112). -/
def ldWord (base : SReg) (cls : BitVec 4) (sz : BitVec 2) (off : BitVec 8) : WordSpec :=
  accWord (loadOp base cls sz off .keep)

/-- The meaning of `LD`. -/
def execLd (base : SReg) (cls : BitVec 4) (sz : BitVec 2) (off : BitVec 8) (s : State) : Out :=
  runWord (ldWord base cls sz off) s

/-- `LDS` (06 R113). -/
def ldsWord (base : SReg) (cls : BitVec 4) (sz : BitVec 2) (off : BitVec 8) : WordSpec :=
  accWord { loadOp base cls sz off .keep with lds := true }

/-- The meaning of `LDS`. -/
def execLds (base : SReg) (cls : BitVec 4) (sz : BitVec 2) (off : BitVec 8) (s : State) : Out :=
  runWord (ldsWord base cls sz off) s

/-- `LDC` (06 R114). -/
def ldcWord (base : SReg) (cls : BitVec 4) (sz : BitVec 2) (off : BitVec 8) : WordSpec :=
  accWord { loadOp base cls sz off .keep with ldc := true }

/-- The meaning of `LDC`. -/
def execLdc (base : SReg) (cls : BitVec 4) (sz : BitVec 2) (off : BitVec 8) (s : State) : Out :=
  runWord (ldcWord base cls sz off) s

/-- `LDF` (06 R112). -/
def ldfWord (base : SReg) (cls : BitVec 4) (sz : BitVec 2) (off : BitVec 8) : WordSpec :=
  accWord (loadOp base cls sz off .wait)

/-- The meaning of `LDF`. -/
def execLdf (base : SReg) (cls : BitVec 4) (sz : BitVec 2) (off : BitVec 8) (s : State) : Out :=
  runWord (ldfWord base cls sz off) s

/-- `LDFE` (06 R112). -/
def ldfeWord (base : SReg) (cls : BitVec 4) (sz : BitVec 2) (off : BitVec 8) : WordSpec :=
  accWord (loadOp base cls sz off .take)

/-- The meaning of `LDFE`. -/
def execLdfe (base : SReg) (cls : BitVec 4) (sz : BitVec 2) (off : BitVec 8) (s : State) : Out :=
  runWord (ldfeWord base cls sz off) s

/-! ### ST and TAG -/

/-- The bytes of a store (06 R115). -/
def storeBytes (sz : BitVec 2) (v : Word) : List Byte := bytesOfNat (szBytes sz) v.toNat

/-- A store of a tag mode. -/
def storeOp (x base : SReg) (cls : BitVec 4) (sz : BitVec 2) (off : Int) (mode : TagMode)
    (sort : AccessSort) : AccOp where
  value := some x
  base := base
  off := off
  cls := cls
  sz := sz
  align := szBytes sz
  sort := sort
  kind := fun v _ => .write mode (storeBytes sz v)

/-- `ST` (06 R115). -/
def stWord (x base : SReg) (cls : BitVec 4) (sz : BitVec 2) (off : BitVec 8) : WordSpec :=
  accWord (storeOp x base cls sz off.toInt .keep .store)

/-- The meaning of `ST`. -/
def execSt (x base : SReg) (cls : BitVec 4) (sz : BitVec 2) (off : BitVec 8) (s : State) : Out :=
  runWord (stWord x base cls sz off) s

/-- `STF` (06 R116). -/
def stfWord (x base : SReg) (cls : BitVec 4) (sz : BitVec 2) (off : BitVec 5) : WordSpec :=
  accWord (storeOp x base cls sz off.toInt .fill .tagWrite)

/-- The meaning of `STF`. -/
def execStf (x base : SReg) (cls : BitVec 4) (sz : BitVec 2) (off : BitVec 5) (s : State) : Out :=
  runWord (stfWord x base cls sz off) s

/-- `STE` (06 R116). -/
def steWord (x base : SReg) (cls : BitVec 4) (sz : BitVec 2) (off : BitVec 5) : WordSpec :=
  accWord (storeOp x base cls sz off.toInt .wait .tagWrite)

/-- The meaning of `STE`. -/
def execSte (x base : SReg) (cls : BitVec 4) (sz : BitVec 2) (off : BitVec 5) (s : State) : Out :=
  runWord (steWord x base cls sz off) s

/-- A tag operation without data; the size only scales the offset (06 R116). -/
def tagOp (base : SReg) (cls : BitVec 4) (sz : BitVec 2) (off : BitVec 5) (sort : AccessSort)
    (k : AccKind) : AccOp where
  base := base
  off := off.toInt
  cls := cls
  sz := sz
  align := 1
  sort := sort
  kind := fun _ _ => k

/-- `SETE` (06 R116). -/
def seteWord (base : SReg) (cls : BitVec 4) (sz : BitVec 2) (off : BitVec 5) : WordSpec :=
  accWord (tagOp base cls sz off .tagWrite (.setTag false))

/-- The meaning of `SETE`. -/
def execSete (base : SReg) (cls : BitVec 4) (sz : BitVec 2) (off : BitVec 5) (s : State) : Out :=
  runWord (seteWord base cls sz off) s

/-- `SETF` (06 R116). -/
def setfWord (base : SReg) (cls : BitVec 4) (sz : BitVec 2) (off : BitVec 5) : WordSpec :=
  accWord (tagOp base cls sz off .tagWrite (.setTag true))

/-- The meaning of `SETF`. -/
def execSetf (base : SReg) (cls : BitVec 4) (sz : BitVec 2) (off : BitVec 5) (s : State) : Out :=
  runWord (setfWord base cls sz off) s

/-- `TAGQ` (06 R116). -/
def tagqWord (base : SReg) (cls : BitVec 4) (sz : BitVec 2) (off : BitVec 5) : WordSpec :=
  accWord (tagOp base cls sz off .tagRead .tagq)

/-- The meaning of `TAGQ`. -/
def execTagq (base : SReg) (cls : BitVec 4) (sz : BitVec 2) (off : BitVec 5) (s : State) : Out :=
  runWord (tagqWord base cls sz off) s

/-! ### ATOM -/

/-- An atomic (06 R117). -/
def atomOp (op : Nat) (v base : SReg) (cls : BitVec 4) (sz : BitVec 2) (f : BitVec 1)
    (second : Option SReg) : AccOp where
  value := some v
  second := second
  base := base
  off := 0
  cls := cls
  sz := sz
  align := szBytes sz
  sort := .atomic
  kind := fun x y => .atom op x y (f == 1)

/-- `AADD` (06 R118). -/
def aaddWord (v base : SReg) (cls : BitVec 4) (sz : BitVec 2) (f : BitVec 1) : WordSpec :=
  accWord (atomOp 0 v base cls sz f none)

/-- The meaning of `AADD`. -/
def execAadd (v base : SReg) (cls : BitVec 4) (sz : BitVec 2) (f : BitVec 1) (s : State) : Out :=
  runWord (aaddWord v base cls sz f) s

/-- `AMIN` (06 R118). -/
def aminWord (v base : SReg) (cls : BitVec 4) (sz : BitVec 2) (f : BitVec 1) : WordSpec :=
  accWord (atomOp 1 v base cls sz f none)

/-- The meaning of `AMIN`. -/
def execAmin (v base : SReg) (cls : BitVec 4) (sz : BitVec 2) (f : BitVec 1) (s : State) : Out :=
  runWord (aminWord v base cls sz f) s

/-- `AMAX` (06 R118). -/
def amaxWord (v base : SReg) (cls : BitVec 4) (sz : BitVec 2) (f : BitVec 1) : WordSpec :=
  accWord (atomOp 2 v base cls sz f none)

/-- The meaning of `AMAX`. -/
def execAmax (v base : SReg) (cls : BitVec 4) (sz : BitVec 2) (f : BitVec 1) (s : State) : Out :=
  runWord (amaxWord v base cls sz f) s

/-- `AMINN` (06 R118). -/
def aminnWord (v base : SReg) (cls : BitVec 4) (sz : BitVec 2) (f : BitVec 1) : WordSpec :=
  accWord (atomOp 3 v base cls sz f none)

/-- The meaning of `AMINN`. -/
def execAminn (v base : SReg) (cls : BitVec 4) (sz : BitVec 2) (f : BitVec 1) (s : State) : Out :=
  runWord (aminnWord v base cls sz f) s

/-- `AMAXN` (06 R118). -/
def amaxnWord (v base : SReg) (cls : BitVec 4) (sz : BitVec 2) (f : BitVec 1) : WordSpec :=
  accWord (atomOp 4 v base cls sz f none)

/-- The meaning of `AMAXN`. -/
def execAmaxn (v base : SReg) (cls : BitVec 4) (sz : BitVec 2) (f : BitVec 1) (s : State) : Out :=
  runWord (amaxnWord v base cls sz f) s

/-- `AAND` (06 R118). -/
def aandWord (v base : SReg) (cls : BitVec 4) (sz : BitVec 2) (f : BitVec 1) : WordSpec :=
  accWord (atomOp 5 v base cls sz f none)

/-- The meaning of `AAND`. -/
def execAand (v base : SReg) (cls : BitVec 4) (sz : BitVec 2) (f : BitVec 1) (s : State) : Out :=
  runWord (aandWord v base cls sz f) s

/-- `AOR` (06 R118). -/
def aorWord (v base : SReg) (cls : BitVec 4) (sz : BitVec 2) (f : BitVec 1) : WordSpec :=
  accWord (atomOp 6 v base cls sz f none)

/-- The meaning of `AOR`. -/
def execAor (v base : SReg) (cls : BitVec 4) (sz : BitVec 2) (f : BitVec 1) (s : State) : Out :=
  runWord (aorWord v base cls sz f) s

/-- `AXOR` (06 R118). -/
def axorWord (v base : SReg) (cls : BitVec 4) (sz : BitVec 2) (f : BitVec 1) : WordSpec :=
  accWord (atomOp 7 v base cls sz f none)

/-- The meaning of `AXOR`. -/
def execAxor (v base : SReg) (cls : BitVec 4) (sz : BitVec 2) (f : BitVec 1) (s : State) : Out :=
  runWord (axorWord v base cls sz f) s

/-- `ASWP` (06 R118). -/
def aswpWord (v base : SReg) (cls : BitVec 4) (sz : BitVec 2) (f : BitVec 1) : WordSpec :=
  accWord (atomOp 8 v base cls sz f none)

/-- The meaning of `ASWP`. -/
def execAswp (v base : SReg) (cls : BitVec 4) (sz : BitVec 2) (f : BitVec 1) (s : State) : Out :=
  runWord (aswpWord v base cls sz f) s

/-- `AFADD` (06 R118). -/
def afaddWord (v base : SReg) (cls : BitVec 4) (sz : BitVec 2) (f : BitVec 1) : WordSpec :=
  accWord (atomOp 9 v base cls sz f none)

/-- The meaning of `AFADD`. -/
def execAfadd (v base : SReg) (cls : BitVec 4) (sz : BitVec 2) (f : BitVec 1) (s : State) : Out :=
  runWord (afaddWord v base cls sz f) s

/-- `ACAS` (06 R119). -/
def acasWord (v base : SReg) (cls : BitVec 4) (sz : BitVec 2) (f : BitVec 1) : WordSpec :=
  accWord (atomOp 10 v base cls sz f (some (v + 1)))

/-- The meaning of `ACAS`. -/
def execAcas (v base : SReg) (cls : BitVec 4) (sz : BitVec 2) (f : BitVec 1) (s : State) : Out :=
  runWord (acasWord v base cls sz f) s

/-! ### ORDER -/

/-- The scope a code means on the issuing core: the control core's narrowest is `.pkg` (02
R10). -/
def State.scopeOf (s : State) (scope : Nat) : Nat :=
  if s.core.control && decide (scope < 3) then 3 else scope

/-- Whether a location lies within the instance of a scope that holds the issuing core (02 R9,
18 R294). -/
def State.inScope (s : State) (scope loc : Nat) : Bool :=
  let o := loc - pkgBase s.pkgid
  let own := decide (pkgBase s.pkgid ≤ loc) && decide (o < 2 ^ 43)
  match s.scopeOf scope with
  | 0 => own && whereLoc loc == .core && (o - 2 ^ 41) / 2 ^ 21 == s.coreid
  | 1 =>
    own && (match whereLoc loc with
      | .core => (o - 2 ^ 41) / 2 ^ 21 / 4 == s.coreid / 4
      | .quad => (o - 2 ^ 42) / 2 ^ 23 == s.coreid / 4
      | _ => false)
  | 2 =>
    own && (match whereLoc loc with
      | .core => (o - 2 ^ 41) / 2 ^ 21 / 24 == s.coreid / 24
      | .quad => (o - 2 ^ 42) / 2 ^ 23 / 6 == s.coreid / 24
      | .ws => (o - 2 ^ 42 - 2 ^ 41) / 2 ^ 28 == s.coreid / 24
      | .hbm => false)
  | 3 => own
  | _ => true

/-- The accesses of the context, of masked classes, that are not performed at a scope (06 R123,
18 R294): reads, near writes inside the scope, every remote access, one held in the replay buffer (03 R23,
13 R221), every stream. -/
def State.unperformed (s : State) (mask : BitVec 16) (scope : Nat) : List Nat :=
  (s.cx.accs.filter (fun a => mask.getLsbD a.cls &&
    (a.isRead || a.win.isSome || s.inScope scope a.loc))).map (·.id)
  ++ ((s.cx.replay.map (·.acc)).toList.filter (fun a => mask.getLsbD a.cls)).map (·.id)
  ++ (s.cx.streams.filter (fun t => (List.range 16).any (fun c => mask.getLsbD c && t.hasClass c))).map
      (·.id)
  ++ (s.core.lines.filter (fun l => l.owner == s.cx.uid && mask.getLsbD l.cls)).flatMap (·.ids)
  ++ (s.fab.pkts.filter (fun p => p.owner == s.cx.uid && p.tsend.isNone && mask.getLsbD p.cls)).flatMap
      (·.ids)

/-- `FENCE` (06 R123, 16 R257): flushes the masked lines; later A words wait until the masked
accesses are performed at the scope. -/
def fenceWord (scope : BitVec 3) (mask : BitVec 16) : WordSpec where
  stall := fun s _ _ => s.fenced
  effect := fun s _ =>
    let deps := s.unperformed mask scope.toNat
    let s := s.flushLines (fun l => l.owner == s.cx.uid && mask.getLsbD l.cls)
    { s with cx := { s.cx with drains := [], fences := [{ mask := mask, deps := deps }] } }

/-- The meaning of `FENCE`. -/
def execFence (scope : BitVec 3) (mask : BitVec 16) (s : State) : Out :=
  runWord (fenceWord scope mask) s

/-- `SLKSET`: min(sA, 65,535) (06 R124). -/
def slksetWord (a : SReg) (cls : BitVec 4) : WordSpec where
  pops := if isLq a then 1 else 0
  stall := fun s _ _ => s.fenced
  check := fun s v => s.poisonCheck a (s.src a v 0)
  effect := fun s v =>
    s.push (.slack cls (BitVec.ofNat 16 (Nat.min (s.src a v 0).val.toNat 65535))) 1

/-- The meaning of `SLKSET`. -/
def execSlkset (a : SReg) (cls : BitVec 4) (s : State) : Out := runWord (slksetWord a cls) s

/-- `WDRAIN`: flushes the window's lines; later A words wait for its acknowledgements (06
R124). -/
def wdrainWord (w : BitVec 3) : WordSpec where
  stall := fun s _ _ => s.fenced
  effect := fun s _ =>
    let s := s.flushLines (fun l => l.owner == s.cx.uid && l.win == w.toNat)
    { s with cx := { s.cx with fences := [], drains := [w.toNat] } }

/-- The meaning of `WDRAIN`. -/
def execWdrain (w : BitVec 3) (s : State) : Out := runWord (wdrainWord w) s

/-- `WALLOW`: the allowance, clamped to 1 .. 1,024 (06 R124). -/
def wallowWord (a : SReg) (w : BitVec 3) : WordSpec where
  pops := if isLq a then 1 else 0
  stall := fun s _ _ => s.fenced
  check := fun s v => s.poisonCheck a (s.src a v 0)
  effect := fun s v =>
    s.push (.allow w (Nat.max 1 (Nat.min (s.src a v 0).val.toNat 1024))) 1

/-- The meaning of `WALLOW`. -/
def execWallow (a : SReg) (w : BitVec 3) (s : State) : Out := runWord (wallowWord a w) s

end Sys2Proof.Machine
end

