-- ==== Sys2Proof/Machine/Batch.lean ====
section
/-!
DEFINITION. Commit batches (08 R181 to R184) and the words `COMMIT`, `WAITB`, `TESTB`; named
barriers (14 R244 to R249) with their two steps; the posting words `NPOST` and `REQUEUE` (14
R250); experimental words (03 R43).
-/

namespace Sys2Proof.Machine

open Sys2Proof

/-! ### Batches -/

/-- A command of latency b joins the open batch at issue (08 R181). -/
def State.joinBatch (s : State) (id eng : Nat) : State :=
  { s with cx := { s.cx with cmds := s.cx.cmds ++ [{ id := id, tok := s.cx.openTok, eng := eng }] } }

/-- A command completes, with an error reason or none, raising flags in its context (08 R181). -/
def State.cmdDone (s : State) (owner id : Nat) (err : Option Nat) (f : Flags) : State :=
  s.onOwner owner (fun c =>
    let cmds := c.cmds.map (fun (x : CmdRec) =>
      if x.id == id then { x with done := true, err := err } else x)
    ({ c with flags := c.flags ||| f, cmds := cmds } : Ctx).settleBatches)

/-- The lowest free batch id. -/
def lowestFree (l : Vector BatchSt 8) : Option (Fin 8) :=
  (List.finRange 8).find? (fun k => l[k] == .free)

/-- Whether an id of a batch is held incomplete. -/
def BatchSt.isHeld : BatchSt → Bool
  | .held _ => true
  | _ => false

/-- `COMMIT` (08 R183): stalls for want of a free id while one is incomplete; POISON of sA; BATCH when all
are held with error. -/
def commitWord (a : SReg) : WordSpec where
  stall := fun s _ _ => (lowestFree s.cx.batches).isNone && s.cx.batches.any (·.isHeld)
  check := fun s _ => firstOf [s.poisonCheck a (s.cx.sreg a),
    if (lowestFree s.cx.batches).isNone then some ⟨9, 0xFF00⟩ else none]
  effect := fun s _ =>
    match lowestFree s.cx.batches with
    | none => s
    | some k =>
      let s := { s with cx := ({ s.cx with
        batches := s.cx.batches.set k (.held s.cx.openTok)
        openTok := s.cx.openTok + 1 }).settleBatches }
      s.wreg a { val := mkWord k.val } 1

/-- The meaning of `COMMIT`. -/
def execCommit (a : SReg) (s : State) : Out := runWord (commitWord a) s

/-- The state of a batch id. -/
def State.batchOf (s : State) (v : Word) : BatchSt :=
  s.cx.batches[(v.extractLsb' 0 3).toNat]'(v.extractLsb' 0 3).isLt

/-- `tval` of BATCH when an id is held with error (08 R183). -/
def State.batchError (s : State) (v : Word) : Option Word :=
  match s.batchOf v with
  | .error eng r => some (mkWord (bitsOf v 0 3 + eng % 256 * 2 ^ 8 + r % 2 ^ 16 * 2 ^ 16))
  | _ => none

/-- The id is freed: its error has been observed (08 R182). -/
def State.batchFree (s : State) (v : Word) : State :=
  { s with cx := { s.cx with
    batches := s.cx.batches.set (v.extractLsb' 0 3).toNat .free (v.extractLsb' 0 3).isLt } }

/-- A batch id above 7 is illegal (08 R183, 03 R37). -/
def State.batchIdIllegal (s : State) (a : SReg) : Bool :=
  !(s.cx.sreg a).poison && decide (7 < (s.cx.sreg a).val.toNat)

/-- `WAITB` (08 R183): waits while the id is incomplete; an error is observed and raises BATCH of
completion kind. -/
def waitbWord (a : SReg) : WordSpec where
  illop := fun s => s.batchIdIllegal a
  stall := fun s _ _ => !(s.cx.sreg a).poison && (s.batchOf (s.cx.sreg a).val).isHeld
  check := fun s _ => s.poisonCheck a (s.cx.sreg a)
  effect := fun s _ =>
    let v := (s.cx.sreg a).val
    match s.batchError v with
    | some t => (s.batchFree v).trapDone 9 t
    | none => s

/-- The meaning of `WAITB`. -/
def execWaitb (a : SReg) (s : State) : Out := runWord (waitbWord a) s

/-- `TESTB` (08 R183). -/
def testbWord (a : SReg) : WordSpec where
  illop := fun s => s.batchIdIllegal a
  check := fun s _ => s.poisonCheck a (s.cx.sreg a)
  effect := fun s _ =>
    let v := (s.cx.sreg a).val
    match s.batchOf v with
    | .free => s.wreg a { val := 1 } 1
    | .held _ => s.wreg a { val := 0 } 1
    | .error _ _ => (s.batchFree v).wreg a { val := 2 } 1

/-- The meaning of `TESTB`. -/
def execTestb (a : SReg) (s : State) : Out := runWord (testbWord a) s

/-! ### Named barriers -/

/-- The physical barrier of the core that a task names nbN (14 R244). -/
def State.barNum (s : State) (n : BitVec 9) : Option Nat := s.cx.task.barriers[n.toNat]?

/-- A barrier of the core; one not listed is unallotted. -/
def State.bar (s : State) (k : Nat) : Barrier :=
  ((s.core.bars.find? (fun e => e.1 == k)).map (·.2)).getD {}

/-- Replace a barrier of the core. -/
def State.setBar (s : State) (k : Nat) (b : Barrier) : State :=
  { s with core := { s.core with bars := (k, b) :: s.core.bars.filter (fun e => e.1 != k) } }

/-- The barrier a word names. -/
def State.barOf (s : State) (n : BitVec 9) : Barrier :=
  match s.barNum n with
  | some k => s.bar k
  | none => {}

/-- ILLOP of a barrier word (14 R244): the control core, a number not requested, or a barrier not
configured where that is asked. -/
def State.barIllegal (s : State) (n : BitVec 9) (configured : Bool) : Bool :=
  s.core.control || (s.barNum n).isNone || (configured && (s.barOf n).conf.isNone)

/-- The scope of a barrier. -/
def Barrier.scope (b : Barrier) : Nat := (b.conf.map (·.1)).getD 0

/-- An arrival becomes pending: it is counted once every earlier access of the context has
performed at the barrier's scope (14 R245, R246). -/
def State.arrive (s : State) (k : Nat) : State :=
  let b := s.bar k
  s.setBar k { b with pending := true, counted := false, completed := false, span := b.scope
                      deps := s.unperformed 0xFFFF b.scope }

/-- `BARA` (14 R245, R249): stalls while its own arrival is pending. -/
def baraWord (n : BitVec 9) : WordSpec where
  illop := fun s => s.barIllegal n true
  stall := fun s _ _ => (s.barOf n).pending
  effect := fun s _ =>
    match s.barNum n with
    | some k => s.arrive k
    | none => s

/-- The meaning of `BARA`. -/
def execBara (n : BitVec 9) (s : State) : Out := runWord (baraWord n) s

/-- Whether an arrival of this core is pending, or its phase complete and not delivered (14 R247,
R249). -/
def Barrier.waiting (b : Barrier) : Bool := b.pending || b.completed

/-- `BARW` (14 R249). -/
def barwWord (n : BitVec 9) : WordSpec where
  illop := fun s => s.barIllegal n true
  stall := fun s _ _ => (s.barOf n).waiting
  effect := fun s _ => s

/-- The meaning of `BARW`. -/
def execBarw (n : BitVec 9) (s : State) : Out := runWord (barwWord n) s

/-- `BART` (14 R249). -/
def bartWord (a : SReg) (n : BitVec 9) : WordSpec where
  illop := fun s => s.barIllegal n true
  effect := fun s _ => s.wreg a { val := if (s.barOf n).waiting then 0 else 1 } 1

/-- The meaning of `BART`. -/
def execBart (a : SReg) (n : BitVec 9) (s : State) : Out := runWord (bartWord a n) s

/-- The highest count of a scope (14 R249). -/
def maxCount : Nat → Nat
  | 0 => 1
  | 1 => 4
  | 2 => 24
  | 3 => 1536
  | _ => 65535

/-- Whether a value configures a barrier (14 R249). -/
def barcfgOk (v : Word) : Bool :=
  decide (bitsOf v 0 3 ≤ 4) && bitsOf v 3 5 == 0 && bitsOf v 24 40 == 0
  && decide (1 ≤ bitsOf v 8 16) && decide (bitsOf v 8 16 ≤ maxCount (bitsOf v 0 3))

/-- A barrier configured (14 R245, R249): another scope is another instance, with no arrival; of the arrivals
before this core configured, whole phases are over (DESIGN CHOICE, log entry 111). -/
def Barrier.configure (b : Barrier) (scope count : Nat) : Barrier :=
  { b with conf := some (scope, count)
           arrivals := if b.conf.any (fun c => c.1 != scope) then 0 else b.arrivals % count }

/-- `BARCFG` (14 R249). -/
def barcfgWord (a : SReg) (n : BitVec 9) : WordSpec where
  illop := fun s => s.barIllegal n false || (!(s.cx.sreg a).poison && !barcfgOk (s.cx.sreg a).val)
  stall := fun s _ _ => (s.barOf n).pending
  check := fun s _ => s.poisonCheck a (s.cx.sreg a)
  effect := fun s _ =>
    let v := (s.cx.sreg a).val
    match s.barNum n with
    | some k => s.setBar k ((s.bar k).configure (bitsOf v 0 3) (bitsOf v 8 16))
    | none => s

/-- The meaning of `BARCFG`. -/
def execBarcfg (a : SReg) (n : BitVec 9) (s : State) : Out := runWord (barcfgWord a n) s

/-- The arrivals of the open phase rise by one; a phase that reaches the count completes: a
pending arrival of this core counted in it becomes undelivered, and a barrier whose task has ended becomes
unallotted (14 R245, R248). Arrivals of other parties count before this core configures. -/
def State.countArrival (s : State) (k : Nat) : State :=
  let b := s.bar k
  match b.conf with
  | none => if b.holder.isSome then s.setBar k { b with arrivals := b.arrivals + 1 } else s
  | some (_, count) =>
    if count ≤ b.arrivals + 1 then
      if b.releasing && b.counted then
        { s with core := { s.core with bars := s.core.bars.filter (fun e => e.1 != k) } }
      else
        s.setBar k { b with arrivals := 0, pending := b.pending && !b.counted, counted := false
                            completed := b.completed || b.counted
                            doneAt := if b.counted then s.cyc else b.doneAt }
    else s.setBar k { b with arrivals := b.arrivals + 1 }

/-- ARRIVAL_COUNTED (14 R245, R246): this core's pending arrival once its earlier accesses have
performed at the scope, or an arrival of another party of the instance. -/
def State.arrivalCounted (s : State) (nb : Nat) (own : Bool) : State :=
  let b := s.bar nb
  if own then
    if b.pending && !b.counted && s.depsDone b.deps then
      (s.setBar nb { b with counted := true }).countArrival nb
    else s
  else s.countArrival nb

/-- The meaning of ARRIVAL_COUNTED. -/
def execArrivalCounted (nb : Nat) (own : Bool) (s : State) : Out := .next (s.arrivalCounted nb own)

/-- The hops to the farthest package of the job: of the packages that the rank table names, by the shortest
of the routes to each (14 R247; log entry 87). -/
def State.farthest (s : State) : Nat :=
  let hops := fun (pkg : Nat) =>
    match (((s.fab.routes.find? (fun e => e.1 == pkg)).map (·.2)).getD []).map (·.2) with
    | [] => 0
    | h :: t => t.foldl Nat.min h
  ((s.fab.ranks.filter (fun e => rankKind e.2 == 1)).map (fun e => bitsOf e.2 0 14)).foldl
    (fun n pkg => if pkg = s.pkgid then n else Nat.max n (hops pkg)) 0

/-- Cycles from the completion of a phase to its earliest delivery (14 R247). -/
def State.deliveryTime (s : State) (scope : Nat) : Nat :=
  match scope with
  | 0 => 1
  | 1 => 6
  | 2 => 18
  | 3 => 90
  | _ => 90 + 183 + 140 * s.farthest

/-- BARRIER_DELIVERY (14 R247): a completed phase reaches the core, no earlier than the time of the scope under
which the core arrived: a later `BARCFG` is for the next arrival (R249). -/
def State.barrierDelivery (s : State) (nb : Nat) : State :=
  let b := s.bar nb
  if b.completed && decide (b.doneAt + s.deliveryTime b.span ≤ s.cyc) then s.setBar nb { b with completed := false }
  else s

/-- The meaning of BARRIER_DELIVERY. -/
def execBarrierDelivery (nb : Nat) (s : State) : Out := .next (s.barrierDelivery nb)

/-! ### Posting words -/

/-- POISON and ADDR of a posted record's address (14 R250, 02 R13). -/
def State.postCheck (s : State) (a : SReg) : Option TrapReq :=
  let v := (s.cx.sreg a).val
  firstOf [s.poisonCheck a (s.cx.sreg a),
    if v.toNat % 64 != 0 || bitsOf v 57 7 != 0 then some ⟨6, v⟩ else none]

/-- Posts whose poster's earlier accesses have performed enter the queue, behind those that have entered; of
several that could, the one issued first (14 R250, R338; log entry 88). -/
def State.enterPosts (s : State) : State :=
  let (now, later) := s.sched.posts.partition (fun p => !p.entered && s.depsDone p.deps)
  let (in_, out) := later.partition (·.entered)
  { s with sched := { s.sched with
    posts := in_ ++ now.map (fun (p : Post) => { p with entered := true }) ++ out } }

/-- A record is posted; the level its node may name is that of the poster's node, unless privileged (14
R250). -/
def State.post (s : State) (v : Word) (requeue : Bool) : State :=
  let p : Post :=
    { addr := v.toNat, priv := s.cx.priv, level := if s.cx.priv then 3 else s.cx.task.level
      asid := (s.specialNow 0x101).toNat, ptbase := (s.specialNow 0x100).toNat
      requeue := if requeue then some s.cx.task.node else none
      deps := s.unperformed 0xFFFF 3 }
  State.enterPosts { s with sched := { s.sched with posts := s.sched.posts ++ [p] } }

/-- Posts in the post queue, those of the mailboxes apart (14 R231). -/
def State.queuedPosts (s : State) : Nat := (s.sched.posts.filter (fun p => p.mail.isNone)).length

/-- `NPOST` (14 R250): stalls while the post queue of 256 is full. -/
def npostWord (a : SReg) : WordSpec where
  stall := fun s _ _ => decide (256 ≤ s.queuedPosts)
  check := fun s _ => s.postCheck a
  effect := fun s _ => s.post (s.cx.sreg a).val false

/-- The meaning of `NPOST`. -/
def execNpost (a : SReg) (s : State) : Out := runWord (npostWord a) s

/-- `REQUEUE` (14 R250): illegal on the control core. -/
def requeueWord (a : SReg) : WordSpec where
  illop := fun s => s.core.control
  stall := fun s _ _ => decide (256 ≤ s.queuedPosts)
  check := fun s _ => s.postCheck a
  effect := fun s _ => s.post (s.cx.sreg a).val true

/-- The meaning of `REQUEUE`. -/
def execRequeue (a : SReg) (s : State) : Out := runWord (requeueWord a) s

/-! ### Experimental words -/

/-- `EXPER`: stepping 0x01 defines no experimental operation, so every such word raises ILLOP
(03 R38, R43). -/
def experWord (_step : BitVec 6) (_op : BitVec 20) : WordSpec where
  illop := fun _ => true
  effect := fun s _ => s

/-- The meaning of `EXPER`. -/
def execExper (step : BitVec 6) (op : BitVec 20) (s : State) : Out := runWord (experWord step op) s

end Sys2Proof.Machine
end

