-- ==== Sys2Proof/Machine/Memory.lean ====
section
/-!
DEFINITION. The steps in which A-pipe accesses perform (06 R102, R103, R107 to R109, R120 to R122),
and those of the HBM controllers and of the weight store's refresh (10 R187 to R195; 11 R207). The
figures of 06 R105 and 10 R188 are timing and are left out.
-/

namespace Sys2Proof.Machine

open Sys2Proof

/-! ### The weight store's refresh window -/

/-- Whether a location lies in a weight-store bank that is in its refresh window (10 R194, R195). -/
def State.wsBlocked (s : State) (loc : Nat) : Bool :=
  whereLoc loc == .ws && s.cyc % 512 < 64 && s.cyc % 8192 / 512 == loc / 512 % 16

/-- A weight-store access of a die waits in the window: the cycles up to its end are counted once (10
R193). -/
def State.wsNoteOn (s : State) (die : Nat) : State :=
  if s.hbm.wsNoted.contains (die, s.cyc / 512) then s
  else
    { s with hbm := { s.hbm with
      wswin := bumpBy die (64 - s.cyc % 512) s.hbm.wswin
      wsNoted := (die, s.cyc / 512) :: s.hbm.wsNoted.filter (fun e => e.1 != die) } }

/-- A weight-store access of the core's own die waits in the window. -/
def State.wsNote (s : State) : State := s.wsNoteOn (s.coreid / 24)

/-! ### HBM -/

/-- Pseudo-channel of a physical address (10 R187). -/
def hbmChan (pa : Nat) : Nat := pa / 2 ^ 6 % 2 ^ 11
/-- Bank within the pseudo-channel: bank group × 4 + bank (10 R187, R190). -/
def hbmBank (pa : Nat) : Nat := pa / 2 ^ 21 % 4 * 4 + pa / 2 ^ 23 % 4
/-- Row within the bank. -/
def hbmRow (pa : Nat) : Nat := pa / 2 ^ 25 % 2 ^ 16

/-- A bank's state; one never touched is closed. -/
def State.hbank (s : State) (pc bank : Nat) : HBank :=
  ((s.hbm.banks.find? (fun e => e.1 == 16 * pc + bank)).map (·.2)).getD {}

/-- Replace a bank's state. -/
def State.setHbank (s : State) (pc bank : Nat) (b : HBank) : State :=
  { s with hbm := { s.hbm with
    banks := (16 * pc + bank, b) :: s.hbm.banks.filter (fun e => e.1 != 16 * pc + bank) } }

/-- A pseudo-channel's state. -/
def State.hchan (s : State) (pc : Nat) : HChan :=
  ((s.hbm.chans.find? (fun e => e.1 == pc)).map (·.2)).getD {}

/-- Replace a pseudo-channel's state. -/
def State.setHchan (s : State) (pc : Nat) (c : HChan) : State :=
  { s with hbm := { s.hbm with chans := (pc, c) :: s.hbm.chans.filter (fun e => e.1 != pc) } }

/-- Whether a bank is open: a row, and a service within the last 1,024 cycles (10 R189). -/
def HBank.isOpen (b : HBank) (cyc : Nat) : Bool := b.row.isSome && decide (cyc < b.last + 1024)

/-- Whether a bank is serving an access in a cycle. -/
def HBank.serving (b : HBank) (cyc : Nat) : Bool := decide (cyc < b.busy)

/-- The cycle of the n-th due of a pseudo-channel, that of bank n mod 16 (10 R190). -/
def dueCycle (pc n : Nat) : Nat := 10 * (pc % 16) + 2730 * (n / 16) + 170 * (n % 16)

/-- Whether an all-bank refresh called for a pseudo-channel is not over in a cycle (11 R207). -/
def HChan.allBank (c : HChan) (cyc : Nat) : Bool := c.allStart.any (fun st => decide (cyc < st + 245))

/-- Close every bank of a pseudo-channel. -/
def State.closeAll (s : State) (pc : Nat) : State :=
  { s with hbm := { s.hbm with
    banks := s.hbm.banks.map (fun e => if e.1 / 16 == pc then (e.1, { e.2 with row := none }) else e) } }

/-- The cycle in which an all-bank refresh called in cycle d starts: that one, or the cycle after the last
service in progress ends (11 R207). -/
def State.allBankFrom (s : State) (pc d : Nat) : Nat :=
  (List.range 16).foldl (fun n k => Nat.max n (s.hbank pc k).busy) d

/-- What the controller does at the next due of a pseudo-channel (10 R191): skipped under an all-bank refresh;
after eight postponements an all-bank refresh is called, which closes every bank; an open or queued bank is
postponed; an idle one is refreshed for 112 cycles. -/
def State.dueAct (s : State) (pc : Nat) : State :=
  let c0 := s.hchan pc
  let d := dueCycle pc c0.dues
  let k := c0.dues % 16
  let c := { c0 with dues := c0.dues + 1 }
  let b := s.hbank pc k
  if c.allBank d then s.setHchan pc c
  else if c.post = 8 then
    (s.setHchan pc { c with post := 0, called := true, allStart := some (s.allBankFrom pc d)
                            refall := (c.refall + 1) % 2 ^ 64 }).closeAll pc
  else if b.isOpen d || !b.queue.isEmpty then
    s.setHchan pc { c with post := c.post + 1, refpost := (c.refpost + 1) % 2 ^ 64 }
  else (s.setHchan pc c).setHbank pc k { b with row := none, refresh := d + 112 }

/-- The dues of a pseudo-channel up to the cycle before this one, in order. An access that arrives in a due
cycle counts as queued in it, so a due is acted on once its cycle is over (10 R191). -/
def duesTo (pc : Nat) : Nat → State → State
  | 0, s => s
  | fuel + 1, s => if dueCycle pc (s.hchan pc).dues < s.cyc then duesTo pc fuel (s.dueAct pc) else s

/-- A pseudo-channel with every due of the cycles before this one acted on. -/
def State.refreshed (s : State) (pc : Nat) : State := duesTo pc (s.cyc / 170 + 1) s

/-- REFRESH_DUE (10 R190, R191; 11 R207). -/
def State.refreshDue (s : State) (pc : Nat) : State := s.refreshed pc

/-- The meaning of REFRESH_DUE. -/
def execRefreshDue (pc : Nat) (s : State) : Out := .next (s.refreshDue pc)

/-- An access arrives at its bank and queues there; a line read is counted for its die (10 R188, R193). -/
def State.arriveAt (s : State) (pa : Nat) (read : Bool) (die : Nat) (id : Option Nat) : State :=
  let pc := hbmChan pa
  let k := hbmBank pa
  let s := s.refreshed pc
  let b := s.hbank pc k
  let s := s.setHbank pc k { b with queue := b.queue ++ [⟨s.cyc, hbmRow pa, read, die, id⟩] }
  if read then { s with hbm := { s.hbm with hbmrdln := bumpBy die 1 s.hbm.hbmrdln } } else s

/-- HBM_ARRIVAL (10 R188, R193): an access of the die arrives that no access of the core followed stands
for. -/
def State.hbmArrival (s : State) (pa : Nat) (read : Bool) : State := s.arriveAt pa read (s.coreid / 24) none

/-- The meaning of HBM_ARRIVAL. -/
def execHbmArrival (pa : Nat) (read : Bool) (s : State) : Out := .next (s.hbmArrival pa read)

/-- Whether a pseudo-channel is closed to new services: under an all-bank refresh, and in the due cycle that
calls one (11 R207). -/
def State.chanClosed (s : State) (pc : Nat) : Bool :=
  let c := s.hchan pc
  c.allBank s.cyc || (c.post == 8 && dueCycle pc c.dues == s.cyc)

/-- Whether the head access of a bank could start service now, apart from the other banks (10
R188, R191; 11 R207). -/
def State.canServe (s : State) (pc bank : Nat) : Bool :=
  let b := s.hbank pc bank
  !b.queue.isEmpty && decide (b.refresh ≤ s.cyc) && decide (b.busy ≤ s.cyc) && !s.chanClosed pc

/-- The arrival cycle of a bank's head access. -/
def State.headArrival (s : State) (pc bank : Nat) : Option Nat :=
  (s.hbank pc bank).queue.head?.map (·.cyc)

/-- An access of a context at its bank. -/
def State.setBankStage (s : State) (id : Nat) (g : BankStage) : State :=
  s.onCtx (fun c => c.accs.any (·.id == id)) (fun c =>
    { c with accs := c.accs.map (fun a => if a.id == id then { a with bank := g } else a) })

/-- HBM_SERVICE_START (10 R188, R193): in arrival order at a bank, one start per cycle in a
pseudo-channel, the lower bank first among arrivals of one cycle; 1 cycle on the open row, else
32. The access may then perform. -/
def State.hbmService (s : State) (pc bank : Nat) : State :=
  let s := s.refreshed pc
  let b := s.hbank pc bank
  let another := (List.range 16).any (fun k => (s.hbank pc k).serving s.cyc && (s.hbank pc k).last == s.cyc)
  let lower := (List.range bank).any (fun k =>
    s.canServe pc k && s.headArrival pc k == s.headArrival pc bank)
  match b.queue with
  | [] => s
  | r :: rest =>
    if !s.canServe pc bank || another || lower then s
    else
      let time := if b.isOpen s.cyc && b.row == some r.row then 1 else 32
      let s := s.setHbank pc bank
        { b with row := some r.row, last := s.cyc, busy := s.cyc + time, queue := rest }
      let s := if r.read then { s with hbm := { s.hbm with
        hbmwait := bumpBy r.die (s.cyc - r.cyc) s.hbm.hbmwait } } else s
      match r.id with
      | some id => s.setBankStage id .served
      | none => s

/-- The meaning of HBM_SERVICE_START. -/
def execHbmServiceStart (pc bank : Nat) (s : State) : Out := .next (s.hbmService pc bank)

/-- BANK_IDLE_CLOSE (10 R189). -/
def State.bankIdleClose (s : State) (pc bank : Nat) : State :=
  let s := s.refreshed pc
  let b := s.hbank pc bank
  if b.row.isSome && decide (b.last + 1024 ≤ s.cyc) then s.setHbank pc bank { b with row := none }
  else s

/-- The meaning of BANK_IDLE_CLOSE. -/
def execBankIdleClose (pc bank : Nat) (s : State) : Out := .next (s.bankIdleClose pc bank)

/-- ALL_BANK_REFRESH_START (11 R207): the cycle of its start has come. -/
def State.allBankStart (s : State) (pc : Nat) : State :=
  let s := s.refreshed pc
  let c := s.hchan pc
  if c.called && c.allStart.any (fun st => decide (st ≤ s.cyc)) then s.setHchan pc { c with called := false }
  else s

/-- The meaning of ALL_BANK_REFRESH_START. -/
def execAllBankRefreshStart (pc : Nat) (s : State) : Out := .next (s.allBankStart pc)

/-- BANK_REFRESH_END (10 R191). -/
def State.bankRefreshEnd (s : State) (pc bank : Nat) : State :=
  let s := s.refreshed pc
  let b := s.hbank pc bank
  if b.refresh != 0 && decide (b.refresh ≤ s.cyc) then s.setHbank pc bank { b with refresh := 0 }
  else s

/-- The meaning of BANK_REFRESH_END. -/
def execBankRefreshEnd (pc bank : Nat) (s : State) : Out := .next (s.bankRefreshEnd pc bank)

/-- ALL_BANK_REFRESH_END (10 R191, 11 R207): 245 cycles after its start. -/
def State.allBankEnd (s : State) (pc : Nat) : State :=
  let s := s.refreshed pc
  let c := s.hchan pc
  if c.allStart.isSome && !c.allBank s.cyc then s.setHchan pc { c with called := false, allStart := none }
  else s

/-- The meaning of ALL_BANK_REFRESH_END. -/
def execAllBankRefreshEnd (pc : Nat) (s : State) : Out := .next (s.allBankEnd pc)

/-- An access acts at its memory: one of HBM first arrives at its bank, and acts once its service has started
(10 R188); lines read by loads and fetching atomics are counted (R193; log entry 86). -/
def State.throughBank (s : State) (a : Acc) (act : State → State) : State :=
  if whereLoc a.loc != .hbm then act s
  else
    match a.bank with
    | .before =>
      (s.setBankStage a.id .queued).arriveAt (a.loc % 2 ^ 41) (a.isRead || a.lq.isSome) (s.coreid / 24) (some a.id)
    | .queued => s
    | .served => act s

/-! ### Accesses perform -/

/-- An access of the running context whose earlier accesses have performed (06 R107); those
through windows perform in the fabric. -/
def State.accOf (s : State) (id : Nat) : Option Acc :=
  if !s.live then none
  else s.cx.accs.find? (fun a => a.id == id && a.win.isNone && s.depsDone a.deps)

/-- An access performs if its tag allows and no earlier waiter stands at its word; else it parks
there (06 R108, R109). -/
def State.performOrPark (s : State) (a : Acc) : State :=
  let word := a.loc / 8
  match a.waitsFor with
  | some needFull =>
    if s.firstAt a.id word needFull then
      match s.performed s.cx.uid a with
      | some (v, s) => s.retire s.cx.uid a v
      | none => s.park s.cx.uid a.id word needFull
    else s.park s.cx.uid a.id word needFull
  | none =>
    match s.performed s.cx.uid a with
    | some (v, s) => s.retire s.cx.uid a v
    | none => s

/-- LOAD_DATA_RETURN (06 R103, R112 to R114): a read performs, and its data, poison and taint
return into its `lq` entry. -/
def State.loadReturn (s : State) (id : Nat) : State :=
  match s.accOf id with
  | some a =>
    if !a.isRead then s
    else if s.wsBlocked a.loc then s.wsNote
    else s.throughBank a (fun s => s.performOrPark a)
  | none => s

/-- The meaning of LOAD_DATA_RETURN. -/
def execLoadDataReturn (id : Nat) (s : State) : Out := .next (s.loadReturn id)

/-- Whether an entry is an atomic. -/
def AccKind.isAtom : AccKind → Bool
  | .atom _ _ _ _ => true
  | _ => false

/-- Cycles from the opening of a write-queue entry to its earliest begin (06 R121). -/
def AccKind.window (k : AccKind) : Nat :=
  match k with
  | .atom _ _ _ _ => if k.mergeable then 4 else 1
  | _ => 0

/-- Whether the entry before an entry of the write queue at the same line lets it begin (06 R121): an atomic
waits until that has performed, and so does an entry behind an atomic; a store or a tag write begins a cycle
after a store or a tag write. -/
def State.lineReady (s : State) (a : Acc) : Bool :=
  let before := (s.cx.accs.takeWhile (fun x => x.id != a.id)).filter (fun x => x.kind.isWrite && x.onLine a)
  match before.getLast? with
  | none => true
  | some b => !a.kind.isAtom && !b.kind.isAtom && b.begun && decide (b.opened < s.cyc)

/-- The entry of the write queue that may begin: one whose earlier accesses have performed, or one for a
window. -/
def State.entryOf (s : State) (id : Nat) : Option Acc :=
  if !s.live then none
  else s.cx.accs.find? (fun a => a.id == id && !a.isRead && !a.begun && a.source.isNone
    && (a.win.isSome || s.depsDone a.deps))

/-- WRITE_ENTRY_BEGIN (06 R120, R121): a write-queue entry closes to merging and begins to apply,
once its merge window has passed and the earlier entries allow; an entry for a window leaves for it. -/
def State.writeBegin (s : State) (id : Nat) : State :=
  match s.entryOf id with
  | some a =>
    if decide (s.cyc < a.opened + a.kind.window) || !s.lineReady a then s
    else
      let s := { s with cx := { s.cx with
        accs := s.cx.accs.map (fun x => if x.id == id then { x with begun := true, opened := s.cyc } else x) } }
      if a.win.isSome then s.sendAccess { a with begun := true } else s
  | none => s

/-- The meaning of WRITE_ENTRY_BEGIN. -/
def execWriteEntryBegin (id : Nat) (s : State) : Out := .next (s.writeBegin id)

/-- WRITE_PERFORM (06 R115 to R122): an entry that has begun performs at its memory. -/
def State.writePerform (s : State) (id : Nat) : State :=
  match s.accOf id with
  | some a => if a.isRead || !a.begun then s else s.throughBank a (fun s => s.performOrPark a)
  | none => s

/-- The meaning of WRITE_PERFORM. -/
def execWritePerform (id : Nat) (s : State) : Out := .next (s.writePerform id)

/-- The meaning of UNCORRECTABLE_ERROR: the poison mark of the 64-byte line is set (06 R102, 10
R194). Corrected errors come to no step and are not counted (log entry 108). -/
def execUncorrectableError (line : Nat) (s : State) : Out := .next (s.setMark (64 * line) true)

/-! ### The weight store's windows -/

/-- WS_REFRESH_WINDOW_START (10 R195): bank b while `cyc` mod 8,192 lies from 512b to 512b + 63. -/
def State.wsWindowStart (s : State) (bank : Nat) : State :=
  if s.cyc % 8192 / 512 == bank && s.cyc % 512 < 64 then
    { s with hbm := { s.hbm with wsWindow := some bank } }
  else s

/-- The meaning of WS_REFRESH_WINDOW_START. -/
def execWsRefreshWindowStart (bank : Nat) (s : State) : Out := .next (s.wsWindowStart bank)

/-- WS_REFRESH_WINDOW_END (10 R195). -/
def State.wsWindowEnd (s : State) (bank : Nat) : State :=
  if s.hbm.wsWindow == some bank && !(s.cyc % 8192 / 512 == bank && s.cyc % 512 < 64) then
    { s with hbm := { s.hbm with wsWindow := none } }
  else s

/-- The meaning of WS_REFRESH_WINDOW_END. -/
def execWsRefreshWindowEnd (bank : Nat) (s : State) : Out := .next (s.wsWindowEnd bank)

end Sys2Proof.Machine
end

