-- ==== Sys2Proof/Machine/Special.lean ====
section
/-!
DEFINITION. The special functions of 07 R139: their exact points, and away from those one of the two FP32
values that bracket the exact result, which is found by exact integer arithmetic on numbers of 640 binary
places.
-/

namespace Sys2Proof.Machine

open Sys2Proof

/-- The value rounded to FP32 under mode 0 (04 R58, 07 R139). -/
def toF32 (x : FVal) : FVal × Flags :=
  let (c, f) := fp32.round 0 x
  (fp32.decode c, f)

/-! ### Special functions -/

/-- The exponent k when a value is ±2^k. -/
def pow2Exp : FVal → Option Int
  | .fin _ m e => if m != 0 && m == 2 ^ Nat.log2 m then some ((Nat.log2 m : Int) + e) else none
  | _ => none

/-- The integer of a finite value that is one. -/
def exactInt : FVal → Option Int
  | .fin n m e =>
    if 0 ≤ e then some (signedMant n (m * 2 ^ e.toNat))
    else if m % 2 ^ (-e).toNat = 0 then some (signedMant n (m / 2 ^ (-e).toNat)) else none
  | _ => none

/-- Whether a value is at least an integer. -/
def geInt (x : FVal) (k : Int) : Bool :=
  match x.cmp (FVal.ofInt k) with
  | some .gt | some .eq => true
  | _ => false

/-- Whether a value is at most an integer. -/
def leInt (x : FVal) (k : Int) : Bool :=
  match x.cmp (FVal.ofInt k) with
  | some .lt | some .eq => true
  | _ => false

/-- The exact points of the special functions (07 R139): value and flags. -/
def sfnExact (fn : Nat) (x : FVal) : Option (FVal × Flags) :=
  let one : FVal := .fin false 1 0
  let zero (n : Bool) : FVal := .fin n 0 0
  match x with
  | .nan s => some (.nan false, Flag.when s Flag.nv)
  | _ =>
    match fn with
    | 0 =>
      match x with
      | .inf n => some (if n then zero false else .inf false, 0)
      | _ =>
        if geInt x 128 then some (.inf false, Flag.of)
        else if leInt x (-150) && exactInt x != some (-150) then some (zero false, Flag.uf)
        else
          match exactInt x with
          | some k => if -149 ≤ k then some (.fin false 1 k, 0) else none
          | none => none
    | 1 =>
      match x with
      | .inf n => if n then some (.nan false, Flag.nv) else some (.inf false, 0)
      | _ =>
        if x.isZero then some (.inf true, Flag.dz)
        else if x.neg then some (.nan false, Flag.nv)
        else (pow2Exp x).map (fun k => (FVal.ofInt k, 0))
    | 2 =>
      match x with
      | .inf n => some (zero n, 0)
      | _ =>
        if x.isZero then some (.inf x.neg, Flag.dz)
        else
          match pow2Exp x with
          | some k => if -126 ≤ k ∧ k ≤ 126 then some (.fin x.neg 1 (-k), 0) else none
          | none => none
    | 3 =>
      match x with
      | .inf n => if n then some (.nan false, Flag.nv) else some (zero false, 0)
      | _ =>
        if x.isZero then some (.inf x.neg, Flag.dz)
        else if x.neg then some (.nan false, Flag.nv)
        else
          match pow2Exp x with
          | some k => if k % 2 = 0 then some (.fin false 1 (-(k / 2)), 0) else none
          | none => none
    | 4 =>
      match x with
      | .inf n => some (if n then zero false else one, 0)
      | _ =>
        if x.isZero then some (.fin false 1 (-1), 0)
        else if geInt x 104 then some (one, 0)
        else if leInt x (-104) then some (zero false, 0) else none
    | 5 =>
      match x with
      | .inf n => some (.fin n 1 0, 0)
      | _ =>
        if x.isZero then some (x, 0)
        else if geInt x 10 then some (one, 0)
        else if leInt x (-10) then some (.fin true 1 0, 0) else none
    | _ =>
      match x with
      | .inf n => some (if n then zero true else .inf false, 0)
      | _ =>
        if x.isZero then some (x, 0)
        else if geInt x 10 then some (x, 0)
        else if leInt x (-16) then some (zero true, 0) else none

/-- The integer square root by k binary digits from the top. -/
def isqrtBits (n : Nat) : Nat → Nat → Nat
  | 0, r => r
  | k + 1, r => isqrtBits n k (if (r + 2 ^ k) * (r + 2 ^ k) ≤ n then r + 2 ^ k else r)

/-! ### Numbers of 640 binary places -/

/-- The number of binary places. -/
def fxP : Nat := 640

/-- One. -/
def fxOne : Nat := 2 ^ fxP

/-- The product of two numbers. -/
def fxMul (a b : Nat) : Nat := a * b / fxOne

/-- The sum of the terms t, t·y/(k+1), t·y²/((k+1)(k+2)), … , n of them: the exponential series from term
k on. -/
def expSum (y : Nat) : Nat → Nat → Nat → Nat
  | 0, _, _ => 0
  | n + 1, k, t => t + expSum y n (k + 1) (fxMul t y / (k + 1))

/-- e to a power between 0 and 1. -/
def fxExp (y : Nat) : Nat := expSum y 160 0 fxOne

/-- The sum of the terms t/k, t·z²/(k+2), … , n of them: the series of the inverse hyperbolic tangent. -/
def atanhSum (z2 : Nat) : Nat → Nat → Nat → Nat
  | 0, _, _ => 0
  | n + 1, k, t => t / k + atanhSum z2 n (k + 2) (fxMul t z2)

/-- The natural logarithm of (1 + z) ÷ (1 − z), for z at most 1/3. -/
def fxLnRatio (z : Nat) : Nat := 2 * atanhSum (fxMul z z) 220 1 z

/-- The natural logarithm of 2. -/
def fxLn2 : Nat := fxLnRatio (fxOne / 3)

/-- e to the power −y, for y at least 0. -/
def fxExpNeg (y : Nat) : Nat :=
  let k := y / fxLn2
  let r := y - k * fxLn2
  fxOne * fxOne / fxExp r / 2 ^ k

/-- The sum of the alternating terms t/k − t/(q·(k+2)) + … of the inverse tangent, n of them in pairs. -/
def atanSum (q : Nat) : Nat → Nat → Nat → Nat
  | 0, _, _ => 0
  | n + 1, k, t => t / k - t / q / (k + 2) + atanSum q n (k + 4) (t / q / q)

/-- The inverse tangent of 1/d. -/
def fxAtanInv (d : Nat) : Nat := atanSum (d * d) 80 1 (fxOne / d)

/-- π, by the formula of Machin. -/
def fxPi : Nat := 16 * fxAtanInv 5 - 4 * fxAtanInv 239

/-- The sum of the terms t, t·y/(k+2), t·y²/((k+2)(k+4)), … , n of them. -/
def oddSum (y : Nat) : Nat → Nat → Nat → Nat
  | 0, _, _ => 0
  | n + 1, k, t => t + oddSum y n (k + 2) (fxMul t y / (k + 2))

/-- The difference of the normal distribution function at x and at 0, for x between 0 and 16. -/
def fxPhi (x : Nat) : Nat :=
  let x2 := fxMul x x
  let root := isqrtBits (2 * fxPi * fxOne) (fxP + 2) 0
  fxMul (fxExpNeg (x2 / 2) * fxOne / root) (oddSum x2 1000 1 x)

/-! ### The functions -/

/-- A finite magnitude as a number of 640 places; every FP32 value is one exactly. -/
def fxOf (m : Nat) (e : Int) : Nat := if 0 ≤ e then m * 2 ^ e.toNat * fxOne else m * fxOne / 2 ^ (-e).toNat

/-- A result of 640 places cut off, with a sticky digit for what lies beyond. -/
def fxVal (neg : Bool) (q : Nat) : FVal := .fin neg (2 * q + 1) (-1 - (fxP : Int))

/-- 2 to the power of a finite value (07 R139). -/
def exp2Val (neg : Bool) (m : Nat) (e : Int) : FVal :=
  let x := fxOf m e
  let k : Int := if neg then -((x + fxOne - 1) / fxOne : Nat) else (x / fxOne : Nat)
  let f := if neg then (x + fxOne - 1) / fxOne * fxOne - x else x % fxOne
  .fin false (2 * fxExp (fxMul f fxLn2) + 1) (k - 1 - fxP)

/-- The logarithm to base 2 of a positive finite value. -/
def log2Val (m : Nat) (e : Int) : FVal :=
  let k := Nat.log2 m
  let a := m * fxOne / 2 ^ k
  let l := fxLnRatio ((a - fxOne) * fxOne / (a + fxOne)) * fxOne / fxLn2
  let v : Int := ((k : Int) + e) * fxOne + l
  if 0 ≤ v then fxVal false v.toNat else fxVal true (-v - 1).toNat

/-- The logistic function of a finite value. -/
def sigVal (neg : Bool) (m : Nat) (e : Int) : FVal :=
  let y := fxExpNeg (fxOf m e)
  fxVal false ((if neg then y else fxOne) * fxOne / (fxOne + y))

/-- The hyperbolic tangent of a finite value. -/
def tanhVal (neg : Bool) (m : Nat) (e : Int) : FVal :=
  let y := fxExpNeg (2 * fxOf m e)
  fxVal neg ((fxOne - y) * fxOne / (fxOne + y))

/-- A finite value times the normal distribution function of it. -/
def geluVal (neg : Bool) (m : Nat) (e : Int) : FVal :=
  let p := fxPhi (fxOf m e)
  .fin neg (2 * (m * (if neg then fxOne / 2 - p else fxOne / 2 + p)) + 1) (e - 1 - fxP)

/-- The reciprocal of a finite value, with a sticky digit. Of 2^127 and of 2^−127 or less the exact result is itself an
FP32 value, and the spec does not say which two values bracket it: here they are that value and its neighbour away
from zero (DESIGN CHOICE, log entry 104). -/
def rcpVal (neg : Bool) (m : Nat) (e : Int) : FVal := .fin neg (2 * (2 ^ 100 / m) + 1) (-101 - e)

/-- The reciprocal of the square root of a positive finite value, with a sticky digit. -/
def rsqVal (m : Nat) (e : Int) : FVal :=
  let (m, e) := if e % 2 = 0 then (m, e) else (2 * m, e - 1)
  .fin false (2 * isqrtBits (2 ^ 200 / m) 101 0 + 1) (-101 - e / 2)

/-- A special function of a finite value away from its exact points, with more places than FP32 has (07
R139). -/
def sfnFinite (fn : Nat) (neg : Bool) (m : Nat) (e : Int) : FVal :=
  match fn with
  | 0 => exp2Val neg m e
  | 1 => log2Val m e
  | 2 => rcpVal neg m e
  | 3 => rsqVal m e
  | 4 => sigVal neg m e
  | 5 => tanhVal neg m e
  | _ => geluVal neg m e

/-- A special function of an FP32 value (07 R139): the value at an exact point, else one of the two FP32
values that bracket the exact result, which of them is free (log entry 9), with NX. -/
def sfnValue (fn : Nat) (x : FVal) : FVal × Flags :=
  match sfnExact fn x, x with
  | some r, _ => r
  | none, .fin n m e =>
    let up := Config.specialUp fn (BitVec.ofNat 32 (fp32.round 0 x).1)
    let (c, f) := fp32.round (if up then 3 else 2) (sfnFinite fn n m e)
    (fp32.decode c, f ||| Flag.nx)
  | none, _ => (.nan false, 0)

end Sys2Proof.Machine
end

