-- ==== Sys2Proof/Machine/Streams.lean ====
section
/-!
DEFINITION. The meanings of the V and R words: element streams, special functions, chains,
permuting streams, descriptor words and the reduction tree (07 R125 to R154; 04 R57 to R70), and
the passing of a group (07 R134).
-/

namespace Sys2Proof.Machine

open Sys2Proof

/-! ### Exact arithmetic on elements -/

/-- Sum of two elements (07 R137). -/
def numAdd : Num → Num → Num × Flags
  | .i x, .i y => (.i (x + y), 0)
  | x, y => let (r, f) := x.toF.add y.toF; (.f r, f)

/-- Difference. -/
def numSub : Num → Num → Num × Flags
  | .i x, .i y => (.i (x - y), 0)
  | x, y => let (r, f) := x.toF.add y.toF.negate; (.f r, f)

/-- Product. -/
def numMul : Num → Num → Num × Flags
  | .i x, .i y => (.i (x * y), 0)
  | x, y => let (r, f) := x.toF.mul y.toF; (.f r, f)

/-- Product plus a third, exact. -/
def numFma : Num → Num → Num → Num × Flags
  | .i x, .i y, .i z => (.i (x * y + z), 0)
  | x, y, z => let (r, f) := x.toF.fma y.toF z.toF; (.f r, f)

/-- Minimum: floating as `FMIN`, integers by value. -/
def numMin : Num → Num → Num × Flags
  | .i x, .i y => (.i (if y < x then y else x), 0)
  | x, y => let (r, f) := x.toF.min y.toF; (.f r, f)

/-- Maximum. -/
def numMax : Num → Num → Num × Flags
  | .i x, .i y => (.i (if x < y then y else x), 0)
  | x, y => let (r, f) := x.toF.max y.toF; (.f r, f)

/-- The integer of an element. -/
def Num.toI : Num → Int
  | .i x => x
  | .f _ => 0

/-- `VCMP` conditions (07 R138): 0 eq, 1 ne, 2 lt, 3 le, 4 gt, 5 ge, 6 un, 7 ord; NV only for a
signalling NaN. -/
def numCmp (opt : Nat) (x y : Num) : Bool × Flags :=
  let o : Option Ordering :=
    match x, y with
    | .i a, .i b => some (compare a b)
    | a, b => a.toF.cmp b.toF
  let r :=
    match opt with
    | 0 => o == some .eq
    | 1 => o != some .eq
    | 2 => o == some .lt
    | 3 => o == some .lt || o == some .eq
    | 4 => o == some .gt
    | 5 => o == some .gt || o == some .eq
    | 6 => o.isNone
    | _ => o.isSome
  let sig := fun (n : Num) => match n with | .f v => v.isSig | .i _ => false
  (r, Flag.when (sig x || sig y) Flag.nv)

/-! ### Chains -/

/-- The operation bytes before the end of a chain word (07 R140, R141). -/
def chainOps (w : Word) : List Nat :=
  ((List.range 8).map (fun j => bitsOf w (8 * j) 8)).takeWhile (fun b => b != 0)

/-- Whether an operation byte is reserved (07 R140). -/
def chainReserved (b : Nat) : Bool :=
  let op := b % 16
  let opd := b / 16
  (op == 0 && opd != 0) || decide (9 ≤ opd) || (decide (7 ≤ op) && opd != 0)

/-- An operation of a chain that takes the operand b (07 R140). -/
def chainBinary (op : Nat) : Bool := decide (1 ≤ op) && decide (op ≤ 6)

/-- The operand of an operation byte: B(i), a constant, A(i), the saved value, old D(i). -/
def chainOperand (k : Nat) (bv av sv dv : FVal) : FVal :=
  match k with
  | 0 => bv
  | 1 => .fin false 0 0
  | 2 => .fin false 1 0
  | 3 => .fin true 1 0
  | 4 => .fin false 1 (-1)
  | 5 => .fin false 1 1
  | 6 => av
  | 7 => sv
  | _ => dv

/-- One operation of a chain (07 R140). -/
def chainOp (op : Nat) (v b : FVal) : FVal × Flags :=
  match op with
  | 1 => v.max b
  | 2 => v.mul b
  | 3 => v.add b
  | 4 => v.add b.negate
  | 5 => b.add v.negate
  | 6 => v.min b
  | 7 => (v.abs, 0)
  | 8 => (v.negate, 0)
  | 9 => sfnValue 4 v
  | 11 => sfnValue 0 v
  | 12 => sfnValue 2 v
  | 13 => sfnValue 5 v
  | 14 => sfnValue 3 v
  | 15 => sfnValue 1 v
  | _ => (v, 0)

/-- A chain over one element: the exact value to round into the destination, and the flags (07
R141). -/
def chainRun (av bv dv : FVal) : List Nat → FVal → FVal → Flags → FVal × Flags
  | [], v, _, f => (v, f)
  | b :: t, v, sv, f =>
    let (x, g) := chainOp (b % 16) v (chainOperand (b / 16) bv av sv dv)
    let sv := if b % 16 = 10 then v else sv
    match t with
    | [] => (x, f ||| g)
    | _ =>
      let (y, h) := toF32 x
      chainRun av bv dv t y sv (f ||| g ||| h)

/-! ### Element functions -/

/-- The sign operation on a NaN's code between identical formats (07 R138). -/
def nanSignOp (f : FFmt) (neg : Bool) (code : Nat) : Nat :=
  let top := 2 ^ (f.ebits + f.mbits)
  let mag := code % top
  if !f.sgn then code else if neg then (if code / top % 2 = 1 then mag else mag + top) else mag

/-- The code of element i of a VOP stream and its flags (07 R137, R138), from the codes of A, B
and old D. -/
def State.vopElem (s : State) (fn opt : Nat) (D : Region) (A B : Option Region) (i ka kb : Nat)
    (ca cb cd : Nat) : Nat × Flags :=
  let va := match A with | some r => s.valueAt r ka ca | none => (.i i, 0)
  let vb := match B with | some r => s.valueAt r kb cb | none => (.i 0, 0)
  let x := va.1
  let y := vb.1
  let fin := fun (mode : Nat) (r : Num × Flags) =>
    let (c, g) := s.convertAt D i mode r.1
    (c, va.2 ||| vb.2 ||| r.2 ||| g)
  let raw := fun (n : Int) => (codeOfInt D.fmt.width n, (0 : Flags))
  let sh := (y.toI % 64).toNat
  match fn with
  | 0 => fin 0 (numAdd x y)
  | 1 => fin 0 (numSub x y)
  | 2 => fin 0 (numMul x y)
  | 3 =>
    let (z, g) := s.valueAt D i cd
    let (r, f) := numFma x y z
    fin 0 (r, f ||| g)
  | 4 => fin 0 (numMin x y)
  | 5 => fin 0 (numMax x y)
  | 6 | 7 =>
    let same := (A.map (·.fmt)) == some D.fmt
    match x, D.fmt with
    | .f (.nan sg), .flt f =>
      -- the payload is the source code's, unless a scale entry of −128 makes the NaN (04 R58, R59)
      let scaled := (va.2 ||| (s.convertAt D i 0 (.f (.nan false))).2) &&& Flag.sn != 0
      if same && !scaled then (nanSignOp f (fn == 7) ca, 0) else fin 0 (.f (.nan sg), 0)
    | .f v, _ => fin 0 (.f (if fn = 6 then v.abs else v.negate), 0)
    | .i v, _ => fin 0 (.i (if fn = 6 then (v.natAbs : Int) else -v), 0)
  | 8 => raw (codeOfInt 65 x.toI &&& codeOfInt 65 y.toI : Nat)
  | 9 => raw (codeOfInt 65 x.toI ||| codeOfInt 65 y.toI : Nat)
  | 10 => raw (codeOfInt 65 x.toI ^^^ codeOfInt 65 y.toI : Nat)
  | 11 => raw (x.toI * 2 ^ sh)
  | 12 =>
    if D.fmt.isSigned then fin 0 (.i (x.toI / 2 ^ sh), 0)
    else fin 0 (.i (codeOfInt 65 x.toI / 2 ^ sh : Nat), 0)
  | 13 =>
    let (r, f) := numCmp opt x y
    fin 0 (.i (if r then 1 else 0), f)
  | 14 => (if y.toI != 0 then ca else cd, 0)
  | 15 => (ca, 0)
  | 16 => fin 0 (x, 0)
  | 17 => fin opt (x, 0)
  | _ => fin 0 (x, 0)

/-! ### Overlap -/

/-- The storage of element i: bytes with a first bit and a width; an accumulator element stands
above all memory. -/
def Region.cells (r : Region) (i : Nat) : List (Nat × Nat × Nat) :=
  let w := r.fmt.width
  if r.kind = 2 then [(2 ^ 70 + r.tile.toNat * 4096 + (r.accIdx i).toNat, 0, 8)]
  else if r.kind = 1 then (List.range w).map (fun j => (r.at i + 8 * j + i % 64 / 8, i % 8, 1))
  else if w ≤ 4 then [(r.at i, if (i * r.stride) % 2 = 0 then 0 else 4, 4)]
  else (List.range r.span).map (fun j => (r.at i + j, 0, 8))

/-- Whether two elements share storage. -/
def Region.shares (r : Region) (i : Nat) (q : Region) (j : Nat) : Bool :=
  (r.cells i).any (fun a => (q.cells j).any (fun b =>
    a.1 == b.1 && decide (a.2.1 < b.2.1 + b.2.2) && decide (b.2.1 < a.2.1 + a.2.2)))

/-- Two regions that place equal indices alike and distinct indices apart. -/
def Region.sameLayout (r q : Region) : Bool :=
  r.kind == q.kind && r.base == q.base && r.loc == q.loc && r.stride == q.stride && r.stride != 0
    && r.fmt.width == q.fmt.width

/-- Whether a broadcast element leaves undefined values (07 R133): it shares storage with a destination
element other than the first, with which it is read before it is overwritten. -/
def broadcastUndefined (D : Region) (n : Nat) (r : Region) : Bool :=
  r.meets 1 D n && (List.range n).any (fun j => j != 0 && r.shares 0 D j)

/-- Whether the source element k of a region leaves an undefined value (07 R133): it shares
storage with a destination element other than k; one that shares storage with element k alone is read before that is
overwritten. -/
def overlapUndefined (D : Region) (n : Nat) (r : Region) (k : Nat) : Bool :=
  !r.sameLayout D && r.meets r.count D n && (List.range n).any (fun j => j != k && r.shares k D j)

/-! ### Passing a group -/

/-- What a group accumulates while its elements are read. -/
structure GroupWork where
  s : State
  out : List OutElem := []
  flags : Flags := 0
  idx : Nat := 0
  part : Option Num := none
  poison : Bool := false
  lanes : List Num := []

/-- Whether one element of a source serves every index: a source of count 1, or that of `VFILL` (07 R137,
R138). -/
def StreamOp.broadcasts (op : StreamOp) (r : Region) : Bool :=
  r.count == 1 || (match op with | .vop 16 _ => true | _ => false)

/-- The index a source region is read at: 0 for a broadcast source (07 R137). -/
def srcIdx (r : Option Region) (i : Nat) : Nat :=
  match r with
  | some q => if q.count = 1 then 0 else i
  | none => i

/-- Read an element of an optional source. -/
def State.readOpt (s : State) (r : Option Region) (i : Nat) : (Nat × Bool) × State :=
  match r with
  | some q => s.readElem q i
  | none => ((0, false), s)

/-- Read an element of a source, or take it as it was read before the stream overwrote it (07 R133). -/
def State.readSrc (s : State) (kept : Option (Nat × Bool)) (saved : List (Nat × Nat × Bool)) (r : Option Region)
    (i : Nat) : (Nat × Bool) × State :=
  match kept.or ((saved.find? (fun e => e.1 == i)).map (·.2)) with
  | some v => (v, s)
  | none => s.readOpt r i

/-- Add a result: undefined where a source overlaps, poisoned where a source or its own scale index is
(07 R133, R135). -/
def GroupWork.emit (g : GroupWork) (D : Region) (i code : Nat) (poison undef : Bool) (f : Flags) :
    GroupWork :=
  let (code, s) : Nat × State :=
    if undef then let (x, s) := g.s.draw; (x.toNat % 2 ^ D.fmt.width, s) else (code, g.s)
  let poison := poison || s.scalePoison D i
  let acc := D.kind == 2 && poison
  let code := if acc then D.fmt.poisonCode else code
  { g with s := s, out := g.out ++ [⟨i, code, poison && D.kind != 2⟩]
           flags := g.flags ||| f ||| Flag.when acc Flag.nv }

/-- Whether the operation reads the old destination: `VFMA`, `VSEL`, chain operand 8. -/
def StreamOp.readsDst : StreamOp → Bool
  | .vop fn _ => fn == 3 || fn == 14
  | .chain w => (chainOps w).any (fun b => b / 16 == 8)
  | _ => false

/-- One element of a pass of a stream. An element of `VSEL` is poisoned by the source it does not select too,
as that of `SEL` is (log entry 77). -/
def Stream.elem (t : Stream) (g : GroupWork) (i : Nat) : GroupWork :=
  let und := fun (D : Region) (r : Option Region) (k : Nat) =>
    let n := match t.op with | .perm 3 => D.count | _ => t.n
    match r with
    | some q => if t.op.broadcasts q then broadcastUndefined D n q else overlapUndefined D n q k
    | none => false
  match t.dst with
  | none =>
    -- the reduction tree
    match t.a with
    | none => g
    | some A =>
      let ((c, p), s) := g.s.readElem A i
      let (v, f) := s.valueAt A i c
      let (v, h) : Num × Flags :=
        match v with
        | .f x => if A.code = 1 then (.f x, 0) else let (y, h) := toF32 x; (.f y, h)
        | .i x => (.i x, 0)
      { g with s := s, lanes := g.lanes ++ [v], flags := g.flags ||| f ||| h, poison := g.poison || p }
  | some D =>
    match t.op with
    | .vop fn opt =>
      let ka := if fn = 16 then 0 else srcIdx t.a i
      let kb := srcIdx t.b i
      let ((ca, pa), s) := g.s.readSrc t.keepA t.savedA t.a ka
      let ((cb, pb), s) := s.readSrc t.keepB t.savedB t.b kb
      let ((cd, pd), s) := if t.op.readsDst then s.readElem D i else ((0, false), s)
      let (c, f) := s.vopElem fn opt D t.a t.b i ka kb ca cb cd
      GroupWork.emit { g with s := s } D i c (pa || pb || pd) (und D t.a ka || und D t.b kb) f
    | .vsfn fn =>
      let ka := srcIdx t.a i
      let ((ca, pa), s) := g.s.readSrc t.keepA t.savedA t.a ka
      let (v, f0) := match t.a with | some A => s.valueAt A ka ca | none => (.i 0, 0)
      let (x, f1) := toF32 v.toF
      let (y, f2) := sfnValue fn x
      let (c, f3) := s.convertAt D i 0 (.f y)
      GroupWork.emit { g with s := s } D i c pa (und D t.a ka) (f0 ||| f1 ||| f2 ||| f3)
    | .chain w =>
      let ka := srcIdx t.a i
      let kb := srcIdx t.b i
      let ((ca, pa), s) := g.s.readSrc t.keepA t.savedA t.a ka
      let ((cb, pb), s) := s.readSrc t.keepB t.savedB t.b kb
      let ((cd, pd), s) := if t.op.readsDst then s.readElem D i else ((0, false), s)
      let num := fun (r : Option Region) (k c : Nat) =>
        match r with
        | some q => let (v, f) := s.valueAt q k c; let (x, h) := toF32 v.toF; (x, f ||| h)
        | none => (FVal.fin false 0 0, 0)
      let (av, f1) := num t.a ka ca
      let (bv, f2) := num t.b kb cb
      let (dv, f3) := if t.op.readsDst then num (some D) i cd else (FVal.fin false 0 0, 0)
      let (x, f4) := chainRun av bv dv (chainOps w) av av 0
      let (c, f5) := s.convertAt D i 0 (.f x)
      GroupWork.emit { g with s := s } D i c (pa || pb || pd) (und D t.a ka || und D t.b kb)
        (f1 ||| f2 ||| f3 ||| f4 ||| f5)
    | .perm fn =>
      let kb := srcIdx t.b i
      let ((cb, pb), s) := g.s.readSrc t.keepB t.savedB t.b kb
      let mv : Int := (match t.b with | some q => (q.fmt.value cb).toI | none => 0)
      let cnt := (match t.a with | some q => q.count | none => 0)
      let g := { g with s := s }
      match fn with
      | 0 =>
        if mv != 0 || pb then
          let ka := srcIdx t.a i
          let ((ca, pa), s) := s.readSrc t.keepA t.savedA t.a ka
          { GroupWork.emit { g with s := s } D g.idx ca (pa || pb) (und D t.a ka || und D t.b kb) 0 with
            idx := g.idx + 1 }
        else g
      | 1 =>
        if (mv != 0 || pb) && decide (g.idx < cnt) then
          let ((ca, pa), s) := s.readSrc t.keepA t.savedA t.a g.idx
          { GroupWork.emit { g with s := s } D i ca (pa || pb) (und D t.a g.idx || und D t.b kb) 0 with
            idx := g.idx + 1 }
        else g
      | 2 =>
        if pb then GroupWork.emit g D i 0 true true 0
        else if 0 ≤ mv ∧ mv < cnt then
          let ((ca, pa), s) := s.readSrc t.keepA t.savedA t.a mv.toNat
          GroupWork.emit { g with s := s } D i ca pa (und D t.a mv.toNat || und D t.b kb) 0
        else GroupWork.emit g D i 0 false (und D t.b kb) 0
      | 3 =>
        if pb then { g with flags := g.flags ||| Flag.nv }
        else if 0 ≤ mv ∧ mv < D.count then
          let ka := srcIdx t.a i
          let ((ca, pa), s) := s.readSrc t.keepA t.savedA t.a ka
          GroupWork.emit { g with s := s } D mv.toNat ca pa (und D t.a ka || und D t.b kb) 0
        else g
      | _ =>
        -- VTRN: element r × 64 + c goes to c × m + r
        let m := t.n / 64
        let ((ca, pa), s) := s.readSrc t.keepA t.savedA t.a i
        let u := match t.a with
          | some q => overlapUndefined D t.n q i || q.shares i D i
          | none => false
        GroupWork.emit { g with s := s } D (i % 64 * m + i / 64) ca pa u 0
    | .scan op =>
      let ka := srcIdx t.a i
      let ((ca, pa), s) := g.s.readSrc t.keepA t.savedA t.a ka
      let (v, f0) := match t.a with | some A => s.valueAt A ka ca | none => (.i 0, 0)
      let wide := (t.a.map (·.code)) == some 1
      let rnd := fun (x : Num) =>
        match x with
        | .i n => (Num.i n, (0 : Flags))
        | .f y =>
          let f := if wide then fp64 else fp32
          let (c, h) := f.round 0 y
          (.f (f.decode c), h)
      let (v, f1) := rnd v
      let (p, f2) : Num × Flags :=
        match g.part with
        | none => (v, 0)
        | some q =>
          let (x, f) := if op = 0 then numAdd q v else if op = 1 then numMin q v else numMax q v
          let (y, h) := rnd x
          (y, f ||| h)
      let (p, s) : Num × State :=
        match p with
        | .i n =>
          if -(2 ^ 64 : Int) ≤ n ∧ n < 2 ^ 64 then (p, s)
          else let (x, s) := s.draw; (.i x.toInt, s)
        | x => (x, s)
      let (c, f3) := s.convertAt D i 0 p
      let pz := g.poison || pa
      { GroupWork.emit { g with s := s } D i c pz (und D t.a ka) (f0 ||| f1 ||| f2 ||| f3) with
        part := some p, poison := pz }
    | .latchOut _ l =>
      let v : Num :=
        match l.kind with
        | .fp32 => .f (fp32.decode l.val.toNat)
        | .fp64 => .f (fp64.decode l.val.toNat)
        | .int64 => .i l.val.toInt
        | .n64 => .i l.val.toNat
      let (c, f) := g.s.convertAt D i 0 v
      g.emit D i c l.poison false f
    | .red _ _ => g

/-! ### The reduction tree -/

/-- `RMIN` and `RMAX` of two floating values: the canonical NaN if either is NaN (04 R70). -/
def redPick (max : Bool) (x y : FVal) : FVal × Flags :=
  if x.isNaN || y.isNaN then (.nan false, Flag.when (x.isSig || y.isSig) Flag.nv)
  else if max then x.max y else x.min y

/-- A node of the tree on floating values, rounded to the latch format (04 R70). -/
def redNode (fn : Nat) (f : FFmt) (x y : FVal) : FVal × Flags :=
  let (v, g) := if fn = 0 then x.add y else redPick (fn == 2) x y
  let (c, h) := f.round 0 v
  (f.decode c, g ||| h)

/-- One level of the tree. -/
def redLevel (fn : Nat) (f : FFmt) : List FVal → List FVal × Flags
  | x :: y :: t =>
    let (v, g) := redNode fn f x y
    let (l, h) := redLevel fn f t
    (v :: l, g ||| h)
  | l => (l, 0)

/-- k levels of the tree. -/
def redTree (fn : Nat) (f : FFmt) : Nat → List FVal → List FVal × Flags
  | 0, l => (l, 0)
  | k + 1, l =>
    let (l, g) := redLevel fn f l
    let (l, h) := redTree fn f k l
    (l, g ||| h)

/-- The floating identity of a reduction (04 R70). -/
def redIdentity (fn : Nat) : FVal :=
  match fn with
  | 0 => .fin true 0 0
  | 1 => .inf false
  | _ => .inf true

/-- The exact value of a latch. -/
def Latch.num (l : Latch) : Num :=
  match l.kind with
  | .fp32 => .f (fp32.decode (l.val.toNat % 2 ^ 32))
  | .fp64 => .f (fp64.decode l.val.toNat)
  | .int64 => .i l.val.toInt
  | .n64 => .i l.val.toNat

/-- The group's lanes summed into the partial (04 R70). -/
def redGroup (fn : Nat) (k : LKind) (part : Num) (lanes : List Num) : Num × Flags :=
  match part with
  | .f p =>
    let f := if k = .fp64 then fp64 else fp32
    let l := lanes.map Num.toF ++ List.replicate (64 - lanes.length) (redIdentity fn)
    let (t, g) := redTree fn f 6 l
    let (v, h) := redNode fn f p (t.headD (redIdentity fn))
    (.f v, g ||| h)
  | .i p =>
    let l := lanes.map Num.toI
    let r : Int :=
      if fn = 0 then p + l.foldl (· + ·) 0
      else if fn = 1 then l.foldl (fun a b => if b < a then b else a) p
      else l.foldl (fun a b => if a < b then b else a) p
    let (v, f) := clampInt (intLo (k == .int64) 64) (intHi (k == .int64) 64) r
    (.i v, f)

/-- The 64-bit value of a latch of a kind (07 R152, R153). -/
def latchWord (k : LKind) (n : Num) : Word :=
  match k with
  | .fp32 => mkWord (fp32.round 0 n.toF).1
  | .fp64 => mkWord (fp64.round 0 n.toF).1
  | _ => BitVec.ofInt 64 n.toI

/-! ### The event -/

/-- The element indices of the stream's next pass: those of its group, or the next of them alone where tags act
once per element access (07 R132). -/
def Stream.indices (t : Stream) : List Nat :=
  match t.op with
  | .perm 5 => if t.group < t.groups / 2 then [] else
      (List.range 64).map (fun c => 64 * (t.group - t.groups / 2) + c)
  | _ =>
    let l := (List.range (Nat.min 64 (t.n - 64 * t.group))).map (fun k => 64 * t.group + k)
    if t.single then (l.drop t.pos).take 1 else l

/-- The mask or index element that goes with index i: its value and whether it is poisoned. -/
def Stream.control (t : Stream) (s : State) (i : Nat) : Int × Bool :=
  match t.b with
  | some b =>
    let x := (s.readSrc t.keepB t.savedB t.b (srcIdx t.b i)).1
    ((b.fmt.value x.1).toI, x.2)
  | none => (0, false)

/-- Whether a mask element selects: a poisoned one counts as set (07 R144, R145). -/
def Stream.selects (t : Stream) (s : State) (i : Nat) : Bool :=
  let m := t.control s i
  m.1 != 0 || m.2

/-- The elements of the first source that the next pass reads (07 R132, R144 to R146). -/
def Stream.readsA (t : Stream) (s : State) (A : Region) : List Nat :=
  let is := t.indices
  if t.keepA.isSome then []
  else
    match t.op with
    | .perm 0 => (is.filter (t.selects s)).map (srcIdx t.a)
    | .perm 1 =>
      (List.range (Nat.min (is.filter (t.selects s)).length (A.count - t.idx))).map (t.idx + ·)
    | .perm 2 =>
      is.filterMap (fun i =>
        let x := t.control s i
        if !x.2 && decide (0 ≤ x.1) && decide (x.1 < A.count) then some x.1.toNat else none)
    | .perm 3 =>
      (is.filter (fun i =>
        let x := t.control s i
        !x.2 && decide (0 ≤ x.1) && decide (x.1 < ((t.dst.map (·.count)).getD 0 : Nat)))).map (srcIdx t.a)
    | .vop 16 _ => if is.isEmpty then [] else [0]
    | _ => is.map (srcIdx t.a)

/-- The elements of the second source that the next pass reads. -/
def Stream.readsB (t : Stream) : List Nat := if t.keepB.isSome then [] else t.indices.map (srcIdx t.b)

/-- The sources of the next pass with the words read: the second source first, since the words of the
first may hang on it. -/
def Stream.sources (t : Stream) (s : State) : List (Region × List Nat) :=
  (match t.b with | some r => [(r, wordSet (t.readsB.flatMap r.words))] | none => [])
  ++ (match t.a with | some r => [(r, wordSet ((t.readsA s r).flatMap r.words))] | none => [])

/-- The locations of the scale indices that the next pass reads. -/
def Stream.scaleBytes (t : Stream) (s : State) : List Nat :=
  (match t.a with | some r => (t.readsA s r).filterMap r.scaleByte | none => [])
  ++ (match t.b with | some r => t.readsB.filterMap r.scaleByte | none => [])
  ++ (match t.dst with | some r => t.indices.filterMap r.scaleByte | none => [])

/-- The first element of a broadcast source that its stream overwrites, kept from the first pass on (07
R133). -/
def Stream.keepOf (t : Stream) (s : State) (kept : Option (Nat × Bool)) (r : Option Region) :
    Option (Nat × Bool) :=
  match kept, r, t.dst with
  | none, some q, some D =>
    if t.group == 0 && t.op.broadcasts q && q.shares 0 D 0 then some (s.readElem q 0).1 else none
  | k, _, _ => k

/-- A permuting stream is about to write some elements: the source elements that share storage with these and have
not been kept are kept as they stand (07 R133). -/
def State.saveSrc (s : State) (r : Option Region) (D : Region) (saved : List (Nat × Nat × Bool)) (is : List Nat) :
    List (Nat × Nat × Bool) × State :=
  match r with
  | none => (saved, s)
  | some q =>
    (is.filter (fun k => decide (k < q.count) && q.shares k D k)).foldl
      (fun (x : List (Nat × Nat × Bool) × State) k =>
        if x.1.any (fun e => e.1 == k) then x
        else let (v, s) := x.2.readElem q k; ((k, v) :: x.1, s)) (saved, s)

/-- What a permuting stream keeps of its sources before it writes some elements. -/
def Stream.saves (t : Stream) (s : State) (D : Region) (is : List Nat) : Stream × State :=
  match t.op with
  | .perm _ =>
    let (a, s) := s.saveSrc t.a D t.savedA is
    let (b, s) := s.saveSrc t.b D t.savedB is
    ({ t with savedA := a, savedB := b }, s)
  | _ => (t, s)

/-- Replace a stream of the running context. -/
def State.setStream (s : State) (t : Stream) : State :=
  { s with cx := { s.cx with streams := s.cx.streams.map (fun u => if u.id == t.id then t else u) } }

/-- The count that a `VCOMP` stream leaves is known: the result in flight that stands for it has landed (07
R134, R144, R151). -/
def countKnown (id d n icyc : Nat) (l : List Pend) : List Pend :=
  l.map (fun p => if p.stream == some id then
    { p with w := .count (BitVec.ofNat 5 d) (some n), land := icyc - p.issued } else p)

/-- The stream lands (07 R134): its flags, its descriptor update, its latch result. -/
def State.landStream (s : State) (t : Stream) : State :=
  let s := { s with cx := { s.cx with streams := s.cx.streams.filter (·.id != t.id)
                                      flags := s.cx.flags ||| t.flags } }
  match t.op, t.dst with
  | .perm 0, some D => { s with cx := { s.cx with pend := countKnown t.id D.d t.idx s.cx.icyc s.cx.pend } }
  | .red _ ps, _ =>
    let l := s.cx.latches[ps.toNat]'ps.isLt
    match t.part with
    | some p => s.applyWrite (.latch ps { l with val := latchWord l.kind p, poison := l.poison || t.poison })
    | none => s
  | _, _ => s

/-- A stream meets the tags of the source words of its next pass, the second source first, since the words of the
first may hang on it (07 R132); whether it has met them all. A word of both acts once; it is emptied if either source
takes it (log entry 125). -/
def State.sourceTags (s : State) (t : Stream) : State × Stream × Bool :=
  let meet := fun (s : State) (t : Stream) (r : Option Region) (is : List Nat) =>
    match r with
    | none => (s, t, true)
    | some q =>
      let fresh := (wordSet (is.flatMap q.words)).filter (fun w => !t.seen.any (fun e => e.1 == w))
      let (s, got, ok) := s.meetFull s.cx.uid t.id q.tag fresh
      (s, { t with seen := t.seen ++ got }, ok)
  let (s, t, ok) := meet s t t.b t.readsB
  if !ok then (s, t, false)
  else
    let is := match t.a with | some A => t.readsA (s.seenView t.seen) A | none => []
    let (s, t, ok) := meet s t t.a is
    match t.a, t.b with
    | some A, some B =>
      if ok && A.tag == .take && B.tag == .wait then
        (s.tagsAct .take false ((wordSet (is.flatMap A.words)).filter (fun w =>
          (t.readsB.flatMap B.words).contains w && !s.freedFor t.id w)), t, ok)
      else (s, t, ok)
    | _, _ => (s, t, ok)

/-- The read half of a pass: sources are read, results are computed (07 R133); where they are read one by
one, the results are held until the group is read. -/
def State.readPass (s : State) (t : Stream) : State × Stream :=
  let v := s.seenView t.seen
  let src := t.sources v
  let keepA := t.keepOf v t.keepA t.a
  let keepB := t.keepOf v t.keepB t.b
  let g := t.indices.foldl t.elem
    { s := v, idx := t.idx, part := t.part, poison := t.poison, flags := t.flags }
  let s := { g.s with mem := s.mem, marks := s.marks }
  let lost := src.any (fun e => e.2.any (s.freedFor t.id))
  let t := { t with seen := [] }
  match t.op with
  | .red fn ps =>
    let l := s.cx.latches[ps.toNat]'ps.isLt
    let (v, f) := redGroup fn l.kind (t.part.getD l.num) g.lanes
    (s, { t with part := some v, flags := g.flags ||| f, poison := g.poison || lost, out := some [] })
  | _ =>
    let out := t.held ++ (if lost then g.out.map (fun e => { e with poison := true }) else g.out)
    let t := { t with idx := g.idx, part := g.part, flags := g.flags, poison := g.poison
                      keepA := keepA, keepB := keepB }
    (s, if t.single && decide (64 * t.group + t.pos + 1 < Nat.min t.n (64 * t.group + 64)) then
          { t with pos := t.pos + 1, held := out }
        else { t with pos := 0, held := [], out := some out })

/-- The destination words of some results that their stream has not written yet. -/
def Stream.freshWords (t : Stream) (D : Region) (out : List OutElem) : List Nat :=
  (wordSet (out.flatMap (fun e => D.words e.i))).filter (fun w => !t.acted.contains w)

/-- The write half of a pass: results are written in ascending order to the words of a list, all that there are or
those whose tags allow it, with their tag actions (07 R132, R133, R135); what they write in a partition that was
freed is dropped (06 R99). -/
def State.writePass (s : State) (t : Stream) (D : Region) (out : List OutElem) (go : List Nat) (all : Bool) :
    State × Stream :=
  let out := out.filter (fun e => !(D.words e.i).any (s.freedFor t.id))
  let (t, s) := t.saves s D (out.map (·.i))
  let u := s.onlyWords (out.foldl (fun (u : State) e => u.putElem D e.i e.code e.poison) s) go all
  let u := u.wrote s D.actor ((out.flatMap (fun e => D.bytesAt e.i)).filter (fun l => all || go.contains (l / 8)))
  (u.tagsAct D.tag true (go.filter (fun w => !s.freedFor t.id w)), t)

/-- The marks that the lines written by a group lose, once it is written whole (06 R102, 07 R135). -/
def State.clearPass (s : State) (t : Stream) (D : Region) (out : List OutElem) : State × Stream :=
  let out := out.filter (fun e => !(D.words e.i).any (s.freedFor t.id))
  let cover := (D.covers (out.map (·.i))).foldl (fun l x => coverAdd x l) t.cover
  let bad := t.bad ++ (out.filter (·.poison)).flatMap (fun e => D.linesOf e.i)
  (s.clearWhole cover bad, { t with cover := cover.filter (fun e => !coverWhole e), bad := bad })

/-- A pass is over: the next group, or the landing with the last; where tags act once per element access, the next
element. -/
def State.passEnd (s : State) (t : Stream) (rest : List OutElem) : State :=
  let s := s.unparkAll t.id
  if !rest.isEmpty then s.setStream { t with out := some rest, acted := [] }
  else
    let t := { t with group := t.group + 1, out := none, acted := [] }
    if t.groups ≤ t.group then s.landStream t else s.setStream t

/-- The results of a group are written, at each word once its tag allows (07 R132). -/
def State.writeGroup (s : State) (t : Stream) (results : List OutElem) : State :=
  let (out, rest) := if t.single then results.splitAt 1 else (results, [])
  match t.dst with
  | none => s.passEnd t rest
  | some D =>
    let (go, stay) := s.splitWords t.id D.tag true (t.freshWords D out)
    let all := stay.isEmpty && t.acted.isEmpty
    let (u, t) := s.writePass t D out go all
    let t := { t with acted := t.acted ++ go }
    if stay.isEmpty then
      let (u, t) := u.clearPass t D out
      u.passEnd t rest
    else ((u.unpark t.id go).setStream t).parkAll s.cx.uid t.id stay false

/-- STREAM_GROUP_PASS (07 R132 to R134): a stream whose earlier operations have performed reads
the next group once the tags of its words and the weight store's refresh window (10 R195) allow,
and writes it once the tags of its destination do; with its last group it lands. A stream that must wait parks at the
words (06 R109). Where tags act once per element access, each pass reads or writes one element (07 R132; log entry
33). -/
def State.groupPass (s : State) (id : Nat) : State :=
  match s.cx.streams.find? (·.id == id) with
  | none => s
  | some t =>
    if !s.live || !s.depsDone t.deps then s
    else
      let v := s.seenView t.seen
      if t.out.isNone && ((t.sources v).any (fun e => e.2.any (fun w => s.wsBlocked (8 * w)))
          || (t.scaleBytes v).any s.wsBlocked) then
        s.wsNote
      else
        match t.out with
        | some out => s.writeGroup t out
        | none =>
          match s.sourceTags t with
          | (s, t, false) => s.setStream t
          | (s, t, true) =>
            let (s, t) := (s.unparkAll id).readPass t
            match t.out with
            | none => s.setStream t
            | some out => s.writeGroup t out

/-- The meaning of STREAM_GROUP_PASS. -/
def execStreamGroupPass (id : Nat) (s : State) : Out := .next (s.groupPass id)

/-! ### Issue of a stream -/

/-- A stream word before it issues. -/
structure StreamReq where
  vpipe : Bool := true
  op : State → StreamOp
  n : State → Nat
  dst : Option DReg := none
  a : Option DReg := none
  b : Option DReg := none
  pred : Option (BitVec 3) := none
  lat : Nat
  uses : State → List Use
  rules : State → Bool
  wait : State → Bool := fun _ => false

/-- The classes of a stream's accesses. -/
def Stream.classes (t : Stream) : List Nat :=
  [t.dst, t.a, t.b].filterMap (fun r => r.map (·.cls))

/-- The regions of a stream with how many of their elements it may touch. -/
def Stream.regions (t : Stream) : List Region := [t.dst, t.a, t.b].filterMap (fun r => r)

/-- The latch that a stream of the R pipe names. -/
def StreamOp.latch : StreamOp → Option (BitVec 2)
  | .red _ ps | .latchOut ps _ => some ps
  | _ => none

/-- The earlier accesses and streams of the context that the accesses of a stream or of a shuttle command follow (07
R133, R154; 06 R107; 05 R82; 08 R175; 18 R292): same class, same word, an earlier stream on its latch. An A word of
the same bundle that waits for its translation is among them. -/
def State.earlierOps (s : State) (t : Stream) : List Nat :=
  let cls := t.classes
  (s.cx.accs.filter (fun a => cls.contains a.cls || (s.accWords a).any t.touches)).map (·.id)
  ++ (s.replayAcc.filter (fun e => cls.contains e.1.cls || e.2.any t.touches)).map (·.1.id)
  ++ (s.cx.streams.filter (fun u => u.classes.any cls.contains
      || u.regions.any (fun r => t.regions.any (fun q => r.meets r.count q q.count))
      || (u.op.latch.isSome && u.op.latch == t.op.latch))).map (·.id)
  ++ (s.core.lines.filter (fun l => l.owner == s.cx.uid &&
      (cls.contains l.cls || (s.lineWords l).any t.touches))).flatMap (·.ids)
  ++ (s.fab.pkts.filter (fun p => p.owner == s.cx.uid &&
      (cls.contains p.cls || (s.packetWords p).any t.touches))).flatMap (·.ids)
  ++ s.cx.capDeps

/-- What a stream waits for: those, and what a standing fence over its class waits for (06 R123). -/
def State.streamDeps (s : State) (t : Stream) : List Nat :=
  s.earlierOps t ++ (s.cx.fences.filter (fun f => t.classes.any f.mask.getLsbD)).flatMap (·.deps)

/-- Whether a stream moves codes, so that it uses no scales (07 R138, R143). -/
def StreamOp.codes : StreamOp → Bool
  | .vop 14 _ | .vop 15 _ | .perm _ => true
  | _ => false

/-- The stream a word enqueues; an `RDRN` writes one element of its region. `VTRN` passes its elements twice:
a first m groups only pass, and then each row of 64 is read and written as one group, in ascending order of
rows (log entry 76). -/
def StreamReq.build (q : StreamReq) (s : State) (id : Nat) : Stream :=
  let op := q.op s
  let n := q.n s
  let plain := fun (r : Region) => if op.codes then { r with scales := none } else r
  let a := (q.a.map s.regionOf).map plain
  let b := q.b.map s.regionOf
  let dst := (q.dst.map s.regionOf).map (fun r =>
    match op with | .latchOut _ _ => { r with count := 1 } | _ => plain r)
  let tagged := [dst, a, b].any (fun r => match r with | some r => r.tag != .keep | none => false)
  let single := tagged && (match op with | .perm 2 | .perm 3 => true | _ => false)
  let g :=
    match op with
    | .perm 5 => 2 * (n / 64)
    | .latchOut _ _ => 0
    | _ => groupsOf n
  let passes := match op with | .perm 5 => g | _ => groupsOf n
  { id := id, vpipe := q.vpipe, op := op, n := n, dst := dst, a := a, b := b, issued := s.cx.icyc
    lat := q.lat, groups := passes, left := g, single := single }

/-- Whether the queue of the V pipe or of the R pipe holds four streams, so that no word of that pipe
issues (03 R26, 07 R125). -/
def State.queueFull (s : State) (vpipe : Bool) : Bool :=
  decide (4 ≤ (s.cx.streams.filter (·.vpipe == vpipe)).length)

/-- A stream enters its queue; that of `VCOMP` sends a count on its way (07 R144, R151). -/
def State.enqueueStream (s : State) (q : StreamReq) : State :=
  let (id, s) := s.newId
  let t := q.build s id
  let t := { t with deps := s.streamDeps t }
  let s := { s with cx := { s.cx with streams := s.cx.streams ++ [t] } }
  match t.op, q.dst with
  | .perm 0, some d =>
    { s with cx := { s.cx with
      pend := s.cx.pend ++ [{ w := .count d none, issued := s.cx.icyc, bound := t.lat + t.left
                              land := t.lat + t.left, stream := some t.id }] } }
  | _, _ => s

/-- A stream word (07 R125, R130, R131): ILLOP checks, the queue of four, the predicate's POISON,
ADDR, PERM, ACCBUSY; a false predicate or a length of 0 touches nothing. -/
def streamWord (q : StreamReq) : WordSpec where
  illop := fun s => s.usesIllop (q.uses s) || !q.rules s
  stall := fun s _ _ =>
    q.wait s || s.queueFull q.vpipe
  check := fun s _ => firstOf [
    match q.pred with
    | some k => if (s.cx.preg k).poison then some (s.poisonTrap k.toNat true) else none
    | none => none,
    s.usesTrap (q.uses s)]
  effect := fun s _ =>
    let on := match q.pred with | some k => (s.cx.preg k).val | none => true
    if !on then s
    else if q.n s = 0 then
      match q.op s, q.dst with
      | .perm 0, some dd => s.push (.count dd (some 0)) q.lat
      | _, _ => s
    else s.enqueueStream q

/-- The count of a descriptor now. -/
def State.countOf (s : State) (d : DReg) : Nat := (s.cx.desc d).count

/-- Whether a descriptor's format is floating. -/
def State.isFloat (s : State) (d : DReg) : Bool := (s.fmtOf (s.cx.desc d).code).isFloat

/-- A source's length rule: count 1, or at least n (07 R137). -/
def State.lenOk (s : State) (d : DReg) (n : Nat) : Bool :=
  s.countOf d == 1 || decide (n ≤ s.countOf d)

/-- The elements of a source that a length of n uses. -/
def State.usedOf (s : State) (d : DReg) (n : Nat) : Nat := if s.countOf d = 1 then Nat.min 1 n else n

/-- The form rule of a VOP row (07 R137, R138). -/
def State.vopForm (s : State) (fn : Nat) (dd da db : DReg) : Bool :=
  let fd := s.isFloat dd
  let fa := s.isFloat da
  let fb := s.isFloat db
  let cd := (s.cx.desc dd).code
  let ca := (s.cx.desc da).code
  match fn with
  | 0 | 1 | 2 | 3 | 4 | 5 => fd == fa && fa == fb
  | 6 | 7 => fd == fa
  | 8 | 9 | 10 | 11 | 12 => !fd && !fa && !fb
  | 13 => !fd && fa == fb
  | 14 => cd == ca && !fb
  | 15 => cd == ca
  | _ => true

/-- The bound of a VOP word without its groups: 6, `VCVT` 8 (03 R28). -/
def vopLat (fn : Nat) : Nat := if fn = 17 then 8 else 6

/-- A VOP word of two sources (07 R137, R138). -/
def vop2 (fn : Nat) (dd da db : DReg) (opt : BitVec 3) (predicated : Bool) : WordSpec :=
  streamWord
    { op := fun _ => .vop fn opt.toNat
      n := fun s => s.countOf dd
      dst := some dd, a := some da, b := some db
      pred := if predicated then some opt else none
      lat := vopLat fn
      uses := fun s =>
        let n := s.countOf dd
        [.of dd .dst n, .of da .src (s.usedOf da n), .of db .src (s.usedOf db n)]
      rules := fun s =>
        let n := s.countOf dd
        s.vopForm fn dd da db && s.lenOk da n && s.lenOk db n }

/-- A VOP word of one source (07 R137, R138). -/
def vop1 (fn : Nat) (dd da : DReg) (opt : BitVec 3) (predicated : Bool) : WordSpec :=
  streamWord
    { op := fun _ => .vop fn opt.toNat
      n := fun s => s.countOf dd
      dst := some dd, a := some da
      pred := if predicated then some opt else none
      lat := vopLat fn
      uses := fun s =>
        let n := s.countOf dd
        [{ d := dd, role := .dst, n := n, codes := fn == 15 },
         { d := da, role := .src, n := if fn = 16 then Nat.min 1 n else s.usedOf da n, codes := fn == 15 }]
      rules := fun s =>
        let n := s.countOf dd
        s.vopForm fn dd da da && (if fn = 16 then decide (1 ≤ s.countOf da) else s.lenOk da n) }

/-- A VSFN word (07 R139). -/
def vsfnWord (fn : Nat) (dd da : DReg) (opt : BitVec 3) : WordSpec :=
  streamWord
    { op := fun _ => .vsfn fn
      n := fun s => s.countOf dd
      dst := some dd, a := some da, pred := some opt, lat := 10
      uses := fun s =>
        let n := s.countOf dd
        [.of dd .dst n, .of da .src (s.usedOf da n)]
      rules := fun s => s.isFloat dd && s.isFloat da && s.lenOk da (s.countOf dd) }

/-- A permuting word with a mask or index source (07 R143). -/
def vpermWord (fn lat : Nat) (dd da db : DReg) (opt : BitVec 3) : WordSpec :=
  let n := fun (s : State) => if fn = 0 ∨ fn = 3 then s.countOf da else s.countOf dd
  streamWord
    { op := fun _ => .perm fn
      n := n
      dst := some dd, a := some da, b := some db, pred := some opt, lat := lat
      uses := fun s =>
        let k := n s
        [{ d := dd, role := .dst, n := if fn = 0 then k else s.countOf dd, whole := fn == 3 },
         { d := da, role := .src, n := s.countOf da, whole := fn == 2 }, .of db .src (s.usedOf db k)]
      rules := fun s =>
        let k := n s
        (s.cx.desc dd).code == (s.cx.desc da).code && !s.isFloat db && s.lenOk db k
        && (fn != 0 || decide (k ≤ s.countOf dd)) && !(s.countOf da == 0 && decide (0 < k)) }

/-- `VSCAN` (07 R143, R147); the length rules of R143 give none for its source, which keeps that of R137
(log entry 78). -/
def vscanWord (dd da : DReg) (opt : BitVec 3) : WordSpec :=
  streamWord
    { op := fun _ => .scan opt.toNat
      n := fun s => s.countOf dd
      dst := some dd, a := some da, lat := 10
      uses := fun s =>
        let n := s.countOf dd
        [.of dd .dst n, .of da .src (s.usedOf da n)]
      rules := fun s => s.isFloat dd == s.isFloat da && s.lenOk da (s.countOf dd) }

/-- The meaning of `VSCAN`. -/
def execVscan (dd da : DReg) (opt : BitVec 3) (s : State) : Out := runWord (vscanWord dd da opt) s

/-- `VTRN` (07 R143, R148). -/
def vtrnWord (dd da : DReg) (opt : BitVec 3) : WordSpec :=
  streamWord
    { op := fun _ => .perm 5
      n := fun s => s.countOf da
      dst := some dd, a := some da, pred := some opt, lat := 8
      uses := fun s => [.of dd .dst (s.countOf dd), .of da .src (s.countOf da)]
      rules := fun s =>
        let n := s.countOf da
        (s.cx.desc dd).code == (s.cx.desc da).code && n % 64 == 0 && decide (64 ≤ n)
        && decide (n ≤ 4096) && s.countOf dd == n }

/-- The meaning of `VTRN`. -/
def execVtrn (dd da : DReg) (opt : BitVec 3) (s : State) : Out := runWord (vtrnWord dd da opt) s

/-- `VCHAIN` (07 R141): dA, dD and any dB in use floating and not FP64; dB only with operand
0. -/
def vchainWord (dd da db : DReg) (opt : BitVec 3) : WordSpec :=
  let ops := fun (s : State) => chainOps (s.cx.chain opt)
  let usesB := fun (s : State) => (ops s).any (fun b => chainBinary (b % 16) && b / 16 == 0)
  let narrow := fun (s : State) (d : DReg) => s.isFloat d && (s.cx.desc d).code != 1
  { streamWord
      { op := fun s => .chain (s.cx.chain opt)
        n := fun s => s.countOf dd
        dst := some dd, a := some da, lat := 8
        uses := fun s =>
          let n := s.countOf dd
          [.of dd .dst n, .of da .src (s.usedOf da n)]
            ++ (if usesB s then [.of db .src (s.usedOf db n)] else [])
        rules := fun s =>
          let n := s.countOf dd
          narrow s dd && narrow s da && s.lenOk da n && !(ops s).any chainReserved
          && (if usesB s then narrow s db && s.lenOk db n else db == 0) } with
    effect := fun s _ =>
      if s.countOf dd = 0 then s
      else s.enqueueStream
        { op := fun s => .chain (s.cx.chain opt)
          n := fun s => s.countOf dd
          dst := some dd, a := some da, b := if usesB s then some db else none, lat := 8
          uses := fun _ => [], rules := fun _ => true } }

/-- The meaning of `VCHAIN`. -/
def execVchain (dd da db : DReg) (opt : BitVec 3) (s : State) : Out :=
  runWord (vchainWord dd da db opt) s

/-- `CHSET` (07 R142). -/
def chsetWord (r : SReg) (opt : BitVec 3) : WordSpec where
  stall := fun s _ _ => s.queueFull true
  check := fun s _ => s.poisonCheck r (s.cx.sreg r)
  effect := fun s _ => s.push (.chain opt (s.cx.sreg r).val) 1

/-- The meaning of `CHSET`. -/
def execChset (r : SReg) (opt : BitVec 3) (s : State) : Out := runWord (chsetWord r opt) s

/-! ### VDESC -/

/-- `DSET` (07 R149, R150): a failing check raises ILLOP. -/
def dsetWord (d a b : SReg) : WordSpec where
  illop := fun s =>
    let x : Desc := ⟨(s.cx.sreg a).val, (s.cx.sreg b).val⟩
    !(s.cx.sreg a).poison && !(s.cx.sreg b).poison && !(x.fieldsOk && x.count != 0)
  stall := fun s _ _ => s.queueFull true
  check := fun s _ => firstOf [s.poisonCheck a (s.cx.sreg a), s.poisonCheck b (s.cx.sreg b)]
  effect := fun s _ =>
    s.push (.desc (d.extractLsb' 0 5) ⟨(s.cx.sreg a).val, (s.cx.sreg b).val⟩) 1

/-- The meaning of `DSET`. -/
def execDset (d a b : SReg) (s : State) : Out := runWord (dsetWord d a b) s

/-- `DGET` (07 R151). -/
def dgetWord (d a b : SReg) : WordSpec where
  stall := fun s _ _ => s.queueFull true
  effect := fun s _ =>
    let x := s.cx.desc (a.extractLsb' 0 5)
    s.wreg d { val := if b == 0 then x.w0 else x.w1 } 2

/-- The meaning of `DGET`. -/
def execDget (d a b : SReg) (s : State) : Out := runWord (dgetWord d a b) s

/-- The start field of an accumulator descriptor moved by a signed amount (07 R151). -/
def Desc.newStart (x : Desc) (v : Word) : Int := (bitsOf x.w0 3 12 : Int) + v.toInt

/-- The descriptor `DADV` leaves (07 R151). -/
def Desc.advance (x : Desc) (v : Word) : Desc :=
  if x.kind = 2 then { x with w0 := x.w0 - keep x.w0 3 12 + mkWord ((x.newStart v).toNat * 8) }
  else { x with w0 := keep (x.w0 + v) 0 57 }

/-- `DADV` (07 R151): a start outside 0 to 4,095 raises ILLOP. -/
def dadvWord (a b : SReg) : WordSpec where
  illop := fun s =>
    let x := s.cx.desc (a.extractLsb' 0 5)
    let n := x.newStart (s.cx.sreg b).val
    !(s.cx.sreg b).poison && x.kind == 2 && (decide (n < 0) || decide (4095 < n))
  stall := fun s _ _ => s.queueFull true
  check := fun s _ => s.poisonCheck b (s.cx.sreg b)
  effect := fun s _ =>
    let d := a.extractLsb' 0 5
    s.push (.base d ((s.cx.desc d).advance (s.cx.sreg b).val).w0) 1

/-- The meaning of `DADV`. -/
def execDadv (a b : SReg) (s : State) : Out := runWord (dadvWord a b) s

/-- `DCNT` (07 R151): a value above 65,535 raises ILLOP. -/
def dcntWord (a b : SReg) : WordSpec where
  illop := fun s => !(s.cx.sreg b).poison && decide (65535 < (s.cx.sreg b).val.toNat)
  stall := fun s _ _ => s.queueFull true
  check := fun s _ => s.poisonCheck b (s.cx.sreg b)
  effect := fun s _ =>
    s.push (.count (a.extractLsb' 0 5) (some (s.cx.sreg b).val.toNat)) 1

/-- The meaning of `DCNT`. -/
def execDcnt (a b : SReg) (s : State) : Out := runWord (dcntWord a b) s

/-! ### RED -/

/-- Whether a source format suits a latch kind (07 R153). -/
def State.suitsLatch (s : State) (k : LKind) (d : DReg) : Bool :=
  let c := (s.cx.desc d).code
  match k with
  | .fp64 => c == 1
  | .fp32 => s.isFloat d && c != 1
  | .int64 => !s.isFloat d && (s.fmtOf c).isSigned
  | .n64 => !s.isFloat d && !(s.fmtOf c).isSigned

/-- The operator of a RED function number. -/
def redOp (fn : Nat) : LOp := match fn with | 0 => .add | 1 => .min | _ => .max

/-- `RADD`, `RMIN`, `RMAX` (07 R153, R154). -/
def redWord (fn : Nat) (da : DReg) (ps : BitVec 2) : WordSpec :=
  streamWord
    { vpipe := false
      op := fun _ => .red fn ps
      n := fun s => s.countOf da
      a := some da, lat := 11
      uses := fun s => [.of da .src (s.countOf da)]
      rules := fun s => (s.cx.latch ps).op == redOp fn && s.suitsLatch (s.cx.latch ps).kind da }

/-- Whether an earlier R word naming a latch has not landed: a stream, an `RDRN`, an `RCLR` (07 R154). -/
def State.latchBusy (s : State) (ps : BitVec 2) : Bool :=
  s.cx.streams.any (fun t => t.op.latch == some ps)
  || s.cx.pend.any (fun p => !p.landed s.cx.icyc &&
      (p.latch == some ps || p.w.key == some (800 + ps.toNat)))

/-- The last result sent on its way comes from a latch (07 R154). -/
def State.fromLatch (s : State) (ps : BitVec 2) : State :=
  { s with cx := { s.cx with
    pend := s.cx.pend.dropLast ++ (s.cx.pend.getLast?.map (fun (p : Pend) => { p with latch := some ps })).toList } }

/-- `RDRN` to a register (07 R153, R154): an FP32 latch gives zeros above bit 31. -/
def rdrnWord (r : SReg) (ps : BitVec 2) : WordSpec where
  stall := fun s _ _ => s.latchBusy ps || s.queueFull false
  effect := fun s _ =>
    let l := s.cx.latch ps
    if r == 0 then s
    else
      (s.wreg r { val := if l.kind = .fp32 then keep l.val 0 32 else l.val, poison := l.poison } 3).fromLatch ps

/-- The meaning of `RDRN` to a register. -/
def execRdrn (r : SReg) (ps : BitVec 2) (s : State) : Out := runWord (rdrnWord r ps) s

/-- `RDRN` to element 0 of a region (07 R153, R154). -/
def rdrnDescWord (dd : DReg) (ps : BitVec 2) : WordSpec :=
  streamWord
    { vpipe := false
      op := fun s => .latchOut ps (s.cx.latch ps)
      n := fun _ => 1
      dst := some dd, lat := 3
      uses := fun _ => [.of dd .dst 1]
      rules := fun _ => true
      wait := fun s => s.latchBusy ps }

/-- The meaning of `RDRN` to a region. -/
def execRdrnDesc (dd : DReg) (ps : BitVec 2) (s : State) : Out := runWord (rdrnDescWord dd ps) s

/-- The kind of a latch code (07 R153). -/
def lkindOf (k : BitVec 2) : LKind :=
  match k.toNat with
  | 0 => .fp32
  | 1 => .fp64
  | 2 => .int64
  | _ => .n64

/-- The value `RCLR` leaves (04 R70, 07 R153). -/
def latchClear (k : LKind) (o : LOp) : Word :=
  let fn := match o with | .add => 0 | .min => 1 | .max => 2
  match k with
  | .fp32 => latchWord .fp32 (.f (redIdentity fn))
  | .fp64 => latchWord .fp64 (.f (redIdentity fn))
  | .int64 =>
    match o with
    | .add => 0
    | .min => 0x7FFFFFFFFFFFFFFF
    | .max => 0x8000000000000000
  | .n64 =>
    match o with
    | .min => -1
    | _ => 0

/-- `RCLR` (07 R153, R154). -/
def rclrWord (k o : BitVec 2) (ps : BitVec 2) : WordSpec where
  stall := fun s _ _ => s.latchBusy ps || s.queueFull false
  effect := fun s _ =>
    let kind := lkindOf k
    let op := redOp o.toNat
    s.push (.latch ps { val := latchClear kind op, kind := kind, op := op }) 1

/-- The meaning of `RCLR`. -/
def execRclr (k o : BitVec 2) (ps : BitVec 2) (s : State) : Out := runWord (rclrWord k o ps) s

/-- `VADD` (07 R138). -/
def vaddWord (dd da db : DReg) (opt : BitVec 3) : WordSpec := vop2 0 dd da db opt true

/-- The meaning of `VADD`. -/
def execVadd (dd da db : DReg) (opt : BitVec 3) (s : State) : Out := runWord (vaddWord dd da db opt) s

/-- `VSUB` (07 R138). -/
def vsubWord (dd da db : DReg) (opt : BitVec 3) : WordSpec := vop2 1 dd da db opt true

/-- The meaning of `VSUB`. -/
def execVsub (dd da db : DReg) (opt : BitVec 3) (s : State) : Out := runWord (vsubWord dd da db opt) s

/-- `VMUL` (07 R138). -/
def vmulWord (dd da db : DReg) (opt : BitVec 3) : WordSpec := vop2 2 dd da db opt true

/-- The meaning of `VMUL`. -/
def execVmul (dd da db : DReg) (opt : BitVec 3) (s : State) : Out := runWord (vmulWord dd da db opt) s

/-- `VFMA` (07 R138). -/
def vfmaWord (dd da db : DReg) (opt : BitVec 3) : WordSpec := vop2 3 dd da db opt true

/-- The meaning of `VFMA`. -/
def execVfma (dd da db : DReg) (opt : BitVec 3) (s : State) : Out := runWord (vfmaWord dd da db opt) s

/-- `VMIN` (07 R138). -/
def vminWord (dd da db : DReg) (opt : BitVec 3) : WordSpec := vop2 4 dd da db opt true

/-- The meaning of `VMIN`. -/
def execVmin (dd da db : DReg) (opt : BitVec 3) (s : State) : Out := runWord (vminWord dd da db opt) s

/-- `VMAX` (07 R138). -/
def vmaxWord (dd da db : DReg) (opt : BitVec 3) : WordSpec := vop2 5 dd da db opt true

/-- The meaning of `VMAX`. -/
def execVmax (dd da db : DReg) (opt : BitVec 3) (s : State) : Out := runWord (vmaxWord dd da db opt) s

/-- `VAND` (07 R138). -/
def vandWord (dd da db : DReg) (opt : BitVec 3) : WordSpec := vop2 8 dd da db opt true

/-- The meaning of `VAND`. -/
def execVand (dd da db : DReg) (opt : BitVec 3) (s : State) : Out := runWord (vandWord dd da db opt) s

/-- `VOR` (07 R138). -/
def vorWord (dd da db : DReg) (opt : BitVec 3) : WordSpec := vop2 9 dd da db opt true

/-- The meaning of `VOR`. -/
def execVor (dd da db : DReg) (opt : BitVec 3) (s : State) : Out := runWord (vorWord dd da db opt) s

/-- `VXOR` (07 R138). -/
def vxorWord (dd da db : DReg) (opt : BitVec 3) : WordSpec := vop2 10 dd da db opt true

/-- The meaning of `VXOR`. -/
def execVxor (dd da db : DReg) (opt : BitVec 3) (s : State) : Out := runWord (vxorWord dd da db opt) s

/-- `VSHL` (07 R138). -/
def vshlWord (dd da db : DReg) (opt : BitVec 3) : WordSpec := vop2 11 dd da db opt true

/-- The meaning of `VSHL`. -/
def execVshl (dd da db : DReg) (opt : BitVec 3) (s : State) : Out := runWord (vshlWord dd da db opt) s

/-- `VSHR` (07 R138). -/
def vshrWord (dd da db : DReg) (opt : BitVec 3) : WordSpec := vop2 12 dd da db opt true

/-- The meaning of `VSHR`. -/
def execVshr (dd da db : DReg) (opt : BitVec 3) (s : State) : Out := runWord (vshrWord dd da db opt) s

/-- `VCMP` (07 R138). -/
def vcmpWord (dd da db : DReg) (opt : BitVec 3) : WordSpec := vop2 13 dd da db opt false

/-- The meaning of `VCMP`. -/
def execVcmp (dd da db : DReg) (opt : BitVec 3) (s : State) : Out := runWord (vcmpWord dd da db opt) s

/-- `VSEL` (07 R138). -/
def vselWord (dd da db : DReg) (opt : BitVec 3) : WordSpec := vop2 14 dd da db opt true

/-- The meaning of `VSEL`. -/
def execVsel (dd da db : DReg) (opt : BitVec 3) (s : State) : Out := runWord (vselWord dd da db opt) s

/-- `VABS` (07 R138). -/
def vabsWord (dd da : DReg) (opt : BitVec 3) : WordSpec := vop1 6 dd da opt true

/-- The meaning of `VABS`. -/
def execVabs (dd da : DReg) (opt : BitVec 3) (s : State) : Out := runWord (vabsWord dd da opt) s

/-- `VNEG` (07 R138). -/
def vnegWord (dd da : DReg) (opt : BitVec 3) : WordSpec := vop1 7 dd da opt true

/-- The meaning of `VNEG`. -/
def execVneg (dd da : DReg) (opt : BitVec 3) (s : State) : Out := runWord (vnegWord dd da opt) s

/-- `VCOPY` (07 R138). -/
def vcopyWord (dd da : DReg) (opt : BitVec 3) : WordSpec := vop1 15 dd da opt true

/-- The meaning of `VCOPY`. -/
def execVcopy (dd da : DReg) (opt : BitVec 3) (s : State) : Out := runWord (vcopyWord dd da opt) s

/-- `VFILL` (07 R138). -/
def vfillWord (dd da : DReg) (opt : BitVec 3) : WordSpec := vop1 16 dd da opt true

/-- The meaning of `VFILL`. -/
def execVfill (dd da : DReg) (opt : BitVec 3) (s : State) : Out := runWord (vfillWord dd da opt) s

/-- `VCVT` (07 R138). -/
def vcvtWord (dd da : DReg) (opt : BitVec 3) : WordSpec := vop1 17 dd da opt false

/-- The meaning of `VCVT`. -/
def execVcvt (dd da : DReg) (opt : BitVec 3) (s : State) : Out := runWord (vcvtWord dd da opt) s

/-- `VIOTA` (07 R138). -/
def viotaWord (dd : DReg) (opt : BitVec 3) : WordSpec :=
  streamWord
    { op := fun _ => .vop 18 opt.toNat
      n := fun s => s.countOf dd
      dst := some dd, pred := some opt, lat := 6
      uses := fun s => [.of dd .dst (s.countOf dd)]
      rules := fun _ => true }

/-- The meaning of `VIOTA`. -/
def execViota (dd : DReg) (opt : BitVec 3) (s : State) : Out := runWord (viotaWord dd opt) s

/-- `VEXP2` (07 R139). -/
def vexp2Word (dd da : DReg) (opt : BitVec 3) : WordSpec := vsfnWord 0 dd da opt

/-- The meaning of `VEXP2`. -/
def execVexp2 (dd da : DReg) (opt : BitVec 3) (s : State) : Out := runWord (vexp2Word dd da opt) s

/-- `VLOG2` (07 R139). -/
def vlog2Word (dd da : DReg) (opt : BitVec 3) : WordSpec := vsfnWord 1 dd da opt

/-- The meaning of `VLOG2`. -/
def execVlog2 (dd da : DReg) (opt : BitVec 3) (s : State) : Out := runWord (vlog2Word dd da opt) s

/-- `VRCP` (07 R139). -/
def vrcpWord (dd da : DReg) (opt : BitVec 3) : WordSpec := vsfnWord 2 dd da opt

/-- The meaning of `VRCP`. -/
def execVrcp (dd da : DReg) (opt : BitVec 3) (s : State) : Out := runWord (vrcpWord dd da opt) s

/-- `VRSQ` (07 R139). -/
def vrsqWord (dd da : DReg) (opt : BitVec 3) : WordSpec := vsfnWord 3 dd da opt

/-- The meaning of `VRSQ`. -/
def execVrsq (dd da : DReg) (opt : BitVec 3) (s : State) : Out := runWord (vrsqWord dd da opt) s

/-- `VSIG` (07 R139). -/
def vsigWord (dd da : DReg) (opt : BitVec 3) : WordSpec := vsfnWord 4 dd da opt

/-- The meaning of `VSIG`. -/
def execVsig (dd da : DReg) (opt : BitVec 3) (s : State) : Out := runWord (vsigWord dd da opt) s

/-- `VTANH` (07 R139). -/
def vtanhWord (dd da : DReg) (opt : BitVec 3) : WordSpec := vsfnWord 5 dd da opt

/-- The meaning of `VTANH`. -/
def execVtanh (dd da : DReg) (opt : BitVec 3) (s : State) : Out := runWord (vtanhWord dd da opt) s

/-- `VGELU` (07 R139). -/
def vgeluWord (dd da : DReg) (opt : BitVec 3) : WordSpec := vsfnWord 6 dd da opt

/-- The meaning of `VGELU`. -/
def execVgelu (dd da : DReg) (opt : BitVec 3) (s : State) : Out := runWord (vgeluWord dd da opt) s

/-- `VCOMP` (07 R143, R144). -/
def vcompWord (dd da db : DReg) (opt : BitVec 3) : WordSpec := vpermWord 0 8 dd da db opt

/-- The meaning of `VCOMP`. -/
def execVcomp (dd da db : DReg) (opt : BitVec 3) (s : State) : Out := runWord (vcompWord dd da db opt) s

/-- `VEXPD` (07 R143, R145). -/
def vexpdWord (dd da db : DReg) (opt : BitVec 3) : WordSpec := vpermWord 1 8 dd da db opt

/-- The meaning of `VEXPD`. -/
def execVexpd (dd da db : DReg) (opt : BitVec 3) (s : State) : Out := runWord (vexpdWord dd da db opt) s

/-- `VGATH` (07 R143, R146). -/
def vgathWord (dd da db : DReg) (opt : BitVec 3) : WordSpec := vpermWord 2 12 dd da db opt

/-- The meaning of `VGATH`. -/
def execVgath (dd da db : DReg) (opt : BitVec 3) (s : State) : Out := runWord (vgathWord dd da db opt) s

/-- `VSCAT` (07 R143, R146). -/
def vscatWord (dd da db : DReg) (opt : BitVec 3) : WordSpec := vpermWord 3 12 dd da db opt

/-- The meaning of `VSCAT`. -/
def execVscat (dd da db : DReg) (opt : BitVec 3) (s : State) : Out := runWord (vscatWord dd da db opt) s

/-- `RADD` (07 R153). -/
def raddWord (da : DReg) (ps : BitVec 2) : WordSpec := redWord 0 da ps

/-- The meaning of `RADD`. -/
def execRadd (da : DReg) (ps : BitVec 2) (s : State) : Out := runWord (raddWord da ps) s

/-- `RMIN` (07 R153). -/
def rminWord (da : DReg) (ps : BitVec 2) : WordSpec := redWord 1 da ps

/-- The meaning of `RMIN`. -/
def execRmin (da : DReg) (ps : BitVec 2) (s : State) : Out := runWord (rminWord da ps) s

/-- `RMAX` (07 R153). -/
def rmaxWord (da : DReg) (ps : BitVec 2) : WordSpec := redWord 2 da ps

/-- The meaning of `RMAX`. -/
def execRmax (da : DReg) (ps : BitVec 2) (s : State) : Out := runWord (rmaxWord da ps) s

end Sys2Proof.Machine
end

