-- ==== Sys2Proof/Machine/Matrix.lean ====
section
/-!
DEFINITION. The cell array, stitch programs and the shuttle (08 R155 to R180): the words `MSTEP`
and MCTL, and the steps in which a shuttle command starts, performs a beat and completes; the
charge records of matrix commands (20 R309, R310).
-/

namespace Sys2Proof.Machine

open Sys2Proof

/-! ### Formats of a step -/

/-- The significand width of a format for the array (08 R160). -/
def sigmaOf : Fmt → Nat
  | .flt f => f.mbits + 1
  | .int _ w => w

/-- Products per beat and beats per product of a significand width; integers of 9 to 16 bits pack
four (08 R160). -/
def packing (isInt : Bool) (sigma : Nat) : Nat × Nat :=
  if !isInt && sigma == 53 then (1, 16)
  else if !isInt && sigma == 24 then (1, 4)
  else if !isInt && sigma == 11 then (1, 1)
  else if 5 ≤ sigma then (4, 1)
  else if 2 ≤ sigma then (16, 1)
  else (64, 1)

/-- Products per beat and beats per product of a step (08 R160). -/
def stepPacking (cfg : MCfg) (fa fb : Fmt) : Nat × Nat :=
  if fa.isFloat then packing false (Nat.max (sigmaOf fa) (sigmaOf fb)) else packing true cfg.p

/-- Whether a form is floating. -/
def Form.isFloat : Form → Bool
  | .fp32 | .fp64 => true
  | _ => false

/-- Form codes of `MZERO`, `MLDA` and `MFMT` (08 R177). -/
def formOfBits (n : Nat) : Form :=
  match n with
  | 0 => .fp32
  | 1 => .fp64
  | 2 => .i32
  | _ => .i16

/-- Whether `MFMT` accepts a pair of formats with a form and a precision (08 R159, R177). -/
def State.mfmtOk (s : State) (a b : Nat) (form : Form) (pm1 : Nat) : Bool :=
  codeNamed a && codeNamed b &&
  (let fa := s.fmtOf a
   let fb := s.fmtOf b
   if fa.isFloat && fb.isFloat then
     if a ≤ 4 || b ≤ 4 then
       a == b && pm1 == 0 && form == (if a = 1 then .fp64 else .fp32)
     else form == .fp32 && pm1 == 0
   else
     let intCode := fun (c : Nat) => c == 7 || c == 8 || c == 11 || c == 12 || decide (16 ≤ c)
     !fa.isFloat && !fb.isFloat && intCode a && intCode b && fa.isSigned == fb.isSigned
       && !form.isFloat && decide (pm1 + 1 ≤ Nat.min fa.width fb.width))

/-! ### Stitch programs -/

/-- Operation of a micro-word (08 R161). -/
def mwOp (w : BitVec 16) : Nat := w.toNat / 2 ^ 12
/-- Destination of a micro-word. -/
def mwDst (w : BitVec 16) : Nat := w.toNat / 2 ^ 9 % 8
/-- First source of a micro-word. -/
def mwA (w : BitVec 16) : Nat := w.toNat / 2 ^ 6 % 8
/-- Second source of a micro-word. -/
def mwB (w : BitVec 16) : Nat := w.toNat / 2 ^ 3 % 8
/-- Modifier of a micro-word. -/
def mwMod (w : BitVec 16) : Nat := w.toNat % 8

/-- The preset programs (08 R164). -/
def preset : Nat → List (BitVec 16)
  | 8 => [0x1408]
  | 9 => [0x3608, 0x4498]
  | 10 => [0x3609, 0x5498]
  | 11 => [0x1609, 0x5498]
  | 12 => [0x6608, 0x7498]
  | _ => [0x360B, 0x94D4]

/-- Whether a word is a SADD or SEL with the tag modifier (08 R162). -/
def mwTag (w : BitVec 16) : Bool :=
  (mwOp w == 3 && mwMod w / 2 % 2 == 1) || (mwOp w == 9 && mwMod w / 4 == 1)

/-- Whether a word is malformed: reason 2 of 08 R165, a `CMP` with a reserved condition among them (log entry 117). -/
def mwBad (w : BitVec 16) : Bool :=
  let op := mwOp w
  if op = 0 then w != 0
  else
    decide (12 ≤ op) || decide (6 ≤ mwDst w) || decide (6 ≤ mwA w) || decide (6 ≤ mwB w)
    || (op == 10 && mwB w != 0)
    || (match op with
        | 1 => decide (2 ≤ mwMod w)
        | 3 => decide (4 ≤ mwMod w)
        | 9 => false
        | 11 => decide (6 ≤ mwMod w)
        | _ => mwMod w != 0)

/-- Whether an operation is allowed for the operands: else reason 3 of 08 R165. -/
def mwAllowed (isF : Bool) (p : Nat) (form : Form) (w : BitVec 16) : Bool :=
  let op := mwOp w
  if isF then [0, 1, 2, 3, 4, 5, 9, 10, 11].contains op && !mwTag w
  else if p = 1 then [0, 6, 7, 8, 9, 10, 11].contains op && !mwTag w
  else (form == .i16 || !mwTag w) && (decide (p ≤ 8) || op != 1)

/-- Whether a program holds a SADD without the tag modifier (08 R166). -/
def widens (ws : List (BitVec 16)) : Bool := ws.any (fun w => mwOp w == 3 && !mwTag w)

/-- The program a selector names for a task, none where the slot is not its own (08 R165, R167). -/
def State.programOf (s : State) (owner sel : Nat) : Option (List (BitVec 16)) :=
  if 8 ≤ sel then some (preset sel)
  else
    match s.core.slots.toList[sel]? with
    | some x => if x.owner == some owner then some x.words else none
    | none => none

/-- Why a step performs no beat: the reason of 08 R165, R166. The spec gives no order among the reasons; a
program that meets both 2 and 3 reports 2 (DESIGN CHOICE, log entry 96). -/
def State.stepFault (s : State) (owner : Nat) (cfg : MCfg) (fa : Fmt) : Option Nat :=
  match s.programOf owner cfg.sel with
  | none => some 1
  | some ws =>
    if ws.any mwBad then some 2
    else if ws.any (fun w => !mwAllowed fa.isFloat cfg.p cfg.form w) then some 3
    else if !fa.isFloat && widens ws && !fa.isSigned then some 3
    else none

/-! ### Integer operations on values without bound -/

/-- Bitwise and of integers in two's complement. -/
def intAnd : Int → Int → Int
  | .ofNat a, .ofNat b => (a &&& b : Nat)
  | .ofNat a, .negSucc b => (a - (a &&& b) : Nat)
  | .negSucc a, .ofNat b => (b - (b &&& a) : Nat)
  | .negSucc a, .negSucc b => .negSucc (a ||| b)

/-- Bitwise or. -/
def intOr (x y : Int) : Int := -1 - intAnd (-1 - x) (-1 - y)

/-- Bitwise exclusive or. -/
def intXor (x y : Int) : Int := intOr x y - intAnd x y

/-- Saturation to 16 signed bits. -/
def sat16 (x : Int) : Int := if x < -32768 then -32768 else if 32767 < x then 32767 else x

/-- SADD on integers (08 R162). -/
def sadd (mod : Nat) (a b : Int) : Int :=
  let ninf := mod % 2 == 1
  if mod / 2 % 2 = 0 then
    if !ninf && (a == 32767 || b == 32767) then 32767
    else if ninf && (a == -32768 || b == -32768) then -32768
    else sat16 (a + b)
  else
    let score := fun (x : Int) => intOfCode true 12 (codeOfInt 16 x / 16)
    let ha := score a
    let hb := score b
    let h : Int :=
      if !ninf && (ha == 2047 || hb == 2047) then 2047
      else if ninf && (ha == -2048 || hb == -2048) then -2048
      else if ha + hb < -2048 then -2048
      else if 2047 < ha + hb then 2047
      else ha + hb
    h * 16 + b % 16

/-- A condition of CMP: 0 eq, 1 ne, 2 lt, 3 le, 4 gt, 5 ge; an unordered compare is false (08
R162). -/
def condHolds (c : Nat) (o : Option Ordering) : Bool :=
  match c with
  | 0 => o == some .eq
  | 1 => o == some .lt || o == some .gt
  | 2 => o == some .lt
  | 3 => o == some .lt || o == some .eq
  | 4 => o == some .gt
  | _ => o == some .gt || o == some .eq

/-- The condition a SEL modifier names, in the coding of CMP (08 R162). -/
def selCond (mod : Nat) : Nat :=
  match mod % 4 with
  | 0 => 4
  | 1 => 5
  | 2 => 2
  | _ => 3

/-- NV when an operand of a compare is a signalling NaN. -/
def sigFlag (a b : Num) : Flags :=
  let sig := fun (n : Num) => match n with | .f v => v.isSig | .i _ => false
  Flag.when (sig a || sig b) Flag.nv

/-- The comparison of two values. -/
def numOrder : Num → Num → Option Ordering
  | .i a, .i b => some (compare a b)
  | a, b => a.toF.cmp b.toF

/-- One operation on one lane, d the old destination (08 R162). `SEL.tag` moves a value that is exact within its beat
as it stands (log entry 119). -/
def microOp (op mod : Nat) (a b d : Num) : Num × Flags :=
  match op with
  | 1 =>
    if mod % 2 = 1 then numMul a b
    else
      let (m, f) := numMul a b
      let (r, g) := numAdd d m
      (r, f ||| g)
  | 2 => numAdd a b
  | 3 =>
    match a, b with
    | .i x, .i y => (.i (sadd mod x y), 0)
    | a, b => numAdd a b
  | 4 => numMin a b
  | 5 => numMax a b
  | 6 => (.i (intAnd a.toI b.toI), 0)
  | 7 => (.i (intOr a.toI b.toI), 0)
  | 8 => (.i (intXor a.toI b.toI), 0)
  | 9 =>
    if mod / 4 = 1 then
      let score := fun (x : Num) => intOfCode true 12 (codeOfInt 16 x.toI / 16)
      (if condHolds (selCond mod) (some (compare (score a) (score b))) then a else b, 0)
    else (if condHolds (selCond mod) (numOrder a b) then a else b, sigFlag a b)
  | 10 => (a, 0)
  | _ =>
    let r := condHolds mod (numOrder a b)
    match a with
    | .i _ => (.i (if r then 1 else 0), 0)
    | .f _ => (.f (.fin false (if r then 1 else 0) 0), sigFlag a b)

/-! ### A cell in one beat -/

/-- The registers of a cell while a beat runs. -/
structure Cell where
  ca : List Num
  cb : List Num
  acc : Num
  tmp : Option (List Num) := none
  east : List Num
  south : List Num
  flags : Flags := 0
  fv : Nat

/-- Lane j of a source. -/
def Cell.lane (c : Cell) (k j : Nat) : Num :=
  let l :=
    match k with
    | 0 => c.ca
    | 1 => c.cb
    | 3 => c.tmp.getD []
    | 4 => c.east
    | _ => c.south
  if k = 2 then c.acc else (l[j]?).getD (.i 0)

/-- An undefined value of a lane (log entry 3). -/
def freeLane (isF : Bool) (n : Nat) : Num :=
  if isF then .f (fp64.decode (Config.freeWord n).toNat) else .i (Config.freeWord n).toInt

/-- Set a register of a cell. -/
def Cell.put (c : Cell) (k : Nat) (l : List Num) : Cell :=
  match k with
  | 0 => { c with ca := l }
  | 1 => { c with cb := l }
  | 3 => { c with tmp := some l }
  | 4 => { c with east := l }
  | _ => { c with south := l }

/-- One micro-word (08 R163): lanes in parallel, or, for the accumulator, one lane after another.
A temporary read before it is written is undefined. `keepSouth` discards writes to south-out (08
R156). -/
def Cell.micro (isF : Bool) (P : Nat) (keepSouth : Bool) (c : Cell) (w : BitVec 16) : Cell :=
  let op := mwOp w
  let dst := mwDst w
  if op = 0 then c
  else
    let reads := mwA w == 3 || (op != 10 && mwB w == 3) || (dst == 3 && op == 1 && mwMod w % 2 == 0)
    let c : Cell :=
      if reads && c.tmp.isNone then
        { c with tmp := some ((List.range P).map (fun j => freeLane isF (c.fv + j))), fv := c.fv + P }
      else c
    if dst = 2 then
      (List.range P).foldl (fun (c : Cell) j =>
        let (v, f) := microOp op (mwMod w) (c.lane (mwA w) j) (c.lane (mwB w) j) c.acc
        { c with acc := v, flags := c.flags ||| f }) c
    else
      let l := (List.range P).map (fun j =>
        microOp op (mwMod w) (c.lane (mwA w) j) (c.lane (mwB w) j) (c.lane dst j))
      let c := { c with flags := l.foldl (fun f x => f ||| x.2) c.flags }
      if dst = 5 && keepSouth then c else c.put dst (l.map (·.1))

/-- The accumulator rounded once into the tile form at the end of a beat (08 R163, 04 R68,
R69). -/
def roundForm (form : Form) (v : Num) : Word × Flags :=
  match form with
  | .fp32 => let (c, f) := fp32.round 0 v.toF; (mkWord c, f)
  | .fp64 => let (c, f) := fp64.round 0 v.toF; (mkWord c, f)
  | .i32 => (mkWord (codeOfInt 32 v.toI), 0)
  | .i16 => (mkWord (codeOfInt 16 (sat16 v.toI)), 0)

/-- The value of a tile element's code. -/
def formValue (form : Form) (c : Word) : Num :=
  match form with
  | .fp32 => .f (fp32.decode (c.toNat % 2 ^ 32))
  | .fp64 => .f (fp64.decode c.toNat)
  | .i32 => .i (intOfCode true 32 c.toNat)
  | .i16 => .i (intOfCode true 16 c.toNat)

/-- The code of the values named by `.init` and `MZERO`: zero, plus and minus infinity (08 R164,
R173). -/
def infCode (form : Form) (v : Nat) : Word :=
  match form, v with
  | _, 0 => 0
  | .fp32, 1 => 0x7F800000
  | .fp32, _ => 0xFF800000
  | .fp64, 1 => 0x7FF0000000000000
  | .fp64, _ => 0xFFF0000000000000
  | .i32, 1 => 0x7FFFFFFF
  | .i32, _ => 0x80000000
  | .i16, 1 => 0x7FFF
  | .i16, _ => 0x8000

/-- A tile whose every element holds a code. -/
def Tile.fill (form : Form) (c : Word) : Tile :=
  { form := form, elems := if c == 0 then [] else (List.range 4096).map (fun i => (i, c)) }

/-- A cell's beat: the program in order, then the rounding of the accumulator. -/
def runCell (isF : Bool) (form : Form) (P : Nat) (keepSouth : Bool) (prog : List (BitVec 16))
    (c : Cell) : Cell × Word :=
  let c := prog.foldl (Cell.micro isF P keepSouth) c
  let (w, f) := roundForm form c.acc
  ({ c with flags := c.flags ||| f }, w)

/-! ### Operands of a beat -/

/-- Bit planes of an operand that the array reads (04 R55). -/
def planesOf (p : Nat) : Fmt → Nat
  | .flt f => f.width
  | .int _ w => Nat.min p w

/-- The locations ÷ 8 of the plane words of a group. -/
def Region.groupWords (r : Region) (p g : Nat) : List Nat :=
  (List.range (planesOf p r.fmt)).map (fun j => r.at (64 * g) / 8 + j)

/-- The largest and the smallest value of a precision below 16 as the infinities of a saturating program (08
R166). -/
def widenValue (widen : Bool) (p : Nat) (v : Int) : Int :=
  if widen && decide (p < 16) then
    if v == 2 ^ (p - 1) - 1 then 32767
    else if v == -(2 ^ (p - 1) : Int) then -32768
    else v
  else v

/-- Sign extension or zero extension of a p-bit code (04 R55), with the infinities of a saturating
program (08 R166). -/
def planeValue (signed widen : Bool) (p code : Nat) : Int :=
  widenValue widen p (intOfCode signed p code)

/-- The operand values of a group's 64 lanes, each with its flags (08 R158, R166, R173; 04 R54, R55, R58):
a word of a poison-marked line, or a scale index of one, makes its lanes NaN, or 0 in integer forms, and sets
NV. The 0 is that of the operand, also where a program combines by no multiplication (log entry 95). -/
def State.groupLanes (s : State) (r : Region) (widen : Bool) (p g : Nat) : List (Num × Flags) :=
  let np := planesOf p r.fmt
  let base := r.at (64 * g)
  let words := (List.range np).map (fun j => s.readNat (base + 8 * j) 8)
  if s.markedRange base (8 * np) then
    List.replicate 64 (if r.fmt.isFloat then .f (.nan false) else .i 0, Flag.nv)
  else
    (List.range 64).map (fun i =>
      let code := (words.zipIdx.map (fun (w, j) => w / 2 ^ i % 2 * 2 ^ j)).sum
      match r.fmt with
      | .flt _ =>
        if s.scalePoison r (64 * g + i) then (Num.f (.nan false), Flag.nv) else s.valueAt r (64 * g + i) code
      | .int sg _ => (Num.i (planeValue sg widen np code), 0))

/-- The flags of some lanes together. -/
def laneFlags (l : List (Num × Flags)) : Flags := l.foldl (fun f x => f ||| x.2) 0

/-- The lanes of the cells along one edge: for each of the 64 positions, one value per product of
the beat. -/
def edgeLanes (groups : List (List Num)) : List (List Num) :=
  (List.range 64).map (fun i => groups.map (fun g => (g[i]?).getD (.i 0)))

/-- What a step carries through its beats. -/
structure StepRun where
  cfg : MCfg
  isF : Bool
  widen : Bool
  P : Nat
  bpp : Nat
  prog : List (BitVec 16)

/-- The array's working values over one beat: tile elements, south-out values of the row above,
flags, and the count of free values. -/
structure ArrayWork where
  elems : List (Nat × Word)
  souths : List (List Num)
  flags : Flags
  fv : Nat

/-- One row of cells in output-stationary flow, west to east (08 R156). -/
def rowBeat (k : StepRun) (t : Tile) (m : Nat) (east0 : List Num) (cols : List (List Num))
    (w : ArrayWork) : ArrayWork :=
  let skewed := k.cfg.skew != 0
  let step := fun (x : List Num × List (List Num) × ArrayWork) (n : Nat) =>
    let (east, souths, w) := x
    let cb := if skewed && m != 0 then (w.souths[n]?).getD [] else (cols[n]?).getD []
    let ca := if skewed then east else east0
    let i := 64 * m + n
    let c : Cell :=
      { ca := ca, cb := cb, acc := formValue k.cfg.form (t.get i), east := ca, south := cb, fv := w.fv }
    let (c, v) := runCell k.isF k.cfg.form k.P false k.prog c
    (c.east, souths ++ [c.south],
      { w with elems := if v == 0 then w.elems else w.elems ++ [(i, v)]
               flags := w.flags ||| c.flags, fv := c.fv })
  let (_, souths, w) := (List.range 64).foldl step (east0, [], w)
  { w with souths := souths }

/-- A beat of the whole array in output-stationary flow (08 R156, R158, R173). -/
def arrayBeat (k : StepRun) (t : Tile) (rows cols : List (List Num)) (fv : Nat) :
    Tile × Flags × Nat :=
  let w := (List.range 64).foldl (fun w m => rowBeat k t m ((rows[m]?).getD []) cols w)
    { elems := [], souths := [], flags := 0, fv := fv }
  ({ form := k.cfg.form, elems := w.elems }, w.flags, w.fv)

/-- Whether the last `MWGT` read the packing, format and precision of a step. -/
def State.weightsFit (s : State) (k : StepRun) : Bool :=
  s.core.wtLanes == k.P && s.core.wtCode == k.cfg.fb && s.core.wtP == k.cfg.p

/-- The flags that the held weights of the rows in use give the elements they affect: NV for one read from a marked
line, SN for one whose scale entry is −128 (08 R173). -/
def State.weightFlags (s : State) (k : StepRun) : Flags :=
  if s.weightsFit k then
    (s.core.wts.filter (fun e => decide (e.1 < 4096 * s.core.wtRows) && decide (e.1 % 64 < k.P))).foldl
      (fun f e => f ||| e.2.2) 0
  else 0

/-- The held weight lanes of cell (r, n) (08 R156, R158, R166); undefined where the last `MWGT` read
another packing, format or precision. -/
def State.heldWeights (s : State) (k : StepRun) (r n : Nat) : List Num :=
  if s.weightsFit k then
    (List.range k.P).map (fun j =>
      match ((s.core.wts.find? (fun e => e.1 == (r * 64 + n) * 64 + j)).map (·.2.1)).getD
        (if k.isF then .f (.fin false 0 0) else .i 0) with
      | .i v => .i (widenValue k.widen k.cfg.p v)
      | v => v)
  else (List.range k.P).map (fun j => freeLane k.isF (s.fv + (r * 64 + n) * 64 + j))

/-- A beat of one row m of A in weight-stationary flow: the partials of all columns pass the rows
in use (08 R156, R158, R173). Each beat reads the value that `MWGT` wrote; whether a program's own write to
cb stays for later beats the spec does not say (DESIGN CHOICE, log entry 98). -/
def weightBeat (k : StepRun) (weights : Nat → Nat → List Num) (nr : Nat)
    (rows : List (List Num)) (init : List Word) (fv : Nat) : List Word × Flags × Nat :=
  (List.range nr).foldl (fun (x : List Word × Flags × Nat) r =>
    let (part, f, fv) := x
    let a := (rows[r]?).getD []
    let step := fun (y : List Num × List Word × Flags × Nat) (n : Nat) =>
      let (east, out, f, fv) := y
      let cb := weights r n
      let c : Cell :=
        { ca := east, cb := cb, acc := formValue k.cfg.form ((part[n]?).getD 0), east := east
          south := cb, fv := fv }
      let (c, v) := runCell k.isF k.cfg.form k.P true k.prog c
      (c.east, out ++ [v], f ||| c.flags, c.fv)
    let (_, out, f, fv) := (List.range 64).foldl step (a, [], f, fv)
    (out, f, fv)) (init, 0, fv)

/-! ### Tiles of an owner -/

/-- A tile of the context that owns a command. -/
def State.ownerTile (s : State) (uid t : Nat) : Tile :=
  match s.ctxOf uid with
  | some c => (c.tiles.toList[t]?).getD {}
  | none => {}

/-- Replace a tile of the context that owns a command. -/
def State.setOwnerTile (s : State) (uid t : Nat) (x : Tile) : State :=
  s.onOwner uid (fun c => { c with tiles := c.tiles.setIfInBounds t x })

/-! ### Issue -/

/-- The earlier operations that the accesses of a command wait for: 06 R107 by class and word (08
R175). An earlier stream is among them, so that the command never reads an element from before it, which 07 R134 would
allow (log entry 116). -/
def State.commandDeps (s : State) (a b : Option Region) : List Nat :=
  s.earlierOps
    { id := 0, vpipe := true, op := .vop 0 0, n := 0, a := a, b := b, issued := 0, lat := 0
      groups := 0, left := 0 }

/-- Whether the shuttle queue has no free entry (08 R155, R170). -/
def State.shuttleFull (s : State) : Bool :=
  decide (8 ≤ (s.core.shq.filter (fun m => m.owner == s.cx.uid && !m.started)).length)

/-- A shuttle command enters the queue; one of latency b joins the open batch (08 R170, R181). -/
def State.enqueueM (s : State) (k : MKind) (deps : List Nat) (batch : Bool) : State :=
  let (id, s) := s.newId
  let s := if batch then s.joinBatch id 0 else s
  let m : MCmd := { id := id, owner := s.cx.uid, badr := s.badr, kind := k, deps := deps }
  { s with core := { s.core with shq := s.core.shq ++ [m] } }

/-- The form of a tile as last issued replaced (08 R168). -/
def State.noteForm (s : State) (t : Nat) (f : Form) : State :=
  { s with cx := { s.cx with forms := s.cx.forms.setIfInBounds t f } }

/-- The form of a tile as last issued. -/
def State.formOf (s : State) (t : Nat) : Form := (s.cx.forms.toList[t]?).getD .fp32

/-- The configuration as last issued replaced, and its command queued (08 R168, R170). -/
def State.configure (s : State) (c : MCfg) : State :=
  { s with cx := { s.cx with mcfg := c } }.enqueueM (.config c) [] false

/-- The groups of A and B that a step reads (08 R158). -/
def stepGroups (cfg : MCfg) (P d : Nat) (wide : Bool) : Nat × Nat :=
  (P * d, if cfg.flow = 1 then 0 else P * d * (if wide then 2 else 1))

/-- The uses of a step's descriptors. -/
def State.stepUses (s : State) (da db : DReg) (d : Nat) (wide : Bool) : List Use :=
  let cfg := s.cx.mcfg
  let (P, _) := stepPacking cfg (s.fmtOf cfg.fa) (s.fmtOf cfg.fb)
  let (ga, gb) := stepGroups cfg P d wide
  .of da .src (64 * ga) :: (if cfg.flow = 1 then [] else [.of db .src (64 * gb)])

/-- `MSTEP` (08 R173): ILLOP checks, the queue, ADDR and PERM; it carries its descriptors, formats
and configuration from issue. A step tag mode of wait or take over a keep descriptor of the weight store, whose
words have no tags, raises nothing and does nothing there (DESIGN CHOICE, log entry 99). -/
def mstepWord (acc : BitVec 3) (wide : BitVec 1) (da db : DReg) (depth : BitVec 6)
    (tag : BitVec 2) (flags : BitVec 2) : WordSpec where
  illop := fun s =>
    let cfg := s.cx.mcfg
    let w := wide == 1
    let uses := s.stepUses da db (depth.toNat + 1) w
    let ws := cfg.flow == 1
    s.usesIllop uses
    || uses.any (fun u => (s.cx.desc u.d).kind != 1 || decide ((s.cx.desc u.d).count < u.n))
    || (s.cx.desc da).code != cfg.fa
    || (if ws then w || db != 0 else (s.cx.desc db).code != cfg.fb)
    || (flags == 0 && (s.formOf acc.toNat != cfg.form || (w && s.formOf (acc.toNat + 1) != cfg.form)))
  stall := fun s _ _ => s.shuttleFull
  check := fun s _ => s.usesTrap (s.stepUses da db (depth.toNat + 1) (wide == 1))
  effect := fun s _ =>
    let cfg := { s.cx.mcfg with bFmt := some (s.fmtOf s.cx.mcfg.fb) }
    let a := s.regionOf da
    let b := if cfg.flow = 1 then none else some (s.regionOf db)
    let k := MKind.step acc.toNat (wide == 1) (depth.toNat + 1) (tagOfCode tag.toNat) flags.toNat a b cfg
    let s1 := s.enqueueM k (s.commandDeps (some a) b) true
    if flags == 0 then s1
    else
      let s2 := s1.noteForm acc.toNat cfg.form
      if wide == 1 then s2.noteForm (acc.toNat + 1) cfg.form else s2

/-- The meaning of `MSTEP`. -/
def execMstep (acc : BitVec 3) (wide : BitVec 1) (da db : DReg) (depth : BitVec 6) (tag : BitVec 2)
    (flags : BitVec 2) (s : State) : Out :=
  runWord (mstepWord acc wide da db depth tag flags) s

/-- `MZERO` (08 R177, R178). -/
def mzeroWord (n : BitVec 3) (wide : BitVec 1) (v f : BitVec 2) : WordSpec where
  stall := fun s _ _ => s.shuttleFull
  effect := fun s _ =>
    let form := formOfBits f.toNat
    let s1 := (s.enqueueM (.zero n.toNat (wide == 1) v.toNat form) [] true).noteForm n.toNat form
    if wide == 1 then s1.noteForm (n.toNat + 1) form else s1

/-- The meaning of `MZERO`. -/
def execMzero (n : BitVec 3) (wide : BitVec 1) (v f : BitVec 2) (s : State) : Out :=
  runWord (mzeroWord n wide v f) s

/-- A descriptor of the flat or plane kind with a count of 1 to 4,096 (08 R177, R178). -/
def State.tileRegionOk (s : State) (d : DReg) : Bool :=
  (s.cx.desc d).kind != 2 && decide (1 ≤ s.countOf d) && decide (s.countOf d ≤ 4096)

/-- `MDRAIN` (08 R177, R178). -/
def mdrainWord (d : BitVec 6) (n m : BitVec 3) (clr : BitVec 1) : WordSpec where
  illop := fun s =>
    let dd := d.extractLsb' 0 5
    s.usesIllop [.of dd .dst (s.countOf dd)] || !s.tileRegionOk dd
  stall := fun s _ _ => s.shuttleFull
  check := fun s _ =>
    let dd := d.extractLsb' 0 5
    s.usesTrap [.of dd .dst (s.countOf dd)]
  effect := fun s _ =>
    let r := s.regionOf (d.extractLsb' 0 5)
    s.enqueueM (.drain r n.toNat m.toNat (clr == 1)) (s.commandDeps (some r) none) true

/-- The meaning of `MDRAIN`. -/
def execMdrain (d : BitVec 6) (n m : BitVec 3) (clr : BitVec 1) (s : State) : Out :=
  runWord (mdrainWord d n m clr) s

/-- `MLDA` (08 R177, R178). -/
def mldaWord (n : BitVec 3) (a : BitVec 6) (f : BitVec 2) (m : BitVec 3) : WordSpec where
  illop := fun s =>
    let da := a.extractLsb' 0 5
    s.usesIllop [.of da .src (s.countOf da)] || !s.tileRegionOk da
  stall := fun s _ _ => s.shuttleFull
  check := fun s _ =>
    let da := a.extractLsb' 0 5
    s.usesTrap [.of da .src (s.countOf da)]
  effect := fun s _ =>
    let r := s.regionOf (a.extractLsb' 0 5)
    let form := formOfBits f.toNat
    (s.enqueueM (.load n.toNat r form m.toNat) (s.commandDeps (some r) none) true).noteForm
      n.toNat form

/-- The meaning of `MLDA`. -/
def execMlda (n : BitVec 3) (a : BitVec 6) (f : BitVec 2) (m : BitVec 3) (s : State) : Out :=
  runWord (mldaWord n a f m) s

/-- Rows and lanes of an `MWGT` of a count, by the format of B, the form and the precision in effect at issue
(08 R179). -/
def State.weightShape (s : State) (count : Nat) : Nat × Nat :=
  let cfg := s.cx.mcfg
  let (P, _) := stepPacking cfg (s.fmtOf cfg.fb) (s.fmtOf cfg.fb)
  (count / (64 * P), P)

/-- `MWGT` (08 R179): a plane region whose count is 64 × P times 1 to 64 rows. -/
def mwgtWord (b : BitVec 6) : WordSpec where
  illop := fun s =>
    let d := b.extractLsb' 0 5
    let (nr, P) := s.weightShape (s.countOf d)
    s.usesIllop [.of d .src (s.countOf d)] || (s.cx.desc d).kind != 1
      || nr * (64 * P) != s.countOf d || decide (nr < 1) || decide (64 < nr)
  stall := fun s _ _ => s.shuttleFull
  check := fun s _ =>
    let d := b.extractLsb' 0 5
    s.usesTrap [.of d .src (s.countOf d)]
  effect := fun s _ =>
    let r := s.regionOf (b.extractLsb' 0 5)
    let (nr, P) := s.weightShape r.count
    s.enqueueM (.weights r nr P s.cx.mcfg.p) (s.commandDeps (some r) none) true

/-- The meaning of `MWGT`. -/
def execMwgt (b : BitVec 6) (s : State) : Out := runWord (mwgtWord b) s

/-- `SLOAD` (08 R180): a flat N16 region of count 1 to 8 and stride 1. -/
def sloadWord (n : BitVec 2) (a : BitVec 6) : WordSpec where
  illop := fun s =>
    let d := a.extractLsb' 0 5
    let x := s.cx.desc d
    s.usesIllop [.of d .src (x.count)] || x.kind != 0 || s.fmtOf x.code != .int false 16
      || x.stride != 1 || x.count == 0 || decide (8 < x.count)
  stall := fun s _ _ => s.shuttleFull
  check := fun s _ =>
    let d := a.extractLsb' 0 5
    s.usesTrap [.of d .src (s.countOf d)]
  effect := fun s _ =>
    let r := s.regionOf (a.extractLsb' 0 5)
    s.enqueueM (.program n.toNat r) (s.commandDeps (some r) none) true

/-- The meaning of `SLOAD`. -/
def execSload (n : BitVec 2) (a : BitVec 6) (s : State) : Out := runWord (sloadWord n a) s

/-- `SSEL` (08 R177). -/
def sselWord (p : BitVec 6) : WordSpec where
  stall := fun s _ _ => s.shuttleFull
  effect := fun s _ => s.configure { s.cx.mcfg with sel := p.toNat }

/-- The meaning of `SSEL`. -/
def execSsel (p : BitVec 6) (s : State) : Out := runWord (sselWord p) s

/-- `MFLOW` (08 R177): weight-stationary after skew 0 is illegal. -/
def mflowWord (p : BitVec 6) : WordSpec where
  illop := fun s => p == 1 && s.cx.mcfg.skew == 0
  stall := fun s _ _ => s.shuttleFull
  effect := fun s _ => s.configure { s.cx.mcfg with flow := p.toNat }

/-- The meaning of `MFLOW`. -/
def execMflow (p : BitVec 6) (s : State) : Out := runWord (mflowWord p) s

/-- `MSKEW` (08 R177): 0 is illegal in weight-stationary flow. -/
def mskewWord (p : BitVec 6) : WordSpec where
  illop := fun s => p == 0 && s.cx.mcfg.flow == 1
  stall := fun s _ _ => s.shuttleFull
  effect := fun s _ => s.configure { s.cx.mcfg with skew := p.toNat }

/-- The meaning of `MSKEW`. -/
def execMskew (p : BitVec 6) (s : State) : Out := runWord (mskewWord p) s

/-- `MFMT` (08 R159, R177). -/
def mfmtWord (p q opt : BitVec 6) : WordSpec where
  illop := fun s => !s.mfmtOk p.toNat q.toNat (formOfBits (opt.toNat % 4)) (opt.toNat / 4)
  stall := fun s _ _ => s.shuttleFull
  effect := fun s _ =>
    s.configure { s.cx.mcfg with fa := p.toNat, fb := q.toNat, form := formOfBits (opt.toNat % 4)
                                 p := opt.toNat / 4 + 1 }

/-- The meaning of `MFMT`. -/
def execMfmt (p q opt : BitVec 6) (s : State) : Out := runWord (mfmtWord p q opt) s

/-! ### Charge records -/

/-- The meaning of CHARGE_RECORD (20 R310). -/
def execChargeRecord (s : State) : Out := .next s.chargeRecord

/-! ### Starts -/

/-- The format of B of a step: that of its region, or, in weight-stationary flow, that of the configuration
(08 R160, R173). -/
def stepFmtB (a : Region) (b : Option Region) (cfg : MCfg) : Fmt :=
  match b with
  | some r => r.fmt
  | none => cfg.bFmt.getD a.fmt

/-- Beats of a step (08 R160). -/
def MKind.beats : MKind → Nat
  | .step _ wide d _ _ a b cfg =>
    let fb := stepFmtB a b cfg
    let (_, bpp) := stepPacking cfg a.fmt fb
    (if wide then 2 else 1) * d * bpp
  | _ => 0

/-- Whether a command is a step. -/
def MKind.isStep : MKind → Bool
  | .step _ _ _ _ _ _ _ _ => true
  | _ => false

/-- Whether a command is a configuration command. -/
def MKind.isConfig : MKind → Bool
  | .config _ => true
  | _ => false

/-- Whether a step has performed its last beat, or performs none (08 R165, R170). -/
def MCmd.beatsDone (m : MCmd) : Bool := m.fail.isSome || decide (m.kind.beats ≤ m.beat)

/-- Whether a command may start, given those before it in the queue (08 R170, R172). -/
def State.mayStart (s : State) (before : List MCmd) (m : MCmd) : Bool :=
  before.all (fun x => x.started && x.owner == m.owner) && s.depsDone m.deps &&
  (match m.kind with
   | .config _ => true
   | .step _ _ _ _ _ _ _ _ => before.all (fun x => x.kind.isStep && x.beatsDone && !x.fenced)
   | _ => before.isEmpty)

/-- The first command that has not started, with those before it. -/
def firstWaiting : List MCmd → Option (List MCmd × MCmd)
  | [] => none
  | m :: t =>
    if m.started then (firstWaiting t).map (fun x => (m :: x.1, x.2)) else some ([], m)

/-- Replace a command of the shuttle. -/
def State.setM (s : State) (m : MCmd) : State :=
  { s with core := { s.core with shq := s.core.shq.map (fun x => if x.id == m.id then m else x) } }

/-- SHUTTLE_COMMAND_START (08 R165, R170): the first waiting command starts. A configuration
command takes effect and completes; a step learns whether it performs any beat; a step or `MWGT`
is charged from here on (20 R310). -/
def State.shuttleStart (s : State) : State :=
  match firstWaiting s.core.shq with
  | none => s
  | some (before, m) =>
    if !s.mayStart before m then s
    else
      match m.kind with
      | .config c =>
        { s with core := { s.core with
          cfg := c
          shq := (s.core.shq.filter (fun x => x.id != m.id)).map (fun x =>
            if x.started then { x with fenced := true } else x) } }
      | .step _ _ _ _ _ a _ cfg =>
        (s.setM { m with started := true, total := m.kind.beats, fail := s.stepFault m.owner cfg a.fmt }).noteStep m
      | .weights _ _ _ _ => (s.setM { m with started := true }).noteStep m
      | _ => s.setM { m with started := true }

/-- The meaning of SHUTTLE_COMMAND_START. -/
def execShuttleCommandStart (s : State) : Out := .next s.shuttleStart

/-! ### Beats -/

/-- The stronger of two tag modes: keep, wait, take (08 R174). -/
def strongerTag (x y : TagMode) : TagMode :=
  if x == .take || y == .take then .take
  else if x == .wait || y == .wait then .wait
  else .keep

/-- The groups of A and of B that beat b reads (08 R158, R185). -/
def beatGroups (cfg : MCfg) (P bpp d : Nat) (wide : Bool) (b : Nat) : List Nat × List Nat :=
  let kg := b / bpp % d
  let q := b / (d * bpp)
  let ks := (List.range P).map (fun j => kg * P + j)
  (ks, if cfg.flow = 1 then [] else ks.map (fun k => if wide then 2 * k + q else k))

/-- The scale indices that a group's elements read lie in weight-store banks in their refresh window (10
R195). -/
def State.scaleBlocked (s : State) (r : Region) (g : Nat) : Bool :=
  ((List.range 64).filterMap (fun i => r.scaleByte (64 * g + i))).any s.wsBlocked

/-- The words a step reads at a beat, with the mode of the operand that reads each (08 R174): each beat of an FP32 or
FP64 product reads every plane of both groups (09 R185; log entry 120). -/
def stepWords (cfg : MCfg) (P bpp d : Nat) (wide : Bool) (tag : TagMode) (a : Region)
    (b : Option Region) (beat : Nat) : List (Nat × TagMode) :=
  let (ga, gb) := beatGroups cfg P bpp d wide beat
  ga.flatMap (fun g => (a.groupWords cfg.p g).map (fun w => (w, strongerTag tag a.tag)))
  ++ (match b with
      | some r => gb.flatMap (fun g => (r.groupWords cfg.p g).map (fun w => (w, strongerTag tag r.tag)))
      | none => [])

/-- The mode that acts on a word of a step: the strongest of the operands that read it in any beat (08
R174). -/
def actMode (words : Nat → List (Nat × TagMode)) (beats w : Nat) : TagMode :=
  ((List.range beats).flatMap words).foldl (fun m x => if x.1 == w then strongerTag m x.2 else m) .keep

/-- The tile values of the elements beyond row d − 1 when a weight-stationary step changes the
form: undefined (08 R168, R173). -/
def State.reformTile (s : State) (t : Tile) (form : Form) (d : Nat) : Tile × State :=
  if t.form == form then (t, s)
  else
    let l := (List.range (4096 - 64 * d)).map (fun i =>
      (64 * d + i, Config.freeWord (s.fv + i) &&& (if form == .fp64 then -1 else
        if form == .i16 then 0xFFFF else 0xFFFFFFFF)))
    ({ form := form, elems := t.elems.filter (fun e => decide (e.1 < 64 * d)) ++ l.filter (fun e => e.2 != 0) },
      { s with fv := s.fv + 4096 })

/-- The program of a step runs in every cell for the beat's products (08 R163, R173). In weight-stationary
flow only the lanes of the rows in use enter products, and raise flags. A step that does not begin its tile reads the
codes there in its own form, whatever form a failed step before it left (08 R165, R168; log entry 118). -/
def State.runBeat (s : State) (m : MCmd) (acc : Nat) (wide : Bool) (d init : Nat) (a : Region)
    (b : Option Region) (cfg : MCfg) : State × Flags :=
  let fb := stepFmtB a b cfg
  let (P, bpp) := stepPacking cfg a.fmt fb
  let prog := (s.programOf m.owner cfg.sel).getD []
  let k : StepRun :=
    { cfg := cfg, isF := a.fmt.isFloat, widen := !a.fmt.isFloat && widens prog, P := P, bpp := bpp
      prog := prog }
  let (ga, gb) := beatGroups cfg P bpp d wide m.beat
  let kg := m.beat / bpp % d
  let q := m.beat / (d * bpp)
  let la := ga.map (s.groupLanes a k.widen cfg.p)
  let used := if cfg.flow = 1 then s.core.wtRows else 64
  let fl := la.foldl (fun f x => f ||| laneFlags (x.take used)) 0
  let rows := edgeLanes (la.map (fun x => x.map (·.1)))
  let old := s.ownerTile m.owner (acc + q)
  if cfg.flow = 1 then
    let (t, s) := if kg = 0 && init != 0 then s.reformTile old cfg.form d else (old, s)
    let start := (List.range 64).map (fun n =>
      if init != 0 then infCode cfg.form (init - 1) else t.get (64 * kg + n))
    let (out, f, fv) := weightBeat k (s.heldWeights k) s.core.wtRows rows start (s.fv + 64 * 64 * 64)
    let t := { t with form := cfg.form }
    let t := out.zipIdx.foldl (fun (t : Tile) (x : Word × Nat) => t.put (64 * kg + x.2) x.1) t
    ({ s with fv := fv }.setOwnerTile m.owner acc t, fl ||| f ||| s.weightFlags k)
  else
    let lb := match b with
      | some r => gb.map (s.groupLanes r k.widen cfg.p)
      | none => []
    let fl := lb.foldl (fun f x => f ||| laneFlags x) fl
    let cols := edgeLanes (lb.map (fun x => x.map (·.1)))
    let t := if kg = 0 && init != 0 then Tile.fill cfg.form (infCode cfg.form (init - 1)) else old
    let (t, f, fv) := arrayBeat k t rows cols s.fv
    ({ s with fv := fv }.setOwnerTile m.owner (acc + q) t, fl ||| f)

/-- The words of a beat that the step reads for the last time, having read them in take mode (08 R174, 09
R185). -/
def takenAt (words : Nat → List (Nat × TagMode)) (beat beats : Nat) : List Nat :=
  let later := (List.range (beats - beat - 1)).flatMap (fun i => (words (beat + 1 + i)).map (·.1))
  ((words beat).map (·.1)).filter (fun w => !later.contains w && actMode words beats w == .take)

/-- The words that no beat before this one has read. -/
def firstAtBeat (words : Nat → List (Nat × TagMode)) (beat : Nat) (l : List (Nat × TagMode)) :
    List (Nat × TagMode) :=
  let earlier := (List.range beat).flatMap (fun i => (words i).map (·.1))
  l.filter (fun w => !earlier.contains w.1)

/-- A word as a beat of a command reads it: undefined where software may not read it (17 R276), poisoned in a
partition that was freed meanwhile (06 R99). -/
def State.beatRead (s : State) (m : MCmd) (w : Nat) : Nat × Nat × Bool :=
  if s.freedFor m.id w then (w, 0, true) else s.wordSeen w

/-- A beat meets the tags of words that the step first reads: each that is full, and has no earlier waiter, is read
and, where the step reads it no more, emptied; at the others the step parks (08 R174, 06 R108, R109). Whether it has
met them all. -/
def State.beatTags (s : State) (m : MCmd) (first taken : List Nat) : State × MCmd × Bool :=
  let (go, stay) := (first.filter (fun w => !m.acted.contains w)).partition
    (fun w => s.freedFor m.id w || (s.full (8 * w) && s.firstAt m.id w true))
  let v := s.hotView (some (m.owner, m.id)) go
  let t := ({ s with fv := v.fv }).tagsAct .take false
    (go.filter (fun w => taken.contains w && !s.freedFor m.id w))
  let m := { m with acted := m.acted ++ go, seen := m.seen ++ go.map (v.beatRead m) }
  ((t.unpark m.id go).parkAll m.owner m.id stay true, m, stay.isEmpty)

/-- Memory as a product uses it: each operand word as one of its beats read it; where they read it differently, which
one is a free choice (09 R185, 18 R289; 08 R176; log entry 84). -/
def State.productView (s : State) (reads : List (Nat × Nat × Bool)) : State :=
  let (x, s) := s.draw
  s.seenView ((wordSet (reads.map (·.1))).filterMap (fun w =>
    let l := reads.filter (fun e => e.1 == w)
    if l.all (fun e => some e == l.head?) then l.head?
    else l[(Config.freeIndex x.toNat w).toNat % l.length]?))

/-- BEAT (08 R156 to R163, R173, R174; 09 R185): the step whose beats come next performs one, once the
operand words it first reads are full; the program runs at the last beat of a product. -/
def State.beat (s : State) : State :=
  match s.core.shq.find? (fun m => m.started && m.kind.isStep && !m.beatsDone) with
  | none => s
  | some m =>
    match m.kind with
    | .step acc wide d tag init a b cfg =>
      let fb := stepFmtB a b cfg
      let (P, bpp) := stepPacking cfg a.fmt fb
      let words := stepWords cfg P bpp d wide tag a b
      let now := (words m.beat).map (fun w => (w.1, actMode words m.kind.beats w.1))
      let (ga, gb) := beatGroups cfg P bpp d wide m.beat
      if now.any (fun w => s.wsBlocked (8 * w.1)) || ga.any (s.scaleBlocked a)
          || gb.any (fun g => b.any (fun r => s.scaleBlocked r g)) then s.wsNote
      else
        let first := wordSet (((firstAtBeat words m.beat now).filter (fun w => w.2 != .keep)).map (·.1))
        let taken := takenAt words m.beat m.kind.beats
        match s.beatTags m first taken with
        | (s, m, false) => s.setM m
        | (s, m, true) =>
          let s := s.unparkAll m.id
          let rest := wordSet ((now.map (·.1)).filter (fun w => !first.contains w))
          let v := s.hotView (some (m.owner, m.id)) rest
          let s := { s with fv := v.fv, core := { s.core with beatDone := true } }
          let reads := m.seen ++ rest.map (v.beatRead m)
          let last := m.beat % bpp == bpp - 1
          let (s, f) : State × Flags :=
            if last then
              let (t, f) := (s.productView reads).runBeat m acc wide d init a b cfg
              ({ t with mem := s.mem, marks := s.marks }, f)
            else (s, 0)
          let s := s.tagsAct .take false (taken.filter (fun w => rest.contains w && !s.freedFor m.id w))
          s.setM { m with beat := m.beat + 1, flags := m.flags ||| f, seen := if last then [] else reads }
    | _ => s

/-- The meaning of BEAT. -/
def execBeat (s : State) : Out := .next s.beat

/-! ### Completions -/

/-- A shuttle command leaves the queue, and its batch hears of it (08 R171, R181). -/
def State.endM (s : State) (m : MCmd) : State :=
  let s := { s.unparkAll m.id with core := { (s.unparkAll m.id).core with shq := s.core.shq.filter (fun x => x.id != m.id) } }
  s.cmdDone m.owner m.id m.fail m.flags

/-- The words of group g of a region. -/
def Region.groupOf (r : Region) (g : Nat) : List Nat :=
  wordSet ((List.range (Nat.min 64 (r.count - 64 * g))).flatMap (fun i => r.words (64 * g + i)))

/-- The elements of group g of a region. -/
def Region.groupIdx (r : Region) (g : Nat) : List Nat :=
  (List.range (Nat.min 64 (r.count - 64 * g))).map (fun i => 64 * g + i)

/-- The words of a list that a command still reaches: not those of a partition that was freed while it waited
there (06 R99). -/
def State.kept (s : State) (m : MCmd) (l : List Nat) : List Nat := wordSet (l.filter (fun w => !s.freedFor m.id w))

/-- Group g of an `MDRAIN`: elements converted from the tile's form, at the words of a list, all that there are or
those whose tags allow it, with the tags of the destination (08 R178); it clears no mark (06 R102), and an index of
scales from a marked line poisons its elements. -/
def State.drainGroup (s : State) (m : MCmd) (d : Region) (n mode : Nat) (go : List Nat) (all : Bool) :
    State × Flags :=
  let t := s.ownerTile m.owner n
  let idx := (d.groupIdx m.beat).filter (fun i =>
    !(d.words i).any (s.freedFor m.id) && (all || (d.words i).any go.contains))
  let (u, f) := idx.foldl (fun (x : State × Flags) i =>
    let (c, f) := x.1.convertAt d i mode (formValue t.form (t.get i))
    (x.1.putElem d i c (x.1.scalePoison d i), x.2 ||| f)) (s, (0 : Flags))
  let u := (s.onlyWords u go all).wrote s d.actor
    ((idx.flatMap d.bytesAt).filter (fun l => all || go.contains (l / 8)))
  (u.tagsAct d.tag true (s.kept m go), f)

/-- Group g of an `MLDA`: elements converted into the tile's form (08 R178), as the words that it has waited for were
read. -/
def State.loadGroup (s : State) (m : MCmd) (a : Region) (n : Nat) (form : Form) (mode : Nat) :
    State × Flags :=
  let idx := a.groupIdx m.beat
  let old := if m.beat = 0 then { form := form } else s.ownerTile m.owner n
  let (t, v, f) := idx.foldl (fun (x : Tile × State × Flags) i =>
    let ((code, p), s) := x.2.1.readElem a i
    let (c, f) : Nat × Flags :=
      if p || (a.words i).any (s.freedFor m.id) then ((fmtOfForm form).poisonCode, Flag.nv)
      else
        let (v, f) := s.valueAt a i code
        let (c, g) := (fmtOfForm form).convert mode v
        (c, f ||| g)
    (x.1.put i (mkWord c), s, x.2.2 ||| f)) (old, s.seenView m.seen, (0 : Flags))
  ({ s with fv := v.fv }.setOwnerTile m.owner n t, f)

/-- The weights of group g of an `MWGT`: group P × r + j holds lane j of row r (08 R158, R179); each keeps the flags
that it gives the steps which use it (R173). -/
def State.weightGroup (s : State) (m : MCmd) (b : Region) (lanes p : Nat) : State :=
  let view := (s.seenView m.seen).hotView b.actor (b.groupWords p m.beat)
  let freed := (b.groupWords p m.beat).filter (s.freedFor m.id)
  let l := (freed.foldl (fun (s : State) w => s.setMark (8 * w) true) view).groupLanes b false p m.beat
  let r := m.beat / lanes
  let j := m.beat % lanes
  let cells := l.zipIdx.map (fun (v, n) => ((r * 64 + n) * 64 + j, v))
  { s with
    fv := view.fv
    core := { s.core with wts := s.core.wts.filter (fun e => !cells.any (fun c => c.1 == e.1)) ++ cells } }

/-- The words of group g that a tile command reads or writes: of the weights the planes that the array reads
(04 R55). -/
def MKind.groupWords (k : MKind) (g : Nat) : List Nat :=
  match k with
  | .drain d _ _ _ => d.groupOf g
  | .load _ a _ _ => a.groupOf g
  | .weights b _ _ p => wordSet (b.groupWords p g)
  | .program _ a => a.groupOf g
  | _ => []

/-- The region, role and groups that a tile command passes. -/
def MKind.region : MKind → Option (Region × Bool)
  | .drain d _ _ _ => some (d, true)
  | .load _ a _ _ => some (a, false)
  | .weights b _ _ _ => some (b, false)
  | .program _ a => some (a, false)
  | _ => none

/-- One group of a tile command that reads. -/
def State.tileGroup (s : State) (m : MCmd) : State × Flags :=
  match m.kind with
  | .load n a form mode => s.loadGroup m a n form mode
  | .weights b _ lanes p => (s.weightGroup m b lanes p, 0)
  | _ => (s, 0)

/-- A tile command after a group; what `SLOAD` has read it keeps to its end. -/
def MCmd.nextGroup (m : MCmd) (f : Flags) : MCmd :=
  { m with beat := m.beat + 1, flags := m.flags ||| f, acted := []
           seen := match m.kind with | .program _ _ => m.seen | _ => [] }

/-- A tile command meets the tags of its next group, word by word; whether the group has passed (06 R109, 07 R132,
08 R174, R180). -/
def State.tilePass (s : State) (m : MCmd) (r : Region) (dst : Bool) : State × MCmd × Bool :=
  let words := m.kind.groupWords m.beat
  match m.kind with
  | .drain d n mode _ =>
    let (go, stay) := s.splitWords m.id r.tag true (words.filter (fun w => !m.acted.contains w))
    let (u, f) := s.drainGroup m d n mode go (stay.isEmpty && m.acted.isEmpty)
    if stay.isEmpty then (u.unparkAll m.id, m.nextGroup f, true)
    else ((u.unpark m.id go).parkAll m.owner m.id stay (!dst),
      { m with acted := m.acted ++ go, flags := m.flags ||| f }, false)
  | _ =>
    let (s, got, ok) := s.meetFull m.owner m.id r.tag (words.filter (fun w => !m.seen.any (fun e => e.1 == w)))
    let m := { m with seen := m.seen ++ got }
    if ok then
      let (s, f) := (s.unparkAll m.id).tileGroup m
      (s, m.nextGroup f, true)
    else (s, m, false)

/-- The groups of a tile command that its tags allow, in ascending order. -/
def State.passGroups : Nat → State → MCmd → State × MCmd
  | 0, s, m => (s, m)
  | fuel + 1, s, m =>
    match m.kind.region with
    | none => (s, m)
    | some (r, dst) =>
      if (r.count + 63) / 64 ≤ m.beat then (s, m)
      else if (m.kind.groupWords m.beat).any (fun w => s.wsBlocked (8 * w))
          || ((r.groupIdx m.beat).filterMap r.scaleByte).any s.wsBlocked then (s.wsNote, m)
      else
        match s.tilePass m r dst with
        | (s, m, true) => State.passGroups fuel s m
        | (s, m, false) => (s, m)

/-- What a tile command does when all its groups have passed (08 R178 to R180). What `SLOAD` loads from a
poison-marked line the spec does not say: the bytes as they stand (DESIGN CHOICE, log entry 97). -/
def State.tileEnd (s : State) (m : MCmd) : State :=
  match m.kind with
  | .zero n wide v f =>
    let s := s.setOwnerTile m.owner n (Tile.fill f (infCode f v))
    if wide then s.setOwnerTile m.owner (n + 1) (Tile.fill f (infCode f v)) else s
  | .drain _ n _ true => s.setOwnerTile m.owner n { form := (s.ownerTile m.owner n).form }
  | .weights b nr lanes p =>
    { s with core := { s.core with wtRows := nr, wtLanes := lanes, wtCode := b.code, wtP := p } }
  | .program slot a =>
    let v := (s.seenView m.seen).hotView a.actor (a.groupOf 0)
    let ws := (List.range a.count).map (fun i => BitVec.ofNat 16 (v.readNat (a.at i) 2))
    { s with fv := v.fv, core := { s.core with
      slots := s.core.slots.setIfInBounds slot { words := ws, owner := some m.owner } } }
  | _ => s

/-- SHUTTLE_COMMAND_COMPLETE (08 R171, R178 to R181): the first started command completes: a step
once its beats are done, a tile command once its groups have passed. -/
def State.shuttleComplete (s : State) : State :=
  match s.core.shq with
  | [] => s
  | m :: _ =>
    if !m.started then s
    else if m.kind.isStep then
      if m.beatsDone then s.endM m else s
    else
      let (s, m) := State.passGroups 1024 s m
      match m.kind.region with
      | some (r, _) =>
        if (r.count + 63) / 64 ≤ m.beat then (s.tileEnd m).endM m else s.setM m
      | none => (s.tileEnd m).endM m

/-- The meaning of SHUTTLE_COMMAND_COMPLETE. -/
def execShuttleCommandComplete (s : State) : Out := .next s.shuttleComplete

end Sys2Proof.Machine
end

