-- ==== Sys2Proof/Machine/Blocks.lean ====
section
/-!
DEFINITION. The TABLE words (10 R206) and the parameter blocks of the X pipe: their addresses and
reading (10 R201, 16 R268), the fields and the issue checks of a copy block (10 R200 to R203), and
what a command waits for (10 R199).
-/

namespace Sys2Proof.Machine

open Sys2Proof

/-! ### TABLE -/

/-- `SCLD` (10 R206): entries change one by one as they land. -/
def scldWord (a : SReg) (n : BitVec 3) (f : BitVec 4) : WordSpec where
  check := fun s _ => s.poisonCheck a (s.cx.sreg a)
  effect := fun s _ =>
    let v := (s.cx.sreg a).val
    (List.range (n.toNat + 1)).foldl (fun (s : State) i =>
      s.push (.sc (f + BitVec.ofNat 4 i) (v.extractLsb' (8 * i) 8)) 6) s

/-- The meaning of `SCLD`. -/
def execScld (a : SReg) (n : BitVec 3) (f : BitVec 4) (s : State) : Out := runWord (scldWord a n f) s

/-- `FMSET` (10 R206, 04 R48). -/
def fmsetWord (a : SReg) (n : BitVec 4) : WordSpec where
  illop := fun s => !(s.cx.sreg a).poison && !fmtRegLegal ((s.cx.sreg a).val.extractLsb' 0 32)
  check := fun s _ => s.poisonCheck a (s.cx.sreg a)
  effect := fun s _ => s.push (.fm n ((s.cx.sreg a).val.extractLsb' 0 32)) 1

/-- The meaning of `FMSET`. -/
def execFmset (a : SReg) (n : BitVec 4) (s : State) : Out := runWord (fmsetWord a n) s

/-- `FMGET` (10 R206). -/
def fmgetWord (a : SReg) (n : BitVec 4) : WordSpec where
  effect := fun s _ => s.wreg a { val := (s.cx.fm n).zeroExtend 64 } 2

/-- The meaning of `FMGET`. -/
def execFmget (a : SReg) (n : BitVec 4) (s : State) : Out := runWord (fmgetWord a n) s

/-! ### Parameter blocks -/

/-- A block's address: near, in region 0 or 1, aligned, or ADDR (10 R201 stage 4, 16 R268). -/
def State.blockAt (s : State) (a : Word) (align : Nat) : Option Nat :=
  if a.toNat % align != 0 || bitsOf a 52 12 != 0x10 && bitsOf a 52 12 != 0x11 then none
  else
    match s.locate a with
    | .ok (.near loc) => some loc
    | _ => none

/-- POISON, ADDR and PERM of a block's address (10 R201 stages 3 to 5, 16 R268). -/
def State.blockCheck (s : State) (p : SReg) (align : Nat) : Option TrapReq :=
  let a := (s.cx.sreg p).val
  match s.poisonCheck p (s.cx.sreg p) with
  | some t => some t
  | none =>
    match s.blockAt a align with
    | none => some ⟨6, a⟩
    | some loc => if s.granted loc then none else some ⟨7, a⟩

/-- The words of a block. -/
def State.blockWords (s : State) (loc n : Nat) : List Word :=
  (List.range n).map (fun i => s.word (loc + 8 * i))

/-- The earlier A-pipe accesses and streams of the context, in a class or on a word for which `on` holds: what
an access of an engine or a block read in that class follows (06 R107, 10 R199, 18 R292). -/
def State.opsOn (s : State) (cls : Nat) (on : Nat → Bool) : List Nat :=
  (s.cx.accs.filter (fun a => a.cls == cls || (s.accWords a).any on)).map (·.id)
  ++ (s.replayAcc.filter (fun e => e.1.cls == cls || e.2.any on)).map (·.1.id)
  ++ (s.cx.streams.filter (fun t => t.hasClass cls || t.regions.any (fun r => r.kind != 2 &&
      (List.range r.count).any (fun i => (r.words i).any on)))).map (·.id)
  ++ (s.core.lines.filter (fun l => l.owner == s.cx.uid &&
      (l.cls == cls || (s.lineWords l).any on))).flatMap (·.ids)
  ++ (s.fab.pkts.filter (fun p => p.owner == s.cx.uid &&
      (p.cls == cls || (s.packetWords p).any on))).flatMap (·.ids)
  ++ s.cx.capDeps

/-- Whether earlier accesses of the class, or of the block's words, have still to perform before
the block can be read, or a fence stands before it (06 R107, R123; 10 R201, 16 R268). -/
def State.blockHeld (s : State) (p : SReg) (align : Nat) (cls : Nat) : Bool :=
  (s.blockCheck p align).isNone &&
  (match s.blockAt (s.cx.sreg p).val align with
   | some loc =>
     !s.depsDone (s.opsOn cls (fun w => decide (loc / 8 ≤ w) && decide (w < (loc + align) / 8)))
     || s.cx.fences.any (fun f => f.mask.getLsbD cls && !s.depsDone f.deps)
   | none => false)

/-- Whether the X-pipe queue has no free entry (10 R186). -/
def State.xFull (s : State) : Bool := decide (8 ≤ s.cx.xq.length)

/-! ### Fields of a copy block -/

/-- The engine of a command, of the 128 of the package (10 R186). -/
def CopyCmd.engine (c : CopyCmd) : Nat := 2 * c.die + (if c.eng then 1 else 0)

/-- A word of a block. -/
def blkWord (blk : List Word) (i : Nat) : Word := (blk[i]?).getD 0
/-- Source address (10 R200). -/
def blkFrom (blk : List Word) : Word := keep (blkWord blk 0) 0 57
/-- Destination address. -/
def blkTo (blk : List Word) : Word := keep (blkWord blk 1) 0 57
/-- Count. -/
def blkCount (blk : List Word) : Nat := bitsOf (blkWord blk 2) 0 32
/-- Source format code. -/
def blkSfmt (blk : List Word) : Nat := bitsOf (blkWord blk 2) 32 5
/-- Destination format code. -/
def blkDfmt (blk : List Word) : Nat := bitsOf (blkWord blk 2) 37 5
/-- Rounding mode. -/
def blkMode (blk : List Word) : Nat := bitsOf (blkWord blk 2) 42 3
/-- Source tag mode. -/
def blkStag (blk : List Word) : Nat := bitsOf (blkWord blk 2) 45 2
/-- Destination tag mode. -/
def blkDtag (blk : List Word) : Nat := bitsOf (blkWord blk 2) 47 2
/-- Destination scaled. -/
def blkDscl (blk : List Word) : Bool := (blkWord blk 2).getLsbD 49
/-- Source row stride. -/
def blkSstride (blk : List Word) : Int := intOfCode true 32 (bitsOf (blkWord blk 3) 0 32)
/-- Destination row stride. -/
def blkDstride (blk : List Word) : Int := intOfCode true 32 (bitsOf (blkWord blk 3) 32 32)
/-- Rows. -/
def blkRows (blk : List Word) : Nat := bitsOf (blkWord blk 4) 0 16
/-- Columns. -/
def blkCols (blk : List Word) : Nat := bitsOf (blkWord blk 4) 16 16
/-- Plane orientation. -/
def blkOrient (blk : List Word) : Bool := (blkWord blk 4).getLsbD 32
/-- Index list or scale-index region. -/
def blkAux (blk : List Word) : Word := keep (blkWord blk 5) 0 57
/-- Bytes per gathered row. -/
def blkRowBytes (blk : List Word) : Nat := bitsOf (blkWord blk 6) 0 32
/-- Target die. -/
def blkDie (blk : List Word) : Nat := bitsOf (blkWord blk 6) 32 6
/-- Index kind. -/
def blkIkind (blk : List Word) : Nat := bitsOf (blkWord blk 6) 38 2

/-- The block with its patch applied (10 R201). -/
def patchBlock (blk : List Word) (patch : Nat) (q : Word) : List Word :=
  match patch with
  | 1 => blk.set 0 q
  | 2 => blk.set 1 q
  | 3 => blk.set 2 (blkWord blk 2 - keep (blkWord blk 2) 0 32 + keep q 0 32)
  | _ => blk

/-- Bytes of n flat elements of width w and stride 1 (04 R53). -/
def flatBytes (w n : Nat) : Nat :=
  if 16 ≤ w then n * (w / 8) else if 5 ≤ w then n else (n + 1) / 2

/-- Groups of a plane side (10 R203). -/
def planeGroups (rows cols : Nat) (orient : Bool) : Nat :=
  if orient then rows * ((cols + 63) / 64) else cols

/-- Width of a format code, from the format registers. -/
def State.widthOf (s : State) (code : Nat) : Nat := (s.fmtOf code).width

/-- Bytes of an index of a kind. -/
def indexBytes (k : Nat) : Nat := if k = 0 then 2 else 4

/-- A side of a command: rows of some bytes at a stride from a base; a flat side is one row. -/
structure Side where
  base : Word
  rows : Nat
  bytes : Nat
  stride : Int

/-- A flat side. -/
def Side.flat (a : Word) (len : Nat) : Side := { base := a, rows := 1, bytes := len, stride := 0 }

/-- The lowest offset of a side from its base. -/
def Side.lo (x : Side) : Int := min 0 (x.stride * (x.rows - 1 : Nat))

/-- The extent of a side in bytes, none where it has no row. -/
def Side.len (x : Side) : Nat :=
  if x.rows = 0 || x.bytes = 0 then 0 else (x.stride * (x.rows - 1 : Nat)).natAbs + x.bytes

/-- The lowest address of a side. -/
def Side.addr (x : Side) : Word := keep (x.base + BitVec.ofInt 64 x.lo) 0 64

/-- Whether a side has a byte at an offset from its base: in one of its rows. -/
def Side.has (x : Side) (d : Int) : Bool :=
  let row := fun (k : Int) => decide (0 ≤ k) && decide (k < x.rows) && decide (0 ≤ d - k * x.stride)
    && decide (d - k * x.stride < x.bytes)
  if x.stride.natAbs ≤ x.bytes then decide (x.lo ≤ d) && decide (d < x.lo + x.len)
  else row (d / x.stride) || row (d / x.stride + 1) || row (d / x.stride - 1)

/-- The source and destination sides and the aux side of a command, from the widths of its formats (10 R202,
R203); `CPYW` has its destination in the weight store. -/
def copySides (fn : Nat) (blk : List Word) (sw dw : Nat) : Side × Option Side × Option Side :=
  let n := blkCount blk
  let mat := fun (a : Word) (stride : Int) =>
    ({ base := a, rows := blkRows blk, bytes := flatBytes sw (blkCols blk), stride := stride } : Side)
  let planes := fun (a : Word) =>
    Side.flat a (8 * sw * planeGroups (blkRows blk) (blkCols blk) (blkOrient blk))
  match fn with
  | 0 => (.flat (blkFrom blk) n, some (.flat (blkTo blk) n), none)
  | 1 => (mat (blkFrom blk) (blkSstride blk), some (planes (blkTo blk)), none)
  | 2 => (planes (blkFrom blk), some (mat (blkTo blk) (blkDstride blk)), none)
  | 3 =>
    ({ base := blkFrom blk, rows := blkRows blk, bytes := blkRowBytes blk, stride := blkSstride blk },
     some { base := blkTo blk, rows := n, bytes := blkRowBytes blk, stride := blkDstride blk },
     some (.flat (blkAux blk) (n * indexBytes (blkIkind blk))))
  | 4 => (.flat (blkFrom blk) n, none, none)
  | _ =>
    (.flat (blkFrom blk) (flatBytes sw n), some (.flat (blkTo blk) (flatBytes dw n)),
     if blkDscl blk then some (.flat (blkAux blk) ((n - 1) / 64 + 1)) else none)

/-- The sides of a command at its issue. -/
def State.sidesOf (s : State) (fn : Nat) (blk : List Word) : Side × Option Side × Option Side :=
  copySides fn blk (s.widthOf (blkSfmt blk)) (s.widthOf (blkDfmt blk))

/-! ### Issue checks -/

/-- Stage 6 of 10 R201: reserved and unused fields, formats, mode, tag modes, counts and shapes,
plane bases, tagged sides (R200, R202, R203). `ctl`: the die field selects an engine. No stage asks a flat
side of a wide format to be aligned (04 R54), so it is copied byte by byte (log entry 79); a scaled destination whose
format is not a narrow floating one is ILLOP, as for descriptors (07 R130; log entry 121). -/
def State.copyIllegal (s : State) (fn : Nat) (blk : List Word) (ctl : Bool) : Bool :=
  let w := blkWord blk
  let mat := fn == 1 || fn == 2
  let fmts := mat || fn == 5
  let zero := fun (i lo len : Nat) (used : Bool) => used || bitsOf (w i) lo len == 0
  let n := blkCount blk
  let (src, dst, _) := s.sidesOf fn blk
  let near := fun (a : Word) => a.getLsbD 56
  let tagBad := fun (x : Side) (t : Nat) =>
    t != 0 && near x.base && (x.base.toNat % 8 != 0 || x.addr.toNat % 8 != 0 || x.len % 8 != 0)
  !(zero 2 32 10 fmts && zero 2 42 3 (fn == 5) && zero 2 49 1 (fn == 5) && bitsOf (w 2) 50 14 == 0
    && zero 3 0 32 (fn == 1 || fn == 3) && zero 3 32 32 (fn == 2 || fn == 3)
    && zero 4 0 16 (mat || fn == 3) && zero 4 16 16 mat && zero 4 32 1 mat && bitsOf (w 4) 33 31 == 0
    && zero 5 0 64 (fn == 3 || (fn == 5 && blkDscl blk))
    && zero 6 0 32 (fn == 3) && zero 6 32 6 (fn == 4 || ctl) && zero 6 38 2 (fn == 3)
    && bitsOf (w 6) 40 24 == 0 && (fn != 4 || bitsOf (w 1) 28 36 == 0))
  || (fmts && (!codeNamed (blkSfmt blk) || !codeNamed (blkDfmt blk)))
  || (fn == 3 && blkIkind blk == 3)
  || decide (4 < blkMode blk)
  || blkStag blk == 3 || blkDtag blk == 2
  || (match fn with
      | 0 | 5 => n == 0
      | 1 | 2 =>
        n != 0 || blkRows blk == 0 || blkCols blk == 0
          || (!blkOrient blk && decide (64 < blkRows blk))
      | 3 => n == 0 || blkRowBytes blk == 0 || decide (2 ^ 20 < blkRowBytes blk)
      | _ =>
        n % 64 != 0 || (w 1).toNat % 64 != 0 || decide (2 ^ 28 < (w 1).toNat % 2 ^ 28 + n))
  || (fn == 5 && blkDscl blk && !narrowFloat (blkDfmt blk) (s.fmtOf (blkDfmt blk)))
  || (fn == 1 && near (blkTo blk) && (blkTo blk).toNat % 512 != 0)
  || (fn == 2 && near (blkFrom blk) && (blkFrom blk).toNat % 512 != 0)
  || tagBad src (blkStag blk)
  || (match dst with | some d => tagBad d (blkDtag blk) | none => false)

/-- Whether an address lies in a near region that a command does not reach: reserved or a window (10 R201). -/
def farRegion (a : Word) : Bool := a.getLsbD 56 && decide (4 ≤ bitsOf a 52 4)

/-- Whether an address lies in the weight store of the own die. -/
def inStore (a : Word) : Bool := bitsOf a 52 5 == 0x12

/-- The range of a side that fails 02 R15, or that runs past its region or past the end of global memory
(R16); the second is the first byte beyond (log entry 79). -/
def State.sideAddr (s : State) (x : Side) : Option Word :=
  if x.len = 0 || farRegion x.base then none
  else if x.base.getLsbD 56 then s.rangeAddr x.addr x.len
  else if (x.base.toNat : Int) + x.lo < 0 then some x.addr
  else if 2 ^ 56 < x.addr.toNat + x.len then some (mkWord (2 ^ 56))
  else none

/-- Stage 7 of 10 R201, condition by condition: a set high bit, a near range, a region not allowed, a tag mode
on a global side. An aux range is held to the regions of the other sides (log entry 79). -/
def State.copyAddr (s : State) (fn : Nat) (blk : List Word) : Option Word :=
  let (src, dst, aux) := s.sidesOf fn blk
  let raws := blkWord blk 0 :: ((dst.map (fun _ => blkWord blk 1)).toList ++ (aux.map (fun _ => blkWord blk 5)).toList)
  let sides := src :: (dst.toList ++ aux.toList)
  let tagged := (src, blkStag blk) :: (dst.map (fun d => (d, blkDtag blk))).toList
  (raws.find? (fun a => bitsOf a 57 7 != 0)).or <|
  (sides.findSome? s.sideAddr).or <|
  ((sides.find? (fun x => farRegion x.base)).map Side.addr).or <|
  (tagged.find? (fun e => e.2 != 0 && !e.1.base.getLsbD 56)).map (fun e => e.1.addr)

/-- Stage 8 of 10 R201, condition by condition: a near range outside 02 R16, a write to region 0x2, a tag mode
on region 0x2. The destination of a `CPYW` stands there at its offset (log entry 79). -/
def State.copyPerm (s : State) (fn : Nat) (blk : List Word) : Option Word :=
  let (src, dst, aux) := s.sidesOf fn blk
  let near := fun (x : Side) =>
    if x.base.getLsbD 56 && x.len != 0 then s.rangePerm x.addr x.len false false else none
  let store : List Word := if fn = 4 then [mkWord (0x12 * 2 ^ 52 + bitsOf (blkWord blk 1) 0 28)] else []
  ((src :: (dst.toList ++ aux.toList)).findSome? near).or <|
  (dst.bind (fun d => if inStore d.base then some d.addr else none)).or <|
  (if blkStag blk != 0 && inStore src.base then some src.addr else none).or <|
  if blkDtag blk != 0 then store.head? else none

/-- Stages 6 to 8 of 10 R201. -/
def State.copyBlockCheck (s : State) (fn : Nat) (blk : List Word) : Option TrapReq :=
  if s.copyIllegal fn blk s.core.control then some s.illop
  else ((s.copyAddr fn blk).map (TrapReq.mk 6)).or ((s.copyPerm fn blk).map (TrapReq.mk 7))

/-- What a COPY word names. -/
structure CopyReq where
  fn : Nat
  p : SReg
  q : SReg
  patch : BitVec 2
  cls : BitVec 4

/-- The block of a COPY word with its patch, and whether its line is poisoned (10 R201). -/
def CopyReq.block (c : CopyReq) (s : State) : List Word × Nat × Bool :=
  match s.blockAt (s.cx.sreg c.p).val 64 with
  | some loc =>
    (patchBlock (s.blockWords loc 8) c.patch.toNat (s.cx.sreg c.q).val, loc, s.marked loc)
  | none => ([], 0, false)

/-- Whether a near side touches the 8-byte word w. -/
def State.sideOn (s : State) (x : Side) (w : Nat) : Bool :=
  x.base.getLsbD 56 &&
  (let d : Int := (8 * w : Nat) - (s.locOf x.base : Int)
   decide (x.lo - 8 < d) && decide (d < x.lo + x.len) && (List.range 8).any (fun i => x.has (d + i)))

/-- Whether an access of global memory touches an 8-byte word of a global side. -/
def Side.globalOn (x : Side) (a : Acc) : Bool :=
  !x.base.getLsbD 56 && !isNear a.addr && a.win.isNone &&
  (List.range 8).any (fun i => x.has ((a.addr.toNat / 8 * 8 + i : Nat) - (x.base.toNat : Int)))

/-- The earlier accesses a command waits for, by its class and by the words of its sides; one that the replay buffer
holds is among them (10 R199, 08 R175, 18 R292 case 5, R299). -/
def State.copyDeps (s : State) (cls : Nat) (sides : List Side) : List Nat :=
  s.opsOn cls (fun w => sides.any (fun x => s.sideOn x w))
  ++ ((s.cx.accs ++ s.replayAcc.map (·.1)).filter (fun a => sides.any (fun x => x.globalOn a))).map (·.id)

end Sys2Proof.Machine
end

