-- ==== Sys2Proof/WellFormed.lean ====
section
/-!
DEFINITION. Which field values make an instruction, beyond what the decoder already refuses
(reserved bits and function values): the register and operand fields of 03 R36 to R38 and the
fixed operand ranges of each chapter. No `EXPER` word is well formed: the part of stepping 0x01
defines no experimental operation (03 R43). A decoded word that is not well formed raises ILLOP.
Checks that need a register, a descriptor or a format register are made by the meanings.
-/

namespace Sys2Proof

/-- A scalar field that may not be `lq`: any destination, and any scalar field of a C, V, R, M,
T or X word (03 R36). -/
def regOk (r : SReg) : Bool := r != 63

/-- A six-bit field that names a predicate (03 R36). -/
def predOk (r : SReg) : Bool := r.toNat ≤ 7

/-- A six-bit field that names a descriptor (07 R149, 08 R177). -/
def descOk (r : SReg) : Bool := r.toNat ≤ 31

/-- A precision field of an FPU word (03 R29). -/
def precOk (p : BitVec 2) : Bool := p.toNat ≤ 1

/-- A rounding-mode field (04 R61). -/
def modeOk (m : BitVec 3) : Bool := m.toNat ≤ 4

/-- The special-register numbers of 05 R78. -/
def specialNumbers : List Nat :=
  [0x000, 0x001, 0x002, 0x003, 0x004, 0x005, 0x006, 0x007, 0x008, 0x009, 0x00A, 0x00B, 0x00C,
   0x00D, 0x010, 0x011, 0x012, 0x013, 0x014, 0x018, 0x020, 0x021, 0x022, 0x100, 0x101, 0x102,
   0x103]

/-- The special registers with no writable field in either view (05 R78, R79): `cyc`, `coreid`,
`rank` and `wsrf`. -/
def specialReadOnly : List Nat := [0x000, 0x005, 0x006, 0x00D]

/-- An atomic's size is `.w` or `.d` (06 R117). -/
def atomSizeOk (sz : BitVec 2) : Bool := 2 ≤ sz.toNat

/-- The patch field of a COPY word against its q field (10 R201, stage 1). -/
def patchOk (cnt : Bool) (p q : SReg) (patch : BitVec 2) : Bool :=
  regOk p && regOk q && (patch != 0 || q == 0) && (cnt || patch != 3)

/-- Well-formedness of an instruction. -/
def Instr.wf : Instr → Bool
  | .nop | .endTask | .yield | .ret => true
  | .jmp a | .jmpl a => regOk a
  | .loop a n => regOk a && n != 0
  | .br _ _ _ | .call _ => true
  | .trap _ | .eret | .brk _ | .swapc | .tlbinvLocal | .tlbinvAll | .svc _ => true
  | .eretTo a | .check a | .mark a _ | .tlbinvPage a | .tlbinvAsid a => regOk a
  | .checkPred a => predOk a
  | .mfs a n => regOk a && specialNumbers.contains n.toNat
  | .mts a n => regOk a && specialNumbers.contains n.toNat && !specialReadOnly.contains n.toNat
  | .add d _ _ | .sub d _ _ | .mul d _ _ | .mulh d _ _ | .mulhn d _ _ | .div d _ _ | .divn d _ _
  | .rem d _ _ | .remn d _ _ | .and d _ _ | .or d _ _ | .xor d _ _ | .andn d _ _ | .shl d _ _
  | .shr d _ _ | .sar d _ _ | .rotl d _ _ | .min d _ _ | .max d _ _ | .minn d _ _
  | .maxn d _ _ => regOk d
  | .clz d _ | .popc d _ => regOk d
  | .sext d _ z | .zext d _ z => regOk d && z.toNat ≤ 2
  | .addi d _ _ | .andi d _ _ | .ori d _ _ | .xori d _ _ | .shli d _ _ | .shri d _ _
  | .sari d _ _ => regOk d
  | .movi d _ => regOk d
  | .movk d sh imm => regOk d && (sh != 3 || imm.toNat < 1024)
  | .fadd p d _ _ | .fsub p d _ _ | .fmul p d _ _ | .ffma p d _ _ | .fmin p d _ _ | .fmax p d _ _
  | .fcpys p d _ _ => precOk p && regOk d
  | .fabs p d _ | .fneg p d _ => precOk p && regOk d
  | .fcvti p d _ _ m | .fcvtf p d _ _ m | .fcvtw p d _ m => precOk p && regOk d && modeOk m
  | .cmp d _ _ c => predOk d && c.toNat ≤ 9
  | .fcmp d _ _ c => predOk d && c.toNat % 8 ≤ 5
  | .plog d a b _ => predOk d && predOk a && predOk b
  | .tst d _ _ c => predOk d && c.toNat ≤ 1
  | .bfx d _ _ | .bfi d _ _ | .lea d _ _ => regOk d
  | .sel d _ b => regOk d && predOk b
  | .ld _ _ _ _ | .lds _ _ _ _ | .ldc _ _ _ _ | .ldf _ _ _ _ | .ldfe _ _ _ _ => true
  | .st _ _ _ _ _ | .stf _ _ _ _ _ | .ste _ _ _ _ _ | .sete _ _ _ _ | .setf _ _ _ _
  | .tagq _ _ _ _ => true
  | .aadd _ _ _ sz _ | .amin _ _ _ sz _ | .amax _ _ _ sz _ | .aminn _ _ _ sz _ | .amaxn _ _ _ sz _
  | .aand _ _ _ sz _ | .aor _ _ _ sz _ | .axor _ _ _ sz _ | .aswp _ _ _ sz _
  | .afadd _ _ _ sz _ => atomSizeOk sz
  | .acas v _ _ sz _ => atomSizeOk sz && v.toNat % 2 == 0 && v.toNat ≤ 60
  | .fence scope _ => scope.toNat ≤ 4
  | .slkset _ _ | .wdrain _ | .wallow _ _ => true
  | .vadd _ _ _ _ | .vsub _ _ _ _ | .vmul _ _ _ _ | .vfma _ _ _ _ | .vmin _ _ _ _ | .vmax _ _ _ _
  | .vabs _ _ _ | .vneg _ _ _ | .vand _ _ _ _ | .vor _ _ _ _ | .vxor _ _ _ _ | .vshl _ _ _ _
  | .vshr _ _ _ _ | .vcmp _ _ _ _ | .vsel _ _ _ _ | .vcopy _ _ _ | .vfill _ _ _
  | .viota _ _ => true
  | .vcvt _ _ opt => modeOk opt
  | .vexp2 _ _ _ | .vlog2 _ _ _ | .vrcp _ _ _ | .vrsq _ _ _ | .vsig _ _ _ | .vtanh _ _ _
  | .vgelu _ _ _ => true
  | .vchain _ _ _ _ => true
  | .chset r _ => regOk r
  | .vcomp _ _ _ _ | .vexpd _ _ _ _ | .vgath _ _ _ _ | .vscat _ _ _ _ | .vtrn _ _ _ => true
  | .vscan _ _ opt => opt.toNat ≤ 2
  | .dset d a b => descOk d && regOk a && regOk b
  | .dget d a b => regOk d && descOk a && b.toNat ≤ 1
  | .dadv a b | .dcnt a b => descOk a && regOk b
  | .radd _ _ | .rmin _ _ | .rmax _ _ | .rdrnDesc _ _ => true
  | .rdrn r _ => regOk r
  | .rclr _ o _ => o != 3
  | .mstep acc wide _ _ _ tag _ => !(wide == 1 && acc == 7) && tag != 3
  | .mzero n wide v _ => !(wide == 1 && n == 7) && v != 3
  | .mdrain d _ m _ => descOk d && modeOk m
  | .mlda _ a _ m => descOk a && modeOk m
  | .mwgt b => descOk b
  | .sload _ a => descOk a
  | .ssel p => p.toNat ≤ 3 || (8 ≤ p.toNat && p.toNat ≤ 13)
  | .mflow p => p.toNat ≤ 1
  | .mskew p => p.toNat ≤ 2
  | .mfmt p q _ => p.toNat ≤ 31 && q.toNat ≤ 31
  | .scld a n f => regOk a && f.toNat + (n.toNat + 1) ≤ 16
  | .fmset a _ | .fmget a _ => regOk a
  | .cpy p q pt _ | .cpyg p q pt _ | .cpyw p q pt _ | .cpyc p q pt _ => patchOk true p q pt
  | .cpyt p q pt _ | .cpyp p q pt _ => patchOk false p q pt
  | .cpost p _ | .ccancel p _ | .cquery p _ | .tsend p _ => regOk p
  | .commit a | .waitb a | .testb a | .npost a | .requeue a => regOk a
  | .bara _ | .barw _ => true
  | .bart a _ | .barcfg a _ => regOk a
  | .exper _ _ => false
  | .hbmServiceStart pc bank | .bankIdleClose pc bank | .bankRefreshEnd pc bank =>
    decide (pc < 2048) && decide (bank < 16)
  | .refreshDue pc | .allBankRefreshStart pc | .allBankRefreshEnd pc => decide (pc < 2048)
  | .wsRefreshWindowStart bank | .wsRefreshWindowEnd bank => decide (bank < 16)
  | .resourceReport core _ => decide (core < 1536)
  | .mailboxWrite i _ => decide (i < 64)
  | .arrivalCounted nb _ | .barrierDelivery nb => decide (nb < 512)
  | .arbitration port | .linkDown port => decide (port < 32)
  | .rankTableWrite rank _ _ => decide (rank < 16384)
  | .routeTableLoad dest alts => decide (dest < 16384) && decide (alts.length ≤ 4)
  | .sessionOpen _ kind _ => decide (kind ≤ 2)
  | .loadDataReturn _ | .writeEntryBegin _ | .writePerform _ | .parkedAccessWake _
  | .uncorrectableError _ | .streamGroupPass _ | .shuttleCommandStart | .beat
  | .shuttleCommandComplete | .copyCommandStart _ | .copySegmentWrite _ | .copyPause _
  | .copyResume _ | .copyComplete _ | .hbmArrival _ _ | .sharedTlbLookup | .tableRead
  | .faultFreeze | .faultResolve _ | .tlbinvComplete | .trapDelivery | .interrupt
  | .contextSwitch | .spill | .spillComplete | .emergencySpill | .fill _ | .fillComplete
  | .postTake | .imageLoad _ | .imageLoadComplete _ | .nodeFinish _ | .taskPlacement
  | .claimant _ | .taskStart | .victimChoice | .yieldRequest | .yieldWindowExpiry
  | .yieldRequestWithdraw | .prefetch | .taskEnd _ _ | .combineLineExpiry _ | .reorderAccept _
  | .remotePerform _ | .ackReturn _ | .remoteReply _ | .withdrawalArrival _ | .noRouteDrop _
  | .tsendDeparture _ | .tsendComplete _ | .postEntry _ | .hoopPostArrival _ _ _
  | .ticketArrival _ | .admission | .orderNotice _ | .pieceDeparture _ _ _ | .pieceArrival _
  | .deferralResend _ | .collectiveComplete _ | .collectiveTimeout _ | .abortNotice _ _
  | .hoopWithdrawal _ _ | .timeService _ | .hostWrite _ _ _ _ | .hostRead _ _ _ | .hsemWrite _ _
  | .hsemRelease | .registerWrite _ _ _ | .powerTick _ _ | .thermalPowerOff | .packageReset
  | .firmwareImage | .watchdog | .attestation _ | .identityRead | .delegate _ _ _ _ | .revoke _ _
  | .stopRequest _ | .breakpoint | .singleStepStop | .resume _ _ | .debugRead _ _ _
  | .debugWrite _ _ _ | .sample | .chargeRecord | .partitionEviction _ | .partitionRestore _
  | .breakpointSet _ _ _ | .rootEntry _ _ | .overflowQuota _ _ | .migration _ => true

/-- The instruction is well formed. -/
abbrev WellFormed (i : Instr) : Prop := i.wf = true

end Sys2Proof
end

