-- ==== Sys2Proof/Decode.lean ====
section
/-!
DEFINITION. The decoder and the encoder of instruction words (03 R20, R27 to R29). The decoder
is total on any word: it refuses (`none`) a reserved major, a reserved function value and a set
reserved bit, and ignores the chain bit, which belongs to the bundle. The encoder is written
from the same formats; the steps without an encoding have none.
-/

namespace Sys2Proof

/-- Bits `lo + len - 1 : lo` of a word (03 R4). -/
def fld (w : IWord) (lo len : Nat) : BitVec len := w.extractLsb' lo len

/-- The chain bit, bit 31 (03 R20). -/
def chainBit (w : IWord) : Bool := w.getLsbD 31

/-- An instruction when its reserved fields hold, else none. -/
def req (b : Bool) (i : Instr) : Option Instr := if b then some i else none

/-- Format F-S of CTL (05 R91). -/
def decCtl (fn : Nat) (a : BitVec 6) (imm : BitVec 14) : Option Instr :=
  match fn with
  | 0 => req (a == 0 && imm == 0) .nop
  | 1 => req (a == 0 && imm == 0) .endTask
  | 2 => req (a == 0 && imm == 0) .yield
  | 3 => req (imm == 0) (.jmp a)
  | 4 => req (imm == 0) (.jmpl a)
  | 5 => req (a == 0 && imm == 0) .ret
  | 6 => some (.loop a imm)
  | _ => none

/-- Format F-S of SYS (13 R228 to R230). -/
def decSys (fn : Nat) (a : BitVec 6) (imm : BitVec 14) : Option Instr :=
  match fn with
  | 0 => req (a == 0) (.trap imm)
  | 1 => if imm == 0 then req (a == 0) .eret else req (imm == 1) (.eretTo a)
  | 2 => if imm == 0 then some (.check a) else req (imm == 1) (.checkPred a)
  | 3 => some (.mfs a imm)
  | 4 => some (.mts a imm)
  | 5 => req (a == 0) (.brk imm)
  | 6 => some (.mark a imm)
  | 7 => req (a == 0 && imm == 0) .swapc
  | 8 =>
    if imm == 0x0000 then some (.tlbinvPage a)
    else if imm == 0x1000 then some (.tlbinvAsid a)
    else if imm == 0x2000 then req (a == 0) .tlbinvLocal
    else req (imm == 0x3000 && a == 0) .tlbinvAll
  | 9 => req (a == 0) (.svc imm)
  | _ => none

/-- Format F-R of IALU (05 R83). -/
def decIalu (fn : Nat) (d a b : BitVec 6) : Option Instr :=
  match fn with
  | 0 => some (.add d a b)
  | 1 => some (.sub d a b)
  | 2 => some (.mul d a b)
  | 3 => some (.mulh d a b)
  | 4 => some (.mulhn d a b)
  | 5 => some (.div d a b)
  | 6 => some (.divn d a b)
  | 7 => some (.rem d a b)
  | 8 => some (.remn d a b)
  | 9 => some (.and d a b)
  | 10 => some (.or d a b)
  | 11 => some (.xor d a b)
  | 12 => some (.andn d a b)
  | 13 => some (.shl d a b)
  | 14 => some (.shr d a b)
  | 15 => some (.sar d a b)
  | 16 => some (.rotl d a b)
  | 17 => some (.min d a b)
  | 18 => some (.max d a b)
  | 19 => some (.minn d a b)
  | 20 => some (.maxn d a b)
  | 21 => req (b == 0) (.clz d a)
  | 22 => req (b == 0) (.popc d a)
  | 23 => some (.sext d a b)
  | 24 => some (.zext d a b)
  | _ => none

/-- Format F-I of IALI (05 R85); in the shifts imm 10:6 is reserved. -/
def decIali (op : Nat) (d a : BitVec 6) (imm : BitVec 11) : Option Instr :=
  let hi : BitVec 5 := imm.extractLsb' 6 5
  let n : BitVec 6 := imm.extractLsb' 0 6
  match op with
  | 0 => some (.addi d a imm)
  | 1 => some (.andi d a imm)
  | 2 => some (.ori d a imm)
  | 3 => some (.xori d a imm)
  | 4 => req (hi == 0) (.shli d a n)
  | 5 => req (hi == 0) (.shri d a n)
  | 6 => req (hi == 0) (.sari d a n)
  | _ => none

/-- Format F-R of FPU (05 R87, R88): fn 5:0 is the operation, fn 7:6 the precision. -/
def decFpu (fn : Nat) (p : BitVec 2) (d a b : BitVec 6) : Option Instr :=
  let m : BitVec 3 := b.extractLsb' 0 3
  let k : BitVec 2 := b.extractLsb' 3 2
  let b5 : BitVec 1 := b.extractLsb' 5 1
  match fn with
  | 0 => some (.fadd p d a b)
  | 1 => some (.fsub p d a b)
  | 2 => some (.fmul p d a b)
  | 3 => some (.ffma p d a b)
  | 4 => some (.fmin p d a b)
  | 5 => some (.fmax p d a b)
  | 6 => req (b == 0) (.fabs p d a)
  | 7 => req (b == 0) (.fneg p d a)
  | 8 => some (.fcpys p d a b)
  | 9 => req (b5 == 0) (.fcvti p d a k m)
  | 10 => req (b5 == 0) (.fcvtf p d a k m)
  | 11 => req (b5 == 0 && k == 0) (.fcvtw p d a m)
  | _ => none

/-- Format F-R of CMP (05 R89): fn 7:4 is the operation, fn 3:0 the condition. -/
def decCmp (fn : Nat) (c : BitVec 4) (d a b : BitVec 6) : Option Instr :=
  match fn with
  | 0 => some (.cmp d a b c)
  | 1 => some (.fcmp d a b c)
  | 2 => some (.plog d a b c)
  | 3 => some (.tst d a b c)
  | _ => none

/-- Format F-R of FIELD (05 R90). -/
def decField (fn : Nat) (d a b : BitVec 6) : Option Instr :=
  match fn with
  | 0 => some (.bfx d a b)
  | 1 => some (.bfi d a b)
  | 2 => some (.lea d a b)
  | 3 => some (.sel d a b)
  | _ => none

/-- The LD major is decoded from the x field (03 R29). -/
def decLd (x base : BitVec 6) (cls : BitVec 4) (sz : BitVec 2) (off : BitVec 8) : Option Instr :=
  match x.toNat with
  | 0b000000 => some (.ld base cls sz off)
  | 0b100000 => some (.lds base cls sz off)
  | 0b010000 => some (.ldc base cls sz off)
  | 0b000100 => some (.ldf base cls sz off)
  | 0b001000 => some (.ldfe base cls sz off)
  | _ => none

/-- Format F-M of TAG (06 R116): off 7:5 is the sub-operation. -/
def decTag (sub : Nat) (x base : BitVec 6) (cls : BitVec 4) (sz : BitVec 2) (off : BitVec 5) :
    Option Instr :=
  match sub with
  | 0 => some (.stf x base cls sz off)
  | 1 => some (.ste x base cls sz off)
  | 2 => req (x == 0) (.sete base cls sz off)
  | 3 => req (x == 0) (.setf base cls sz off)
  | 4 => req (x == 0) (.tagq base cls sz off)
  | _ => none

/-- Format F-A of ATOM (06 R117 to R119). -/
def decAtom (op : Nat) (v base : BitVec 6) (cls : BitVec 4) (sz : BitVec 2) (f : BitVec 1) :
    Option Instr :=
  match op with
  | 0 => some (.aadd v base cls sz f)
  | 1 => some (.amin v base cls sz f)
  | 2 => some (.amax v base cls sz f)
  | 3 => some (.aminn v base cls sz f)
  | 4 => some (.amaxn v base cls sz f)
  | 5 => some (.aand v base cls sz f)
  | 6 => some (.aor v base cls sz f)
  | 7 => some (.axor v base cls sz f)
  | 8 => some (.aswp v base cls sz f)
  | 9 => some (.afadd v base cls sz f)
  | 10 => some (.acas v base cls sz f)
  | _ => none

/-- Format F-S of ORDER (06 R123, R124). -/
def decOrder (fn : Nat) (a : BitVec 6) (imm : BitVec 14) : Option Instr :=
  let low4 : BitVec 4 := imm.extractLsb' 0 4
  let low3 : BitVec 3 := imm.extractLsb' 0 3
  let hi10 : BitVec 10 := imm.extractLsb' 4 10
  let hi11 : BitVec 11 := imm.extractLsb' 3 11
  match fn with
  | 0 =>
    let m2 : BitVec 2 := a.extractLsb' 0 2
    let r : BitVec 1 := a.extractLsb' 2 1
    let scope : BitVec 3 := a.extractLsb' 3 3
    req (r == 0) (.fence scope (m2 ++ imm))
  | 1 => req (hi10 == 0) (.slkset a low4)
  | 2 => req (a == 0 && hi11 == 0) (.wdrain low3)
  | 3 => req (hi11 == 0) (.wallow a low3)
  | _ => none

/-- Format F-V of VOP (07 R138). -/
def decVop (fn : Nat) (dd da db : BitVec 5) (opt : BitVec 3) : Option Instr :=
  match fn with
  | 0 => some (.vadd dd da db opt)
  | 1 => some (.vsub dd da db opt)
  | 2 => some (.vmul dd da db opt)
  | 3 => some (.vfma dd da db opt)
  | 4 => some (.vmin dd da db opt)
  | 5 => some (.vmax dd da db opt)
  | 6 => req (db == 0) (.vabs dd da opt)
  | 7 => req (db == 0) (.vneg dd da opt)
  | 8 => some (.vand dd da db opt)
  | 9 => some (.vor dd da db opt)
  | 10 => some (.vxor dd da db opt)
  | 11 => some (.vshl dd da db opt)
  | 12 => some (.vshr dd da db opt)
  | 13 => some (.vcmp dd da db opt)
  | 14 => some (.vsel dd da db opt)
  | 15 => req (db == 0) (.vcopy dd da opt)
  | 16 => req (db == 0) (.vfill dd da opt)
  | 17 => req (db == 0) (.vcvt dd da opt)
  | 18 => req (da == 0 && db == 0) (.viota dd opt)
  | _ => none

/-- Format F-V of VSFN (07 R139). -/
def decVsfn (fn : Nat) (dd da db : BitVec 5) (opt : BitVec 3) : Option Instr :=
  match fn with
  | 0 => req (db == 0) (.vexp2 dd da opt)
  | 1 => req (db == 0) (.vlog2 dd da opt)
  | 2 => req (db == 0) (.vrcp dd da opt)
  | 3 => req (db == 0) (.vrsq dd da opt)
  | 4 => req (db == 0) (.vsig dd da opt)
  | 5 => req (db == 0) (.vtanh dd da opt)
  | 6 => req (db == 0) (.vgelu dd da opt)
  | _ => none

/-- Format F-V of VCHAIN (07 R141, R142): `CHSET` names register da + 32 × db bit 0. -/
def decVchain (fn : Nat) (dd da db : BitVec 5) (opt : BitVec 3) : Option Instr :=
  let lo : BitVec 1 := db.extractLsb' 0 1
  let hi : BitVec 4 := db.extractLsb' 1 4
  match fn with
  | 0 => some (.vchain dd da db opt)
  | 1 => req (dd == 0 && hi == 0) (.chset (lo ++ da) opt)
  | _ => none

/-- Format F-V of VPERM (07 R143). -/
def decVperm (fn : Nat) (dd da db : BitVec 5) (opt : BitVec 3) : Option Instr :=
  match fn with
  | 0 => some (.vcomp dd da db opt)
  | 1 => some (.vexpd dd da db opt)
  | 2 => some (.vgath dd da db opt)
  | 3 => some (.vscat dd da db opt)
  | 4 => req (db == 0) (.vscan dd da opt)
  | 5 => req (db == 0) (.vtrn dd da opt)
  | _ => none

/-- Format F-R of VDESC (07 R149 to R151). -/
def decVdesc (fn : Nat) (d a b : BitVec 6) : Option Instr :=
  match fn with
  | 0 => some (.dset d a b)
  | 1 => some (.dget d a b)
  | 2 => req (d == 0) (.dadv a b)
  | 3 => req (d == 0) (.dcnt a b)
  | _ => none

/-- Format F-V of RED (07 R153): the latch is opt 1:0. -/
def decRed (fn : Nat) (dd da db : BitVec 5) (opt : BitVec 3) : Option Instr :=
  let ps : BitVec 2 := opt.extractLsb' 0 2
  let o2 : BitVec 1 := opt.extractLsb' 2 1
  let lo : BitVec 1 := db.extractLsb' 0 1
  let hi : BitVec 4 := db.extractLsb' 1 4
  match fn with
  | 0 => req (dd == 0 && db == 0 && o2 == 0) (.radd da ps)
  | 1 => req (dd == 0 && db == 0 && o2 == 0) (.rmin da ps)
  | 2 => req (dd == 0 && db == 0 && o2 == 0) (.rmax da ps)
  | 3 =>
    if o2 == 0 then req (dd == 0 && hi == 0) (.rdrn (lo ++ da) ps)
    else req (da == 0 && db == 0) (.rdrnDesc dd ps)
  | 4 =>
    let k : BitVec 2 := dd.extractLsb' 0 2
    let o : BitVec 2 := dd.extractLsb' 2 2
    let d4 : BitVec 1 := dd.extractLsb' 4 1
    req (d4 == 0 && da == 0 && db == 0 && o2 == 0) (.rclr k o ps)
  | _ => none

/-- Format F-X of MCTL (08 R177). -/
def decMctl (fn : Nat) (p q opt : BitVec 6) : Option Instr :=
  let p3 : BitVec 3 := p.extractLsb' 0 3
  let q3 : BitVec 3 := q.extractLsb' 0 3
  let qh : BitVec 3 := q.extractLsb' 3 3
  let ph : BitVec 3 := p.extractLsb' 3 3
  match fn with
  | 0 =>
    let w : BitVec 1 := p.extractLsb' 3 1
    let r : BitVec 2 := p.extractLsb' 4 2
    let v : BitVec 2 := opt.extractLsb' 0 2
    let f : BitVec 2 := opt.extractLsb' 2 2
    let o : BitVec 2 := opt.extractLsb' 4 2
    req (r == 0 && q == 0 && o == 0) (.mzero p3 w v f)
  | 1 =>
    let m : BitVec 3 := opt.extractLsb' 0 3
    let c : BitVec 1 := opt.extractLsb' 3 1
    let o : BitVec 2 := opt.extractLsb' 4 2
    req (qh == 0 && o == 0) (.mdrain p q3 m c)
  | 2 =>
    let f : BitVec 2 := opt.extractLsb' 0 2
    let m : BitVec 3 := opt.extractLsb' 2 3
    let o : BitVec 1 := opt.extractLsb' 5 1
    req (ph == 0 && o == 0) (.mlda p3 q f m)
  | 3 => req (q == 0 && opt == 0) (.mwgt p)
  | 4 =>
    let n : BitVec 2 := p.extractLsb' 0 2
    let r : BitVec 4 := p.extractLsb' 2 4
    req (r == 0 && opt == 0) (.sload n q)
  | 5 => req (q == 0 && opt == 0) (.ssel p)
  | 6 => req (q == 0 && opt == 0) (.mflow p)
  | 7 => req (q == 0 && opt == 0) (.mskew p)
  | 8 => some (.mfmt p q opt)
  | _ => none

/-- Format F-S of TABLE (10 R206). -/
def decTable (fn : Nat) (a : BitVec 6) (imm : BitVec 14) : Option Instr :=
  let f : BitVec 4 := imm.extractLsb' 0 4
  let n : BitVec 3 := imm.extractLsb' 4 3
  let h7 : BitVec 7 := imm.extractLsb' 7 7
  let h10 : BitVec 10 := imm.extractLsb' 4 10
  match fn with
  | 0 => req (h7 == 0) (.scld a n f)
  | 1 => req (h10 == 0) (.fmset a f)
  | 2 => req (h10 == 0) (.fmget a f)
  | _ => none

/-- Format F-X of COPY (10 R201). -/
def decCopy (fn : Nat) (p q opt : BitVec 6) : Option Instr :=
  let cls : BitVec 4 := opt.extractLsb' 0 4
  let pt : BitVec 2 := opt.extractLsb' 4 2
  match fn with
  | 0 => some (.cpy p q pt cls)
  | 1 => some (.cpyt p q pt cls)
  | 2 => some (.cpyp p q pt cls)
  | 3 => some (.cpyg p q pt cls)
  | 4 => some (.cpyw p q pt cls)
  | 5 => some (.cpyc p q pt cls)
  | _ => none

/-- Format F-X of FAB (16 R268). -/
def decFab (fn : Nat) (p q opt : BitVec 6) : Option Instr :=
  let cls : BitVec 4 := opt.extractLsb' 0 4
  let r : BitVec 2 := opt.extractLsb' 4 2
  match fn with
  | 0 => req (q == 0 && r == 0) (.cpost p cls)
  | 1 => req (q == 0 && r == 0) (.ccancel p cls)
  | 2 => req (q == 0 && r == 0) (.cquery p cls)
  | 3 => req (q == 0 && r == 0) (.tsend p cls)
  | _ => none

/-- Format F-S of BATCH (08 R183, 14 R249, R250). -/
def decBatch (fn : Nat) (a : BitVec 6) (imm : BitVec 14) : Option Instr :=
  let n : BitVec 9 := imm.extractLsb' 0 9
  let h5 : BitVec 5 := imm.extractLsb' 9 5
  match fn with
  | 0 => req (imm == 0) (.commit a)
  | 1 => req (imm == 0) (.waitb a)
  | 2 => req (imm == 0) (.testb a)
  | 3 => req (a == 0 && h5 == 0) (.bara n)
  | 4 => req (a == 0 && h5 == 0) (.barw n)
  | 5 => req (h5 == 0) (.bart a n)
  | 6 => req (h5 == 0) (.barcfg a n)
  | 7 => req (imm == 0) (.npost a)
  | 8 => req (imm == 0) (.requeue a)
  | _ => none

/-- The instruction of a word; the chain bit is ignored (03 R28, R29). -/
def decode (w : IWord) : Option Instr :=
  let f25 := fld w 20 6
  let f19 := fld w 14 6
  let f13 := fld w 8 6
  let fn := (fld w 0 8).toNat
  let imm14 := fld w 0 14
  let dd := fld w 21 5
  let da := fld w 16 5
  let db := fld w 11 5
  let opt := fld w 8 3
  match (fld w 26 5).toNat with
  | 0x00 => decCtl f25.toNat f19 imm14
  | 0x01 => some (.br (fld w 23 3) (fld w 22 1) (fld w 0 22))
  | 0x02 => some (.call (fld w 0 26))
  | 0x03 => decSys f25.toNat f19 imm14
  | 0x04 => decIalu fn f25 f19 f13
  | 0x05 => decIali (fld w 11 3).toNat f25 f19 (fld w 0 11)
  | 0x06 => some (.movi f25 (fld w 0 20))
  | 0x07 => some (.movk f25 (fld w 18 2) (fld w 0 18))
  | 0x08 => decFpu (fld w 0 6).toNat (fld w 6 2) f25 f19 f13
  | 0x09 => decCmp (fld w 4 4).toNat (fld w 0 4) f25 f19 f13
  | 0x0A => decField fn f25 f19 f13
  | 0x0C => decLd f25 f19 (fld w 10 4) (fld w 8 2) (fld w 0 8)
  | 0x0D => some (.st f25 f19 (fld w 10 4) (fld w 8 2) (fld w 0 8))
  | 0x0E => decTag (fld w 5 3).toNat f25 f19 (fld w 10 4) (fld w 8 2) (fld w 0 5)
  | 0x0F =>
    if fld w 0 3 == 0 then decAtom (fld w 3 4).toNat f25 f19 (fld w 10 4) (fld w 8 2) (fld w 7 1)
    else none
  | 0x10 => decOrder f25.toNat f19 imm14
  | 0x11 => decVop fn dd da db opt
  | 0x12 => decVsfn fn dd da db opt
  | 0x13 => decVchain fn dd da db opt
  | 0x14 => decVperm fn dd da db opt
  | 0x15 => decVdesc fn f25 f19 f13
  | 0x16 => decRed fn dd da db opt
  | 0x17 =>
    if fld w 2 2 == 0 then
      some (.mstep (fld w 23 3) (fld w 22 1) (fld w 17 5) (fld w 12 5) (fld w 6 6) (fld w 4 2)
        (fld w 0 2))
    else none
  | 0x18 => decMctl fn f25 f19 f13
  | 0x19 => decTable f25.toNat f19 imm14
  | 0x1A => decCopy fn f25 f19 f13
  | 0x1B => decFab fn f25 f19 f13
  | 0x1C => decBatch f25.toNat f19 imm14
  | 0x1F => some (.exper f25 (fld w 0 20))
  | _ => none

/-- A little-endian instruction word of four bytes (03 R20). -/
def wordOfBytes (b0 b1 b2 b3 : Byte) : IWord := b3 ++ b2 ++ b1 ++ b0

/-- The four bytes of an instruction word, lowest address first (03 R20). -/
def bytesOfWord (w : IWord) : List Byte :=
  [w.extractLsb' 0 8, w.extractLsb' 8 8, w.extractLsb' 16 8, w.extractLsb' 24 8]

/-- Decoding at the head of a byte string: the instruction, its chain bit and the bytes left. -/
def decodeBytes : List Byte → Option (Instr × Bool × List Byte)
  | b0 :: b1 :: b2 :: b3 :: rest =>
    let w := wordOfBytes b0 b1 b2 b3
    (decode w).map fun i => (i, chainBit w, rest)
  | _ => none

/-- What the decoder reads from an instruction whose bits are `w`, numbered as the table
numbers them. Every instruction is one 32-bit word. -/
def decodeTableWord (nbits w : Nat) : Option Instr :=
  if nbits ≤ 32 then
    (decodeBytes (bytesOfWord (BitVec.ofNat 32 (w % 2 ^ nbits)))).map fun x => x.1
  else none

/-- Bits 30:0 of a word in format F-R (03 R27). -/
def packR (maj : BitVec 5) (d a b : BitVec 6) (fn : BitVec 8) : BitVec 31 :=
  maj ++ d ++ a ++ b ++ fn

/-- Format F-I (03 R27). -/
def packI (maj : BitVec 5) (d a : BitVec 6) (op : BitVec 3) (imm : BitVec 11) : BitVec 31 :=
  maj ++ d ++ a ++ op ++ imm

/-- Format F-L (03 R27). -/
def packL (maj : BitVec 5) (d : BitVec 6) (imm : BitVec 20) : BitVec 31 := maj ++ d ++ imm

/-- Format F-K (03 R27). -/
def packK (maj : BitVec 5) (d : BitVec 6) (sh : BitVec 2) (imm : BitVec 18) : BitVec 31 :=
  maj ++ d ++ sh ++ imm

/-- Format F-B (03 R27). -/
def packB (maj : BitVec 5) (k : BitVec 3) (n : BitVec 1) (off : BitVec 22) : BitVec 31 :=
  maj ++ k ++ n ++ off

/-- Format F-C (03 R27). -/
def packC (maj : BitVec 5) (off : BitVec 26) : BitVec 31 := maj ++ off

/-- Format F-M (03 R27). -/
def packM (maj : BitVec 5) (x base : BitVec 6) (cls : BitVec 4) (sz : BitVec 2) (off : BitVec 8) :
    BitVec 31 :=
  maj ++ x ++ base ++ cls ++ sz ++ off

/-- Format F-A (03 R27). -/
def packA (maj : BitVec 5) (v base : BitVec 6) (cls : BitVec 4) (sz : BitVec 2) (f : BitVec 1)
    (op : BitVec 4) (res : BitVec 3) : BitVec 31 :=
  maj ++ v ++ base ++ cls ++ sz ++ f ++ op ++ res

/-- Format F-V (03 R27). -/
def packV (maj : BitVec 5) (dd da db : BitVec 5) (opt : BitVec 3) (fn : BitVec 8) : BitVec 31 :=
  maj ++ dd ++ da ++ db ++ opt ++ fn

/-- Format F-S (03 R27). -/
def packS (maj : BitVec 5) (fn a : BitVec 6) (imm : BitVec 14) : BitVec 31 := maj ++ fn ++ a ++ imm

/-- Format F-MS (03 R27). -/
def packMS (maj : BitVec 5) (acc : BitVec 3) (wide : BitVec 1) (da db : BitVec 5) (depth : BitVec 6)
    (tag : BitVec 2) (flags : BitVec 4) : BitVec 31 :=
  maj ++ acc ++ wide ++ da ++ db ++ depth ++ tag ++ flags

/-- Bits 30:0 of an instruction's word; none for a step that no word encodes. -/
def encodeBody : Instr → Option (BitVec 31)
  | .nop => some (packS 0x00 0 0 0)
  | .endTask => some (packS 0x00 1 0 0)
  | .yield => some (packS 0x00 2 0 0)
  | .jmp a => some (packS 0x00 3 a 0)
  | .jmpl a => some (packS 0x00 4 a 0)
  | .ret => some (packS 0x00 5 0 0)
  | .loop a n => some (packS 0x00 6 a n)
  | .br k n off => some (packB 0x01 k n off)
  | .call off => some (packC 0x02 off)
  | .trap n => some (packS 0x03 0 0 n)
  | .eret => some (packS 0x03 1 0 0)
  | .eretTo a => some (packS 0x03 1 a 1)
  | .check a => some (packS 0x03 2 a 0)
  | .checkPred a => some (packS 0x03 2 a 1)
  | .mfs a n => some (packS 0x03 3 a n)
  | .mts a n => some (packS 0x03 4 a n)
  | .brk n => some (packS 0x03 5 0 n)
  | .mark a n => some (packS 0x03 6 a n)
  | .swapc => some (packS 0x03 7 0 0)
  | .tlbinvPage a => some (packS 0x03 8 a 0x0000)
  | .tlbinvAsid a => some (packS 0x03 8 a 0x1000)
  | .tlbinvLocal => some (packS 0x03 8 0 0x2000)
  | .tlbinvAll => some (packS 0x03 8 0 0x3000)
  | .svc n => some (packS 0x03 9 0 n)
  | .add d a b => some (packR 0x04 d a b 0)
  | .sub d a b => some (packR 0x04 d a b 1)
  | .mul d a b => some (packR 0x04 d a b 2)
  | .mulh d a b => some (packR 0x04 d a b 3)
  | .mulhn d a b => some (packR 0x04 d a b 4)
  | .div d a b => some (packR 0x04 d a b 5)
  | .divn d a b => some (packR 0x04 d a b 6)
  | .rem d a b => some (packR 0x04 d a b 7)
  | .remn d a b => some (packR 0x04 d a b 8)
  | .and d a b => some (packR 0x04 d a b 9)
  | .or d a b => some (packR 0x04 d a b 10)
  | .xor d a b => some (packR 0x04 d a b 11)
  | .andn d a b => some (packR 0x04 d a b 12)
  | .shl d a b => some (packR 0x04 d a b 13)
  | .shr d a b => some (packR 0x04 d a b 14)
  | .sar d a b => some (packR 0x04 d a b 15)
  | .rotl d a b => some (packR 0x04 d a b 16)
  | .min d a b => some (packR 0x04 d a b 17)
  | .max d a b => some (packR 0x04 d a b 18)
  | .minn d a b => some (packR 0x04 d a b 19)
  | .maxn d a b => some (packR 0x04 d a b 20)
  | .clz d a => some (packR 0x04 d a 0 21)
  | .popc d a => some (packR 0x04 d a 0 22)
  | .sext d a z => some (packR 0x04 d a z 23)
  | .zext d a z => some (packR 0x04 d a z 24)
  | .addi d a imm => some (packI 0x05 d a 0 imm)
  | .andi d a imm => some (packI 0x05 d a 1 imm)
  | .ori d a imm => some (packI 0x05 d a 2 imm)
  | .xori d a imm => some (packI 0x05 d a 3 imm)
  | .shli d a n => some (packI 0x05 d a 4 ((0 : BitVec 5) ++ n))
  | .shri d a n => some (packI 0x05 d a 5 ((0 : BitVec 5) ++ n))
  | .sari d a n => some (packI 0x05 d a 6 ((0 : BitVec 5) ++ n))
  | .movi d imm => some (packL 0x06 d imm)
  | .movk d sh imm => some (packK 0x07 d sh imm)
  | .fadd p d a b => some (packR 0x08 d a b (p ++ (0 : BitVec 6)))
  | .fsub p d a b => some (packR 0x08 d a b (p ++ (1 : BitVec 6)))
  | .fmul p d a b => some (packR 0x08 d a b (p ++ (2 : BitVec 6)))
  | .ffma p d a b => some (packR 0x08 d a b (p ++ (3 : BitVec 6)))
  | .fmin p d a b => some (packR 0x08 d a b (p ++ (4 : BitVec 6)))
  | .fmax p d a b => some (packR 0x08 d a b (p ++ (5 : BitVec 6)))
  | .fabs p d a => some (packR 0x08 d a 0 (p ++ (6 : BitVec 6)))
  | .fneg p d a => some (packR 0x08 d a 0 (p ++ (7 : BitVec 6)))
  | .fcpys p d a b => some (packR 0x08 d a b (p ++ (8 : BitVec 6)))
  | .fcvti p d a k m => some (packR 0x08 d a ((0 : BitVec 1) ++ k ++ m) (p ++ (9 : BitVec 6)))
  | .fcvtf p d a k m => some (packR 0x08 d a ((0 : BitVec 1) ++ k ++ m) (p ++ (10 : BitVec 6)))
  | .fcvtw p d a m =>
    some (packR 0x08 d a ((0 : BitVec 1) ++ (0 : BitVec 2) ++ m) (p ++ (11 : BitVec 6)))
  | .cmp d a b c => some (packR 0x09 d a b ((0 : BitVec 4) ++ c))
  | .fcmp d a b c => some (packR 0x09 d a b ((1 : BitVec 4) ++ c))
  | .plog d a b c => some (packR 0x09 d a b ((2 : BitVec 4) ++ c))
  | .tst d a b c => some (packR 0x09 d a b ((3 : BitVec 4) ++ c))
  | .bfx d a b => some (packR 0x0A d a b 0)
  | .bfi d a b => some (packR 0x0A d a b 1)
  | .lea d a b => some (packR 0x0A d a b 2)
  | .sel d a b => some (packR 0x0A d a b 3)
  | .ld base cls sz off => some (packM 0x0C 0b000000 base cls sz off)
  | .lds base cls sz off => some (packM 0x0C 0b100000 base cls sz off)
  | .ldc base cls sz off => some (packM 0x0C 0b010000 base cls sz off)
  | .ldf base cls sz off => some (packM 0x0C 0b000100 base cls sz off)
  | .ldfe base cls sz off => some (packM 0x0C 0b001000 base cls sz off)
  | .st x base cls sz off => some (packM 0x0D x base cls sz off)
  | .stf x base cls sz off => some (packM 0x0E x base cls sz ((0 : BitVec 3) ++ off))
  | .ste x base cls sz off => some (packM 0x0E x base cls sz ((1 : BitVec 3) ++ off))
  | .sete base cls sz off => some (packM 0x0E 0 base cls sz ((2 : BitVec 3) ++ off))
  | .setf base cls sz off => some (packM 0x0E 0 base cls sz ((3 : BitVec 3) ++ off))
  | .tagq base cls sz off => some (packM 0x0E 0 base cls sz ((4 : BitVec 3) ++ off))
  | .aadd v base cls sz f => some (packA 0x0F v base cls sz f 0 0)
  | .amin v base cls sz f => some (packA 0x0F v base cls sz f 1 0)
  | .amax v base cls sz f => some (packA 0x0F v base cls sz f 2 0)
  | .aminn v base cls sz f => some (packA 0x0F v base cls sz f 3 0)
  | .amaxn v base cls sz f => some (packA 0x0F v base cls sz f 4 0)
  | .aand v base cls sz f => some (packA 0x0F v base cls sz f 5 0)
  | .aor v base cls sz f => some (packA 0x0F v base cls sz f 6 0)
  | .axor v base cls sz f => some (packA 0x0F v base cls sz f 7 0)
  | .aswp v base cls sz f => some (packA 0x0F v base cls sz f 8 0)
  | .afadd v base cls sz f => some (packA 0x0F v base cls sz f 9 0)
  | .acas v base cls sz f => some (packA 0x0F v base cls sz f 10 0)
  | .fence scope mask =>
    some (packS 0x10 0 (scope ++ (0 : BitVec 1) ++ (mask.extractLsb' 14 2 : BitVec 2))
      (mask.extractLsb' 0 14))
  | .slkset a cls => some (packS 0x10 1 a ((0 : BitVec 10) ++ cls))
  | .wdrain w => some (packS 0x10 2 0 ((0 : BitVec 11) ++ w))
  | .wallow a w => some (packS 0x10 3 a ((0 : BitVec 11) ++ w))
  | .vadd dd da db opt => some (packV 0x11 dd da db opt 0)
  | .vsub dd da db opt => some (packV 0x11 dd da db opt 1)
  | .vmul dd da db opt => some (packV 0x11 dd da db opt 2)
  | .vfma dd da db opt => some (packV 0x11 dd da db opt 3)
  | .vmin dd da db opt => some (packV 0x11 dd da db opt 4)
  | .vmax dd da db opt => some (packV 0x11 dd da db opt 5)
  | .vabs dd da opt => some (packV 0x11 dd da 0 opt 6)
  | .vneg dd da opt => some (packV 0x11 dd da 0 opt 7)
  | .vand dd da db opt => some (packV 0x11 dd da db opt 8)
  | .vor dd da db opt => some (packV 0x11 dd da db opt 9)
  | .vxor dd da db opt => some (packV 0x11 dd da db opt 10)
  | .vshl dd da db opt => some (packV 0x11 dd da db opt 11)
  | .vshr dd da db opt => some (packV 0x11 dd da db opt 12)
  | .vcmp dd da db opt => some (packV 0x11 dd da db opt 13)
  | .vsel dd da db opt => some (packV 0x11 dd da db opt 14)
  | .vcopy dd da opt => some (packV 0x11 dd da 0 opt 15)
  | .vfill dd da opt => some (packV 0x11 dd da 0 opt 16)
  | .vcvt dd da opt => some (packV 0x11 dd da 0 opt 17)
  | .viota dd opt => some (packV 0x11 dd 0 0 opt 18)
  | .vexp2 dd da opt => some (packV 0x12 dd da 0 opt 0)
  | .vlog2 dd da opt => some (packV 0x12 dd da 0 opt 1)
  | .vrcp dd da opt => some (packV 0x12 dd da 0 opt 2)
  | .vrsq dd da opt => some (packV 0x12 dd da 0 opt 3)
  | .vsig dd da opt => some (packV 0x12 dd da 0 opt 4)
  | .vtanh dd da opt => some (packV 0x12 dd da 0 opt 5)
  | .vgelu dd da opt => some (packV 0x12 dd da 0 opt 6)
  | .vchain dd da db opt => some (packV 0x13 dd da db opt 0)
  | .chset r opt =>
    some (packV 0x13 0 (r.extractLsb' 0 5) ((0 : BitVec 4) ++ (r.extractLsb' 5 1 : BitVec 1)) opt 1)
  | .vcomp dd da db opt => some (packV 0x14 dd da db opt 0)
  | .vexpd dd da db opt => some (packV 0x14 dd da db opt 1)
  | .vgath dd da db opt => some (packV 0x14 dd da db opt 2)
  | .vscat dd da db opt => some (packV 0x14 dd da db opt 3)
  | .vscan dd da opt => some (packV 0x14 dd da 0 opt 4)
  | .vtrn dd da opt => some (packV 0x14 dd da 0 opt 5)
  | .dset d a b => some (packR 0x15 d a b 0)
  | .dget d a b => some (packR 0x15 d a b 1)
  | .dadv a b => some (packR 0x15 0 a b 2)
  | .dcnt a b => some (packR 0x15 0 a b 3)
  | .radd da ps => some (packV 0x16 0 da 0 ((0 : BitVec 1) ++ ps) 0)
  | .rmin da ps => some (packV 0x16 0 da 0 ((0 : BitVec 1) ++ ps) 1)
  | .rmax da ps => some (packV 0x16 0 da 0 ((0 : BitVec 1) ++ ps) 2)
  | .rdrn r ps =>
    some (packV 0x16 0 (r.extractLsb' 0 5) ((0 : BitVec 4) ++ (r.extractLsb' 5 1 : BitVec 1))
      ((0 : BitVec 1) ++ ps) 3)
  | .rdrnDesc dd ps => some (packV 0x16 dd 0 0 ((1 : BitVec 1) ++ ps) 3)
  | .rclr k o ps => some (packV 0x16 ((0 : BitVec 1) ++ o ++ k) 0 0 ((0 : BitVec 1) ++ ps) 4)
  | .mstep acc wide da db depth tag flags =>
    some (packMS 0x17 acc wide da db depth tag ((0 : BitVec 2) ++ flags))
  | .mzero n wide v f =>
    some (packR 0x18 ((0 : BitVec 2) ++ wide ++ n) 0 ((0 : BitVec 2) ++ f ++ v) 0)
  | .mdrain d n m clr =>
    some (packR 0x18 d ((0 : BitVec 3) ++ n) ((0 : BitVec 2) ++ clr ++ m) 1)
  | .mlda n a f m => some (packR 0x18 ((0 : BitVec 3) ++ n) a ((0 : BitVec 1) ++ m ++ f) 2)
  | .mwgt b => some (packR 0x18 b 0 0 3)
  | .sload n a => some (packR 0x18 ((0 : BitVec 4) ++ n) a 0 4)
  | .ssel p => some (packR 0x18 p 0 0 5)
  | .mflow p => some (packR 0x18 p 0 0 6)
  | .mskew p => some (packR 0x18 p 0 0 7)
  | .mfmt p q opt => some (packR 0x18 p q opt 8)
  | .scld a n f => some (packS 0x19 0 a ((0 : BitVec 7) ++ n ++ f))
  | .fmset a n => some (packS 0x19 1 a ((0 : BitVec 10) ++ n))
  | .fmget a n => some (packS 0x19 2 a ((0 : BitVec 10) ++ n))
  | .cpy p q pt cls => some (packR 0x1A p q (pt ++ cls) 0)
  | .cpyt p q pt cls => some (packR 0x1A p q (pt ++ cls) 1)
  | .cpyp p q pt cls => some (packR 0x1A p q (pt ++ cls) 2)
  | .cpyg p q pt cls => some (packR 0x1A p q (pt ++ cls) 3)
  | .cpyw p q pt cls => some (packR 0x1A p q (pt ++ cls) 4)
  | .cpyc p q pt cls => some (packR 0x1A p q (pt ++ cls) 5)
  | .cpost p cls => some (packR 0x1B p 0 ((0 : BitVec 2) ++ cls) 0)
  | .ccancel p cls => some (packR 0x1B p 0 ((0 : BitVec 2) ++ cls) 1)
  | .cquery p cls => some (packR 0x1B p 0 ((0 : BitVec 2) ++ cls) 2)
  | .tsend p cls => some (packR 0x1B p 0 ((0 : BitVec 2) ++ cls) 3)
  | .commit a => some (packS 0x1C 0 a 0)
  | .waitb a => some (packS 0x1C 1 a 0)
  | .testb a => some (packS 0x1C 2 a 0)
  | .bara n => some (packS 0x1C 3 0 ((0 : BitVec 5) ++ n))
  | .barw n => some (packS 0x1C 4 0 ((0 : BitVec 5) ++ n))
  | .bart a n => some (packS 0x1C 5 a ((0 : BitVec 5) ++ n))
  | .barcfg a n => some (packS 0x1C 6 a ((0 : BitVec 5) ++ n))
  | .npost a => some (packS 0x1C 7 a 0)
  | .requeue a => some (packS 0x1C 8 a 0)
  | .exper s op => some (packL 0x1F s op)
  | _ => none

/-- The word of an instruction, with its chain bit. -/
def encode (c : Bool) (i : Instr) : Option IWord :=
  (encodeBody i).map fun b => BitVec.ofBool c ++ b

end Sys2Proof
end

