-- ==== Sys2Proof/Machine/Fabric.lean ====
section
/-!
DEFINITION. The filet fabric (16 R252 to R267, R339): routes, arbitration, the reorder buffer,
accesses at their targets, acknowledgements, replies, withdrawals, dead links, the rank and route
tables, and the migration of a package; and timed sends (R269).
-/

namespace Sys2Proof.Machine

open Sys2Proof

/-! ### Packets -/

/-- A packet. -/
def State.pktOf (s : State) (id : Nat) : Option Packet := s.fab.pkts.find? (fun p => p.id == id)

/-- Replace a packet. -/
def State.setPkt (s : State) (p : Packet) : State :=
  { s with fab := { s.fab with pkts := s.fab.pkts.map (fun q => if q.id == p.id then p else q) } }

/-- Remove a packet. -/
def State.dropPkt (s : State) (id : Nat) : State :=
  { s with fab := { s.fab with pkts := s.fab.pkts.filter (fun q => q.id != id) } }

/-- A packet to the issuing package itself, in loopback (02 R17, 16 R262). -/
def State.loops (s : State) (p : Packet) : Bool := p.dests.all (fun t => t == s.pkgid)

/-- Slack left at a time in a queueing point (16 R263). -/
def Packet.slackNow (p : Packet) (now : Nat) : Nat := slackAfter p.slack p.entry now

/-- A packet leaves a queueing point: its wait is charged; a slack that falls from a positive value
to 0 marks it exhausted (16 R263, R264). -/
def Packet.charge (p : Packet) (now : Nat) : Packet :=
  let n := p.slackNow now
  { p with slack := n, entry := now, marked := p.marked || (p.slack != 0 && n == 0) }

/-- Time in the router queues of other packages is charged to a packet that left this one; how
much is not known here (16 R263; log entry 22). -/
def State.chargeElsewhere (s : State) (p : Packet) : Packet × State :=
  if s.loops p || p.slack == 0 then (p, s)
  else
    let (n, s) := s.choose (p.slack + 1)
    ({ p with slack := n, marked := p.marked || n == 0 }, s)

/-- Packets of one sequence: same destination and class (16 R259). -/
def State.sameSeq (s : State) (p q : Packet) : Bool :=
  p.kind.numbered && q.kind.numbered && p.cls == q.cls && s.destOf p.rank == s.destOf q.rank

/-- Whether a packet is the answer to a piece, which travels as a reply (16 R266). -/
def PktKind.isAnswer : PktKind → Bool
  | .coll (.answer _ _) => true
  | _ => false

/-- Whether a packet is traffic of a collective that a hold of its rank keeps at its source: all of it but the
answers (17 R286). -/
def PktKind.holds (k : PktKind) : Bool :=
  match k with
  | .coll _ => !k.isAnswer
  | _ => false

/-- Whether a packet waits at its source: its rank is held, it is traffic of a collective behind another that a
hold kept, or it is behind a withdrawn access of its context in its sequence (16 R254, R261, 17 R286; log entry
63). -/
def State.pktHeld (s : State) (p : Packet) : Bool :=
  ((s.rankEntry p.rank).getLsbD 20 && !p.kind.isAnswer)
  || (p.kind.holds && p.waited && s.fab.pkts.any (fun q =>
        q.kind.holds && q.waited && q.stage == .queued && q.rank == p.rank && decide (q.id < p.id)))
  || s.fab.pkts.any (fun q => q.stage == .withdrawn && q.owner == p.owner && s.sameSeq q p && decide (q.seq < p.seq))

/-- The packets that a context sends again: those withdrawn to their source, once it runs and every withdrawal in
their sequence is answered, and those that wait behind them (16 R261; log entry 63). -/
def State.resent (s : State) : List Packet :=
  let due := s.fab.pkts.filter (fun p => p.stage == .withdrawn && p.owner == s.cx.uid
    && !s.fab.pkts.any (fun q => s.cx.withdrawn.contains q.id && s.sameSeq p q))
  s.fab.pkts.filter (fun p => p.owner == s.cx.uid && (p.stage == .queued || p.stage == .withdrawn)
    && due.any (fun q => q.id == p.id || (s.sameSeq q p && decide (q.seq < p.seq))))

/-- A packet at its source takes the next number of its sequence; one that was withdrawn is queued again, with what is
left of its slack (log entry 124). -/
def State.renumber (s : State) (p : Packet) : State :=
  let (n, sq) := nextSeq (s.destOf p.rank * 16 + p.cls) s.fab.sendSeq
  let q := { p with seq := n }
  let t := s.setPkt (if p.stage == .withdrawn then
      { q with stage := .queued, entry := s.ftime, stuck := s.ftime, port := none, lost := 0 } else q)
  { t with fab := { t.fab with sendSeq := sq } }

/-- What was withdrawn is sent again, with what waits behind it (16 R261). -/
def State.reissue (s : State) : State := if s.live then s.resent.foldl State.renumber s else s

/-! ### Routes -/

/-- The alternatives that a packet may take: those of the routes mask of its rank, or all of them for a reply (16
R253, R266). -/
def State.routeMask (s : State) (p : Packet) : Nat :=
  let e := s.rankEntry p.rank
  if rankKind e = 1 && !p.kind.isAnswer then bitsOf e 16 4 else 15

/-- The ports of the usable alternatives of a packet at its source: link up, allowed by the mask,
and within five hops (16 R266). -/
def State.usablePorts (s : State) (p : Packet) : List Nat :=
  let dest := (p.targets.find? (fun t => t != s.pkgid)).getD p.pkg
  let alts := ((s.fab.routes.find? (fun e => e.1 == dest)).map (·.2)).getD []
  (alts.zipIdx.filter (fun (a, k) =>
    !s.fab.down.contains a.1 && s.routeMask p / 2 ^ k % 2 == 1 && decide (1 + a.2 ≤ 5))).map
    (fun (a, _) => a.1)

/-- The output a packet takes: the usable alternative with the least queued traffic, the lower one of several
that hold none. The weights of that measure are not given, so among outputs that all hold traffic the choice is
free (16 R266; log entry 22). Its lost arbitrations are those of its output (R264). -/
def State.routePkt (s : State) (p : Packet) : State :=
  let up := match p.port with | some k => !s.fab.down.contains k | none => false
  if p.stage != .queued || up || s.loops p then s
  else
    let loaded := fun (k : Nat) => s.fab.pkts.any (fun q => q.stage == .queued && q.port == some k)
    let go := fun (s : State) (k : Nat) => s.setPkt { p with port := some k, lost := 0 }
    match s.usablePorts p with
    | [] => s.setPkt { p with port := none, stuck := if p.port.isSome then s.ftime else p.stuck }
    | [k] => go s k
    | k :: l =>
      match (k :: l).find? (fun x => !loaded x) with
      | some x => go s x
      | none =>
        let (n, s) := s.choose (l.length + 1)
        go s (((k :: l)[n]?).getD k)

/-- Every queued packet has its output chosen. -/
def State.routeAll (s : State) : State := s.fab.pkts.foldl State.routePkt s

/-! ### Arbitration -/

/-- Whether p wins an arbitration against q: first those that lost 63 times, then the least slack,
ties by entry, then virtual channel, then the order of their sending (16 R264). -/
def Packet.wins (now : Nat) (p q : Packet) : Bool :=
  let tie := decide (p.entry < q.entry) || (p.entry == q.entry &&
    (decide (p.vc < q.vc) || (p.vc == q.vc && decide (p.id ≤ q.id))))
  let ps := decide (63 ≤ p.lost)
  let qs := decide (63 ≤ q.lost)
  if ps != qs then ps
  else if ps then tie
  else if p.slackNow now != q.slackNow now then decide (p.slackNow now < q.slackNow now)
  else tie

/-- The packets of a list whose channel has credit. At hop index 0 a request is on channel 0 and a reply on channel
5; which of the two has credit in a cycle of arbitration is not known here (16 R264, R266; log entry 22). -/
def State.credited (s : State) (l : List Packet) : List Packet × State :=
  if l.any (fun p => p.vc < 5) && l.any (fun p => 5 ≤ p.vc) then
    let (n, s) := s.choose 3
    (if n = 1 then l.filter (fun p => p.vc < 5) else if n = 2 then l.filter (fun p => 5 ≤ p.vc) else l, s)
  else (l, s)

/-- ARBITRATION (16 R264, R266, R312): an output of this package's router sends its next packet, in a cycle
in which a channel of one that waits for it has credit (log entry 22). -/
def State.arbitration (s : State) (port : Nat) : State :=
  let s := s.reissue.routeAll
  let (cand, s) := s.credited
    (s.fab.pkts.filter (fun p => p.stage == .queued && p.port == some port && !s.pktHeld p))
  match cand.find? (fun p => cand.all (fun q => q.id == p.id || p.wins s.ftime q)) with
  | none => s
  | some w =>
    let starved := decide (63 ≤ w.lost)
    let overdue := w.slackNow s.ftime == 0
    let s := cand.foldl (fun (s : State) p =>
      if p.id == w.id then s.setPkt { p.charge s.ftime with stage := .flight, lost := 0, left := s.ftime }
      else s.setPkt { p with lost := p.lost + 1 }) s
    { s with fab := { s.fab with
      portstv := if starved then bumpBy port 1 s.fab.portstv else s.fab.portstv
      portod := if overdue && !starved then bumpBy port 1 s.fab.portod else s.fab.portod } }

/-- The meaning of ARBITRATION. -/
def execArbitration (port : Nat) (s : State) : Out := .next (s.arbitration port)

/-! ### At the target -/

/-- Whether a packet is a message of a collective that takes no number. -/
def PktKind.isMsg : PktKind → Bool
  | .coll m => !(PktKind.coll m).numbered
  | _ => false

/-- Whether a packet carries a piece of a collective. -/
def PktKind.isPiece : PktKind → Bool
  | .coll (.piece _ _ _) => true
  | _ => false

/-- The stages before a packet has performed. -/
def PktStage.unperformed : PktStage → Bool
  | .performed => false
  | _ => true

/-- Whether a packet bears the next expected number of its sequence; one withdrawn to its source takes another when
it leaves again (16 R259, R261; log entry 63). -/
def State.isNext (s : State) (p : Packet) : Bool :=
  s.fab.pkts.all (fun q => q.dup || q.stage == .withdrawn ||
    !(s.sameSeq p q && decide (q.seq < p.seq) && q.stage.unperformed))

/-- Whether a packet has reached its target package: off its output, or in loopback at once. -/
def State.arrived (s : State) (p : Packet) : Bool :=
  p.stage == .flight || (p.stage == .queued && s.loops p && !s.pktHeld p)

/-- REORDER_ACCEPT (16 R259, R263): a packet enters the reorder buffer of 4,096 entries, always if
it bears the next expected number; its slack there is what its answer will carry. A duplicate is dropped, and
its second acknowledgement finds nothing to answer. A message of a collective reaches the other package, which acts
on it; a post may be answered with an error on its way (17 R284). -/
def State.reorderAccept (s : State) (id : Nat) : State :=
  let s := s.reissue
  match s.pktOf id with
  | none => s
  | some p =>
    let room := decide ((s.fab.pkts.filter (fun q => q.stage == .accepted)).length < 4096)
    if s.arrived p && p.dup then s.dropPkt id
    else if s.arrived p && p.kind.isMsg then
      match p.kind with
      | .coll (.post _) =>
        let (n, s) := s.choose 2
        if n = 1 then s.setPkt { p with stage := .performed, error := true } else s.dropPkt id
      | _ => s.dropPkt id
    else if s.arrived p && p.kind.numbered && (s.isNext p || room) then
      let p := if p.stage == .queued then p.charge s.ftime else { p with entry := s.ftime }
      let (p, s) := s.chargeElsewhere p
      s.setPkt { p with stage := .accepted }
    else s

/-- The meaning of REORDER_ACCEPT. -/
def execReorderAccept (id : Nat) (s : State) : Out := .next (s.reorderAccept id)

/-- Whether a target word lies in a partition of the issuing launch, or in the reserve its task holds; the
partitions of another package are not known here (02 R16, 16 R255; log entry 22). -/
def State.targetGranted (s : State) (p : Packet) (pkg loc : Nat) : Bool × State :=
  if pkg == s.pkgid then
    let t := ((s.ctxOf p.owner).map (·.task)).getD {}
    (s.sched.grants.any (fun g => g.coversLoc pkg t.launch loc && g.reaches t s.coreid), s)
  else
    let (n, s) := s.choose 2
    (n == 0, s)

/-- The poisoned answer of a read that fails (16 R255, R267). -/
def State.poisonAnswer (s : State) (p : Packet) : Option Reg × State :=
  match p.kind with
  | .access a =>
    if a.kind.needsLq then
      let (x, s) := s.draw
      (some { val := x, poison := true }, s)
    else (none, s)
  | _ => (none, s)

/-- Who accesses memory with a packet: the last of the operations it carries, or its timed send. -/
def Packet.actor (p : Packet) : Actor := some (p.owner, (p.tsend.getD 0 :: p.ids).foldl Nat.max 0)

/-- A packet acts at one target package: its answer, whether it failed, and the state after; none
while its tag makes it wait (16 R255, R257, R260). What another package answers to a piece is not known here: it
takes it, defers it, or answers with an error (17 R282, R283; log entry 23). -/
def State.actAt (s : State) (p : Packet) (pkg : Nat) : Option (Option Reg × Bool × State) :=
  let loc := pkgBase pkg + p.loc
  let (ok, s) := if p.kind.isPiece then (true, s) else s.targetGranted p pkg loc
  if !ok then
    let (v, s) := s.poisonAnswer p
    some (v, true, s)
  else
    match p.kind with
    | .line bytes =>
      some (none, false, (s.setMasked loc bytes).wrote s p.actor
        (((List.range bytes.length).filter (fun i => (bytes[i]?).join.isSome)).map (fun i => loc + i)))
    | .withdraw _ => some (none, false, s)
    | .coll _ =>
      let (n, s) := s.choose 3
      some (if n = 1 then some {} else none, n == 2, s)
    | .access a =>
      let a := { a with loc := loc, merged := a.merged.map (fun m => (pkgBase pkg + m.1, m.2)) }
      if a.waitsFor.all (fun needFull => s.firstAt a.id (loc / 8) needFull) then
        (s.performed p.owner a).map (fun (v, s) => (v, false, s))
      else none

/-- REMOTE_PERFORM (16 R255, R259, R260, R262): the next packet of its sequence performs at its
target, a group write at one of the members still left; an access that its tag makes wait parks at
the word. -/
def State.remotePerform (s : State) (id : Nat) : State :=
  match s.pktOf id with
  | none => s
  | some p =>
    if p.stage != .accepted || !s.isNext p then s
    else
      let late := { p with marked := p.marked || (p.slack != 0 && p.slackNow s.ftime == 0) }
      match p.targets with
      | [] => s.setPkt { late with stage := .performed }
      | t :: rest =>
        let (n, s1) := if rest.isEmpty then (0, s) else s.choose (rest.length + 1)
        let pkg := ((t :: rest)[n]?).getD t
        match s1.actAt p pkg with
        | some (v, failed, s2) =>
          let left := p.targets.erase pkg
          let s2 := { s2 with core := { s2.core with
            parked := s2.core.parked.filter (fun w => !p.ids.contains w.id) } }
          s2.setPkt { late with
            targets := left, answer := v, error := p.error || failed
            stage := if left.isEmpty then .performed else .accepted }
        | none =>
          match p.kind with
          | .access a =>
            if pkg == s.pkgid then
              s.park p.owner a.id ((pkgBase pkg + p.loc) / 8) (a.waitsFor == some true)
            else s
          | _ => s

/-- The meaning of REMOTE_PERFORM. -/
def execRemotePerform (id : Nat) (s : State) : Out := .next (s.remotePerform id)

/-! ### Answers -/

/-- Whether a packet's answer is an acknowledgement: a write, a non-fetching atomic, a withdrawal
(16 R256, R261). -/
def PktKind.acked : PktKind → Bool
  | .access a => !a.kind.needsLq
  | _ => true

/-- The context that a packet is counted to: for a piece the one that posted. -/
def Packet.payer (p : Packet) : Nat :=
  match p.kind with
  | .coll (.piece _ _ uid) => uid
  | _ => p.owner

/-- An answer that came back marked exhausted is counted once (16 R264). -/
def State.countExhausted (s : State) (p : Packet) : State :=
  if !p.marked then s
  else
    let s := s.onOwner p.payer (fun c =>
      { c with lotflags := c.lotflags ||| BitVec.ofNat 16 (2 ^ (p.cls % 16)) })
    { s with core := { s.core with
      slkexh := s.core.slkexh.set (p.cls % 16) ((s.core.slkexh[p.cls % 16] + 1) % 2 ^ 64) } }

/-- A line write of a timed send is answered (16 R269). -/
def State.tsendAnswered (s : State) (p : Packet) : State :=
  match p.tsend with
  | none => s
  | some t =>
    { s with fab := { s.fab with
      tsends := s.fab.tsends.map (fun (x : TSend) =>
        if x.id == t then
          { x with unanswered := x.unanswered.filter (fun n => n != p.id), failed := x.failed || p.error }
        else x) } }

/-- ACK_RETURN (16 R256, R261, R264): a write is acknowledged and has performed at `.pod` scope,
also when it was answered with an error; a withdrawal is answered. -/
def State.ackReturn (s : State) (id : Nat) : State :=
  match s.pktOf id with
  | none => s
  | some p =>
    if p.stage != .performed || !p.kind.acked then s
    else
      let (p, s) := s.chargeElsewhere p
      let s := ((s.dropPkt id).countExhausted p).tsendAnswered p
      match p.kind with
      | .access a => s.retire p.owner a none
      | .line _ => s
      | .coll _ => s
      | .withdraw n =>
        s.onOwner p.owner (fun c => { c with withdrawn := c.withdrawn.filter (fun x => x != n) })

/-- REMOTE_REPLY (16 R255, R261, R262, R264): the answer of a read or of a fetching atomic returns
into `lq` of its context, running or not. -/
def State.remoteReply (s : State) (id : Nat) : State :=
  match s.pktOf id with
  | none => s
  | some p =>
    match p.kind with
    | .access a =>
      if p.stage != .performed || !a.kind.needsLq then s
      else
        let (p, s) := s.chargeElsewhere p
        ((s.dropPkt id).countExhausted p).retire p.owner a p.answer
    | _ => s

/-- The meaning of REMOTE_REPLY. -/
def execRemoteReply (id : Nat) (s : State) : Out := .next (s.remoteReply id)

/-- WITHDRAWAL_ARRIVAL (16 R261, 06 R110): unless it has performed, the access that waits, and the
accesses of its context behind it in its class, are withdrawn to their source;
the withdrawal's answer is under way. -/
def State.withdrawalArrival (s : State) (id : Nat) : State :=
  match s.pktOf id with
  | none => s
  | some p =>
    match p.kind with
    | .withdraw n =>
      if !s.arrived p then s
      else
        let s := s.setPkt { p with stage := .performed }
        match s.pktOf n with
        | some q =>
          if !q.stage.unperformed then s
          else
            { s with
              core := { s.core with parked := s.core.parked.filter (fun w => !q.ids.contains w.id) }
              fab := { s.fab with
                pkts := s.fab.pkts.map (fun x =>
                  if s.sameSeq q x && x.owner == q.owner && decide (q.seq ≤ x.seq)
                      && x.stage.unperformed then { x with stage := .withdrawn }
                  else x) } }
        | none => s
    | _ => s

/-- The meaning of WITHDRAWAL_ARRIVAL. -/
def execWithdrawalArrival (id : Nat) (s : State) : Out := .next (s.withdrawalArrival id)

/-! ### The combining buffer's age -/

/-- COMBINE_LINE_EXPIRY (16 R257): the k-th open line leaves 64 cycles after it opened; a line to a
held rank stays (R254). -/
def State.lineExpiry (s : State) (k : Nat) : State :=
  match s.core.lines[k]? with
  | some l =>
    if l.opened + 64 ≤ s.cyc ∧ !(s.rankEntry l.rank).getLsbD 20 then s.flushLine l else s
  | none => s

/-- The meaning of COMBINE_LINE_EXPIRY. -/
def execCombineLineExpiry (k : Nat) (s : State) : Out := .next (s.lineExpiry k)

/-! ### Links, routes, ranks -/

/-- Whether a packet's flits are in the retry buffer of a link: it left on it within 2 µs (16 R252, R267; log entry
80). -/
def State.inRetry (s : State) (port : Nat) (p : Packet) : Bool :=
  p.port == some port && !p.dup && p.stage != .queued && p.stage != .withdrawn && decide (s.ftime < p.left + 2000)

/-- LINK_DOWN (16 R267): the packets of the link's retry buffer return to the router with their hop index, those
that had arrived as duplicates; the packets queued for the link are routed afresh. -/
def State.linkDown (s : State) (port : Nat) : State :=
  let again := fun (p : Packet) =>
    { p with stage := .queued, port := none, lost := 0, entry := s.ftime, stuck := s.ftime }
  let arrived := (s.fab.pkts.filter (fun p => s.inRetry port p && p.stage != .flight)).zipIdx.map
    (fun ((p, k) : Packet × Nat) =>
      { again p with id := s.fab.nextPkt + k, owner := noOwner, ids := [], counted := false, tsend := none
                     dup := true })
  State.routeAll { s with fab := { s.fab with
    down := insertNat port s.fab.down
    nextPkt := s.fab.nextPkt + arrived.length
    pkts := s.fab.pkts.map (fun p =>
      if s.inRetry port p && p.stage == .flight then again p
      else if p.stage == .queued && p.port == some port then { p with port := none, lost := 0, stuck := s.ftime }
      else p) ++ arrived } }

/-- The meaning of LINK_DOWN. -/
def execLinkDown (port : Nat) (s : State) : Out := .next (s.linkDown port)

/-- Replace a rank-table entry. -/
def State.setRank (s : State) (rank : Nat) (e : Word) : State :=
  { s with fab := { s.fab with
    ranks := (rank, e) :: s.fab.ranks.filter (fun x => x.1 != rank) } }

/-- A packet without a usable route for 1 ms is dropped and answered with an error; its wait is charged, and its rank
is marked failed (16 R253, R263, R264, R267). -/
def State.dropNoRoute (s : State) (p : Packet) : State :=
  if p.stage == .queued && !s.loops p && !s.pktHeld p && (s.usablePorts p).isEmpty
      && decide (p.stuck + 1000000 ≤ s.ftime) then
    if p.dup then s.dropPkt p.id
    else
    let (v, s) := s.poisonAnswer p
    (s.setPkt { p.charge s.ftime with stage := .performed, error := true, answer := v, port := none }).setRank p.rank
      (s.rankEntry p.rank ||| 0x200000)
  else s

/-- The writable bits of a rank-table entry: bits 31:22 are reserved (16 R253). -/
def rankMask : Word := 0xFFFFFFFF003FFFFF

/-- Packets still at their source, or withdrawn to it, follow a rewritten rank: they take numbers of the new
destination's sequence, and what they had waited without a route is over (16 R254, R259, R261, R267). -/
def State.readdress (s : State) (rank : Nat) : State :=
  let mine := s.fab.pkts.filter (fun p =>
    !p.dup && p.rank == rank && (p.stage == .queued || p.stage == .withdrawn))
  mine.foldl (fun (s : State) p =>
    let (n, sq) :=
      if p.kind.numbered then nextSeq (s.destOf rank * 16 + p.cls) s.fab.sendSeq else (0, s.fab.sendSeq)
    let s := s.setPkt { p with seq := n, pkg := bitsOf (s.rankEntry rank) 0 14, targets := s.rankPkgs rank
                               dests := s.rankPkgs rank, port := none, lost := 0, stuck := s.ftime }
    { s with fab := { s.fab with sendSeq := sq } }) s

/-- The groups that a rank is a member of. -/
def State.groupsWith (s : State) (rank : Nat) : List Nat :=
  ((s.fab.ranks.filter (fun e => rankKind e.2 == 2)).map (·.1)).filter
    (fun g => (s.memberRanks g).contains rank)

/-- A location after its package's state has moved to another physical package. -/
def moveLoc (old new l : Nat) : Nat :=
  if l / 2 ^ 43 = old then new * 2 ^ 43 + l % 2 ^ 43 else l

/-- The memories, tags and poison marks of a package stand in another physical package (16 R254 step 3). -/
def State.moveMem (s : State) (old new : Nat) : State :=
  let m := moveLoc old new
  let here := fun (l : Nat) => l / 2 ^ 43 == new
  { s with
    mem := (s.mem.filter (fun c => !here c.1)).foldl (fun t c => setCell (m c.1) c.2 t) []
    empties := (s.empties.filter (fun w => !here (8 * w))).foldl (fun t w => insertNat (m (8 * w) / 8) t) []
    marks := (s.marks.filter (fun w => !here (64 * w))).foldl (fun t w => insertNat (m (64 * w) / 64) t) [] }

/-- The rank that the table gives the package itself: the lowest that names it; the last known one where none
does (02 R11, 16 R253; log entry 89). -/
def State.findRank (s : State) : Nat :=
  match (s.fab.ranks.filter (fun e => rankKind e.2 == 1 && bitsOf e.2 0 14 == s.pkgid)).map (·.1) with
  | [] => s.rank
  | r :: l => l.foldl Nat.min r

/-- The traffic of collectives at its source waits from the setting of a rank's hold on (17 R286). -/
def State.noteHold (s : State) (rank : Nat) : State :=
  if (s.rankEntry rank).getLsbD 20 then
    { s with fab := { s.fab with
      pkts := s.fab.pkts.map (fun p =>
        if p.rank == rank && p.kind.holds && p.stage == .queued then { p with waited := true } else p) } }
  else s

/-- The table's rewrite of an entry (16 R253, R254): a group's members stand in the job's member array from its first
on, its L starts at 0, and its numbers start anew (17 R272). When the destination of a held rank changes, the state of
its package has moved there; packets still at their source, also those to groups of the rank, are readdressed. -/
def State.rankWrite (s : State) (rank : Nat) (entry : Word) (members : List Nat) : State :=
  let old := s.rankEntry rank
  let e := entry &&& rankMask
  let group := rankKind e == 2
  let at_ := members.zipIdx.map (fun (r, i) => (bitsOf e 32 32 + i, r))
  let ranked := s.setRank rank e
  let s := if group then { ranked with
      fab := { ranked.fab with
        members := at_ ++ ranked.fab.members.filter (fun m => !at_.any (fun x => x.1 == m.1)) }
      coll := { ranked.coll with
        lastSeq := ranked.coll.lastSeq.filter (fun x => x.1 != rank)
        finals := ranked.coll.finals.filter (fun x => x.1.group != rank) } }
    else ranked
  let s := { s.noteHold rank with rank := s.findRank }
  if bitsOf old 0 16 == bitsOf e 0 16 then s
  else
    let s := if rankKind old == 1 && rankKind e == 1 && old.getLsbD 20 && bitsOf old 0 14 != s.pkgid
        && bitsOf e 0 14 != s.pkgid then s.moveMem (bitsOf old 0 14) (bitsOf e 0 14) else s
    (rank :: s.groupsWith rank).foldl State.readdress s

/-- ROUTE_TABLE_LOAD (16 R266): an entry takes at most four alternatives. -/
def State.loadRoute (s : State) (dest : Nat) (alts : List (Nat × Nat)) : State :=
  State.routeAll { s with fab := { s.fab with
    routes := (dest, alts.take 4) :: s.fab.routes.filter (fun e => e.1 != dest) } }

/-- The meaning of ROUTE_TABLE_LOAD (16 R266, 22 R322). -/
def execRouteTableLoad (dest : Nat) (alts : List (Nat × Nat)) (s : State) : Out :=
  .next (s.asked (fun t => t.loadRoute dest alts))

/-- Whether anything of the package is under way whose place the move would change: step 2 of 16
R254, and 17 R286. -/
def State.quiet (s : State) : Bool :=
  s.contexts.all (fun c => c.accs.isEmpty && c.streams.isEmpty && c.savedCmds.isEmpty)
  && s.core.shq.isEmpty && s.core.copies.isEmpty && s.core.lines.isEmpty
  && s.fab.pkts.all (fun p => p.stage == .queued && (p.kind.isMsg || p.kind.isPiece))
  && s.fab.tsends.isEmpty && s.core.parked.isEmpty && s.coll.fabq.isEmpty
  && s.coll.table.all (fun c => c.code != 3) && s.coll.tail.isEmpty

/-- The locations that a collective of the package holds, at their new places (17 R286). -/
def Coll.moved (m : Nat → Nat) (c : Coll) : Coll :=
  { c with
    blkLoc := m c.blkLoc
    toLoc := c.toLoc.map m
    fromLoc := c.fromLoc.map m
    dirty := c.dirty.map m }

/-- What was saved of an evicted partition, at its new place (06 R98). -/
def Evicted.moved (m : Nat → Nat) (e : Evicted) : Evicted :=
  { e with
    bytes := e.bytes.map (fun x => (m x.1, x.2))
    empties := e.empties.map (fun x => m (8 * x) / 8)
    marks := e.marks.map (fun x => m (64 * x) / 64) }

/-- MIGRATION (16 R254 step 3, 17 R286): while hold is set in the rank's entry, the hypervisor
moves the package's state to another physical package: memories, tags, poison marks, tables. -/
def State.migrate (s : State) (pkg : Nat) : State :=
  if !(s.rankEntry s.rank).getLsbD 20 || !s.quiet || pkg == s.pkgid || decide (2 ^ 14 ≤ pkg) then s
  else
    let m := moveLoc s.pkgid pkg
    let t := s.moveMem s.pkgid pkg
    { t with
      pkgid := pkg
      sched := { t.sched with evicted := t.sched.evicted.map (fun e => e.moved m) }
      coll := { t.coll with
        table := t.coll.table.map (fun c => c.moved m)
        closing := t.coll.closing.map (fun c => c.moved m) } }

/-- The meaning of MIGRATION. -/
def execMigration (pkg : Nat) (s : State) : Out := .next (s.migrate pkg)

/-! ### Timed sends -/

/-- The words of a FAB block; those of a marked line are undefined (16 R268, 06 R102). -/
def State.fabBlock (s : State) (loc n : Nat) : List Word :=
  (List.range n).map (fun i =>
    if s.marked (loc + 8 * i) then Config.freeWord (s.fv + i) else s.word (loc + 8 * i))

/-- The earlier accesses a FAB command waits for: those of its class and of its buffers (08 R175,
18 R292). -/
def State.fabDeps (s : State) (cls : Nat) (sides : List Side) : List Nat := s.copyDeps cls sides

/-- Whether a timed send's block is in order: no reserved bit, bytes in range, `from` a near range
of the task, `to` a range of a window whose rank is present (16 R269). -/
def State.tsendOk (s : State) (blk : List Word) : Bool :=
  let dest := blkWord blk 0
  let from_ := blkWord blk 1
  let w2 := blkWord blk 2
  let n := bitsOf w2 0 13
  bitsOf dest 57 7 == 0 && bitsOf from_ 57 7 == 0 && bitsOf w2 13 3 == 0 && bitsOf w2 32 32 == 0
  && decide (8 ≤ n) && decide (n ≤ 4096) && n % 8 == 0 && dest.toNat % 8 == 0 && from_.toNat % 8 == 0
  && (bitsOf from_ 52 5 == 0x10 || bitsOf from_ 52 5 == 0x11)
  && (s.rangeAddr from_ n).isNone && (s.rangePerm from_ n false false).isNone
  && (match s.locate dest with
      | .ok (.window _ _ loc) =>
        let size := if bitsOf dest 34 4 = 0 then 2 ^ 21 else 2 ^ 23
        decide (loc % size + n ≤ size)
      | _ => false)

/-- The record of a timed send at its issue (16 R269). -/
def State.tsendRec (s : State) (id loc cls : Nat) (blk : List Word) : TSend :=
  let n := bitsOf (blkWord blk 2) 0 13
  let ok := s.tsendOk blk
  let deps := s.fabDeps cls (if ok then [.flat (blkWord blk 1) n] else [])
  { id := id, owner := s.cx.uid, blkLoc := loc, dest := blkWord blk 0, from_ := blkWord blk 1
    bytes := n, slack := bitsOf (blkWord blk 2) 16 16, notbefore := (blkWord blk 3).toNat, cls := cls
    deps := deps, failed := !ok, fromLoc := s.locOf (blkWord blk 1) }

/-- Replace a timed send. -/
def State.setTsend (s : State) (t : TSend) : State :=
  { s with fab := { s.fab with tsends := s.fab.tsends.map (fun x => if x.id == t.id then t else x) } }

/-- A timed send takes a table entry of 256; it is late if its time has come (16 R269). -/
def State.tsendEnter (s : State) (t : TSend) : State :=
  s.setTsend { t with entered := true, late := !t.failed && decide (t.notbefore ≤ s.ftime) }

/-- Whether a byte of a timed send's source is undefined: in a marked line, written since the issue, or one that
software may not read (06 R102, 16 R269, 17 R276). -/
def TSend.open_ (t : TSend) (s : State) (l : Nat) : Bool :=
  s.marked l || t.dirty.contains l || s.hot (some (t.owner, t.id)) l

/-- The bytes of a timed send at its departure. -/
def State.tsendBytes (s : State) (t : TSend) : List (Option Byte) × State :=
  let loc := t.fromLoc
  ((List.range t.bytes).map (fun i =>
    some (if t.open_ s (loc + i) then (Config.freeWord (s.fv + i)).extractLsb' 0 8 else s.byte (loc + i))),
   if (List.range t.bytes).any (fun i => t.open_ s (loc + i)) then { s with fv := s.fv + t.bytes } else s)

/-- Cut a list into runs of 64. -/
def runs64 : Nat → List (Option Byte) → List (List (Option Byte))
  | 0, _ => []
  | _, [] => []
  | n + 1, l => l.take 64 :: runs64 n (l.drop 64)

/-- Words 5 and 6 of a timed send's block at its departure (16 R269). -/
def State.tsendReport (s : State) (t : TSend) : State :=
  let s := s.setWord (t.blkLoc + 40) (if t.late then 2 else 1)
  s.setWord (t.blkLoc + 48) (if t.late then mkWord (s.ftime - t.notbefore) else 0)

/-- TSEND_DEPARTURE (16 R269): at its time, and once the earlier accesses have performed, the
source is read and leaves as line writes in ascending address, outside the combining buffer and
the window's count; the block tells whether it left late. -/
def State.tsendDeparture (s : State) (id : Nat) : State :=
  match s.fab.tsends.find? (fun t => t.id == id) with
  | none => s
  | some t =>
    if !t.entered || t.failed || t.departed.isSome || decide (s.ftime < t.notbefore) || !s.depsDone t.deps
    then s
    else
      match s.locate t.dest with
      | .ok (.window w rank loc) =>
        let (bytes, s) := s.tsendBytes t
        let first := s.fab.nextPkt
        let lines := runs64 64 bytes
        let s := lines.zipIdx.foldl (fun (s : State) (l, k) =>
          s.sendPacket
            { id := 0, owner := t.owner, kind := .line l, rank := rank, pkg := 0, targets := []
              loc := loc + 64 * k, cls := t.cls, seq := 0, win := w, counted := false
              slack := t.slack, entry := 0, tsend := some id }) s
        (s.tsendReport t).setTsend { t with departed := some s.ftime, sent := some (loc, s.rankPkgs rank)
                                            unanswered := (List.range lines.length).map (fun k => first + k) }
      | _ => s.setTsend { t with failed := true }

/-- The meaning of TSEND_DEPARTURE. -/
def execTsendDeparture (id : Nat) (s : State) : Out := .next (s.tsendDeparture id)

/-- TSEND_COMPLETE (16 R269): every line is acknowledged, or the block was refused, and the command completes;
one that failed, or was answered with an error, leaves state 3 and error reason 1. -/
def State.tsendComplete (s : State) (id : Nat) : State :=
  match s.fab.tsends.find? (fun t => t.id == id) with
  | none => s
  | some t =>
    if t.entered && t.unanswered.isEmpty && (t.failed || t.departed.isSome) then
      let s := if t.failed then s.setWord (t.blkLoc + 40) 3 else s
      let s := { s with fab := { s.fab with tsends := s.fab.tsends.filter (fun x => x.id != id) } }
      s.cmdDone t.owner id (if t.failed then some 1 else none) 0
    else s

end Sys2Proof.Machine
end

