-- ==== Sys2Proof/Machine/Collectives.lean ====
section
/-!
DEFINITION. Posted collectives (17 R270 to R288, R300, R337; 04 R71): the posted-collective table,
the hoop, tickets and admission, the pieces of this member, failure and cancellation; the FAB words
(16 R268, 17 R287) and the X-pipe queue (10 R186, R198).
-/

namespace Sys2Proof.Machine

open Sys2Proof

/-! ### The parameter block (17 R273) -/

/-- Operation. -/
def cOp (b : List Word) : Nat := bitsOf (blkWord b 0) 0 4
/-- Reduction operator. -/
def cAccop (b : List Word) : Nat := bitsOf (blkWord b 0) 4 4
/-- Saturation. -/
def cSat (b : List Word) : Bool := (blkWord b 0).getLsbD 8
/-- Format code. -/
def cCode (b : List Word) : Nat := bitsOf (blkWord b 0) 9 5
/-- Role. -/
def cRole (b : List Word) : Nat := bitsOf (blkWord b 0) 16 14
/-- Group and sequence number. -/
def cId (b : List Word) : CollId := ⟨bitsOf (blkWord b 1) 0 14, bitsOf (blkWord b 2) 0 32⟩
/-- Source buffer. -/
def cFrom (b : List Word) : Word := keep (blkWord b 3) 0 57
/-- Destination buffer. -/
def cTo (b : List Word) : Word := keep (blkWord b 4) 0 57
/-- Count. -/
def cCount (b : List Word) : Nat := bitsOf (blkWord b 5) 0 32
/-- Start time. -/
def cNotbefore (b : List Word) : Nat := (blkWord b 7).toNat
/-- Pacing width. -/
def cSlot (b : List Word) : Nat := bitsOf (blkWord b 8) 0 32
/-- Timeout in µs. -/
def cTimeout (b : List Word) : Nat := bitsOf (blkWord b 9) 0 32

/-- The element format of codes 1 to 12 (07 R128). -/
def cFmt (b : List Word) : Fmt := (fmtOfCode (fun _ => 0) (cCode b)).getD (.int false 8)

/-- Bytes of an element. -/
def cW (b : List Word) : Nat := (cFmt b).width / 8

/-- The values of a post that the hoop compares (17 R278). -/
def cKey (b : List Word) : PostKey :=
  ⟨cOp b, cAccop b, cSat b, cCode b, cRole b, cCount b, cNotbefore b, cSlot b⟩

/-- Whether the reserved bits of the two words that `CCANCEL` and `CQUERY` read are clear. -/
def idWordsOk (b : List Word) : Bool :=
  bitsOf (blkWord b 1) 14 50 == 0 && bitsOf (blkWord b 2) 32 32 == 0

/-- Whether an operator, format and saturation go together (17 R273, R275). -/
def cFormatOk (b : List Word) : Bool :=
  let f := cCode b
  let floating := decide (1 ≤ f) && decide (f ≤ 4)
  let integer := decide (5 ≤ f) && decide (f ≤ 12)
  if cOp b ≤ 1 then
    decide (cAccop b ≤ 4) && ((floating && decide (cAccop b ≤ 2)) || integer)
    && (!cSat b || (integer && cAccop b == 0))
  else (floating || integer) && cAccop b == 0 && !cSat b

/-- The block checks made at the issue of `CPOST` (17 R273, R275, R287). -/
def cpostOk (b : List Word) : Bool :=
  bitsOf (blkWord b 0) 14 2 == 0 && bitsOf (blkWord b 0) 30 34 == 0 && idWordsOk b
  && bitsOf (blkWord b 3) 57 7 == 0 && bitsOf (blkWord b 4) 57 7 == 0
  && bitsOf (blkWord b 5) 32 32 == 0 && bitsOf (blkWord b 6) 16 48 == 0
  && bitsOf (blkWord b 8) 32 32 == 0 && bitsOf (blkWord b 9) 32 32 == 0
  && blkWord b 10 == 0 && blkWord b 11 == 0
  && decide (cOp b ≤ 5) && cFormatOk b
  && (cOp b == 3 || cOp b == 4 || cRole b == 0)
  && decide (1 ≤ cCount b) && decide (1 ≤ cTimeout b)
  && (cFrom b).toNat % Nat.max 1 (cW b) == 0 && (cTo b).toNat % Nat.max 1 (cW b) == 0

/-! ### Groups -/

/-- The members of a group, as ranks; none of a rank that is no group (16 R253, 17 R271). -/
def State.groupRanks (s : State) (group : Nat) : List Nat :=
  if rankKind (s.rankEntry group) = 2 then s.memberRanks group else []

/-- The package of a member's rank. -/
def State.rankPkg (s : State) (rank : Nat) : Nat := bitsOf (s.rankEntry rank) 0 14

/-- This package's position in a group, if it is a member. -/
def State.posIn (s : State) (group : Nat) : Option Nat :=
  (s.groupRanks group).findIdx? (fun r => rankKind (s.rankEntry r) == 1 && s.rankPkg r == s.pkgid)

/-- Whether a group may run a collective here (17 R271). -/
def State.groupOk (s : State) (group : Nat) : Bool :=
  let e := s.rankEntry group
  let l := s.groupRanks group
  rankKind e == 2 && decide (2 ≤ bitsOf e 0 14 + 1) && l.length == bitsOf e 0 14 + 1
  && (s.posIn group).isSome
  && l.all (fun r => rankKind (s.rankEntry r) == 1 && !(s.rankEntry r).getLsbD 21)

/-- The package that holds a group's hoop (17 R271). -/
def State.hoopPkg (s : State) (group : Nat) : Nat := s.rankPkg ((s.groupRanks group).headD 0)

/-- Whether this package holds a group's hoop. -/
def State.isHoop (s : State) (group : Nat) : Bool :=
  !(s.groupRanks group).isEmpty && s.hoopPkg group == s.pkgid

/-- A message of a collective leaves for the member at a position (17 R278, R280 to R286): it enters the router of
its sequencer's port. -/
def State.sendMsg (s : State) (group pos cls slack : Nat) (m : CollMsg) : State :=
  s.enterRouter 0
    { id := 0, owner := noOwner, kind := .coll m, rank := ((s.groupRanks group)[pos]?).getD 0, pkg := 0
      targets := [], loc := 0, cls := cls, seq := 0, win := 0, counted := false, slack := slack, entry := 0
      vc := if (PktKind.coll m).isAnswer then 5 else 0 }

/-- A message with slack 0 leaves for every other member (17 R278, R280, R283). -/
def State.sendAll (s : State) (group : Nat) (m : CollMsg) : State :=
  (List.range (s.groupRanks group).length).foldl (fun (s : State) k =>
    if s.posIn group == some k then s else s.sendMsg group k 0 0 m) s

/-! ### The table -/

/-- The collective of an identity in the table, the earliest posted. -/
def State.coll? (s : State) (c : CollId) : Option Coll :=
  s.coll.table.find? (fun x => x.entered && x.cid == c)

/-- The collective of an identity whose data move here: admitted, or past its final code with pieces to pass on. -/
def State.active (s : State) (c : CollId) : Option Coll :=
  (s.coll.table ++ s.coll.tail).find? (fun x => x.entered && x.code == 3 && x.cid == c)

/-- Replace a collective. -/
def State.setColl (s : State) (c : Coll) : State :=
  { s with coll := { s.coll with
    table := s.coll.table.map (fun x => if x.cmd == c.cmd then c else x)
    tail := s.coll.tail.map (fun x => if x.cmd == c.cmd then c else x) } }

/-- Whether a packet carries the post of a collective and has not left this package. -/
def Packet.unsentPost (p : Packet) (c : Coll) : Bool :=
  p.stage == .queued && p.kind == .coll (.post c.cmd)

/-- Whether a collective's post has left for the hoop: it does not wait in the table, nor at its source for a rank
hold (17 R284, R286). -/
def State.hasLeft (s : State) (c : Coll) : Bool :=
  c.left && !s.fab.pkts.any (fun p => p.unsentPost c && s.pktHeld p)

/-- Whether a packet carries a piece of a collective that its receiver has not acknowledged. -/
def Packet.pieceOf (p : Packet) (c : CollId) : Bool :=
  match p.kind with
  | .coll (.piece x _ _) => x.coll == c && !p.dup
  | _ => false

/-- Elements of a full piece (17 R281). -/
def pieceLen (b : List Word) : Nat := 4096 / Nat.max 1 (cW b)

/-- First element and number of elements of a chunk or block in its source (17 R275, R277). -/
def chunkOf (b : List Word) (n chunk : Nat) : Nat × Nat :=
  match cOp b with
  | 0 =>
    let lo := chunk * cCount b / n
    (lo, (chunk + 1) * cCount b / n - lo)
  | 1 | 5 => (chunk * cCount b, cCount b)
  | _ => (0, cCount b)

/-- The offsets of the pieces of a chunk. -/
def pieceOffsets (b : List Word) (n chunk : Nat) : List Nat :=
  let len := (chunkOf b n chunk).2
  (List.range ((len + pieceLen b - 1) / pieceLen b)).map (fun k => k * pieceLen b)

/-- The chunks whose pieces begin at this member (17 R281). -/
def Coll.starts (c : Coll) : List Nat :=
  match cOp c.blk with
  | 0 | 1 => [(c.pos + c.n - 1) % c.n]
  | 2 | 4 => [c.pos]
  | 3 => if c.pos = cRole c.blk then [0] else []
  | _ => List.range c.n

/-- Destination elements of a member (17 R275). -/
def Coll.destCount (c : Coll) : Nat :=
  match cOp c.blk with
  | 2 | 5 => c.n * cCount c.blk
  | _ => cCount c.blk

/-- Whether a member has written its last destination piece (17 R337). -/
def Coll.complete (c : Coll) : Bool := (c.written.map (·.2)).sum == c.destCount

/-- Whether a member has still to read some of its source: for pieces to begin here, or to receive for others. -/
def Coll.reads (c : Coll) : Bool :=
  c.starts.any (fun k => (pieceOffsets c.blk c.n k).any (fun o => !c.sent.contains (k, o)))
  || (cOp c.blk == 1 && (List.range c.n).any (fun k => !c.starts.contains k &&
      (pieceOffsets c.blk c.n k).any (fun o => !c.got.any (fun g => g.1 == k && g.2.1 == o))))

/-- Whether a member has pieces still to begin, to receive for others or to pass on. -/
def Coll.duties (c : Coll) : Bool := !c.staged.isEmpty || c.reads

/-- A status word (17 R274). -/
def statusWord (code pos : Nat) : Word :=
  mkWord (code + (if code = 0 ∨ code = 0x16 then 0 else pos % 2 ^ 14 * 2 ^ 16))

/-- The `CCANCEL`s that wait for a collective complete (17 R285). -/
def State.cancelsDone (s : State) (c : Coll) : State :=
  let done := s.coll.fabq.filter (fun f => f.reached && !f.query && f.cancels == c.cmd)
  let s := { s with coll := { s.coll with fabq := s.coll.fabq.filter (fun f => !done.contains f) } }
  done.foldl (fun (s : State) f => s.cmdDone f.owner f.id none 0) s

/-- A ring context of a sequencer is free again (17 R270). -/
def State.ringFree (s : State) (k : Nat) : State :=
  { s with coll := { s.coll with rings := s.coll.rings.modify k (· + 1) } }

/-- Whether this package runs another collective of the same identity: a post that repeated its number ends alone
(17 R272). -/
def State.hasTwin (s : State) (c : Coll) : Bool :=
  (s.coll.table ++ s.coll.tail).any (fun x => x.entered && x.cid == c.cid && x.cmd != c.cmd)

/-- What the package keeps of a collective that has its final code: its buffers until its batch is complete (17
R276). -/
def State.keepClosing (s : State) (c : Coll) : State :=
  { s with coll := { s.coll with closing := (s.coll.closing ++ [c]).filter s.batchOpen } }

/-- The final codes kept after one more (17 R274, R287): the DUP of a post that repeats a number is not that of the
collective whose number it is (R272). -/
def State.noteFinal (s : State) (c : Coll) (code : Nat) : List (CollId × Nat × Nat) :=
  if code == 0x17 && (s.hasTwin c || s.coll.finals.any (fun x => x.1 == c.cid)) then s.coll.finals
  else (c.cid, code, c.pos) :: s.coll.finals.filter (fun x => x.1 != c.cid)

/-- A final code (17 R274, R279, R283, R337): words 12 to 15 are written, word 15 with tag mode
fill; the command completes, without error only for DONE; pins are released, and resources too, but that a member
that is DONE passes on the pieces it still has to, and its command completes once it has read all of its source, when
its flags are known (R277; log entry 100); the staged pieces of any other are discarded. What belongs to the
collective whose number a post repeated stays (R272). -/
def State.collFinal (s : State) (c : Coll) (code : Nat) : State :=
  let nb := cNotbefore c.blk
  let late := match c.admitted with
    | some a => if nb != 0 && decide (nb < a) then a - nb else 0
    | none => 0
  let s := s.setWord (c.blkLoc + 96) (mkWord ((c.ticket.map (·.hoopid)).getD 0))
  let s := s.setWord (c.blkLoc + 104) (mkWord late)
  let s := s.setWord (c.blkLoc + 112) (mkWord ((c.ticket.map (·.issue)).getD 0))
  let s := s.setWord (c.blkLoc + 120) (statusWord code c.pos)
  let s := s.setTag (c.blkLoc + 120) true
  let stays := code == 0x10 && (c.duties || s.fab.pkts.any (fun p => p.pieceOf c.cid))
  let twin := s.hasTwin c
  let gone := fun (p : Packet) => p.unsentPost c
    || (code != 0x10 && p.stage == .queued && p.pieceOf c.cid && c.code == 3)
  let s := { s with
    coll := { s.coll with
      table := s.coll.table.filter (fun x => x.cmd != c.cmd)
      tail := if stays then s.coll.tail ++ [{ c with unsettled := c.reads }] else s.coll.tail
      overflow := if stays || twin then s.coll.overflow else s.coll.overflow.filter (fun p => p.coll != c.cid)
      deferred := if twin then s.coll.deferred else s.coll.deferred.filter (fun p => p.2.coll != c.cid)
      resend := if stays || twin then s.coll.resend else s.coll.resend.filter (fun p => p.2.2.coll != c.cid)
      finals := s.noteFinal c code }
    fab := { s.fab with pkts := s.fab.pkts.filter (fun p => !gone p) } }
  let s := if c.code = 3 && !stays then s.ringFree c.seqr else s
  let s := if stays && c.reads then s
    else s.cmdDone c.owner c.cmd (if code = 0x10 then none else some code) c.flags
  (s.keepClosing c).cancelsDone c

/-- A member fails, or is cancelled, with a code: it sends an abort notice to every member (17 R283, R285). -/
def State.collFail (s : State) (c : Coll) (code : Nat) : State :=
  (s.sendAll c.cid.group (.notice c.cid code)).collFinal c code

/-! ### Buffers -/

/-- Bytes of `from` and of `to` (17 R275). -/
def cExtents (b : List Word) (n : Nat) : Nat × Nat :=
  let one := cCount b * cW b
  match cOp b with
  | 1 => (n * one, one)
  | 2 => (one, n * one)
  | 5 => (n * one, n * one)
  | _ => (one, one)

/-- A near buffer that a collective may use (17 R276). -/
def State.nearBufferOk (s : State) (a : Word) (n : Nat) (write : Bool) : Bool :=
  (bitsOf a 52 4 == 0 || bitsOf a 52 4 == 1) && (s.rangeAddr a n).isNone
  && (s.rangePerm a n write false).isNone

/-- What pinning the pages of a global buffer finds: done, absent pages, or a page that may not be
used (17 R276). -/
inductive Pinning where
  | pinned | absent | refused
  deriving DecidableEq, Repr

/-- Pin one page, noting its frame. -/
def pinPage (c : Coll) (write : Bool) (x : Pinning × List (Nat × Nat) × State) (page : Nat) :
    Pinning × List (Nat × Nat) × State :=
  match x.1 with
  | .pinned =>
    match x.2.2.translate c.ptbase c.asid (mkWord (page * 4096)) write c.priv with
    | (.ok pa _, s) => (.pinned, (page, pa) :: x.2.1, s)
    | (.fault 0, s) => (.absent, x.2.1, s)
    | (_, s) => (.refused, x.2.1, s)
  | _ => x

/-- Pin the pages of a buffer; a near range is checked when the post enters the table, and holds; a global one that
runs past the end of global memory is refused (02 R16, 17 R276). -/
def State.pinBuffer (s : State) (c : Coll) (a : Word) (n : Nat) (write : Bool) :
    Pinning × List (Nat × Nat) × State :=
  if isNear a then (if c.tried.isSome || s.nearBufferOk a n write then .pinned else .refused, [], s)
  else
    let first := a.toNat / 4096
    let last := (a.toNat + n - 1) / 4096
    if 2 ^ 56 < a.toNat + n then (.refused, [], s)
    else (List.range (last - first + 1)).foldl (fun x k => pinPage c write x (first + k)) (.pinned, [], s)

/-- Whether role and extents fit the group (17 R275, R287). -/
def cGroupOk (b : List Word) (n : Nat) : Bool :=
  let (x, y) := cExtents b n
  decide (x < 2 ^ 40) && decide (y < 2 ^ 40)
  && (cOp b != 3 || decide (cRole b < n))
  && (cOp b != 4 || (decide (1 ≤ cRole b) && decide (cRole b < n)))

/-! ### Tickets -/

/-- Ranks compare by issue time, then by hoop (17 R278). -/
def ticketBelow (t u : Ticket) : Bool :=
  decide (t.issue < u.issue) || (t.issue == u.issue && decide (t.hoopid < u.hoopid))

/-- A ticket is at its member (17 R279, R283, R285): one that ranks below an admitted one sends ORDER notices; one
that meets a cancellation cancels the collective, one that comes after the timeout fails it; else it is held. -/
def State.ticketIn (s : State) (t : Ticket) : State :=
  match s.coll? t.coll with
  | none => s
  | some c =>
    if c.code != 1 || !c.left then s
    else
      let c := { c with ticket := some t }
      if s.coll.admitted.any (fun a => ticketBelow t a) then
        (s.sendAll t.coll.group (.notice t.coll 0x13)).collFinal c 0x13
      else if s.coll.fabq.any (fun f => f.reached && !f.query && f.cancels == c.cmd) then s.collFail c 0x14
      else if c.deadline ≤ s.ftime then s.collFail c 0x11
      else s.setColl { c with code := 2 }

/-! ### The hoop -/

/-- Set L of a group (17 R272). -/
def State.raiseL (s : State) (c : CollId) : State :=
  let l := ((s.coll.lastSeq.find? (fun e => e.1 == c.group)).map (·.2)).getD 0
  { s with coll := { s.coll with
    lastSeq := (c.group, Nat.max l c.seq) :: s.coll.lastSeq.filter (fun e => e.1 != c.group) } }

/-- L of a group. -/
def State.lastL (s : State) (group : Nat) : Nat :=
  ((s.coll.lastSeq.find? (fun e => e.1 == group)).map (·.2)).getD 0

/-- The ns in which the hoop issues the ticket of an entry whose posts are all held: one ticket in each ns
(17 R278). -/
def State.issueTime (s : State) (h : HoopEnt) : Nat := Nat.max (h.full.getD 0) s.coll.nextIssue

/-- The hoop issues the ticket of an entry: L rises, every other member is sent it, and the hoop's own member holds
it in the ns of its issue (17 R278, R300). -/
def State.issueTicket (s : State) (h : HoopEnt) : State :=
  let t : Ticket := ⟨h.cid, s.issueTime h, s.pkgid⟩
  let s := s.raiseL h.cid
  let s := { s with coll := { s.coll with
    hoop := s.coll.hoop.filter (fun x => x.cid != h.cid)
    nextIssue := t.issue + 1 } }
  (s.sendAll h.cid.group (.ticket t)).ticketIn t

/-- The tickets that fall due are issued, in the order in which their posts were complete. -/
def State.issueDue (s : State) : State :=
  s.coll.hoop.foldl (fun (s : State) h =>
    if h.full.isSome && decide (s.issueTime h ≤ s.ftime) then s.issueTicket h else s) s

/-- The hoop tells a member that posted a final code; its own member completes with it. -/
def State.hoopTell (s : State) (c : CollId) (code pos : Nat) : State :=
  if s.posIn c.group == some pos then
    match s.coll? c with
    | some x => s.collFinal x code
    | none => s
  else s.sendMsg c.group pos 0 0 (.notice c code)

/-- The hoop refuses one post with a code: its own member's by its command, another's by a notice (17 R272,
R278). -/
def State.hoopRefuse (s : State) (c : CollId) (pos : Nat) (cmd : Option Nat) (code : Nat) : State :=
  match cmd with
  | some id =>
    match s.coll.table.find? (fun x => x.cmd == id) with
    | some x => s.collFinal x code
    | none => s
  | none => s.sendMsg c.group pos 0 0 (.notice c code)

/-- Replace an entry of the hoop, which stands last. -/
def State.setHoop (s : State) (h : HoopEnt) : State :=
  { s with coll := { s.coll with hoop := s.coll.hoop.filter (fun x => x.cid != h.cid) ++ [h] } }

/-- A post is at this package's hoop, its own member's with the command (17 R272, R278): refused as stale or
repeated, or as one of a number whose posts disagree; held; or the last one, which brings the ticket. -/
def State.hoopPost (s : State) (c : CollId) (pos : Nat) (key : PostKey) (cmd : Option Nat) : State :=
  let stale := decide (c.seq ≤ s.lastL c.group)
  match s.coll.hoop.find? (fun h => h.cid == c) with
  | some h =>
    let h' := { h with posted := h.posted ++ [pos] }
    if h.posted.contains pos then s.hoopRefuse c pos cmd 0x17
    else match h.dead with
      | some code => (s.setHoop h').hoopRefuse c pos cmd code
      | none =>
        if stale then s.hoopRefuse c pos cmd 0x17
        else if key != h.key then
          h'.posted.foldl (fun (s : State) p => s.hoopTell c 0x15 p)
            ((s.raiseL c).setHoop { h' with dead := some 0x15 })
        else if (s.groupRanks c.group).length ≤ h'.posted.length then
          (s.setHoop { h' with full := some s.ftime }).issueDue
        else s.setHoop h'
  | none =>
    if stale then s.hoopRefuse c pos cmd 0x17
    else s.setHoop { cid := c, key := key, posted := [pos] }

/-- The hoop voids a sequence number without a ticket (17 R284, R285): L rises, and every member
that posted it completes with the code. -/
def State.hoopVoid (s : State) (c : CollId) (code : Nat) : State :=
  match s.coll.hoop.find? (fun h => h.cid == c) with
  | some h =>
    if h.dead.isSome then s
    else
      let s := s.raiseL c
      let s := { s with coll := { s.coll with hoop := s.coll.hoop.filter (fun x => x.cid != c) } }
      h.posted.foldl (fun (s : State) p => s.hoopTell c code p) s
  | none => if c.seq ≤ s.lastL c.group then s else s.raiseL c

/-! ### Posting -/

/-- The slack of a collective's post and pieces at their origin (16 R263, 17 R273). -/
def cSlack (b : List Word) : Nat := bitsOf (blkWord b 6) 0 16

/-- A post whose buffers are pinned leaves for its hoop; the hoop on this package holds it in the same ns
(17 R278, R300). -/
def State.sendPost (s : State) (c : Coll) : State :=
  let s := s.setColl { c with pinned := true, left := true }
  if s.isHoop c.cid.group then s.hoopPost c.cid c.pos (cKey c.blk) (some c.cmd)
  else s.sendMsg c.cid.group 0 c.cls (cSlack c.blk) (.post c.cmd)

/-- A post in the table has its buffers pinned, and leaves; while pages are absent the firmware
makes them present or says that it cannot, a decision not known here (17 R276; log entry 23). -/
def State.pinPost (s : State) (c : Coll) : State :=
  let (x, y) := cExtents c.blk c.n
  let (r1, f1, s) := s.pinBuffer c (cFrom c.blk) x false
  let (r2, f2, s) := s.pinBuffer c (cTo c.blk) y true
  if r1 == .refused || r2 == .refused then s.collFinal c 0x16
  else if r1 == .absent || r2 == .absent then
    let (k, s) := s.choose 2
    if k = 1 then s.collFinal c 0x16 else s.setColl { c with tried := some s.ftime }
  else s.sendPost { c with frames := f1 ++ f2 }

/-- POST_ENTRY (17 R271, R276, R278, R300): the `CPOST` at the head of its X-pipe queue takes a
table entry of 64, and its timeout starts; a group, member, role, extent or buffer refused gives
INVAL. A post in the table whose pages were absent tries again, whether or not its context runs (R287). -/
def State.postEntry (s : State) (id : Nat) : State :=
  match s.coll.table.find? (fun c => c.cmd == id) with
  | none => s
  | some c =>
    if c.entered then
      if !c.pinned && c.code == 1 && c.tried != some s.ftime then s.pinPost c else s
    else if s.cx.xq.head? != some id || 64 ≤ (s.coll.table.filter (·.entered)).length then s
    else
      let s := { s with cx := { s.cx with xq := s.cx.xq.drop 1 } }
      let n := (s.groupRanks c.cid.group).length
      let pos := (s.posIn c.cid.group).getD 0
      let c := { c with entered := true, n := n, pos := pos
                        deadline := s.ftime + 1000 * cTimeout c.blk }
      let s := s.setColl c
      if s.groupOk c.cid.group && cGroupOk c.blk n then s.pinPost c else s.collFinal c 0x16

/-- HOOP_POST_ARRIVAL (17 R272, R278): another member's post at this package's hoop; or, at another member's, this
member's own, which that hoop may find stale or at odds with another's (log entry 23). -/
def State.hoopPostArrival (s : State) (c : CollId) (pos : Nat) (key : PostKey) : State :=
  if s.isHoop c.group then
    if s.posIn c.group == some pos || decide ((s.groupRanks c.group).length ≤ pos) then s
    else s.hoopPost c pos key none
  else
    match (s.coll.table.filter (fun x => x.entered && x.cid == c)).getLast? with
    | some x =>
      if !s.hasLeft x || x.code != 1 then s
      else if s.posIn c.group == some pos then
        let (k, s) := s.choose 2
        if k = 1 then s.collFinal x 0x17 else s
      else if key != cKey x.blk then s.collFinal x 0x15
      else s
    | none => s

/-- The meaning of HOOP_POST_ARRIVAL. -/
def execHoopPostArrival (c : CollId) (pos : Nat) (key : PostKey) (s : State) : Out :=
  .next (s.issueDue.hoopPostArrival c pos key)

/-- TICKET_ARRIVAL (17 R278, R279, R283): a ticket of another package's hoop arrives. -/
def State.ticketArrival (s : State) (t : Ticket) : State :=
  if s.isHoop t.coll.group then s else s.ticketIn t

/-- The meaning of TICKET_ARRIVAL. -/
def execTicketArrival (t : Ticket) (s : State) : Out := .next (s.issueDue.ticketArrival t)

/-! ### Elements -/

/-- The location of a byte of a buffer, in the frame of its page that was pinned (17 R276). -/
def State.collLoc (s : State) (c : Coll) (a : Word) : Nat :=
  if isNear a then s.locOf a
  else
    let pa := ((c.frames.find? (fun e => e.1 == a.toNat / 4096)).map (·.2)).getD 0
    hbmLoc s.pkgid (pa + a.toNat % 4096)

/-- Element k of `from` as a code; undefined in a marked line, where software has written it since the issue, or in
the destination of another collective whose batch is incomplete (06 R102; 17 R276; log entry 85). -/
def State.collRead (s : State) (c : Coll) (k : Nat) : Nat × State :=
  let w := cW c.blk
  let l := s.collLoc c (cFrom c.blk + mkWord (k * w))
  if s.marked l || (bytesFrom l w).any (fun b => c.dirty.contains b || s.hot (some (c.owner, c.cmd)) b) then
    let (x, s) := s.draw
    (x.toNat % 2 ^ (8 * w), s)
  else (s.readNat l w, s)

/-- Write element k of `to`: undefined where software has written it since the issue (17 R276; log entry 85). -/
def State.collWrite (s : State) (c : Coll) (k code : Nat) : State :=
  let w := cW c.blk
  let l := s.collLoc c (cTo c.blk + mkWord (k * w))
  let (v, t) :=
    if (bytesFrom l w).any c.dirty.contains then
      let (x, t) := s.draw
      (x.toNat % 2 ^ (8 * w), t)
    else (code, s)
  (t.writeNat l w v).wrote s (some (c.owner, c.cmd)) (bytesFrom l w)

/-- Write consecutive elements of `to`. -/
def State.collWriteAll (s : State) (c : Coll) (k : Nat) (codes : List Nat) : State :=
  codes.zipIdx.foldl (fun (s : State) (x, i) => s.collWrite c (k + i) x) s

/-- Elements k to k + m − 1 of `from`. -/
def State.collReadAll (s : State) (c : Coll) (k m : Nat) : List Nat × State :=
  (List.range m).foldl (fun (x : List Nat × State) i =>
    let (v, s) := x.2.collRead c (k + i)
    (x.1 ++ [v], s)) ([], s)

/-- The format partial sums travel in: FP64 for FP64 data, else FP32 (17 R277). -/
def partialFmt (code : Nat) : FFmt := if code = 1 then fp64 else fp32

/-- An element as an exact partial (04 R71, 17 R277). -/
def widen (b : List Word) (code : Nat) : BitVec 80 × Flags :=
  match cFmt b with
  | .flt f =>
    let (c, fl) := (partialFmt (cCode b)).round 0 (f.decode code)
    (BitVec.ofNat 80 c, fl)
  | .int s w => (BitVec.ofInt 80 (intOfCode s w code), 0)

/-- One reduction step: a partial and the next member's element (04 R71, 17 R277). -/
def reduceStep (b : List Word) (p x : BitVec 80) : BitVec 80 × Flags :=
  match cFmt b with
  | .flt _ =>
    let f := partialFmt (cCode b)
    let u := f.decode p.toNat
    let v := f.decode x.toNat
    let (r, fl) := match cAccop b with
      | 0 => u.add v
      | 1 => u.min v
      | _ => u.max v
    let (c, fl2) := f.round 0 r
    (BitVec.ofNat 80 c, fl ||| fl2)
  | .int _ _ =>
    match cAccop b with
    | 0 => (p + x, 0)
    | 1 => (if x.toInt < p.toInt then x else p, 0)
    | 2 => (if p.toInt < x.toInt then x else p, 0)
    | 3 => (p ||| x, 0)
    | _ => (p &&& x, 0)

/-- The final rounding of a partial into the target (04 R71, 17 R277). -/
def reduceEnd (b : List Word) (p : BitVec 80) : Nat × Flags :=
  match cFmt b with
  | .flt f => f.round 0 ((partialFmt (cCode b)).decode p.toNat)
  | .int s w =>
    if cSat b then
      let (i, fl) := clampInt (intLo s w) (intHi s w) p.toInt
      (codeOfInt w i, fl)
    else (codeOfInt w p.toInt, 0)

/-! ### Pieces -/

/-- The next position of the ring. -/
def Coll.next (c : Coll) : Nat := (c.pos + 1) % c.n

/-- The member whose pieces pass the ring: the one that holds the final value, the owner, or the
root (17 R281). -/
def Coll.ringOwner (c : Coll) (chunk : Nat) : Nat := if cOp c.blk = 3 then cRole c.blk else chunk

/-- Destination elements received: they are written and noted. -/
def State.collStore (s : State) (c : Coll) (k : Nat) (codes : List Nat) : State × Coll :=
  (s.collWriteAll c k codes, { c with written := c.written ++ [(k, codes.length)] })

/-- A piece waits here to leave for a position. -/
def Coll.stage (c : Coll) (pos : Nat) (p : Piece) : Coll :=
  { c with staged := c.staged ++ [(pos, { p with src := c.pos })] }

/-- Elements of a piece as codes. -/
def pieceCodes (p : Piece) : List Nat := p.elems.map (·.toNat)

/-- A partial met by this member's own elements. -/
def Coll.combine (c : Coll) (elems : List (BitVec 80)) (own : List Nat) : List (BitVec 80) × Flags :=
  (elems.zip own).foldl (fun (x : List (BitVec 80) × Flags) (p, v) =>
    let (w, f1) := widen c.blk v
    let (r, f2) := reduceStep c.blk p w
    (x.1 ++ [r], x.2 ||| f1 ||| f2)) ([], 0)

/-- Partials rounded into the target. -/
def Coll.finish (c : Coll) (elems : List (BitVec 80)) : List Nat × Flags :=
  elems.foldl (fun (x : List Nat × Flags) p =>
    let (r, f) := reduceEnd c.blk p
    (x.1 ++ [r], x.2 ||| f)) ([], 0)

/-- A piece received by an admitted member: combined, forwarded or written (17 R281); a duplicate
is dropped. -/
def State.pieceIn (s : State) (c : Coll) (p : Piece) : State :=
  if c.got.contains (p.chunk, p.offset, p.step) then s
  else
    let c := { c with got := c.got ++ [(p.chunk, p.offset, p.step)] }
    let lo := (chunkOf c.blk c.n p.chunk).1
    match cOp c.blk with
    | 0 | 1 =>
      if p.final then
        let (s, c) := s.collStore c (lo + p.offset) (pieceCodes p)
        s.setColl (if c.next = p.chunk then c else c.stage c.next { p with step := p.step + 1 })
      else
        let (own, s) := s.collReadAll c (lo + p.offset) p.elems.length
        let (elems, f) := c.combine p.elems own
        let c := { c with flags := c.flags ||| f }
        if c.pos = p.chunk then
          let (codes, g) := c.finish elems
          let c := { c with flags := c.flags ||| g }
          if cOp c.blk = 1 then
            let (s, c) := s.collStore c p.offset codes
            s.setColl c
          else
            let (s, c) := s.collStore c (lo + p.offset) codes
            s.setColl (c.stage c.next { p with
              step := p.step + 1, final := true, elems := codes.map (BitVec.ofNat 80) })
        else s.setColl (c.stage c.next { p with step := p.step + 1, elems := elems })
    | 2 | 3 =>
      let k := if cOp c.blk = 2 then p.chunk * cCount c.blk + p.offset else p.offset
      let (s, c) := s.collStore c k (pieceCodes p)
      s.setColl (if c.next = c.ringOwner p.chunk then c else c.stage c.next { p with step := p.step + 1 })
    | 4 =>
      let (s, c) := s.collStore c p.offset (pieceCodes p)
      s.setColl c
    | _ =>
      let (s, c) := s.collStore c (p.chunk * cCount c.blk + p.offset) (pieceCodes p)
      s.setColl c

/-- A piece begins at this member: its elements are read, its own destination is written where it
is among the receivers, and it waits to leave (17 R281). -/
def State.pieceBegin (s : State) (c : Coll) (chunk offset : Nat) : State :=
  let (lo, len) := chunkOf c.blk c.n chunk
  let m := Nat.min (pieceLen c.blk) (len - offset)
  let (own, s) := s.collReadAll c (lo + offset) m
  let c := { c with sent := c.sent ++ [(chunk, offset)] }
  let p : Piece := { coll := c.cid, src := c.pos, chunk := chunk, offset := offset, step := 0, final := true
                     elems := own.map (BitVec.ofNat 80) }
  match cOp c.blk with
  | 0 | 1 =>
    let w : List (BitVec 80 × Flags) := own.map (widen c.blk)
    let c := { c with flags := w.foldl (fun f (x : BitVec 80 × Flags) => f ||| x.2) c.flags }
    s.setColl (c.stage c.next { p with final := false, elems := w.map (fun (x : BitVec 80 × Flags) => x.1) })
  | 2 =>
    let (s, c) := s.collStore c (chunk * cCount c.blk + offset) own
    s.setColl (c.stage c.next p)
  | 3 =>
    let (s, c) := s.collStore c offset own
    s.setColl (c.stage c.next p)
  | 4 => s.setColl (c.stage ((c.pos + cRole c.blk) % c.n) p)
  | _ =>
    if chunk = c.pos then
      let (s, c) := s.collStore c (chunk * cCount c.blk + offset) own
      s.setColl c
    else s.setColl (c.stage chunk { p with chunk := c.pos })

/-- The start time of a member's pieces (17 R282). -/
def Coll.t0 (c : Coll) : Nat := Nat.max (c.admitted.getD 0) (cNotbefore c.blk)

/-- Whether one of a ring context's two staging buffers of 64 KiB holds no more pieces of 4,096 bytes: the one of
the pieces that begin here, or the one of the pieces received. A piece keeps its place until it is acknowledged
(17 R270, R281, R286; log entry 90). -/
def State.stagingFull (s : State) (c : Coll) (begun : Bool) : Bool :=
  let mine := fun (p : Piece) => p.coll == c.cid && (p.step == 0) == begun
  let out := s.fab.pkts.filter (fun p =>
    match p.kind with
    | .coll (.piece x _ _) => mine x && !p.dup
    | _ => false)
  decide (16 ≤ (c.staged.filter (fun x => mine x.2)).length + out.length
    + (s.coll.resend.filter (fun x => mine x.2.2)).length)

/-- A piece received needs a place in a staging buffer. -/
def State.noPlace (s : State) (c : Coll) : Bool := decide (cOp c.blk ≤ 3) && s.stagingFull c false

/-- The command of a member past its final code completes, with the flags it has raised, once it has read all of its
source (17 R277; log entry 100). -/
def State.settleCmd (s : State) (c : Coll) : State :=
  if c.unsettled then ((s.setColl { c with unsettled := false }).cmdDone c.owner c.cmd none c.flags).keepClosing c
  else s

/-- Pieces that wait in the overflow list for their collective are taken while there is room; a collective past
its final code with nothing more to pass on gives back its ring context (17 R279, R282). -/
def State.collSettle (s : State) (cid : CollId) : State :=
  let s := (s.coll.overflow.filter (fun p => p.coll == cid)).foldl (fun (s : State) p =>
    match s.active cid with
    | some c =>
      if s.noPlace c then s
      else ({ s with coll := { s.coll with overflow := s.coll.overflow.erase p } }).pieceIn c p
    | none => s) s
  match s.coll.tail.find? (fun c => c.cid == cid) with
  | some c =>
    let s := if c.reads then s else s.settleCmd c
    if c.duties || s.fab.pkts.any (fun p => p.pieceOf cid) || s.coll.resend.any (fun x => x.2.2.coll == cid) then s
    else ({ s with coll := { s.coll with tail := s.coll.tail.filter (fun x => x.cid != cid) } }).ringFree c.seqr
  | none => s

/-- PIECE_DEPARTURE (17 R281, R282, R286): a piece that waits leaves in the class of its member's `CPOST`, with the
block's slack, at or after T0 and its pacing slot; a piece of this member's own not yet begun begins. -/
def State.pieceDeparture (s : State) (cid : CollId) (chunk offset : Nat) : State :=
  match s.active cid with
  | none => s
  | some c =>
    if s.ftime < c.t0 then s
    else
      match c.staged.find? (fun x => x.2.chunk == chunk && x.2.offset == offset) with
      | some (pos, p) =>
        if s.ftime < c.t0 + p.step * cSlot c.blk then s
        else (s.setColl { c with staged := c.staged.erase (pos, p) }).sendMsg cid.group pos c.cls (cSlack c.blk)
          (.piece p pos c.owner)
      | none =>
        if c.starts.contains chunk && (pieceOffsets c.blk c.n chunk).contains offset
            && !c.sent.contains (chunk, offset) && !s.stagingFull c true then s.pieceBegin c chunk offset
        else s

/-- The meaning of PIECE_DEPARTURE. -/
def execPieceDeparture (c : CollId) (chunk offset : Nat) (s : State) : Out :=
  .next ((s.pieceDeparture c chunk offset).collSettle c)

/-- Bytes of the overflow list. -/
def State.overflowBytes (s : State) : Nat := (s.coll.overflow.map (fun p => 8 * p.elems.length)).sum

/-- A piece is acknowledged, or deferred, to the member it came from; the answer's slack is what the piece had left
when it arrived, not known here (16 R263; 17 R281, R282). -/
def State.answerPiece (s : State) (p : Piece) (deferred : Bool) : State :=
  if (s.groupRanks p.coll.group).length ≤ p.src then s
  else
    let (k, s) := s.choose 65536
    s.sendMsg p.coll.group p.src 0 k (.answer p deferred)

/-- A piece waits for admission in the overflow list, or is deferred while the quota is full (17 R282). -/
def State.storePiece (s : State) (p : Piece) : State :=
  if s.overflowBytes + 8 * p.elems.length ≤ s.coll.quota * 2 ^ 20 then
    ({ s with coll := { s.coll with overflow := s.coll.overflow ++ [p] } }).answerPiece p false
  else ({ s with coll := { s.coll with deferred := s.coll.deferred ++ [(s.ftime, p)] } }).answerPiece p true

/-- PIECE_ARRIVAL (17 R281, R282): an admitted member combines, forwards or writes the piece, unless its staging
buffer is full: then the piece stays in its port and arrives later; before admission the piece is stored or
deferred; a duplicate, and the piece of a collective that is over, is acknowledged and dropped. -/
def State.pieceArrival (s : State) (p : Piece) : State :=
  match s.active p.coll with
  | some c =>
    if c.got.contains (p.chunk, p.offset, p.step) then s.answerPiece p false
    else if s.noPlace c then s
    else (s.pieceIn c p).answerPiece p false
  | none =>
    if (s.coll? p.coll).isNone && s.coll.finals.any (fun x => x.1 == p.coll) then s.answerPiece p false
    else if s.coll.overflow.contains p then s.answerPiece p false
    else s.storePiece p

/-- The meaning of PIECE_ARRIVAL. -/
def execPieceArrival (p : Piece) (s : State) : Out := .next ((s.pieceArrival p).collSettle p.coll)

/-- DEFERRAL_RESEND (17 R282): 1 µs after its deferral, a piece this member deferred comes again, or one this member
sent and its receiver deferred leaves again. -/
def State.deferralResend (s : State) (p : Piece) : State :=
  match s.coll.deferred.find? (fun x => x.2 == p) with
  | some x =>
    if s.ftime < x.1 + 1000 then s
    else ({ s with coll := { s.coll with deferred := s.coll.deferred.erase x } }).pieceArrival p
  | none =>
    match s.coll.resend.find? (fun x => x.2.2 == p), s.active p.coll with
    | some x, some c =>
      if s.ftime < x.1 + 1000 then s
      else ({ s with coll := { s.coll with resend := s.coll.resend.erase x } }).sendMsg p.coll.group x.2.1 c.cls
        (cSlack c.blk) (.piece p x.2.1 c.owner)
    | _, _ => s

/-- The meaning of DEFERRAL_RESEND. -/
def execDeferralResend (p : Piece) (s : State) : Out := .next ((s.deferralResend p).collSettle p.coll)

/-- The held ticket that ranks lowest (17 R279). -/
def State.lowestHeld (s : State) : Option Coll :=
  let held := s.coll.table.filter (fun c => c.entered && c.code == 2)
  held.find? (fun c => held.all (fun d =>
    match c.ticket, d.ticket with
    | some t, some u => !ticketBelow u t
    | _, _ => true))

/-- ADMISSION (17 R279, R281, R282): after the settle window of 2,000 ns and with a ring context
free, the lowest-ranked held ticket is admitted, once the earlier accesses its command waits for
have performed; the pieces that waited for it are matched. -/
def State.admission (s : State) : State :=
  match s.lowestHeld with
  | none => s
  | some c =>
    match c.ticket, s.coll.rings.findIdx? (fun n => decide (0 < n)) with
    | some t, some k =>
      if s.ftime < t.issue + 2000 ∨ !s.depsDone c.deps then s
      else
        let s := s.setColl { c with code := 3, admitted := some s.ftime, seqr := k }
        ({ s with coll := { s.coll with
          rings := s.coll.rings.modify k (· - 1)
          admitted := some t } }).collSettle c.cid
    | _, _ => s

/-- The meaning of ADMISSION. -/
def execAdmission (s : State) : Out := .next s.issueDue.admission

/-- COLLECTIVE_COMPLETE (17 R274, R337): the last destination piece is written; the final code is
DONE. -/
def State.collComplete (s : State) (cid : CollId) : State :=
  match s.coll? cid with
  | some c => if c.code = 3 ∧ c.complete then s.collFinal c 0x10 else s
  | none => s

/-- The meaning of COLLECTIVE_COMPLETE. -/
def execCollectiveComplete (c : CollId) (s : State) : Out := .next (s.collComplete c)

/-! ### Failure, timeout, cancellation -/

/-- A member past its final code passes on no more pieces of a collective that fails. -/
def State.dropTail (s : State) (cid : CollId) : State :=
  match s.coll.tail.find? (fun c => c.cid == cid) with
  | none => s
  | some c =>
    let s := s.settleCmd c
    ({ s with
      coll := { s.coll with
        tail := s.coll.tail.filter (fun x => x.cid != cid)
        overflow := s.coll.overflow.filter (fun p => p.coll != cid)
        resend := s.coll.resend.filter (fun x => x.2.2.coll != cid) }
      fab := { s.fab with pkts := s.fab.pkts.filter (fun p => !(p.stage == PktStage.queued &&
          p.pieceOf cid)) } }).ringFree
      c.seqr

/-- What a packet's answer does to the collective it belongs to (17 R282 to R284): a post answered with an error
completes it with FAILED; a piece answered with an error fails it, and a deferred one will be sent again. -/
def State.collAnswered (s : State) (p : Packet) : State :=
  match p.kind with
  | .coll (.post cmd) =>
    match s.coll.table.find? (fun c => c.cmd == cmd) with
    | some c => if p.error then s.collFinal c 0x11 else s
    | none => s
  | .coll (.piece x pos _) =>
    if p.error then
      match s.coll? x.coll with
      | some c => s.collFail c 0x11
      | none => s.dropTail x.coll
    else if p.answer.isSome then
      { s with coll := { s.coll with resend := s.coll.resend ++ [(s.ftime, pos, x)] } }
    else s.collSettle x.coll
  | _ => s

/-- The meaning of ACK_RETURN. -/
def execAckReturn (id : Nat) (s : State) : Out :=
  match s.pktOf id with
  | none => .next s
  | some p =>
    let t := s.ackReturn id
    .next (if (t.pktOf id).isNone then t.collAnswered p else t)

/-- ORDER_NOTICE (17 R280): the collective completes with ORDER, admitted or not. -/
def State.orderNotice (s : State) (cid : CollId) : State :=
  match s.coll? cid with
  | some c => s.collFinal c 0x13
  | none => s

/-- The meaning of ORDER_NOTICE. -/
def execOrderNotice (c : CollId) (s : State) : Out := .next (s.issueDue.orderNotice c)

/-- HOOP_WITHDRAWAL (17 R284, R285): a withdrawal, or a cancellation, reaches this package's hoop;
or another member's hoop has voided the number, which this member hears. -/
def State.hoopWithdrawal (s : State) (c : CollId) (cancelled : Bool) : State :=
  let code := if cancelled then 0x14 else 0x12
  if s.isHoop c.group then s.hoopVoid c code
  else
    match s.coll? c with
    | some x => if s.hasLeft x && x.code == 1 then s.collFinal x code else s
    | none => s

/-- The meaning of HOOP_WITHDRAWAL. -/
def execHoopWithdrawal (c : CollId) (cancelled : Bool) (s : State) : Out :=
  .next (s.issueDue.hoopWithdrawal c cancelled)

/-- COLLECTIVE_TIMEOUT (17 R283, R284): before the post has left, TIMEOUT on this member alone;
before a ticket is held, a withdrawal to the hoop; after, failure. -/
def State.collTimeout (s : State) (cid : CollId) : State :=
  match s.coll? cid with
  | none => s
  | some c =>
    if s.ftime < c.deadline then s
    else if !s.hasLeft c then s.collFinal c 0x12
    else if c.code = 1 then
      if s.isHoop cid.group then s.hoopVoid cid 0x12
      else if c.withdrew then s
      else (s.setColl { c with withdrew := true }).sendMsg cid.group 0 0 0 (.withdraw cid false)
    else s.collFail c 0x11

/-- The meaning of COLLECTIVE_TIMEOUT. -/
def execCollectiveTimeout (c : CollId) (s : State) : Out := .next (s.issueDue.collTimeout c)

/-- ABORT_NOTICE (17 R283, R285): the collective completes with FAILED, or CANCELLED, and sends the notice on; a
member past its final code passes no more of its pieces. -/
def State.abortNotice (s : State) (cid : CollId) (cancelled : Bool) : State :=
  match s.coll? cid with
  | some c => if c.left then s.collFail c (if cancelled then 0x14 else 0x11) else s
  | none => s.dropTail cid

/-- The meaning of ABORT_NOTICE. -/
def execAbortNotice (c : CollId) (cancelled : Bool) (s : State) : Out :=
  .next (s.issueDue.abortNotice c cancelled)

/-- The meaning of NO_ROUTE_DROP (16 R267, 17 R284): a packet is dropped, an access, or the message of a
collective. -/
def execNoRouteDrop (id : Nat) (s : State) : Out :=
  match s.pktOf id with
  | some p => .next (s.dropNoRoute p)
  | none => .next s

/-- The meaning of RANK_TABLE_WRITE (16 R253, R254; 17 R272, R286; 22 R322). -/
def execRankTableWrite (rank : Nat) (entry : Word) (members : List Nat) (s : State) : Out :=
  .next (s.asked (fun t => t.rankWrite rank entry members))

/-! ### The X-pipe queue -/

/-- What a `CCANCEL` does when it reaches the table (17 R285): a number without a ticket is voided by its hoop, here
or elsewhere, and ends here at once when its post has not left; one with a ticket is aborted. -/
def State.cancel (s : State) (f : FabCmd) : State :=
  match s.coll? f.cid with
  | none => s.cmdDone f.owner f.id none 0
  | some c =>
    let s := { s with coll := { s.coll with fabq := s.coll.fabq ++ [{ f with reached := true, cancels := c.cmd }] } }
    if c.code = 1 then
      let s := if s.isHoop f.cid.group then s.hoopVoid f.cid 0x14
        else s.sendMsg f.cid.group 0 0 0 (.withdraw f.cid true)
      match s.coll? f.cid with
      | some c => if s.hasLeft c then s else s.collFinal c 0x14
      | none => s
    else s.collFail c 0x14

/-- The current state of a collective as `CQUERY` writes it (17 R274, R287): a number that has had its final code keeps
it while a repeated post of it stands in the table, unless that code has left the number to be posted again: INVAL, and
a TIMEOUT (R272, R276, R284; log entry 114). -/
def State.queryWord (s : State) (c : CollId) : Word :=
  match s.coll.finals.find? (fun x => x.1 == c), s.coll? c with
  | some (_, code, pos), some x =>
    if code == 0x16 || code == 0x12 then statusWord x.code x.pos else statusWord code pos
  | some (_, code, pos), none => statusWord code pos
  | none, some x => statusWord x.code x.pos
  | none, none => 0

/-- What a `CCANCEL` or `CQUERY` does when it reaches the table; a ticket that is due has been issued (17 R285, R287,
19 R300). -/
def State.reach (s : State) (f : FabCmd) : State :=
  let s := ({ s with coll := { s.coll with fabq := s.coll.fabq.filter (fun x => x.id != f.id) } } : State).issueDue
  if f.query then (s.setWord (f.blkLoc + 120) (s.queryWord f.cid)).cmdDone f.owner f.id none 0
  else s.cancel f

/-- Whether a timed send holds an entry of the table: one whose block was refused needs none (16 R269). -/
def TSend.inTable (t : TSend) : Bool := t.entered && (!t.failed || t.departed.isSome)

/-- Commands of the X-pipe queue pass in issue order: a copy to its engine's queue of 32, a timed
send to a table of 256, a `CCANCEL` or `CQUERY` to the table; a `CPOST` waits for POST_ENTRY (10
R186, R198; 16 R268, R269; 17 R287). -/
def State.pumpX : Nat → State → State
  | 0, s => s
  | fuel + 1, s =>
    match s.cx.xq with
    | [] => s
    | id :: rest =>
      let gone := { s with cx := { s.cx with xq := rest } }
      match s.core.copies.find? (fun c => c.id == id) with
      | some c =>
        let there := s.core.copies.filter (fun x =>
          x.accepted && !x.started && x.engine == c.engine)
        if 32 ≤ there.length then s
        else
          State.pumpX fuel { gone with core := { s.core with
            copies := s.core.copies.map (fun x => if x.id == id then { x with accepted := true } else x) } }
      | none =>
        match s.fab.tsends.find? (fun t => t.id == id) with
        | some t =>
          if !t.failed && decide (256 ≤ (s.fab.tsends.filter TSend.inTable).length) then s
          else State.pumpX fuel (gone.tsendEnter t)
        | none =>
          match s.coll.fabq.find? (fun f => f.id == id && !f.reached) with
          | some f => State.pumpX fuel (gone.reach f)
          | none => s

/-- The meaning of POST_ENTRY: the commands behind it pass on. -/
def execPostEntry (id : Nat) (s : State) : Out := .next (State.pumpX 8 (s.issueDue.postEntry id))

/-- The meaning of TSEND_COMPLETE: a timed send that waits takes the entry. -/
def execTsendComplete (id : Nat) (s : State) : Out := .next (State.pumpX 8 (s.tsendComplete id))

/-! ### FAB words -/

/-- The words of the block a FAB word names, with its location. -/
def State.fabRead (s : State) (p : SReg) (align n : Nat) : List Word × Nat :=
  match s.blockAt (s.cx.sreg p).val align with
  | some loc => (s.fabBlock loc n, loc)
  | none => ([], 0)

/-- A FAB word (16 R268): its queue entry, the stages of its checks, and its command. -/
def fabWord (p : SReg) (cls : BitVec 4) (align n : Nat) (ok : List Word → Bool)
    (act : Nat → Nat → List Word → State → State) : WordSpec where
  stall := fun s _ _ => s.xFull || s.blockHeld p align cls.toNat
  check := fun s _ =>
    match s.blockCheck p align with
    | some t => some t
    | none => if ok (s.fabRead p align n).1 then none else some s.illop
  effect := fun s _ =>
    let (blk, loc) := s.fabRead p align n
    let (id, s) := ({ s with fv := if s.markedRange loc (8 * n) then s.fv + n else s.fv } : State).newId
    let s := s.joinBatch id 2
    let s := { s with cx := { s.cx with xq := s.cx.xq ++ [id] } }
    State.pumpX 8 (act id loc blk s)

/-- The sides of a collective that its command waits for. -/
def cSides (b : List Word) (n : Nat) : List Side :=
  let (x, y) := cExtents b n
  [.flat (cFrom b) x, .flat (cTo b) y]

/-- The record of a `CPOST` at its issue. -/
def State.cpostRec (s : State) (id loc cls : Nat) (blk : List Word) : Coll :=
  let n := (s.groupRanks (cId blk).group).length
  let deps := s.fabDeps cls (cSides blk n)
  let (x, y) := cExtents blk n
  let near := fun (a : Word) => if isNear a then some (s.locOf a) else none
  let len := fun (a : Word) (n : Nat) (write : Bool) => if isNear a && !s.nearBufferOk a n write then 0 else n
  { cid := cId blk, cmd := id, owner := s.cx.uid, blk := blk, blkLoc := loc, cls := cls
    asid := (s.specialNow 0x101).toNat, ptbase := (s.specialNow 0x100).toNat, priv := s.cx.priv
    deps := deps
    toAddr := (cTo blk).toNat, toLoc := near (cTo blk), toLen := len (cTo blk) y true
    fromAddr := (cFrom blk).toNat, fromLoc := near (cFrom blk), fromLen := len (cFrom blk) x false }

/-- `CPOST` (16 R268, 17 R273, R287). -/
def cpostWord (p : SReg) (cls : BitVec 4) : WordSpec :=
  fabWord p cls 128 12 cpostOk (fun id loc blk s =>
    { s with coll := { s.coll with table := s.coll.table ++ [s.cpostRec id loc cls.toNat blk] } })

/-- The meaning of `CPOST`. -/
def execCpost (p : SReg) (cls : BitVec 4) (s : State) : Out := runWord (cpostWord p cls) s

/-- `CCANCEL` (17 R285, R287). -/
def ccancelWord (p : SReg) (cls : BitVec 4) : WordSpec :=
  fabWord p cls 128 3 idWordsOk (fun id loc blk s =>
    { s with coll := { s.coll with fabq := s.coll.fabq ++
      [{ id := id, owner := s.cx.uid, query := false, cid := cId blk, blkLoc := loc }] } })

/-- The meaning of `CCANCEL`. -/
def execCcancel (p : SReg) (cls : BitVec 4) (s : State) : Out := runWord (ccancelWord p cls) s

/-- `CQUERY` (17 R287). -/
def cqueryWord (p : SReg) (cls : BitVec 4) : WordSpec :=
  fabWord p cls 128 3 idWordsOk (fun id loc blk s =>
    { s with coll := { s.coll with fabq := s.coll.fabq ++
      [{ id := id, owner := s.cx.uid, query := true, cid := cId blk, blkLoc := loc }] } })

/-- The meaning of `CQUERY`. -/
def execCquery (p : SReg) (cls : BitVec 4) (s : State) : Out := runWord (cqueryWord p cls) s

/-- `TSEND` (16 R269): a block that is not in order fails the command, it does not trap. -/
def tsendWord (p : SReg) (cls : BitVec 4) : WordSpec :=
  fabWord p cls 64 4 (fun _ => true) (fun id loc blk s =>
    { s with fab := { s.fab with tsends := s.fab.tsends ++ [s.tsendRec id loc cls.toNat blk] } })

/-- The meaning of `TSEND`. -/
def execTsend (p : SReg) (cls : BitVec 4) (s : State) : Out := runWord (tsendWord p cls) s

end Sys2Proof.Machine
end

