-- ==== Sys2Proof/Machine/Flags.lean ====
section
/-!
DEFINITION. Flag computations of the scalar words: each gives a result with the sticky flags it
raises (04 R61 to R67; 05 R84, R87 to R89).
-/

namespace Sys2Proof.Machine

open Sys2Proof

/-- The precision of an FPU word: 0 FP32, 1 FP64 (05 R87). -/
def precFmt (p : BitVec 2) : FFmt := if p == 0 then fp32 else fp64

/-- A source of an FPU word: in FP32 bits 63:32 are ignored (05 R87). -/
def fpSrc (p : BitVec 2) (v : Word) : FVal := (precFmt p).decode v.toNat

/-- An exact result rounded to nearest even, with the flags of the operation and the rounding
(05 R87). -/
def fpRound (p : BitVec 2) (r : FVal × Flags) : Word × Flags :=
  let (c, f) := (precFmt p).round 0 r.1
  (mkWord c, r.2 ||| f)

/-- `FADD` (05 R87). -/
def faddOp (p : BitVec 2) (a b : Word) : Word × Flags := fpRound p ((fpSrc p a).add (fpSrc p b))

/-- `FSUB` (05 R87). -/
def fsubOp (p : BitVec 2) (a b : Word) : Word × Flags :=
  fpRound p ((fpSrc p a).add (fpSrc p b).negate)

/-- `FMUL` (05 R87). -/
def fmulOp (p : BitVec 2) (a b : Word) : Word × Flags := fpRound p ((fpSrc p a).mul (fpSrc p b))

/-- `FFMA`, with z the old destination (05 R87). -/
def ffmaOp (p : BitVec 2) (a b z : Word) : Word × Flags :=
  fpRound p ((fpSrc p a).fma (fpSrc p b) (fpSrc p z))

/-- `FMIN` (05 R87). -/
def fminOp (p : BitVec 2) (a b : Word) : Word × Flags := fpRound p ((fpSrc p a).min (fpSrc p b))

/-- `FMAX` (05 R87). -/
def fmaxOp (p : BitVec 2) (a b : Word) : Word × Flags := fpRound p ((fpSrc p a).max (fpSrc p b))

/-- The sign bit of a precision's code. -/
def signBit (p : BitVec 2) : Nat := 2 ^ ((precFmt p).width - 1)

/-- The magnitude of a source's code. -/
def magOf (p : BitVec 2) (v : Word) : Nat := v.toNat % signBit p

/-- Whether a source's sign bit is set. -/
def signOf (p : BitVec 2) (v : Word) : Bool := v.toNat / signBit p % 2 == 1

/-- A code with a sign and a magnitude; an FP32 result has zeros above (05 R87). -/
def withSign (p : BitVec 2) (neg : Bool) (mag : Nat) : Word :=
  mkWord ((if neg then signBit p else 0) + mag)

/-- `FABS`: only the sign bit changes (05 R87). -/
def fabsOp (p : BitVec 2) (a : Word) : Word := withSign p false (magOf p a)

/-- `FNEG` (05 R87). -/
def fnegOp (p : BitVec 2) (a : Word) : Word := withSign p (!signOf p a) (magOf p a)

/-- `FCPYS` (05 R87). -/
def fcpysOp (p : BitVec 2) (a b : Word) : Word := withSign p (signOf p b) (magOf p a)

/-- Signedness and width of an integer kind k (05 R88). -/
def kindOf (k : BitVec 2) : Bool × Nat :=
  (k.toNat < 2, if k.toNat % 2 == 0 then 32 else 64)

/-- `FCVTI` (05 R88, 04 R65): an `.i32` result is sign-extended, an `.n32` one zero-extended. -/
def fcvtiOp (p : BitVec 2) (k : BitVec 2) (m : BitVec 3) (a : Word) : Word × Flags :=
  let (sg, w) := kindOf k
  let (i, f) := (fpSrc p a).toInt (intLo sg w) (intHi sg w) m.toNat
  (BitVec.ofInt 64 i, f)

/-- `FCVTF` (05 R88): the 32-bit kinds read bits 31:0. -/
def fcvtfOp (p : BitVec 2) (k : BitVec 2) (m : BitVec 3) (a : Word) : Word × Flags :=
  let (sg, w) := kindOf k
  let (c, f) := (precFmt p).round m.toNat (FVal.ofInt (intOfCode sg w a.toNat))
  (mkWord c, f)

/-- `FCVTW` (05 R88): from the other wide precision. -/
def fcvtwOp (p : BitVec 2) (m : BitVec 3) (a : Word) : Word × Flags :=
  let from_ := if p == 0 then fp64 else fp32
  let mode := if p == 0 then m.toNat else 0
  let (c, f) := (precFmt p).round mode (from_.decode a.toNat)
  (mkWord c, f)

/-- Signed division (05 R84): quotient and flags. -/
def divOp (a b : Word) : Word × Flags :=
  if b == 0 then (-1, 0)
  else if a.toInt == -(2 ^ 63 : Int) && b.toInt == -1 then (a, Flag.of)
  else (BitVec.ofInt 64 (a.toInt.tdiv b.toInt), 0)

/-- Signed remainder, with the sign of A (05 R84). -/
def remOp (a b : Word) : Word :=
  if b == 0 then a
  else if a.toInt == -(2 ^ 63 : Int) && b.toInt == -1 then 0
  else BitVec.ofInt 64 (a.toInt.tmod b.toInt)

/-- Natural quotient (05 R84). -/
def divnOp (a b : Word) : Word := if b == 0 then -1 else mkWord (a.toNat / b.toNat)

/-- Natural remainder (05 R84). -/
def remnOp (a b : Word) : Word := if b == 0 then a else mkWord (a.toNat % b.toNat)

/-- `FCMP` condition (05 R89): NV only for a signalling NaN. -/
def fcmpOp (c : BitVec 4) (a b : Word) : Bool × Flags :=
  let f := if c.getLsbD 3 then fp64 else fp32
  let x := f.decode a.toNat
  let y := f.decode b.toNat
  let o := x.cmp y
  let r :=
    match c.toNat % 8 with
    | 0 => o == some .eq
    | 1 => o != some .eq
    | 2 => o == some .lt
    | 3 => o == some .lt || o == some .eq
    | 4 => o.isNone
    | _ => o.isSome
  (r, Flag.when (x.isSig || y.isSig) Flag.nv)

end Sys2Proof.Machine
end

