-- ==== Sys2Proof/Machine/Control.lean ====
section
/-!
DEFINITION. The meanings of the control words: CTL, BR and CALL (05 R91 to R94, 14 R241) and SYS
(13 R228 to R230). A transfer is recorded in `State.ctl` and applied when the bundle is complete;
a cause of completion kind, a switch or a stop is taken by the word itself.
-/

namespace Sys2Proof.Machine

open Sys2Proof

/-! ### CTL, BR, CALL -/

/-- `NOP` (05 R91). -/
def nopWord : WordSpec where
  effect := fun s _ => s

/-- The meaning of `NOP`. -/
def execNop (s : State) : Out := runWord nopWord s

/-- The running context's `END` has issued: its open batch is closed without an id (05 R94). -/
def State.endIssued (s : State) : State :=
  { s with ctl := .jump s.nextAddr, cx := { s.cx with ending := true, openTok := s.cx.openTok + 1 } }

/-- `END`: the open batch is closed without an id and the task ends once its waits are over, in its own cycle
where they are (05 R94); illegal on the control core. -/
def endTaskWord : WordSpec where
  illop := fun s => s.core.control
  effect := fun s _ =>
    let t := { s.endIssued with cx := s.endIssued.cx.settleBatches }
    if t.endMet then t.endNow else s.endIssued

/-- The meaning of `END`. -/
def execEndTask (s : State) : Out := runWord endTaskWord s

/-- The switch of a context that gives way: it resumes at an address (13 R224). -/
def State.giveWay (s : State) (next : Word) (sub : Nat) : State :=
  let s := s.advance next
  let s := { s.capture with core := { s.capture.core with yieldReq := none } }
  s.leave .ready sub

/-- Whether a `YIELD` finds a request pending and no handler active (14 R240, R241). -/
def State.yields (s : State) : Bool := s.core.yieldReq.isSome && !s.cx.tcause.getLsbD 10

/-- Whether a `YIELD` that found a request waits in a held bundle (13 R221, 14 R240). -/
def State.yieldHeld (s : State) : Bool := (s.cx.replay.map (·.ctl)) == some (.deferWord .yield)

/-- `YIELD`: yields if a request is pending and no handler runs, without a loop test (14 R240,
R241). -/
def yieldWord : WordSpec where
  effect := fun s _ =>
    if s.yields then s.giveWay s.nextAddr 0 else s

/-- The meaning of `YIELD`. -/
def execYield (s : State) : Out := runWord yieldWord s

/-- Whether a branch target is legal (05 R91, 03 R24). -/
def State.targetOk (s : State) (t : Word) : Bool := t.toNat % 4 == 0 && s.inCode t

/-- A call: s61 receives the next address, unless the target is bad (05 R91). -/
def State.callTo (s : State) (t : Word) : State :=
  if s.targetOk t then (s.push (.sreg 61 { val := s.nextAddr }) 1).branchTo t else s.branchTo t

/-- `JMP` (05 R91, R92). -/
def jmpWord (a : SReg) : WordSpec where
  check := fun s _ => s.poisonCheck a (s.cx.sreg a)
  effect := fun s _ => s.branchTo (s.cx.sreg a).val

/-- The meaning of `JMP`. -/
def execJmp (a : SReg) (s : State) : Out := runWord (jmpWord a) s

/-- `JMPL` (05 R91, R92). -/
def jmplWord (a : SReg) : WordSpec where
  check := fun s _ => s.poisonCheck a (s.cx.sreg a)
  effect := fun s _ => s.callTo (s.cx.sreg a).val

/-- The meaning of `JMPL`. -/
def execJmpl (a : SReg) (s : State) : Out := runWord (jmplWord a) s

/-- `RET` (05 R91, R92). -/
def retWord : WordSpec where
  check := fun s _ => s.poisonCheck 61 (s.cx.sreg 61)
  effect := fun s _ => s.branchTo (s.cx.sreg 61).val

/-- The meaning of `RET`. -/
def execRet (s : State) : Out := runWord retWord s

/-- `LOOP`: replaces the loop state; a zero count goes to lend (05 R92, R93). -/
def loopWord (a : SReg) (n : BitVec 14) : WordSpec where
  check := fun s _ => s.poisonCheck a (s.cx.sreg a)
  effect := fun s _ =>
    let cnt := (s.cx.sreg a).val
    let lbeg := s.nextAddr
    let lend := lbeg + 4 * mkWord n.toNat
    { s with
      ctl := .jump (if cnt == 0 then lend else lbeg)
      cx := { s.cx with lbeg := lbeg, lend := lend, lcnt := cnt
                        pend := s.cx.pend.filter (fun p =>
                          p.w.key != some 1032 && p.w.key != some 1033 && p.w.key != some 1034
                            || !p.landed s.cx.icyc) } }

/-- The meaning of `LOOP`. -/
def execLoop (a : SReg) (n : BitVec 14) (s : State) : Out := runWord (loopWord a n) s

/-- The predicate of a `BR` (05 R91). -/
def brTaken (v : Bool) (n : BitVec 1) : Bool := v != (n == 1)

/-- `BR` (05 R91, R92): POISON whether or not it would be taken. -/
def brWord (k : PRegNum) (n : BitVec 1) (off : BitVec 22) : WordSpec where
  check := fun s _ => if (s.cx.preg k).poison then some (s.poisonTrap k.toNat true) else none
  effect := fun s _ =>
    if brTaken (s.cx.preg k).val n then s.branchTo (s.badr + 4 * off.signExtend 64) else s

/-- The meaning of `BR`. -/
def execBr (k : PRegNum) (n : BitVec 1) (off : BitVec 22) (s : State) : Out :=
  runWord (brWord k n off) s

/-- `CALL` (05 R91). -/
def callWord (off : BitVec 26) : WordSpec where
  effect := fun s _ => s.callTo (s.badr + 4 * off.signExtend 64)

/-- The meaning of `CALL`. -/
def execCall (off : BitVec 26) (s : State) : Out := runWord (callWord off) s

/-! ### SYS -/

/-- `TRAP n`: cause TRAP of completion kind (13 R228). -/
def trapWord (n : BitVec 14) : WordSpec where
  effect := fun s _ => s.trapDone 10 (n.zeroExtend 64)

/-- The meaning of `TRAP`. -/
def execTrap (n : BitVec 14) (s : State) : Out := runWord (trapWord n) s

/-- `ERET` (13 R229): illegal outside a handler; it returns wherever `tbadr` or the resume address points,
and a bad address is met by the fetch there. -/
def eretWord : WordSpec where
  illop := fun s => !s.cx.tcause.getLsbD 10
  effect := fun s _ => s.eretPlain

/-- The meaning of `ERET`. -/
def execEret (s : State) : Out := runWord eretWord s

/-- `ERET.to` (13 R229): a bad target is ADDR, and DTRAP since the handler is active. -/
def eretToWord (a : SReg) : WordSpec where
  illop := fun s => !s.cx.tcause.getLsbD 10
  check := fun s _ => s.poisonCheck a (s.cx.sreg a)
  effect := fun s _ =>
    let t := (s.cx.sreg a).val
    if s.targetOk t then s.eretJump t else s.branchTo t

/-- The meaning of `ERET.to`. -/
def execEretTo (a : SReg) (s : State) : Out := runWord (eretToWord a) s

/-- `CHECK sA` (13 R228). -/
def checkWord (a : SReg) : WordSpec where
  check := fun s _ => s.poisonCheck a (s.cx.sreg a)
  effect := fun s _ => s

/-- The meaning of `CHECK` of a scalar register. -/
def execCheck (a : SReg) (s : State) : Out := runWord (checkWord a) s

/-- `CHECK kA` (13 R228). -/
def checkPredWord (a : SReg) : WordSpec where
  check := fun s _ =>
    let k := a.extractLsb' 0 3
    if (s.cx.preg k).poison then some (s.poisonTrap k.toNat true) else none
  effect := fun s _ => s

/-- The meaning of `CHECK` of a predicate. -/
def execCheckPred (a : SReg) (s : State) : Out := runWord (checkPredWord a) s

/-- `MFS`: never poisoned or tainted (05 R78, R79; 13 R223, R228). -/
def mfsWord (a : SReg) (n : BitVec 14) : WordSpec where
  check := fun s _ => if specialHidden n.toNat then s.privCheck else none
  effect := fun s _ => s.wreg a { val := s.specialNow n.toNat } 2

/-- The meaning of `MFS`. -/
def execMfs (a : SReg) (n : BitVec 14) (s : State) : Out := runWord (mfsWord a n) s

/-- Whether a collective or a timed send is posted on the package (05 R79). -/
def State.posted (s : State) : Bool := !s.coll.table.isEmpty || !s.fab.tsends.isEmpty

/-- `MTS` (05 R79, 13 R223, R228). -/
def mtsWord (a : SReg) (n : BitVec 14) : WordSpec where
  check := fun s _ => firstOf [
    if specialPrivWrite n.toNat then s.privCheck else none,
    s.poisonCheck a (s.cx.sreg a),
    if n == 1 && s.posted then some ⟨7, 1⟩ else none]
  effect := fun s _ => s.push (.special n.toNat (s.cx.sreg a).val s.cx.priv) 2

/-- The meaning of `MTS`. -/
def execMts (a : SReg) (n : BitVec 14) (s : State) : Out := runWord (mtsWord a n) s

/-- Whether the entry that holds the stop of the core covers the running context's address space (20 R302). -/
def State.stopCovers (s : State) : Bool :=
  s.dbg.caps.any (fun e => s.dbg.stopHolder == some e.1 && e.2.asid == s.cx.asid.toNat)

/-- `BRK n`: to the debugger that holds the core's stop, else BRK of completion kind; in a handler it is
DTRAP in either case (13 R228, 20 R304). -/
def brkWord (n : BitVec 14) : WordSpec where
  effect := fun s _ =>
    if s.stopCovers && !s.cx.tcause.getLsbD 10 then
      let (s1, next) := s.loopNext
      (s1.advance next).stopHere 2 n.toNat
    else s.trapDone 11 (n.zeroExtend 64)

/-- The meaning of `BRK`. -/
def execBrk (n : BitVec 14) (s : State) : Out := runWord (brkWord n) s

/-- `MARK`: a trace record when tracing is enabled, no architectural effect (13 R228, 20 R306). -/
def markWord (a : SReg) (n : BitVec 14) : WordSpec where
  check := fun s _ => s.poisonCheck a (s.cx.sreg a)
  effect := fun s _ => s.record 1 0 n.toNat s.badr (s.cx.sreg a).val

/-- The meaning of `MARK`. -/
def execMark (a : SReg) (n : BitVec 14) (s : State) : Out := runWord (markWord a n) s

/-- `SWAPC`: waits while the shadow bank is filling, switches if it is ready (13 R228). Beside a spilling bank it does
nothing, as beside one that is held or empty (DESIGN CHOICE, log entry 110). -/
def swapcWord : WordSpec where
  stall := fun s _ _ => s.cx.priv && s.shSt == .filling
  check := fun s _ => s.privCheck
  effect := fun s _ =>
    if s.shSt == .ready then
      let (s1, next) := s.loopNext
      s1.giveWay next 3
    else s

/-- The meaning of `SWAPC`. -/
def execSwapc (s : State) : Out := runWord swapcWord s

/-- The accesses to global memory that have not performed, of every context of the core. -/
def State.globalIds (s : State) : List Nat :=
  s.contexts.flatMap (fun c =>
    (c.accs.filter (fun a => a.win.isNone && whereLoc a.loc == .hbm)).map (·.id))

/-- The copy commands with a segment in hand, each with what it has done (10 R200, 13 R230). -/
def State.openSegs (s : State) : List (Nat × Nat) :=
  (s.core.copies.filter (fun c => !c.seen.isEmpty || !c.put.isEmpty)).map (fun c => (c.id, c.done))

/-- `TLBINV` of form t: drops the entries; no later bundle issues until the accesses it affects
have performed and the copy segments in hand are written (13 R230). -/
def State.tlbinv (s : State) (t : Nat) (v : Word) : State :=
  let s := s.tlbDrop t v
  { s with cx := { s.cx with tlbWait := some s.globalIds, tlbSegs := s.openSegs } }

/-- `TLBINV.page` (13 R230). -/
def tlbinvPageWord (a : SReg) : WordSpec where
  check := fun s _ => firstOf [s.privCheck, s.poisonCheck a (s.cx.sreg a)]
  effect := fun s _ => s.tlbinv 0 (s.cx.sreg a).val

/-- The meaning of `TLBINV.page`. -/
def execTlbinvPage (a : SReg) (s : State) : Out := runWord (tlbinvPageWord a) s

/-- `TLBINV.asid` (13 R230). -/
def tlbinvAsidWord (a : SReg) : WordSpec where
  check := fun s _ => firstOf [s.privCheck, s.poisonCheck a (s.cx.sreg a)]
  effect := fun s _ => s.tlbinv 1 (s.cx.sreg a).val

/-- The meaning of `TLBINV.asid`. -/
def execTlbinvAsid (a : SReg) (s : State) : Out := runWord (tlbinvAsidWord a) s

/-- `TLBINV.local` (13 R230). -/
def tlbinvLocalWord : WordSpec where
  check := fun s _ => s.privCheck
  effect := fun s _ => s.tlbinv 2 0

/-- The meaning of `TLBINV.local`. -/
def execTlbinvLocal (s : State) : Out := runWord tlbinvLocalWord s

/-- `TLBINV.all` (13 R230). -/
def tlbinvAllWord : WordSpec where
  check := fun s _ => s.privCheck
  effect := fun s _ => s.tlbinv 3 0

/-- The meaning of `TLBINV.all`. -/
def execTlbinvAll (s : State) : Out := runWord tlbinvAllWord s

/-- `SVC n`: to the firmware, completion kind, with the code in the header (13 R222, R228). -/
def svcWord (n : BitVec 14) : WordSpec where
  effect := fun s _ =>
    let (s1, next) := s.loopNext
    (s1.advance next).freeze
      { cause := 17, words := s.bundle.length, code := n.toNat, badr := s.badr }

/-- The meaning of `SVC`. -/
def execSvc (n : BitVec 14) (s : State) : Out := runWord (svcWord n) s

end Sys2Proof.Machine
end

