-- ==== Sys2Proof/Machine/Copy.lean ====
section
/-!
DEFINITION. The copy engines (10 R198 to R205): the COPY words with the stages of their issue
checks, and the steps in which an engine starts a command, writes a segment, pauses, resumes and
completes.
-/

namespace Sys2Proof.Machine

open Sys2Proof

/-! ### COPY words -/

/-- The issue of a COPY command (10 R198, R201): it carries its block, formats and scales, joins
the open batch and enters the X-pipe queue. -/
def CopyReq.issue (c : CopyReq) (s : State) : State :=
  let (blk, loc, bad) := c.block s
  let (id, s) := s.newId
  let s := s.joinBatch id 1
  let (src, dst, aux) := s.sidesOf c.fn blk
  let deps := s.copyDeps c.cls.toNat (if bad then [] else src :: (dst.toList ++ aux.toList))
  let cmd : CopyCmd :=
    { id := id, owner := s.cx.uid, fn := c.fn, eng := decide (8 ≤ c.cls.toNat)
      die := if s.core.control then blkDie blk else s.coreid / 24
      blk := blk, blkLoc := loc, cls := c.cls.toNat
      sfmt := if bad then none else some (s.fmtOf (blkSfmt blk))
      dfmt := if bad then none else some (s.fmtOf (blkDfmt blk))
      scales := if !bad && blkDscl blk then
        (List.range 16).map (fun n => s.cx.sc (BitVec.ofNat 4 n)) else []
      deps := deps
      store := blkDie blk
      source := if s.core.control then 2 else if s.bank then 1 else 0
      priv := s.cx.priv, ptbase := (s.specialNow 0x100).toNat, asid := (s.specialNow 0x101).toNat
      fail := if bad then some 2 else none }
  let s := { s with
    cx := { s.cx with xq := s.cx.xq ++ [id] }
    core := { s.core with copies := s.core.copies ++ [cmd] } }
  State.pumpX 8 s

/-- A COPY word (10 R201). -/
def copyWord (c : CopyReq) : WordSpec where
  stall := fun s _ _ => s.xFull || s.blockHeld c.p 64 c.cls.toNat
  check := fun s _ => firstOf [
    if c.fn = 4 then s.privCheck else none,
    s.poisonCheck c.p (s.cx.sreg c.p),
    if c.patch != 0 then s.poisonCheck c.q (s.cx.sreg c.q) else none,
    match s.blockCheck c.p 64 with
    | some t => some t
    | none =>
      let (blk, _, bad) := c.block s
      if bad then none else s.copyBlockCheck c.fn blk]
  effect := fun s _ => c.issue s

/-- `CPY` (10 R202). -/
def cpyWord (p q : SReg) (patch : BitVec 2) (cls : BitVec 4) : WordSpec := copyWord ⟨0, p, q, patch, cls⟩

/-- The meaning of `CPY`. -/
def execCpy (p q : SReg) (patch : BitVec 2) (cls : BitVec 4) (s : State) : Out :=
  runWord (cpyWord p q patch cls) s

/-- `CPYT` (10 R202, R203). -/
def cpytWord (p q : SReg) (patch : BitVec 2) (cls : BitVec 4) : WordSpec := copyWord ⟨1, p, q, patch, cls⟩

/-- The meaning of `CPYT`. -/
def execCpyt (p q : SReg) (patch : BitVec 2) (cls : BitVec 4) (s : State) : Out :=
  runWord (cpytWord p q patch cls) s

/-- `CPYP` (10 R202, R203). -/
def cpypWord (p q : SReg) (patch : BitVec 2) (cls : BitVec 4) : WordSpec := copyWord ⟨2, p, q, patch, cls⟩

/-- The meaning of `CPYP`. -/
def execCpyp (p q : SReg) (patch : BitVec 2) (cls : BitVec 4) (s : State) : Out :=
  runWord (cpypWord p q patch cls) s

/-- `CPYG` (10 R202). -/
def cpygWord (p q : SReg) (patch : BitVec 2) (cls : BitVec 4) : WordSpec := copyWord ⟨3, p, q, patch, cls⟩

/-- The meaning of `CPYG`. -/
def execCpyg (p q : SReg) (patch : BitVec 2) (cls : BitVec 4) (s : State) : Out :=
  runWord (cpygWord p q patch cls) s

/-- `CPYW` (10 R197, R201, R202). -/
def cpywWord (p q : SReg) (patch : BitVec 2) (cls : BitVec 4) : WordSpec := copyWord ⟨4, p, q, patch, cls⟩

/-- The meaning of `CPYW`. -/
def execCpyw (p q : SReg) (patch : BitVec 2) (cls : BitVec 4) (s : State) : Out :=
  runWord (cpywWord p q patch cls) s

/-- `CPYC` (10 R202). -/
def cpycWord (p q : SReg) (patch : BitVec 2) (cls : BitVec 4) : WordSpec := copyWord ⟨5, p, q, patch, cls⟩

/-- The meaning of `CPYC`. -/
def execCpyc (p q : SReg) (patch : BitVec 2) (cls : BitVec 4) (s : State) : Out :=
  runWord (cpycWord p q patch cls) s

/-! ### Reading the source of a segment -/

/-- A byte the engine is about to write: location, value, the bits it writes, poison, the flags of its
conversion, the near words of its source and of its index or scale, and whether its source has been written
since the issue. -/
structure OutByte where
  loc : Nat
  val : Nat
  mask : Nat
  poison : Bool
  flags : Flags
  src : List Nat
  aux : List Nat
  spoiled : Bool

/-- The engine while it gathers one segment: pages already translated, HBM lines read, whether a translation
faulted, and, for the byte in hand, what `OutByte` keeps and whether what it is read from is undefined: in the
destination, or where software may not read. -/
structure Mover where
  s : State
  pages : List (Nat × Bool × Nat) := []
  fault : Bool := false
  lines : List Nat := []
  src : List Nat := []
  aux : List Nat := []
  poison : Bool := false
  overlap : Bool := false
  spoiled : Bool := false
  flags : Flags := 0
  out : List OutByte := []

/-- The location of an address of the command, translating its page on first use (10 R205). -/
def Mover.loc (m : Mover) (c : CopyCmd) (a : Word) (write : Bool) : Nat × Mover :=
  if isNear a then (m.s.locOf a, m)
  else
    let page := a.toNat / 4096
    match m.pages.find? (fun e => e.1 == page && e.2.1 == write) with
    | some (_, _, pa) => (hbmLoc m.s.pkgid (pa + a.toNat % 4096), m)
    | none =>
      match m.s.translate c.ptbase c.asid a write c.priv with
      | (.ok pa _, s) =>
        (hbmLoc m.s.pkgid pa, { m with s := s, pages := (page, write, pa - a.toNat % 4096) :: m.pages })
      | _ => (0, { m with fault := true })

/-- Width of the source elements. -/
def CopyCmd.sWidth (c : CopyCmd) : Nat := match c.sfmt with | some f => f.width | none => 8
/-- Width of the destination elements: that of sfmt in `CPYT` and `CPYP` (10 R203). -/
def CopyCmd.dWidth (c : CopyCmd) : Nat :=
  if c.fn = 1 ∨ c.fn = 2 then c.sWidth
  else match c.dfmt with | some f => f.width | none => 8

/-- Whether a `CPYT` or `CPYP` names two formats, which software shall not: its destination is undefined (10 R203,
00 R3). -/
def CopyCmd.unlike (c : CopyCmd) : Bool := (c.fn == 1 || c.fn == 2) && blkSfmt c.blk != blkDfmt c.blk

/-- The destination side of a command, none in the weight store. -/
def CopyCmd.dest (c : CopyCmd) : Option Side := (copySides c.fn c.blk c.sWidth c.dWidth).2.1

/-- Whether a frame's byte is a destination byte of a global side, through any page of it (10 R199). -/
def CopyCmd.inPages (c : CopyCmd) (s : State) (d : Side) (l : Nat) : Bool :=
  let first := d.addr.toNat / 4096
  (List.range ((d.addr.toNat + d.len - 1) / 4096 - first + 1)).any (fun k =>
    let va := (first + k) * 4096
    d.has ((va + l % 4096 : Nat) - (d.base.toNat : Int)) && s.vaLoc c.ptbase c.asid va == some (l / 4096 * 4096))

/-- Whether a source byte, at an address and its location, is a destination byte of the command (10 R199): one
location has several near addresses (02 R17), and one frame may stand in several pages. -/
def CopyCmd.inDest (c : CopyCmd) (s : State) (a : Word) (l : Nat) : Bool :=
  match c.dest with
  | none =>
    let lo := wsLoc s.pkgid c.store (bitsOf (blkWord c.blk 1) 0 28)
    decide (lo ≤ l) && decide (l < lo + blkCount c.blk)
  | some d =>
    if d.base.getLsbD 56 then isNear a && d.has ((l : Int) - s.locOf d.base)
    else !isNear a && (d.has ((a.toNat : Int) - d.base.toNat) || c.inPages s d l)

/-- One byte a command reads: from a source word as it was taken, else from memory; poisoned in a marked line,
and in a partition freed while the command waited there (06 R99, R102). -/
def CopyCmd.read (c : CopyCmd) (s : State) (l : Nat) : Nat × Bool :=
  let gone := s.freedFor c.id (l / 8)
  match c.seen.find? (fun e => e.1 == l / 8) with
  | some (_, v, p) => (v / 256 ^ (l % 8) % 256, p || gone)
  | none => ((s.byte l).toNat, s.marked l || gone)

/-- The HBM lines read, with that of a location. -/
def Mover.lineRead (m : Mover) (l : Nat) : List Nat :=
  if whereLoc l == .hbm then insertNat (l / 64) m.lines else m.lines

/-- Read one source byte. -/
def Mover.byte (m : Mover) (c : CopyCmd) (a : Word) : Nat × Mover :=
  let (l, m) := m.loc c a false
  let (v, p) := c.read m.s l
  (v, { m with lines := m.lineRead l
               src := if isNear a then m.src ++ [l / 8] else m.src
               poison := m.poison || p
               overlap := m.overlap || c.inDest m.s a l || m.s.hot (some (c.owner, c.id)) l
               spoiled := m.spoiled || c.dirty.contains l })

/-- Read one byte of the index list or of the scale-index region: its tag is not tested (10 R204). -/
def Mover.auxByte (m : Mover) (c : CopyCmd) (a : Word) : Nat × Mover :=
  let (l, m) := m.loc c a false
  let (v, p) := c.read m.s l
  (v, { m with lines := m.lineRead l
               aux := if isNear a then m.aux ++ [l / 8] else m.aux
               poison := m.poison || p
               overlap := m.overlap || m.s.hot (some (c.owner, c.id)) l })

/-- Read a little-endian number of source bytes. -/
def Mover.num (m : Mover) (c : CopyCmd) (a : Word) : Nat → Nat × Mover
  | 0 => (0, m)
  | n + 1 =>
    let (b, m) := m.byte c a
    let (v, m) := m.num c (a + 1) n
    (b + 256 * v, m)

/-- Read a little-endian number of bytes of the index list. -/
def Mover.auxNum (m : Mover) (c : CopyCmd) (a : Word) : Nat → Nat × Mover
  | 0 => (0, m)
  | n + 1 =>
    let (b, m) := m.auxByte c a
    let (v, m) := m.auxNum c (a + 1) n
    (b + 256 * v, m)

/-- An address at a byte offset. -/
def atOff (a : Word) (off : Int) : Word := keep (a + BitVec.ofInt 64 off) 0 64

/-- The code of flat element i of a width at a base, stride 1 (04 R53). -/
def Mover.flat (m : Mover) (c : CopyCmd) (base : Word) (w i : Nat) : Nat × Mover :=
  if 16 ≤ w then m.num c (atOff base (i * (w / 8) : Nat)) (w / 8)
  else if 5 ≤ w then
    let (b, m) := m.byte c (atOff base i)
    (b % 2 ^ w, m)
  else
    let (b, m) := m.byte c (atOff base (i / 2 : Nat))
    (b / (if i % 2 = 0 then 1 else 16) % 2 ^ w, m)

/-- Group and lane of element (r, k) of a plane side (10 R203). -/
def planePlace (cols : Nat) (orient : Bool) (r k : Nat) : Nat × Nat :=
  if orient then (r * ((cols + 63) / 64) + k / 64, k % 64) else (k, r)

/-- The code of an element of a plane side. -/
def Mover.plane (m : Mover) (c : CopyCmd) (base : Word) (w g lane : Nat) : Nat × Mover :=
  (List.range w).foldl (fun (x : Nat × Mover) j =>
    let (b, m) := x.2.byte c (atOff base (8 * w * g + 8 * j + lane / 8 : Nat))
    (x.1 + b / 2 ^ (lane % 8) % 2 * 2 ^ j, m)) (0, m)

/-- The row and column of lane l of a group of a plane side, if an element lies there (10 R203). -/
def planeElem (rows cols : Nat) (orient : Bool) (g l : Nat) : Option (Nat × Nat) :=
  if orient then
    let h := (cols + 63) / 64
    let k := 64 * (g % h) + l
    if k < cols then some (g / h, k) else none
  else if l < rows then some (l, g)
  else none

/-- One byte of a destination of flat elements, from the codes of its elements: value and bits
written. `code` gives an element's code, none where there is none. -/
def Mover.pack (m : Mover) (w x : Nat) (code : Mover → Nat → Option (Nat × Mover)) :
    Nat × Nat × Mover :=
  if 16 ≤ w then
    match code m (x / (w / 8)) with
    | some (v, m) => (v / 256 ^ (x % (w / 8)) % 256, 255, m)
    | none => (0, 0, m)
  else if 5 ≤ w then
    match code m x with
    | some (v, m) => (v, 255, m)
    | none => (0, 0, m)
  else
    let (v0, k0, m) := match code m (2 * x) with | some (v, m) => (v, 15, m) | none => (0, 0, m)
    let (v1, k1, m) := match code m (2 * x + 1) with | some (v, m) => (v, 15, m) | none => (0, 0, m)
    (v0 + 16 * v1, k0 + 16 * k1, m)

/-- `CPYT`: byte k of the planes (10 R203). -/
def Mover.toPlanes (m : Mover) (c : CopyCmd) (k : Nat) : Nat × Nat × Mover :=
  let w := c.dWidth
  let g := k / (8 * w)
  let j := k / 8 % w
  (List.range 8).foldl (fun (x : Nat × Nat × Mover) b =>
    match planeElem (blkRows c.blk) (blkCols c.blk) (blkOrient c.blk) g (8 * (k % 8) + b) with
    | some (r, col) =>
      let (v, m) := x.2.2.flat c (atOff (blkFrom c.blk) (r * blkSstride c.blk)) w col
      (x.1 + v / 2 ^ j % 2 * 2 ^ b, 255, m)
    | none => x) (0, 255, m)

/-- `CPYG`: the index of destination row i, none when it selects no row (10 R202). -/
def Mover.index (m : Mover) (c : CopyCmd) (i : Nat) : Option Nat × Mover :=
  let n := indexBytes (blkIkind c.blk)
  let (v, m) := m.auxNum c (atOff (blkAux c.blk) (i * n : Nat)) n
  if m.poison then (none, m)
  else
    let x := intOfCode (blkIkind c.blk == 2) (8 * n) v
    (if 0 ≤ x ∧ x < blkRows c.blk then some x.toNat else none, m)

/-- `CPYC`: the converted code of element i (10 R202, 04 R59, R61 to R66). -/
def Mover.converted (m : Mover) (c : CopyCmd) (i : Nat) : Nat × Mover :=
  let (v, m) := m.flat c (blkFrom c.blk) c.sWidth i
  let sf := c.sfmt.getD (.int false 8)
  let df := c.dfmt.getD (.int false 8)
  let x := sf.value v
  if blkDscl c.blk then
    let b := i / 32
    let (byte, m) := m.auxByte c (atOff (blkAux c.blk) (b / 2 : Nat))
    let e := (c.scales[if b % 2 = 0 then byte % 16 else byte / 16]?).getD 0
    let (y, f) := scaleDown e x.toF
    let (code, g) := df.convert (blkMode c.blk) (.f y)
    (code, { m with flags := m.flags ||| f ||| g })
  else
    let (code, g) := df.convert (blkMode c.blk) x
    (code, { m with flags := m.flags ||| g })

/-- The address of destination byte k, none in the weight store. -/
def CopyCmd.destAddr (c : CopyCmd) (k : Nat) : Word :=
  let row := fun (bytes : Nat) =>
    atOff (blkTo c.blk) ((k / bytes : Nat) * blkDstride c.blk + (k % bytes : Nat))
  match c.fn with
  | 2 => row (Nat.max 1 (flatBytes c.dWidth (blkCols c.blk)))
  | 3 => row (Nat.max 1 (blkRowBytes c.blk))
  | _ => atOff (blkTo c.blk) k

/-- Destination bytes of a command (10 R202). -/
def CopyCmd.total (c : CopyCmd) : Nat :=
  match c.fn with
  | 0 | 4 => blkCount c.blk
  | 1 => 8 * c.dWidth * planeGroups (blkRows c.blk) (blkCols c.blk) (blkOrient c.blk)
  | 2 => blkRows c.blk * flatBytes c.dWidth (blkCols c.blk)
  | 3 => blkCount c.blk * blkRowBytes c.blk
  | _ => flatBytes c.dWidth (blkCount c.blk)

/-- Destination byte k computed: value, bits written, and the mover after its reads (10 R202,
R203). -/
def Mover.value (m : Mover) (c : CopyCmd) (k : Nat) : Nat × Nat × Mover :=
  match c.fn with
  | 0 | 4 =>
    let (b, m) := m.byte c (atOff (blkFrom c.blk) k)
    (b, 255, m)
  | 1 => m.toPlanes c k
  | 2 =>
    let w := c.dWidth
    let bytes := Nat.max 1 (flatBytes w (blkCols c.blk))
    let r := k / bytes
    m.pack w (k % bytes) (fun m col =>
      if col < blkCols c.blk then
        let (g, lane) := planePlace (blkCols c.blk) (blkOrient c.blk) r col
        some (m.plane c (blkFrom c.blk) w g lane)
      else none)
  | 3 =>
    let bytes := Nat.max 1 (blkRowBytes c.blk)
    let (x, m) := m.index c (k / bytes)
    match x with
    | some r =>
      let (b, m) := m.byte c (atOff (blkFrom c.blk) (r * blkSstride c.blk + (k % bytes : Nat)))
      (b, 255, m)
    | none => (0, 255, m)
  | _ =>
    m.pack c.dWidth k (fun m i => if i < blkCount c.blk then some (m.converted c i) else none)

/-- Destination byte k is gathered: undefined where its source overlaps the destination, was written while the
command was incomplete or may not be read, and where the formats differ (10 R199, R203; 17 R276; 00 R3). -/
def Mover.gather (m : Mover) (c : CopyCmd) (k : Nat) : Mover :=
  let start : Mover :=
    { m with poison := false, overlap := false, spoiled := false, flags := 0, src := [], aux := [] }
  let (v, mask, m) := start.value c k
  let (l, m) :=
    if c.fn = 4 then (wsLoc m.s.pkgid c.store (bitsOf (blkWord c.blk 1) 0 28 + k), m)
    else m.loc c (c.destAddr k) true
  let (v, m) : Nat × Mover :=
    if m.overlap || m.spoiled || c.unlike then
      let (x, s) := m.s.draw
      (x.toNat % 256, { m with s := s })
    else (v, m)
  { m with out := m.out ++ [⟨l, v, mask, m.poison, m.flags, m.src, m.aux, m.spoiled⟩] }

/-- The next segment of at most 256 destination bytes, gathered (10 R205). -/
def State.gatherSegment (s : State) (c : CopyCmd) : Mover :=
  (List.range (Nat.min 256 (c.total - c.done))).foldl (fun m i => m.gather c (c.done + i)) { s := s }

/-! ### Engine steps -/

/-- Whether a launch holds the weight store of a die: a placed task of it is on the die, or a pre-empted one
(10 R197). While none is there, though later ones are still to be placed, the model takes the store as not held
(DESIGN CHOICE, log entry 102). -/
def State.wsHeld (s : State) (die : Nat) : Bool :=
  (s.sched.grants ++ s.sched.evicted.map (·.grant)).any (fun g => !g.quad && g.unit / 24 == die)

/-- Replace a copy command. -/
def State.setCopy (s : State) (c : CopyCmd) : State :=
  { s with core := { s.core with copies := s.core.copies.map (fun x => if x.id == c.id then c else x) } }

/-- A copy command. -/
def State.copyOf (s : State) (id : Nat) : Option CopyCmd := s.core.copies.find? (fun c => c.id == id)

/-- Whether a started command still has reads to issue (10 R198). -/
def CopyCmd.reading (c : CopyCmd) : Bool :=
  c.started && !c.paused && c.fail.isNone && decide (c.done < c.total)

/-- Whether a paused command's fault is resolved. -/
def State.resumable (s : State) (c : CopyCmd) : Bool := c.paused && !(s.gatherSegment c).fault

/-- Whether an engine may not start a command: one is still reading, or waits to resume (10 R198). Two copies of an
engine act one after the other (log entry 103). -/
def State.engineBusy (s : State) (e : Nat) : Bool :=
  s.core.copies.any (fun x => x.engine == e && (x.reading || s.resumable x))

/-- The source an engine accepted from last; none before its first command. -/
def State.lastSource (s : State) (e : Nat) : Nat :=
  ((s.core.copyLast.find? (fun x => x.1 == e)).map (·.2)).getD 2

/-- The command an engine takes next: round robin over its sources, the first of each (10 R198). An engine
accepts a command when it could start it (log entry 91). -/
def State.nextCopy (s : State) (e : Nat) : Option CopyCmd :=
  let last := s.lastSource e
  [last + 1, last + 2, last + 3].findSome? (fun k =>
    s.core.copies.find? (fun c => c.engine == e && c.accepted && !c.started && c.source == k % 3))

/-- An engine starts its next command, when none still reads and the command's earlier accesses have
performed; a `CPYW` to a held die fails (10 R197, R198). -/
def State.engineStart (s : State) (e : Nat) : State :=
  if s.engineBusy e then s
  else
    match s.nextCopy e with
    | none => s
    | some c =>
      if !s.depsDone c.deps then s
      else
        let held := c.fn == 4 && s.wsHeld c.store
        let s := s.setCopy { c with started := true
                                    fail := if c.fail.isSome then c.fail else if held then some 3 else none }
        State.pumpX 8 { s with core := { s.core with
          copyLast := (e, c.source) :: s.core.copyLast.filter (fun x => x.1 != e) } }

/-- COPY_COMMAND_START (10 R197, R198): an engine of this number on each die that has commands starts its
next one. -/
def State.copyStart (s : State) (eng : Bool) : State :=
  ((s.core.copies.filter (fun c => c.eng == eng)).map CopyCmd.engine).eraseDups.foldl State.engineStart s

/-- The meaning of COPY_COMMAND_START. -/
def execCopyCommandStart (eng : Bool) (s : State) : Out := .next ((State.pumpX 8 s).copyStart eng)

/-- The words of one side that a segment touches for the first time (10 R204). -/
def freshWords (l acted : List Nat) : List Nat := wordSet (l.filter (fun w => !acted.contains w))

/-- Write bytes of a segment, their marks and their lines (10 R204, 06 R102). -/
def State.writeOut (s : State) (c : CopyCmd) (out : List OutByte) : State × CopyCmd :=
  let old := s
  let s := out.foldl (fun (s : State) b =>
    let old := (s.byte b.loc).toNat
    s.setByte b.loc (BitVec.ofNat 8 ((old &&& (255 - b.mask)) + (b.val &&& b.mask)))) s
  let s := s.wrote old (some (c.owner, c.id)) (out.map (·.loc))
  let lost := (out.filter (·.poison)).map (fun b => b.loc / 64)
  let bad := c.bad ++ lost
  let cover := (out.filter (fun b => b.mask == 255)).foldl
    (fun l b => coverAdd (2 * b.loc + 1) (coverAdd (2 * b.loc) l)) c.cover
  let s := lost.foldl (fun (s : State) l => s.setMark (64 * l) true) s
  (s.clearWhole cover bad,
   { c with bad := bad, cover := cover.filter (fun e => !coverWhole e)
            flags := out.foldl (fun f b => f ||| b.flags) c.flags })

/-- Whether the bank of a line of HBM starts no service: its pseudo-channel is closed by an all-bank refresh, or the
bank is under refresh (10 R191, R204; 11 R207). -/
def State.hbmShut (s : State) (line : Nat) : Bool :=
  let pa := 64 * line % 2 ^ 41
  let s := s.refreshed (hbmChan pa)
  s.chanClosed (hbmChan pa) || decide (s.cyc < (s.hbank (hbmChan pa) (hbmBank pa)).refresh)

/-- The lines of HBM that the bytes of a segment are written to. -/
def hbmLines (out : List OutByte) : List Nat :=
  wordSet ((out.map (fun b => b.loc / 64)).filter (fun l => whereLoc (64 * l) == .hbm))

/-- Words of weight stores wait in a refresh window: the cycles count for the die that holds them (10 R193). -/
def State.wsNoteAll (s : State) (words : List Nat) : State :=
  (wordSet (words.map (fun w => (8 * w % 2 ^ 43 - 2 ^ 42 - 2 ^ 41) / 2 ^ 28))).foldl State.wsNoteOn s

/-- What the words of a segment allow now: source words to take, and bytes whose source words have all been
read; destination words to write follow from them. -/
def State.segmentSources (s : State) (c : CopyCmd) (out : List OutByte) : List Nat × List Nat :=
  let stag := tagOfCode (blkStag c.blk)
  let fresh := if stag.waits false then
      (freshWords (out.flatMap (·.src)) c.actedS).filter (fun w => tagged (8 * w) && !s.freedFor c.id w)
    else []
  fresh.partition (fun w => s.tagsReady stag false [w] && s.firstAt c.id w true)

/-- COPY_SEGMENT_WRITE (10 R204, R205): in the next segment, whose pages must be translated, each source word
is read once its tag allows, and each destination word is written once its source words have been read and
its own tag allows; no word waits for another. A tag is tested once in the whole command. Words of a
weight-store bank in its refresh window wait it out (R195), and the lines of HBM a segment has read and written
queue at their banks (R188), which must not be under refresh (11 R207). The command parks at the words it waits for, and
holds its engine. What it waits to write in a freed partition is dropped (06 R99). -/
def State.copySegment (s : State) (id : Nat) : State :=
  match s.copyOf id with
  | none => s
  | some c =>
    let m := s.gatherSegment c
    if !c.reading || m.fault || (m.lines ++ hbmLines m.out).any s.hbmShut then s
    else
      let stag := tagOfCode (blkStag c.blk)
      let dtag := tagOfCode (blkDtag c.blk)
      let (take, wait) := s.segmentSources c m.out
      let blocked := fun (w : Nat) => s.wsBlocked (8 * w)
      let ready := fun (b : OutByte) =>
        b.src.all (fun w => !wait.contains w && !blocked w) && b.aux.all (fun w => !blocked w)
          && !blocked (b.loc / 8)
      let left := (wordSet (m.out.map (fun b => b.loc / 8))).filter (fun w => !c.put.contains w)
      let full := left.filter (fun w => m.out.all (fun b => b.loc / 8 != w || ready b))
      let s1 := (m.s.tagsAct stag false take).unpark id take
      let kept := fun (w : Nat) => !s.freedFor id w
      let fresh := fun (w : Nat) => tagged (8 * w) && !c.actedD.contains w && kept w
      let (put, stay) := full.partition (fun w =>
        !dtag.waits true || !fresh w || (s1.tagsReady dtag true [w] && s1.firstAt id w false))
      let note := fun (t : State) =>
        let t := (t.parkAll c.owner id wait true).parkAll c.owner id stay false
        t.wsNoteAll ((m.out.flatMap (fun b => b.loc / 8 :: (b.src ++ b.aux))).filter blocked)
      if take.isEmpty && put.isEmpty then note s
      else
        let acted := if dtag == TagMode.keep then [] else put.filter fresh
        let (s2, c) := s1.writeOut c (m.out.filter (fun b => put.contains (b.loc / 8) && kept (b.loc / 8)))
        let s2 := (s2.tagsAct dtag true acted).unpark id put
        let c := { c with
          actedS := c.actedS ++ take
          actedD := c.actedD ++ acted }
        if left.all put.contains then
          let lines := (wordSet (m.out.map (fun b => b.loc / 64))).length
          let s2 := { s2 with hbm := { s2.hbm with cpyln := bumpBy c.engine lines s2.hbm.cpyln } }
          let s2 := m.lines.foldl (fun (s : State) l => s.arriveAt (64 * l % 2 ^ 41) true c.die none) s2
          let s2 := (hbmLines m.out).foldl (fun (s : State) l => s.arriveAt (64 * l % 2 ^ 41) false c.die none) s2
          s2.setCopy { c with done := c.done + m.out.length, seen := [], put := [] }
        else
          note (s2.setCopy { c with
            put := c.put ++ put
            seen := c.seen ++ take.map s.wordSeen })

/-- The meaning of COPY_SEGMENT_WRITE. -/
def execCopySegmentWrite (id : Nat) (s : State) : Out := .next (s.copySegment id)

/-- Word 7 of a block: done-mark, reason, done (10 R200). -/
def word7 (donemark reason : Nat) (done : Bool) : Word :=
  mkWord (donemark % 2 ^ 32 + reason % 2 ^ 16 * 2 ^ 32 + (if done then 2 ^ 48 else 0))

/-- COPY_PAUSE (10 R205): the next segment meets a fault of a global page; word 7 tells the
done-mark, and the command waits for the firmware. It will read its source again from there. The segments above
the done-mark hold their old contents, since one segment is in flight at a time (DESIGN CHOICE, log entry
101). -/
def State.copyPause (s : State) (id : Nat) : State :=
  match s.copyOf id with
  | none => s
  | some c =>
    if c.reading && (s.gatherSegment c).fault then
      (s.setCopy { c with paused := true, seen := [], put := [] }).setWord (c.blkLoc + 56) (word7 c.done 0 false)
    else s

/-- The meaning of COPY_PAUSE. -/
def execCopyPause (id : Nat) (s : State) : Out := .next (s.copyPause id)

/-- COPY_RESUME (10 R198, R205): the fault is resolved, and no other command of the engine reads. -/
def State.copyResume (s : State) (id : Nat) : State :=
  match s.copyOf id with
  | none => s
  | some c =>
    if s.resumable c && !s.core.copies.any (fun x => x.engine == c.engine && x.reading) then
      s.setCopy { c with paused := false }
    else s

/-- The meaning of COPY_RESUME. -/
def execCopyResume (id : Nat) (s : State) : Out := .next (s.copyResume id)

/-- A copy node of the pricking whose command has completed (14 R235): the node's record keeps the
outcome. -/
def State.copyNodeDone (s : State) (id : Nat) (err : Option Nat) : State :=
  { s with sched := { s.sched with
    nodes := s.sched.nodes.map (fun (n : Node) =>
      if n.copy == some id then { n with ended := 1, failed := err.map (fun _ => 3) } else n) } }

/-- The destination bytes whose source was written before the command completed are undefined (10 R199,
00 R3). -/
def State.spoil (s : State) (c : CopyCmd) : State :=
  let m := (List.range c.done).foldl (fun (m : Mover) k => m.gather c k) { s := s }
  if m.fault || !m.out.any (·.spoiled) then s else (m.s.writeOut c (m.out.filter (·.spoiled))).1

/-- COPY_COMPLETE (10 R204, R205): a command that has written all its bytes, that never could, or
that is paused at a fault the firmware does not resolve, writes word 7 and completes. -/
def State.copyComplete (s : State) (id : Nat) : State :=
  match s.copyOf id with
  | none => s
  | some c =>
    let err : Option Nat := if c.paused then some 1 else c.fail
    if c.started && (err.isSome || decide (c.total ≤ c.done)) then
      let w := match err with
        | some r => word7 c.done r true
        | none => word7 0xFFFFFFFF 0 true
      let s := (s.spoil c).setWord (c.blkLoc + 56) w
      let s := { s with core := { s.core with
        copies := s.core.copies.filter (fun x => x.id != id)
        parked := s.core.parked.filter (fun w => w.id != id)
        freed := s.core.freed.filter (fun x => x.1 != id) } }
      (State.pumpX 8 (s.cmdDone c.owner id err c.flags)).copyNodeDone id err
    else s

/-- The meaning of COPY_COMPLETE. -/
def execCopyComplete (id : Nat) (s : State) : Out := .next (s.copyComplete id)

end Sys2Proof.Machine
end

