-- ==== Sys2Proof/Machine/Scalar.lean ====
section
/-!
DEFINITION. The meanings of the S-pipe words: IALU, IALI, MOVI, MOVK, FPU, CMP and FIELD (05 R81
to R90). Every word reads its sources in its issue cycle, writes one destination within the
bound of 03 R28, and joins the poison and taint of all its sources.
-/

namespace Sys2Proof.Machine

open Sys2Proof

/-- A word of two scalar sources and a scalar result (05 R81). -/
def alu2 (d a b : SReg) (bound : Nat) (f : Word → Word → Word) : WordSpec where
  pops := pops2 a b
  effect := fun s v =>
    let x := s.src a v 0
    let y := s.src2 a b v
    s.wreg d (joinAttr (f x.val y.val) [x, y]) bound

/-- A word of one scalar source and a scalar result (05 R81). -/
def alu1 (d a : SReg) (bound : Nat) (f : Word → Word) : WordSpec where
  pops := pops2 a 0
  effect := fun s v =>
    let x := s.src a v 0
    s.wreg d (joinAttr (f x.val) [x]) bound

/-- A word of two scalar sources whose result raises flags (04 R67, 05 R81). -/
def flagged2 (d a b : SReg) (bound : Nat) (f : Word → Word → Word × Flags) : WordSpec where
  pops := pops2 a b
  effect := fun s v =>
    let x := s.src a v 0
    let y := s.src2 a b v
    let r := f x.val y.val
    (s.wreg d (joinAttr r.1 [x, y]) bound).wflags r.2 bound

/-- A word of one scalar source whose result raises flags (04 R67, 05 R81). -/
def flagged1 (d a : SReg) (bound : Nat) (f : Word → Word × Flags) : WordSpec where
  pops := pops2 a 0
  effect := fun s v =>
    let x := s.src a v 0
    let r := f x.val
    (s.wreg d (joinAttr r.1 [x]) bound).wflags r.2 bound

/-- A predicate result with the attributes of its sources (05 R81). -/
def joinPred (v : Bool) (l : List Reg) : PReg :=
  let r := joinAttr 0 l
  { val := v, poison := r.poison, taint := r.taint }

/-- A word of two scalar sources and a predicate result, with flags (05 R89). -/
def cmp2 (d a b : SReg) (bound : Nat) (f : Word → Word → Bool × Flags) : WordSpec where
  pops := pops2 a b
  effect := fun s v =>
    let x := s.src a v 0
    let y := s.src2 a b v
    let r := f x.val y.val
    (s.wpred (d.extractLsb' 0 3) (joinPred r.1 [x, y]) bound).wflags r.2 bound

/-- The shift amount of a register operand (05 R83). -/
def shAmt (b : Word) : Nat := bitsOf b 0 6

/-- Leading zero bits, 0 to 64 (05 R83). -/
def clzOp (a : Word) : Word := if a == 0 then 64 else mkWord (63 - Nat.log2 a.toNat)

/-- Set bits (05 R83). -/
def popcOp (a : Word) : Word :=
  mkWord ((List.range 64).foldl (fun n i => if a.getLsbD i then n + 1 else n) 0)

/-- Sign extension of the low w bits (05 R83). -/
def sextOp (w : Nat) (a : Word) : Word := BitVec.ofInt 64 (intOfCode true w a.toNat)

/-- Zero extension of the low w bits (05 R83). -/
def zextOp (w : Nat) (a : Word) : Word := mkWord (bitsOf a 0 w)

/-- The width of a size code (05 R83). -/
def sizeBits (z : BitVec 6) : Nat := 8 * 2 ^ z.toNat

/-- The condition of `CMP` (05 R89). -/
def cmpOp (c : BitVec 4) (a b : Word) : Bool :=
  match c.toNat with
  | 0 => a == b
  | 1 => a != b
  | 2 => a.slt b
  | 3 => !a.slt b
  | 4 => !b.slt a
  | 5 => b.slt a
  | 6 => a.ult b
  | 7 => !a.ult b
  | 8 => !b.ult a
  | _ => b.ult a

/-- `MOVK`: one field of the old value replaced (05 R86). -/
def movkOp (sh : BitVec 2) (imm : BitVec 18) (old : Word) : Word :=
  let s := 18 * sh.toNat
  let len := if s = 54 then 10 else 18
  mkWord (old.toNat - bitsOf old s len * 2 ^ s + imm.toNat % 2 ^ len * 2 ^ s)

/-- Position, length and sign extension of a field specifier (05 R90). -/
def fieldSpec (b : Word) : Nat × Nat × Bool := (bitsOf b 0 6, bitsOf b 8 6 + 1, b.getLsbD 16)

/-- `BFX` (05 R90). -/
def bfxOp (a b : Word) : Word :=
  let (pos, len, sx) := fieldSpec b
  let t := bitsOf a pos len
  if sx then BitVec.ofInt 64 (intOfCode true len t) else mkWord t

/-- `BFI`: bits that would fall above 63 are dropped (05 R90). -/
def bfiOp (a b old : Word) : Word :=
  let (pos, len, _) := fieldSpec b
  let mask : Word := mkWord ((2 ^ len - 1) * 2 ^ pos)
  (old &&& ~~~mask) ||| (mkWord (a.toNat * 2 ^ pos) &&& mask)


/-- `ADD`: A + B (05 R83). -/
def addWord (d a b : SReg) : WordSpec := alu2 d a b 1 (fun x y => x + y)

/-- The meaning of `ADD` (05 R83). -/
def execAdd (d a b : SReg) (s : State) : Out := runWord (addWord d a b) s

/-- `SUB`: A − B (05 R83). -/
def subWord (d a b : SReg) : WordSpec := alu2 d a b 1 (fun x y => x - y)

/-- The meaning of `SUB` (05 R83). -/
def execSub (d a b : SReg) (s : State) : Out := runWord (subWord d a b) s

/-- `MUL`: bits 63:0 of A × B (05 R83). -/
def mulWord (d a b : SReg) : WordSpec := alu2 d a b 3 (fun x y => x * y)

/-- The meaning of `MUL` (05 R83). -/
def execMul (d a b : SReg) (s : State) : Out := runWord (mulWord d a b) s

/-- `MULH`: bits 127:64 of the signed product (05 R83). -/
def mulhWord (d a b : SReg) : WordSpec := alu2 d a b 3 (fun x y => BitVec.ofInt 64 (x.toInt * y.toInt / 2 ^ 64))

/-- The meaning of `MULH` (05 R83). -/
def execMulh (d a b : SReg) (s : State) : Out := runWord (mulhWord d a b) s

/-- `MULHN`: bits 127:64 of the natural product (05 R83). -/
def mulhnWord (d a b : SReg) : WordSpec := alu2 d a b 3 (fun x y => mkWord (x.toNat * y.toNat / 2 ^ 64))

/-- The meaning of `MULHN` (05 R83). -/
def execMulhn (d a b : SReg) (s : State) : Out := runWord (mulhnWord d a b) s

/-- `DIVN`: natural quotient (05 R84). -/
def divnWord (d a b : SReg) : WordSpec := alu2 d a b 24 (divnOp)

/-- The meaning of `DIVN` (05 R84). -/
def execDivn (d a b : SReg) (s : State) : Out := runWord (divnWord d a b) s

/-- `REM`: signed remainder (05 R84). -/
def remWord (d a b : SReg) : WordSpec := alu2 d a b 24 (remOp)

/-- The meaning of `REM` (05 R84). -/
def execRem (d a b : SReg) (s : State) : Out := runWord (remWord d a b) s

/-- `REMN`: natural remainder (05 R84). -/
def remnWord (d a b : SReg) : WordSpec := alu2 d a b 24 (remnOp)

/-- The meaning of `REMN` (05 R84). -/
def execRemn (d a b : SReg) (s : State) : Out := runWord (remnWord d a b) s

/-- `AND`: A AND B (05 R83). -/
def andWord (d a b : SReg) : WordSpec := alu2 d a b 1 (fun x y => x &&& y)

/-- The meaning of `AND` (05 R83). -/
def execAnd (d a b : SReg) (s : State) : Out := runWord (andWord d a b) s

/-- `OR`: A OR B (05 R83). -/
def orWord (d a b : SReg) : WordSpec := alu2 d a b 1 (fun x y => x ||| y)

/-- The meaning of `OR` (05 R83). -/
def execOr (d a b : SReg) (s : State) : Out := runWord (orWord d a b) s

/-- `XOR`: A XOR B (05 R83). -/
def xorWord (d a b : SReg) : WordSpec := alu2 d a b 1 (fun x y => x ^^^ y)

/-- The meaning of `XOR` (05 R83). -/
def execXor (d a b : SReg) (s : State) : Out := runWord (xorWord d a b) s

/-- `ANDN`: A AND NOT B (05 R83). -/
def andnWord (d a b : SReg) : WordSpec := alu2 d a b 1 (fun x y => x &&& ~~~y)

/-- The meaning of `ANDN` (05 R83). -/
def execAndn (d a b : SReg) (s : State) : Out := runWord (andnWord d a b) s

/-- `SHL`: A shifted left (05 R83). -/
def shlWord (d a b : SReg) : WordSpec := alu2 d a b 1 (fun x y => x <<< shAmt y)

/-- The meaning of `SHL` (05 R83). -/
def execShl (d a b : SReg) (s : State) : Out := runWord (shlWord d a b) s

/-- `SHR`: A shifted right, zeros in (05 R83). -/
def shrWord (d a b : SReg) : WordSpec := alu2 d a b 1 (fun x y => x >>> shAmt y)

/-- The meaning of `SHR` (05 R83). -/
def execShr (d a b : SReg) (s : State) : Out := runWord (shrWord d a b) s

/-- `SAR`: A shifted right, sign in (05 R83). -/
def sarWord (d a b : SReg) : WordSpec := alu2 d a b 1 (fun x y => x.sshiftRight (shAmt y))

/-- The meaning of `SAR` (05 R83). -/
def execSar (d a b : SReg) (s : State) : Out := runWord (sarWord d a b) s

/-- `ROTL`: A rotated left (05 R83). -/
def rotlWord (d a b : SReg) : WordSpec := alu2 d a b 1 (fun x y => x.rotateLeft (shAmt y))

/-- The meaning of `ROTL` (05 R83). -/
def execRotl (d a b : SReg) (s : State) : Out := runWord (rotlWord d a b) s

/-- `MIN`: signed minimum (05 R83). -/
def minWord (d a b : SReg) : WordSpec := alu2 d a b 1 (fun x y => if y.slt x then y else x)

/-- The meaning of `MIN` (05 R83). -/
def execMin (d a b : SReg) (s : State) : Out := runWord (minWord d a b) s

/-- `MAX`: signed maximum (05 R83). -/
def maxWord (d a b : SReg) : WordSpec := alu2 d a b 1 (fun x y => if x.slt y then y else x)

/-- The meaning of `MAX` (05 R83). -/
def execMax (d a b : SReg) (s : State) : Out := runWord (maxWord d a b) s

/-- `MINN`: natural minimum (05 R83). -/
def minnWord (d a b : SReg) : WordSpec := alu2 d a b 1 (fun x y => if y.ult x then y else x)

/-- The meaning of `MINN` (05 R83). -/
def execMinn (d a b : SReg) (s : State) : Out := runWord (minnWord d a b) s

/-- `MAXN`: natural maximum (05 R83). -/
def maxnWord (d a b : SReg) : WordSpec := alu2 d a b 1 (fun x y => if x.ult y then y else x)

/-- The meaning of `MAXN` (05 R83). -/
def execMaxn (d a b : SReg) (s : State) : Out := runWord (maxnWord d a b) s

/-- `LEA`: A + 8 × B (05 R90). -/
def leaWord (d a b : SReg) : WordSpec := alu2 d a b 1 (fun x y => x + 8 * y)

/-- The meaning of `LEA` (05 R90). -/
def execLea (d a b : SReg) (s : State) : Out := runWord (leaWord d a b) s

/-- `DIV`: signed quotient, OF on overflow (05 R84). -/
def divWord (d a b : SReg) : WordSpec := flagged2 d a b 24 divOp

/-- The meaning of `DIV` (05 R84). -/
def execDiv (d a b : SReg) (s : State) : Out := runWord (divWord d a b) s

/-- `CLZ`: leading zeros (05 R83). -/
def clzWord (d a : SReg) : WordSpec := alu1 d a 2 clzOp

/-- The meaning of `CLZ` (05 R83). -/
def execClz (d a : SReg) (s : State) : Out := runWord (clzWord d a) s

/-- `POPC`: set bits (05 R83). -/
def popcWord (d a : SReg) : WordSpec := alu1 d a 2 popcOp

/-- The meaning of `POPC` (05 R83). -/
def execPopc (d a : SReg) (s : State) : Out := runWord (popcWord d a) s

/-- `SEXT`: sign extension (05 R83). -/
def sextWord (d a : SReg) (z : BitVec 6) : WordSpec := alu1 d a 1 (sextOp (sizeBits z))

/-- The meaning of `SEXT` (05 R83). -/
def execSext (d a : SReg) (z : BitVec 6) (s : State) : Out := runWord (sextWord d a z) s

/-- `ZEXT`: zero extension (05 R83). -/
def zextWord (d a : SReg) (z : BitVec 6) : WordSpec := alu1 d a 1 (zextOp (sizeBits z))

/-- The meaning of `ZEXT` (05 R83). -/
def execZext (d a : SReg) (z : BitVec 6) (s : State) : Out := runWord (zextWord d a z) s

/-- `ADDI`: A + I (05 R85). -/
def addiWord (d a : SReg) (imm : BitVec 11) : WordSpec := alu1 d a 1 (fun x => x + imm.signExtend 64)

/-- The meaning of `ADDI` (05 R85). -/
def execAddi (d a : SReg) (imm : BitVec 11) (s : State) : Out := runWord (addiWord d a imm) s

/-- `ANDI`: A AND I (05 R85). -/
def andiWord (d a : SReg) (imm : BitVec 11) : WordSpec := alu1 d a 1 (fun x => x &&& imm.signExtend 64)

/-- The meaning of `ANDI` (05 R85). -/
def execAndi (d a : SReg) (imm : BitVec 11) (s : State) : Out := runWord (andiWord d a imm) s

/-- `ORI`: A OR I (05 R85). -/
def oriWord (d a : SReg) (imm : BitVec 11) : WordSpec := alu1 d a 1 (fun x => x ||| imm.signExtend 64)

/-- The meaning of `ORI` (05 R85). -/
def execOri (d a : SReg) (imm : BitVec 11) (s : State) : Out := runWord (oriWord d a imm) s

/-- `XORI`: A XOR I (05 R85). -/
def xoriWord (d a : SReg) (imm : BitVec 11) : WordSpec := alu1 d a 1 (fun x => x ^^^ imm.signExtend 64)

/-- The meaning of `XORI` (05 R85). -/
def execXori (d a : SReg) (imm : BitVec 11) (s : State) : Out := runWord (xoriWord d a imm) s

/-- `SHLI`: A shifted left (05 R85). -/
def shliWord (d a : SReg) (n : BitVec 6) : WordSpec := alu1 d a 1 (fun x => x <<< n.toNat)

/-- The meaning of `SHLI` (05 R85). -/
def execShli (d a : SReg) (n : BitVec 6) (s : State) : Out := runWord (shliWord d a n) s

/-- `SHRI`: A shifted right, zeros in (05 R85). -/
def shriWord (d a : SReg) (n : BitVec 6) : WordSpec := alu1 d a 1 (fun x => x >>> n.toNat)

/-- The meaning of `SHRI` (05 R85). -/
def execShri (d a : SReg) (n : BitVec 6) (s : State) : Out := runWord (shriWord d a n) s

/-- `SARI`: A shifted right, sign in (05 R85). -/
def sariWord (d a : SReg) (n : BitVec 6) : WordSpec := alu1 d a 1 (fun x => x.sshiftRight n.toNat)

/-- The meaning of `SARI` (05 R85). -/
def execSari (d a : SReg) (n : BitVec 6) (s : State) : Out := runWord (sariWord d a n) s

/-- `MOVI`: the sign-extended immediate, free of poison and taint (05 R86). -/
def moviWord (d : SReg) (imm : BitVec 20) : WordSpec where
  effect := fun s _ => s.wreg d { val := imm.signExtend 64 } 1

/-- The meaning of `MOVI` (05 R86). -/
def execMovi (d : SReg) (imm : BitVec 20) (s : State) : Out := runWord (moviWord d imm) s

/-- `MOVK`: keeps the other bits, the poison and the taint of the old value (05 R86). -/
def movkWord (d : SReg) (sh : BitVec 2) (imm : BitVec 18) : WordSpec where
  effect := fun s _ =>
    let x := s.cx.sreg d
    s.wreg d (joinAttr (movkOp sh imm x.val) [x]) 1

/-- The meaning of `MOVK` (05 R86). -/
def execMovk (d : SReg) (sh : BitVec 2) (imm : BitVec 18) (s : State) : Out :=
  runWord (movkWord d sh imm) s

/-- The bound of the four arithmetic FPU words: 4 for FP32, 6 for FP64 (03 R28). -/
def fpBound (p : BitVec 2) : Nat := if p == 0 then 4 else 6

/-- `FADD`: x + y (05 R87). -/
def faddWord (p : BitVec 2) (d a b : SReg) : WordSpec := flagged2 d a b (fpBound p) (faddOp p)

/-- The meaning of `FADD` (05 R87). -/
def execFadd (p : BitVec 2) (d a b : SReg) (s : State) : Out := runWord (faddWord p d a b) s

/-- `FSUB`: x − y (05 R87). -/
def fsubWord (p : BitVec 2) (d a b : SReg) : WordSpec := flagged2 d a b (fpBound p) (fsubOp p)

/-- The meaning of `FSUB` (05 R87). -/
def execFsub (p : BitVec 2) (d a b : SReg) (s : State) : Out := runWord (fsubWord p d a b) s

/-- `FMUL`: x × y (05 R87). -/
def fmulWord (p : BitVec 2) (d a b : SReg) : WordSpec := flagged2 d a b (fpBound p) (fmulOp p)

/-- The meaning of `FMUL` (05 R87). -/
def execFmul (p : BitVec 2) (d a b : SReg) (s : State) : Out := runWord (fmulWord p d a b) s

/-- `FMIN`: lesser (05 R87). -/
def fminWord (p : BitVec 2) (d a b : SReg) : WordSpec := flagged2 d a b 2 (fminOp p)

/-- The meaning of `FMIN` (05 R87). -/
def execFmin (p : BitVec 2) (d a b : SReg) (s : State) : Out := runWord (fminWord p d a b) s

/-- `FMAX`: greater (05 R87). -/
def fmaxWord (p : BitVec 2) (d a b : SReg) : WordSpec := flagged2 d a b 2 (fmaxOp p)

/-- The meaning of `FMAX` (05 R87). -/
def execFmax (p : BitVec 2) (d a b : SReg) (s : State) : Out := runWord (fmaxWord p d a b) s

/-- `FFMA`: z is the old destination, and a source (05 R81, R87). -/
def ffmaWord (p : BitVec 2) (d a b : SReg) : WordSpec where
  pops := pops2 a b
  effect := fun s v =>
    let x := s.src a v 0
    let y := s.src2 a b v
    let z := s.cx.sreg d
    let r := ffmaOp p x.val y.val z.val
    (s.wreg d (joinAttr r.1 [x, y, z]) (fpBound p)).wflags r.2 (fpBound p)

/-- The meaning of `FFMA` (05 R87). -/
def execFfma (p : BitVec 2) (d a b : SReg) (s : State) : Out := runWord (ffmaWord p d a b) s

/-- `FABS`: sign bit cleared (05 R87). -/
def fabsWord (p : BitVec 2) (d a : SReg) : WordSpec := alu1 d a 1 (fabsOp p)

/-- The meaning of `FABS` (05 R87). -/
def execFabs (p : BitVec 2) (d a : SReg) (s : State) : Out := runWord (fabsWord p d a) s

/-- `FNEG`: sign bit inverted (05 R87). -/
def fnegWord (p : BitVec 2) (d a : SReg) : WordSpec := alu1 d a 1 (fnegOp p)

/-- The meaning of `FNEG` (05 R87). -/
def execFneg (p : BitVec 2) (d a : SReg) (s : State) : Out := runWord (fnegWord p d a) s

/-- `FCPYS`: x with the sign of y (05 R87). -/
def fcpysWord (p : BitVec 2) (d a b : SReg) : WordSpec := alu2 d a b 1 (fcpysOp p)

/-- The meaning of `FCPYS` (05 R87). -/
def execFcpys (p : BitVec 2) (d a b : SReg) (s : State) : Out := runWord (fcpysWord p d a b) s

/-- `FCVTI`: to an integer (05 R88). -/
def fcvtiWord (p : BitVec 2) (d a : SReg) (k : BitVec 2) (m : BitVec 3) : WordSpec := flagged1 d a 4 (fcvtiOp p k m)

/-- The meaning of `FCVTI` (05 R88). -/
def execFcvti (p : BitVec 2) (d a : SReg) (k : BitVec 2) (m : BitVec 3) (s : State) : Out := runWord (fcvtiWord p d a k m) s

/-- `FCVTF`: from an integer (05 R88). -/
def fcvtfWord (p : BitVec 2) (d a : SReg) (k : BitVec 2) (m : BitVec 3) : WordSpec := flagged1 d a 4 (fcvtfOp p k m)

/-- The meaning of `FCVTF` (05 R88). -/
def execFcvtf (p : BitVec 2) (d a : SReg) (k : BitVec 2) (m : BitVec 3) (s : State) : Out := runWord (fcvtfWord p d a k m) s

/-- `FCVTW`: between the wide precisions (05 R88). -/
def fcvtwWord (p : BitVec 2) (d a : SReg) (m : BitVec 3) : WordSpec := flagged1 d a 4 (fcvtwOp p m)

/-- The meaning of `FCVTW` (05 R88). -/
def execFcvtw (p : BitVec 2) (d a : SReg) (m : BitVec 3) (s : State) : Out := runWord (fcvtwWord p d a m) s

/-- `CMP`: integer condition (05 R89). -/
def cmpWord (d a b : SReg) (c : BitVec 4) : WordSpec := cmp2 d a b 1 (fun x y => (cmpOp c x y, 0))

/-- The meaning of `CMP` (05 R89). -/
def execCmp (d a b : SReg) (c : BitVec 4) (s : State) : Out := runWord (cmpWord d a b c) s

/-- `FCMP`: float condition (05 R89). -/
def fcmpWord (d a b : SReg) (c : BitVec 4) : WordSpec := cmp2 d a b 2 (fcmpOp c)

/-- The meaning of `FCMP` (05 R89). -/
def execFcmp (d a b : SReg) (c : BitVec 4) (s : State) : Out := runWord (fcmpWord d a b c) s

/-- `TST`: bit test (05 R89). -/
def tstWord (d a b : SReg) (c : BitVec 4) : WordSpec := cmp2 d a b 1 (fun x y => ((x &&& y != 0) != (c == 1), 0))

/-- The meaning of `TST` (05 R89). -/
def execTst (d a b : SReg) (c : BitVec 4) (s : State) : Out := runWord (tstWord d a b c) s

/-- `PLOG`: the truth table indexed by the two source predicates (05 R89). -/
def plogWord (d a b : SReg) (c : BitVec 4) : WordSpec where
  effect := fun s _ =>
    let x := s.cx.preg (a.extractLsb' 0 3)
    let y := s.cx.preg (b.extractLsb' 0 3)
    let i := (if x.val then 2 else 0) + (if y.val then 1 else 0)
    s.wpred (d.extractLsb' 0 3) (joinPred (c.getLsbD i) [x.attr, y.attr]) 1

/-- The meaning of `PLOG` (05 R89). -/
def execPlog (d a b : SReg) (c : BitVec 4) (s : State) : Out := runWord (plogWord d a b c) s

/-- `BFX`: field extract (05 R90). -/
def bfxWord (d a b : SReg) : WordSpec := alu2 d a b 1 bfxOp

/-- The meaning of `BFX` (05 R90). -/
def execBfx (d a b : SReg) (s : State) : Out := runWord (bfxWord d a b) s

/-- `BFI`: the old destination is a source (05 R81, R90). -/
def bfiWord (d a b : SReg) : WordSpec where
  pops := pops2 a b
  effect := fun s v =>
    let x := s.src a v 0
    let y := s.src2 a b v
    let z := s.cx.sreg d
    s.wreg d (joinAttr (bfiOp x.val y.val z.val) [x, y, z]) 1

/-- The meaning of `BFI` (05 R90). -/
def execBfi (d a b : SReg) (s : State) : Out := runWord (bfiWord d a b) s

/-- `SEL`: always writes; poison and taint of sD, sA and kB together (05 R90). -/
def selWord (d a b : SReg) : WordSpec where
  pops := pops2 a 0
  effect := fun s v =>
    let x := s.src a v 0
    let k := s.cx.preg (b.extractLsb' 0 3)
    let z := s.cx.sreg d
    s.wreg d (joinAttr (if k.val then x.val else z.val) [z, x, k.attr]) 1

/-- The meaning of `SEL` (05 R90). -/
def execSel (d a b : SReg) (s : State) : Out := runWord (selWord d a b) s

end Sys2Proof.Machine
end

