-- ==== Sys2Proof/Machine/WordOf.lean ====
section
/-! DEFINITION. What every encoded word asks at issue, for bundles of several words (03 R23). -/

namespace Sys2Proof.Machine

open Sys2Proof

/-- The issue record of an instruction word; the steps without an encoding have none. -/
def wordOf : Instr → Option WordSpec
  | .nop => some (nopWord)
  | .endTask => some (endTaskWord)
  | .yield => some (yieldWord)
  | .jmp a => some (jmpWord a)
  | .jmpl a => some (jmplWord a)
  | .ret => some (retWord)
  | .loop a n => some (loopWord a n)
  | .br k n off => some (brWord k n off)
  | .call off => some (callWord off)
  | .trap n => some (trapWord n)
  | .eret => some (eretWord)
  | .eretTo a => some (eretToWord a)
  | .check a => some (checkWord a)
  | .checkPred a => some (checkPredWord a)
  | .mfs a n => some (mfsWord a n)
  | .mts a n => some (mtsWord a n)
  | .brk n => some (brkWord n)
  | .mark a n => some (markWord a n)
  | .swapc => some (swapcWord)
  | .tlbinvPage a => some (tlbinvPageWord a)
  | .tlbinvAsid a => some (tlbinvAsidWord a)
  | .tlbinvLocal => some (tlbinvLocalWord)
  | .tlbinvAll => some (tlbinvAllWord)
  | .svc n => some (svcWord n)
  | .add d a b => some (addWord d a b)
  | .sub d a b => some (subWord d a b)
  | .mul d a b => some (mulWord d a b)
  | .mulh d a b => some (mulhWord d a b)
  | .mulhn d a b => some (mulhnWord d a b)
  | .div d a b => some (divWord d a b)
  | .divn d a b => some (divnWord d a b)
  | .rem d a b => some (remWord d a b)
  | .remn d a b => some (remnWord d a b)
  | .and d a b => some (andWord d a b)
  | .or d a b => some (orWord d a b)
  | .xor d a b => some (xorWord d a b)
  | .andn d a b => some (andnWord d a b)
  | .shl d a b => some (shlWord d a b)
  | .shr d a b => some (shrWord d a b)
  | .sar d a b => some (sarWord d a b)
  | .rotl d a b => some (rotlWord d a b)
  | .min d a b => some (minWord d a b)
  | .max d a b => some (maxWord d a b)
  | .minn d a b => some (minnWord d a b)
  | .maxn d a b => some (maxnWord d a b)
  | .clz d a => some (clzWord d a)
  | .popc d a => some (popcWord d a)
  | .sext d a z => some (sextWord d a z)
  | .zext d a z => some (zextWord d a z)
  | .addi d a imm => some (addiWord d a imm)
  | .andi d a imm => some (andiWord d a imm)
  | .ori d a imm => some (oriWord d a imm)
  | .xori d a imm => some (xoriWord d a imm)
  | .shli d a n => some (shliWord d a n)
  | .shri d a n => some (shriWord d a n)
  | .sari d a n => some (sariWord d a n)
  | .movi d imm => some (moviWord d imm)
  | .movk d sh imm => some (movkWord d sh imm)
  | .fadd p d a b => some (faddWord p d a b)
  | .fsub p d a b => some (fsubWord p d a b)
  | .fmul p d a b => some (fmulWord p d a b)
  | .ffma p d a b => some (ffmaWord p d a b)
  | .fmin p d a b => some (fminWord p d a b)
  | .fmax p d a b => some (fmaxWord p d a b)
  | .fabs p d a => some (fabsWord p d a)
  | .fneg p d a => some (fnegWord p d a)
  | .fcpys p d a b => some (fcpysWord p d a b)
  | .fcvti p d a k m => some (fcvtiWord p d a k m)
  | .fcvtf p d a k m => some (fcvtfWord p d a k m)
  | .fcvtw p d a m => some (fcvtwWord p d a m)
  | .cmp d a b c => some (cmpWord d a b c)
  | .fcmp d a b c => some (fcmpWord d a b c)
  | .plog d a b c => some (plogWord d a b c)
  | .tst d a b c => some (tstWord d a b c)
  | .bfx d a b => some (bfxWord d a b)
  | .bfi d a b => some (bfiWord d a b)
  | .lea d a b => some (leaWord d a b)
  | .sel d a b => some (selWord d a b)
  | .ld base cls sz off => some (ldWord base cls sz off)
  | .lds base cls sz off => some (ldsWord base cls sz off)
  | .ldc base cls sz off => some (ldcWord base cls sz off)
  | .ldf base cls sz off => some (ldfWord base cls sz off)
  | .ldfe base cls sz off => some (ldfeWord base cls sz off)
  | .st x base cls sz off => some (stWord x base cls sz off)
  | .stf x base cls sz off => some (stfWord x base cls sz off)
  | .ste x base cls sz off => some (steWord x base cls sz off)
  | .sete base cls sz off => some (seteWord base cls sz off)
  | .setf base cls sz off => some (setfWord base cls sz off)
  | .tagq base cls sz off => some (tagqWord base cls sz off)
  | .aadd v base cls sz fetch => some (aaddWord v base cls sz fetch)
  | .amin v base cls sz fetch => some (aminWord v base cls sz fetch)
  | .amax v base cls sz fetch => some (amaxWord v base cls sz fetch)
  | .aminn v base cls sz fetch => some (aminnWord v base cls sz fetch)
  | .amaxn v base cls sz fetch => some (amaxnWord v base cls sz fetch)
  | .aand v base cls sz fetch => some (aandWord v base cls sz fetch)
  | .aor v base cls sz fetch => some (aorWord v base cls sz fetch)
  | .axor v base cls sz fetch => some (axorWord v base cls sz fetch)
  | .aswp v base cls sz fetch => some (aswpWord v base cls sz fetch)
  | .afadd v base cls sz fetch => some (afaddWord v base cls sz fetch)
  | .acas v base cls sz fetch => some (acasWord v base cls sz fetch)
  | .fence scope mask => some (fenceWord scope mask)
  | .slkset a cls => some (slksetWord a cls)
  | .wdrain w => some (wdrainWord w)
  | .wallow a w => some (wallowWord a w)
  | .vadd dd da db opt => some (vaddWord dd da db opt)
  | .vsub dd da db opt => some (vsubWord dd da db opt)
  | .vmul dd da db opt => some (vmulWord dd da db opt)
  | .vfma dd da db opt => some (vfmaWord dd da db opt)
  | .vmin dd da db opt => some (vminWord dd da db opt)
  | .vmax dd da db opt => some (vmaxWord dd da db opt)
  | .vabs dd da opt => some (vabsWord dd da opt)
  | .vneg dd da opt => some (vnegWord dd da opt)
  | .vand dd da db opt => some (vandWord dd da db opt)
  | .vor dd da db opt => some (vorWord dd da db opt)
  | .vxor dd da db opt => some (vxorWord dd da db opt)
  | .vshl dd da db opt => some (vshlWord dd da db opt)
  | .vshr dd da db opt => some (vshrWord dd da db opt)
  | .vcmp dd da db opt => some (vcmpWord dd da db opt)
  | .vsel dd da db opt => some (vselWord dd da db opt)
  | .vcopy dd da opt => some (vcopyWord dd da opt)
  | .vfill dd da opt => some (vfillWord dd da opt)
  | .vcvt dd da opt => some (vcvtWord dd da opt)
  | .viota dd opt => some (viotaWord dd opt)
  | .vexp2 dd da opt => some (vexp2Word dd da opt)
  | .vlog2 dd da opt => some (vlog2Word dd da opt)
  | .vrcp dd da opt => some (vrcpWord dd da opt)
  | .vrsq dd da opt => some (vrsqWord dd da opt)
  | .vsig dd da opt => some (vsigWord dd da opt)
  | .vtanh dd da opt => some (vtanhWord dd da opt)
  | .vgelu dd da opt => some (vgeluWord dd da opt)
  | .vchain dd da db opt => some (vchainWord dd da db opt)
  | .chset r opt => some (chsetWord r opt)
  | .vcomp dd da db opt => some (vcompWord dd da db opt)
  | .vexpd dd da db opt => some (vexpdWord dd da db opt)
  | .vgath dd da db opt => some (vgathWord dd da db opt)
  | .vscat dd da db opt => some (vscatWord dd da db opt)
  | .vscan dd da opt => some (vscanWord dd da opt)
  | .vtrn dd da opt => some (vtrnWord dd da opt)
  | .dset d a b => some (dsetWord d a b)
  | .dget d a b => some (dgetWord d a b)
  | .dadv a b => some (dadvWord a b)
  | .dcnt a b => some (dcntWord a b)
  | .radd da ps => some (raddWord da ps)
  | .rmin da ps => some (rminWord da ps)
  | .rmax da ps => some (rmaxWord da ps)
  | .rdrn r ps => some (rdrnWord r ps)
  | .rdrnDesc dd ps => some (rdrnDescWord dd ps)
  | .rclr k o ps => some (rclrWord k o ps)
  | .mstep acc wide da db depth tag flags => some (mstepWord acc wide da db depth tag flags)
  | .mzero n wide v f => some (mzeroWord n wide v f)
  | .mdrain d n m clr => some (mdrainWord d n m clr)
  | .mlda n a f m => some (mldaWord n a f m)
  | .mwgt b => some (mwgtWord b)
  | .sload n a => some (sloadWord n a)
  | .ssel p => some (sselWord p)
  | .mflow p => some (mflowWord p)
  | .mskew p => some (mskewWord p)
  | .mfmt p q opt => some (mfmtWord p q opt)
  | .scld a n f => some (scldWord a n f)
  | .fmset a n => some (fmsetWord a n)
  | .fmget a n => some (fmgetWord a n)
  | .cpy p q patch cls => some (cpyWord p q patch cls)
  | .cpyt p q patch cls => some (cpytWord p q patch cls)
  | .cpyp p q patch cls => some (cpypWord p q patch cls)
  | .cpyg p q patch cls => some (cpygWord p q patch cls)
  | .cpyw p q patch cls => some (cpywWord p q patch cls)
  | .cpyc p q patch cls => some (cpycWord p q patch cls)
  | .cpost p cls => some (cpostWord p cls)
  | .ccancel p cls => some (ccancelWord p cls)
  | .cquery p cls => some (cqueryWord p cls)
  | .tsend p cls => some (tsendWord p cls)
  | .commit a => some (commitWord a)
  | .waitb a => some (waitbWord a)
  | .testb a => some (testbWord a)
  | .bara n => some (baraWord n)
  | .barw n => some (barwWord n)
  | .bart a n => some (bartWord a n)
  | .barcfg a n => some (barcfgWord a n)
  | .npost a => some (npostWord a)
  | .requeue a => some (requeueWord a)
  | .exper step op => some (experWord step op)
  | _ => none

end Sys2Proof.Machine
end

