-- ==== Sys2Proof/Machine/Bundle.lean ====
section
/-!
DEFINITION. Bundles: fetch (03 R20 to R24), illegal bundles and words (03 R38 to R40), the issue of
a bundle of several words (03 R23, R26, R336; 13 R216), its end (05 R91, R93; 13 R221), and the
delivery of the trap a bundle meets (13 R217).
-/

namespace Sys2Proof.Machine

open Sys2Proof

/-! ### Fetch -/

/-- The location of a code address, in the code's pinned pages (13 R212, 21 R317). -/
def State.codeLoc (s : State) (a : Word) : Nat :=
  let o := s.cx.codeOff + (a.toNat - s.cx.codeOrigin.toNat)
  hbmLoc s.pkgid ((s.cx.codePages[o / 4096]?).getD 0 + o % 4096)

/-- A byte of the code: as the loader took it for the launch, or, for a context that no launch made, of its pages (21
R316, R317; log entry 60). -/
def State.codeByte (s : State) (a : Word) : Byte :=
  match s.cx.codeLit with
  | some l => (l[a.toNat - s.cx.codeOrigin.toNat]?).getD 0
  | none => s.byte (s.codeLoc a)

/-- The instruction word at a code address (03 R20). -/
def State.fetchWord (s : State) (a : Word) : IWord :=
  wordOfBytes (s.codeByte a) (s.codeByte (a + 1)) (s.codeByte (a + 2)) (s.codeByte (a + 3))

/-- The run of words from an address, at most n, up to the word whose chain bit is clear (03
R22); `none` stands for the first word past the end of the code. -/
def State.runAt (s : State) : Nat → Word → List (Option IWord)
  | 0, _ => []
  | n + 1, a =>
    if !s.inCode a then [none]
    else
      let w := s.fetchWord a
      if chainBit w then some w :: s.runAt n (a + 4) else [some w]

/-- A pipe of the core. -/
inductive Pipe where
  | c | s | a | v | r | m | t | x
  deriving DecidableEq, Repr

/-- The pipe of a word, by its major (03 R25). -/
def pipeOf (w : IWord) : Option Pipe :=
  let m := (fld w 26 5).toNat
  if m ≤ 0x03 || m == 0x1C then some .c
  else if m ≤ 0x0A then some .s
  else if m == 0x0B then none
  else if m ≤ 0x10 then some .a
  else if m ≤ 0x15 then some .v
  else if m == 0x16 then some .r
  else if m ≤ 0x18 then some .m
  else if m == 0x19 then some .t
  else if m ≤ 0x1B then some .x
  else none

/-- How many words of a bundle a pipe takes (03 R22). -/
def Pipe.room : Pipe → Nat
  | .s => 2
  | _ => 1

/-- A scalar destination as a number; s0 is exempt, and 63 names no register (03 R22, R36). -/
def sDest (r : SReg) : List Nat := if r == 0 || r == 63 then [] else [r.toNat]

/-- A predicate destination as a number; k0 is exempt, and a field above 7 names none (03 R22, R36). -/
def kDest (r : SReg) : List Nat := if r == 0 || decide (7 < r.toNat) then [] else [100 + r.toNat]

/-- The scalar and predicate registers an instruction names as destinations (03 R22); those of
other kinds belong to one pipe each. -/
def dests : Instr → List Nat
  | .jmpl _ | .call _ => [61]
  | .mfs a _ | .fmget a _ | .commit a | .testb a | .bart a _ => sDest a
  | .add d _ _ | .sub d _ _ | .mul d _ _ | .mulh d _ _ | .mulhn d _ _ | .div d _ _ | .divn d _ _
  | .rem d _ _ | .remn d _ _ | .and d _ _ | .or d _ _ | .xor d _ _ | .andn d _ _ | .shl d _ _
  | .shr d _ _ | .sar d _ _ | .rotl d _ _ | .min d _ _ | .max d _ _ | .minn d _ _ | .maxn d _ _
  | .clz d _ | .popc d _ | .sext d _ _ | .zext d _ _
  | .addi d _ _ | .andi d _ _ | .ori d _ _ | .xori d _ _ | .shli d _ _ | .shri d _ _ | .sari d _ _
  | .movi d _ | .movk d _ _
  | .fadd _ d _ _ | .fsub _ d _ _ | .fmul _ d _ _ | .ffma _ d _ _ | .fmin _ d _ _ | .fmax _ d _ _
  | .fabs _ d _ | .fneg _ d _ | .fcpys _ d _ _ | .fcvti _ d _ _ _ | .fcvtf _ d _ _ _
  | .fcvtw _ d _ _
  | .bfx d _ _ | .bfi d _ _ | .lea d _ _ | .sel d _ _ | .dget d _ _ => sDest d
  | .rdrn r _ => sDest r
  | .cmp d _ _ _ | .fcmp d _ _ _ | .plog d _ _ _ | .tst d _ _ _ => kDest d
  | _ => []

/-- The destinations of a word (03 R22). Of an illegal word the spec does not say whether it names one: a
word that decodes and is not well formed (an `FADD` of precision 2) counts by its field d, one of a
reserved function value by none (DESIGN CHOICE, log entry 94). -/
def destsOf (w : IWord) : List Nat := ((decode w).map dests).getD []

/-- The breach of 03 R39 found at index k of a run whose first word has an index in the code: its reason code. -/
def breach (first : Nat) (ws : List (Option IWord)) (k : Nat) : Option Nat :=
  match ws[k]? with
  | none => none
  | some none => some 3
  | some (some w) =>
    let before := (ws.take k).filterMap (fun x => x)
    if k = 6 then some 2
    else if first / 3 + 2 ≤ (first + k) / 3 then some 4
    else if (match pipeOf w with
        | some p => decide (p.room ≤ (before.filter (fun x => pipeOf x == some p)).length)
        | none => false) then some 1
    else if (destsOf w).any (fun d => before.any (fun x => (destsOf x).contains d)) then some 5
    else none

/-- The breach at index k of the run at the fetch address. -/
def State.breachAt (s : State) (ws : List (Option IWord)) (k : Nat) : Option Nat :=
  breach ((s.cx.pc.toNat - s.cx.codeOrigin.toNat) / 4) ws k

/-- ILLBUN of a run: the breach at the lowest index (03 R39, R40). -/
def State.illbun (s : State) (ws : List (Option IWord)) : Option TrapReq :=
  (List.range ws.length).findSome? (fun k =>
    (s.breachAt ws k).map (fun r => ⟨2, mkWord (r + k * 2 ^ 8)⟩))

/-- Whether a word is an illegal instruction by its own fields (03 R38). -/
def wordIllegal (w : IWord) : Bool :=
  match decode w with
  | some i => !i.wf
  | none => true

/-- The state as a word of an index sees it. -/
def State.atWord (s : State) (k : Nat) : State := { s with widx := k }

/-- Whether the state makes a word illegal: a register's value, a descriptor, the context (03 R38; log
entry 68). -/
def State.illegalNow (s : State) (w : IWord) : Bool :=
  match (decode w).bind wordOf with
  | some x => x.illop s
  | none => false

/-- ILLOP of the first offending word, in word order (03 R40, R336; log entry 68). -/
def State.illopOf (s : State) (ws : List IWord) : Option TrapReq :=
  ws.zipIdx.findSome? (fun (w, k) =>
    if wordIllegal w || (s.atWord k).illegalNow w then some ⟨1, mkWord (w.toNat + k * 2 ^ 32)⟩ else none)

/-- ILLOP of the first word that is illegal by its own fields, in word order. -/
def illegalWords (ws : List IWord) : Option TrapReq :=
  ws.zipIdx.findSome? (fun (w, k) =>
    if wordIllegal w then some ⟨1, mkWord (w.toNat + k * 2 ^ 32)⟩ else none)

/-- The issue records of a bundle's words. -/
def bundleSpecs (ws : List IWord) : List (Instr × WordSpec) :=
  ws.filterMap (fun w => (decode w).bind (fun i => (wordOf i).map (fun x => (i, x))))

/-- LQEMPTY of a bundle's words (06 R104). -/
def State.lqShort (s : State) (ws : List IWord) : Option TrapReq :=
  let need := ((bundleSpecs ws).map (fun x => x.2.pops)).sum
  if s.cx.lq.length < need then some ⟨4, lqEmptyTval need s.cx.lq.length⟩ else none

/-- The causes checked as soon as the bundle stands at the fetch address: ILLBUN, ILLOP, LQEMPTY
(03 R336, 13 R216). -/
def State.preTrap (s : State) (run : List (Option IWord)) : Option TrapReq :=
  let ws := run.filterMap (fun x => x)
  firstOf [s.illbun run, s.illopOf ws, s.lqShort ws]

/-- The causes of a bundle that a stream holds back: those of its words alone, since a descriptor may still change
before it can issue (03 R336, 07 R134; log entry 68). -/
def State.heldTrap (s : State) (run : List (Option IWord)) : Option TrapReq :=
  let ws := run.filterMap (fun x => x)
  firstOf [s.illbun run, illegalWords ws, s.lqShort ws]

/-- The bundle at the fetch address comes into issue (03 R24). -/
def State.enterBundle (s : State) (ws : List IWord) : State :=
  { s with badr := s.cx.pc, bundle := ws, widx := 0, ctl := .seq, stalled := false }

/-! ### Issue of several words -/

/-- A word of the bundle with its index and the values it pops. -/
structure Slotted where
  idx : Nat
  i : Instr
  w : WordSpec
  vals : List Reg

/-- The words of a bundle with their popped values, in word order (01 R6). -/
def slotWords : Nat → List Reg → List (Instr × WordSpec) → List Slotted
  | _, _, [] => []
  | k, vals, (i, w) :: t => ⟨k, i, w, vals.take w.pops⟩ :: slotWords (k + 1) (vals.drop w.pops) t

/-- The C words whose effect comes after every other word of the bundle: transfers, switches and
causes of completion kind (03 R23, 13 R214). -/
def transfers : Instr → Bool
  | .endTask | .yield | .jmp _ | .jmpl _ | .ret | .loop _ _ | .br _ _ _ | .call _ | .trap _ | .eret
  | .eretTo _ | .brk _ | .svc _ | .swapc | .waitb _ => true
  | _ => false

/-- The branch target of a C word that transfers to an address, if it is taken (05 R91). -/
def State.targetOf (s : State) : Instr → Option Word
  | .jmp a | .jmpl a => some (s.cx.sreg a).val
  | .ret => some (s.cx.sreg 61).val
  | .br k n off => if brTaken (s.cx.preg k).val n then some (s.badr + 4 * off.signExtend 64) else none
  | .call off => some (s.badr + 4 * off.signExtend 64)
  | _ => none

/-- The decision of a C word whose bundle waits in the replay buffer: computed with the values
read at issue, applied when the last slot performs (13 R221, R222). -/
def State.deferC (s : State) (x : Slotted) : Ctl × State :=
  match x.i with
  | .jmp _ | .jmpl _ | .ret | .br _ _ _ | .call _ =>
    match s.targetOf x.i with
    | none => (.seq, s)
    | some t =>
      if s.targetOk t then
        let s := x.w.effect s x.vals
        (s.ctl, s)
      else (.deferTrap 6 t, s)
  | .loop _ _ =>
    let s := x.w.effect s x.vals
    (s.ctl, s)
  | .trap n => (.deferTrap 10 (n.zeroExtend 64), s)
  | .brk n => (.deferTrap 11 (n.zeroExtend 64), s)
  | .svc n => (.deferTrap 17 (n.zeroExtend 64), s)
  | .eretTo a => (.deferEret (s.cx.sreg a).val, s)
  | i@.yield => (if s.yields then .deferWord i else .seq, s)
  | .waitb a =>
    match s.batchError (s.cx.sreg a).val with
    | some t => (.deferTrap 9 t, s.batchFree (s.cx.sreg a).val)
    | none => (.seq, s)
  | i => (.deferWord i, s)

/-- The C word of a bundle acts: at once, or, when the A word waits for its translation, later. -/
def State.actC (s : State) (x : Slotted) : State :=
  let s := s.atWord x.idx
  if s.ctl == .held then
    let (c, s) := { s with ctl := .seq }.deferC x
    { s with ctl := .held, cx := { s.cx with replay := s.cx.replay.map (fun r => { r with ctl := c }) } }
  else x.w.effect s x.vals

/-- Issue of a bundle that passed the checks of its words (03 R23, R26, R336; 13 R216): it stalls
while a popped entry is not back or a word cannot issue; the first cause in word order is delivered; else
every word acts. -/
def State.issueMany (s : State) (l : List (Instr × WordSpec)) : State :=
  let pops := (l.map (fun x => x.2.pops)).sum
  match lqValues pops s.cx.lq with
  | none => s.stallNow true
  | some vals =>
    let xs := slotWords 0 vals l
    let stalling := xs.filter (fun x => x.w.stall (s.atWord x.idx) x.vals pops)
    if !stalling.isEmpty then
      (stalling.foldl (fun (s : State) x => x.w.onStall (s.atWord x.idx) x.vals) s).stallNow false
    else
      match firstOf (xs.map (fun x => x.w.check (s.atWord x.idx) x.vals)) with
      | some t => s.trapIssue t
      | none =>
        let s := s.popLq pops
        let s := (xs.filter (fun x => !transfers x.i)).foldl
          (fun (s : State) x => x.w.effect (s.atWord x.idx) x.vals) s
        (xs.filter (fun x => transfers x.i)).foldl State.actC s

/-! ### The end of a bundle -/

/-- After a bundle has issued, the machine's other parts move before the core does in every eighth
cycle, so that a program that only polls sees them move (log entry 5). -/
def State.paced (s : State) : State := { s with stalled := s.cyc % 8 == 0 }

/-- A stall cycle: results in flight may land in it (03 R26). -/
def State.stallCycle (s : State) : State := { (s.tick true).landStalled with stalled := true }

/-- A cycle in which a pop of the bundle at the fetch address waits (10 R192). -/
def State.countLqWait (s : State) : State := { s with cx := { s.cx with lqwait := s.cx.lqwait + 1 } }

/-- The location of a record of the die's buffer in HBM (20 R307). -/
def State.traceLoc (s : State) (i : Nat) : Nat :=
  hbmLoc s.pkgid (Config.traceBase (s.coreid / 24) / 4096 * 4096 + 32 * (i % s.traceCap))

/-- The records made since are written into the die's buffer, in their order (20 R307). -/
def State.traceOut (s : State) : State :=
  let n := s.dbg.traced - s.dbg.written
  let news := (s.dbg.trace.drop (s.dbg.trace.length - n)).zipIdx
  let t := news.foldl (fun (t : State) (x : TraceRec × Nat) =>
    t.setWords (s.traceLoc (s.dbg.written + x.2)) [x.1.w0, x.1.badr, x.1.cycle, x.1.payload]) s
  { t with dbg := { t.dbg with written := t.dbg.traced } }

/-- A 32-bit word at a physical address. -/
def State.word32 (s : State) (pa : Nat) : Nat := s.readNat (hbmLoc s.pkgid pa) 4

/-- Bytes of the boot window: an image's header and the longest body (22 R323). -/
def bootWindow : Nat := 128 + 16 * 2 ^ 20

/-- How far the bytes from 0 on have all arrived, of some ranges. -/
def arrivedTo (l : List (Nat × Nat)) : Nat :=
  (List.range l.length).foldl (fun n _ => l.foldl (fun n r => if r.1 ≤ n then Nat.max n r.2 else n) n) 0

/-- Whether the last byte of an image has arrived: its header, and as many bytes as that says, at most the longest body
(22 R323; log entry 55). -/
def State.imageArrived (s : State) : Bool :=
  let n := arrivedTo s.host.arrived
  decide (128 ≤ n) && decide (128 + Nat.min (s.word32 4) (16 * 2 ^ 20) ≤ n)

/-- A host's write performs; a byte of the boot window is discarded while an image is verified or runs, and with the
last byte of an image the boot ROM begins to verify it (22 R320, R323). It clears no poison mark: a host is none of
the writers that do (06 R102). -/
def State.hostStore (s : State) (pa : Nat) (data : List Byte) : State :=
  let open_ := fun (a : Nat) => s.host.boot == 0 || decide (bootWindow ≤ a)
  let out := (data.zipIdx.map (fun (b, i) => (pa + i, b))).filter (fun e => open_ e.1)
  let t := (out.foldl (fun (s : State) e => s.setByte (hbmLoc s.pkgid e.1) e.2) s).wrote s none
    (out.map (fun e => hbmLoc s.pkgid e.1))
  if s.host.boot != 0 || decide (bootWindow ≤ pa) then t
  else
    let t := { t with host := { t.host with
      arrived := t.host.arrived ++ [(pa, Nat.min bootWindow (pa + data.length))] } }
    if t.imageArrived then { t with host := { t.host with boot := 1 } } else t

/-- Unordered host writes that have arrived perform in any order, each at a time of its own (22 R320; log entry
106). -/
def State.lateWrites (s : State) : State :=
  s.host.late.foldl (fun (s : State) e =>
    let (k, s) := s.choose 2
    if k = 0 then ({ s with host := { s.host with late := s.host.late.erase e } }).hostStore e.1 e.2 else s) s

/-- At the end of a cycle its records are out, and the tickets that have fallen due are issued (17 R278, 19 R300, 20
R307); host writes on their way may perform (22 R320). -/
def State.cycleEnd (s : State) : State := s.traceOut.issueDue.lateWrites

/-- What follows the bundle in issue: the next address of the loop test or of the transfer, a
stall cycle, or nothing where a trap or a switch has been made (05 R91, R93; 03 R26; 10 R192). -/
def State.finish (s : State) : State :=
  match s.ctl with
  | .seq =>
    let (s, next) := s.loopNext
    (s.advance next).cycleEnd.paced
  | .jump t => (s.advance t).cycleEnd.paced
  | .trapped => ({ s with cx := s.cx.noteIssued }).cycleEnd.paced
  | .stalled lqEmpty => (if lqEmpty then s.countLqWait else s).stallCycle.cycleEnd
  | .held => s.stallCycle.cycleEnd
  | .gone | .deferTrap _ _ | .deferEret _ | .deferWord _ => s.cycleEnd

/-- The deferred decision of a C word is applied (13 R221, R222). -/
def State.applyCtl (s : State) (c : Ctl) : State :=
  match c with
  | .deferTrap 6 t =>
    let next := s.nextAddr
    ((s.recordTrap 6 0).advance next).trap 6 t true next
  | .deferTrap 11 t => (brkWord (t.extractLsb' 0 14)).effect s []
  | .deferTrap 17 t => (svcWord (t.extractLsb' 0 14)).effect s []
  | .deferTrap n t => s.trapDone n t
  | .deferEret t => if s.targetOk t then s.eretJump t else s.branchTo t
  | .deferWord i =>
    match wordOf i with
    | some w => w.effect s []
    | none => s
  | c => { s with ctl := c }

/-- The A word of a held bundle is resolved by f, and the bundle completes with the saved decision
of its C word (13 R221, R222). -/
def State.replayEnd (s : State) (r : Replay) (f : State → State) : State :=
  let s := { s with badr := r.badr, bundle := r.words, widx := r.slot, ctl := .seq, stalled := false
                    cx := { s.cx with replay := none } }
  ((f s).applyCtl r.ctl).finish

/-- The last slot of a held bundle performs: the access enters its queue (13 R221, R222). -/
def State.replayDone (s : State) (r : Replay) (pa : Nat) : State :=
  s.replayEnd r (fun s => s.enqueue { r.acc with loc := hbmLoc s.pkgid pa, deps := [] } r.acc.deps)

/-- A walk for an `LDS` ends in a fault: its `lq` entry carries poison and nothing is accessed (06
R113). -/
def State.replayPoison (s : State) (r : Replay) : State :=
  s.replayEnd r (fun s =>
    let (x, s) := s.draw
    match r.acc.lq with
    | some e => { s with cx := s.cx.setLq e { val := x, poison := true } }
    | none => s)

/-! ### Trap delivery -/

/-- The first cause of issue kind that the bundle at the fetch address meets, once it could issue
(03 R336, 13 R216). -/
def State.issueTrap (s : State) : Option TrapReq :=
  let run := s.runAt 7 s.cx.pc
  let ws := run.filterMap (fun x => x)
  match s.preTrap run with
  | some t => some t
  | none =>
    let l := bundleSpecs ws
    let pops := (l.map (fun x => x.2.pops)).sum
    match lqValues pops s.cx.lq with
    | none => none
    | some vals =>
      let xs := slotWords 0 vals l
      if xs.any (fun x => x.w.stall (s.atWord x.idx) x.vals pops) then none
      else
        firstOf (xs.map (fun x => x.w.check (s.atWord x.idx) x.vals))

/-- Whether no bundle stands at the fetch address to be checked: the running context waits for its replay
buffer (13 R221), for the end of its task (05 R94), for a `TLBINV` (13 R230), or for an access at its source (16
R259). -/
def State.blocked (s : State) : Bool :=
  s.cx.replay.isSome || s.cx.ending || s.cx.tlbWait.isSome || s.sourced.isSome

/-- Whether a stream has reached its bound and has not landed, so that no bundle issues (07 R134). -/
def State.streamHold (s : State) : Bool :=
  s.cx.streams.any (fun t => decide (t.issued + t.lat + t.left ≤ s.cx.icyc))

/-- Whether the running context waits before its next bundle. -/
def State.mustWait (s : State) : Bool := s.blocked || s.streamHold

/-- Whether a pop of the bundle of some words names an entry of `lq` that is not back (10 R192). -/
def State.popWaits (s : State) (ws : List IWord) : Bool :=
  let need := ((bundleSpecs ws).map (fun x => x.2.pops)).sum
  decide (need ≤ s.cx.lq.length) && (lqValues need s.cx.lq).isNone

/-- Whether the bundle at the fetch address stalls in this cycle (03 R26, 07 R134, 20 R308). -/
def State.fetchStalls (s : State) : Bool :=
  let run := s.runAt 7 s.cx.pc
  let ws := run.filterMap (fun x => x)
  let s1 := s.enterBundle ws
  s.blocked || (s.streamHold && (s1.heldTrap run).isNone) || (!s.streamHold && (s1.preTrap run).isNone &&
    (let l := bundleSpecs ws
     let pops := (l.map (fun x => x.2.pops)).sum
     match lqValues pops s.cx.lq with
     | none => true
     | some vals => (slotWords 0 vals l).any (fun x => x.w.stall (s1.atWord x.idx) x.vals pops)))

/-- TRAP_DELIVERY: the bundle at the fetch address meets a cause of issue kind, which is delivered
(13 R217). -/
def State.trapDelivery (s : State) : State :=
  if !s.live || s.mustWait then s
  else
    let s1 := s.enterBundle ((s.runAt 7 s.cx.pc).filterMap (fun x => x))
    match s1.issueTrap with
    | some t => (s1.trapIssue t).finish
    | none => s

/-- The meaning of TRAP_DELIVERY. -/
def execTrapDelivery (s : State) : Out := .next s.trapDelivery

end Sys2Proof.Machine
end

