-- ==== Sys2Proof/Machine/Crypto.lean ====
section
/-!
DEFINITION. The two algorithms that boot and attestation name: SHA-256 (22 R323, R324) and ECDSA over P-256. The spec
names them and does not define them; they follow FIPS 180-4 and FIPS 186-4 (PRESUMED, log entry 105).
-/

namespace Sys2Proof.Machine

open Sys2Proof

/-! ### SHA-256 -/

/-- The round constants. -/
def shaK : List (BitVec 32) :=
  [0x428A2F98, 0x71374491, 0xB5C0FBCF, 0xE9B5DBA5, 0x3956C25B, 0x59F111F1, 0x923F82A4, 0xAB1C5ED5] ++
  [0xD807AA98, 0x12835B01, 0x243185BE, 0x550C7DC3, 0x72BE5D74, 0x80DEB1FE, 0x9BDC06A7, 0xC19BF174] ++
  [0xE49B69C1, 0xEFBE4786, 0x0FC19DC6, 0x240CA1CC, 0x2DE92C6F, 0x4A7484AA, 0x5CB0A9DC, 0x76F988DA] ++
  [0x983E5152, 0xA831C66D, 0xB00327C8, 0xBF597FC7, 0xC6E00BF3, 0xD5A79147, 0x06CA6351, 0x14292967] ++
  [0x27B70A85, 0x2E1B2138, 0x4D2C6DFC, 0x53380D13, 0x650A7354, 0x766A0ABB, 0x81C2C92E, 0x92722C85] ++
  [0xA2BFE8A1, 0xA81A664B, 0xC24B8B70, 0xC76C51A3, 0xD192E819, 0xD6990624, 0xF40E3585, 0x106AA070] ++
  [0x19A4C116, 0x1E376C08, 0x2748774C, 0x34B0BCB5, 0x391C0CB3, 0x4ED8AA4A, 0x5B9CCA4F, 0x682E6FF3] ++
  [0x748F82EE, 0x78A5636F, 0x84C87814, 0x8CC70208, 0x90BEFFFA, 0xA4506CEB, 0xBEF9A3F7, 0xC67178F2]

/-- The eight working words. -/
structure ShaState where
  a : BitVec 32
  b : BitVec 32
  c : BitVec 32
  d : BitVec 32
  e : BitVec 32
  f : BitVec 32
  g : BitVec 32
  h : BitVec 32
  deriving DecidableEq, Repr

/-- The initial hash value. -/
def shaInit : ShaState :=
  { a := 0x6A09E667, b := 0xBB67AE85, c := 0x3C6EF372, d := 0xA54FF53A, e := 0x510E527F, f := 0x9B05688C
    g := 0x1F83D9AB
    h := 0x5BE0CD19 }

/-- One round with the sum of a constant and a message word. -/
def ShaState.round (s : ShaState) (kw : BitVec 32) : ShaState :=
  let t := s.h + (s.e.rotateRight 6 ^^^ s.e.rotateRight 11 ^^^ s.e.rotateRight 25)
    + ((s.e &&& s.f) ^^^ (~~~s.e &&& s.g)) + kw
  let u := (s.a.rotateRight 2 ^^^ s.a.rotateRight 13 ^^^ s.a.rotateRight 22)
    + ((s.a &&& s.b) ^^^ (s.a &&& s.c) ^^^ (s.b &&& s.c))
  { a := t + u, b := s.a, c := s.b, d := s.c, e := s.d + t, f := s.e, g := s.f, h := s.g }

/-- The message schedule, the latest word first, n words longer. -/
def shaExtend : Nat → List (BitVec 32) → List (BitVec 32)
  | 0, l => l
  | n + 1, l =>
    let w := fun (k : Nat) => (l[k]?).getD 0
    let s0 := (w 14).rotateRight 7 ^^^ (w 14).rotateRight 18 ^^^ (w 14) >>> 3
    let s1 := (w 1).rotateRight 17 ^^^ (w 1).rotateRight 19 ^^^ (w 1) >>> 10
    shaExtend n ((s1 + w 6 + s0 + w 15) :: l)

/-- A number from bytes, the most significant first. -/
def natOfBE (l : List Byte) : Nat := l.foldl (fun n b => 256 * n + b.toNat) 0

/-- The n low bytes of a number, the most significant first. -/
def bytesBE (n x : Nat) : List Byte := (List.range n).map (fun i => BitVec.ofNat 8 (x / 256 ^ (n - 1 - i)))

/-- One block of 64 bytes. -/
def ShaState.block (s : ShaState) (b : List Byte) : ShaState :=
  let w := (List.range 16).map (fun i => BitVec.ofNat 32 (natOfBE ((b.drop (4 * i)).take 4)))
  let t := ((shaK.zip (shaExtend 48 w.reverse).reverse)).foldl (fun s x => s.round (x.1 + x.2)) s
  { a := s.a + t.a, b := s.b + t.b, c := s.c + t.c, d := s.d + t.d, e := s.e + t.e, f := s.f + t.f, g := s.g + t.g
    h := s.h + t.h }

/-- SHA-256 of a byte string, 32 bytes (22 R323, R324; log entry 105). -/
def sha256 (m : List Byte) : List Byte :=
  let p := m ++ [0x80] ++ List.replicate ((119 - m.length % 64) % 64) 0 ++ bytesBE 8 (8 * m.length)
  let s := (List.range (p.length / 64)).foldl (fun s i => ShaState.block s ((p.drop (64 * i)).take 64)) shaInit
  [s.a, s.b, s.c, s.d, s.e, s.f, s.g, s.h].flatMap (fun w => bytesBE 4 w.toNat)

/-! ### ECDSA over P-256 -/

/-- The prime of the field. -/
def p256P : Nat := 2 ^ 256 - 2 ^ 224 + 2 ^ 192 + 2 ^ 96 - 1

/-- The order of the base point. -/
def p256N : Nat := 0xFFFFFFFF00000000FFFFFFFFFFFFFFFFBCE6FAADA7179E84F3B9CAC2FC632551

/-- The base point. -/
def p256G : Nat × Nat :=
  (0x6B17D1F2E12C4247F8BCE6E563A440F277037D812DEB33A0F4A13945D898C296,
   0x4FE342E2FE1A7F9B8EE7EB4A7C0F9E162BCE33576B315ECECBB6406837BF51F5)

/-- The bits of a number below 2^256, the highest first. -/
def bits256 (x : Nat) : List Bool := (List.range 256).map (fun i => x.testBit (255 - i))

/-- x to the power e, modulo m. -/
def powMod (x e m : Nat) : Nat := (bits256 e).foldl (fun r b => (r * r % m) * (if b then x % m else 1) % m) 1

/-- The inverse modulo a prime. -/
def invMod (x m : Nat) : Nat := powMod x (m - 2) m

/-- The sum of two points of the curve y² = x³ − 3x + b; none is the point at infinity. -/
def pointAdd : Option (Nat × Nat) → Option (Nat × Nat) → Option (Nat × Nat)
  | none, q => q
  | p, none => p
  | some (x, y), some (u, v) =>
    if x = u ∧ (y + v) % p256P = 0 then none
    else
      let l :=
        if x = u then (3 * x * x + p256P - 3) * invMod (2 * y) p256P % p256P
        else (v + p256P - y) * invMod (u + p256P - x) p256P % p256P
      let z := (l * l + 2 * p256P - x - u) % p256P
      some (z, (l * (x + p256P - z) + p256P - y) % p256P)

/-- A multiple of a point. -/
def pointMul (k : Nat) (p : Nat × Nat) : Option (Nat × Nat) :=
  (bits256 k).foldl (fun r b =>
    let d := pointAdd r r
    if b then pointAdd d (some p) else d) none

/-- Whether a signature, r then s of 32 bytes each, verifies over a hash under a public key (22 R323). -/
def ecdsaVerifies (key : Nat × Nat) (hash sig : List Byte) : Bool :=
  let r := natOfBE (sig.take 32)
  let s := natOfBE ((sig.drop 32).take 32)
  let w := invMod s p256N
  decide (1 ≤ r) && decide (r < p256N) && decide (1 ≤ s) && decide (s < p256N)
  && (match pointAdd (pointMul (natOfBE hash * w % p256N) p256G) (pointMul (r * w % p256N) key) with
      | some (x, _) => x % p256N == r
      | none => false)

/-- A scalar of the group from any number: 1 to the order less one. -/
def scalarOf (x : Nat) : Nat := 1 + x % (p256N - 1)

/-- r and s of a signature over a hash with a private key and a secret number. -/
def ecdsaPair (key k : Nat) (hash : List Byte) : Nat × Nat :=
  let r := ((pointMul k p256G).map (·.1)).getD 0 % p256N
  (r, invMod k p256N * (natOfBE hash + r * key) % p256N)

/-- The device's private key, which stays in its fuses (22 R324). -/
def deviceKey : Nat := scalarOf Config.deviceKey

/-- The device's signature over a hash, 64 bytes, r then s: with the first of its secret numbers that leaves neither 0
(22 R324; log entry 105). -/
def deviceSign (hash : List Byte) : List Byte :=
  let pairs := (List.range 4).map (fun i => ecdsaPair deviceKey (scalarOf (Config.signSecret (natOfBE hash) i)) hash)
  let x := (pairs.find? (fun x => x.1 != 0 && x.2 != 0)).getD (1, 1)
  bytesBE 32 x.1 ++ bytesBE 32 x.2

/-- The device's public key, x then y (22 R324). -/
def devicePublic : List Byte :=
  let q := (pointMul deviceKey p256G).getD (0, 0)
  bytesBE 32 q.1 ++ bytesBE 32 q.2

/-- Whether the boot ROM's signature check passes on an image of header, signature and body (22 R323). -/
def imageVerifies (image : List Byte) : Bool :=
  ecdsaVerifies Config.vendorKey (sha256 (image.take 64 ++ image.drop 128)) ((image.drop 64).take 64)

end Sys2Proof.Machine
end

