-- ==== Sys2Proof/Machine/Chroner.lean ====
section
/-!
DEFINITION. Chroner, Lorjor's portable list (21 R314, R315): the register fields of a word, the records that the
loader accepts, and what the finalizer's code keeps of its list (R316, R318, R319).
-/

namespace Sys2Proof.Machine

open Sys2Proof

/-! ### The register fields of a word -/

/-- A register field of a word: its lowest bit, its width, whether it names a predicate, whether the word reads
and writes the register, and the place of bit 5 of a number that stands apart from the others (03 R27; 07 R141,
R153). -/
structure RegFld where
  lo : Nat
  width : Nat := 6
  pred : Bool := false
  rd : Bool := false
  wr : Bool := false
  top : Option Nat := none
  deriving DecidableEq, Repr

/-- A scalar register that is read. -/
def RegFld.s (lo : Nat) : RegFld := { lo := lo, rd := true }

/-- A scalar destination. -/
def RegFld.d (lo : Nat) : RegFld := { lo := lo, wr := true }

/-- A scalar destination that the word also reads. -/
def RegFld.both (lo : Nat) : RegFld := { lo := lo, rd := true, wr := true }

/-- A predicate that is read. -/
def RegFld.k (lo width : Nat) : RegFld := { lo := lo, width := width, pred := true, rd := true }

/-- A predicate destination. -/
def RegFld.kd : RegFld := { lo := 20, pred := true, wr := true }

/-- The scalar and predicate register fields of an instruction word, the highest first (03 R27, R36). -/
def regFields : Instr → List RegFld
  | .jmp _ | .jmpl _ | .loop _ _ | .eretTo _ | .check _ | .mts _ _ | .mark _ _ | .tlbinvPage _ | .tlbinvAsid _
  | .slkset _ _ | .wallow _ _ | .scld _ _ _ | .fmset _ _ | .waitb _ | .npost _ | .requeue _ | .barcfg _ _ => [.s 14]
  | .br _ _ _ => [.k 23 3]
  | .checkPred _ => [.k 14 6]
  | .mfs _ _ | .fmget _ _ | .commit _ | .bart _ _ => [.d 14]
  | .testb _ => [.both 14]
  | .add _ _ _ | .sub _ _ _ | .mul _ _ _ | .mulh _ _ _ | .mulhn _ _ _ | .div _ _ _ | .divn _ _ _ | .rem _ _ _
  | .remn _ _ _ | .and _ _ _ | .or _ _ _ | .xor _ _ _ | .andn _ _ _ | .shl _ _ _ | .shr _ _ _ | .sar _ _ _
  | .rotl _ _ _ | .min _ _ _ | .max _ _ _ | .minn _ _ _ | .maxn _ _ _ | .bfx _ _ _ | .lea _ _ _
  | .fadd _ _ _ _ | .fsub _ _ _ _ | .fmul _ _ _ _ | .fmin _ _ _ _ | .fmax _ _ _ _ | .fcpys _ _ _ _ =>
    [.d 20, .s 14, .s 8]
  | .bfi _ _ _ | .ffma _ _ _ _ => [.both 20, .s 14, .s 8]
  | .sel _ _ _ => [.both 20, .s 14, .k 8 6]
  | .clz _ _ | .popc _ _ | .sext _ _ _ | .zext _ _ _ | .addi _ _ _ | .andi _ _ _ | .ori _ _ _ | .xori _ _ _
  | .shli _ _ _ | .shri _ _ _ | .sari _ _ _ | .fabs _ _ _ | .fneg _ _ _ | .fcvti _ _ _ _ _ | .fcvtf _ _ _ _ _
  | .fcvtw _ _ _ _ => [.d 20, .s 14]
  | .movi _ _ | .dget _ _ _ => [.d 20]
  | .movk _ _ _ => [.both 20]
  | .cmp _ _ _ _ | .fcmp _ _ _ _ | .tst _ _ _ _ => [.kd, .s 14, .s 8]
  | .plog _ _ _ _ => [.kd, .k 14 6, .k 8 6]
  | .ld _ _ _ _ | .lds _ _ _ _ | .ldc _ _ _ _ | .ldf _ _ _ _ | .ldfe _ _ _ _ | .sete _ _ _ _ | .setf _ _ _ _
  | .tagq _ _ _ _ => [.s 14]
  | .st _ _ _ _ _ | .stf _ _ _ _ _ | .ste _ _ _ _ _ | .aadd _ _ _ _ _ | .amin _ _ _ _ _ | .amax _ _ _ _ _
  | .aminn _ _ _ _ _ | .amaxn _ _ _ _ _ | .aand _ _ _ _ _ | .aor _ _ _ _ _ | .axor _ _ _ _ _ | .aswp _ _ _ _ _
  | .afadd _ _ _ _ _ | .acas _ _ _ _ _ => [.s 20, .s 14]
  | .vadd _ _ _ _ | .vsub _ _ _ _ | .vmul _ _ _ _ | .vfma _ _ _ _ | .vmin _ _ _ _ | .vmax _ _ _ _ | .vabs _ _ _
  | .vneg _ _ _ | .vand _ _ _ _ | .vor _ _ _ _ | .vxor _ _ _ _ | .vshl _ _ _ _ | .vshr _ _ _ _ | .vsel _ _ _ _
  | .vcopy _ _ _ | .vfill _ _ _ | .viota _ _ | .vexp2 _ _ _ | .vlog2 _ _ _ | .vrcp _ _ _ | .vrsq _ _ _
  | .vsig _ _ _ | .vtanh _ _ _ | .vgelu _ _ _ | .vcomp _ _ _ _ | .vexpd _ _ _ _ | .vgath _ _ _ _ | .vscat _ _ _ _
  | .vtrn _ _ _ => [.k 8 3]
  | .dset _ _ _ => [.s 14, .s 8]
  | .dadv _ _ | .dcnt _ _ => [.s 8]
  | .rdrn _ _ => [{ lo := 16, width := 5, wr := true, top := some 11 }]
  | .chset _ _ => [{ lo := 16, width := 5, rd := true, top := some 11 }]
  | .cpy _ _ pt _ | .cpyt _ _ pt _ | .cpyp _ _ pt _ | .cpyg _ _ pt _ | .cpyw _ _ pt _ | .cpyc _ _ pt _ =>
    [.s 20, if pt == 0 then { lo := 14 } else .s 14]
  | .cpost _ _ | .ccancel _ _ | .cquery _ _ | .tsend _ _ => [.s 20]
  | _ => []

/-- The number in a register field of a word. -/
def RegFld.num (f : RegFld) (w : IWord) : Nat :=
  (fld w f.lo f.width).toNat + (if f.top.any (fun t => w.getLsbD t) then 32 else 0)

/-- The register that a field of a word names: 0 to 63, or 100 and the number of a predicate. -/
def RegFld.reg (f : RegFld) (w : IWord) : Nat := (if f.pred then 100 else 0) + f.num w

/-- The registers a word reads: the fields from the highest bit position downward, a destination that it also reads
last (21 R314). -/
def srcsOf (i : Instr) (w : IWord) : List Nat :=
  (((regFields i).filter (fun f => f.rd && !f.wr)) ++ ((regFields i).filter (fun f => f.rd && f.wr))).map
    (fun f => f.reg w)

/-- The register a word writes by a field of its own. -/
def destOf (i : Instr) (w : IWord) : Option Nat := ((regFields i).find? (fun f => f.wr)).map (fun f => f.reg w)

/-- Whether a word brings a value through `lq` (06 R112 to R119). -/
def fetches : Instr → Bool
  | .ld _ _ _ _ | .lds _ _ _ _ | .ldc _ _ _ _ | .ldf _ _ _ _ | .ldfe _ _ _ _ | .tagq _ _ _ _ => true
  | .aadd _ _ _ _ f | .amin _ _ _ _ f | .amax _ _ _ _ f | .aminn _ _ _ _ f | .amaxn _ _ _ _ f | .aand _ _ _ _ f
  | .aor _ _ _ _ f | .axor _ _ _ _ f | .aswp _ _ _ _ f | .afadd _ _ _ _ f | .acas _ _ _ _ f => f == 1
  | _ => false

/-- Whether a word produces a scalar or predicate value, or the data of a load. -/
def produces (i : Instr) : Bool := (regFields i).any (·.wr) || fetches i

/-- The bits of a word that a finalizer may change: the chain bit, the register fields, and the counts of words in
branches and loops (21 R315, R316). -/
def freeBits (i : Instr) : IWord :=
  (regFields i).foldl (fun m f =>
      m ||| BitVec.ofNat 32 ((2 ^ f.width - 1) * 2 ^ f.lo) ||| (f.top.map (fun t => BitVec.ofNat 32 (2 ^ t))).getD 0)
    (match i with
     | .br _ _ _ => 0x803FFFFF
     | .call _ => 0x83FFFFFF
     | .loop _ _ => 0x80003FFF
     | _ => 0x80000000)

/-- Cycles until the register a word writes may be relied on (03 R28). -/
def boundOf : Instr → Nat
  | .mul _ _ _ | .mulh _ _ _ | .mulhn _ _ _ | .rdrn _ _ => 3
  | .div _ _ _ | .divn _ _ _ | .rem _ _ _ | .remn _ _ _ => 24
  | .clz _ _ | .popc _ _ | .fmin _ _ _ _ | .fmax _ _ _ _ | .fcmp _ _ _ _ | .mfs _ _ | .fmget _ _
  | .dget _ _ _ => 2
  | .fadd p _ _ _ | .fsub p _ _ _ | .fmul p _ _ _ | .ffma p _ _ _ => if p == 0 then 4 else 6
  | .fcvti _ _ _ _ _ | .fcvtf _ _ _ _ _ | .fcvtw _ _ _ _ => 4
  | _ => 1

/-- Whether a word does nothing but read registers and write one: the records that a finalizer moves past others. -/
def isScalar : Instr → Bool
  | .add _ _ _ | .sub _ _ _ | .mul _ _ _ | .mulh _ _ _ | .mulhn _ _ _ | .and _ _ _ | .or _ _ _ | .xor _ _ _
  | .andn _ _ _ | .shl _ _ _ | .shr _ _ _ | .sar _ _ _ | .rotl _ _ _ | .min _ _ _ | .max _ _ _ | .minn _ _ _
  | .maxn _ _ _ | .clz _ _ | .popc _ _ | .sext _ _ _ | .zext _ _ _ | .addi _ _ _ | .andi _ _ _ | .ori _ _ _
  | .xori _ _ _ | .shli _ _ _ | .shri _ _ _ | .sari _ _ _ | .movi _ _ | .movk _ _ _ | .fabs _ _ _ | .fneg _ _ _
  | .fcpys _ _ _ _ | .cmp _ _ _ _ | .plog _ _ _ _ | .tst _ _ _ _ | .bfx _ _ _ | .bfi _ _ _ | .lea _ _ _
  | .sel _ _ _ => true
  | _ => false

/-- The highest accumulator tile a word names (08 R168, R173, R177). -/
def tileOf : Instr → Option Nat
  | .mstep acc wide _ _ _ _ _ => some (acc.toNat + wide.toNat)
  | .mzero n wide _ _ => some (n.toNat + wide.toNat)
  | .mdrain _ n _ _ => some n.toNat
  | .mlda n _ _ _ => some n.toNat
  | _ => none

/-- The scalar registers a word names; `ACAS` names the one after its value field too (06 R119). -/
def sNames (i : Instr) (w : IWord) : List Nat :=
  ((regFields i).filter (fun f => !f.pred)).map (fun f => f.reg w)
  ++ (match i with
      | .acas v _ _ _ _ => [v.toNat + 1]
      | _ => [])

/-- Whether the loader refuses a word: an experimental one of another stepping, a tile above accs (21 R317). -/
def stepRefused (accs : Nat) (i : Instr) : Bool :=
  (match i with | .exper step _ => step != Config.steppingId | _ => false)
  || (match tileOf i with | some t => decide (accs ≤ t) | none => false)

/-- Whether the loader refuses an OQA word, for a register above regs other than s61 and s62 too (21 R317). -/
def wordRefused (regs accs : Nat) (w : IWord) : Bool :=
  match decode w with
  | some i => stepRefused accs i || (sNames i w).any (fun r => decide (regs < r) && decide (r < 61))
  | none => false

/-! ### Records -/

/-- The instruction of an operation record (21 R314). -/
def recInstr (r : Word) : Option Instr := decode (r.extractLsb' 0 32)

/-- Kind of a record. -/
def recKind (r : Word) : Nat := bitsOf r 62 2

/-- The operation at an index. -/
def opAt (recs : List Word) (i : Nat) : Option Instr :=
  (recs[i]?).bind (fun r => if recKind r = 0 then recInstr r else none)

/-- Field k of a record's three distances, as a number without a sign. -/
def recDist (r : Word) (k : Nat) : Nat := bitsOf r (52 - 10 * k) 10

/-- Whether a record produces a value that a later one may name (21 R314). -/
def recValue (r : Word) : Bool :=
  match recKind r with
  | 0 => ((recInstr r).map produces).getD false
  | 2 => false
  | _ => true

/-- Whether backward distance d at record i names a value: a record that has one, or the task-start
value of s1 to s5 (21 R314). -/
def distOk (recs : List Word) (i : Nat) (d : Int) : Bool :=
  let j : Int := i - d
  if j < 0 then decide (-5 ≤ j)
  else (recs[j.toNat]?).any recValue

/-- The record a branch at i goes to (21 R315). -/
def recTarget (recs : List Word) (i : Nat) : Option Int :=
  match opAt recs i with
  | some (.br _ _ off) => some (i + off.toInt)
  | some (.call off) => some (i + off.toInt)
  | _ => none

/-- Whether the record at an index is a label. -/
def isLabel (recs : List Word) (j : Int) : Bool :=
  decide (0 ≤ j) && (recs[j.toNat]?).any (fun r => recKind r == 2)

/-- The named barrier a word names (14 R244). -/
def barrierOf : Instr → Option Nat
  | .bara n | .barw n | .bart _ n | .barcfg _ n => some n.toNat
  | _ => none

/-- An operation record (21 R314, R315): the word decodes and is legal, its chain bit and its s and k
fields are 0; each source's distance is 0 or names a value, the others are 0; its branch goes to a
label, its loop body lies in the list; no word the loader refuses, and no barrier that the kernel does not request
(R317; 14 R244). -/
def recOpOk (accs barriers : Nat) (recs : List Word) (i : Nat) (r : Word) : Bool :=
  let w : IWord := r.extractLsb' 0 32
  match decode w with
  | none => false
  | some op =>
    op.wf && !chainBit w && !stepRefused accs op
    && (barrierOf op).all (fun n => decide (n < barriers)) && (regFields op).all (fun f => f.num w == 0)
    && (List.range 3).all (fun k =>
      recDist r k == 0 || (decide (k < (srcsOf op w).length) && distOk recs i (recDist r k)))
    && (match recTarget recs i with | some t => isLabel recs t | none => true)
    && (match op with | .loop _ n => decide (i + n.toNat < recs.length) | _ => true)

/-- The label a join at i belongs to: joins stand directly after it (21 R315). -/
def labelBefore (recs : List Word) : Nat → Option Nat
  | 0 => none
  | i + 1 =>
    match recs[i]? with
    | some r => if recKind r = 2 then some i else if recKind r = 3 then labelBefore recs i else none
    | none => none

/-- The records that branch to a label, in ascending order. -/
def branchesTo (recs : List Word) (l : Nat) : List Nat :=
  (List.range recs.length).filter (fun j => recTarget recs j == some (l : Int))

/-- The distance of a join's edge, signed. -/
def joinDist (r : Word) (k : Nat) : Int := intOfCode true 10 (recDist r k)

/-- A join record (21 R314, R315): one distance for each edge into its label, the fall-through first,
each naming a value, forward too, or the join itself. -/
def recJoinOk (recs : List Word) (i : Nat) (r : Word) : Bool :=
  match labelBefore recs i with
  | none => false
  | some l =>
    let edges := 1 + (branchesTo recs l).length
    bitsOf r 0 32 == 0 && decide (edges ≤ 3)
    && (List.range 3).all (fun k => if k < edges then distOk recs i (joinDist r k) else recDist r k == 0)

/-- Whether every record of a list is accepted (21 R314, R315, R317). -/
def chronerOk (accs barriers : Nat) (recs : List Word) : Bool :=
  recs.zipIdx.all (fun (r, i) =>
    match recKind r with
    | 0 => recOpOk accs barriers recs i r
    | 1 => true
    | 2 => bitsOf r 0 62 == 0
    | _ => recJoinOk recs i r)

/-! ### What a finalised code keeps -/

/-- The value that distance d at record i names: that of a record, or the constant of a literal (21 R314). -/
def nameAt (recs : List Word) (i : Nat) (d : Int) : Named :=
  let j : Int := i - d
  match (if j < 0 then none else recs[j.toNat]?) with
  | some r => if recKind r = 1 then .const ((r.extractLsb' 0 62 : BitVec 62).signExtend 64) else .record j
  | none => .record j

/-- A source register of a word that is to read a value: it holds it and no bound is running, or it is the entry that
`lq` pops; what is left of `lq` (03 R31, 01 R6). -/
def Account.gives (h : Account) (lq : List Named) (loc : Nat) (v : Named) : Option (List Named) :=
  if loc = 63 then
    match lq with
    | x :: rest => if x == v then some rest else none
    | [] => none
  else if (loc == 0 && v == .const 0) || h.holds.any (fun x => x.loc == loc && x.val == v && x.wait == 0) then some lq
  else none

/-- A source of distance 0 is none: its register is k0, or s0 or one that holds 0; any other reads the value it
names. -/
def Account.reads (h : Account) (recs : List Word) (i : Nat) (r : Word) (lq : Option (List Named)) (x : Nat × Nat) :
    Option (List Named) :=
  lq.bind (fun lq =>
    if recDist r x.2 = 0 then (if x.1 = 100 then some lq else h.gives lq x.1 (.const 0))
    else h.gives lq x.1 (nameAt recs i (recDist r x.2)))

/-- What a register holds that may be read, by the names of its values. -/
def Account.known (h : Account) (loc : Nat) : List Named :=
  if loc = 0 then [.const 0] else (h.holds.filter (fun x => x.loc == loc && x.wait == 0)).map (·.val)

/-- Descriptors, format registers and scale entries as places of an account. -/
def descPlaces : List Nat := (List.range 32).map (200 + ·)
/-- The format registers and scale entries. -/
def tablePlaces : List Nat := (List.range 32).map (260 + ·)

/-- The states that a word writes without a register field, each with its bound in cycles; that of a `VCOMP` is the one
of the longest stream (03 R28, R30; 07 R144). -/
def hiddenWrites : Instr → List (Nat × Nat)
  | .dset d _ _ => [(200 + d.toNat % 32, 1)]
  | .dadv d _ | .dcnt d _ => [(200 + d.toNat % 32, 1)]
  | .vcomp d _ _ _ => [(200 + d.toNat % 32, 8 + 1024)]
  | .fmset _ n => [(260 + n.toNat, 1)]
  | .scld _ n e => (List.range (n.toNat + 1)).map (fun k => (276 + (e.toNat + k) % 16, 6))
  | .mts _ n => [(1000 + n.toNat, 2)]
  | _ => []

/-- The states that a word reads without a register field: streams and shuttle commands may use any descriptor, format
and scale entry, copies any format and scale entry (07 R127, R130; 08 R173; 10 R200). -/
def hiddenReads (w : IWord) (i : Instr) : List Nat :=
  match i with
  | .dset _ _ _ | .chset _ _ => []
  | .dget _ d _ | .dadv d _ | .dcnt d _ => [200 + d.toNat % 32]
  | .fmget _ n => [260 + n.toNat]
  | .mfs _ n => [1000 + n.toNat]
  | .eret | .eretTo _ => [0x008, 0x009, 0x00A, 0x020, 0x021, 0x022].map (1000 + ·)
  | _ =>
    match pipeOf w with
    | some .v | some .r | some .m => descPlaces ++ tablePlaces
    | some .x => tablePlaces
    | _ => []

/-- Whether no bound runs on what a word reads without a register field, nor on the second value of an `ACAS`, which no
field names (06 R119); and whether a `RET` finds the return address (05 R91). -/
def Account.settled (h : Account) (w : IWord) (i : Instr) : Bool :=
  let quiet := fun (loc : Nat) => !h.holds.any (fun x => x.loc == loc && x.wait != 0)
  (hiddenReads w i).all quiet
  && (match i with
      | .acas v _ _ _ _ => quiet (v.toNat + 1)
      | .ret => h.holds.any (fun x => x.loc == 61 && x.val == .link && x.wait == 0)
      | _ => true)

/-- What a word writes without a register field of its own: the return address of a call among it. -/
def hiddenHolds (i : Instr) : List Holds :=
  (hiddenWrites i).map (fun x => ⟨x.1, .other, x.2⟩)
  ++ (match i with
      | .call _ | .jmpl _ => [⟨61, .link, 1⟩]
      | _ => [])

/-- What a word makes of the entries of `lq` and of the registers: a word that carries out a record has that record's
word and reads the values it names; a word that carries out none expands a literal, copies a register, or does
nothing (21 R316). -/
def Account.word (h : Account) (recs : List Word) (rec : Option Nat) (w : IWord)
    (x : Option (List Named × List Holds)) : Option (List Named × List Holds) :=
  match x, decode w with
  | some (lq, new), some op =>
    match rec with
    | some i =>
      match recs[i]? with
      | some r =>
        if (opAt recs i).isNone || !h.settled w op || (w ^^^ r.extractLsb' 0 32) &&& ~~~freeBits op != 0 then none
        else
          (((srcsOf op w).zipIdx.foldl (h.reads recs i r) (some lq))).map (fun lq =>
            (if fetches op then lq ++ [.record i] else lq,
             new ++ (destOf op w).toList.map (fun l => ⟨l, .record i, boundOf op⟩) ++ hiddenHolds op))
      | none => none
    | none =>
      match op with
      | .nop => some (lq, new)
      | .movi d imm => some (lq, new ++ [⟨d.toNat, .const (imm.signExtend 64), 1⟩])
      | .movk d sh imm =>
        some (lq, new ++ (h.known d.toNat).filterMap (fun v =>
          match v with
          | .const c => some ⟨d.toNat, .const (movkOp sh imm c), 1⟩
          | _ => none))
      | .add d a b =>
        if b != 0 then none
        else if a == 63 then
          match lq with
          | v :: rest => some (rest, new ++ [⟨d.toNat, v, 1⟩])
          | [] => none
        else some (lq, new ++ (h.known a.toNat).map (fun v => ⟨d.toNat, v, 1⟩))
      | .plog d a b c =>
        if a == b && c == 8 then some (lq, new ++ (h.known (100 + a.toNat)).map (fun v => ⟨100 + d.toNat, v, 1⟩))
        else none
      | _ => none
  | _, _ => none

/-- What a task starts with: s1 to s5, and s61 as it stands (05 R74). -/
def startAccount : Account :=
  { holds := ⟨61, .link, 0⟩ :: (List.range 5).map (fun (k : Nat) => ⟨k + 1, .record (-1 - (k : Int)), 0⟩) }

/-- The words of a finalised code. -/
def Finalized.words (f : Finalized) : List IWord :=
  (List.range (f.code.length / 4)).map (fun k => BitVec.ofNat 32 (natOfBytes ((f.code.drop (4 * k)).take 4)))

/-- Whether a bundle starts at a word (03 R22). -/
def startsAt (ws : List IWord) (p : Nat) : Bool := p == 0 || !((ws[p - 1]?).any chainBit)

/-- The words of the bundle that starts at a word. -/
def runFrom : List IWord → List IWord
  | [] => []
  | w :: l => if chainBit w then w :: runFrom l else [w]

/-- The account of the bundle at a word. -/
def Finalized.account (f : Finalized) (p : Nat) : Account := ((f.accounts.find? (fun e => e.1 == p)).map (·.2)).getD {}

/-- The record a word carries out. -/
def Finalized.recOf (f : Finalized) (p : Nat) : Option Nat := (f.does[p]?).join

/-- Whether a word of a bundle reads, without a register field, what another writes that carries out an earlier record:
it would read the old state (03 R31). -/
def Finalized.early (f : Finalized) (p : Nat) (b : List IWord) : Bool :=
  let l := b.zipIdx.filterMap (fun (w, k) =>
    match decode w, f.recOf (p + k) with
    | some op, some i => some (i, (hiddenWrites op).map (·.1), hiddenReads w op)
    | _, _ => none)
  l.any (fun x => l.any (fun y => decide (x.1 < y.1) && x.2.1.any y.2.2.contains))

/-- The places that a word writes. -/
def placesOf (w : IWord) : List Nat :=
  destsOf w ++ (((decode w).map hiddenWrites).getD []).map (·.1)

/-- The account after the bundle at word p, one cycle later: each result in flight is a cycle nearer, and what the
bundle writes is no longer held elsewhere. None where a word does not keep its record, or writes a register whose
earlier bound still runs (03 R32). -/
def Finalized.after (f : Finalized) (recs : List Word) (p : Nat) : Option Account :=
  let h := f.account p
  let b := runFrom (f.words.drop p)
  let done := (List.range b.length).filterMap (fun k => f.recOf (p + k))
  (b.zipIdx.foldl (fun x (w, k) => h.word recs (f.recOf (p + k)) w x) (some (h.lq, []))).bind (fun (lq, new) =>
    let new := new.filter (fun x => x.loc != 0 && x.loc != 100)
    let dests := b.flatMap placesOf
    if f.early p b || h.holds.any (fun x => dests.contains x.loc && x.wait != 0)
        || done.any (fun i => h.lq.contains (.record i)) then none
    else
      some { lq := lq
             holds := ((h.holds.filter (fun x => !dests.contains x.loc
                 && !done.any (fun i => x.val == .record i))) ++ new).map (fun x => { x with wait := x.wait - 1 }) })

/-- The joins that stand after a label. -/
def joinsOf (recs : List Word) (l : Nat) : List Nat :=
  (List.range recs.length).filter (fun i =>
    (recs[i]?).any (fun r => recKind r == 3) && labelBefore recs i == some l)

/-- Passing a label on one of its edges: each of its joins names the value that the edge brings (21 R315). -/
def Account.enter (recs : List Word) (edge l : Nat) (h : Account) : Account :=
  let js := joinsOf recs l
  let from_ := fun (j : Nat) => nameAt recs j (joinDist ((recs[j]?).getD 0) edge)
  let new := fun (v : Named) => (js.filter (fun j => from_ j == v)).map (fun (j : Nat) => Named.record j)
  let stale := fun (v : Named) => js.any (fun j => v == .record j)
  { holds := h.holds.flatMap (fun x =>
      (if stale x.val then [] else [x]) ++ (new x.val).map (fun v => { x with val := v }))
    lq := h.lq.map (fun v => ((new v).head?).getD v) }

/-- Whether a bundle's account follows from what reaches it: it claims nothing that is not so, and leaves out no
bound that still runs. -/
def Account.follows (next h : Account) : Bool :=
  next.lq == h.lq
  && next.holds.all (fun x => x.val == .other || h.holds.any (fun y =>
      y.loc == x.loc && y.val == x.val && decide (y.wait ≤ x.wait)))
  && h.holds.all (fun y => y.wait == 0 || next.holds.any (fun x => x.loc == y.loc && decide (y.wait ≤ x.wait)))

/-- The labels that stand at a word, in the order of the list. -/
def Finalized.labelsAt (f : Finalized) (recs : List Word) (p : Nat) : List Nat :=
  (List.range recs.length).filter (fun l => f.labels.contains (l, p))

/-- The word at which a record's branch arrives. -/
def Finalized.wordOfLabel (f : Finalized) (l : Int) : Option Nat :=
  (f.labels.find? (fun e => (e.1 : Int) == l)).map (·.2)

/-- What an edge to a word brings: passing all of its labels, or from a branch record to one of them. -/
def Finalized.arrive (f : Finalized) (recs : List Word) (h : Account) (p : Nat) (branch : Option Nat) : Account :=
  let ls := f.labelsAt recs p
  let all := fun (ls : List Nat) (h : Account) => ls.foldl (fun h l => h.enter recs 0 l) h
  match branch with
  | none => all ls h
  | some i =>
    match recTarget recs i with
    | some (.ofNat l) =>
      all (ls.filter (fun x => decide (l < x))) (h.enter recs (1 + ((branchesTo recs l).idxOf i)) l)
    | _ => h

/-- The word to which the branch or call at a word goes, with its record. -/
def Finalized.goes (f : Finalized) (recs : List Word) (p : Nat) : Option (Nat × Option Nat) :=
  (f.recOf p).bind (fun i => (recTarget recs i).bind (fun t => (f.wordOfLabel t).map (fun q => (q, some i))))

/-- The C word of the bundle at a word, with its index. -/
def Finalized.cWord (f : Finalized) (p : Nat) : Option (Instr × Nat) :=
  ((runFrom (f.words.drop p)).zipIdx.find? (fun (w, _) => pipeOf w == some .c)).bind (fun (w, k) =>
    (decode w).map (fun i => (i, p + k)))

/-- The words that follow the bundle at word p, with the branch record that leads there: in sequence, by a branch, by
the end of a loop. A `JMP` goes where no record of the list stands; a `JMPL` goes there too and comes back (05 R91, R93;
log entry 24). -/
def Finalized.next (f : Finalized) (recs : List Word) (p : Nat) : List (Nat × Option Nat) :=
  let e := p + (runFrom (f.words.drop p)).length
  let seq := (e, none) :: (f.words.zipIdx.filterMap (fun (w, q) =>
    match decode w with
    | some (.loop _ n) =>
      let lbeg := q + (runFrom (f.words.drop q)).length
      if lbeg + n.toNat = e then some (lbeg, none) else none
    | _ => none))
  match f.cWord p with
  | some (.br _ _ _, q) => (f.goes recs q).toList ++ seq
  | some (.call _, q) => (f.goes recs q).toList
  | some (.loop _ n, _) => [(e, none), (e + n.toNat, none)]
  | some (.jmpl _, _) => [(e, none)]
  | some (.jmp _, _) | some (.ret, _) | some (.endTask, _) | some (.eret, _) | some (.eretTo _, _) => []
  | _ => seq

/-- The bundles that a call may run before it returns. -/
def Finalized.reach (f : Finalized) (recs : List Word) : Nat → List Nat → List Nat
  | 0, l => l
  | fuel + 1, l =>
    f.reach recs fuel ((l.flatMap (fun p => p :: (f.next recs p).map (·.1)
      ++ (match f.cWord p with
          | some (.call _, _) => [p + (runFrom (f.words.drop p)).length]
          | _ => []))).eraseDups)

/-- What holds after a call at word p returns: what its `RET`s bring, and what held after the call and the called code
leaves alone (05 R91). -/
def Finalized.returned (f : Finalized) (recs : List Word) (h : Account) (q : Nat) : List Account :=
  let l := f.reach recs f.words.length [q]
  let dests := l.flatMap (fun p => (runFrom (f.words.drop p)).flatMap placesOf)
  let done := l.flatMap (fun p => (List.range (runFrom (f.words.drop p)).length).filterMap (fun k => f.recOf (p + k)))
    ++ (l.flatMap (f.labelsAt recs)).flatMap (joinsOf recs)
  let keep := h.holds.filter (fun x => !dests.contains x.loc && !done.any (fun i => x.val == .record i))
  (l.filter (fun p => (f.cWord p).any (fun x => x.1 == .ret))).filterMap (fun p =>
    (f.after recs p).map (fun a => { a with holds := a.holds ++ keep }))

/-- What reaches each word that follows the bundle at word p, given the account after it. -/
def Finalized.arrivals (f : Finalized) (recs : List Word) (p : Nat) (h : Account) : List (Nat × Account) :=
  let e := p + (runFrom (f.words.drop p)).length
  (f.next recs p).map (fun (q, br) => (q, f.arrive recs h q br))
  ++ (match f.cWord p with
      | some (.call _, k) =>
        match f.goes recs k with
        | some (q, _) => (f.returned recs h q).map (fun a => (e, f.arrive recs a e none))
        | none => []
      | _ => [])

/-- The bundle a word stands in. -/
def bundleIdx (ws : List IWord) (p : Nat) : Nat := ((ws.take p).filter (fun w => !chainBit w)).length

/-- The word that carries out a record. -/
def Finalized.place (f : Finalized) (i : Nat) : Nat := f.does.idxOf (some i)

/-- Whether a record transfers control. -/
def recTransfers (recs : List Word) (i : Nat) : Bool :=
  match opAt recs i with
  | some (.br _ _ _) | some (.call _) | some (.loop _ _) | some (.jmp _) | some (.jmpl _) | some .ret | some .endTask
  | some .eret | some (.eretTo _) => true
  | _ => false

/-- Whether the words of two records i < j keep their order: in program order unless one of them is a scalar record;
neither past a transfer or a label that lies between (21 R316). -/
def Finalized.ordered (f : Finalized) (recs : List Word) (i j : Nat) : Bool :=
  let ws := f.words
  let at_ := fun (k : Nat) => bundleIdx ws (f.place k)
  match opAt recs i, opAt recs j with
  | some a, some b =>
    (isScalar a || isScalar b || decide (f.place i < f.place j))
    && (!recTransfers recs i || decide (at_ i < at_ j)) && (!recTransfers recs j || decide (at_ i ≤ at_ j))
  | some _, none =>
    !isLabel recs j || (f.wordOfLabel j).any (fun p => decide (at_ i < bundleIdx ws p))
  | none, some _ =>
    !isLabel recs i || (f.wordOfLabel i).any (fun p => decide (bundleIdx ws p ≤ at_ j))
  | none, none =>
    !(isLabel recs i && isLabel recs j) || (match f.wordOfLabel i, f.wordOfLabel j with
      | some p, some q => decide (p ≤ q)
      | _, _ => false)

/-- Whether the branch or loop at word p counts words to where its record counts records (21 R315). -/
def Finalized.countsOk (f : Finalized) (recs : List Word) (p : Nat) (w : IWord) : Bool :=
  let start := ((List.range (p + 1)).filter (startsAt f.words)).getLast?.getD 0
  let to_ := fun (i : Nat) (off : Int) =>
    (recTarget recs i).bind f.wordOfLabel == some ((start : Int) + off).toNat && decide (0 ≤ (start : Int) + off)
  match decode w, f.recOf p with
  | some (.br _ _ off), some i => to_ i off.toInt
  | some (.call off), some i => to_ i off.toInt
  | some (.loop _ n), some i =>
    let lbeg := start + (runFrom (f.words.drop start)).length
    match opAt recs i with
    | some (.loop _ m) =>
      (List.range f.words.length).all (fun q =>
        match f.recOf q with
        | some j => (decide (lbeg ≤ q) && decide (q < lbeg + n.toNat)) == (decide (i < j) && decide (j ≤ i + m.toNat))
        | none => true)
    | _ => false
  | _, _ => true

/-- Whether a finalised code keeps its list: its words are legal and stand in legal bundles; each operation is carried
out by one word, in its order, and reads what it names, with no bound of a result it reads still running (21 R316,
R318, R319; log entry 24). -/
def Finalized.keeps (f : Finalized) (recs : List Word) : Bool :=
  let ws := f.words
  let starts := (List.range ws.length).filter (startsAt ws)
  ws.all (fun w => !wordIllegal w)
  && starts.all (fun p =>
      let run := ((runFrom (ws.drop p)).take 7).map some
      (ws.getLast?.all (fun w => !chainBit w)) && (List.range run.length).all (fun k => (breach p run k).isNone))
  && f.does.length == ws.length
  && (List.range recs.length).all (fun i => f.does.count (some i) == if (opAt recs i).isSome then 1 else 0)
  && f.does.all (fun x => match x with | some i => decide (i < recs.length) | none => true)
  && (List.range recs.length).all (fun i => !isLabel recs i || (f.wordOfLabel i).any (fun p =>
      startsAt ws p && decide (p ≤ ws.length)))
  && (List.range recs.length).all (fun j => (List.range j).all (fun i => f.ordered recs i j))
  && ws.zipIdx.all (fun (w, p) => f.countsOk recs p w)
  && (decide (ws.length = 0) || (f.account 0).follows (f.arrive recs startAccount 0 none))
  && starts.all (fun p =>
      match f.after recs p with
      | none => false
      | some h => (f.arrivals recs p h).all (fun (q, a) => decide (ws.length ≤ q) || (f.account q).follows a))

/-- The highest scalar register a code names, s61 and s62 apart, and never below 5 (21 R316). -/
def highestReg (ws : List IWord) : Nat :=
  (ws.flatMap (fun w => ((decode w).map (fun i => (sNames i w).filter (fun r => decide (r < 61)))).getD [])).foldl
    Nat.max 5

/-- The lowest removal generation of a deprecated instruction in a code, 0 where it has none (03 R42, 21 R318). -/
def removalGen (ws : List IWord) : Nat :=
  if ws.any (fun w => match decode w with | some (.vgelu _ _ _) => true | _ => false) then 3 else 0

end Sys2Proof.Machine
end

