-- ==== Sys2Proof/Machine/Finalizer.lean ====
section
/-!
DEFINITION. The plain finalization of a Chroner list (21 R316): one word in each bundle, in the order of the list, every
bound run out before the next record, a register for each value. It is what the loader falls back on, so that a list is
finalized whatever else its finalizer makes of it (R319; log entry 24).
-/

namespace Sys2Proof.Machine

open Sys2Proof

/-! ### Values -/

/-- The record that distance d at record i names. -/
def namedBy (i : Nat) (d : Int) : Int := i - d

/-- The edges into a label: from the label itself, then from its branches, in order (21 R315). -/
def edgeSites (recs : List Word) (l : Nat) : List Nat := l :: branchesTo recs l

/-- The value that a join names on an edge. -/
def joinSrc (recs : List Word) (j edge : Nat) : Int := namedBy j (joinDist ((recs[j]?).getD 0) edge)

/-- The values that the records name, each with the record at which it is read: for a join, the one its edge leaves. -/
def namings (recs : List Word) : List (Int × Nat) :=
  recs.zipIdx.flatMap (fun (r, i) =>
    if recKind r = 0 then
      ((List.range 3).filter (fun k => recDist r k != 0)).map (fun k => (namedBy i (recDist r k), i))
    else if recKind r = 3 then
      match labelBefore recs i with
      | some l => (edgeSites recs l).zipIdx.map (fun (site, e) => (joinSrc recs i e, site))
      | none => []
    else [])

/-- The joins that a list of predicate values makes predicates. -/
def predJoins (recs : List Word) (preds : List Nat) : List Nat :=
  (preds ++ (List.range recs.length).filter (fun j => (recs[j]?).any (fun r => recKind r == 3)
    && (List.range 3).any (fun e => preds.any (fun (v : Nat) => joinSrc recs j e == (v : Int))))).eraseDups

/-- The values that are predicates: those of words with a predicate destination, and the joins of such. -/
def predValues (recs : List Word) : List Nat :=
  (recs.filter (fun r => recKind r == 3)).foldl (fun l _ => predJoins recs l)
    ((List.range recs.length).filter (fun i =>
      (opAt recs i).any (fun op => (regFields op).any (fun f => f.wr && f.pred))))

/-! ### How long a value is held -/

/-- A value from the record that makes it, a join from its label, to the last that names it. -/
structure Span21 where
  val : Int
  lo : Int
  hi : Int

/-- The ways back in a list: from a branch to a label before it, from the end of a loop to its start. -/
def backEdges (recs : List Word) : List (Int × Int) :=
  (List.range recs.length).filterMap (fun i =>
    match opAt recs i with
    | some (.loop _ n) => some ((i + n.toNat : Nat), (i + 1 : Nat))
    | _ => (recTarget recs i).bind (fun t => if t ≤ i then some ((i : Int), t) else none))

/-- A value that is held where a way back arrives is held to where that leaves. -/
def Span21.widen (back : List (Int × Int)) (x : Span21) : Span21 :=
  back.foldl (fun x b => if x.lo < b.2 ∧ b.2 ≤ x.hi then { x with hi := max x.hi b.1 } else x) x

/-- Whether a list calls code, which may run between any two records. -/
def callsCode (recs : List Word) : Bool :=
  (List.range recs.length).any (fun i => match opAt recs i with | some (.call _) | some (.jmpl _) => true | _ => false)

/-- The values of a list in the order of their records, with how long each is held. -/
def spansOf (recs : List Word) : List Span21 :=
  let uses := namings recs
  let back := backEdges recs
  (recs.zipIdx.filter (fun (r, _) => recValue r)).map (fun (r, i) =>
    let lo : Int := if recKind r = 3 then ((labelBefore recs i).getD i : Nat) else i
    let hi := (uses.filter (fun u => u.1 == (i : Int))).foldl (fun h u => max h (u.2 : Int)) (i : Int)
    if callsCode recs then ⟨i, -1, recs.length⟩
    else back.foldl (fun x _ => x.widen back) ⟨i, lo, hi⟩)

/-! ### Registers -/

/-- The most joins that stand after one label, scalar or predicate. -/
def mostJoins (recs : List Word) (preds : List Nat) (pred : Bool) : Nat :=
  (List.range recs.length).foldl (fun m l =>
    Nat.max m ((joinsOf recs l).filter (fun j => preds.contains j == pred)).length) 0

/-- Registers for values, each the lowest that no value held at the same time has: scalar s6 on, predicate k1 on. -/
def placeValues (preds : List Nat) : List Span21 → List (Span21 × Nat) → List (Span21 × Nat)
  | [], done => done
  | x :: l, done =>
    let pred := preds.any (fun (v : Nat) => (v : Int) == x.val)
    let pool := if pred then (List.range 7).map (· + 101) else (List.range 55).map (· + 6)
    let taken := (done.filter (fun y => x.lo ≤ y.1.hi ∧ y.1.lo ≤ x.hi)).map (·.2)
    placeValues preds l (done ++ [(x, ((pool.filter (fun r => !taken.contains r)).head?).getD 0)])

/-- What the finalization of a list rests on: its records, its predicates, the register of each value, and the first of
the registers that save a join's, scalar and predicate. -/
structure Plan where
  recs : List Word
  preds : List Nat
  regs : List (Int × Nat)
  saveS : Nat
  saveK : Nat

/-- The plan of a list. -/
def planOf (recs : List Word) : Plan :=
  let preds := predValues recs
  let regs := (placeValues preds (spansOf recs) []).map (fun (x, r) => (x.val, r))
  { recs := recs, preds := preds, regs := regs
    saveS := ((regs.map (·.2)).filter (fun r => decide (r < 100))).foldl Nat.max 5 + 1
    saveK := (regs.map (·.2)).foldl Nat.max 100 + 1 }

/-- The register of a value: s1 to s5 of the task's start, or the one it was given. -/
def Plan.reg (p : Plan) (v : Int) : Nat :=
  if v < 0 then (-v).toNat else ((p.regs.find? (fun e => e.1 == v)).map (·.2)).getD 0

/-- The joins of a label, each with its register and the one that saves it. -/
def Plan.saves (p : Plan) (l : Nat) : List (Nat × Nat × Nat) :=
  let js := joinsOf p.recs l
  let s := (js.filter (fun j => !p.preds.contains j)).zipIdx.map (fun (j, k) => (j, p.reg j, p.saveS + k))
  let k := (js.filter (fun j => p.preds.contains j)).zipIdx.map (fun (j, k) => (j, p.reg j, p.saveK + k))
  s ++ k

/-! ### Words -/

/-- The word of an instruction. -/
def wordFor (i : Instr) : IWord := (encode false i).getD 0

/-- A register copied: of scalars by `ADD` with s0, of predicates by `PLOG`. -/
def copyWord21 (d a : Nat) : IWord :=
  if 100 ≤ d then
    wordFor (.plog (BitVec.ofNat 6 (d - 100)) (BitVec.ofNat 6 (a - 100)) (BitVec.ofNat 6 (a - 100)) 8)
  else wordFor (.add (BitVec.ofNat 6 d) (BitVec.ofNat 6 a) 0)

/-- A literal in a register: zero, then each part of 18 bits that is not. -/
def literalWords (d : Nat) (c : Word) : List IWord :=
  let r := BitVec.ofNat 6 d
  wordFor (.movi r 0) :: ((List.range 4).filter (fun k => bitsOf c (18 * k) 18 != 0)).map (fun k =>
    wordFor (.movk r (BitVec.ofNat 2 k) (BitVec.ofNat 18 (bitsOf c (18 * k) 18))))

/-- Bits of a word replaced. -/
def setBits (w : IWord) (lo width v : Nat) : IWord :=
  (w &&& ~~~(BitVec.ofNat 32 ((2 ^ width - 1) * 2 ^ lo))) ||| BitVec.ofNat 32 (v % 2 ^ width * 2 ^ lo)

/-- A register field of a word filled. -/
def RegFld.fill (f : RegFld) (r : Nat) (w : IWord) : IWord :=
  let n := if f.pred then r - 100 else r
  let w := setBits w f.lo f.width n
  match f.top with
  | some t => setBits w t 1 (n / 32)
  | none => w

/-- The fields that a word reads, in the order of a record's distances. -/
def readFields (i : Instr) : List RegFld :=
  ((regFields i).filter (fun f => f.rd && !f.wr)) ++ ((regFields i).filter (fun f => f.rd && f.wr))

/-- The word of an operation record with its registers: each source that of the value it names, through `via`, which
tells where a join's register is saved. A destination that the word also reads is the value's own. -/
def Plan.opWord (p : Plan) (i : Nat) (r : Word) (op : Instr) (via : Nat → Nat) : IWord :=
  let w : IWord := r.extractLsb' 0 32
  let w := (readFields op).zipIdx.foldl (fun w (f, k) =>
    if f.wr || recDist r k = 0 then w else f.fill (via (p.reg (namedBy i (recDist r k)))) w) w
  (regFields op).foldl (fun w f => if f.wr then f.fill (p.reg i) w else w) w

/-- What comes before a word that reads its destination: the value it names there, or zero, in that register. -/
def Plan.ready (p : Plan) (i : Nat) (r : Word) (op : Instr) (via : Nat → Nat) : List IWord :=
  (readFields op).zipIdx.filterMap (fun (f, k) =>
    if !f.wr then none
    else if recDist r k = 0 then some (wordFor (.movi (BitVec.ofNat 6 (p.reg i)) 0))
    else some (copyWord21 (p.reg i) (via (p.reg (namedBy i (recDist r k))))))

/-- The cycles that what a word writes may take. -/
def cyclesOf (op : Instr) : Nat :=
  ((hiddenWrites op).map (·.2)).foldl Nat.max (if (regFields op).any (·.wr) then boundOf op else 1)

/-! ### The code -/

/-- A word with the record that it carries out. -/
abbrev Placed21 := IWord × Option Nat

/-- A word that carries out no record. -/
def loose (w : IWord) : Placed21 := (w, none)

/-- On an edge into a label: the registers of its joins are saved, then take what the edge brings; and where they are
saved meanwhile. -/
def Plan.enterWords (p : Plan) (l edge : Nat) : List Placed21 × (Nat → Nat) :=
  let js := p.saves l
  let via := fun (r : Nat) => ((js.find? (fun x => x.2.1 == r)).map (fun x => x.2.2)).getD r
  (js.map (fun x => loose (copyWord21 x.2.2 x.2.1))
    ++ js.map (fun x => loose (copyWord21 x.2.1 (via (p.reg (joinSrc p.recs x.1 edge))))), via)

/-- The words of a record, and whether a label stands behind them. -/
def Plan.recWords (p : Plan) (i : Nat) (r : Word) : List Placed21 :=
  match recKind r with
  | 0 =>
    match recInstr r with
    | none => []
    | some op =>
      let target := (recTarget p.recs i).bind (fun t => if 0 ≤ t then some t.toNat else none)
      let (before, via) : List Placed21 × (Nat → Nat) :=
        match target with
        | some l => p.enterWords l (1 + (branchesTo p.recs l).idxOf i)
        | none => ([], fun r => r)
      let back := match target with
        | some l => (p.saves l).map (fun x => loose (copyWord21 x.2.1 x.2.2))
        | none => []
      let pop := if fetches op then [loose (wordFor (.add (BitVec.ofNat 6 (p.reg i)) 63 0))] else []
      before ++ (p.ready i r op via).map loose ++ [(p.opWord i r op via, some i)]
        ++ List.replicate (cyclesOf op - 1) (loose (wordFor .nop)) ++ pop ++ back
  | 1 => (literalWords (p.reg i) ((r.extractLsb' 0 62 : BitVec 62).signExtend 64)).map loose
  | 2 => (p.enterWords i 0).1
  | _ => []

/-- The words of each record. -/
def Plan.parts (p : Plan) : List (List Placed21) := p.recs.zipIdx.map (fun (r, i) => p.recWords i r)

/-- The word at which the words of a record begin, and that at which a label stands: behind its own. -/
def startOf (parts : List (List Placed21)) (i : Nat) : Nat := ((parts.take i).map List.length).sum

/-- Branches and loops count words (21 R315). -/
def Plan.counted (p : Plan) (parts : List (List Placed21)) (q : Nat) (x : Placed21) : IWord :=
  match x.2 with
  | none => x.1
  | some i =>
    let to_ := (recTarget p.recs i).map (fun t => (startOf parts (t.toNat + 1) : Int) - q)
    match opAt p.recs i, to_ with
    | some (.br _ _ _), some t => setBits x.1 0 22 (BitVec.ofInt 22 t).toNat
    | some (.call _), some t => setBits x.1 0 26 (BitVec.ofInt 26 t).toNat
    | some (.loop _ n), _ => setBits x.1 0 14 (startOf parts (i + n.toNat + 1) - (q + 1))
    | _, _ => x.1

/-- Accounts that agree on what reaches a word: what all of them hold. -/
def meetAll : List Account → Option Account
  | [] => none
  | a :: l => some { a with holds := a.holds.filter (fun x =>
      x.wait != 0 || l.all (fun b => b.holds.any (fun y => y.loc == x.loc && y.val == x.val))) }

/-- What reaches a word: from where, to where, and the account it brings. -/
abbrev Arrival21 := Nat × Nat × Account

/-- One pass over the words in order: each account is what reaches its word, from behind as the last pass left it; one
that nothing reaches goes on from the word before. The list starts with what reaches word 0 at the task's start. -/
def Finalized.sweep (recs : List Word) (old : List Arrival21) :
    List Nat → List Arrival21 → Finalized → Finalized × List Arrival21
  | [], new, f => (f, new)
  | p :: l, new, f =>
    let here := (new ++ old.filter (fun x => decide (p ≤ x.1))).filter (fun x => x.2.1 == p)
    let a := (meetAll (here.map (·.2.2))).getD (f.arrive recs ((f.after recs (p - 1)).getD {}) p none)
    let f := { f with accounts := f.accounts.filter (fun e => e.1 != p) ++ [(p, a)] }
    let out := ((f.after recs p).map (f.arrivals recs p)).getD []
    Finalized.sweep recs old l (new ++ out.map (fun x => (p, x))) f

/-- Passes enough for each way back. -/
def Finalized.sweeps (recs : List Word) : Nat → List Arrival21 → Finalized → Finalized
  | 0, _, f => f
  | n + 1, old, f =>
    let (f, new) := Finalized.sweep recs old (List.range f.words.length) [(0, 0, f.arrive recs startAccount 0 none)] f
    Finalized.sweeps recs n new f

/-- The plain finalization of a list. -/
def plainFinal (recs : List Word) : Finalized :=
  let p := planOf recs
  let parts := p.parts
  let ws := parts.flatten.zipIdx.map (fun (x, q) => p.counted parts q x)
  let f : Finalized :=
    { code := ws.flatMap (fun w => bytesOfNat 4 w.toNat)
      does := parts.flatten.map (·.2)
      labels := ((List.range recs.length).filter (fun (i : Nat) => isLabel recs (i : Int))).map
        (fun l => (l, startOf parts (l + 1))) }
  Finalized.sweeps recs (2 + (recs.filter (fun r => recKind r == 2)).length) [] f

/-- Whether the plain finalization holds a list: each value has a register, and each source names a value of its own
kind, scalar or predicate. -/
def Plan.fits (p : Plan) : Bool :=
  (p.recs.zipIdx.all (fun (r, i) => !recValue r || p.reg i != 0))
  && decide (p.saveS + mostJoins p.recs p.preds false ≤ 61) && decide (p.saveK + mostJoins p.recs p.preds true ≤ 108)
  && p.recs.zipIdx.all (fun (r, i) =>
      match opAt p.recs i with
      | some op => (readFields op).zipIdx.all (fun (f, k) =>
          recDist r k == 0 || f.pred == decide (100 ≤ p.reg (namedBy i (recDist r k))))
      | none => true)

end Sys2Proof.Machine
end

