-- ==== Sys2Proof/Machine/Loader.lean ====
section
/-!
DEFINITION. The loader's checks of a kernel image (21 R313 to R318) and the image it makes: its header, its code,
and what the finalizer makes of a Chroner list.
-/

namespace Sys2Proof.Machine

open Sys2Proof

/-! ### The image -/

/-- Granule-rounded requests may not exceed 1,792 KiB and 7 MiB (06 R96). -/
def scratchOk (core quad : Nat) : Bool := decide (core ≤ 1792 * 2 ^ 10) && decide (quad ≤ 7 * 2 ^ 20)

/-- Whether a header is accepted: magic, form, generation, ranges, reserved fields and requests (21
R313, R317). -/
def headerOk (h : List Word) : Bool :=
  let w := fun (i : Nat) => (h[i]?).getD 0
  let form := bitsOf (w 0) 32 8
  bitsOf (w 0) 0 32 == 0x4F514B31 && decide (form ≤ 1)
  && decide (1 ≤ bitsOf (w 0) 40 8) && decide (bitsOf (w 0) 40 8 ≤ Config.generation)
  && bitsOf (w 0) 54 10 == 0
  && decide (5 ≤ bitsOf (w 1) 0 6) && decide (bitsOf (w 1) 0 6 ≤ 60)
  && decide (1 ≤ bitsOf (w 1) 6 4) && decide (bitsOf (w 1) 6 4 ≤ 8)
  && decide (bitsOf (w 1) 10 10 ≤ 512) && bitsOf (w 1) 38 26 == 0
  && scratchOk (bitsOf (w 2) 0 32) (bitsOf (w 2) 32 32)
  && bitsOf (w 4) 0 32 % 64 == 0 && bitsOf (w 4) 32 32 % (if form = 0 then 4 else 8) == 0
  && bitsOf (w 5) 8 56 == 0 && w 6 == 0 && w 7 == 0

/-- The words of a code of OQA words. -/
def codeWords (code : List Byte) : List IWord :=
  (List.range (code.length / 4)).map (fun k => BitVec.ofNat 32 (natOfBytes ((code.drop (4 * k)).take 4)))

/-- What the finalizer makes of an accepted list: its own answer where that keeps the list, else the plain one; none for
a list whose values do not fit the registers (21 R316, R319; log entry 24). -/
def finalized (code : List Byte) (recs : List Word) : Option Finalized :=
  let f := Config.finalize code
  if f.keeps recs && decide (highestReg f.words ≤ 60) then some f
  else if (planOf recs).fits then some (plainFinal recs)
  else none

/-- A loaded image from its header, its code's pages and its code's bytes (21 R313, R316, R317); none where the loader
refuses it. -/
def loadImage (addr asid id : Nat) (h : List Word) (pages : List Nat) (off : Nat) (code : List Byte) :
    Option Image :=
  let w := fun (i : Nat) => (h[i]?).getD 0
  let im : Image :=
    { addr := addr, asid := asid, id := id, regs := bitsOf (w 1) 0 6, accs := bitsOf (w 1) 6 4
      barriers := bitsOf (w 1) 10 10, yieldwin := bitsOf (w 1) 20 16
      scratch := bitsOf (w 2) 0 32, quadscratch := bitsOf (w 2) 32 32
      lifetime := if w 3 == 0 then 1000000 else (w 3).toNat
      codeLen := code.length, pages := pages, off := off, lit := some code
      rmgen := bitsOf (w 5) 0 8 }
  if bitsOf (w 0) 32 8 = 0 then
    if (codeWords code).any (wordRefused im.regs im.accs) then none else some im
  else
    let recs := (List.range (code.length / 8)).map (fun k => mkWord (natOfBytes ((code.drop (8 * k)).take 8)))
    if !chronerOk im.accs im.barriers recs then none
    else
      (finalized code recs).map (fun f =>
        { im with
          lit := some f.code, codeLen := f.code.length, regs := highestReg f.words, rmgen := removalGen f.words })

end Sys2Proof.Machine
end

