-- ==== Sys2Proof/Machine/Walks.lean ====
section
/-!
DEFINITION. The steps of translation for a held A word (13 R211, R212, R221), of faults (13 R222),
of `TLBINV` (13 R230), of interrupts (13 R216) and of context banks: switches, spills and fills
(13 R224 to R227).
-/

namespace Sys2Proof.Machine

open Sys2Proof

/-! ### Translation of a held access -/

/-- The held bundle whose translation is in progress. -/
def State.walking (s : State) : Option Replay :=
  if !s.live then none
  else s.cx.replay.filter (fun r => r.result == .running)

/-- Replace the walk of the replay buffer. -/
def State.setWalk (s : State) (r : Replay) (w : Walk) (x : WalkResult) : State :=
  { s with cx := { s.cx with replay := some { r with walk := w, result := x } } }

/-- A translation found fills the micro-TLB, and the held bundle completes (13 R212, R221). -/
def State.walkHit (s : State) (r : Replay) (t : TlbEnt) : State :=
  ({ s with xl := { s.xl with micro := tlbFill 64 t s.xl.micro } }).replayDone r (t.phys r.walk.va)

/-- SHARED_TLB_LOOKUP (13 R212): the shared TLB answers, or a walk starts. -/
def State.sharedLookup (s : State) : State :=
  match s.walking with
  | none => s
  | some r =>
    if r.walk.shared then s
    else
      match tlbFind s.xl.shared r.walk.asid r.walk.va r.walk.write r.walk.priv with
      | some t => s.walkHit r t
      | none =>
        let (level, table) := s.walkStart r.walk.root r.walk.asid r.walk.va
        s.setWalk r { r.walk with shared := true, level := level, entry := table } .running

/-- The meaning of SHARED_TLB_LOOKUP. -/
def execSharedTlbLookup (s : State) : Out := .next s.sharedLookup

/-- TABLE_READ (13 R211, R212): one table entry is read; the walk goes on, ends with the
translation after the update of a and d, or ends in a fault. A marked table line is a machine error for an `LDS`
too (log entry 93). -/
def State.tableRead (s : State) : State :=
  match s.walking with
  | none => s
  | some r =>
    let w := r.walk
    let loc := hbmLoc s.pkgid (w.entry + 8 * tableIndex w.va w.level)
    if !w.shared then s
    else if s.marked loc then s.setWalk r w .machine
    else
      match walkDecide (s.word loc) w.level w.write w.priv with
      | .fault k => if r.lds then s.replayPoison r else s.setWalk r w (.fault k)
      | .leaf e =>
        let (x, s) := s.spanEntry loc e w.level
        let t := tlbOf w.asid x w.va w.level w.write
        let s := s.setWord loc (pteUsed e w.write)
        ({ s with xl := { s.xl with shared := tlbFill 16384 t s.xl.shared } }).walkHit r t
      | .table pa => (s.cacheWalk w.asid w.va w.level pa).setWalk r 
          { w with level := w.level - 1, entry := pa } .running

/-- The meaning of TABLE_READ. -/
def execTableRead (s : State) : Out := .next s.tableRead

/-! ### Faults -/

/-- The performed bits of a held bundle: every word but its A word (13 R221, R226). -/
def Replay.pbits (r : Replay) : Nat := 2 ^ r.words.length - 1 - 2 ^ r.slot

/-- The fault record of a held bundle (13 R222, R226). -/
def Replay.faultRec (r : Replay) (cause reason : Nat) : FaultRec :=
  { cause := cause, reason := reason, pbits := r.pbits, words := r.words.length
    addr := r.walk.va, badr := r.badr }

/-- A held translation starts over (13 R222). -/
def Replay.again (r : Replay) : Replay :=
  { r with walk := { r.walk with shared := false, level := 4, entry := 0 }, result := .running }

/-- The completion cause of the C word of a held bundle comes before the fault of its A word (13 R216): it
is delivered, and the A word stays held and is translated again (log entry 17). -/
def State.causeFirst (s : State) (r : Replay) : State :=
  let s := { s with
    badr := r.badr, bundle := r.words, widx := r.slot, ctl := .seq, stalled := false
    cx := { s.cx with replay := some { r.again with ctl := .trapped } } }
  (s.applyCtl r.ctl).finish

/-- Whether the decision of a held bundle's C word is a cause of completion kind (13 R216). -/
def State.causeHeld (s : State) (c : Ctl) : Bool :=
  match c with
  | .deferTrap _ _ => true
  | .deferEret t => !s.targetOk t
  | _ => false

/-- FAULT_FREEZE (13 R216, R222): PGF or MCHK with the bundle held, after a completion cause of its C
word. -/
def State.faultFreeze (s : State) : State :=
  if !s.live then s
  else
    match s.cx.replay with
    | some r =>
      if (match r.result with | .fault _ | .machine => true | _ => false) && s.causeHeld r.ctl then
        s.causeFirst r
      else
        let s := { s with badr := r.badr }
        match r.result with
        | .fault k => s.freeze (r.faultRec 16 k)
        | .machine => s.freeze (r.faultRec 18 0)
        | _ => s
    | none => s

/-- The meaning of FAULT_FREEZE. -/
def execFaultFreeze (s : State) : Out := .next s.faultFreeze

/-- A context resumes: its fault record is done with, and its held slot is translated again. -/
def Ctx.resumed (c : Ctx) : Ctx :=
  { c with fault := none, replay := c.replay.map Replay.again }

/-- The task of the shadow bank is over. -/
def State.endShadow (s : State) (reason : Option Nat) : State :=
  let s := s.writeCharge
  let node := s.sh.task.node
  let t := ({ s with cx := s.sh, sh := s.cx }).releaseTask
  let t := t.noteTaskEnd node reason
  { t with cx := t.sh, sh := Ctx.fresh, shSt := .empty
           core := { t.core with parked := t.core.parked.filter (·.owner != s.sh.uid) } }

/-- A spilled context leaves its save area. -/
def State.dropSaved (s : State) (va : Nat) : State :=
  { s with core := { s.core with saved := s.core.saved.filter (fun e => e.1 != va) } }

/-- The task of a spilled context is over. -/
def State.endSaved (s : State) (va : Nat) (c : Ctx) (reason : Option Nat) : State :=
  let s := s.writeCharge.dropSaved va
  let keepCx := s.cx
  let t := ({ s with cx := c }).releaseTask
  let t := t.noteTaskEnd c.task.node reason
  { t with cx := keepCx }

/-- FAULT_RESOLVE (13 R222): the firmware ends a faulted task, reason 8 of 14 R233, or resolves
its fault, and the context resumes in place or may be filled back. -/
def State.faultResolve (s : State) (kill : Bool) : State :=
  if s.cxSt == .held && s.cx.fault.isSome && s.cx.stop.isNone then
    if kill then s.endTask (some 8)
    else ({ s with cx := s.cx.resumed, cxSt := .running, stalled := false }).restore
  else if s.shSt == .held && s.sh.fault.isSome && s.sh.stop.isNone then
    if kill then s.endShadow (some 8) else { s with sh := s.sh.resumed, shSt := .ready }
  else
    match s.core.saved.find? (fun e => e.2.fault.isSome) with
    | some (va, c) =>
      if kill then s.endSaved va c (some 8)
      else
        { s with core := { s.core with
          saved := s.core.saved.map (fun e => if e.1 == va then (e.1, e.2.resumed) else e) } }
    | none => s

/-- The meaning of FAULT_RESOLVE. -/
def execFaultResolve (kill : Bool) (s : State) : Out := .next (s.faultResolve kill)

/-- TLBINV_COMPLETE (13 R230): every access it waits for has performed, and no copy segment that was in hand
is still being written. -/
def State.tlbinvComplete (s : State) : State :=
  match s.cx.tlbWait with
  | some ids =>
    if s.depsDone ids && !s.openSegs.any s.cx.tlbSegs.contains then
      { s with cx := { s.cx with tlbWait := none, tlbSegs := [] } }
    else s
  | none => s

/-- The meaning of TLBINV_COMPLETE. -/
def execTlbinvComplete (s : State) : Out := .next s.tlbinvComplete

/-- INTERRUPT (13 R216, R222): before the bundle at the fetch address, or with one held, whose
translation starts over; the context is captured and restored (03 R34, R35). What the firmware
does in between is outside the core followed (log entry 20). -/
def State.interrupt (s : State) : State :=
  if !s.live then s
  else
    let s := s.capture
    ({ s with cx := { s.cx with replay := s.cx.replay.map Replay.again }, stalled := false }).restore

/-- The meaning of INTERRUPT. -/
def execInterrupt (s : State) : Out := .next s.interrupt

/-! ### Banks -/

/-- CONTEXT_SWITCH (13 R224, R222, 14 R242): a running bank whose context is frozen, waiting or
gone gives way to a ready bank; a ready context beside no other runs. -/
def State.contextSwitch (s : State) : State :=
  if s.cx.stop.isSome || s.host.off then s
  else
    match s.cxSt with
    | .held | .empty => if s.shSt == .ready then { (s.leave s.cxSt 3) with ctl := .gone } else s
    | .ready => if s.shSt == .ready then s.leave .ready 3
                else if s.cx.captured then ({ s with cxSt := .running, stalled := false }).restore else s
    | _ => s

/-- The meaning of CONTEXT_SWITCH. -/
def execContextSwitch (s : State) : Out := .next s.contextSwitch

/-! ### Spills and fills -/

/-- The tile bytes a spill moves (13 R225). -/
def Ctx.tileBytes (c : Ctx) : Nat :=
  ((c.tiles.toList.take c.task.accsN).map (fun (t : Tile) => if t.form == .fp64 then 32768 else 16384)).sum

/-- The cycles of a spill or a fill (13 R225). -/
def Ctx.spillCycles (c : Ctx) : Nat :=
  let n := c.task.regsN
  300 + (3072 + 8 * (n + 2) + (n + 9) / 8 + c.tileBytes + 63) / 64

/-- Whether every withdrawal and every outstanding remote access of a context is answered (16
R261). -/
def State.answered (s : State) (c : Ctx) : Bool :=
  c.withdrawn.isEmpty
  && s.fab.pkts.all (fun p => p.owner != c.uid || p.ids.isEmpty || p.stage == .withdrawn)

/-- Whether the emergency area holds a context (13 R220, R227). -/
def State.emergOcc (s : State) : Bool := s.core.emerg.getLsbD 0

/-- Whether a bank may be spilled: it does not run, its withdrawals are answered, and no shuttle command of its
context is in progress, whose writes its tiles still receive (08 R172, 16 R261). -/
def State.maySpill (s : State) (b : BankSt) (c : Ctx) : Bool :=
  (b == .ready || b == .held) && s.answered c && !s.core.shq.any (fun m => m.owner == c.uid && m.started)

/-- SPILL (13 R225, 14 R242): the spill engine starts to move a bank that is not running. -/
def State.spill (s : State) : State :=
  if s.core.spilling.isSome || s.core.filling.isSome || s.emergOcc then s
  else if s.maySpill s.shSt s.sh then
    { s with shSt := .spilling
             core := { s.core with spilling := some (s.cyc + s.sh.spillCycles) } }
  else if s.maySpill s.cxSt s.cx then
    { s with cxSt := .spilling
             core := { s.core with spilling := some (s.cyc + s.cx.spillCycles) } }
  else s

/-- The meaning of SPILL. -/
def execSpill (s : State) : Out := .next s.spill

/-- The bits of a list, lowest first. -/
def bitsNat : List Bool → Nat
  | [] => 0
  | b :: t => (if b then 1 else 0) + 2 * bitsNat t

/-- The special registers of a save area, in its order (13 R226). -/
def Ctx.specials (c : Ctx) (bank : Bool) : List Word :=
  [c.tcx, c.tcy, c.tcz, kstatOf c bank c.flags, c.tcause, c.tbadr, c.tval, c.thand, c.lqwait,
   c.lotflags.zeroExtend 64, c.lbeg, c.lend, c.lcnt, c.ptbase, c.asid, c.ctxsave]

/-- The words of a save area that firmware may read, as (offset, value): header, scalar area and
special registers (13 R226). The header names the firmware's decision as not yet made. -/
def Ctx.publicWords (c : Ctx) (bank : Bool) : List (Nat × Word) :=
  let n := c.task.regsN
  let head :=
    match c.fault with
    | some r => headerWords c r true
    | none => [mkWord (1 + 2 ^ 8 + n * 2 ^ 16 + c.task.accsN * 2 ^ 22), 0, 0, 0]
  let regs := ((List.range 62).filter (fun k => savedReg n (k + 1))).map
    (fun k => (0x40 + 8 * k, ((c.regs[k + 1]?).getD {}).val))
  let poison := bitsNat ((List.range 62).map (fun k =>
    savedReg n (k + 1) && ((c.regs[k + 1]?).getD {}).poison))
  let preds := bitsNat (c.preds.toList.zipIdx.map (fun (p, k) => k != 0 && p.val))
    + 2 ^ 8 * bitsNat (c.preds.toList.zipIdx.map (fun (p, k) => k != 0 && p.poison))
  (head ++ [0]).zipIdx.map (fun (w, k) => (8 * k, w))
  ++ regs ++ [(0x230, mkWord poison), (0x238, mkWord preds)]
  ++ (c.specials bank).zipIdx.map (fun (w, k) => (0x240 + 8 * k, w))

/-- The offsets of the words reserved to hardware that a spill writes: their layout is not given,
so their values are free (13 R226; log entry 21). -/
def hiddenOffsets : List Nat := (List.range 360).map (fun k => 0x2C0 + 8 * k)

/-- Words of a tile's area: an FP64 element each, or two elements of 4 bytes (13 R225, R226; log entry
21). -/
def tileWords (f : Form) : Nat := if f == .fp64 then 4096 else 2048

/-- Word i of the area of tile t: its elements in row-major order (13 R226; log entry 21). -/
def Tile.areaWord (t : Tile) (i : Nat) : Word :=
  if t.form == .fp64 then t.get i else t.get (2 * i) + t.get (2 * i + 1) * 2 ^ 32

/-- The tile that the words of an area give, in a form. -/
def tileOfArea (f : Form) (w : Nat → Word) : Tile :=
  let at_ := fun (i : Nat) =>
    if f == .fp64 then w i
    else keep (mkWord ((w (i / 2)).toNat / 2 ^ (32 * (i % 2)))) 0 (match f with | .i16 => 16 | _ => 32)
  { form := f, elems := ((List.range 4096).map (fun i => (i, at_ i))).filter (fun e => e.2 != 0) }

/-- The offset of word i of tile k's area (13 R226). -/
def tileOffset (k i : Nat) : Nat := 0x1000 + 0x8000 * k + 8 * i

/-- The offsets and words of the areas of the declared tiles. -/
def Ctx.tileAreas (c : Ctx) : List (Nat × Word) :=
  (c.tiles.toList.take c.task.accsN).zipIdx.flatMap (fun ((t, k) : Tile × Nat) =>
    (List.range (tileWords t.form)).map (fun i => (tileOffset k i, t.areaWord i)))

/-- Everything a spill writes, with the state after the free values are drawn. -/
def State.spillWords (s : State) (c : Ctx) (bank : Bool) : List (Nat × Word) × State :=
  (c.publicWords bank ++ hiddenOffsets.zipIdx.map (fun (o, k) => (o, Config.freeWord (s.fv + k)))
     ++ c.tileAreas,
   { s with fv := s.fv + hiddenOffsets.length })

/-- What stops a transfer of a save area: a page fault, or an uncorrectable error in a page table (13 R211,
R227). -/
inductive AreaStop where
  | page
  | table
  deriving DecidableEq, Repr

/-- What a translation of a save-area address that gives no address means. -/
def Xlated.stop : Xlated → AreaStop
  | .machine => .table
  | _ => .page

/-- Write the words of a save area through the context's own translation, up to one that does not
translate (13 R225, R227). -/
def State.writeArea (s : State) (c : Ctx) : List (Nat × Word) → State × Option AreaStop
  | [] => (s, none)
  | (o, w) :: t =>
    match s.translate c.ptbase.toNat c.asid.toNat (c.ctxsave + mkWord o) true true with
    | (.ok pa _, s) => (s.setWord (hbmLoc s.pkgid pa) w).writeArea c t
    | (x, s) => (s, some x.stop)

/-- The bank being spilled: its context and whether it is the bank of `cx`. -/
def State.spillBank (s : State) : Option (Ctx × Bool) :=
  if s.shSt == .spilling then some (s.sh, false)
  else if s.cxSt == .spilling then some (s.cx, true)
  else none

/-- A spilled bank is empty, and its context is in its save area, whose reserved words hold the free values from `fv`
on. What it holds of flags from here on its commands and its accesses raise meanwhile (08 R184, 16 R263). -/
def State.bankSpilled (s : State) (c : Ctx) (ofCx : Bool) (fv : Nat) : State :=
  let s := { s with core := { s.core with
    spilling := none
    saved := (c.ctxsave.toNat, { c with areaFv := fv, flags := 0, lotflags := 0 })
      :: s.core.saved.filter (fun e => e.1 != c.ctxsave.toNat) } }
  if ofCx then { s with cx := Ctx.fresh, cxSt := .empty } else { s with sh := Ctx.fresh, shSt := .empty }

/-- The attempt of a finished spill to write its save area. -/
def State.spillAttempt (s : State) (c : Ctx) (ofCx : Bool) : State × Option AreaStop :=
  let (l, s1) := s.spillWords c (if ofCx then s.bank else !s.bank)
  s1.writeArea c l

/-- Whether the spill engine's time is over. -/
def State.spillDue (s : State) : Bool :=
  match s.core.spilling with
  | some t => decide (t ≤ s.cyc)
  | none => false

/-- SPILL_COMPLETE (13 R225, R226): the save area is written, and the bank may be reused. -/
def State.spillComplete (s : State) : State :=
  match s.spillBank with
  | some (c, ofCx) =>
    if !s.spillDue then s
    else
      match s.spillAttempt c ofCx with
      | (s1, none) => s1.bankSpilled c ofCx s.fv
      | _ => s
  | none => s

/-- The meaning of SPILL_COMPLETE. -/
def execSpillComplete (s : State) : Out := .next s.spillComplete

/-- EMERGENCY_SPILL (13 R227): the save area has a page that does not translate; the whole context
goes to the emergency area, occ is set, and the firmware hears of the save-area address: of a page fault, or
of the error of a page-table line (13 R211; log entry 69). -/
def State.emergencySpill (s : State) : State :=
  match s.spillBank with
  | some (c, ofCx) =>
    if !s.spillDue then s
    else
      match s.spillAttempt c ofCx with
      | (_, none) => s
      | (s1, some x) =>
        let fv := s1.fv
        let (l, s1) := s1.spillWords c (if ofCx then s.bank else !s.bank)
        let base := bitsOf s.core.emerg 12 29 * 2 ^ 12
        let s1 := l.foldl (fun (t : State) e => t.setWord (hbmLoc t.pkgid (base + e.1)) e.2) s1
        let s1 := { s1 with core := { s1.core with
          emerg := s1.core.emerg ||| 1
          emergFault := some { cause := if x = AreaStop.table then 18 else 16, addr := c.ctxsave } } }
        s1.bankSpilled c ofCx fv
  | none => s

/-- The meaning of EMERGENCY_SPILL. -/
def execEmergencySpill (s : State) : Out := .next s.emergencySpill

/-- Whether a save area's context is still in the emergency area. -/
def State.inEmergency (s : State) (va : Nat) : Bool :=
  s.emergOcc && (s.core.emergFault.map (·.addr.toNat)) == some va

/-- FILL (13 R225): the spill engine starts to move a save area into an empty bank, once the
context's withdrawals and accesses are answered (16 R261) and its partitions restored (06 R98). -/
def State.fill (s : State) (va : Nat) : State :=
  match s.core.saved.find? (fun e => e.1 == va) with
  | none => s
  | some (_, c) =>
    if s.core.spilling.isSome || s.core.filling.isSome || s.inEmergency va || !s.answered c
        || s.sched.evicted.any (fun e => e.grant.launch == c.task.launch) then s
    else
      let s1 := (s.dropSaved va)
      let s1 := { s1 with core := { s1.core with filling := some (s.cyc + c.spillCycles) } }
      if s.shSt == .empty then { s1 with sh := c, shSt := .filling }
      else if s.cxSt == .empty then { s1 with cx := c, cxSt := .filling }
      else s

/-- The meaning of FILL. -/
def execFill (va : Nat) (s : State) : Out := .next (s.fill va)

/-- What a fill reads of a save area: the words by offset, whether a line was marked, and what stopped it;
the walks leave their marks in the state (13 R211, R212, R227). -/
def State.readArea (s : State) (c : Ctx) : List Nat → State × List (Nat × Word) × Bool × Option AreaStop
  | [] => (s, [], false, none)
  | o :: t =>
    match s.translate c.ptbase.toNat c.asid.toNat (c.ctxsave + mkWord o) false true with
    | (.ok pa _, s) =>
      let l := hbmLoc s.pkgid pa
      let (s', ws, m, x) := s.readArea c t
      (s', (o, s.word l) :: ws, m || s.marked l, x)
    | (x, s) => (s, [], false, some x.stop)

/-- The word at an offset of a save area that was read. -/
def areaWordAt (l : List (Nat × Word)) (o : Nat) : Word := ((l.find? (fun e => e.1 == o)).map (·.2)).getD 0

/-- A context as the scalar and special-register areas of a save area give it, w telling the word at an
offset: software may have changed them (13 R226). -/
def Ctx.loadWords (c : Ctx) (w : Nat → Word) : Ctx :=
  let n := c.task.regsN
  let sp := fun (k : Nat) => w (0x240 + 8 * k)
  let regs := Vector.ofFn (fun (i : Fin 64) =>
    if savedReg n i.val then
      { val := w (0x40 + 8 * (i.val - 1)), poison := (w 0x230).getLsbD (i.val - 1), taint := [] }
    else c.regs[i])
  let preds := Vector.ofFn (fun (i : Fin 8) =>
    if i.val = 0 then c.preds[i]
    else { val := (w 0x238).getLsbD i.val, poison := (w 0x238).getLsbD (i.val + 8), taint := [] })
  { c with
    regs := regs
    preds := preds
    tcx := keep (sp 0) 0 16, tcy := keep (sp 1) 0 16, tcz := keep (sp 2) 0 16
    flags := (sp 3).extractLsb' 0 6, priv := (sp 3).getLsbD 8, acchk := (sp 3).getLsbD 10
    tcause := sp 4 &&& 0xDFF, tbadr := sp 5, tval := sp 6, thand := keep (sp 7) 2 55
    lqwait := sp 8, lotflags := (sp 9).extractLsb' 0 16
    lbeg := keep (sp 10) 2 55, lend := keep (sp 11) 2 55, lcnt := sp 12
    ptbase := keep (sp 13) 12 29, asid := keep (sp 14) 0 12, ctxsave := keep (sp 15) 12 45 }

/-- An accumulator tile of free values, from a count on: a tile the context did not declare, after a
fill (08 R168). -/
def freeTile (fv : Nat) (f : Form) : Tile :=
  { form := f
    elems := ((List.range 4096).map (fun i => (i, keep (Config.freeWord (fv + i)) 0
      (match f with | .fp64 => 64 | .i16 => 16 | _ => 32)))).filter (fun e => e.2 != 0) }

/-- A filled context: its public areas, its declared tiles, and its undeclared tiles undefined (13 R225, R226;
08 R168). -/
def State.loadPublic (s : State) (c : Ctx) (w : Nat → Word) : Ctx × State :=
  let c := c.loadWords w
  ({ c with tiles := Vector.ofFn (fun (i : Fin 8) =>
      if i.val < c.task.accsN then tileOfArea c.tiles[i].form (fun k => w (tileOffset i.val k))
      else freeTile (s.fv + 4096 * i.val) c.forms[i]) },
   { s with fv := s.fv + 8 * 4096 })

/-- Whether the words reserved to hardware are as the spill left them (13 R226). -/
def Ctx.areaKept (c : Ctx) (w : Nat → Word) : Bool :=
  hiddenOffsets.zipIdx.all (fun (o, k) => w o == Config.freeWord (c.areaFv + k))

/-- A context that a changed reserved word leaves undefined, by the free values from a count on (13 R226, 00 R3): its
registers, tables, latches, tiles, addresses and special registers, and the data of `lq`; the number of entries in its
queues stays (log entry 115). -/
def Ctx.lost (c : Ctx) (fv : Nat) : Ctx :=
  let x := fun (k : Nat) => Config.freeWord (fv + k)
  { c with
    regs := Vector.ofFn (fun (i : Fin 64) =>
      if i.val = 0 then c.regs[i] else { val := x i.val, poison := (x (64 + i.val)).getLsbD 0, taint := [] })
    preds := Vector.ofFn (fun (i : Fin 8) =>
      if i.val = 0 then c.preds[i]
      else { val := (x (128 + i.val)).getLsbD 0, poison := (x (128 + i.val)).getLsbD 1, taint := [] })
    pend := []
    descs := Vector.ofFn (fun (i : Fin 32) => ⟨x (144 + i.val), x (176 + i.val)⟩)
    chains := Vector.ofFn (fun (i : Fin 8) => x (208 + i.val))
    latches := Vector.ofFn (fun (i : Fin 4) => { c.latches[i] with val := x (216 + i.val) })
    fms := Vector.ofFn (fun (i : Fin 16) => (x (220 + i.val)).setWidth 32)
    scs := Vector.ofFn (fun (i : Fin 16) => (x (236 + i.val)).setWidth 8)
    slack := Vector.ofFn (fun (i : Fin 16) => (x (252 + i.val)).setWidth 16)
    flags := (x 268).setWidth 6, priv := (x 268).getLsbD 8, acchk := (x 268).getLsbD 10
    pc := keep (x 269) 2 55, lbeg := keep (x 270) 2 55, lend := keep (x 271) 2 55, lcnt := x 272
    tcx := keep (x 273) 0 16, tcy := keep (x 274) 0 16, tcz := keep (x 275) 0 16
    tcause := x 276 &&& 0xDFF, tbadr := x 277, tval := x 278, thand := keep (x 279) 2 55
    lqwait := x 280, lotflags := (x 281).setWidth 16
    ptbase := keep (x 282) 12 29, asid := keep (x 283) 0 12, ctxsave := keep (x 284) 12 45
    resumeAddr := keep (x 285) 2 55, savedLbeg := keep (x 286) 2 55, savedLend := keep (x 287) 2 55
    savedLcnt := x 288
    tiles := Vector.ofFn (fun (i : Fin 8) => freeTile (fv + 300 + 4096 * i.val) c.tiles[i].form)
    lq := c.lq.zipIdx.map (fun (e, k) => { e with data := e.data.map (fun r => { r with val := x (40000 + k) }) }) }

/-- A filled context: what its area gives, or nothing that is defined; and the flags that its commands and accesses have
raised meanwhile (13 R226; 08 R184). It counts as captured, so that its undeclared registers are undefined after the
next restore (05 R75). -/
def State.filled (s : State) (c : Ctx) (w : Nat → Word) : Ctx × State :=
  let (d, s) := s.loadPublic c w
  if c.areaKept w then
    ({ d with flags := d.flags ||| c.flags, lotflags := d.lotflags ||| c.lotflags, captured := true }, s)
  else ({ d.lost s.fv with captured := true }, { s with fv := s.fv + 65536 })

/-- The offsets a fill reads. -/
def Ctx.areaOffsets (c : Ctx) : List Nat :=
  (c.publicWords false).map (·.1) ++ hiddenOffsets ++ c.tileAreas.map (·.1)

/-- A filled bank's new state. -/
def State.setBank (s : State) (ofCx : Bool) (c : Ctx) (st : BankSt) : State :=
  if ofCx then { s with cx := c, cxSt := st } else { s with sh := c, shSt := st }

/-- The firmware hears of a fill of a context that met an error (13 R215, R227): no bundle did, and the record goes to
the sessions of the context's address space (20 R302, R306). -/
def State.fillRecord (s : State) (c : Ctx) (ofCx : Bool) (r : FaultRec) : State :=
  { s.recordFor (s.sessionsOf 0 c.asid.toNat) 2 r.cause 0 (if ofCx then s.bank else !s.bank) (-1) 0 with
    core := { s.core with fillFault := some r } }

/-- FILL_COMPLETE (13 R225 to R227): the bank holds the context, ready, or held while its fault is
not resolved; a page that does not translate leaves the bank empty and the save area unchanged, and so does
an error in a page table, which is MCHK reason 0 (log entry 69); a marked line is MCHK reason 1, and the task
ends with reason 8. The header's resolve and kill bits are the firmware's decision. -/
def State.fillComplete (s : State) : State :=
  match s.core.filling with
  | none => s
  | some t =>
    if s.cyc < t then s
    else
      let ofCx := s.shSt != .filling
      let c := if ofCx then s.cx else s.sh
      let (s1, ws, bad, stop) := ({ s with core := { s.core with filling := none } }).readArea c c.areaOffsets
      let area := c.ctxsave.toNat
      let back := (({ s1 with core := { s1.core with saved := (area, c) :: s1.core.saved } }).setBank
          ofCx Ctx.fresh .empty)
      let ended := (s1.setBank ofCx Ctx.fresh .empty).endSaved area c (some 8)
      match stop with
      | some .page => back
      | some .table => back.fillRecord c ofCx { cause := 18, reason := 0, addr := c.ctxsave }
      | none =>
        if bad then ended.fillRecord c ofCx { cause := 18, reason := 1, addr := c.ctxsave }
        else
          let w := areaWordAt ws
          let (c1, s1) := s1.filled c w
          if (w 32).getLsbD 1 then ended
          else if (c.fault.isSome && !(w 32).getLsbD 0) || c.stop.isSome then s1.setBank ofCx c1 .held
          else s1.setBank ofCx c1.resumed .ready

/-- The meaning of FILL_COMPLETE. -/
def execFillComplete (s : State) : Out := .next s.fillComplete

end Sys2Proof.Machine
end

