-- ==== Sys2Proof/Machine/Pricking.lean ====
section
/-!
DEFINITION. The pricking (14 R231 to R243): posts, nodes, image loading (21 R317), placement,
pre-emption, prefetch, the end of tasks and of nodes; eviction of partitions (06 R98). It runs while
the firmware runs. Its own times (14 R338) are left out.
-/

namespace Sys2Proof.Machine

open Sys2Proof

/-! ### Global memory as the pricking reads it -/

/-- The frames of n pages from page p, or none where one does not translate. -/
def pagesFrom (ptbase asid : Nat) (write : Bool) : Nat → Nat → State → Option (List Nat) × State
  | 0, _, s => (some [], s)
  | n + 1, p, s =>
    match s.translate ptbase asid (mkWord (p * 4096)) write true with
    | (.ok pa _, s) =>
      match pagesFrom ptbase asid write n (p + 1) s with
      | (some l, s) => (some (pa :: l), s)
      | r => r
    | (_, s) => (none, s)

/-- A range of global memory: the frames of its pages and its offset in the first. -/
structure Span where
  pages : List Nat
  off : Nat

/-- The range of n bytes at a global address, or none where a page does not translate. -/
def State.span (s : State) (ptbase asid va n : Nat) (write : Bool) : Option Span × State :=
  if 2 ^ 56 < va + n then (none, s)
  else
    match pagesFrom ptbase asid write ((va + n - 1) / 4096 - va / 4096 + 1) (va / 4096) s with
    | (some l, s) => (some ⟨l, va % 4096⟩, s)
    | (none, s) => (none, s)

/-- The location of a byte of a range. -/
def Span.loc (x : Span) (pkg o : Nat) : Nat :=
  let k := x.off + o
  hbmLoc pkg ((x.pages[k / 4096]?).getD 0 + k % 4096)

/-- A 64-bit word of a range; one of a poison-marked line is undefined (06 R102). -/
def State.spanWord (s : State) (x : Span) (o : Nat) : Word × State :=
  let l := x.loc s.pkgid o
  if s.marked l then s.draw else (s.word l, s)

/-- The first n words of a range. -/
def State.spanWords (s : State) (x : Span) : Nat → Nat → List Word × State
  | 0, _ => ([], s)
  | n + 1, o =>
    let (w, s) := s.spanWord x o
    let (l, s) := s.spanWords x n (o + 8)
    (w :: l, s)

/-! ### Nodes -/

/-- A node by its generation. -/
def State.nodeOf (s : State) (gen : Nat) : Option Node := s.sched.nodes.find? (fun n => n.gen == gen)

/-- The latest node posted at a record address (14 R235). -/
def State.nodeAt (s : State) (addr : Nat) : Option Node := s.sched.nodes.find? (fun n => n.addr == addr)

/-- Whether a node has finished (14 R232). -/
def Node.finished (n : Node) : Bool := n.st == 4 || n.st == 5

/-- The tasks of a node; a copy counts as one (14 R235). -/
def Node.total (n : Node) : Nat := if n.kind = 0 then n.gx * n.gy * n.gz else 1

/-- Word 6 of the record (14 R232). -/
def Node.word6 (n : Node) : Word := mkWord (n.st + n.reason * 2 ^ 8 + n.forced * 2 ^ 16)

/-- Write word 6 of a node's record, where its page translates. -/
def State.writeWord6 (s : State) (n : Node) : State :=
  match s.span n.ptbase n.asid (n.addr + 48) 8 true with
  | (some x, s) => s.setWord (x.loc s.pkgid 0) n.word6
  | (none, s) => s

/-- Replace a node, by its generation, and write word 6 of its record. -/
def State.putNode (s : State) (n : Node) : State :=
  ({ s with sched := { s.sched with
    nodes := s.sched.nodes.map (fun (x : Node) => if x.gen == n.gen then n else x) } }).writeWord6 n

/-- A waiting node whose predecessors are finished and whose image is loaded becomes ready (14 R235,
21 R317). -/
def State.readyIf (s : State) (gen : Nat) : State :=
  match s.nodeOf gen with
  | some n =>
    if n.st == 1 && n.preds == 0 && n.loaded then s.putNode { n with st := 2, readyAt := s.cyc } else s
  | none => s

/-- A predecessor of a node has finished in state 4 (14 R235). -/
def State.predDone (s : State) (gen : Nat) : State :=
  match s.nodeOf gen with
  | some n =>
    if n.st == 1 then
      ({ s with sched := { s.sched with
        nodes := s.sched.nodes.map (fun (x : Node) =>
          if x.gen == gen then { x with preds := x.preds - 1 } else x) } }).readyIf gen
    else s
  | none => s

/-! ### Images -/

/-- The bytes of a range; those of a poison-marked line are undefined (06 R102). -/
def State.spanBytes (s : State) (x : Span) (n : Nat) : List Byte × State :=
  let bad := fun (o : Nat) => s.marked (x.loc s.pkgid o)
  ((List.range n).map (fun o =>
    if bad o then (Config.freeWord (s.fv + o)).extractLsb' 0 8 else s.byte (x.loc s.pkgid o)),
   if (List.range n).any bad then { s with fv := s.fv + n } else s)

/-- The outcome of loading a node's image: the reason to finish with, or the image (21 R313, R316, R317). -/
def State.tryImage (s : State) (n : Node) : (Nat ⊕ Image) × State :=
  match s.span n.ptbase n.asid n.code 64 false with
  | (none, s) => (.inl 1, s)
  | (some x, s) =>
    let (h, s) := s.spanWords x 8 0
    if !headerOk h then (.inl 5, s)
    else
      let off := bitsOf ((h[4]?).getD 0) 0 32
      let len := bitsOf ((h[4]?).getD 0) 32 32
      match s.span n.ptbase n.asid (n.code + off) (Nat.max 1 len) false with
      | (none, s) => (.inl 1, s)
      | (some c, s) =>
        let (code, s) := s.spanBytes c len
        match loadImage n.code n.asid n.gen h c.pages c.off code with
        | some im => (.inr im, s)
        | none => (.inl 5, s)

/-- The image that an earlier node has loaded, or is loading, from a node's code (21 R317). -/
def State.imageAt (s : State) (n : Node) : Option Image :=
  s.sched.images.find? (fun m => m.addr == n.code && m.asid == n.asid)

/-- Whether the code that an image was loaded from has been written since. -/
def State.rewritten (s : State) (n : Node) (m : Image) : Bool :=
  match (s.tryImage n).1 with
  | .inr im => { im with id := 0, ready := false, pages := [], off := 0 }
      != { m with id := 0, ready := false, pages := [], off := 0 }
  | _ => true

/-- Whether an unfinished node runs an image. -/
def State.inUse (s : State) (m : Image) : Bool := s.sched.nodes.any (fun n => !n.finished && n.image == some m.id)

/-- Whether a node takes the image that an earlier node has loaded: yes, unless software has written the image since.
Then it is loaded anew, but that a launch posted while an unfinished node runs the image runs the old one or the new one
(21 R317; log entry 60). -/
def State.takes (s : State) (n : Node) (m : Image) : Bool × State :=
  if !s.rewritten n m then (true, s)
  else if !s.inUse m then (false, s)
  else
    let (k, s) := s.choose 2
    (k == 0, s)

/-- The loaded image that a node takes as it is posted, if any. -/
def State.takeReady (s : State) (n : Node) : Option Nat × State :=
  match s.imageAt n with
  | some m =>
    if n.loaded || !m.ready then (none, s)
    else
      let (yes, s) := s.takes n m
      (if yes then some m.id else none, s)
  | none => (none, s)

/-! ### Nodes finish -/

/-- A node finishes: in state 4, and its successors' counts fall, or in state 5 with a reason, and its
successors finish with reason 4, in turn (14 R233, R235). -/
def finishNode : Nat → Nat → Option Nat → State → State
  | 0, _, _, s => s
  | fuel + 1, gen, reason, s =>
    match s.nodeOf gen with
    | none => s
    | some n =>
      if n.finished then s
      else
        let s := s.putNode { n with st := if reason.isSome then 5 else 4, reason := reason.getD 0 }
        n.succs.foldl (fun s g =>
          match reason with
          | some _ => finishNode fuel g (some 4) s
          | none => s.predDone g) s

/-- A node finishes, with enough fuel for every node. -/
def State.finish14 (s : State) (gen : Nat) (reason : Option Nat) : State :=
  finishNode (s.sched.nodes.length + 1) gen reason s

/-- Whether node g is a successor of node n, directly or in turn, within a number of edges. -/
def isSucc (s : State) : Nat → Nat → Nat → Bool
  | 0, _, _ => false
  | fuel + 1, n, g =>
    match s.nodeOf n with
    | some x => x.succs.any (fun y => y == g || isSucc s fuel y g)
    | none => false

/-! ### Posts -/

/-- The location of a mailbox word: the first 512 bytes of the control core's scratchpad (14 R231). -/
def State.mailLoc (s : State) (i : Nat) : Nat := coreLoc s.pkgid 1536 (8 * i)

/-- MAILBOX_WRITE (14 R234): as `STE`, it waits for an empty word, stores the record's address and sets
the word full. Hosts post in the address space last given to a job, privileged (log entry 25). -/
def State.mailboxWrite (s : State) (i addr : Nat) : State :=
  let l := s.mailLoc i
  if !s.firmware || s.full l then s
  else
    let p : Post :=
      { addr := addr, priv := true, level := 3, asid := s.sched.jobAsid
        ptbase := Config.tableRoot s.sched.jobAsid, mail := some i }
    let s := ((s.setWord l (mkWord addr)).setTag l true).enterPosts
    State.enterPosts { s with sched := { s.sched with posts := s.sched.posts ++ [p] } }

/-- The meaning of MAILBOX_WRITE. -/
def execMailboxWrite (i addr : Nat) (s : State) : Out := .next (s.mailboxWrite i addr)

/-- The fields of a record that make a node, as far as they say (14 R232). -/
def nodeOfRecord (p : Post) (gen : Nat) (w : List Word) : Node :=
  let x := fun (i : Nat) => (w[i]?).getD 0
  let prio := bitsOf (x 0) 0 2
  { addr := p.addr, gen := gen, asid := p.asid, ptbase := p.ptbase, priv := p.priv
    kind := bitsOf (x 0) 2 2, cfn := bitsOf (x 0) 10 3
    prio := if p.priv then prio else Nat.min prio p.level
    code := bitsOf (x 1) 0 57, gx := bitsOf (x 2) 0 16, gy := bitsOf (x 2) 16 16
    gz := bitsOf (x 2) 32 16, args := bitsOf (x 3) 0 57
    loaded := bitsOf (x 0) 2 2 != 0 }

/-- Predecessors named by a record. -/
def npred (w : List Word) : Nat := bitsOf ((w[0]?).getD 0) 4 5

/-- Reason 1 of 14 R233 as the record itself shows it. -/
def recordBad (n : Node) (w : List Word) : Bool :=
  let x := fun (i : Nat) => (w[i]?).getD 0
  (x 0).getLsbD 9 || bitsOf (x 0) 13 51 != 0 || decide (1 < n.kind) || decide (16 < npred w)
  || bitsOf (x 1) 57 7 != 0 || bitsOf (x 2) 48 16 != 0 || bitsOf (x 3) 57 7 != 0
  || bitsOf (x 4) 57 7 != 0 || x 5 != 0
  || (if n.kind = 0 then n.cfn != 0 || n.gx == 0 || n.gy == 0 || n.gz == 0 else x 2 != 0)
  || n.code % 64 != 0 || (npred w != 0 && bitsOf (x 4) 0 57 % 8 != 0)

/-- Reason 6 of 14 R233. -/
def cfnBad (n : Node) : Bool :=
  n.kind == 1 && (decide (6 ≤ n.cfn) || (n.cfn == 4 && !n.priv))

/-- The record addresses a list names, or none where a page of it does not translate. -/
def State.predAddrs (s : State) (n : Node) (w : List Word) : Option (List Nat) × State :=
  if npred w = 0 then (some [], s)
  else
    match s.span n.ptbase n.asid (bitsOf ((w[4]?).getD 0) 0 57) (8 * npred w) false with
    | (some x, s) =>
      let (l, s) := s.spanWords x (npred w) 0
      (some (l.map (·.toNat)), s)
    | (none, s) => (none, s)

/-- Reason 7 of 14 R233: an address that names no node taken before, the node itself, or, for
`REQUEUE`, the issuing task's node or a successor of it. -/
def State.predBad (s : State) (p : Post) (addr : Nat) : Bool :=
  match s.nodeAt addr with
  | none => true
  | some m =>
    addr == p.addr ||
    (match p.requeue with
     | some g => m.gen == g || isSucc s (s.sched.nodes.length + 1) g m.gen
     | none => false)

/-- Node n becomes a successor of node g. -/
def State.addSucc (s : State) (g n : Nat) : State :=
  { s with sched := { s.sched with
    nodes := s.sched.nodes.map (fun (x : Node) =>
      if x.gen == g then { x with succs := x.succs ++ [n] } else x) } }

/-- The nodes posted by `REQUEUE` from tasks of a node, and from theirs in turn, within a number of edges. -/
def State.handedOff (s : State) : Nat → Nat → List Node
  | 0, _ => []
  | fuel + 1, gen =>
    (s.sched.nodes.filter (fun n => n.requeued == some gen)).flatMap (fun n => n :: s.handedOff fuel n.gen)

/-- The predecessors of a node that lists some nodes: those unfinished, and what their tasks have handed off
with `REQUEUE`, for the node is now a successor of theirs (14 R235, R250). -/
def State.predsOf (s : State) (l : List Node) : List Node :=
  let open_ := l.filter (fun m => !m.finished)
  open_ ++ open_.flatMap (fun m => s.handedOff s.sched.nodes.length m.gen)

/-- The node is linked to its predecessors: one count for each that is not finished (14 R235). -/
def State.linkPreds (s : State) (gen : Nat) (addrs : List Nat) : State :=
  let open_ := (s.predsOf (addrs.filterMap s.nodeAt)).filter (fun m => !m.finished)
  let s := { s with sched := { s.sched with
    nodes := s.sched.nodes.map (fun (x : Node) =>
      if x.gen == gen then { x with preds := x.preds + open_.length } else x) } }
  open_.foldl (fun s m => s.addSucc m.gen gen) s

/-- `REQUEUE` makes the posted node a predecessor of every unfinished successor of the issuing task's
node (14 R250). -/
def State.linkRequeue (s : State) (gen issuer : Nat) : State :=
  let succs := ((s.nodeOf issuer).map (·.succs)).getD []
  let open_ := succs.eraseDups.filter (fun g => ((s.nodeOf g).map (fun m => !m.finished)).getD false)
  open_.foldl (fun (s : State) g =>
    let s := { s with sched := { s.sched with
      nodes := s.sched.nodes.map (fun (x : Node) =>
        if x.gen == g then { x with preds := x.preds + 1 } else x) } }
    s.addSucc gen g) s

/-- A node enters the pricking's record; the newest stands first. -/
def State.addNode (s : State) (n : Node) : State :=
  { s with sched := { s.sched with nodes := n :: s.sched.nodes, gens := n.gen } }

/-- The node of a post whose record translates: its fields, links and first state, or the reason it
finishes with at once (14 R233, R235, R250). -/
def State.makeNode (s : State) (p : Post) (x : Span) : State :=
  let gen := s.sched.gens + 1
  let (w, s) := s.spanWords x 6 0
  let n := nodeOfRecord p gen w
  let bad := recordBad n w
  let (code, s) := if bad then (none, s) else s.span n.ptbase n.asid n.code 64 false
  let (preds, s) := if bad then (none, s) else s.predAddrs n w
  let addrs := preds.getD []
  let reason : Option Nat :=
    if bad || code.isNone || preds.isNone then some 1
    else if cfnBad n then some 6
    else if addrs.any (s.predBad p) then some 7
    else
      let l := addrs.filterMap s.nodeAt
      if (l ++ s.predsOf l).any (fun m => m.st == 5) then some 4 else none
  let (im, s) := if reason.isSome then (none, s) else s.takeReady n
  let s := s.addNode { n with loaded := n.loaded || im.isSome, image := im, requeued := p.requeue }
  let s := match p.requeue with | some g => s.linkRequeue gen g | none => s
  match reason with
  | some r => s.finish14 gen (some r)
  | none =>
    let s := s.linkPreds gen addrs
    let s := match s.nodeOf gen with | some n => s.putNode n | none => s
    s.readyIf gen

/-- A post whose record is misaligned or does not translate: its node finishes with reason 1 (14 R233), and
with it, in turn, the successors that a `REQUEUE` binds to it (R250). -/
def State.badPost (s : State) (p : Post) : State :=
  let gen := s.sched.gens + 1
  let s := s.addNode { addr := p.addr, gen := gen, asid := p.asid, ptbase := p.ptbase, requeued := p.requeue }
  let s := match p.requeue with | some g => s.linkRequeue gen g | none => s
  s.finish14 gen (some 1)

/-- POST_TAKE (14 R234, R235, R338): the pricking takes the post that entered first; a mailbox word is
left empty; a post of an unfinished node's address is discarded and counted. -/
def State.postTake (s : State) : State :=
  let s := s.enterPosts
  match s.sched.posts.find? (·.entered) with
  | none => s
  | some p =>
    if !s.firmware then s
    else
      let s := { s with sched := { s.sched with posts := s.sched.posts.erase p } }
      let s := match p.mail with | some i => s.setTag (s.mailLoc i) false | none => s
      if (s.nodeAt p.addr).any (fun n => !n.finished) then
        { s with sched := { s.sched with postdup := (s.sched.postdup + 1) % 2 ^ 64 } }
      else if p.addr % 64 != 0 then s.badPost p
      else
        match s.span p.ptbase p.asid p.addr 64 true with
        | (some x, s) => s.makeNode p x
        | (none, s) => s.badPost p

/-- The meaning of POST_TAKE. -/
def execPostTake (s : State) : Out := .next s.postTake

/-! ### Loading -/

/-- Set the outcome of a node's loading, and the image it takes. -/
def State.setLoad (s : State) (gen : Nat) (r : Nat) (im : Option Nat) : State :=
  { s with sched := { s.sched with
    nodes := s.sched.nodes.map (fun (x : Node) =>
      if x.gen == gen then { x with load := some r, image := im } else x) } }

/-- The loader reads, checks and finalizes a node's image; an image of the same code that no node runs any more is
gone (21 R317). -/
def State.loadAnew (s : State) (n : Node) : State :=
  match s.tryImage n with
  | (.inl r, s) => s.setLoad n.gen r none
  | (.inr im, s) =>
    let old := fun (m : Image) => m.addr == im.addr && m.asid == im.asid && !s.inUse m
    ({ s with sched := { s.sched with images := im :: s.sched.images.filter (fun m => !old m) } }).setLoad n.gen 0 (some im.id)

/-- IMAGE_LOAD (21 R317): the loader checks, finalizes and pins the image of a node that waits for it, once per
package while its code stays as it is. -/
def State.imageLoad (s : State) (gen : Nat) : State :=
  match s.nodeOf gen with
  | none => s
  | some n =>
    if !s.firmware || n.kind != 0 || n.loaded || n.load.isSome || n.finished then s
    else
      match s.imageAt n with
      | none => s.loadAnew n
      | some m =>
        let (yes, s) := s.takes n m
        if yes then s.setLoad gen 0 (some m.id) else s.loadAnew n

/-- The meaning of IMAGE_LOAD. -/
def execImageLoad (node : Nat) (s : State) : Out := .next (s.imageLoad node)

/-- IMAGE_LOAD_COMPLETE (21 R317): the node's image is loaded, and a node without predecessors left
becomes ready; or the node finishes with the loader's reason. -/
def State.imageLoadComplete (s : State) (gen : Nat) : State :=
  match s.nodeOf gen with
  | none => s
  | some n =>
    match n.load with
    | none => s
    | some r =>
      if !s.firmware || n.loaded || n.finished then s
      else if r = 0 then
        ({ s with sched := { s.sched with
          images := s.sched.images.map (fun (m : Image) =>
            if n.image == some m.id then { m with ready := true } else m)
          nodes := s.sched.nodes.map (fun (x : Node) =>
            if x.gen == gen then { x with loaded := true } else x) } }).readyIf gen
      else s.finish14 gen (some r)

/-- The meaning of IMAGE_LOAD_COMPLETE. -/
def execImageLoadComplete (node : Nat) (s : State) : Out := .next (s.imageLoadComplete node)

/-- NODE_FINISH (14 R233, R235, R250): every task has ended, or one has failed and those placed have
ended; no `REQUEUE` of a task of the node is still to be taken. -/
def State.nodeFinish (s : State) (gen : Nat) : State :=
  match s.nodeOf gen with
  | none => s
  | some n =>
    if !s.firmware || n.st != 3 || s.sched.posts.any (fun p => p.requeue == some gen) then s
    else if n.failed.isSome then (if n.next ≤ n.ended then s.finish14 gen n.failed else s)
    else if n.total ≤ n.ended then s.finish14 gen none
    else s

/-- The meaning of NODE_FINISH. -/
def execNodeFinish (node : Nat) (s : State) : Out := .next (s.nodeFinish node)

/-! ### Resources -/

/-- Bytes of a granule: 64 KiB of a core scratchpad, 256 KiB of a quad scratchpad (06 R95). -/
def granule (quad : Bool) : Nat := if quad then 2 ^ 18 else 2 ^ 16

/-- Granules that cover a request (06 R96). -/
def granules (quad : Bool) (bytes : Nat) : Nat := (bytes + granule quad - 1) / granule quad

/-- The first granule of the pre-emption reserve, 4 granules of 32 (06 R98; log entry 26). -/
def reserveBase : Nat := if Config.reserveAtTop then 28 else 0

/-- Whether n granules from g overlap m granules from h. -/
def overlaps (g n h m : Nat) : Bool := decide (g < h + m) && decide (h < g + n) && n != 0 && m != 0

/-- The granules at which a run of n free ones of a scratchpad begins. -/
def State.runStarts (s : State) (quad : Bool) (unit n : Nat) : List Nat :=
  (List.range 32).filter (fun g =>
    decide (g + n ≤ 32) && !overlaps g n reserveBase 4
    && s.sched.grants.all (fun x => x.quad != quad || x.unit != unit ||
      !overlaps g n (x.base / granule quad) (granules quad x.size)))

/-- The largest run of free granules of a scratchpad (14 R236). -/
def State.largestRun (s : State) (quad : Bool) (unit : Nat) : Nat :=
  ((List.range 33).filter (fun n => n == 0 || !(s.runStarts quad unit n).isEmpty)).foldl Nat.max 0

/-- Whether the reserve of a scratchpad is free. -/
def State.reserveFree (s : State) (quad : Bool) (unit : Nat) : Bool :=
  !s.sched.grants.any (fun x => x.quad == quad && x.unit == unit && x.reserve)

/-- What the die of the core followed reports of it (14 R236, R248). -/
def State.ownReport (s : State) : CoreReport :=
  { free := s.cxSt == .empty && s.shSt == .empty
    emptyBank := s.cxSt == .empty || s.shSt == .empty
    coreGranules := s.largestRun false s.coreid
    quadGranules := s.largestRun true (s.coreid / 4)
    barriers := 512 - s.core.bars.length }

/-- Replace the report of a core. -/
def State.setReport (s : State) (core : Nat) (r : CoreReport) : State :=
  { s with sched := { s.sched with
    reports := (core, r) :: s.sched.reports.filter (fun e => e.1 != core) } }

/-- A task of another core has ended: its core partition is free, and its quad partition with the last task that
stands in it (06 R97; log entry 113). -/
def State.dropPlaced (s : State) (p : Placed) : State :=
  let mine := fun (g : Grant) => !g.quad && g.unit == p.core && g.launch == p.launch && g.base == p.base &&
      g.size == p.size
  let quad := fun (g : Grant) => g.quad && g.unit == p.core / 4 && g.launch == p.launch && g.base == p.quadBase
    && p.quadSize != 0
  let lost := fun (g : Grant) => mine g || (quad g && g.tasks ≤ 1)
  let gone := s.sched.grants.filter lost
  let s := { s with sched := { s.sched with
    grants := (s.sched.grants.filter (fun g => !lost g)).map
      (fun (g : Grant) => if quad g then { g with tasks := g.tasks - 1 } else g) } }
  gone.foldl (fun (s : State) g =>
    s.freeRange (if g.quad then quadLoc s.pkgid g.unit g.base else coreLoc s.pkgid g.unit g.base) g.size) s

/-- The tasks that another core still has, and those that have ended: all when it is free, and, when its running task
has ended, the last placed; a bank emptied by a spill ends none (log entry 52). -/
def State.stillThere (s : State) (core : Nat) (r : CoreReport) : List Placed × List Placed :=
  let there := s.sched.placed.filter (fun x => x.core == core)
  if r.free then ([], there) else if r.ended then (there.dropLast, there.getLast?.toList) else (there, [])

/-- RESOURCE_REPORT (14 R236): a die reports what is free of a core; of the core followed it reports
what this state shows. The tasks that a report tells have ended hold nothing any more (06 R97). -/
def State.resourceReport (s : State) (core : Nat) (r : CoreReport) : State :=
  if core == s.coreid && !s.core.control then s.setReport core s.ownReport
  else
    let (keep, gone) := s.stillThere core r
    let s := { s with sched := { s.sched with placed := s.sched.placed.filter (fun x => x.core != core) ++ keep } }
    (gone.foldl State.dropPlaced s).setReport core r

/-- The meaning of RESOURCE_REPORT. -/
def execResourceReport (core : Nat) (r : CoreReport) (s : State) : Out :=
  .next (s.resourceReport core r)

/-! ### The order of placement -/

/-- The image of a node. -/
def State.imageOf (s : State) (n : Node) : Option Image :=
  s.sched.images.find? (fun m => n.image == some m.id && m.ready)

/-- Lifetime D of a node, 1,000,000 where none is declared (14 R238). -/
def State.lifetime (s : State) (n : Node) : Nat := ((s.imageOf n).map (·.lifetime)).getD 1000000

/-- Whether a node has a task to place (14 R235, R237). -/
def Node.placing (n : Node) : Bool :=
  (n.st == 2 || n.st == 3) && n.failed.isNone && decide (n.next < n.total)

/-- The older of two nodes: by readiness, then by post (14 R237). -/
def older (a b : Node) : Node :=
  if a.readyAt < b.readyAt || (a.readyAt = b.readyAt && a.gen < b.gen) then a else b

/-- The oldest of the nodes that satisfy p. -/
def State.oldest (s : State) (p : Node → Bool) : Option Node :=
  (s.sched.nodes.filter p).foldl (fun o n => match o with | some m => some (older m n) | none => some n)
    none

/-- Whether a ready node that is not the oldest of its level has waited 2 × D (14 R238). -/
def State.claims (s : State) (n : Node) : Bool :=
  n.st == 2 && n.next == 0 &&
  (match s.oldest (fun m => m.placing && m.prio == n.prio) with
   | some o => o.gen != n.gen && decide (n.readyAt + 2 * s.lifetime o ≤ s.cyc)
   | none => false)

/-- The oldest claimant of the highest level that has one (14 R238). -/
def State.claimantNode (s : State) : Option Node :=
  [3, 2, 1, 0].findSome? (fun l =>
    s.oldest (fun n => n.placing && (n.claimant || s.claims n) && n.next == 0 && n.prio == l))

/-- The nodes whose next task may be placed, first choice first: the claimant, then the oldest node of
each level above the levels it blocks (14 R237, R238). -/
def State.placeOrder (s : State) : List Node :=
  let c := s.claimantNode
  let levels := match c with | some n => [3, 2, 1, 0].filter (fun l => decide (n.prio < l)) | none => [3, 2, 1, 0]
  c.toList ++ levels.filterMap (fun l => s.oldest (fun n => n.placing && n.prio == l))

/-- Every node that has waited its time is a claimant from then on (14 R238). -/
def State.noteClaimants (s : State) : State :=
  { s with sched := { s.sched with
    nodes := s.sched.nodes.map (fun (n : Node) => if s.claims n then { n with claimant := true } else n) } }

/-- CLAIMANT (14 R238): a ready node that is not the oldest of its level and has waited 2 × D. -/
def State.makeClaimant (s : State) (gen : Nat) : State :=
  if !s.firmware then s
  else
    { s with sched := { s.sched with
      nodes := s.sched.nodes.map (fun (n : Node) =>
        if n.gen == gen && s.claims n then { n with claimant := true } else n) } }

/-- The meaning of CLAIMANT. -/
def execClaimant (node : Nat) (s : State) : Out := .next (s.makeClaimant node)

/-! ### Placing a task -/

/-- Whether a grant is the quad partition of a launch on a quad; one in the reserve is that of a pre-empting task alone
(06 R97, R98). -/
def Grant.isQuadOf (g : Grant) (launch quad : Nat) : Bool :=
  g.quad && g.unit == quad && g.launch == launch && !g.reserve

/-- Whether a launch holds a quad partition on a quad. -/
def State.holdsQuad (s : State) (launch quad : Nat) : Bool :=
  s.sched.grants.any (fun g => g.isQuadOf launch quad)

/-- Whether a launch's quad partition of a quad is evicted: none of its tasks can be placed there until it is
restored, since they share one partition (06 R97, R98). -/
def State.quadAway (s : State) (launch quad : Nat) : Bool :=
  s.sched.evicted.any (fun e => e.grant.isQuadOf launch quad)

/-- Whether a launch's quad request of some granules can be met on a quad: by its partition there, or by a free
run that the die reports (06 R97, 14 R236). -/
def State.quadFits (s : State) (launch quad b reported : Nat) : Bool :=
  b == 0 || (!s.quadAway launch quad && (s.holdsQuad launch quad
    || (decide (b ≤ reported) && !(s.runStarts true quad b).isEmpty)))

/-- Whether a `CPYW` to a die is incomplete (10 R197). -/
def State.fillingDie (s : State) (die : Nat) : Bool :=
  s.core.copies.any (fun c => c.fn == 4 && c.store == die)

/-- Whether a task fits a core that is free (14 R236). -/
def State.fitsFree (s : State) (n : Node) (im : Image) (core : Nat) (r : CoreReport) : Bool :=
  let a := granules false im.scratch
  let b := granules true im.quadscratch
  r.free && r.emptyBank && decide (im.barriers ≤ r.barriers) && !s.fillingDie (core / 24)
  && decide (a ≤ r.coreGranules) && !(s.runStarts false core a).isEmpty
  && s.quadFits n.gen (core / 4) b r.quadGranules

/-- The report of a core, of the core followed as it stands. -/
def State.reportOf (s : State) (e : Nat × CoreReport) : Nat × CoreReport :=
  if e.1 == s.coreid && !s.core.control then (e.1, s.ownReport) else e

/-- The fitting core for a node's next task: of a quad that holds the launch's partition first, then of
lowest index, other than one excepted (14 R237). -/
def State.fitCore (s : State) (n : Node) (im : Image) (except : Option Nat) : Option Nat :=
  let fits := ((s.sched.reports.map s.reportOf).filter (fun e =>
    some e.1 != except && s.fitsFree n im e.1 e.2)).map (·.1)
  let best := fun (l : List Nat) =>
    l.foldl (fun o c => match o with | some m => some (Nat.min m c) | none => some c) (none : Option Nat)
  (best (fits.filter (fun c => s.holdsQuad n.gen (c / 4)))).or (best fits)

/-- A partition granted: zeroed, its tags full, with a bank key (06 R96 to R98, R100). The pricking chooses a free run.
-/
def State.grant (s : State) (quad : Bool) (unit launch bytes : Nat) (reserve : Bool) : Nat × State :=
  let k := granules quad bytes
  let starts := s.runStarts quad unit k
  let (i, s) := if reserve then (0, s) else s.choose starts.length
  let base := (if reserve then reserveBase else if k = 0 then 0 else (starts[i]?).getD 0) * granule quad
  let size := k * granule quad
  let loc := if quad then quadLoc s.pkgid unit base else coreLoc s.pkgid unit base
  let g : Grant := { quad := quad, unit := unit, launch := launch, base := base, size := size
                     reserve := reserve, key := Config.bankKey s.cyc loc }
  (base, { (s.zeroRange loc size) with sched := { s.sched with grants := g :: s.sched.grants } })

/-- The core partition and the quad partition of a task: base and size of each, and whether each lies in a
reserve (06 R96 to R98). -/
def State.grantTask (s : State) (n : Node) (im : Image) (core : Nat) (preempt : Bool) :
    (Nat × Nat × Nat × Nat × Bool × Bool) × State :=
  let a := granules false im.scratch
  let b := granules true im.quadscratch
  let resC := preempt && (s.runStarts false core a).isEmpty
  let (cb, s) := s.grant false core n.gen im.scratch resC
  let hit := fun (g : Grant) => g.isQuadOf n.gen (core / 4)
  if b = 0 then ((cb, a * granule false, 0, 0, resC, false), s)
  else
    match s.sched.grants.find? hit with
    | some g =>
      ((cb, a * granule false, g.base, g.size, resC, false),
       { s with sched := { s.sched with
         grants := s.sched.grants.map (fun (g : Grant) => if hit g then { g with tasks := g.tasks + 1 } else g) } })
    | none =>
      let resQ := preempt && (s.runStarts true (core / 4) b).isEmpty
      let (qb, s) := s.grant true (core / 4) n.gen im.quadscratch resQ
      ((cb, a * granule false, qb, b * granule true, resC, resQ), s)

/-- n unallotted barriers of the core, named nb0 to nb(n − 1) by the context uid (14 R244). -/
def State.allot (s : State) (uid n : Nat) : List Nat × State :=
  let l := ((List.range 512).filter (fun k => !s.core.bars.any (fun e => e.1 == k))).take n
  (l, { s with core := { s.core with
    bars := s.core.bars ++ l.zipIdx.map (fun (k, i) => (k, ({ holder := some uid, number := i } : Barrier))) } })

/-- The tile coordinates of task k of a node: tcx fastest (14 R237). -/
def Node.coords (n : Node) (k : Nat) : Nat × Nat × Nat := (k % n.gx, k / n.gx % n.gy, k / (n.gx * n.gy))

/-- The context a task of a node starts with (05 R74, 03 R21, 14 R236, R244). The loader's code origin
and the save area are the firmware's, so free (log entry 25). -/
def State.startCtx (s : State) (n : Node) (im : Image) (preempt : Bool) : Ctx × State :=
  let ((cb, cn, qb, qn, res, resQ), s) := s.grantTask n im s.coreid preempt
  let uid := s.sched.uids
  let s := { s with sched := { s.sched with uids := uid + 1 } }
  let (bars, s) := s.allot uid im.barriers
  let (origin, s) := s.draw
  let (save, s) := s.draw
  let origin := keep origin 6 40
  let (x, y, z) := n.coords n.next
  let near := fun (region base size : Nat) => if size = 0 then 0 else mkWord (region * 2 ^ 52 + base)
  let regs := ((((Ctx.fresh.regs.set 1 { val := mkWord n.args }).set 2 { val := near 0x10 cb cn }).set 3
    { val := mkWord cn }).set 4 { val := near 0x11 qb qn }).set 5 { val := mkWord qn }
  ({ Ctx.fresh with
     uid := uid, regs := regs, pc := origin, codeOrigin := origin, codeLen := im.codeLen
     codePages := im.pages, codeOff := im.off, codeLit := im.lit
     tcx := mkWord x, tcy := mkWord y, tcz := mkWord z
     ptbase := keep (mkWord n.ptbase) 12 29, asid := keep (mkWord n.asid) 0 12, ctxsave := keep save 12 45
     task := { node := n.gen, launch := n.gen, level := n.prio, regsN := im.regs, accsN := im.accs
               yieldwin := im.yieldwin, lifetime := im.lifetime, coreBase := cb, coreSize := cn
               quadBase := qb, quadSize := qn, reserve := res, reserveQ := resQ, barriers := bars
               placed := s.cyc } }, s)

/-- A node's next task is placed: the node runs, and is no claimant any more (14 R232, R238). -/
def State.tookTask (s : State) (n : Node) : State :=
  s.putNode { n with st := 3, next := n.next + 1, claimant := false }

/-- A core that has taken a task is free no more; a pre-empting task fills its second bank. -/
def State.busyReport (s : State) (core : Nat) (preempt : Bool) : State :=
  { s with sched := { s.sched with
    reports := s.sched.reports.map (fun (e : Nat × CoreReport) =>
      if e.1 == core then (e.1, { e.2 with free := false, emptyBank := e.2.emptyBank && !preempt }) else e) } }

/-- A task is placed on another core than the one followed. -/
def State.placeAway (s : State) (n : Node) (im : Image) (core : Nat) (preempt : Bool) : State :=
  let ((cb, cn, qb, qn, _), s) := s.grantTask n im core preempt
  let s := s.busyReport core preempt
  { s with sched := { s.sched with placed := s.sched.placed ++ [⟨core, n.prio, s.cyc, n.gen, cb, cn, qb, qn⟩] } }

/-- A task is placed on a core: on the core followed its context is written into the bank (13 R224). -/
def State.placeOn (s : State) (n : Node) (im : Image) (core : Nat) : State :=
  if core == s.coreid && !s.core.control then
    let (c, s) := s.startCtx n im false
    { s.busyReport core false with cx := c, cxSt := .ready }
  else s.placeAway n im core false

/-- The owner of the commands of copy nodes: no context bears it. -/
def copyOwner : Nat := 2 ^ 64

/-- The pricking as the issuer of a copy node's command: the control core, whose format registers and
scale table are as reset leaves them (10 R198, 14 R235). -/
def State.asPricking (s : State) (n : Node) : State :=
  { s with cx := { Ctx.fresh with priv := n.priv, ptbase := keep (mkWord n.ptbase) 12 29
                                  asid := keep (mkWord n.asid) 0 12 }
           core := { s.core with control := true } }

/-- A copy node starts on engine 0 of the die its block names (14 R235); a block the engine could not
be given finishes it with reason 1. -/
def State.startCopy (s : State) (n : Node) : State :=
  match s.span n.ptbase n.asid n.code 64 false with
  | (none, s) => s.finish14 n.gen (some 1)
  | (some x, s) =>
    let loc := x.loc s.pkgid 0
    let blk := s.blockWords loc 8
    let bad := s.marked loc
    let v := s.asPricking n
    if !bad && (v.copyBlockCheck n.cfn blk).isSome then s.finish14 n.gen (some 1)
    else
      let (id, s) := s.newId
      let cmd : CopyCmd :=
        { id := id, owner := copyOwner, fn := n.cfn, eng := false, die := blkDie blk, store := blkDie blk
          blk := blk, blkLoc := loc, cls := 0
          sfmt := if bad then none else some (v.fmtOf (blkSfmt blk))
          dfmt := if bad then none else some (v.fmtOf (blkDfmt blk))
          scales := if !bad && blkDscl blk then List.replicate 16 0 else []
          priv := n.priv, ptbase := n.ptbase, asid := n.asid, accepted := true
          fail := if bad then some 2 else none }
      let s := { s with core := { s.core with copies := s.core.copies ++ [cmd] } }
      s.putNode { n with st := 3, next := 1, copy := some id }

/-- Whether a copy node may start: no `CPYW` goes to a held die (10 R197), and the queue of its engine has room
for 32 commands (10 R186). -/
def State.copyFits (s : State) (n : Node) : Bool :=
  match s.span n.ptbase n.asid n.code 64 false with
  | (some x, s) =>
    let die := blkDie (s.blockWords (x.loc s.pkgid 0) 8)
    (n.cfn != 4 || !s.wsHeld die)
    && decide ((s.core.copies.filter (fun c => c.accepted && !c.started && c.engine == 2 * die)).length < 32)
  | (none, _) => true

/-- A placement that can be made: a node's next task on a fitting core, or a copy. -/
inductive Placement where
  | task (n : Node) (im : Image) (core : Nat)
  | copy (n : Node)

/-- The placement of a node, if its next task fits somewhere. -/
def State.placementOf (s : State) (n : Node) : Option Placement :=
  if n.kind = 0 then
    (s.imageOf n).bind (fun im => (s.fitCore n im none).map (fun c => .task n im c))
  else if s.copyFits n then some (.copy n)
  else none

/-- TASK_PLACEMENT (14 R236, R237): the first node of the order whose next task fits is given its
core; a node that fits nowhere holds its level only. -/
def State.taskPlacement (s : State) : State :=
  if !s.firmware then s
  else
    let s := s.noteClaimants
    match s.placeOrder.findSome? s.placementOf with
    | none => s
    | some (.copy n) => s.startCopy n
    | some (.task n im core) => (s.placeOn n im core).tookTask n

/-- The meaning of TASK_PLACEMENT. -/
def execTaskPlacement (s : State) : Out := .next s.taskPlacement

/-- TASK_START (14 R237; 05 R74): 40 cycles after its placement, a placed task issues. -/
def State.taskStart (s : State) : State :=
  if s.cxSt == .ready && !s.cx.captured && s.cx.uid != 0 && decide (s.cx.task.placed + 40 ≤ s.cyc)
      && !s.host.off then
    ({ s with cxSt := .running, stalled := false }).restore
  else s

/-- The meaning of TASK_START. -/
def execTaskStart (s : State) : Out := .next s.taskStart

/-! ### Pre-emption -/

/-- Whether a node's next task fits a core as a pre-empting task, by the free runs that the die reports or by the
reserves (06 R98, 14 R236). -/
def State.fitsPreempt (s : State) (n : Node) (im : Image) (core : Nat) (r : CoreReport) : Bool :=
  let a := granules false im.scratch
  let b := granules true im.quadscratch
  let q := core / 4
  !r.free && r.emptyBank && decide (im.barriers ≤ r.barriers) && !s.fillingDie (core / 24)
  && ((decide (a ≤ r.coreGranules) && !(s.runStarts false core a).isEmpty)
    || (decide (a ≤ 4) && s.reserveFree false core))
  && (s.quadFits n.gen q b r.quadGranules
    || (!s.quadAway n.gen q && decide (b ≤ 4) && s.reserveFree true q))

/-- Whether the core followed runs a task that can be asked to yield: one that waits in its `END` still runs (05
R94). -/
def State.mayPreempt (s : State) : Bool :=
  s.cxSt == .running && !s.core.control && s.core.yieldReq.isNone && s.sched.victim.isNone

/-- The task running on a core: its level and the cycle of its placement (14 R239). -/
def State.runningOn (s : State) (core : Nat) : Option (Nat × Nat) :=
  if core == s.coreid && !s.core.control then
    if s.mayPreempt then some (s.cx.task.level, s.cx.task.placed) else none
  else ((s.sched.placed.filter (fun x => x.core == core)).getLast?).map (fun x => (x.level, x.at_))

/-- Of two victims, as (core, level, cycle of placement), the one chosen first: of lower level, then most
recently placed, then on the lower core (14 R239). -/
def firstVictim (a b : Nat × Nat × Nat) : Nat × Nat × Nat :=
  if a.2.1 < b.2.1 || (a.2.1 == b.2.1 && (decide (b.2.2 < a.2.2) || (a.2.2 == b.2.2 && decide (a.1 ≤ b.1))))
  then a else b

/-- The victim for a node's next task: a running task of a lower level on a core where it fits as a pre-empting
task (14 R239, R242). -/
def State.victimOf (s : State) (n : Node) (im : Image) : Option Nat :=
  let l := (s.sched.reports.map s.reportOf).filterMap (fun e =>
    match s.runningOn e.1 with
    | some (level, at_) => if level < n.prio && s.fitsPreempt n im e.1 e.2 then some (e.1, level, at_) else none
    | none => none)
  match l with
  | [] => none
  | v :: t => some (t.foldl firstVictim v).1

/-- The next pre-emption: the first node of the order whose next task fits no free core, and its victim's
core. -/
def State.preemption (s : State) : Option (Node × Image × Nat) :=
  s.placeOrder.findSome? (fun n =>
    if n.kind = 0 then
      (s.imageOf n).bind (fun im =>
        if (s.fitCore n im none).isNone then (s.victimOf n im).map (fun core => (n, im, core)) else none)
    else none)

/-- VICTIM_CHOICE (14 R239): the pricking chooses the running task of a core, writes the pre-empting task's
context into the empty bank and sends a yield request; on another core than the one followed, the task is
placed there. -/
def State.victimChoice (s : State) : State :=
  if !s.firmware then s
  else
    let s := s.noteClaimants
    match s.preemption with
    | none => s
    | some (n, im, core) =>
      if core == s.coreid && !s.core.control then
        let victim := s.cx.uid
        let (c, s) := s.startCtx n im true
        ({ s with sh := c, shSt := .ready, sched := { s.sched with victim := some victim } }).tookTask n
      else (s.placeAway n im core true).tookTask n

/-- The meaning of VICTIM_CHOICE. -/
def execVictimChoice (s : State) : Out := .next s.victimChoice

/-- YIELD_REQUEST (14 R239, R240; 20 R305): the request reaches the core and opens the window; a frozen
or stopped victim gives way at once; a victim that is gone is asked nothing. -/
def State.yieldRequest (s : State) : State :=
  match s.sched.victim with
  | none => s
  | some uid =>
    let s := { s with sched := { s.sched with victim := none } }
    if s.cx.uid != uid then s
    else if s.cxSt == .running then
      { s with core := { s.core with yieldReq := some (s.cyc, s.cyc + s.cx.task.yieldwin) } }
    else if s.cxSt == .held then s.leave .held 3
    else s

/-- The meaning of YIELD_REQUEST. -/
def execYieldRequest (s : State) : Out := .next s.yieldRequest

/-- The forced count of a node rises, saturating (14 R232, R240). -/
def State.countForced (s : State) (gen : Nat) : State :=
  match s.nodeOf gen with
  | some n => s.putNode { n with forced := Nat.min 65535 (n.forced + 1) }
  | none => s

/-- YIELD_WINDOW_EXPIRY (14 R240): no `YIELD` has issued by the end of cycle e, and the switch is
forced; a stalled bundle reissues whole. A `YIELD` that found the request in a held bundle is in time. A victim
that a debugger has stopped stays held, and the switch follows (20 R305). -/
def State.yieldExpiry (s : State) : State :=
  match s.core.yieldReq with
  | none => s
  | some (_, e) =>
    if !decide (e < s.cyc) || s.host.off || s.yieldHeld then s
    else if s.cxSt == .running then
      let s := s.countForced s.cx.task.node
      let s := { s with stalled := false
                        cx := { s.cx with replay := s.cx.replay.map Replay.again } }
      let s := s.capture
      ({ s with core := { s.core with yieldReq := none } }).leave .ready 1
    else if s.cxSt == .held && s.cx.stop.isSome then
      ({ s.countForced s.cx.task.node with core := { s.core with yieldReq := none } }).leave .held 1
    else s

/-- The meaning of YIELD_WINDOW_EXPIRY. -/
def execYieldWindowExpiry (s : State) : Out := .next s.yieldExpiry

/-- The pre-empting context prepared in the shadow bank is removed with what it was granted. -/
def State.unprepare (s : State) : State :=
  let t := ({ s with cx := s.sh }).releaseTask
  { t with cx := s.cx, sh := Ctx.fresh, shSt := .empty
           core := { t.core with yieldReq := none }, sched := { t.sched with victim := none } }

/-- YIELD_REQUEST_WITHDRAW (14 R240): the task is placed on another core where it fits, the ready bank
is emptied, and a later `YIELD` has no effect. -/
def State.yieldWithdraw (s : State) : State :=
  if !s.firmware || s.shSt != .ready || s.sh.captured || (s.core.yieldReq.isNone && s.sched.victim.isNone)
      || s.yieldHeld then s
  else
    match s.nodeOf s.sh.task.node with
    | none => s
    | some n =>
      match (s.imageOf n).bind (fun im => (s.fitCore n im (some s.coreid)).map (fun c => (im, c))) with
      | none => s
      | some (im, core) => (s.unprepare).placeOn n im core

/-- The meaning of YIELD_REQUEST_WITHDRAW. -/
def execYieldRequestWithdraw (s : State) : Out := .next s.yieldWithdraw

/-- PREFETCH (14 R243): way 5 is filled from the image of the oldest ready node of the highest level
that is not yet placed; fetch returns the same words from any way. -/
def State.prefetch (s : State) : State :=
  if !s.firmware || s.cxSt != .running then s
  else
    match [3, 2, 1, 0].findSome? (fun l =>
        s.oldest (fun n => n.placing && n.kind == 0 && n.next == 0 && n.prio == l)) with
    | some n => { s with core := { s.core with way5 := some n.code } }
    | none => s

/-- The meaning of PREFETCH. -/
def execPrefetch (s : State) : Out := .next s.prefetch

/-! ### The end of a task -/

/-- The core's contexts of a node. -/
def State.ownTasks (s : State) (node : Nat) : Nat :=
  (s.contexts.filter (fun c => c.uid != 0 && c.task.node == node)).length

/-- What `END` does while it waits (05 R94): its closed batch is complete once its commands are, and,
after the accesses, its open lines are flushed. -/
def State.endFlush (s : State) : State :=
  if s.live && s.cx.ending then
    let s := { s with cx := s.cx.settleBatches }
    if s.cx.accs.isEmpty && s.cx.streams.isEmpty && s.cx.cmds.isEmpty then
      s.flushLines (fun l => l.owner == s.cx.uid)
    else s
  else s

/-- TASK_END (05 R94, 14 R233, R242; 20 R310): the running task's waits are met, it reports completion,
what it held is released and the other bank runs if ready; or a task of the node has ended on another
core, with an error reason or none (0). -/
def State.taskEnd (s : State) (node reason : Nat) : State :=
  if s.cx.ending && s.cx.task.node == node && s.live then
    let s := s.endFlush
    if s.endMet then
      s.endTask (if s.cx.unobserved then some 3 else none)
    else s
  else
    match s.nodeOf node with
    | some n =>
      if n.st == 3 && decide (n.ended + s.ownTasks node < n.next) then
        s.noteTaskEnd node (if reason = 0 then none else some reason)
      else s
    | none => s

/-- The meaning of TASK_END. -/
def execTaskEnd (node reason : Nat) (s : State) : Out := .next (s.taskEnd node reason)

/-! ### Eviction -/

/-- The tile task of the core whose partition may be evicted: the shadow bank's pre-empted task, else a
spilled one (06 R98, 14 R242). -/
def State.evictable (s : State) : Option Ctx :=
  if s.shSt == .ready && s.sh.captured then some s.sh
  else if s.shSt == .held || s.shSt == .ready then none
  else s.core.saved.head?.map (·.2)

/-- Whether a context has commands that engines still run. -/
def State.engaged (s : State) (c : Ctx) : Bool :=
  s.core.copies.any (fun x => x.owner == c.uid) || s.core.shq.any (fun x => x.owner == c.uid)
  || !c.streams.isEmpty

/-- The location of a grant. -/
def State.grantLoc (s : State) (g : Grant) : Nat :=
  if g.quad then quadLoc s.pkgid g.unit g.base else coreLoc s.pkgid g.unit g.base

/-- PARTITION_EVICTION (06 R98): the pricking saves its own partition of a task that does not run,
with its tags and marks, and zeroes its memory (DESIGN CHOICE, log entry 112); the task does not run until it is
restored. -/
def State.evict (s : State) (quad : Bool) : State :=
  match s.evictable with
  | none => s
  | some c =>
    let hit := fun (g : Grant) => g.quad == quad && g.launch == c.task.launch && g.size != 0
      && (if quad then g.unit == s.coreid / 4 && g.base == c.task.quadBase
          else g.unit == s.coreid && g.base == c.task.coreBase) && decide (g.tasks ≤ 1)
    match s.sched.grants.find? hit with
    | none => s
    | some g =>
      if !s.firmware || s.engaged c then s
      else
        let lo := s.grantLoc g
        let inside := fun (x : Nat) => decide (lo ≤ x) && decide (x < lo + g.size)
        let e : Evicted :=
          { grant := g
            bytes := s.mem.filter (fun x => inside x.1)
            empties := s.empties.filter (fun w => inside (8 * w))
            marks := s.marks.filter (fun l => inside (64 * l)) }
        let s := s.zeroRange lo g.size
        { s with
          shSt := if s.shSt == .ready then .held else s.shSt
          sched := { s.sched with grants := s.sched.grants.erase g, evicted := e :: s.sched.evicted } }

/-- The meaning of PARTITION_EVICTION. -/
def execPartitionEviction (quad : Bool) (s : State) : Out := .next (s.evict quad)

/-- The words of an evicted partition put back. -/
def State.putBack (s : State) (e : Evicted) : State :=
  let s := s.zeroRange (s.grantLoc e.grant) e.grant.size
  let s := e.bytes.foldl (fun (s : State) x => s.setByte x.1 x.2) s
  let s := e.empties.foldl (fun (s : State) w => s.setTag (8 * w) false) s
  e.marks.foldl (fun (s : State) l => s.setMark (64 * l) true) s

/-- PARTITION_RESTORE (06 R98): the partition stands again where it was, with its tags and marks, and a
task in the shadow bank may run. -/
def State.restorePartition (s : State) (quad : Bool) : State :=
  match s.sched.evicted.find? (fun e => e.grant.quad == quad) with
  | none => s
  | some e =>
    let clash := fun (g : Grant) => g.quad == quad && g.unit == e.grant.unit
      && decide (g.base < e.grant.base + e.grant.size) && decide (e.grant.base < g.base + g.size)
    if !s.firmware || s.sched.grants.any clash then s
    else
      let s := s.putBack e
      let rest := s.sched.evicted.erase e
      { s with
        shSt := if s.shSt == .held && s.sh.fault.isNone && s.sh.stop.isNone
            && s.sh.task.launch == e.grant.launch
            && !rest.any (fun x => x.grant.launch == e.grant.launch) then .ready else s.shSt
        sched := { s.sched with grants := e.grant :: s.sched.grants, evicted := rest } }

/-- The meaning of PARTITION_RESTORE. -/
def execPartitionRestore (quad : Bool) (s : State) : Out := .next (s.restorePartition quad)

end Sys2Proof.Machine
end

