-- ==== Sys2Proof/Machine/Host.lean ====
section
/-!
DEFINITION. Time (02 R19), the host ports and the host register page (22 R320 to R322), boot, reset,
identity and attestation (22 R323, R324), power and temperature (22 R325), and the configuration
requests of the semaphore's holder (22 R322, 17 R270).
-/

namespace Sys2Proof.Machine

open Sys2Proof

/-- Whether power is there. -/
def State.powered (s : State) : Bool := !s.host.off

/-! ### Time -/

/-- A host asks the firmware to set `ftime`, some ns away: it is set at once while no collective and no timed send is
posted, and the request is refused else (02 R19, 22 R322). -/
def State.setTime (s : State) (skew : Int) : State :=
  if s.posted then s.refuse
  else { s with ftime := (((s.ftime : Int) + skew) % 2 ^ 64).toNat, ftPhase := 0 }

/-- TIME_SERVICE (02 R19; 17 R280): with a measured skew in ns, ahead of the pod or behind it, the rate
of `ftime` is set toward agreement, by at most 50 ppm, never backward; a skew above 1,000 ns raises the
alarm. The rate itself is not stated, so free (log entry 27). -/
def State.timeService (s : State) (skew : Int) : State :=
  if !s.powered then s
  else
    let (n, s) := s.choose 51
    let rate : Int := if skew = 0 then 0 else if 0 < skew then -(n : Int) else n
    { s with
      host := { s.host with slew := rate }
      coll := { s.coll with skewAlarm := s.coll.skewAlarm || decide (1000 < skew.natAbs) } }

/-- The meaning of TIME_SERVICE; where a port asks, it asks for `ftime` to be set (log entry 28). -/
def execTimeService (skew : Int) (s : State) : Out :=
  .next (if s.host.asks.isEmpty then s.timeService skew else s.asked (fun t => t.setTime skew))

/-! ### Host accesses -/

/-- HOST_WRITE (22 R320): a write of global memory in ROD performs in its turn; one in RUD performs now or later. -/
def State.hostWrite (s : State) (rod : Bool) (pa : Nat) (data : List Byte) : State :=
  if !s.powered || decide (2 ^ 41 < pa + data.length) then s
  else
    let s := s.lateWrites
    if rod then s.hostStore pa data
    else
      let (k, s) := s.choose 2
      if k = 0 then s.hostStore pa data
      else { s with host := { s.host with late := s.host.late ++ [(pa, data)] } }

/-- The meaning of HOST_WRITE: the writes of a port in ROD stand in `agenda` in the order of their sending (log entry
106); packets in refused modes come to no step (log entry 109). -/
def execHostWrite (_port rod : Bool) (pa : Nat) (data : List Byte) (s : State) : Out :=
  .next (s.hostWrite rod pa data)

/-- `thstat` (22 R321). -/
def HostSt.thstat (h : HostSt) : Nat :=
  h.clkStep + h.hot % 512 * 2 ^ 3 + (if h.pcap then 2 ^ 12 else 0) + (if h.tcap then 2 ^ 13 else 0)
    + (if h.trip then 2 ^ 14 else 0)

/-- A word of the host register page as a port reads it: `pwrlim` is for the holder of `hsem` (22
R321). -/
def State.pageWord (s : State) (port : Bool) (off : Nat) : Nat :=
  match off with
  | 0x000 => s.host.hsem
  | 0x008 => if s.holds port then s.host.pwrlim else 0
  | 0x010 => s.host.thstat
  | 0x018 => s.host.boot + s.host.refused * 2 ^ 8
  | _ => 0

/-- The byte that a host or a tool reads; one of a poison-marked line, or of the destination of a collective whose
batch is incomplete, is undefined (06 R102, 17 R276). -/
def State.hostByte (s : State) (l : Nat) : Byte × State :=
  if s.marked l || s.hot none l then
    let (x, s) := s.draw
    (x.extractLsb' 0 8, s)
  else (s.byte l, s)

/-- The bytes that a host or a tool reads at locations. -/
def State.hostBytes (s : State) : List Nat → List Byte × State
  | [] => ([], s)
  | l :: t =>
    let (b, s) := s.hostByte l
    let (r, s) := s.hostBytes t
    (b :: r, s)

/-- The answer to a host or a tool. -/
def State.answer (s : State) (l : List Byte) : State := { s with host := { s.host with out := l } }

/-- HOST_READ (22 R320, R321): a read of global memory; an address from 2^41 on stands for an offset of
the control endpoint, read in 8-byte words, `pwrlim` refused to a port without `hsem` (log entry 28). -/
def State.hostRead (s : State) (port : Bool) (pa n : Nat) : State :=
  if !s.powered then s
  else if 2 ^ 41 ≤ pa then
    let s := if pa = 2 ^ 41 + 8 && !s.holds port then s.refuse else s
    s.answer (bytesOfNat 8 (s.pageWord port (pa - 2 ^ 41)))
  else if 2 ^ 41 < pa + n then s
  else
    let (l, s) := s.hostBytes ((List.range n).map (fun i => hbmLoc s.pkgid (pa + i)))
    s.answer l

/-- The meaning of HOST_READ. -/
def execHostRead (port : Bool) (pa n : Nat) (s : State) : Out := .next (s.lateWrites.hostRead port pa n)

/-! ### The host register page -/

/-- A write of `hsem` (22 R322): a port claims the free semaphore with its own code or frees the one it holds;
any other write has no effect. -/
def State.hsemWrite (s : State) (port : Bool) (v : Word) : State :=
  let q := if port then 2 else 1
  let x := bitsOf v 0 2
  if !s.powered then s
  else if x == q && s.host.hsem == 0 then { s with host := { s.host with hsem := q } }
  else if x == 0 && s.host.hsem == q then { s with host := { s.host with hsem := 0 } }
  else s

/-- The meaning of HSEM_WRITE: the writes stand in `agenda` in the order of their arrival. Whether port 0's write that
comes next arrived in the same cycle as port 1's is free; where it did, it is taken first (22 R322; log entry 106). -/
def execHsemWrite (port : Bool) (v : Word) (s : State) : Out :=
  match port, s.agenda with
  | true, .hsemWrite false w :: rest =>
    let (k, t) := s.choose 2
    .next (if k = 0 then (({ t with agenda := rest }).hsemWrite false w).hsemWrite true v else t.hsemWrite true v)
  | _, _ => .next (s.hsemWrite port v)

/-- The meaning of HSEM_RELEASE (22 R322): the holder's link has been down for 100 ms. -/
def execHsemRelease (s : State) : Out := .next { s with host := { s.host with hsem := 0 } }

/-- A power limit clamped to 4,000 to 12,000 W (22 R321). -/
def clampLimit (n : Nat) : Nat := Nat.max 4000 (Nat.min 12000 n)

/-- REGISTER_WRITE (22 R321): `pwrlim` for the holder of `hsem`, refused to another port; `thstat`'s
flags are cleared by ones; `hsem` has its own row; a write elsewhere has no effect. -/
def State.registerWrite (s : State) (port : Bool) (off : Nat) (v : Word) : State :=
  if !s.powered then s
  else
    match off with
    | 0x008 =>
      if s.holds port then { s with host := { s.host with pwrlim := clampLimit (bitsOf v 0 14) } }
      else s.refuse
    | 0x010 =>
      { s with host := { s.host with
        pcap := s.host.pcap && !v.getLsbD 12
        tcap := s.host.tcap && !v.getLsbD 13
        trip := s.host.trip && !v.getLsbD 14 } }
    | _ => s

/-- The meaning of REGISTER_WRITE. -/
def execRegisterWrite (port : Bool) (off : Nat) (v : Word) (s : State) : Out :=
  .next (s.registerWrite port off v)

/-- OVERFLOW_QUOTA (17 R270, 22 R322): 16 MiB to 1 GiB, on request of the holder of `hsem`. -/
def State.overflowQuota (s : State) (port : Bool) (mib : Nat) : State :=
  if !s.firmware then s
  else if !s.configures port || decide (mib < 16) || decide (1024 < mib) then s.refuse
  else { s with coll := { s.coll with quota := mib } }

/-- The meaning of OVERFLOW_QUOTA. -/
def execOverflowQuota (port : Bool) (mib : Nat) (s : State) : Out := .next (s.overflowQuota port mib)

/-! ### Power -/

/-- The firmware's scrub, which may run between its services: it writes a poison-marked line whole, with what the spec
does not say, and the mark is cleared (06 R102; log entry 107). -/
def State.scrub (s : State) : State :=
  if s.marks.isEmpty then s
  else
    let (k, s) := s.choose (s.marks.length + 1)
    match s.marks[k]? with
    | some l =>
      let t := (List.range 8).foldl (fun (t : State) i =>
        let (x, t) := t.draw
        t.setWord (64 * l + 8 * i) x) s
      (t.setMark (64 * l) false).wrote s none (bytesFrom (64 * l) 64)
    | none => s

/-- POWER_TICK (22 R325): the three rules in their order, on the averaged power in W and the hottest
sensor in °C. -/
def State.powerTick (s : State) (watts hot : Nat) : State :=
  let h := { s.host with hot := hot }
  if !s.firmware then s
  else if 115 ≤ hot then { s with host := { h with clkStep := 5, trip := true } }
  else if s.host.pwrlim < watts ∨ 105 ≤ hot then
    { s with host := { h with
      clkStep := Nat.min 5 (s.host.clkStep + 1)
      pcap := s.host.pcap || decide (s.host.pwrlim < watts)
      tcap := s.host.tcap || decide (105 ≤ hot) } }
  else if 20 * watts < 19 * s.host.pwrlim ∧ hot < 100 then
    { s with host := { h with clkStep := s.host.clkStep - 1 } }
  else { s with host := h }

/-- The meaning of POWER_TICK, with which the firmware may scrub. -/
def execPowerTick (watts hot : Nat) (s : State) : Out :=
  .next (if s.firmware then (s.powerTick watts hot).scrub else s.powerTick watts hot)

/-! ### Reset and boot -/

/-- Package reset (22 R323): everything as after reset but what the package is, its count of boots since
manufacture, and the model's own fields. -/
def State.packageReset (s : State) : State :=
  { State.reset with
    coreid := s.coreid, pkgid := s.pkgid, agenda := s.agenda, fv := s.fv, nextId := s.nextId
    core := { State.reset.core with control := s.core.control }
    host := { State.reset.host with boots := s.host.boots, asks := s.host.asks } }

/-- THERMAL_POWER_OFF (22 R325): a sensor at 125 °C removes power, and all state is lost. -/
def State.powerOff (s : State) : State :=
  let t := s.packageReset
  { t with host := { t.host with off := true } }

/-- The meaning of THERMAL_POWER_OFF. -/
def execThermalPowerOff (s : State) : Out := .next s.powerOff

/-- The meaning of PACKAGE_RESET (22 R322, R323): power comes back, or the firmware or a port asks for it. The port that
holds `hsem` is answered whether or not a firmware runs (log entry 28). -/
def execPackageReset (s : State) : Out :=
  .next (if s.host.off then s.packageReset
    else
      match s.host.asks with
      | q :: l =>
        let t := { s with host := { s.host with asks := l } }
        if t.holds q then t.packageReset else t.refuse
      | [] => s.packageReset)

/-- The meaning of WATCHDOG (22 R323): the firmware, if it runs, has been without service for 1 s. -/
def execWatchdog (s : State) : Out := .next (if s.firmware then s.packageReset else s)

/-- What the firmware's start does: it takes the mailboxes' first words, and so leaves them empty (14
R234; log entry 25). -/
def State.startFirmware (s : State) : State :=
  (List.range 64).foldl (fun (s : State) i => s.setTag (s.mailLoc i) false) s

/-- FIRMWARE_IMAGE (22 R323): the boot ROM has verified the image whose last byte had arrived, its magic, length and
signature; it starts the firmware, or counts a refusal and awaits another. -/
def State.firmwareImage (s : State) : State :=
  if s.host.boot != 1 || !s.powered then s
  else
    let len := s.word32 4
    let fits := s.word32 0 == 0x4F514657 && decide (2 ^ 20 ≤ len) && decide (len ≤ 16 * 2 ^ 20)
    let image := if fits then s.bytes (hbmLoc s.pkgid 0) (128 + len) else []
    let s := { s with host := { s.host with arrived := [] } }
    if fits && imageVerifies image then
      ({ s with host := { s.host with
        boot := 2, boots := s.host.boots + 1, image := image.take 64 ++ image.drop 128 } }).startFirmware
    else { s with host := { s.host with boot := 0, refused := Nat.min 255 (s.host.refused + 1) } }

/-- The meaning of FIRMWARE_IMAGE. -/
def execFirmwareImage (s : State) : Out := .next s.firmwareImage

/-! ### Identity -/

/-- The device identity record, 88 bytes (22 R324). -/
def identityRecord : List Byte :=
  (List.range 24).map (fun i =>
    if i = 16 then BitVec.ofNat 8 Config.generation
    else if i = 17 then Config.steppingId.zeroExtend 8
    else if i < 16 then Config.identity i
    else 0) ++ devicePublic

/-- The meaning of IDENTITY_READ (22 R324): the semaphore is not needed. -/
def execIdentityRead (s : State) : Out := .next (if s.powered then s.answer identityRecord else s)

/-- The attestation report: identity, hash of the running image, count of boots, nonce (22 R324). -/
def State.report (s : State) (nonce : List Byte) : List Byte :=
  identityRecord ++ sha256 s.host.image ++ bytesOfNat 8 s.host.boots ++ nonce

/-- ATTESTATION (22 R324): the report for a nonce of 32 bytes and its signature. -/
def State.attest (s : State) (nonce : List Byte) : State :=
  if s.firmware && nonce.length == 32 then
    s.answer (s.report nonce ++ deviceSign (sha256 (s.report nonce)))
  else s

/-- The meaning of ATTESTATION. -/
def execAttestation (nonce : List Byte) (s : State) : Out := .next (s.attest nonce)

end Sys2Proof.Machine
end

