-- ==== Sys2Proof/Machine/Debug.lean ====
section
/-!
DEFINITION. Debug rights, stops, sessions and samples (20 R301 to R308): the requests of a tool, each
covered by a capability entry it holds, and the stops the core makes.
-/

namespace Sys2Proof.Machine

open Sys2Proof

/-! ### The capability table -/

/-- An entry of the capability table, if it is valid (20 R301). -/
def State.cap (s : State) (e : Nat) : Option Cap := (s.dbg.caps.find? (fun x => x.1 == e)).map (·.2)

/-- A right of an entry: 0 read, 1 write, 2 stop, 3 trace, 4 sample, 5 count (20 R301). -/
def Cap.has (c : Cap) (right : Nat) : Bool := c.rights.getLsbD right

/-- The entry by which a principal has a right over an address space, the lowest (20 R302). -/
def State.capFor (s : State) (who right asid : Nat) : Option Nat :=
  (List.range 1024).find? (fun e =>
    match s.cap e with
    | some c => c.holder.toNat == who && c.has right && c.asid == asid
    | none => false)

/-- The lowest invalid entry of the table of 1,024. -/
def State.freeCap (s : State) : Option Nat := (List.range 1024).find? (fun e => (s.cap e).isNone)

/-- A new entry. -/
def State.addCap (s : State) (e : Nat) (c : Cap) : State :=
  { s with dbg := { s.dbg with caps := (e, c) :: s.dbg.caps } }

/-- DELEGATE (20 R303): the holder of an entry delegates a subset of its rights; refused otherwise, or
when the table is full. -/
def State.delegate (s : State) (who parent : Nat) (rights : BitVec 6) (holder : Nat) : State :=
  if !s.firmware then s
  else
    match s.cap parent, s.freeCap with
    | some c, some e =>
      if c.holder.toNat == who && rights &&& c.rights == rights && decide (holder < 2 ^ 32) then
        s.addCap e { rights := rights, parent := parent, asid := c.asid, holder := BitVec.ofNat 32 holder }
      else s.refuse
    | _, _ => s.refuse

/-- The meaning of DELEGATE. -/
def execDelegate (who parent : Nat) (rights : BitVec 6) (holder : Nat) (s : State) : Out :=
  .next (s.delegate who parent rights holder)

/-- An entry and its ancestors, up to the root (20 R303). -/
def State.lineage (s : State) : Nat → Nat → List Nat
  | 0, _ => []
  | fuel + 1, e =>
    match s.cap e with
    | some c => if c.parent == e then [e] else e :: s.lineage fuel c.parent
    | none => []

/-! ### Stops -/

/-- A stopped context resumes (20 R303, R304): in its bank it runs or is ready; a saved one may be
filled. -/
def State.unstop (s : State) (p : Ctx → Bool) (step : Bool) : State :=
  let hit := fun (c : Ctx) => c.stop.isSome && p c
  let go := fun (c : Ctx) => ({ c with stop := none, stepOne := step, stepDone := false } : Ctx)
  let inCx := hit s.cx
  let inSh := hit s.sh
  let s := s.onCtx hit go
  let s := { s with shSt := if inSh && s.shSt == .held && s.sh.fault.isNone then .ready else s.shSt }
  if inCx && s.cxSt == .held then ({ s with cxSt := .running, stalled := false }).restore else s

/-- The stop of the core is let go when no stop, step or breakpoint needs its holder (20 R304; log entry
29). -/
def State.releaseStop (s : State) : State :=
  match s.dbg.stopHolder with
  | none => s
  | some e =>
    if s.contexts.any (fun c => c.stop == some e || c.stepOne || c.stepDone
        || c.bps.any (fun b => b.2.2 == e)) then s
    else { s with dbg := { s.dbg with stopHolder := none } }

/-- Revocation of an entry (20 R303): the entry and its descendants become invalid, stops and single steps under
them end, breakpoints are cleared, sessions closed and their records discarded. -/
def State.revokeEntry (s : State) (entry : Nat) : State :=
  let dead := fun (e : Nat) => (s.lineage 1024 e).contains entry
  let held := s.dbg.stopHolder.any dead
  let t := s.traceOut.onCtx (fun _ => true) (fun c =>
    { c with bps := c.bps.filter (fun b => !dead b.2.2)
             stepOne := c.stepOne && !held, stepDone := c.stepDone && !held })
  let t := { t with dbg := { t.dbg with
    caps := s.dbg.caps.filter (fun x => !dead x.1)
    stopHolder := s.dbg.stopHolder.filter (fun e => !dead e)
    sessions := s.dbg.sessions.filter (fun x => !dead x.cap)
    trace := (t.dbg.trace.map (fun (r : TraceRec) =>
      { r with caps := r.caps.filter (fun e => !dead e) })).filter (fun r => !r.caps.isEmpty) } }
  t.unstop (fun c => match c.stop with | some e => dead e | none => false) false

/-- The root entry of an address space that was given to an earlier job. -/
def State.oldRoot (s : State) (asid : Nat) : Option Nat :=
  (s.dbg.caps.find? (fun x => x.2.parent == x.1 && x.2.asid == asid)).map (·.1)

/-- ROOT_ENTRY (20 R301): an asid is given to a job; a root entry with all six rights, its own parent, is
held by the job manager. The root of an earlier job, which freed the asid, is revoked. -/
def State.rootEntry (s : State) (asid holder : Nat) : State :=
  if !s.firmware || decide (4096 ≤ asid) then s
  else
    let s := match s.oldRoot asid with | some e => s.revokeEntry e | none => s
    match s.freeCap with
    | none => s.refuse
    | some e =>
      let s := s.addCap e { rights := 0x3F, parent := e, asid := asid, holder := BitVec.ofNat 32 holder }
      { s with sched := { s.sched with jobAsid := asid } }

/-- The meaning of ROOT_ENTRY (20 R301, 22 R322). -/
def execRootEntry (asid holder : Nat) (s : State) : Out := .next (s.asked (fun t => t.rootEntry asid holder))

/-- The firmware as the one that asks: no host principal's 32-bit id (20 R301). -/
def firmwareId : Nat := 2 ^ 32

/-- REVOKE (20 R303): by the holder of the entry or of an ancestor; and of a root by the firmware itself, when
its asid is freed (R301; log entry 29). -/
def State.revoke (s : State) (who entry : Nat) : State :=
  if !s.firmware then s
  else if (who == firmwareId && (s.cap entry).any (fun c => c.parent == entry))
      || (s.lineage 1024 entry).any (fun e => (s.cap e).any (fun c => c.holder.toNat == who)) then
    s.revokeEntry entry
  else s.refuse

/-- The meaning of REVOKE. -/
def execRevoke (who entry : Nat) (s : State) : Out := .next (s.revoke who entry)

/-- The running context stops before the bundle at its fetch address (20 R304). -/
def State.stopBefore (s : State) (sub : Nat) : State :=
  ({ s with badr := s.cx.pc, stalled := false
            cx := { s.cx with replay := s.cx.replay.map Replay.again } }).stopHere sub 0

/-- Whether an entry may hold the stop of the core: no other does (20 R304). -/
def State.mayStop (s : State) (e : Nat) : Bool := s.dbg.stopHolder.isNone || s.dbg.stopHolder == some e

/-- STOP_REQUEST (20 R304, R305): the running context stops between bundles; refused without the stop
right, while another entry holds the stop, or while a stop is held. -/
def State.stopRequest (s : State) (who : Nat) : State :=
  if !s.firmware then s
  else
    match s.capFor who 2 s.cx.asid.toNat with
    | none => s.refuse
    | some e =>
      if !s.mayStop e || s.contexts.any (fun c => c.stop.isSome) then s.refuse
      else if s.cxSt == .running then
        ({ s with dbg := { s.dbg with stopHolder := some e } }).stopBefore 0
      else s

/-- The meaning of STOP_REQUEST. -/
def execStopRequest (who : Nat) (s : State) : Out := .next (s.stopRequest who)

/-- BREAKPOINT_SET (20 R304): the holder of a stop right sets or clears one of the running context's four
breakpoints. -/
def State.breakpointSet (s : State) (who slot : Nat) (addr : Option Nat) : State :=
  if !s.firmware then s
  else
    match s.capFor who 2 s.cx.asid.toNat with
    | none => s.refuse
    | some e =>
      if !s.mayStop e || decide (4 ≤ slot) then s.refuse
      else
        let rest := s.cx.bps.filter (fun b => b.1 != slot)
        match addr with
        | some a =>
          { s with cx := { s.cx with bps := rest ++ [(slot, mkWord a, e)] }
                   dbg := { s.dbg with stopHolder := some e } }
        | none => ({ s with cx := { s.cx with bps := rest } }).releaseStop

/-- The meaning of BREAKPOINT_SET. -/
def execBreakpointSet (who : Nat) (slot : Nat) (addr : Option Nat) (s : State) : Out :=
  .next (s.breakpointSet who slot addr)

/-- Whether the running context stands before a bundle with a breakpoint that may fire (20 R304). -/
def State.atBreakpoint (s : State) : Bool :=
  s.live && !s.mustWait && !s.cx.bpSkip && s.cx.bps.any (fun b => b.2.1 == s.cx.pc)

/-- BREAKPOINT (20 R304): the context stops before the matching bundle, and the breakpoint does not fire
again for its issue. -/
def State.breakStop (s : State) : State :=
  if s.atBreakpoint then
    let e := (s.cx.bps.find? (fun b => b.2.1 == s.cx.pc)).map (·.2.2)
    ({ s with cx := { s.cx with bpSkip := true }, dbg := { s.dbg with stopHolder := e } }).stopBefore 1
  else s

/-- The meaning of BREAKPOINT. -/
def execBreakpoint (s : State) : Out := .next s.breakStop

/-- SINGLE_STEP_STOP (20 R304): one bundle has issued and completed since a resumption with a step. -/
def State.stepStop (s : State) : State :=
  if s.live && s.cx.stepDone && s.cx.replay.isNone then
    ({ s with cx := { s.cx with stepDone := false } }).stopBefore 3
  else s

/-- The meaning of SINGLE_STEP_STOP. -/
def execSingleStepStop (s : State) : Out := .next s.stepStop

/-- RESUME (20 R304): the holder of the stop resumes the stopped context, with a single step or not. -/
def State.resume (s : State) (who : Nat) (step : Bool) : State :=
  if !s.firmware then s
  else
    match s.dbg.stopHolder with
    | none => s.refuse
    | some e =>
      if (s.cap e).any (fun c => c.holder.toNat == who) then
        (s.unstop (fun c => c.stop == some e) step).releaseStop
      else s.refuse

/-- The meaning of RESUME. -/
def execResume (who : Nat) (step : Bool) (s : State) : Out := .next (s.resume who step)

/-! ### Reading and writing -/

/-- The stopped context of an address space that a request names, the first (0) or a later one (20 R302). -/
def State.stoppedOf (s : State) (asid k : Nat) : Option Ctx :=
  (s.contexts.filter (fun c => c.stop.isSome && c.asid.toNat == asid))[k]?

/-- The address space a request names, above its 64-bit address (log entry 30). -/
def reqAsid (off : Nat) : Nat := off / 2 ^ 64

/-- The address within that space. -/
def reqAddr (off : Nat) : Nat := off % 2 ^ 64

/-- Whether a principal has a right over the address space that a request names (20 R302). -/
def State.may (s : State) (who right off : Nat) : Bool := (s.capFor who right (reqAsid off)).isSome

/-- The location of a virtual address of an address space, in the tables of a context of it or of the
job (20 R302). -/
def State.asidLoc (s : State) (asid va : Nat) : Option Nat :=
  let root := ((s.contexts.find? (fun c => c.uid != 0 && c.asid.toNat == asid)).map (·.ptbase.toNat)).getD
    (Config.tableRoot asid)
  s.vaLoc root asid va

/-- The bytes of a stopped context's save area that software may read: header, scalar area and special
registers (13 R226, 20 R302). -/
def Ctx.areaByte (c : Ctx) (bank : Bool) (o : Nat) : Byte :=
  match (c.publicWords bank).find? (fun e => decide (e.1 ≤ o) && decide (o < e.1 + 8)) with
  | some (base, w) => w.extractLsb' (8 * (o - base)) 8
  | none => 0

/-- The bank of a context of the core. -/
def State.bankOfCtx (s : State) (c : Ctx) : Bool := if c.uid == s.cx.uid then s.bank else !s.bank

/-- A counter that only the firmware reads (20 R312), and those of 20 R311, by kind and by number of its core,
scratchpad, die, pseudo-channel, engine, class or port (log entry 30). -/
def State.counter (s : State) (kind unit : Nat) : Nat :=
  match kind with
  | 0 => ((s.core.bkcfl.toList[unit]?).getD 0).toNat
  | 1 => countAt unit s.hbm.hbmrdln
  | 2 => countAt unit s.hbm.hbmwait
  | 3 => ((s.refreshed unit).hchan unit).refpost
  | 4 => ((s.refreshed unit).hchan unit).refall
  | 5 => countAt unit s.hbm.wswin
  | 6 => countAt unit s.hbm.cpyln
  | 7 => (s.core.slkexh.toList[unit]?).getD 0
  | 8 => countAt unit s.fab.portod
  | 9 => countAt unit s.fab.portstv
  | 10 => s.dbg.trdrop
  | 11 => s.sched.postdup
  | 12 => ((s.core.mc.toList[unit]?).getD 0).toNat
  | _ => 0

/-- A byte of the counters: 8 bytes each, 2^16 of a kind. -/
def State.counterByte (s : State) (o : Nat) : Byte :=
  BitVec.ofNat 8 (s.counter (o / 8 / 2 ^ 16) (o / 8 % 2 ^ 16) / 256 ^ (o % 8))

/-- A byte of a stopped context's save area as it reads: what a spill would write there, the words reserved to
hardware among it, and elsewhere what the area holds (13 R226, 20 R302; log entry 21). -/
def State.stoppedByte (s : State) (c : Ctx) (words : List (Nat × Word)) (o i : Nat) : Byte :=
  match words.find? (fun e => decide (e.1 ≤ o) && decide (o < e.1 + 8)) with
  | some (base, w) => w.extractLsb' (8 * (o - base)) 8
  | none =>
    match s.asidLoc c.asid.toNat (c.ctxsave.toNat + o) with
    | some l => s.byte l
    | none => (Config.freeWord (s.fv + i)).extractLsb' 0 8

/-- The 32 bytes of a record. -/
def TraceRec.bytes (r : TraceRec) : List Byte :=
  [r.w0, r.badr, r.cycle, r.payload].flatMap (fun w => bytesOfNat 8 w.toNat)

/-- The records of a principal's sessions are forwarded to it, oldest first, at most n; what no other session is
still to get leaves the buffer (20 R307; log entry 29). -/
def State.forwardRecords (s : State) (who n : Nat) : State :=
  let t := s.traceOut
  let own := fun (e : Nat) => (t.cap e).any (fun c => c.holder.toNat == who)
  let (out, left) := t.dbg.trace.foldl (fun (x : List TraceRec × List TraceRec) r =>
    if r.caps.any own && decide (x.1.length < n) then
      let rest := r.caps.filter (fun e => !own e)
      (x.1 ++ [r], if rest.isEmpty then x.2 else x.2 ++ [{ r with caps := rest }])
    else (x.1, x.2 ++ [r])) ([], [])
  ({ t with dbg := { t.dbg with trace := left } }).answer (out.flatMap TraceRec.bytes)

/-- Whether a context stands in a bank of the core. -/
def State.inBank (s : State) (c : Ctx) : Bool := c.uid == s.cx.uid || c.uid == s.sh.uid

/-- DEBUG_READ (20 R302): under the read right over the address space it names, n bytes from a virtual address,
or, from 2^57 on, from an offset of a stopped context's save area, 2^48 for each; from 2^58 on, under the
count right, of the counters; from 2^59 on the records of the principal's sessions (log entries 29 and 30). -/
def State.debugRead (s : State) (who off n : Nat) : State :=
  let a := reqAddr off
  if !s.firmware then s
  else if 2 ^ 59 ≤ a then s.forwardRecords who (n / 32)
  else if 2 ^ 58 ≤ a then
    if s.may who 5 off then s.answer ((List.range n).map (fun i => s.counterByte (a - 2 ^ 58 + i)))
    else s.refuse
  else if !s.may who 0 off then s.refuse
  else if a < 2 ^ 57 then
    match (List.range n).mapM (fun i => s.asidLoc (reqAsid off) (a + i)) with
    | some l =>
      let (b, s) := s.hostBytes l
      s.answer b
    | none => s.refuse
  else
    match s.stoppedOf (reqAsid off) ((a - 2 ^ 57) / 2 ^ 48) with
    | none => s.refuse
    | some c =>
      let (words, t) := if s.inBank c then s.spillWords c (s.bankOfCtx c) else ([], s)
      ({ t with fv := t.fv + n }).answer
        ((List.range n).map (fun i => t.stoppedByte c words (a % 2 ^ 48 + i) i))

/-- The meaning of DEBUG_READ. -/
def execDebugRead (who off n : Nat) (s : State) : Out := .next (s.debugRead who off n)

/-- A word of a context's save area with some bytes replaced. -/
def Ctx.patched (c : Ctx) (bank : Bool) (off : Nat) (data : List Byte) (o : Nat) : Word :=
  mkWord (natOfBytes ((List.range 8).map (fun i =>
    if off ≤ o + i ∧ o + i < off + data.length then (data[o + i - off]?).getD 0
    else c.areaByte bank (o + i))))

/-- Write bytes at locations. -/
def State.setAt (s : State) : List Nat → List Byte → State
  | l :: ls, b :: bs => (s.setByte l b).setAt ls bs
  | _, _ => s

/-- A context as the header of its save area gives it, w telling the word at an offset: its declared counts, its
fault record, and a fault that the resolve bit settles (13 R226). -/
def Ctx.loadHeader (c : Ctx) (w : Nat → Word) : Ctx :=
  let c := { c with
    task := { c.task with regsN := Nat.min 60 (bitsOf (w 0) 16 6), accsN := Nat.min 8 (bitsOf (w 0) 22 4) }
    fault := c.fault.map (fun _ =>
      { cause := bitsOf (w 8) 0 8, under := bitsOf (w 8) 8 8, reason := bitsOf (w 8) 16 2
        pbits := bitsOf (w 8) 18 6, words := bitsOf (w 8) 24 3, code := bitsOf (w 8) 32 32
        addr := w 16, badr := w 24 }) }
  if (w 32).getLsbD 0 then c.resumed else c

/-- A context in a bank whose header is given the kill bit is over, with reason 8 (13 R222, R226). -/
def State.killIn (s : State) (c : Ctx) : State :=
  (if c.uid == s.cx.uid then s.endTask (some 8) else s.endShadow (some 8)).releaseStop

/-- The stopped context as bytes written at an offset of its save area leave it: in a bank the context itself,
elsewhere its area in memory (13 R226, 20 R302). -/
def State.writeStopped (s : State) (c : Ctx) (o : Nat) (data : List Byte) : State :=
  if s.inBank c then
    let w := c.patched (s.bankOfCtx c) o data
    let t := s.onOwner c.uid (fun x => (x.loadHeader w).loadWords w)
    if (w 32).getLsbD 1 then t.killIn c else t
  else
    match (List.range data.length).mapM (fun i => s.asidLoc c.asid.toNat (c.ctxsave.toNat + o + i)) with
    | some l => (s.setAt l data).wrote s none l
    | none => s.refuse

/-- DEBUG_WRITE (20 R302, 13 R226): under the write right over the address space it names, memory, or the
header, scalar and special-register areas of a stopped context; a write beyond these is refused. -/
def State.debugWrite (s : State) (who off : Nat) (data : List Byte) : State :=
  let a := reqAddr off
  if !s.firmware then s
  else if !s.may who 1 off then s.refuse
  else if a < 2 ^ 57 then
    match (List.range data.length).mapM (fun i => s.asidLoc (reqAsid off) (a + i)) with
    | some l => (s.setAt l data).wrote s none l
    | none => s.refuse
  else
    match s.stoppedOf (reqAsid off) ((a - 2 ^ 57) / 2 ^ 48) with
    | none => s.refuse
    | some c =>
      if 0x2C0 < a % 2 ^ 48 + data.length then s.refuse
      else s.writeStopped c (a % 2 ^ 48) data

/-- The meaning of DEBUG_WRITE. -/
def execDebugWrite (who : Nat) (off : Nat) (data : List Byte) (s : State) : Out :=
  .next (s.debugWrite who off data)

/-! ### Sessions and samples -/

/-- SESSION_OPEN (20 R302, R308): a trace (0), sample (1) or count (2) session under an entry with that
right over the address space k / 256 (log entry 30); a sample session's period is 2^(k mod 256) cycles, from 10
to 24. -/
def State.sessionOpen (s : State) (who kind k : Nat) : State :=
  let p := k % 256
  if !s.firmware then s
  else if decide (2 < kind) || (kind = 1 && (decide (p < 10) || decide (24 < p))) then s.refuse
  else
    match s.capFor who (3 + kind) (k / 256) with
    | none => s.refuse
    | some e => { s with dbg := { s.dbg with sessions := s.dbg.sessions ++ [⟨e, kind, p⟩] } }

/-- The meaning of SESSION_OPEN. -/
def execSessionOpen (who : Nat) (kind : Nat) (k : Nat) (s : State) : Out :=
  .next (s.sessionOpen who kind k)

/-- The meaning of SAMPLE (20 R308): the record of the cycle that begins, with what its bundle will do. -/
def execSample (s : State) : Out := .next (s.recharge.sample s.fetchStalls)

end Sys2Proof.Machine
end

