-- ==== Sys2Proof/Machine/Wake.lean ====
section
/-!
DEFINITION. The wake of an access parked at a word (06 R109): the first waiter, in arrival order, whose
need the word's tag meets acts, in the step of its own family.
-/

namespace Sys2Proof.Machine

open Sys2Proof

/-- The first waiter at a word whose need the tag meets (06 R109). -/
def State.wakeable (s : State) (word : Nat) : Option Waiter :=
  s.core.parked.find? (fun w => w.word == word && w.needFull == s.full (8 * word))

/-- The step by which a waiter acts again. -/
def State.retry (s : State) (w : Waiter) : State :=
  if s.cx.accs.any (fun a => a.id == w.id && a.win.isNone) then
    if s.cx.accs.any (fun a => a.id == w.id && a.isRead) then s.loadReturn w.id else s.writePerform w.id
  else if s.cx.streams.any (fun t => t.id == w.id) then s.groupPass w.id
  else if s.core.copies.any (fun c => c.id == w.id) then s.copySegment w.id
  else
    match s.core.shq.find? (fun m => m.id == w.id) with
    | some m => if m.kind.isStep then s.beat else s.shuttleComplete
    | none =>
      match s.fab.pkts.find? (fun p => p.ids.contains w.id && p.stage == .accepted) with
      | some p => s.remotePerform p.id
      | none => s

/-- PARKED_ACCESS_WAKE (06 R109). -/
def State.parkedWake (s : State) (word : Nat) : State :=
  match s.wakeable word with
  | some w => s.retry w
  | none => s

/-- The meaning of PARKED_ACCESS_WAKE. -/
def execParkedAccessWake (word : Nat) (s : State) : Out := .next (s.parkedWake word)

end Sys2Proof.Machine
end

