-- ==== Sys2Proof/Machine/Dispatch.lean ====
section
/-! DEFINITION. The dispatch: one arm per constructor of `Instr`, each one direct call of its
meaning. -/

namespace Sys2Proof.Machine

open Sys2Proof

/-- What an instruction or a step of the table does. -/
def exec (i : Instr) (s : State) : Host.Outcome State Fault Refusal :=
  match i with
  | .nop => Sys2Proof.Machine.execNop s
  | .endTask => Sys2Proof.Machine.execEndTask s
  | .yield => Sys2Proof.Machine.execYield s
  | .jmp a => Sys2Proof.Machine.execJmp a s
  | .jmpl a => Sys2Proof.Machine.execJmpl a s
  | .ret => Sys2Proof.Machine.execRet s
  | .loop a n => Sys2Proof.Machine.execLoop a n s
  | .br k n off => Sys2Proof.Machine.execBr k n off s
  | .call off => Sys2Proof.Machine.execCall off s
  | .trap n => Sys2Proof.Machine.execTrap n s
  | .eret => Sys2Proof.Machine.execEret s
  | .eretTo a => Sys2Proof.Machine.execEretTo a s
  | .check a => Sys2Proof.Machine.execCheck a s
  | .checkPred a => Sys2Proof.Machine.execCheckPred a s
  | .mfs a n => Sys2Proof.Machine.execMfs a n s
  | .mts a n => Sys2Proof.Machine.execMts a n s
  | .brk n => Sys2Proof.Machine.execBrk n s
  | .mark a n => Sys2Proof.Machine.execMark a n s
  | .swapc => Sys2Proof.Machine.execSwapc s
  | .tlbinvPage a => Sys2Proof.Machine.execTlbinvPage a s
  | .tlbinvAsid a => Sys2Proof.Machine.execTlbinvAsid a s
  | .tlbinvLocal => Sys2Proof.Machine.execTlbinvLocal s
  | .tlbinvAll => Sys2Proof.Machine.execTlbinvAll s
  | .svc n => Sys2Proof.Machine.execSvc n s
  | .add d a b => Sys2Proof.Machine.execAdd d a b s
  | .sub d a b => Sys2Proof.Machine.execSub d a b s
  | .mul d a b => Sys2Proof.Machine.execMul d a b s
  | .mulh d a b => Sys2Proof.Machine.execMulh d a b s
  | .mulhn d a b => Sys2Proof.Machine.execMulhn d a b s
  | .div d a b => Sys2Proof.Machine.execDiv d a b s
  | .divn d a b => Sys2Proof.Machine.execDivn d a b s
  | .rem d a b => Sys2Proof.Machine.execRem d a b s
  | .remn d a b => Sys2Proof.Machine.execRemn d a b s
  | .and d a b => Sys2Proof.Machine.execAnd d a b s
  | .or d a b => Sys2Proof.Machine.execOr d a b s
  | .xor d a b => Sys2Proof.Machine.execXor d a b s
  | .andn d a b => Sys2Proof.Machine.execAndn d a b s
  | .shl d a b => Sys2Proof.Machine.execShl d a b s
  | .shr d a b => Sys2Proof.Machine.execShr d a b s
  | .sar d a b => Sys2Proof.Machine.execSar d a b s
  | .rotl d a b => Sys2Proof.Machine.execRotl d a b s
  | .min d a b => Sys2Proof.Machine.execMin d a b s
  | .max d a b => Sys2Proof.Machine.execMax d a b s
  | .minn d a b => Sys2Proof.Machine.execMinn d a b s
  | .maxn d a b => Sys2Proof.Machine.execMaxn d a b s
  | .clz d a => Sys2Proof.Machine.execClz d a s
  | .popc d a => Sys2Proof.Machine.execPopc d a s
  | .sext d a z => Sys2Proof.Machine.execSext d a z s
  | .zext d a z => Sys2Proof.Machine.execZext d a z s
  | .addi d a imm => Sys2Proof.Machine.execAddi d a imm s
  | .andi d a imm => Sys2Proof.Machine.execAndi d a imm s
  | .ori d a imm => Sys2Proof.Machine.execOri d a imm s
  | .xori d a imm => Sys2Proof.Machine.execXori d a imm s
  | .shli d a n => Sys2Proof.Machine.execShli d a n s
  | .shri d a n => Sys2Proof.Machine.execShri d a n s
  | .sari d a n => Sys2Proof.Machine.execSari d a n s
  | .movi d imm => Sys2Proof.Machine.execMovi d imm s
  | .movk d sh imm => Sys2Proof.Machine.execMovk d sh imm s
  | .fadd p d a b => Sys2Proof.Machine.execFadd p d a b s
  | .fsub p d a b => Sys2Proof.Machine.execFsub p d a b s
  | .fmul p d a b => Sys2Proof.Machine.execFmul p d a b s
  | .ffma p d a b => Sys2Proof.Machine.execFfma p d a b s
  | .fmin p d a b => Sys2Proof.Machine.execFmin p d a b s
  | .fmax p d a b => Sys2Proof.Machine.execFmax p d a b s
  | .fabs p d a => Sys2Proof.Machine.execFabs p d a s
  | .fneg p d a => Sys2Proof.Machine.execFneg p d a s
  | .fcpys p d a b => Sys2Proof.Machine.execFcpys p d a b s
  | .fcvti p d a k m => Sys2Proof.Machine.execFcvti p d a k m s
  | .fcvtf p d a k m => Sys2Proof.Machine.execFcvtf p d a k m s
  | .fcvtw p d a m => Sys2Proof.Machine.execFcvtw p d a m s
  | .cmp d a b c => Sys2Proof.Machine.execCmp d a b c s
  | .fcmp d a b c => Sys2Proof.Machine.execFcmp d a b c s
  | .plog d a b c => Sys2Proof.Machine.execPlog d a b c s
  | .tst d a b c => Sys2Proof.Machine.execTst d a b c s
  | .bfx d a b => Sys2Proof.Machine.execBfx d a b s
  | .bfi d a b => Sys2Proof.Machine.execBfi d a b s
  | .lea d a b => Sys2Proof.Machine.execLea d a b s
  | .sel d a b => Sys2Proof.Machine.execSel d a b s
  | .ld base cls sz off => Sys2Proof.Machine.execLd base cls sz off s
  | .lds base cls sz off => Sys2Proof.Machine.execLds base cls sz off s
  | .ldc base cls sz off => Sys2Proof.Machine.execLdc base cls sz off s
  | .ldf base cls sz off => Sys2Proof.Machine.execLdf base cls sz off s
  | .ldfe base cls sz off => Sys2Proof.Machine.execLdfe base cls sz off s
  | .st x base cls sz off => Sys2Proof.Machine.execSt x base cls sz off s
  | .stf x base cls sz off => Sys2Proof.Machine.execStf x base cls sz off s
  | .ste x base cls sz off => Sys2Proof.Machine.execSte x base cls sz off s
  | .sete base cls sz off => Sys2Proof.Machine.execSete base cls sz off s
  | .setf base cls sz off => Sys2Proof.Machine.execSetf base cls sz off s
  | .tagq base cls sz off => Sys2Proof.Machine.execTagq base cls sz off s
  | .aadd v base cls sz fetch => Sys2Proof.Machine.execAadd v base cls sz fetch s
  | .amin v base cls sz fetch => Sys2Proof.Machine.execAmin v base cls sz fetch s
  | .amax v base cls sz fetch => Sys2Proof.Machine.execAmax v base cls sz fetch s
  | .aminn v base cls sz fetch => Sys2Proof.Machine.execAminn v base cls sz fetch s
  | .amaxn v base cls sz fetch => Sys2Proof.Machine.execAmaxn v base cls sz fetch s
  | .aand v base cls sz fetch => Sys2Proof.Machine.execAand v base cls sz fetch s
  | .aor v base cls sz fetch => Sys2Proof.Machine.execAor v base cls sz fetch s
  | .axor v base cls sz fetch => Sys2Proof.Machine.execAxor v base cls sz fetch s
  | .aswp v base cls sz fetch => Sys2Proof.Machine.execAswp v base cls sz fetch s
  | .afadd v base cls sz fetch => Sys2Proof.Machine.execAfadd v base cls sz fetch s
  | .acas v base cls sz fetch => Sys2Proof.Machine.execAcas v base cls sz fetch s
  | .fence scope mask => Sys2Proof.Machine.execFence scope mask s
  | .slkset a cls => Sys2Proof.Machine.execSlkset a cls s
  | .wdrain w => Sys2Proof.Machine.execWdrain w s
  | .wallow a w => Sys2Proof.Machine.execWallow a w s
  | .vadd dd da db opt => Sys2Proof.Machine.execVadd dd da db opt s
  | .vsub dd da db opt => Sys2Proof.Machine.execVsub dd da db opt s
  | .vmul dd da db opt => Sys2Proof.Machine.execVmul dd da db opt s
  | .vfma dd da db opt => Sys2Proof.Machine.execVfma dd da db opt s
  | .vmin dd da db opt => Sys2Proof.Machine.execVmin dd da db opt s
  | .vmax dd da db opt => Sys2Proof.Machine.execVmax dd da db opt s
  | .vabs dd da opt => Sys2Proof.Machine.execVabs dd da opt s
  | .vneg dd da opt => Sys2Proof.Machine.execVneg dd da opt s
  | .vand dd da db opt => Sys2Proof.Machine.execVand dd da db opt s
  | .vor dd da db opt => Sys2Proof.Machine.execVor dd da db opt s
  | .vxor dd da db opt => Sys2Proof.Machine.execVxor dd da db opt s
  | .vshl dd da db opt => Sys2Proof.Machine.execVshl dd da db opt s
  | .vshr dd da db opt => Sys2Proof.Machine.execVshr dd da db opt s
  | .vcmp dd da db opt => Sys2Proof.Machine.execVcmp dd da db opt s
  | .vsel dd da db opt => Sys2Proof.Machine.execVsel dd da db opt s
  | .vcopy dd da opt => Sys2Proof.Machine.execVcopy dd da opt s
  | .vfill dd da opt => Sys2Proof.Machine.execVfill dd da opt s
  | .vcvt dd da opt => Sys2Proof.Machine.execVcvt dd da opt s
  | .viota dd opt => Sys2Proof.Machine.execViota dd opt s
  | .vexp2 dd da opt => Sys2Proof.Machine.execVexp2 dd da opt s
  | .vlog2 dd da opt => Sys2Proof.Machine.execVlog2 dd da opt s
  | .vrcp dd da opt => Sys2Proof.Machine.execVrcp dd da opt s
  | .vrsq dd da opt => Sys2Proof.Machine.execVrsq dd da opt s
  | .vsig dd da opt => Sys2Proof.Machine.execVsig dd da opt s
  | .vtanh dd da opt => Sys2Proof.Machine.execVtanh dd da opt s
  | .vgelu dd da opt => Sys2Proof.Machine.execVgelu dd da opt s
  | .vchain dd da db opt => Sys2Proof.Machine.execVchain dd da db opt s
  | .chset r opt => Sys2Proof.Machine.execChset r opt s
  | .vcomp dd da db opt => Sys2Proof.Machine.execVcomp dd da db opt s
  | .vexpd dd da db opt => Sys2Proof.Machine.execVexpd dd da db opt s
  | .vgath dd da db opt => Sys2Proof.Machine.execVgath dd da db opt s
  | .vscat dd da db opt => Sys2Proof.Machine.execVscat dd da db opt s
  | .vscan dd da opt => Sys2Proof.Machine.execVscan dd da opt s
  | .vtrn dd da opt => Sys2Proof.Machine.execVtrn dd da opt s
  | .dset d a b => Sys2Proof.Machine.execDset d a b s
  | .dget d a b => Sys2Proof.Machine.execDget d a b s
  | .dadv a b => Sys2Proof.Machine.execDadv a b s
  | .dcnt a b => Sys2Proof.Machine.execDcnt a b s
  | .radd da ps => Sys2Proof.Machine.execRadd da ps s
  | .rmin da ps => Sys2Proof.Machine.execRmin da ps s
  | .rmax da ps => Sys2Proof.Machine.execRmax da ps s
  | .rdrn r ps => Sys2Proof.Machine.execRdrn r ps s
  | .rdrnDesc dd ps => Sys2Proof.Machine.execRdrnDesc dd ps s
  | .rclr k o ps => Sys2Proof.Machine.execRclr k o ps s
  | .mstep acc wide da db depth tag flags => Sys2Proof.Machine.execMstep acc wide da db depth tag flags s
  | .mzero n wide v f => Sys2Proof.Machine.execMzero n wide v f s
  | .mdrain d n m clr => Sys2Proof.Machine.execMdrain d n m clr s
  | .mlda n a f m => Sys2Proof.Machine.execMlda n a f m s
  | .mwgt b => Sys2Proof.Machine.execMwgt b s
  | .sload n a => Sys2Proof.Machine.execSload n a s
  | .ssel p => Sys2Proof.Machine.execSsel p s
  | .mflow p => Sys2Proof.Machine.execMflow p s
  | .mskew p => Sys2Proof.Machine.execMskew p s
  | .mfmt p q opt => Sys2Proof.Machine.execMfmt p q opt s
  | .scld a n f => Sys2Proof.Machine.execScld a n f s
  | .fmset a n => Sys2Proof.Machine.execFmset a n s
  | .fmget a n => Sys2Proof.Machine.execFmget a n s
  | .cpy p q patch cls => Sys2Proof.Machine.execCpy p q patch cls s
  | .cpyt p q patch cls => Sys2Proof.Machine.execCpyt p q patch cls s
  | .cpyp p q patch cls => Sys2Proof.Machine.execCpyp p q patch cls s
  | .cpyg p q patch cls => Sys2Proof.Machine.execCpyg p q patch cls s
  | .cpyw p q patch cls => Sys2Proof.Machine.execCpyw p q patch cls s
  | .cpyc p q patch cls => Sys2Proof.Machine.execCpyc p q patch cls s
  | .cpost p cls => Sys2Proof.Machine.execCpost p cls s
  | .ccancel p cls => Sys2Proof.Machine.execCcancel p cls s
  | .cquery p cls => Sys2Proof.Machine.execCquery p cls s
  | .tsend p cls => Sys2Proof.Machine.execTsend p cls s
  | .commit a => Sys2Proof.Machine.execCommit a s
  | .waitb a => Sys2Proof.Machine.execWaitb a s
  | .testb a => Sys2Proof.Machine.execTestb a s
  | .bara n => Sys2Proof.Machine.execBara n s
  | .barw n => Sys2Proof.Machine.execBarw n s
  | .bart a n => Sys2Proof.Machine.execBart a n s
  | .barcfg a n => Sys2Proof.Machine.execBarcfg a n s
  | .npost a => Sys2Proof.Machine.execNpost a s
  | .requeue a => Sys2Proof.Machine.execRequeue a s
  | .exper step op => Sys2Proof.Machine.execExper step op s
  | .loadDataReturn id => Sys2Proof.Machine.execLoadDataReturn id s
  | .writeEntryBegin id => Sys2Proof.Machine.execWriteEntryBegin id s
  | .writePerform id => Sys2Proof.Machine.execWritePerform id s
  | .parkedAccessWake word => Sys2Proof.Machine.execParkedAccessWake word s
  | .streamGroupPass id => Sys2Proof.Machine.execStreamGroupPass id s
  | .shuttleCommandStart => Sys2Proof.Machine.execShuttleCommandStart s
  | .beat => Sys2Proof.Machine.execBeat s
  | .shuttleCommandComplete => Sys2Proof.Machine.execShuttleCommandComplete s
  | .copyCommandStart eng => Sys2Proof.Machine.execCopyCommandStart eng s
  | .copySegmentWrite id => Sys2Proof.Machine.execCopySegmentWrite id s
  | .copyPause id => Sys2Proof.Machine.execCopyPause id s
  | .copyResume id => Sys2Proof.Machine.execCopyResume id s
  | .copyComplete id => Sys2Proof.Machine.execCopyComplete id s
  | .hbmServiceStart pc bank => Sys2Proof.Machine.execHbmServiceStart pc bank s
  | .bankIdleClose pc bank => Sys2Proof.Machine.execBankIdleClose pc bank s
  | .refreshDue pc => Sys2Proof.Machine.execRefreshDue pc s
  | .allBankRefreshStart pc => Sys2Proof.Machine.execAllBankRefreshStart pc s
  | .bankRefreshEnd pc bank => Sys2Proof.Machine.execBankRefreshEnd pc bank s
  | .allBankRefreshEnd pc => Sys2Proof.Machine.execAllBankRefreshEnd pc s
  | .sharedTlbLookup => Sys2Proof.Machine.execSharedTlbLookup s
  | .tableRead => Sys2Proof.Machine.execTableRead s
  | .faultFreeze => Sys2Proof.Machine.execFaultFreeze s
  | .faultResolve kill => Sys2Proof.Machine.execFaultResolve kill s
  | .tlbinvComplete => Sys2Proof.Machine.execTlbinvComplete s
  | .trapDelivery => Sys2Proof.Machine.execTrapDelivery s
  | .interrupt => Sys2Proof.Machine.execInterrupt s
  | .contextSwitch => Sys2Proof.Machine.execContextSwitch s
  | .spill => Sys2Proof.Machine.execSpill s
  | .spillComplete => Sys2Proof.Machine.execSpillComplete s
  | .emergencySpill => Sys2Proof.Machine.execEmergencySpill s
  | .fill va => Sys2Proof.Machine.execFill va s
  | .fillComplete => Sys2Proof.Machine.execFillComplete s
  | .postTake => Sys2Proof.Machine.execPostTake s
  | .imageLoad node => Sys2Proof.Machine.execImageLoad node s
  | .imageLoadComplete node => Sys2Proof.Machine.execImageLoadComplete node s
  | .nodeFinish node => Sys2Proof.Machine.execNodeFinish node s
  | .taskPlacement => Sys2Proof.Machine.execTaskPlacement s
  | .claimant node => Sys2Proof.Machine.execClaimant node s
  | .taskStart => Sys2Proof.Machine.execTaskStart s
  | .victimChoice => Sys2Proof.Machine.execVictimChoice s
  | .yieldRequest => Sys2Proof.Machine.execYieldRequest s
  | .yieldWindowExpiry => Sys2Proof.Machine.execYieldWindowExpiry s
  | .yieldRequestWithdraw => Sys2Proof.Machine.execYieldRequestWithdraw s
  | .prefetch => Sys2Proof.Machine.execPrefetch s
  | .taskEnd node reason => Sys2Proof.Machine.execTaskEnd node reason s
  | .arrivalCounted nb own => Sys2Proof.Machine.execArrivalCounted nb own s
  | .barrierDelivery nb => Sys2Proof.Machine.execBarrierDelivery nb s
  | .combineLineExpiry k => Sys2Proof.Machine.execCombineLineExpiry k s
  | .arbitration port => Sys2Proof.Machine.execArbitration port s
  | .reorderAccept id => Sys2Proof.Machine.execReorderAccept id s
  | .remotePerform id => Sys2Proof.Machine.execRemotePerform id s
  | .ackReturn id => Sys2Proof.Machine.execAckReturn id s
  | .remoteReply id => Sys2Proof.Machine.execRemoteReply id s
  | .withdrawalArrival id => Sys2Proof.Machine.execWithdrawalArrival id s
  | .noRouteDrop id => Sys2Proof.Machine.execNoRouteDrop id s
  | .tsendDeparture id => Sys2Proof.Machine.execTsendDeparture id s
  | .tsendComplete id => Sys2Proof.Machine.execTsendComplete id s
  | .pieceDeparture c chunk offset => Sys2Proof.Machine.execPieceDeparture c chunk offset s
  | .deferralResend p => Sys2Proof.Machine.execDeferralResend p s
  | .postEntry id => Sys2Proof.Machine.execPostEntry id s
  | .collectiveComplete c => Sys2Proof.Machine.execCollectiveComplete c s
  | .collectiveTimeout c => Sys2Proof.Machine.execCollectiveTimeout c s
  | .hoopPostArrival c pos key => Sys2Proof.Machine.execHoopPostArrival c pos key s
  | .ticketArrival t => Sys2Proof.Machine.execTicketArrival t s
  | .admission => Sys2Proof.Machine.execAdmission s
  | .orderNotice c => Sys2Proof.Machine.execOrderNotice c s
  | .pieceArrival p => Sys2Proof.Machine.execPieceArrival p s
  | .abortNotice c cancelled => Sys2Proof.Machine.execAbortNotice c cancelled s
  | .hoopWithdrawal c cancelled => Sys2Proof.Machine.execHoopWithdrawal c cancelled s
  | .hbmArrival pa read => Sys2Proof.Machine.execHbmArrival pa read s
  | .wsRefreshWindowStart bank => Sys2Proof.Machine.execWsRefreshWindowStart bank s
  | .wsRefreshWindowEnd bank => Sys2Proof.Machine.execWsRefreshWindowEnd bank s
  | .linkDown port => Sys2Proof.Machine.execLinkDown port s
  | .routeTableLoad dest alts => Sys2Proof.Machine.execRouteTableLoad dest alts s
  | .rankTableWrite rank entry members => Sys2Proof.Machine.execRankTableWrite rank entry members s
  | .mailboxWrite k addr => Sys2Proof.Machine.execMailboxWrite k addr s
  | .resourceReport core r => Sys2Proof.Machine.execResourceReport core r s
  | .uncorrectableError line => Sys2Proof.Machine.execUncorrectableError line s
  | .timeService skew => Sys2Proof.Machine.execTimeService skew s
  | .hostWrite port rod pa data => Sys2Proof.Machine.execHostWrite port rod pa data s
  | .hostRead port pa n => Sys2Proof.Machine.execHostRead port pa n s
  | .hsemWrite port v => Sys2Proof.Machine.execHsemWrite port v s
  | .hsemRelease => Sys2Proof.Machine.execHsemRelease s
  | .registerWrite port off v => Sys2Proof.Machine.execRegisterWrite port off v s
  | .powerTick watts hot => Sys2Proof.Machine.execPowerTick watts hot s
  | .thermalPowerOff => Sys2Proof.Machine.execThermalPowerOff s
  | .packageReset => Sys2Proof.Machine.execPackageReset s
  | .firmwareImage => Sys2Proof.Machine.execFirmwareImage s
  | .watchdog => Sys2Proof.Machine.execWatchdog s
  | .attestation nonce => Sys2Proof.Machine.execAttestation nonce s
  | .identityRead => Sys2Proof.Machine.execIdentityRead s
  | .delegate who parent rights holder => Sys2Proof.Machine.execDelegate who parent rights holder s
  | .revoke who entry => Sys2Proof.Machine.execRevoke who entry s
  | .stopRequest who => Sys2Proof.Machine.execStopRequest who s
  | .breakpoint => Sys2Proof.Machine.execBreakpoint s
  | .singleStepStop => Sys2Proof.Machine.execSingleStepStop s
  | .resume who step => Sys2Proof.Machine.execResume who step s
  | .debugRead who off n => Sys2Proof.Machine.execDebugRead who off n s
  | .debugWrite who off data => Sys2Proof.Machine.execDebugWrite who off data s
  | .sample => Sys2Proof.Machine.execSample s
  | .chargeRecord => Sys2Proof.Machine.execChargeRecord s
  | .partitionEviction quad => Sys2Proof.Machine.execPartitionEviction quad s
  | .partitionRestore quad => Sys2Proof.Machine.execPartitionRestore quad s
  | .breakpointSet who slot addr => Sys2Proof.Machine.execBreakpointSet who slot addr s
  | .sessionOpen who kind k => Sys2Proof.Machine.execSessionOpen who kind k s
  | .rootEntry asid holder => Sys2Proof.Machine.execRootEntry asid holder s
  | .overflowQuota port mib => Sys2Proof.Machine.execOverflowQuota port mib s
  | .migration pkg => Sys2Proof.Machine.execMigration pkg s

end Sys2Proof.Machine
end

