-- ==== Sys2Proof/Machine/Issue.lean ====
section
/-!
DEFINITION. One issue cycle of the core (03 R20 to R26, R33, R336; 05 R93; 13 R216): the bundle at the
fetch address issues, traps or stalls. A bundle of one word runs its word's meaning.
-/

namespace Sys2Proof.Machine

open Sys2Proof

/-- What an outcome becomes when its next state is changed. -/
def andThen (o : Out) (f : State → State) : Out :=
  match o with
  | .next s => .next (f s)
  | .fault r => .fault r
  | .refused r => .refused r

/-- A cycle in which no bundle issues. -/
def State.idle (s : State) : State := { s.stallCycle.cycleEnd with ctl := .held }

/-- Whether the window of a yield request has expired, so that no bundle issues: not while a `YIELD` that
found the request waits in a held bundle (14 R240). -/
def State.expired (s : State) : Bool :=
  match s.core.yieldReq with
  | some (_, e) => decide (e < s.cyc) && !s.yieldHeld
  | none => false

/-- The bundle of the words at the fetch address issues: the traps of 03 R336 first, then its words. -/
def State.issueBundle (s : State) (run : List (Option IWord)) : Out :=
  let ws := run.filterMap (fun x => x)
  let s1 := s.enterBundle ws
  match s1.preTrap run with
  | some t => .next (s1.trapIssue t).finish
  | none =>
    match ws with
    | [w] =>
      match decode w with
      | some i => andThen (exec i s1) State.finish
      | none => .next s1.idle
    | _ => .next (s1.issueMany (bundleSpecs ws)).finish

/-- A cycle in which a stream holds issue (07 R134): the bundle at the fetch address is stalled, its causes of
the first three steps are delivered at once (03 R336), and a pop of it that waits is counted (10 R192). -/
def State.holdIssue (s : State) (run : List (Option IWord)) : State :=
  let ws := run.filterMap (fun x => x)
  let s1 := s.enterBundle ws
  match s1.heldTrap run with
  | some t => (s1.trapIssue t).finish
  | none => (if s.popWaits ws then s.countLqWait else s).idle

/-- Whether a bundle may come into issue: the context runs, its window has not expired, no step or
breakpoint stops it, and it does not wait for its replay buffer, its end, a `TLBINV` or a stream. -/
def State.mayIssue (s : State) : Bool :=
  s.live && !s.expired && !s.cx.stepDone && !s.mustWait && !s.atBreakpoint

/-- One cycle of the core. -/
def State.issue (s : State) : Out :=
  if s.mayIssue then s.issueBundle (s.runAt 7 s.cx.pc)
  else if !s.live then .next s.idle
  else if s.expired then .next s.yieldExpiry
  else if s.cx.stepDone && s.cx.replay.isNone then .next s.stepStop
  else if s.atBreakpoint then .next s.breakStop
  else if s.blocked then .next s.leaveSource.idle
  else .next (s.holdIssue (s.runAt 7 s.cx.pc))

end Sys2Proof.Machine
end

