-- ==== Sys2Proof/Machine/Auto.lean ====
section
/-!
DEFINITION. Which step moves next while the core stalls or idles and `agenda` names none: the first of
the machine's own pending steps that changes the state. Steps that come from outside (hosts, tools, other
packages, interrupts, errors) come through `agenda` alone (log entry 5).
-/

namespace Sys2Proof.Machine

open Sys2Proof

/-- The steps of the running context that may be pending. -/
def State.ctxSteps (s : State) : List Instr :=
  [.sharedTlbLookup, .tableRead, .faultFreeze, .tlbinvComplete]
  ++ s.cx.accs.flatMap (fun a =>
    if a.isRead then [.loadDataReturn a.id] else [.writeEntryBegin a.id, .writePerform a.id])
  ++ s.cx.streams.map (fun t => .streamGroupPass t.id)
  ++ (s.core.bars.map (fun e => e.1)).flatMap (fun k => [.arrivalCounted k true, .barrierDelivery k])

/-- The steps of the engines that may be pending. -/
def State.engineSteps (s : State) : List Instr :=
  [.shuttleCommandStart, .beat, .shuttleCommandComplete, .copyCommandStart false, .copyCommandStart true]
  ++ s.core.copies.flatMap (fun c =>
    [.copySegmentWrite c.id, .copyPause c.id, .copyResume c.id]
    ++ (if c.paused then [] else [.copyComplete c.id]))

/-- The next pieces of a collective that may leave or begin here. -/
def Coll.pieceSteps (c : Coll) : List Instr :=
  if c.code = 3 then
    c.staged.map (fun x => .pieceDeparture c.cid x.2.chunk x.2.offset)
    ++ c.starts.map (fun k => .pieceDeparture c.cid k (pieceLen c.blk * (c.sent.filter (fun x => x.1 == k)).length))
  else []

/-- The steps of the fabric and of the collectives that may be pending. -/
def State.fabricSteps (s : State) : List Instr :=
  (List.range s.core.lines.length).map Instr.combineLineExpiry
  ++ s.fab.pkts.flatMap (fun p =>
    (match p.port with | some k => [.arbitration k] | none => [])
    ++ [.noRouteDrop p.id, .reorderAccept p.id, .remotePerform p.id, .ackReturn p.id, .remoteReply p.id,
        .withdrawalArrival p.id])
  ++ s.fab.tsends.flatMap (fun t => [.tsendDeparture t.id, .tsendComplete t.id])
  ++ s.coll.table.flatMap (fun c => [.postEntry c.cmd, .collectiveComplete c.cid, .collectiveTimeout c.cid])
  ++ (s.coll.table ++ s.coll.tail).flatMap Coll.pieceSteps
  ++ s.coll.resend.map (fun x => .deferralResend x.2.2)
  ++ [.admission]

/-- The steps of the pricking and of the context banks that may be pending. -/
def State.schedSteps (s : State) : List Instr :=
  [.spillComplete, .emergencySpill, .fillComplete, .taskStart]
  ++ (if s.cx.ending then [.taskEnd s.cx.task.node 0] else [])
  ++ [.contextSwitch, .yieldWindowExpiry, .postTake]
  ++ s.sched.nodes.flatMap (fun n =>
    if n.finished then [] else [.imageLoad n.gen, .imageLoadComplete n.gen, .nodeFinish n.gen, .claimant n.gen])
  ++ [.yieldRequest, .taskPlacement, .victimChoice]

/-- The steps of the HBM controllers that may be pending. -/
def State.hbmSteps (s : State) : List Instr :=
  s.hbm.chans.flatMap (fun e => [.refreshDue e.1, .allBankRefreshStart e.1, .allBankRefreshEnd e.1])
  ++ s.hbm.banks.flatMap (fun e =>
    [.hbmServiceStart (e.1 / 16) (e.1 % 16), .bankRefreshEnd (e.1 / 16) (e.1 % 16),
     .bankIdleClose (e.1 / 16) (e.1 % 16)])

/-- Every step of the machine's own that may be pending. -/
def State.ownSteps (s : State) : List Instr :=
  s.ctxSteps ++ s.hbmSteps ++ s.engineSteps ++ s.schedSteps ++ s.fabricSteps

/-- Whether a step changes the state. -/
def State.moves (s : State) (i : Instr) : Bool :=
  match exec i s with
  | .next t => t != s
  | _ => false

/-- The step that moves next, if one does. -/
def State.autoEvent (s : State) : Option Instr := s.ownSteps.find? s.moves

end Sys2Proof.Machine
end

