-- ==== Sys2Proof/Machine/Step.lean ====
section
/-!
DEFINITION. One step of the machine: the step that `agenda` names next; else, while the core stalls, a
pending step of the machine's own; else one issue cycle of the core. And the placing of one instruction
where it is fetched next.
-/

namespace Sys2Proof.Machine

open Sys2Proof

/-- Whether a step named by `agenda` can be taken: it is no instruction word, and a package without
power knows only its reset (22 R325). -/
def State.agendaOk (s : State) (e : Instr) : Bool :=
  (wordOf e).isNone && (!s.host.off ||
    (match e with
     | .packageReset => true
     | _ => false))

/-- One step. -/
def step (s : State) : Host.Outcome State Fault Refusal :=
  match s.agenda with
  | e :: es => if s.agendaOk e then exec e { s with agenda := es } else .next { s with agenda := es }
  | [] =>
    if s.host.off then .fault .poweredOff
    else if s.stalled then
      match s.autoEvent with
      | some i => exec i { s with stalled := false }
      | none => s.issue
    else s.issue

/-- The state with one instruction word placed where the next bundle is fetched: the running context may
issue, and the word's bytes stand in its code, in the first page of HBM unless its code already covers
the fetch address (log entry 5). -/
def State.withFetchWord (s : State) (_nbits w : Nat) : State :=
  let c := { s.cx with replay := none, ending := false, tlbWait := none, stepDone := false, bpSkip := true
                       stop := none, codeLit := none }
  let c := if s.inCode c.pc && s.cx.codeLit.isNone && !c.codePages.isEmpty then c
    else { c with codeOrigin := keep c.pc 6 58, codeLen := c.pc.toNat % 64 + 4, codePages := [0]
                  codeOff := 0 }
  let s := { s with cx := c, cxSt := .running, agenda := [], stalled := false
                    host := { s.host with off := false }, core := { s.core with yieldReq := none } }
  s.writeNat (s.codeLoc c.pc) 4 w

end Sys2Proof.Machine
end

