-- ==== Sys2Proof/Safety.lean ====
section
/-!
DEFINITION. What the claims are stated in: the canonical form of memory, the invariant of the machine,
runs and safe runs, readable operands, and what a word that only computes may change.
-/

namespace Sys2Proof.Safety

open Sys2Proof Sys2Proof.Machine

/-- Memory is in canonical form: locations strictly rising and no zero byte listed, empty words and
poison-marked lines strictly rising (log entry 6). -/
def MemOk (s : State) : Prop :=
  Memory.wf s.mem = true ∧ rising s.empties = true ∧ rising s.marks = true

/-- The state after n steps, if none of them stops the machine. -/
def after : Nat → State → Option State
  | 0, s => some s
  | n + 1, s =>
    match step s with
    | .next t => after n t
    | _ => none

/-- A run of n steps is safe: no fault and no refusal ends it. -/
def SafeFor (n : Nat) (s : State) : Prop := ∃ t, after n s = some t

/-- The first n entries of `lq` are there and back, and hold these values (01 R6, 06 R104). -/
def Popped (s : State) (n : Nat) (v : List Reg) : Prop :=
  n ≤ s.cx.lq.length ∧ lqValues n s.cx.lq = some v

/-- What a word that only computes may change: results in flight, popped entries of `lq`, and the
counter of free values. Everything else is as before: stored registers, predicates, flags, special
registers, accumulators, exception registers, queues, every byte and tag of memory (05 R81). -/
def ComputesOnly (s t : State) : Prop :=
  t = { s with fv := t.fv, cx := { s.cx with pend := t.cx.pend, lq := t.cx.lq } }

/-- The words of the majors IALU, IALI, MOVI, MOVK, FPU, CMP and FIELD: they compute from registers and
write one register or predicate (05 R81). -/
def computes : Instr → Bool
  | .add _ _ _ | .sub _ _ _ | .mul _ _ _ | .mulh _ _ _ | .mulhn _ _ _ | .div _ _ _ | .divn _ _ _
  | .rem _ _ _ | .remn _ _ _ | .and _ _ _ | .or _ _ _ | .xor _ _ _ | .andn _ _ _ | .shl _ _ _
  | .shr _ _ _ | .sar _ _ _ | .rotl _ _ _ | .min _ _ _ | .max _ _ _ | .minn _ _ _ | .maxn _ _ _
  | .clz _ _ | .popc _ _ | .sext _ _ _ | .zext _ _ _ | .addi _ _ _ | .andi _ _ _ | .ori _ _ _
  | .xori _ _ _ | .shli _ _ _ | .shri _ _ _ | .sari _ _ _ | .movi _ _ | .movk _ _ _ | .fadd _ _ _ _
  | .fsub _ _ _ _ | .fmul _ _ _ _ | .ffma _ _ _ _ | .fmin _ _ _ _ | .fmax _ _ _ _ | .fabs _ _ _
  | .fneg _ _ _ | .fcpys _ _ _ _ | .fcvti _ _ _ _ _ | .fcvtf _ _ _ _ _ | .fcvtw _ _ _ _
  | .cmp _ _ _ _ | .fcmp _ _ _ _ | .plog _ _ _ _ | .tst _ _ _ _ | .bfx _ _ _ | .bfi _ _ _
  | .lea _ _ _ | .sel _ _ _ => true
  | _ => false

/-- An access of the running context to an address may issue and goes to a location of this package (06
R106; 02 R13 to R16): it is aligned and granted, in a scratchpad, the weight store, or global memory whose
page the micro-TLB holds, and no open window access holds it (16 R259). -/
def Goes (s : State) (a : Word) (align : Nat) (k : AccessSort) (cls : BitVec 4) (loc : Nat) : Prop :=
  ((s.checkAccess a align k = .ok (.near loc) ∨ s.checkAccess a align k = .ok (.weights loc))
    ∧ s.heldNear cls.toNat loc = false)
  ∨ (s.checkAccess a align k = .ok .global ∧ s.heldNear cls.toNat loc = false
    ∧ ∃ t, tlbFind s.xl.micro (s.specialNow 0x101).toNat a k.writes s.cx.priv = some t
      ∧ loc = hbmLoc s.pkgid (t.phys a))

/-- How many entries of the write queue are taken (06 R103). -/
def writesQueued (s : State) : Nat :=
  (s.cx.accs.filter (fun a => a.kind.isWrite)).length

/-- The entry of an access in its queue (06 R103): it waits for the earlier accesses of its class and to
its 8-byte word, and for its base's taint (06 R107, 05 R82). -/
def entryOf (s : State) (k : AccKind) (cls : BitVec 4) (a : Word) (loc : Nat) (sz : BitVec 2)
    (taint : List Nat) : Acc :=
  { id := s.nextId, kind := k, cls := cls.toNat, addr := a, loc := loc, size := 2 ^ sz.toNat
    deps := (s.orderDeps cls.toNat loc taint).filter (fun d => decide (d < s.nextId))
    lq := if k.needsLq then some s.nextId else none
    opened := s.cyc }

/-- An access has entered its queue: n entries of `lq` are popped, its own is reserved, and nothing else
of the machine has changed. A fence that stood before it is over (06 R123). -/
def Entered (s : State) (n : Nat) (e : Acc) : State :=
  { s with
    nextId := s.nextId + 1
    cx := { s.cx with
      fences := [], drains := []
      lq := s.cx.lq.drop n ++ (if e.lq.isSome then [{ id := e.id }] else [])
      accs := s.cx.accs ++ [e] } }

/-- Every descriptor of a list passes the checks of its use: legal, its range addressed and granted, no
accumulator busy (07 R127 to R131). -/
def Usable (s : State) (l : List Use) : Prop := s.usesIllop l = false ∧ s.usesTrap l = none

/-- The region a descriptor of a stream names: without scales where the stream moves codes (07 R138, R143), one
element where it drains a latch (07 R153). -/
def streamRegion (s : State) (op : StreamOp) (d : DReg) : Region :=
  match op with
  | .latchOut _ _ => { s.regionOf d with count := 1 }
  | _ => if op.codes then { s.regionOf d with scales := none } else s.regionOf d

/-- The count that a `VCOMP` stream sends on its way, known when it lands (07 R144, R151). -/
def countSent (s : State) (op : StreamOp) (n lat : Nat) (dst : Option DReg) : List Pend :=
  match op, dst with
  | .perm 0, some d =>
    [{ w := .count d none, issued := s.cx.icyc, bound := lat + (n + 63) / 64, land := lat + (n + 63) / 64
       stream := some s.nextId }]
  | _, _ => []

/-- A stream of n elements enters its pipe's queue with the regions its descriptors name now; nothing else
of the machine changes (07 R125, R129, R131). -/
def Streams (s : State) (i : Instr) (vpipe : Bool) (op : StreamOp) (n : Nat) (dst a b : Option DReg)
    (lat : Nat) : Prop :=
  ∃ t : Stream,
    exec i s = .next
      { s with
        nextId := s.nextId + 1
        cx := { s.cx with streams := s.cx.streams ++ [t], pend := s.cx.pend ++ countSent s op n lat dst } }
    ∧ t.id = s.nextId ∧ t.vpipe = vpipe ∧ t.op = op ∧ t.n = n ∧ t.dst = dst.map (streamRegion s op)
    ∧ t.a = a.map (streamRegion s op) ∧ t.b = b.map s.regionOf ∧ t.lat = lat ∧ t.issued = s.cx.icyc
    ∧ t.group = 0 ∧ t.out = none ∧ t.deps = s.streamDeps t

/-- A shuttle command enters the queue, and the open batch when its latency is b (08 R170, R181). -/
def Queued (s : State) (k : MKind) (deps : List Nat) (batch : Bool) : State :=
  { s with
    nextId := s.nextId + 1
    cx := { s.cx with
      cmds := s.cx.cmds ++ (if batch then [{ id := s.nextId, tok := s.cx.openTok, eng := 0 }] else []) }
    core := { s.core with
      shq := s.core.shq
        ++ [{ id := s.nextId, owner := s.cx.uid, badr := s.badr, kind := k, deps := deps }] } }

/-- The next identifier belongs to no command on its way. -/
def NextIdUnused (s : State) : Prop :=
  (∀ c ∈ s.core.copies, c.id ≠ s.nextId) ∧ (∀ t ∈ s.fab.tsends, t.id ≠ s.nextId)
  ∧ ∀ f ∈ s.coll.fabq, f.id ≠ s.nextId

/-- A command of the X pipe has joined the open batch and stands last in its context's queue (08 R181, 10 R198);
engine 1 copies, 2 the fabric. -/
def JoinedBatch (s : State) (eng : Nat) : State :=
  { s with
    nextId := s.nextId + 1
    cx := { s.cx with
      xq := s.cx.xq ++ [s.nextId]
      cmds := s.cx.cmds ++ [{ id := s.nextId, tok := s.cx.openTok, eng := eng }] } }

/-- No collective has an incomplete batch, whose destination software may not access (17 R276). -/
def NoneOpen (s : State) : Prop := ∀ c ∈ s.coll.table ++ s.coll.tail ++ s.coll.closing, s.batchOpen c = false

/-- A collective has ended on this member with a final code (17 R274): its words 12 to 15 are written, word
15 with tag full where the word has one, it is out of the table, and its code is kept, unless it is the DUP of a post
that repeated the number of another (17 R272); no other byte of memory has changed. -/
def Ended (s t : State) (c : Coll) (code : Nat) : Prop :=
  t.word (c.blkLoc + 120) = statusWord code c.pos
  ∧ t.word (c.blkLoc + 96) = mkWord ((c.ticket.map (·.hoopid)).getD 0)
  ∧ t.word (c.blkLoc + 112) = mkWord ((c.ticket.map (·.issue)).getD 0)
  ∧ (tagged (c.blkLoc + 120) = true → t.full (c.blkLoc + 120) = true)
  ∧ (∀ a, (a < c.blkLoc + 96 ∨ c.blkLoc + 128 ≤ a) → t.byte a = s.byte a)
  ∧ (∀ x ∈ t.coll.table, x.cmd ≠ c.cmd)
  ∧ (code ≠ 0x17 ∨ (s.hasTwin c = false ∧ ∀ f ∈ s.coll.finals, f.1 ≠ c.cid) → (c.cid, code, c.pos) ∈ t.coll.finals)

/-- A packet with a message of a collective to the member at a position is queued (17 R278, R280 to R286). -/
def Sent (s t : State) (group pos : Nat) (m : CollMsg) : Prop :=
  ∃ p ∈ t.fab.pkts, p.kind = .coll m ∧ p.rank = ((s.groupRanks group)[pos]?).getD 0 ∧ p.stage = .queued

/-- Every other member of a group has been sent a message (17 R278, R280, R283). -/
def Told (s t : State) (group : Nat) (m : CollMsg) : Prop :=
  ∀ k < (s.groupRanks group).length, s.posIn group ≠ some k → Sent s t group k m

/-- A configuration may be made in a state, and is made in u: the firmware's own, or the request of the next asking
port, which holds `hsem` (22 R322). -/
def Asked (s u : State) : Prop :=
  (s.host.asks = [] ∧ u = s)
  ∨ ∃ q l, s.host.asks = q :: l ∧ u = { s with host := { s.host with asks := l } } ∧ s.firmware = true
    ∧ s.holds q = true

/-- The next asking port may not configure: its request is refused, which u counts (22 R322). -/
def Turned (s u : State) : Prop :=
  ∃ q l, s.host.asks = q :: l ∧ (s.firmware = false ∨ s.holds q = false)
    ∧ u = { s with host := { s.host with asks := l, refusals := s.host.refusals + 1 } }

/-- Nothing but the core acts at the end of a cycle: no session asks for a record and none is still to be written
out, no host write is on its way, no ticket waits to be issued (17 R278; 20 R306, R307; 22 R320). -/
def Alone (s : State) : Prop :=
  s.dbg.sessions = [] ∧ s.dbg.traced = s.dbg.written ∧ s.host.late = [] ∧ ∀ h ∈ s.coll.hoop, h.full = none

/-- Memory, tags and the running context are as before. -/
def Quiet (s t : State) : Prop := t.mem = s.mem ∧ t.empties = s.empties ∧ t.cx = s.cx

/-- Nothing watches memory and nothing waits at its words: no copy, timed send or collective, no freed partition, no
parked access. -/
def Unwatched (s : State) : Prop :=
  s.coll.table = [] ∧ s.coll.tail = [] ∧ s.coll.closing = [] ∧ s.core.copies = [] ∧ s.fab.tsends = []
  ∧ s.core.freed = [] ∧ s.core.parked = []

/-- An actor may write a byte and no timed send is to read it: the buffers of collectives and of timed sends that are
under way lie elsewhere (17 R276, 16 R269). -/
def Unnoted (s : State) (x : Actor) (l : Nat) : Prop :=
  s.locked x l = false ∧ ∀ t ∈ s.fab.tsends, ¬(t.fromLoc ≤ l ∧ l < t.fromLoc + t.bytes)

end Sys2Proof.Safety
end

