-- ==== Sys2Proof/Certificates/Slice0/Obligations.lean ====
section
/-!
DEFINITION. The statements about this machine, each named for what it states; its docstring cites
the rule of the manual it formalises.
-/

open Sys2Proof Sys2Proof.Machine Sys2Proof.Safety

/-! ### Encoding -/

/-- Every word of the encoder decodes to its instruction: no operand bit is dropped (03 R27 to R29). -/
def Obligations.DecodeInvertsEncode : Prop :=
  ∀ (i : Instr) (c : Bool) (w : IWord), encode c i = some w → decode w = some i ∧ chainBit w = c

/-- What decodes is what was encoded: a word that decodes is the encoder's word for its instruction, with
its own chain bit, so each instruction has one encoding and no reserved bit is let through (03 R20,
R27 to R29, R38). -/
def Obligations.EncodeInvertsDecode : Prop :=
  ∀ (w : IWord) (i : Instr), decode w = some i → encode (chainBit w) i = some w

/-- Words written out bit by bit from the formats of 03 R27 and the tables of each chapter decode to the
instruction they stand for. -/
def Obligations.WrittenWordsDecode : Prop :=
  decode 0b0_00100_000011_000001_000010_00000000 = some (.add 3 1 2)
  ∧ decode 0b0_00101_000011_000001_000_11111111111 = some (.addi 3 1 (-1))
  ∧ decode 0b1_00110_000001_00000000000000000011 = some (.movi 1 3)
  ∧ decode 0b0_01000_000111_000101_000110_01000011 = some (.ffma 1 7 5 6)
  ∧ decode 0b0_01101_000100_000010_0011_11_00000001 = some (.st 4 2 3 3 1)
  ∧ decode 0b0_01111_000110_000011_0000_11_1_1000_000 = some (.aswp 6 3 0 3 1)
  ∧ decode 0b0_00001_001_1_1111111111111111111111 = some (.br 1 1 (-1))
  ∧ decode 0b0_10001_00011_00001_00010_000_00000011 = some (.vfma 3 1 2 0)
  ∧ decode 0b0_10111_001_1_00010_00011_000100_10_00_01 = some (.mstep 1 1 2 3 4 2 1)
  ∧ decode 0b0_11010_000010_000000_000001_00000000 = some (.cpy 2 0 0 1)
  ∧ decode 0b0_00011_000111_000000_00000000000000 = some .swapc
  ∧ decode 0b0_01011_000000_00000000000000000000 = none

/-! ### Reset, steps, memory -/

/-- At package reset every scratchpad and weight store reads zero (22 R323); that every tag is full then is the
model's choice (log entry 6). -/
def Obligations.ResetStoresReadZero : Prop :=
  ∀ loc, whereLoc loc ≠ .hbm → State.reset.byte loc = 0 ∧ State.reset.full loc = true

/-- Registers and counters at package reset: `cyc` (02 R18), the format registers (04 R50), the scale table (04 R56),
`tcause`, `thand`, `ptbase`, `asid`, `ctxsave` and `emerg` (13 R218, R220), `lotflags` (16 R265), the cycle classes
(20 R311), the host register page (22 R321).

The latches (07 R152), the slack of every class (16 R263) and the allowance of every window (16 R256) are values the
manual gives a task at its start; that the empty bank of reset holds them is the model's choice (log entry 1). -/
def Obligations.ResetValues : Prop :=
  let s := State.reset
  s.cyc = 0 ∧ s.cx.fms = fmReset ∧ s.cx.fms[0] = 0x1E300700 ∧ s.cx.fms[15] = s.cx.fms[0]
  ∧ s.cx.thand = 0 ∧ s.cx.tcause = 0 ∧ s.cx.ptbase = 0 ∧ s.cx.asid = 0 ∧ s.cx.ctxsave = 0
  ∧ s.core.emerg = 0 ∧ s.cx.lotflags = 0
  ∧ s.cx.scs = Vector.replicate 16 0
  ∧ s.cx.latches = Vector.replicate 4 { val := 0, kind := .fp32, op := .add, poison := false }
  ∧ s.cx.slack = Vector.replicate 16 65535 ∧ s.cx.allow = Vector.replicate 8 64
  ∧ s.core.mc = Vector.replicate 5 0
  ∧ s.host.hsem = 0 ∧ s.host.pwrlim = 12000 ∧ s.host.boot = 0 ∧ s.host.refused = 0
  ∧ s.host.clkStep = 0 ∧ s.host.hot = 0 ∧ s.host.pcap = false ∧ s.host.tcap = false ∧ s.host.trip = false

/-- The machine never refuses an instruction and never faults but when it has no power: the one stop is a
package from which a sensor at 125 °C removed power, asked to go on without a step from outside (22
R325). -/
def Obligations.OnlyPowerOffStops : Prop :=
  (∀ i s, ∃ t, exec i s = .next t)
  ∧ ∀ s, (∃ t, step s = .next t) ∨ (s.agenda = [] ∧ s.host.off = true ∧ step s = .fault .poweredOff)

/-- The memory of the reset state is in canonical form. -/
def Obligations.ResetMemoryCanonical : Prop :=
  MemOk State.reset

/-- Every step keeps memory in canonical form: locations strictly rising, no zero byte listed, empty
words and poison-marked lines strictly rising. -/
def Obligations.StepKeepsMemoryCanonical : Prop :=
  ∀ s t, MemOk s → step s = .next t → MemOk t

/-- A step whose fetch address holds one well-formed word, alone in its bundle, runs exactly that word's
instruction, then finishes the bundle: the next address is that of a transfer or of the loop test (03
R20, R24; 05 R91, R93). -/
def Obligations.StepRunsDecodedWord : Prop :=
  ∀ s i, s.agenda = [] → s.host.off = false → s.stalled = false → s.mayIssue = true
    → s.inCode s.cx.pc = true → s.cx.pc.toNat % 4 = 0
    → chainBit (s.fetchWord s.cx.pc) = false → decode (s.fetchWord s.cx.pc) = some i → i.wf = true
    → step s = andThen (exec i (s.enterBundle [s.fetchWord s.cx.pc])) State.finish

/-- A word that is no instruction raises ILLOP when it stands alone at the fetch address: `tval` is the
word with its index 0 (03 R38, R40).

A poisoned predicate of `BR`, register of `JMP`, `JMPL` or `LOOP`, or s61 of `RET`, and a poisoned
register of `CHECK`, `MARK` or `MTS`, raises POISON of issue kind before anything is done: `tval` is the
register number, with bit 6 for a predicate, and the word index from bit 8 (05 R92; 13 R219, R223). For a
special register that takes privilege, `MTS` is taken privileged here, since PRIV comes first.

`SWAPC`, `TLBINV` and the special registers from 0x100 on are PRIV from unprivileged code, with the
word and its index in `tval`; so is `MTS` of a register that only privileged code may write (05 R79; 13
R219, R228).

A word that the state makes illegal raises ILLOP before any stall (03 R40, R336; log entry 68). A word that
pops more entries of `lq` than are reserved raises LQEMPTY with both counts; one that pops an entry that is
reserved and not back stalls, and nothing is popped (06 R104; 03 R336). -/
def Obligations.IssueChecks : Prop :=
  (∀ s, s.agenda = [] → s.host.off = false → s.stalled = false → s.mayIssue = true
      → s.inCode s.cx.pc = true → chainBit (s.fetchWord s.cx.pc) = false
      → wordIllegal (s.fetchWord s.cx.pc) = true
      → step s = .next ((s.enterBundle [s.fetchWord s.cx.pc]).trapIssue
          ⟨1, mkWord (s.fetchWord s.cx.pc).toNat⟩).finish)
  ∧ (∀ (s : State) (a c : SReg) (k : PRegNum) (n : BitVec 1) (off : BitVec 22) (m : BitVec 14),
      let poison := fun (x : Nat) => (.next (s.trapIssue ⟨5, mkWord (x + s.widx * 2 ^ 8)⟩) : Out)
      ((s.cx.preg k).poison = true → exec (.br k n off) s = poison (k.toNat + 2 ^ 6))
      ∧ ((s.cx.preg (c.extractLsb' 0 3)).poison = true → c.toNat ≤ 7 →
          exec (.checkPred c) s = poison (c.toNat + 2 ^ 6))
      ∧ ((s.cx.sreg 61).poison = true → exec .ret s = poison 61)
      ∧ ((s.cx.sreg a).poison = true →
          exec (.jmp a) s = poison a.toNat ∧ exec (.jmpl a) s = poison a.toNat
          ∧ exec (.loop a m) s = poison a.toNat ∧ exec (.check a) s = poison a.toNat
          ∧ exec (.mark a m) s = poison a.toNat
          ∧ (s.cx.priv = true → exec (.mts a m) s = poison a.toNat)))
  ∧ (∀ (s : State) (a : SReg) (n : BitVec 14), s.cx.priv = false →
      let priv : Out := .next (s.trapIssue ⟨3, mkWord (s.curWord.toNat + s.widx * 2 ^ 32)⟩)
      exec .swapc s = priv ∧ exec .tlbinvLocal s = priv ∧ exec .tlbinvAll s = priv
      ∧ exec (.tlbinvPage a) s = priv ∧ exec (.tlbinvAsid a) s = priv
      ∧ (0x100 ≤ n.toNat → exec (.mfs a n) s = priv ∧ exec (.mts a n) s = priv)
      ∧ (n.toNat ∈ [0x001, 0x002, 0x003, 0x004, 0x008, 0x009, 0x00A, 0x010, 0x011, 0x012, 0x013, 0x014] →
          exec (.mts a n) s = priv))
  ∧ (∀ (i : Instr) (w : WordSpec) (s : State), wordOf i = some w →
      (w.illop s = true → exec i s = .next (s.trapIssue ⟨1, s.tvalWord⟩))
      ∧ (w.illop s = false →
        (s.cx.lq.length < w.pops → exec i s = .next (s.trapIssue
          ⟨4, mkWord (w.pops % 256 + (s.cx.lq.length % 256) * 256)⟩))
        ∧ (w.pops ≤ s.cx.lq.length → (∃ e ∈ s.cx.lq.take w.pops, e.data = none) →
            exec i s = .next { s with ctl := .stalled true })))

/-- Bytes written are read back, lowest address first, and every other byte, every tag and every mark is
unchanged. -/
def Obligations.MemoryReadsBack : Prop :=
  ∀ (s : State) (loc : Nat) (l : List Byte) (a : Nat),
    (s.setBytes loc l).byte a
      = (if loc ≤ a ∧ a < loc + l.length then (l[a - loc]?).getD 0 else s.byte a)
    ∧ (s.setBytes loc l).empties = s.empties ∧ (s.setBytes loc l).marks = s.marks
    ∧ (MemOk s → MemOk (s.setBytes loc l))

/-! ### Registers and landing -/

/-- s0 and k0 are hard-wired: they read as zero and true, free of poison and taint, and discard writes
(03 R36; 05 R72, R73). -/
def Obligations.HardwiredRegisters : Prop :=
  ∀ (s : State) (v : Reg) (p : PReg) (n : Nat),
    s.cx.sreg 0 = { val := 0, poison := false, taint := [] }
    ∧ s.cx.preg 0 = { val := true, poison := false, taint := [] }
    ∧ s.wreg 0 v n = s ∧ s.wpred 0 p n = s

/-- A result issued with bound L to a register that no other result is on its way to lands once, within
L issue cycles: there is one cycle before which every read returns the old value and from which on every
read returns the new one (03 R31). -/
def Obligations.ResultLandsOnceWithinBound : Prop :=
  (∀ (s : State) (r : SReg) (v : Reg) (L : Nat), r ≠ 0 → 1 ≤ L → v.poison = false
    → (∀ p ∈ s.cx.pend, p.w.key ≠ some r.toNat)
    → ∃ k, 1 ≤ k ∧ k ≤ L ∧ ∀ n,
        ({ (s.wreg r v L).cx with icyc := s.cx.icyc + n }).sreg r
          = if n < k then s.cx.sreg r else v)
  ∧ ∀ (s : State) (r : PRegNum) (v : PReg) (L : Nat), r ≠ 0 → 1 ≤ L → v.poison = false
    → (∀ p ∈ s.cx.pend, p.w.key ≠ some (100 + r.toNat))
    → ∃ k, 1 ≤ k ∧ k ≤ L ∧ ∀ n,
        ({ (s.wpred r v L).cx with icyc := s.cx.icyc + n }).preg r
          = if n < k then s.cx.preg r else v

/-- Every word reads its sources in the issue cycle: no word of a bundle sees a result of another word of
the same bundle (03 R23).

A write to a register whose earlier write is still in flight: until both bounds have elapsed a read
returns the old value or either new value, and from then on one of the two new ones (03 R32).

A poisoned result keeps its poison and taint, and its value bits are free (05 R81; log entry 3). -/
def Obligations.ResultsInFlight : Prop :=
  (∀ (s : State) (d r : SReg) (e k : PRegNum) (v : Reg) (p : PReg) (n : Nat),
      (s.wreg d v n).cx.sreg r = s.cx.sreg r ∧ (s.wreg d v n).cx.preg k = s.cx.preg k
      ∧ (s.wpred e p n).cx.sreg r = s.cx.sreg r ∧ (s.wpred e p n).cx.preg k = s.cx.preg k)
  ∧ (∀ (s : State) (r : SReg) (v w : Reg) (p q : Pend), r ≠ 0
      → p.w = .sreg r v → q.w = .sreg r w → p.applied = false → q.applied = false
      → p.issued ≤ q.issued → q.issued < p.issued + p.bound
      → (s.cx.inFlight r.toNat = [p, q] →
          s.cx.sreg r = v ∨ s.cx.sreg r = w ∨ s.cx.sreg r = s.cx.regs[r.toNat]'r.isLt)
        ∧ ((s.applyGroup [p, q]).cx.regs[r.toNat]'r.isLt = v
          ∨ (s.applyGroup [p, q]).cx.regs[r.toNat]'r.isLt = w))
  ∧ (∀ (s : State) (r : SReg) (v : Reg) (L : Nat), r ≠ 0 → v.poison = true →
      s.wreg r v L
        = ({ s with fv := s.fv + 1 }).push (.sreg r { v with val := Config.freeWord s.fv }) L)

/-! ### Scalar words -/

/-- The three-operand words of IALU and `LEA`, with their bounds (05 R83, R90).

Division never traps: by zero it gives all ones and A, the signed overflow gives −2^63 and 0 and sets
OF in `DIV` alone, and otherwise it truncates toward zero (05 R84).

`CLZ`, `POPC`, `SEXT` and `ZEXT`, at every size code (05 R83). -/
def Obligations.IaluResults : Prop :=
  (∀ (s : State) (d a b : SReg) (v : List Reg), Popped s (pops2 a b) v →
      let x := (s.src a v 0).val
      let y := (s.src2 a b v).val
      let sh := y.toNat % 64
      let put := fun (n : Nat) (r : Word) =>
        (.next ((s.popLq (pops2 a b)).wreg d (joinAttr r [s.src a v 0, s.src2 a b v]) n) : Out)
      exec (.add d a b) s = put 1 (x + y) ∧ exec (.sub d a b) s = put 1 (x - y)
      ∧ exec (.mul d a b) s = put 3 (x * y)
      ∧ exec (.mulh d a b) s = put 3 ((x.signExtend 128 * y.signExtend 128).extractLsb' 64 64)
      ∧ exec (.mulhn d a b) s = put 3 ((x.zeroExtend 128 * y.zeroExtend 128).extractLsb' 64 64)
      ∧ exec (.and d a b) s = put 1 (x &&& y) ∧ exec (.or d a b) s = put 1 (x ||| y)
      ∧ exec (.xor d a b) s = put 1 (x ^^^ y) ∧ exec (.andn d a b) s = put 1 (x &&& ~~~y)
      ∧ exec (.shl d a b) s = put 1 (x <<< sh) ∧ exec (.shr d a b) s = put 1 (x >>> sh)
      ∧ exec (.sar d a b) s = put 1 (x.sshiftRight sh)
      ∧ exec (.rotl d a b) s = put 1 ((x <<< sh) ||| (x >>> (64 - sh)))
      ∧ exec (.min d a b) s = put 1 (if x.toInt ≤ y.toInt then x else y)
      ∧ exec (.max d a b) s = put 1 (if x.toInt ≤ y.toInt then y else x)
      ∧ exec (.minn d a b) s = put 1 (if x.toNat ≤ y.toNat then x else y)
      ∧ exec (.maxn d a b) s = put 1 (if x.toNat ≤ y.toNat then y else x)
      ∧ exec (.lea d a b) s = put 1 (x + 8 * y))
  ∧ (∀ (s : State) (d a b : SReg) (v : List Reg), Popped s (pops2 a b) v →
      let x := (s.src a v 0).val
      let y := (s.src2 a b v).val
      let edge := x.toInt = -2 ^ 63 ∧ y.toInt = -1
      let q := BitVec.ofInt 64 (x.toInt.tdiv y.toInt)
      let put := fun (r : Word) =>
        (s.popLq (pops2 a b)).wreg d (joinAttr r [s.src a v 0, s.src2 a b v]) 24
      exec (.div d a b) s = .next
          (if y = 0 then put (-1)
           else if edge then (put x).wflags Flag.of 24 else put q)
      ∧ exec (.rem d a b) s = .next
          (if y = 0 then put x else if edge then put 0 else put (x - q * y))
      ∧ exec (.divn d a b) s = .next (if y = 0 then put (-1) else put (x / y))
      ∧ exec (.remn d a b) s = .next (if y = 0 then put x else put (x - x / y * y)))
  ∧ (∀ (s : State) (d a : SReg) (v : List Reg), Popped s (pops2 a 0) v →
      let x := (s.src a v 0).val
      let put := fun (n : Nat) (r : Word) =>
        (.next ((s.popLq (pops2 a 0)).wreg d (joinAttr r [s.src a v 0]) n) : Out)
      (∃ r : Word, exec (.clz d a) s = put 2 r ∧ r.toNat ≤ 64
        ∧ (∀ i < 64, 64 - r.toNat ≤ i → x.getLsbD i = false)
        ∧ (r.toNat < 64 → x.getLsbD (63 - r.toNat) = true))
      ∧ (∃ r : Word, exec (.popc d a) s = put 2 r
        ∧ r.toNat = ((List.range 64).filter (fun i => x.getLsbD i)).length)
      ∧ exec (.sext d a 0) s = put 1 ((x.setWidth 8).signExtend 64)
      ∧ exec (.sext d a 1) s = put 1 ((x.setWidth 16).signExtend 64)
      ∧ exec (.sext d a 2) s = put 1 ((x.setWidth 32).signExtend 64)
      ∧ exec (.zext d a 0) s = put 1 ((x.setWidth 8).setWidth 64)
      ∧ exec (.zext d a 1) s = put 1 ((x.setWidth 16).setWidth 64)
      ∧ exec (.zext d a 2) s = put 1 ((x.setWidth 32).setWidth 64))

/-- The immediate words, and `MOVI` and `MOVK`: `MOVI` is free of poison and taint, `MOVK` replaces one
field of the old value and keeps the rest with its poison and taint (05 R85, R86).

An IALI word of op 7, or a shift with a set bit in imm 10:6, is no instruction; alone at the fetch address
it raises ILLOP (05 R85). -/
def Obligations.ImmediateResults : Prop :=
  (∀ (s : State) (d a : SReg) (imm : BitVec 11) (n : BitVec 6) (v : List Reg), Popped s (pops2 a 0) v →
      let x := (s.src a v 0).val
      let put := fun (r : Word) =>
        (.next ((s.popLq (pops2 a 0)).wreg d (joinAttr r [s.src a v 0]) 1) : Out)
      exec (.addi d a imm) s = put (x + imm.signExtend 64)
      ∧ exec (.andi d a imm) s = put (x &&& imm.signExtend 64)
      ∧ exec (.ori d a imm) s = put (x ||| imm.signExtend 64)
      ∧ exec (.xori d a imm) s = put (x ^^^ imm.signExtend 64)
      ∧ exec (.shli d a n) s = put (x <<< n.toNat) ∧ exec (.shri d a n) s = put (x >>> n.toNat)
      ∧ exec (.sari d a n) s = put (x.sshiftRight n.toNat)
      ∧ (∀ i : BitVec 20, exec (.movi d i) s
          = .next (s.wreg d { val := i.signExtend 64, poison := false, taint := [] } 1))
      ∧ ∀ (sh : BitVec 2) (i : BitVec 18), (sh = 3 → i.toNat < 1024) → ∃ r : Word,
          exec (.movk d sh i) s = .next (s.wreg d (joinAttr r [s.cx.sreg d]) 1)
          ∧ ∀ k < 64, r.getLsbD k =
              (if 18 * sh.toNat ≤ k ∧ k < 18 * sh.toNat + 18 then i.getLsbD (k - 18 * sh.toNat)
               else (s.cx.sreg d).val.getLsbD k))
  ∧ ∀ (s : State) (w : IWord), fld w 26 5 = 5 →
      (fld w 11 3 = 7 ∨ (4 ≤ (fld w 11 3).toNat ∧ fld w 6 5 ≠ 0)) →
      wordIllegal w = true
      ∧ (s.agenda = [] → s.host.off = false → s.stalled = false → s.mayIssue = true
        → s.inCode s.cx.pc = true → s.fetchWord s.cx.pc = w → chainBit w = false
        → step s = .next ((s.enterBundle [w]).trapIssue ⟨1, mkWord w.toNat⟩).finish)

/-- The arithmetic FPU words: the operation on the exact values of the sources, rounded once to nearest
even in the precision of the word, with the flags of both; `FFMA` adds the old destination (05 R87). An
FP32 source is bits 31:0 alone. -/
def Obligations.FloatResults : Prop :=
  ∀ (s : State) (p : BitVec 2) (d a b : SReg) (v : List Reg), Popped s (pops2 a b) v → p.toNat ≤ 1 →
    let f := if p = 0 then fp32 else fp64
    let x := f.decode ((s.src a v 0).val.toNat % 2 ^ (32 * (p.toNat + 1)))
    let y := f.decode ((s.src2 a b v).val.toNat % 2 ^ (32 * (p.toNat + 1)))
    let z := f.decode ((s.cx.sreg d).val.toNat % 2 ^ (32 * (p.toNat + 1)))
    let put := fun (n : Nat) (l : List Reg) (e : FVal × Flags) =>
      (.next (((s.popLq (pops2 a b)).wreg d (joinAttr (mkWord (f.round 0 e.1).1) l) n).wflags
        (e.2 ||| (f.round 0 e.1).2) n) : Out)
    let two := [s.src a v 0, s.src2 a b v]
    let n := if p = 0 then 4 else 6
    exec (.fadd p d a b) s = put n two (x.add y) ∧ exec (.fsub p d a b) s = put n two (x.add y.negate)
    ∧ exec (.fmul p d a b) s = put n two (x.mul y)
    ∧ exec (.ffma p d a b) s = put n (two ++ [s.cx.sreg d]) (x.fma y z)
    ∧ exec (.fmin p d a b) s = put 2 two (x.min y) ∧ exec (.fmax p d a b) s = put 2 two (x.max y)

/-- `FABS`, `FNEG` and `FCPYS` act on the sign bit alone, bit 31 or bit 63, set no flag and pass NaN
payloads; an FP32 result has bits 63:32 zero (05 R87).

The conversions: to an integer kind, saturating, an `.i32` result sign-extended and an `.n32` result
zero-extended; from an integer of a kind, the 32-bit kinds read from bits 31:0; and between the wide
precisions, narrowing under the mode and widening exactly (05 R88, 04 R65). -/
def Obligations.SignBitAndConversionResults : Prop :=
  (∀ (s : State) (p : BitVec 2) (d a b : SReg) (v : List Reg), p.toNat ≤ 1 →
      let top := if p = 0 then 31 else 63
      (Popped s (pops2 a 0) v →
        let x := (s.src a v 0).val
        let put := fun (r : Word) =>
          (.next ((s.popLq (pops2 a 0)).wreg d (joinAttr r [s.src a v 0]) 1) : Out)
        (∃ r : Word, exec (.fabs p d a) s = put r
          ∧ ∀ i < 64, r.getLsbD i = (decide (i < top) && x.getLsbD i))
        ∧ ∃ r : Word, exec (.fneg p d a) s = put r
          ∧ ∀ i < 64, r.getLsbD i
              = ((decide (i < top) && x.getLsbD i) || (decide (i = top) && !x.getLsbD top)))
      ∧ (Popped s (pops2 a b) v → ∃ r : Word,
          exec (.fcpys p d a b) s
            = .next ((s.popLq (pops2 a b)).wreg d (joinAttr r [s.src a v 0, s.src2 a b v]) 1)
          ∧ ∀ i < 64, r.getLsbD i = ((decide (i < top) && (s.src a v 0).val.getLsbD i)
              || (decide (i = top) && (s.src2 a b v).val.getLsbD top))))
  ∧ (∀ (s : State) (p : BitVec 2) (d a : SReg) (k : BitVec 2) (m : BitVec 3) (v : List Reg),
      Popped s (pops2 a 0) v → p.toNat ≤ 1 → m.toNat ≤ 4 →
      let x := (s.src a v 0).val
      let f := if p = 0 then fp32 else fp64
      let put := fun (r : Word) (g : Flags) =>
        (.next (((s.popLq (pops2 a 0)).wreg d (joinAttr r [s.src a v 0]) 4).wflags g 4) : Out)
      let range := fun (lo hi : Int) => (f.decode x.toNat).toInt lo hi m.toNat
      let from_ := fun (i : Int) => f.round m.toNat (FVal.ofInt i)
      (k = 0 → exec (.fcvti p d a k m) s
          = put ((BitVec.ofInt 32 (range (-2 ^ 31) (2 ^ 31 - 1)).1).signExtend 64)
              (range (-2 ^ 31) (2 ^ 31 - 1)).2
        ∧ exec (.fcvtf p d a k m) s
          = put (mkWord (from_ (x.setWidth 32).toInt).1) (from_ (x.setWidth 32).toInt).2)
      ∧ (k = 1 → exec (.fcvti p d a k m) s
          = put (BitVec.ofInt 64 (range (-2 ^ 63) (2 ^ 63 - 1)).1) (range (-2 ^ 63) (2 ^ 63 - 1)).2
        ∧ exec (.fcvtf p d a k m) s = put (mkWord (from_ x.toInt).1) (from_ x.toInt).2)
      ∧ (k = 2 → exec (.fcvti p d a k m) s
          = put ((BitVec.ofInt 32 (range 0 (2 ^ 32 - 1)).1).setWidth 64) (range 0 (2 ^ 32 - 1)).2
        ∧ exec (.fcvtf p d a k m) s
          = put (mkWord (from_ (x.setWidth 32).toNat).1) (from_ (x.setWidth 32).toNat).2)
      ∧ (k = 3 → exec (.fcvti p d a k m) s
          = put (BitVec.ofInt 64 (range 0 (2 ^ 64 - 1)).1) (range 0 (2 ^ 64 - 1)).2
        ∧ exec (.fcvtf p d a k m) s = put (mkWord (from_ x.toNat).1) (from_ x.toNat).2)
      ∧ (p = 0 → exec (.fcvtw p d a m) s
          = put (mkWord (fp32.round m.toNat (fp64.decode x.toNat)).1)
              (fp32.round m.toNat (fp64.decode x.toNat)).2)
      ∧ (p = 1 → exec (.fcvtw p d a m) s
          = put (mkWord (fp64.round 0 (fp32.decode x.toNat)).1)
              (fp64.round 0 (fp32.decode x.toNat)).2))

/-- The comparisons: the ten integer conditions, the six float conditions with NV for a signalling NaN
alone, the bit tests, and the truth table of `PLOG` (05 R89). -/
def Obligations.CompareResults : Prop :=
  ∀ (s : State) (d a b : SReg) (v : List Reg), Popped s (pops2 a b) v →
    let x := (s.src a v 0).val
    let y := (s.src2 a b v).val
    let k : PRegNum := d.extractLsb' 0 3
    let t := s.popLq (pops2 a b)
    let put := fun (r : Bool) =>
      (.next (t.wpred k (joinPred r [s.src a v 0, s.src2 a b v]) 1) : Out)
    (exec (.cmp d a b 0) s = put (decide (x = y)) ∧ exec (.cmp d a b 1) s = put (decide (x ≠ y))
      ∧ exec (.cmp d a b 2) s = put (decide (x.toInt < y.toInt))
      ∧ exec (.cmp d a b 3) s = put (decide (y.toInt ≤ x.toInt))
      ∧ exec (.cmp d a b 4) s = put (decide (x.toInt ≤ y.toInt))
      ∧ exec (.cmp d a b 5) s = put (decide (y.toInt < x.toInt))
      ∧ exec (.cmp d a b 6) s = put (decide (x.toNat < y.toNat))
      ∧ exec (.cmp d a b 7) s = put (decide (y.toNat ≤ x.toNat))
      ∧ exec (.cmp d a b 8) s = put (decide (x.toNat ≤ y.toNat))
      ∧ exec (.cmp d a b 9) s = put (decide (y.toNat < x.toNat)))
    ∧ (exec (.tst d a b 0) s = put (decide (x &&& y ≠ 0))
      ∧ exec (.tst d a b 1) s = put (decide (x &&& y = 0)))
    ∧ (∀ c : BitVec 4, c.toNat % 8 ≤ 5 →
        let f := if c.toNat < 8 then fp32 else fp64
        let o := (f.decode x.toNat).cmp (f.decode y.toNat)
        let r := match c.toNat % 8 with
          | 0 => decide (o = some .eq)
          | 1 => decide (o ≠ some .eq)
          | 2 => decide (o = some .lt)
          | 3 => decide (o = some .lt ∨ o = some .eq)
          | 4 => decide (o = none)
          | _ => decide (o ≠ none)
        exec (.fcmp d a b c) s
          = .next ((t.wpred k (joinPred r [s.src a v 0, s.src2 a b v]) 2).wflags
              (if (f.decode x.toNat).isSig || (f.decode y.toNat).isSig then Flag.nv else 0) 2))
    ∧ ∀ tt : BitVec 4,
        let p := s.cx.preg (a.extractLsb' 0 3)
        let q := s.cx.preg (b.extractLsb' 0 3)
        exec (.plog d a b tt) s
          = .next (s.wpred k
              { val := tt.getLsbD (2 * (if p.val then 1 else 0) + (if q.val then 1 else 0))
                poison := p.poison || q.poison, taint := (p.taint ++ q.taint).eraseDups } 1)

/-- `BFX`, `BFI` and `SEL`, bit by bit (05 R90). -/
def Obligations.FieldResults : Prop :=
  ∀ (s : State) (d a b : SReg) (v : List Reg),
    (Popped s (pops2 a b) v →
      let x := (s.src a v 0).val
      let y := (s.src2 a b v).val
      let pos := y.toNat % 64
      let len := y.toNat / 256 % 64 + 1
      let two := [s.src a v 0, s.src2 a b v]
      (∃ r : Word,
        exec (.bfx d a b) s = .next ((s.popLq (pops2 a b)).wreg d (joinAttr r two) 1)
        ∧ (∀ i < len, r.getLsbD i = (decide (pos + i ≤ 63) && x.getLsbD (pos + i)))
        ∧ ∀ i, len ≤ i → i < 64 → r.getLsbD i = (y.getLsbD 16 && r.getLsbD (len - 1)))
      ∧ ∃ r : Word,
        exec (.bfi d a b) s
          = .next ((s.popLq (pops2 a b)).wreg d (joinAttr r (two ++ [s.cx.sreg d])) 1)
        ∧ ∀ i < 64, r.getLsbD i
            = (if pos ≤ i ∧ i < pos + len then x.getLsbD (i - pos) else (s.cx.sreg d).val.getLsbD i))
    ∧ (Popped s (pops2 a 0) v →
      let k := s.cx.preg (b.extractLsb' 0 3)
      exec (.sel d a b) s
        = .next ((s.popLq (pops2 a 0)).wreg d
            { val := if k.val then (s.src a v 0).val else (s.cx.sreg d).val
              poison := (s.cx.sreg d).poison || (s.src a v 0).poison || k.poison
              taint := ((s.cx.sreg d).taint ++ (s.src a v 0).taint ++ k.taint).eraseDups } 1))

/-- The frame of the computing words: each changes nothing but its own destination, the flags it raises
and the entries of `lq` it pops; its result is in flight from its issue cycle (05 R81). -/
def Obligations.ComputingWordsFrame : Prop :=
  ∀ (s : State) (i : Instr) (w : WordSpec) (v : List Reg), computes i = true → wordOf i = some w →
    Popped s w.pops v →
    ∃ t l, exec i s = .next t ∧ ComputesOnly s t ∧ t.cx.lq = s.cx.lq.drop w.pops
      ∧ t.cx.pend = s.cx.pend ++ l
      ∧ ∀ p ∈ l, p.issued = s.cx.icyc ∧ (p.w.key = none ∨ ∃ k ∈ dests i, p.w.key = some k)

/-! ### Control -/

/-- `NOP` does nothing; `CHECK` of a clean register does nothing; `MARK` leaves only its trace record
(05 R91; 13 R228).

`END` closes the open batch without an id and ends the task once its waits are over, in its own cycle where they
already are; on the control core it is ILLOP (05 R94). `YIELD` yields when a request is pending and no handler runs, and else does
nothing (14 R240, R241). -/
def Obligations.NoEffectEndAndYield : Prop :=
  (∀ (s : State) (a k : SReg) (n : BitVec 14),
      exec .nop s = .next s
      ∧ ((s.cx.sreg a).poison = false →
          exec (.check a) s = .next s
          ∧ exec (.mark a n) s = .next (s.record 1 0 n.toNat s.badr (s.cx.sreg a).val))
      ∧ ((s.cx.preg (k.extractLsb' 0 3)).poison = false → exec (.checkPred k) s = .next s))
  ∧ (∀ s : State,
      (s.core.control = false →
        let e := { s with ctl := .jump (s.badr + 4 * mkWord s.bundle.length)
                          cx := { s.cx with ending := true, openTok := s.cx.openTok + 1 } }
        let t := { e with cx := e.cx.settleBatches }
        (t.endMet = false → exec .endTask s = .next e)
        ∧ (t.endMet = true → ∃ u, exec .endTask s = .next u ∧ u.mem = s.mem ∧ u.empties = s.empties
          ∧ (∀ m ∈ s.sched.nodes, m.gen = s.cx.task.node → m.st ≠ 4 → m.st ≠ 5 →
            { m with ended := m.ended + 1, failed := m.failed.or (if t.cx.unobserved then some 3 else none) }
              ∈ u.sched.nodes)
          ∧ (s.shSt ≠ .ready → u.cxSt = .empty ∧ u.cx = Ctx.fresh)
          ∧ (s.shSt = .ready → u.cxSt = .running ∧ u.cx.uid = s.sh.uid ∧ u.shSt = .empty ∧ u.sh = Ctx.fresh)))
      ∧ (s.core.control = true → exec .endTask s = .next (s.trapIssue ⟨1, s.tvalWord⟩))
      ∧ ((s.core.yieldReq = none ∨ s.cx.tcause.getLsbD 10 = true) → exec .yield s = .next s)
      ∧ (s.core.yieldReq ≠ none → s.cx.tcause.getLsbD 10 = false → s.shSt = .ready → ∃ t,
          exec .yield s = .next t ∧ t.core.yieldReq = none ∧ t.bank = !s.bank ∧ t.shSt = .ready
          ∧ t.cxSt = .running ∧ t.cx.uid = s.sh.uid ∧ t.sh.uid = s.cx.uid ∧ t.sh.captured = true
          ∧ t.sh.pc = s.badr + 4 * mkWord s.bundle.length))

/-- The transfers: a taken `BR` goes to the bundle address + 4 × off, `JMP` to sA, `RET` to s61; `CALL`
and `JMPL` also send the next address to s61. `BR` is taken when the predicate XOR n is true, and else the
bundle has no transfer (05 R91). The target stands for the next address until the bundle is complete.

A target that is misaligned or outside the code raises ADDR of completion kind at the bundle that
carries the branch: nothing is transferred, s61 is not written, `tval` is the target and the resume
address the bundle's next address (05 R91); its trace record names the cause under which it is taken (20 R306). -/
def Obligations.TransfersAndBadTargets : Prop :=
  (∀ (s : State) (a : SReg) (k : PRegNum) (n : BitVec 1) (off : BitVec 22),
      let go := fun (t : Word) => { s.record 6 0 0 s.badr t with ctl := .jump t }
      let link := s.push (.sreg 61 { val := s.badr + 4 * mkWord s.bundle.length }) 1
      let goLinked := fun (t : Word) => { link.record 6 0 0 s.badr t with ctl := .jump t }
      let ok := fun (t : Word) => t.toNat % 4 = 0 ∧ s.inCode t = true
      let near := s.badr + 4 * off.signExtend 64
      ((s.cx.preg k).poison = false →
        ((s.cx.preg k).val = (n == 1) → exec (.br k n off) s = .next s)
        ∧ ((s.cx.preg k).val ≠ (n == 1) → ok near → exec (.br k n off) s = .next (go near)))
      ∧ ((s.cx.sreg a).poison = false → ok (s.cx.sreg a).val →
          exec (.jmp a) s = .next (go (s.cx.sreg a).val)
          ∧ exec (.jmpl a) s = .next (goLinked (s.cx.sreg a).val))
      ∧ ((s.cx.sreg 61).poison = false → ok (s.cx.sreg 61).val →
          exec .ret s = .next (go (s.cx.sreg 61).val))
      ∧ ∀ off : BitVec 26, ok (s.badr + 4 * off.signExtend 64) →
          exec (.call off) s = .next (goLinked (s.badr + 4 * off.signExtend 64)))
  ∧ (∀ (s : State) (a : SReg) (k : PRegNum) (n : BitVec 1) (off : BitVec 22),
      let next := s.badr + 4 * mkWord s.bundle.length
      let bad := fun (t : Word) => (.next (((s.record 2 (s.takenCause 6) 0 s.badr 0).advance next).trap 6 t true next) : Out)
      let no := fun (t : Word) => t.toNat % 4 ≠ 0 ∨ s.inCode t = false
      let near := s.badr + 4 * off.signExtend 64
      ((s.cx.preg k).poison = false → (s.cx.preg k).val ≠ (n == 1) → no near →
        exec (.br k n off) s = bad near)
      ∧ ((s.cx.sreg a).poison = false → no (s.cx.sreg a).val →
          exec (.jmp a) s = bad (s.cx.sreg a).val ∧ exec (.jmpl a) s = bad (s.cx.sreg a).val)
      ∧ ((s.cx.sreg 61).poison = false → no (s.cx.sreg 61).val → exec .ret s = bad (s.cx.sreg 61).val)
      ∧ ∀ off : BitVec 26, no (s.badr + 4 * off.signExtend 64) →
          exec (.call off) s = bad (s.badr + 4 * off.signExtend 64))

/-- `LOOP` sets the body's bounds and the count and goes to the body, or past it when the count is zero
(05 R93).

The loop test at a completed bundle without transfer whose last word lies at lend − 4: a count above
1 falls by one and the body starts again, a count of 1 becomes 0 and execution falls through, and any
other bundle goes on in sequence (05 R93). -/
def Obligations.Loops : Prop :=
  (∀ (s : State) (a : SReg) (n : BitVec 14), (s.cx.sreg a).poison = false → ∃ t,
      exec (.loop a n) s = .next t
      ∧ t.cx.lbeg = s.badr + 4 * mkWord s.bundle.length
      ∧ t.cx.lend = t.cx.lbeg + 4 * mkWord n.toNat
      ∧ t.cx.lcnt = (s.cx.sreg a).val
      ∧ t.ctl = .jump (if (s.cx.sreg a).val = 0 then t.cx.lend else t.cx.lbeg)
      ∧ t = { s with ctl := t.ctl, cx := { s.cx with lbeg := t.cx.lbeg, lend := t.cx.lend
                                                     lcnt := t.cx.lcnt, pend := t.cx.pend } })
  ∧ (∀ (s : State), (∀ p ∈ s.cx.pend, ∀ n v b, p.w ≠ .special n v b) →
      let next := s.badr + 4 * mkWord s.bundle.length
      (next ≠ s.cx.lend ∨ s.cx.lcnt = 0 → s.loopNext = (s, next))
      ∧ (next = s.cx.lend → s.cx.lcnt = 1 →
          s.loopNext = ({ s with cx := { s.cx with lcnt := 0 } }, next))
      ∧ (next = s.cx.lend → 1 < s.cx.lcnt.toNat →
          s.loopNext = ({ s with cx := { s.cx with lcnt := s.cx.lcnt - 1 } }, s.cx.lbeg)))

/-! ### Traps -/

/-- TAKING AN EXCEPTION (13 R217): a handler-bound cause with a handler set and none active drains the
results in flight, writes `tcause` (cause, kind, ha set, pv the privilege of the trapping context),
`tbadr` and `tval`, saves the resume address and the loop state, clears `lcnt`, and goes to `thand` in the
same context at the same privilege. Nothing else of the context changes, and memory is as it was; the
delivery takes 24 cycles. -/
def Obligations.TrapEntry : Prop :=
  ∀ (s : State) (cause : Nat) (tval : Word) (completion : Bool) (resume : Word),
    let d := s.drain
    let t := s.trap cause tval completion resume
    d.cx.thand ≠ 0 → d.cx.tcause.getLsbD 10 = false →
    t.cx = { d.cx with
        tcause := mkWord (cause % 256 + (if completion then 256 else 0) + 1024
          + (if d.cx.priv then 2048 else 0))
        tbadr := d.badr, tval := tval, resumeAddr := resume, savedLbeg := d.cx.lbeg
        savedLend := d.cx.lend, savedLcnt := d.cx.lcnt, lcnt := 0, pc := d.cx.thand }
    ∧ t.ctl = .trapped ∧ t.cyc = (d.cyc + 24) % 2 ^ 64
    ∧ t.mem = d.mem ∧ t.empties = d.empties ∧ t.marks = d.marks ∧ t.sh = d.sh ∧ t.sched = d.sched

/-- A cause that finds no handler, or a handler active, becomes DTRAP: the context is captured and its
task ended with error, recorded against its node with reason 2 (13 R217, 14 R233).

A cause for the firmware holds the context: it is captured with its fault record, and its bank is
held, or given to the other context if that is ready (13 R222, R224). -/
def Obligations.DtrapAndFreeze : Prop :=
  (∀ (s : State) (cause : Nat) (tval : Word) (completion : Bool) (resume : Word),
      (s.drain.cx.thand = 0 ∨ s.drain.cx.tcause.getLsbD 10 = true) →
      let t := s.trap cause tval completion resume
      t = s.drain.dtrap cause tval
      ∧ (s.shSt ≠ .ready → t.cxSt = .empty ∧ t.cx = Ctx.fresh)
      ∧ ∀ n ∈ s.sched.nodes, n.gen = s.cx.task.node → n.st ≠ 4 → n.st ≠ 5 → n.failed = none →
          { n with ended := n.ended + 1, failed := some 2 } ∈ t.sched.nodes)
  ∧ (∀ (s : State) (r : FaultRec),
      let t := s.freeze r
      (s.shSt ≠ .ready → t.cxSt = .held ∧ t.cx.fault = some r ∧ t.cx.captured = true ∧ t.ctl = .gone)
      ∧ (s.shSt = .ready → t.shSt = .held ∧ t.sh.fault = some r ∧ t.sh.captured = true
          ∧ t.cxSt = .running ∧ t.bank = !s.bank))

/-- RETURNING FROM AN EXCEPTION (13 R229): `ERET` outside a handler is ILLOP; an issue-kind report goes
back to `tbadr`, a completion-kind one to the resume address, with the loop state restored; `ERET.to` goes
to sA, discards the resume state and clears the loop state; ha is cleared, and all else is as it was. An sA
that is misaligned or outside the code raises ADDR as a branch's does, with the handler still active,
and a poisoned sA raises POISON; `ERET` itself checks no target. -/
def Obligations.ExceptionReturn : Prop :=
  ∀ (s : State) (a : SReg),
    (s.cx.tcause.getLsbD 10 = false → exec .eret s = .next (s.trapIssue ⟨1, s.tvalWord⟩)
      ∧ exec (.eretTo a) s = .next (s.trapIssue ⟨1, s.tvalWord⟩))
    ∧ (s.cx.tcause.getLsbD 10 = true →
      let ok := fun (t : Word) => t.toNat % 4 = 0 ∧ s.inCode t = true
      let next := s.badr + 4 * mkWord s.bundle.length
      let bad := fun (t : Word) => (.next (((s.record 2 (s.takenCause 6) 0 s.badr 0).advance next).trap 6 t true next) : Out)
      let back := if s.cx.tcause.getLsbD 8 then s.cx.resumeAddr else s.specialNow 0x009
      let dest := (s.cx.sreg a).val
      exec .eret s = .next
        { s with ctl := .jump back
                 cx := { s.cx with lbeg := s.cx.savedLbeg, lend := s.cx.savedLend
                                   lcnt := s.cx.savedLcnt, tcause := s.cx.tcause &&& ~~~0x400 } }
      ∧ ((s.cx.sreg a).poison = true →
          exec (.eretTo a) s = .next (s.trapIssue ⟨5, mkWord (a.toNat + s.widx * 2 ^ 8)⟩))
      ∧ ((s.cx.sreg a).poison = false →
        (ok dest → exec (.eretTo a) s = .next
          { s with ctl := .jump dest
                   cx := { s.cx with
                     lbeg := 0, lend := 0, lcnt := 0, resumeAddr := 0, savedLbeg := 0, savedLend := 0
                     savedLcnt := 0, tcause := s.cx.tcause &&& ~~~0x400 } })
        ∧ (¬ ok dest → exec (.eretTo a) s = bad dest)))

/-- `TRAP n` and `BRK n` complete their bundle with its loop test and raise TRAP and BRK of completion kind with `tval`
n and the address the bundle chose as resume address; a `BRK` on a core whose stop an entry of the context's address
space holds stops the context, unless a handler is active (13 R228, 20 R302, R304). `SVC n` captures the context and
reports cause 17 with its code to the firmware (13 R222). -/
def Obligations.TrapBrkSvc : Prop :=
  ∀ (s : State) (n : BitVec 14),
    exec (.trap n) s = .next (s.trapDone 10 (n.zeroExtend 64))
    ∧ ((∀ h c, s.dbg.stopHolder = some h → (h, c) ∈ s.dbg.caps → c.asid ≠ s.cx.asid.toNat)
        ∨ s.cx.tcause.getLsbD 10 = true →
        exec (.brk n) s = .next (s.trapDone 11 (n.zeroExtend 64)))
    ∧ (∀ h c, s.dbg.stopHolder = some h → (h, c) ∈ s.dbg.caps → c.asid = s.cx.asid.toNat
        → s.cx.tcause.getLsbD 10 = false → ∃ t, exec (.brk n) s = .next t ∧ t.cxSt = .held
        ∧ t.cx.captured = true ∧ t.cx.stop = some h)
    ∧ exec (.svc n) s = .next ((s.loopNext.1.advance s.loopNext.2).freeze
        { cause := 17, words := s.bundle.length, code := n.toNat, badr := s.badr })
    ∧ ∀ c tval, s.trapDone c tval
        = ((s.record 2 (s.takenCause c) (if c = 10 ∨ c = 11 then tval.toNat else 0) s.badr 0).loopNext.1.advance
            s.loopNext.2).trap c tval true s.loopNext.2

/-! ### Special registers, banks, TLBs -/

/-- `MFS` sends the register's value, never poisoned or tainted, and `MTS` sends sA to it, both with bound
2 (05 R78, R79; 13 R223, R228): completion at every register number with the privilege it takes.

What it reads with no result of the context in flight: the package's cycle and time, the tile's
coordinates, the core's index and the package's rank, `kstat` by its bits, the trap registers, the refresh window of
`wsrf` by its fields, the cycle classes, and the rest as they stand; a result visible to it is read as written (03 R31;
05 R78, R80; 10 R196).

What a write leaves in the special registers: flags are cleared by ones, acchk is bit 10, priv and bank
cannot be written, `ftime` starts a nanosecond anew (02 R19), `thand`, `lbeg` and `lend` keep bits 56:2, `lotflags` is
cleared by ones, the occupied bit of `emerg` by a one, and unprivileged code changes no register that takes privilege
(05 R79; 13 R218, R220; 16 R265). -/
def Obligations.SpecialRegisters : Prop :=
  (∀ (s : State) (a : SReg) (n : BitVec 14),
      ((n.toNat < 0x100 ∨ s.cx.priv = true) →
        exec (.mfs a n) s = .next (s.wreg a { val := s.specialNow n.toNat, poison := false, taint := [] } 2))
      ∧ ((s.cx.sreg a).poison = false → s.cx.priv = true →
          (n = 1 → s.coll.table = [] ∧ s.fab.tsends = []) →
          exec (.mts a n) s = .next (s.push (.special n.toNat (s.cx.sreg a).val true) 2))
      ∧ ((s.cx.sreg a).poison = false → s.cx.priv = false →
          n.toNat ∈ [0x007, 0x00B, 0x00C, 0x018, 0x020, 0x021, 0x022] →
          exec (.mts a n) s = .next (s.push (.special n.toNat (s.cx.sreg a).val false) 2)))
  ∧ (∀ s : State, s.cx.pend = [] →
      let read := s.specialNow
      read 0x000 = mkWord s.cyc ∧ read 0x001 = mkWord s.ftime
      ∧ read 0x002 = s.cx.tcx ∧ read 0x003 = s.cx.tcy ∧ read 0x004 = s.cx.tcz
      ∧ read 0x005 = mkWord s.coreid ∧ read 0x006 = mkWord s.rank
      ∧ (∀ i, (read 0x007).getLsbD i
          = if i < 6 then s.cx.flags.getLsbD i
            else if i = 8 then s.cx.priv
            else if i = 9 then s.bank
            else if i = 10 then s.cx.acchk
            else if i = 11 then decide (s.cx.lcnt ≠ 0) else false)
      ∧ read 0x008 = s.cx.tcause ∧ read 0x009 = s.cx.tbadr ∧ read 0x00A = s.cx.tval
      ∧ read 0x00B = s.cx.thand ∧ read 0x00C = s.cx.lqwait
      ∧ (let phase := s.cyc % 8192
         let inwin := phase % 512 < 64
         bitsOf (read 0x00D) 0 13 = phase
         ∧ bitsOf (read 0x00D) 13 4 = (if inwin then phase / 512 else (phase / 512 + 1) % 16)
         ∧ bitsOf (read 0x00D) 17 1 = (if inwin then 1 else 0)
         ∧ bitsOf (read 0x00D) 18 10 = 512 - phase % 512 ∧ bitsOf (read 0x00D) 28 36 = 0)
      ∧ (∀ i : Fin 5, read (0x010 + i.val) = s.core.mc[i])
      ∧ read 0x018 = s.cx.lotflags.zeroExtend 64
      ∧ read 0x020 = s.cx.lbeg ∧ read 0x021 = s.cx.lend ∧ read 0x022 = s.cx.lcnt
      ∧ read 0x100 = s.cx.ptbase ∧ read 0x101 = s.cx.asid ∧ read 0x102 = s.cx.ctxsave
      ∧ read 0x103 = s.core.emerg)
  ∧ (∀ (s : State) (n : Nat) (v : Word) (p : Bool), s.cx.visible (1000 + n) = some (.special n v p) →
      s.specialNow n = (s.setSpecial n v p).special n)
  ∧ (∀ (s : State) (v : Word) (p : Bool),
      s.setSpecial 0x001 v true = { s with ftime := v.toNat, ftPhase := 0 }
      ∧ (s.setSpecial 0x002 v true).cx = { s.cx with tcx := v &&& 0xFFFF }
      ∧ (s.setSpecial 0x003 v true).cx = { s.cx with tcy := v &&& 0xFFFF }
      ∧ (s.setSpecial 0x004 v true).cx = { s.cx with tcz := v &&& 0xFFFF }
      ∧ (s.setSpecial 0x008 v true).cx = { s.cx with tcause := v &&& 0xDFF }
      ∧ (s.setSpecial 0x009 v true).cx = { s.cx with tbadr := v }
      ∧ (s.setSpecial 0x00A v true).cx = { s.cx with tval := v }
      ∧ (s.setSpecial 0x00C v p).cx = { s.cx with lqwait := v }
      ∧ (∀ i : Fin 5, (s.setSpecial (0x010 + i.val) v true).core = { s.core with mc := s.core.mc.set i v })
      ∧ (s.setSpecial 0x018 v p).cx = { s.cx with lotflags := s.cx.lotflags &&& ~~~(v.extractLsb' 0 16) }
      ∧ (s.setSpecial 0x103 v true).core = { s.core with
          emerg := (v &&& 0x000001FFFFFFF000) ||| (if v.getLsbD 0 then 0 else s.core.emerg &&& 1) })
  ∧ (∀ (s : State) (v : Word) (p : Bool),
      (s.setSpecial 0x007 v p).cx
        = { s.cx with flags := s.cx.flags &&& ~~~(v.extractLsb' 0 6), acchk := v.getLsbD 10 }
      ∧ (s.setSpecial 0x00B v p).cx = { s.cx with thand := v &&& 0x01FFFFFFFFFFFFFC }
      ∧ (s.setSpecial 0x020 v p).cx = { s.cx with lbeg := v &&& 0x01FFFFFFFFFFFFFC }
      ∧ (s.setSpecial 0x021 v p).cx = { s.cx with lend := v &&& 0x01FFFFFFFFFFFFFC }
      ∧ (s.setSpecial 0x022 v p).cx = { s.cx with lcnt := v }
      ∧ (s.setSpecial 0x101 v true).cx = { s.cx with asid := v &&& 0xFFF }
      ∧ (s.setSpecial 0x100 v true).cx = { s.cx with ptbase := v &&& 0x000001FFFFFFF000 }
      ∧ (s.setSpecial 0x102 v true).cx = { s.cx with ctxsave := v &&& 0x01FFFFFFFFFFF000 }
      ∧ ∀ n, n ∉ [0x007, 0x00B, 0x00C, 0x018, 0x020, 0x021, 0x022] → s.setSpecial n v false = s)

/-- `SWAPC` waits while the shadow bank is filling, does nothing when it is neither ready nor filling, and
switches to it when it is ready (13 R228); that a spilling bank counts as not ready is the model's choice (log entry
110).

`TLBINV` drops the matching entries of every micro-TLB and shared TLB, empties the walk caches, and
holds the context until the accesses it affects have performed and the copy segments in hand are written (13 R230);
it waits for every access to global memory, whatever its page, by the model's choice (log entry 46). -/
def Obligations.BankSwitchAndTlbDrop : Prop :=
  (∀ s : State, s.cx.priv = true →
      (s.shSt = .filling → exec .swapc s = .next { s with ctl := .stalled false })
      ∧ (s.shSt ≠ .filling → s.shSt ≠ .ready → exec .swapc s = .next s)
      ∧ (s.shSt = .ready → ∃ t, exec .swapc s = .next t ∧ t.bank = !s.bank ∧ t.cxSt = .running
          ∧ t.shSt = .ready ∧ t.cx.uid = s.sh.uid ∧ t.sh.uid = s.cx.uid ∧ t.sh.captured = true))
  ∧ (∀ (s : State) (a : SReg), s.cx.priv = true →
      let drop := fun (keep : TlbEnt → Bool) =>
        (.next { s with
          xl := { micro := s.xl.micro.filter keep, shared := s.xl.shared.filter keep, walks := [] }
          cx := { s.cx with tlbWait := some s.globalIds, tlbSegs := s.openSegs } } : Out)
      let v := (s.cx.sreg a).val
      exec .tlbinvAll s = drop (fun _ => false)
      ∧ exec .tlbinvLocal s = drop (fun e => e.g)
      ∧ ((s.cx.sreg a).poison = false →
          exec (.tlbinvAsid a) s = drop (fun e => e.g || e.asid != v.toNat % 2 ^ 12)
          ∧ exec (.tlbinvPage a) s = drop (fun e =>
              !((e.g || e.asid == v.toNat % 2 ^ 12)
                && v.toNat % 2 ^ 57 / 2 ^ e.bits * 2 ^ e.bits == e.va))))

/-! ### The A pipe -/

/-- The loads enter the load queue and reserve an entry of `lq` (06 R103, R112 to R114): `LD`, `LDS` and
`LDC` of any readable place, `LDF` and `LDFE` of a scratchpad word. A failing `LDS` returns poison in
its entry and accesses nothing (06 R113).

The stores and the tag operations enter their queue (06 R103, R115, R116): a store carries the low
bytes of its value, lowest first; `TAGQ` reserves an entry of `lq`. That `SETE`, `SETF` and `TAGQ` complete at any
alignment is the model's choice (log entry 31). -/
def Obligations.LoadsAndStoresEnterTheQueue : Prop :=
  (∀ (s : State) (base : SReg) (cls : BitVec 4) (sz : BitVec 2) (off : BitVec 8) (v : List Reg) (loc : Nat),
      Popped s (pops2 0 base) v → s.fenced = false → s.cx.lq.length - pops2 0 base < 32 →
      let b := s.src base v 0
      let a := b.val + BitVec.ofInt 64 (off.toInt * 2 ^ sz.toNat)
      let put := fun (e : Acc) => (.next (Entered s (pops2 0 base) e) : Out)
      let e := fun (m : TagMode) => entryOf s (.read m) cls a loc sz b.taint
      (b.poison = false →
        (Goes s a (2 ^ sz.toNat) .read cls loc →
          exec (.ld base cls sz off) s = put (e .keep) ∧ exec (.lds base cls sz off) s = put (e .keep)
          ∧ exec (.ldc base cls sz off) s = put { e .keep with ldc := true })
        ∧ (Goes s a (2 ^ sz.toNat) .tagRead cls loc → exec (.ldf base cls sz off) s = put (e .wait))
        ∧ (Goes s a (2 ^ sz.toNat) .tagWrite cls loc → exec (.ldfe base cls sz off) s = put (e .take)))
      ∧ ((b.poison = true ∨ ∃ c x, s.checkAccess a (2 ^ sz.toNat) .read = .bad c x) →
        exec (.lds base cls sz off) s = .next
          { s with
            nextId := s.nextId + 1, fv := s.fv + 1
            cx := { s.cx with
              fences := [], drains := []
              lq := s.cx.lq.drop (pops2 0 base)
                ++ [⟨s.nextId, some { val := Config.freeWord s.fv, poison := true }⟩] } }))
  ∧ (∀ (s : State) (x base : SReg) (cls : BitVec 4) (sz : BitVec 2) (o8 : BitVec 8) (o5 : BitVec 5)
      (v : List Reg) (loc : Nat),
      s.fenced = false → writesQueued s < 16 →
      (Popped s (pops2 x base) v → (s.src x v 0).poison = false → (s.src2 x base v).poison = false →
        let b := s.src2 x base v
        let data := bytesOfNat (2 ^ sz.toNat) (s.src x v 0).val.toNat
        let at8 := b.val + BitVec.ofInt 64 (o8.toInt * 2 ^ sz.toNat)
        let at5 := b.val + BitVec.ofInt 64 (o5.toInt * 2 ^ sz.toNat)
        let put := fun (m : TagMode) (a : Word) =>
          (.next (Entered s (pops2 x base) (entryOf s (.write m data) cls a loc sz b.taint)) : Out)
        (Goes s at8 (2 ^ sz.toNat) .store cls loc → exec (.st x base cls sz o8) s = put .keep at8)
        ∧ (Goes s at5 (2 ^ sz.toNat) .tagWrite cls loc →
          exec (.stf x base cls sz o5) s = put .fill at5 ∧ exec (.ste x base cls sz o5) s = put .wait at5))
      ∧ (Popped s (pops2 0 base) v → (s.src base v 0).poison = false →
        s.cx.lq.length - pops2 0 base < 32 →
        let b := s.src base v 0
        let a := b.val + BitVec.ofInt 64 (o5.toInt * 2 ^ sz.toNat)
        let put := fun (k : AccKind) =>
          (.next (Entered s (pops2 0 base) (entryOf s k cls a loc sz b.taint)) : Out)
        (Goes s a 1 .tagWrite cls loc →
          exec (.sete base cls sz o5) s = put (.setTag false)
          ∧ exec (.setf base cls sz o5) s = put (.setTag true))
        ∧ (Goes s a 1 .tagRead cls loc → exec (.tagq base cls sz o5) s = put .tagq)))

/-- The atomics enter the write queue with their operation and operands, and with an entry of `lq` when they fetch (06
R117 to R119). One that may merge and meets, as the last queued atomic or plain store to its line, an open entry of its
operation, size and class joins it: no entry is added, and its operand is combined with the one the entry holds for its
word, by addition or by the operation itself, or is held beside the others of the line (06 R118, R120). It joins where
it has nothing to wait for that the entry does not wait for, by the model's choice (06 R107; log entry 83). -/
def Obligations.AtomicsEnterTheQueue : Prop :=
  ∀ (s : State) (x base : SReg) (cls : BitVec 4) (sz : BitVec 2) (f : BitVec 1) (v : List Reg) (loc : Nat),
    Popped s (pops2 x base) v → s.fenced = false → writesQueued s < 16 →
    s.cx.lq.length - pops2 x base < 32 →
    (s.src x v 0).poison = false → (s.src2 x base v).poison = false →
    Goes s (s.src2 x base v).val (2 ^ sz.toNat) .atomic cls loc →
    let put := fun (op : Nat) (y : Word) =>
      (.next (Entered s (pops2 x base) (entryOf s (.atom op (s.src x v 0).val y (f == 1)) cls
        (s.src2 x base v).val loc sz (s.src2 x base v).taint)) : Out)
    ((f = 1 ∨ ∀ b ∈ s.cx.accs, b.kind.mergeable = true → b.begun = true ∨ b.opened + 4 ≤ s.cyc
        ∨ b.win ≠ none ∨ b.cls ≠ cls.toNat ∨ b.loc / 64 ≠ loc / 64) →
      exec (.aadd x base cls sz f) s = put 0 0 ∧ exec (.amin x base cls sz f) s = put 1 0
      ∧ exec (.amax x base cls sz f) s = put 2 0 ∧ exec (.aminn x base cls sz f) s = put 3 0
      ∧ exec (.amaxn x base cls sz f) s = put 4 0 ∧ exec (.aand x base cls sz f) s = put 5 0
      ∧ exec (.aor x base cls sz f) s = put 6 0 ∧ exec (.axor x base cls sz f) s = put 7 0)
    ∧ exec (.aswp x base cls sz f) s = put 8 0 ∧ exec (.afadd x base cls sz f) s = put 9 0
    ∧ ((s.cx.sreg (x + 1)).poison = false →
      exec (.acas x base cls sz f) s = put 10 (s.cx.sreg (x + 1)).val)
    ∧ ∀ (op : Nat) (i : Instr) (b : Acc) (y : Word),
      (op, i) ∈ [(0, .aadd x base cls sz 0), (1, .amin x base cls sz 0), (2, .amax x base cls sz 0),
        (3, .aminn x base cls sz 0), (4, .amaxn x base cls sz 0), (5, .aand x base cls sz 0),
        (6, .aor x base cls sz 0), (7, .axor x base cls sz 0)] →
      (s.cx.accs.filter (fun c => c.kind.closes && c.win.isNone && c.rank == 0
        && c.loc / 64 == loc / 64)).getLast? = some b →
      b.kind = .atom op y 0 false → b.cls = cls.toNat → b.size = 2 ^ sz.toNat →
      b.begun = false → s.cyc < b.opened + 4 →
      (∀ d ∈ s.orderDeps cls.toNat loc (s.src2 x base v).taint, d < s.nextId →
        d = b.id ∨ d ∈ b.deps ∨ s.outstanding d = false) →
      let n := 8 * 2 ^ sz.toNat
      let int := fun (m : Nat) => if m < 2 ^ (n - 1) then (m : Int) else (m : Int) - 2 ^ n
      let both := fun (p q : Nat) =>
        match op with
        | 0 => (p + q) % 2 ^ n
        | 1 => if int q < int p then q else p
        | 2 => if int p < int q then q else p
        | 3 => min p q
        | 4 => max p q
        | 5 => p &&& q
        | 6 => p ||| q
        | _ => p ^^^ q
      let own := (s.src x v 0).val
      let joined := fun (b1 : Acc) => (.next
        { s with
          nextId := s.nextId + 1
          cx := { s.cx with
            fences := [], drains := [], lq := s.cx.lq.drop (pops2 x base)
            accs := s.cx.accs.map (fun c => if c.id = b.id then { b1 with joined := b.joined ++ [s.nextId] } else c)
          } } : Out)
      let with_ := fun (z : Word) => mkWord (both (z.toNat % 2 ^ n) (own.toNat % 2 ^ n))
      (b.loc = loc → exec i s = joined { b with kind := .atom op (with_ y) 0 false })
      ∧ (b.loc ≠ loc → (∀ m ∈ b.merged, m.1 ≠ loc) →
          exec i s = joined { b with merged := b.merged ++ [(loc, own)] })
      ∧ ∀ (l1 l2 : List (Nat × Word)) (z : Word), b.loc ≠ loc → (∀ m ∈ l1, m.1 ≠ loc) →
          b.merged = l1 ++ (loc, z) :: l2 →
          exec i s = joined { b with merged := l1 ++ (loc, with_ z) :: l2 }

/-- The checks of an access address: misaligned, reserved bits, a near address the layout forbids, or a tag operation
on global memory raise ADDR; a scratchpad location that is not granted, or the weight store for anything but a load,
raises PERM (06 R106, R111, R117; 02 R13 to R16). Region 0x3 names the quad or core scratchpad of any die, and its bits
42:41 are ignored for a quad (02 R15). A window names the peer's scratchpad by a rank that is present and not failed,
and a group takes stores alone (16 R253, R255). The control core's regions 0x1 and 0x2 are ADDR by the model's choice
(log entry 71), and so are offset bits 22:21 of a window address of a core scratchpad (log entry 70). A poisoned value,
second value or base raises POISON first, in that order by the model's choice (log entry 15). -/
def Obligations.AccessCauses : Prop :=
  (∀ (s : State) (a : Word) (n : Nat) (k : AccessSort),
    (a.toNat % n ≠ 0 → s.checkAccess a n k = .bad 6 a)
    ∧ (a.toNat % n = 0 →
      (2 ^ 57 ≤ a.toNat → s.checkAccess a n k = .bad 6 a)
      ∧ (a.toNat < 2 ^ 56 → s.checkAccess a n k
          = if k = .tagRead ∨ k = .tagWrite then .bad 6 a else .ok .global)
      ∧ (2 ^ 56 ≤ a.toNat → a.toNat < 2 ^ 56 + 2 ^ 21 →
          let loc := coreLoc s.pkgid s.coreUnit (a.toNat - 2 ^ 56)
          s.checkAccess a n k = if s.granted loc then .ok (.near loc) else .bad 7 a)
      ∧ (2 ^ 56 + 2 ^ 21 ≤ a.toNat → a.toNat < 2 ^ 56 + 2 ^ 52 → s.checkAccess a n k = .bad 6 a)
      ∧ (s.core.control = false → 2 ^ 56 + 2 ^ 52 ≤ a.toNat → a.toNat < 2 ^ 56 + 2 ^ 52 + 2 ^ 23 →
          let loc := quadLoc s.pkgid (s.coreid / 4) (a.toNat - 2 ^ 56 - 2 ^ 52)
          s.checkAccess a n k = if s.granted loc then .ok (.near loc) else .bad 7 a)
      ∧ (s.core.control = false → 2 ^ 56 + 2 ^ 53 ≤ a.toNat → a.toNat < 2 ^ 56 + 2 ^ 53 + 2 ^ 28 →
          s.checkAccess a n k = if k = .read
            then .ok (.weights (wsLoc s.pkgid (s.coreid / 24) (a.toNat - 2 ^ 56 - 2 ^ 53)))
            else .bad 7 a)
      ∧ (s.core.control = true → 2 ^ 56 + 2 ^ 52 ≤ a.toNat → a.toNat < 2 ^ 56 + 3 * 2 ^ 52 →
          s.checkAccess a n k = .bad 6 a)
      ∧ (2 ^ 56 + 2 ^ 52 + 2 ^ 23 ≤ a.toNat → a.toNat < 2 ^ 56 + 2 * 2 ^ 52 → s.checkAccess a n k = .bad 6 a)
      ∧ (2 ^ 56 + 2 * 2 ^ 52 + 2 ^ 28 ≤ a.toNat → a.toNat < 2 ^ 56 + 3 * 2 ^ 52 →
          s.checkAccess a n k = .bad 6 a)
      ∧ (2 ^ 56 + 4 * 2 ^ 52 ≤ a.toNat → a.toNat < 2 ^ 56 + 8 * 2 ^ 52 → s.checkAccess a n k = .bad 6 a)
      ∧ (∀ w rank peer core off, w < 8 → rank < 2 ^ 14 → peer < 2 ^ 4 → core < 2 ^ 11 → off < 2 ^ 23 →
          a.toNat = 2 ^ 56 + (8 + w) * 2 ^ 52 + rank * 2 ^ 38 + peer * 2 ^ 34 + core * 2 ^ 23 + off →
          let e := s.rankEntry rank
          s.checkAccess a n k
            = if 1 < peer ∨ 1535 < core ∨ (peer = 0 ∧ 2 ^ 21 ≤ off) then .bad 6 a
              else if rankKind e = 0 ∨ rankKind e = 3 ∨ e.getLsbD 21 = true then .bad 6 a
              else if rankKind e = 2 ∧ k ≠ .store then .bad 6 a
              else .ok (.window w rank (if peer = 0 then coreLoc 0 core off else quadLoc 0 (core / 4) off)))
      ∧ (∀ die quad off, die < 64 → quad < 8 → 2 ^ 23 ≤ off → off < 2 ^ 40 → ∀ kind core, kind < 2 → core < 4 →
          a.toNat = 2 ^ 56 + 3 * 2 ^ 52 + die * 2 ^ 46 + quad * 2 ^ 43 + core * 2 ^ 41 + kind * 2 ^ 40 + off →
          s.checkAccess a n k = .bad 6 a)
      ∧ (∀ die quad core off, die < 64 → quad < 8 → core < 4 → off < 2 ^ 23 →
          let at_ := 2 ^ 56 + 3 * 2 ^ 52 + die * 2 ^ 46 + quad * 2 ^ 43 + core * 2 ^ 41 + off
          let inQuad := quadLoc s.pkgid (die * 6 + quad) off
          let inCore := coreLoc s.pkgid (die * 24 + quad * 4 + core) off
          (a.toNat = at_ + 2 ^ 40 → s.checkAccess a n k
            = if 5 < quad then .bad 6 a
              else if s.granted inQuad then .ok (.near inQuad) else .bad 7 a)
          ∧ (a.toNat = at_ → s.checkAccess a n k
            = if 5 < quad ∨ 2 ^ 21 ≤ off then .bad 6 a
              else if s.granted inCore then .ok (.near inCore) else .bad 7 a))))
  ∧ ∀ (i : Instr) (o : AccOp) (s : State) (v : List Reg), wordOf i = some (accWord o) → Popped s o.pops v →
      o.stall s v o.pops = false → o.lds = false →
      let trap := fun (c : Nat) (x : Word) => (.next (s.trapIssue ⟨c, x⟩) : Out)
      let poison := fun (r : SReg) => trap 5 (mkWord (r.toNat + s.widx * 2 ^ 8))
      (∀ r, o.value = some r → (o.valueOf s v).poison = true → exec i s = poison r)
      ∧ ((o.valueOf s v).poison = false →
        (∀ r, o.second = some r → (s.cx.sreg r).poison = true → exec i s = poison r)
        ∧ ((o.secondOf s).poison = false →
          ((o.baseOf s v).poison = true → exec i s = poison o.base)
          ∧ ((o.baseOf s v).poison = false → ∀ c x, s.checkAccess (o.ea s v) o.align o.sort = .bad c x →
              exec i s = trap c x)))

/-- A store through a window enters the combining buffer (16 R254, R256, R257). Where the context has no line that
it meets there, a new line of 64 bytes is opened with the slack of its class. It joins the open line of its line
address, rank, window and class, which leaves as a packet once all its bytes are written. A line of another class,
window or rank of the same package at its address leaves as a packet, and a new line is opened.

The ORDER words, each when no earlier fence or drain stands: `FENCE` marks the accesses of its classes
that its scope has still to see, `WDRAIN` its window, and each flushes its lines (16 R257); `SLKSET` sets a slack of at most 65,535 and `WALLOW` an
allowance of 1 to 1,024 (06 R123, R124). With one standing, every access word waits and pops nothing. -/
def Obligations.WindowStoresAndOrder : Prop :=
  (∀ (s : State) (x base : SReg) (cls : BitVec 4) (sz : BitVec 2) (off : BitVec 8) (v : List Reg)
      (w rank loc : Nat),
      Popped s (pops2 x base) v → (s.src x v 0).poison = false → (s.src2 x base v).poison = false →
      s.fenced = false → s.depsDone (s.src2 x base v).taint = true →
      let a := (s.src2 x base v).val + BitVec.ofInt 64 (off.toInt * 2 ^ sz.toNat)
      s.checkAccess a (2 ^ sz.toNat) .store = .ok (.window w rank loc) →
      s.heldWindow cls.toNat rank loc = false → s.behindUnsent cls.toNat rank loc = false → w < 8 →
      let data := bytesOfNat (2 ^ sz.toNat) (s.src x v 0).val.toNat
      let cx := { s.cx with fences := [], drains := [], lq := s.cx.lq.drop (pops2 x base) }
      let own := fun (l : Line) =>
        l.owner == s.cx.uid && l.rank == rank && l.win == w && l.cls == cls.toNat && l.addr == loc / 64 * 64
      let met := fun (l : Line) =>
        l.owner == s.cx.uid && s.meetsRank l.rank rank && l.addr == loc / 64 * 64 && !own l
      let left := fun (t : State) (l : Line) => ∃ p ∈ t.fab.pkts, p.kind = .line l.bytes ∧ p.ids = l.ids
        ∧ p.owner = l.owner ∧ p.rank = l.rank ∧ p.loc = l.addr ∧ p.cls = l.cls ∧ p.win = l.win ∧ p.counted = true
      let line : Line :=
        { owner := s.cx.uid, ids := [s.nextId], addr := loc / 64 * 64, rank := rank, win := w
          cls := cls.toNat, slack := (s.cx.slackOf cls).toNat, opened := s.cyc, openedNs := s.ftime
          bytes := mergeBytes (loc % 64) data (List.replicate 64 none) }
      ((∀ l ∈ s.core.lines, own l = false) →
        s.winCount s.cx.uid w < s.cx.allowOf (BitVec.ofNat 3 w) → s.core.lines.length < 16 →
        ((∀ l ∈ s.core.lines, met l = false) → exec (.st x base cls sz off) s = .next
          { s with nextId := s.nextId + 1, cx := cx, core := { s.core with lines := s.core.lines ++ [line] } })
        ∧ ∃ t, exec (.st x base cls sz off) s = .next t
          ∧ t.core.lines = s.core.lines.filter (fun l => !met l) ++ [line]
          ∧ (∀ l ∈ s.core.lines, met l = true → left t l)
          ∧ t.cx = cx ∧ t.mem = s.mem ∧ t.empties = s.empties)
      ∧ ∀ l, s.core.lines.find? own = some l → (∀ k ∈ s.core.lines, met k = false) →
          let l' : Line := { l with ids := l.ids ++ [s.nextId], bytes := mergeBytes (loc % 64) data l.bytes }
          let lines := s.core.lines.map (fun k => if k = l then l' else k)
          (none ∈ l'.bytes → exec (.st x base cls sz off) s = .next
            { s with nextId := s.nextId + 1, cx := cx, core := { s.core with lines := lines } })
          ∧ (none ∉ l'.bytes → ∃ t, exec (.st x base cls sz off) s = .next t
            ∧ t.core.lines = lines.filter (fun k => k != l') ∧ left t l'
            ∧ t.cx = cx ∧ t.mem = s.mem ∧ t.empties = s.empties))
  ∧ (∀ (s : State) (a : SReg) (cls : BitVec 4) (w scope : BitVec 3) (mask : BitVec 16) (v : List Reg),
      (s.fenced = false →
        (∃ t u, exec (.fence scope mask) s = .next t ∧ exec (.wdrain w) s = .next u
          ∧ t.cx = { s.cx with drains := [], fences := [⟨mask, s.unperformed mask scope.toNat⟩] }
          ∧ u.cx = { s.cx with fences := [], drains := [w.toNat] }
          ∧ t.core.lines = s.core.lines.filter (fun l => !(l.owner == s.cx.uid && mask.getLsbD l.cls))
          ∧ u.core.lines = s.core.lines.filter (fun l => !(l.owner == s.cx.uid && l.win == w.toNat))
          ∧ t.mem = s.mem ∧ u.mem = s.mem ∧ t.empties = s.empties ∧ u.empties = s.empties)
        ∧ ((∀ l ∈ s.core.lines, l.owner ≠ s.cx.uid) →
          exec (.fence scope mask) s = .next { s with
            cx := { s.cx with drains := [], fences := [⟨mask, s.unperformed mask scope.toNat⟩] } }
          ∧ exec (.wdrain w) s = .next { s with cx := { s.cx with fences := [], drains := [w.toNat] } })
        ∧ (Popped s (pops2 a 0) v → (s.src a v 0).poison = false →
          let x := (s.src a v 0).val.toNat
          exec (.slkset a cls) s = .next ((s.popLq (pops2 a 0)).push
            (.slack cls (if x ≤ 65535 then BitVec.ofNat 16 x else 65535)) 1)
          ∧ exec (.wallow a w) s = .next ((s.popLq (pops2 a 0)).push
            (.allow w (if x = 0 then 1 else if x ≤ 1024 then x else 1024)) 1)))
      ∧ ∀ (i : Instr) (o : AccOp) (u : List Reg), wordOf i = some (accWord o) → Popped s o.pops u →
          s.fenced = true → exec i s = .next { s with ctl := .stalled false })

/-! ### Streams and descriptors -/

/-- The stream words enqueue a stream with what their descriptors say at issue: its length is the count of
its destination (07 R137 to R139, R143 to R148), under the form and length rules of each word, with room
in the V pipe and, where the word is predicated, a predicate that is true. A false predicate or a length of
0 touches nothing (07 R131, R144).

The permuting words, the chain, and the reductions enqueue their streams likewise (07 R141, R143 to
R148, R153, R154); `VCOMP` sends its count on its way, and one of length 0 the count 0, by the model's choice (log
entry 32). -/
def Obligations.StreamsEnqueue : Prop :=
  (∀ (s : State) (dd da db : DReg) (opt : BitVec 3),
      (s.cx.streams.filter (·.vpipe == true)).length < 4 →
      let on : Prop := (s.cx.preg opt).poison = false ∧ (s.cx.preg opt).val = true
      let n := s.countOf dd
      let two : Prop := Usable s [.of dd .dst n, .of da .src (s.usedOf da n), .of db .src (s.usedOf db n)]
      let one : Prop := Usable s [.of dd .dst n, .of da .src (s.usedOf da n)]
      n ≠ 0 →
      (s.lenOk da n = true → s.lenOk db n = true → two →
        (on → ∀ p ∈ [(Instr.vadd dd da db opt, 0), (Instr.vsub dd da db opt, 1), (Instr.vmul dd da db opt, 2),
          (Instr.vfma dd da db opt, 3), (Instr.vmin dd da db opt, 4), (Instr.vmax dd da db opt, 5),
          (Instr.vand dd da db opt, 8), (Instr.vor dd da db opt, 9), (Instr.vxor dd da db opt, 10),
          (Instr.vshl dd da db opt, 11), (Instr.vshr dd da db opt, 12), (Instr.vsel dd da db opt, 14)],
          s.vopForm p.2 dd da db = true →
          Streams s p.1 true (.vop p.2 opt.toNat) n (some dd) (some da) (some db) 6)
        ∧ (s.vopForm 13 dd da db = true →
          Streams s (.vcmp dd da db opt) true (.vop 13 opt.toNat) n (some dd) (some da) (some db) 6))
      ∧ (s.lenOk da n = true → one →
        (on → ∀ p ∈ [(Instr.vabs dd da opt, 6), (Instr.vneg dd da opt, 7)],
          s.vopForm p.2 dd da da = true →
          Streams s p.1 true (.vop p.2 opt.toNat) n (some dd) (some da) none 6)
        ∧ Streams s (.vcvt dd da opt) true (.vop 17 opt.toNat) n (some dd) (some da) none 8
        ∧ (s.isFloat dd = s.isFloat da →
          Streams s (.vscan dd da opt) true (.scan opt.toNat) n (some dd) (some da) none 10)
        ∧ (on → s.isFloat dd = true → s.isFloat da = true →
          ∀ p ∈ [(Instr.vexp2 dd da opt, 0), (Instr.vlog2 dd da opt, 1), (Instr.vrcp dd da opt, 2),
            (Instr.vrsq dd da opt, 3), (Instr.vsig dd da opt, 4), (Instr.vtanh dd da opt, 5),
            (Instr.vgelu dd da opt, 6)],
            Streams s p.1 true (.vsfn p.2) n (some dd) (some da) none 10))
      ∧ (on → s.lenOk da n = true → (s.cx.desc dd).code = (s.cx.desc da).code →
        Usable s [{ d := dd, role := .dst, n := n, codes := true },
          { d := da, role := .src, n := s.usedOf da n, codes := true }] →
        Streams s (.vcopy dd da opt) true (.vop 15 opt.toNat) n (some dd) (some da) none 6)
      ∧ (on → Usable s [.of dd .dst n] →
        Streams s (.viota dd opt) true (.vop 18 opt.toNat) n (some dd) none none 6)
      ∧ (on → 1 ≤ s.countOf da → Usable s [.of dd .dst n, .of da .src 1] →
        Streams s (.vfill dd da opt) true (.vop 16 opt.toNat) n (some dd) (some da) none 6))
  ∧ (∀ (s : State) (dd da db : DReg) (opt : BitVec 3),
      (s.cx.streams.filter (·.vpipe == true)).length < 4 →
      let n := s.countOf dd
      let m := s.countOf da
      let dst : Use := .of dd .dst n
      let src : Use := .of da .src m
      ((s.cx.preg opt).poison = false → (s.cx.preg opt).val = true →
        (s.cx.desc dd).code = (s.cx.desc da).code →
        (s.isFloat db = false →
          (s.lenOk db m = true →
            (m ≤ n → Usable s [.of dd .dst m, src, .of db .src (s.usedOf db m)] →
              (m ≠ 0 → Streams s (.vcomp dd da db opt) true (.perm 0) m (some dd) (some da) (some db) 8)
              ∧ (m = 0 → exec (.vcomp dd da db opt) s = .next (s.push (.count dd (some 0)) 8)))
            ∧ (m ≠ 0 → Usable s [{ dst with whole := true }, src, .of db .src (s.usedOf db m)] →
              Streams s (.vscat dd da db opt) true (.perm 3) m (some dd) (some da) (some db) 12))
          ∧ (n ≠ 0 → m ≠ 0 → s.lenOk db n = true →
            (Usable s [dst, src, .of db .src (s.usedOf db n)] →
              Streams s (.vexpd dd da db opt) true (.perm 1) n (some dd) (some da) (some db) 8)
            ∧ (Usable s [dst, { src with whole := true }, .of db .src (s.usedOf db n)] →
              Streams s (.vgath dd da db opt) true (.perm 2) n (some dd) (some da) (some db) 12)))
        ∧ (m ≠ 0 → m % 64 = 0 → m ≤ 4096 → n = m → Usable s [dst, src] →
          Streams s (.vtrn dd da opt) true (.perm 5) m (some dd) (some da) none 8))
      ∧ (let ops := chainOps (s.cx.chain opt)
        let usesB := ops.any (fun b => chainBinary (b % 16) && b / 16 == 0)
        ops.any chainReserved = false → s.lenOk da n = true → s.isFloat dd = true → s.isFloat da = true →
        (s.cx.desc dd).code ≠ 1 → (s.cx.desc da).code ≠ 1 →
        (usesB = false → Usable s [dst, .of da .src (s.usedOf da n)] →
          (n ≠ 0 → Streams s (.vchain dd da 0 opt) true (.chain (s.cx.chain opt)) n (some dd) (some da) none 8)
          ∧ (n = 0 → exec (.vchain dd da 0 opt) s = .next s))
        ∧ (usesB = true → s.lenOk db n = true → s.isFloat db = true → (s.cx.desc db).code ≠ 1 →
          Usable s [dst, .of da .src (s.usedOf da n), .of db .src (s.usedOf db n)] →
          (n ≠ 0 →
            Streams s (.vchain dd da db opt) true (.chain (s.cx.chain opt)) n (some dd) (some da) (some db) 8)
          ∧ (n = 0 → exec (.vchain dd da db opt) s = .next s))))
  ∧ (∀ (s : State) (dd da : DReg) (ps : BitVec 2),
      (s.cx.streams.filter (·.vpipe == false)).length < 4 →
      let m := s.countOf da
      (m ≠ 0 → Usable s [.of da .src m] → s.suitsLatch (s.cx.latch ps).kind da = true →
        ((s.cx.latch ps).op = .add →
          Streams s (.radd da ps) false (.red 0 ps) m none (some da) none 11)
        ∧ ((s.cx.latch ps).op = .min →
          Streams s (.rmin da ps) false (.red 1 ps) m none (some da) none 11)
        ∧ ((s.cx.latch ps).op = .max →
          Streams s (.rmax da ps) false (.red 2 ps) m none (some da) none 11))
      ∧ (Usable s [.of dd .dst 1] → s.latchBusy ps = false →
        Streams s (.rdrnDesc dd ps) false (.latchOut ps (s.cx.latch ps)) 1 (some dd) none none 3))
  ∧ ∀ (s : State) (i : Instr) (q : StreamReq), wordOf i = some (streamWord q) →
      s.usesIllop (q.uses s) = false → q.rules s = true → q.wait s = false →
      (s.cx.streams.filter (·.vpipe == q.vpipe)).length < 4 → s.usesTrap (q.uses s) = none →
      (∀ k, q.pred = some k → (s.cx.preg k).poison = false) →
      ((∃ k, q.pred = some k ∧ (s.cx.preg k).val = false) ∨ (q.n s = 0 ∧ q.op s ≠ .perm 0)) →
      exec i s = .next s

/-- The words that move values between registers and the core's tables: descriptors (07 R149 to R151),
chain words (R142), latches (R153), format registers and scale entries (10 R206). A word of the V or R pipe
waits while its queue holds four streams (03 R26, 07 R125), and a word on a latch for the earlier ones that
name it (07 R154). -/
def Obligations.TableWords : Prop :=
  ∀ (s : State) (a b d : SReg) (n : BitVec 4) (k : BitVec 3) (ps c o : BitVec 2),
    let x := (s.cx.sreg a).val
    let y := (s.cx.sreg b).val
    let put := fun (w : Write) (l : Nat) => (.next (s.push w l) : Out)
    let room := fun (v : Bool) => (s.cx.streams.filter (·.vpipe == v)).length < 4
    ((s.cx.sreg a).poison = false →
      (room true → exec (.chset a k) s = put (.chain k x) 1)
      ∧ (fmtRegLegal (x.extractLsb' 0 32) = true → exec (.fmset a n) s = put (.fm n (x.extractLsb' 0 32)) 1)
      ∧ exec (.scld a 0 n) s = put (.sc n (x.extractLsb' 0 8)) 6
      ∧ exec (.scld a 1 n) s
        = .next ((s.push (.sc n (x.extractLsb' 0 8)) 6).push (.sc (n + 1) (x.extractLsb' 8 8)) 6)
      ∧ ∀ t, exec (.scld a k n) s = .next t → ComputesOnly s t ∧ ∃ l, t.cx.pend = s.cx.pend ++ l
        ∧ l.map (·.w) = (List.range (k.toNat + 1)).map
            (fun i => Write.sc (n + BitVec.ofNat 4 i) (x.extractLsb' (8 * i) 8)))
    ∧ (room true → (s.cx.sreg a).poison = false → (s.cx.sreg b).poison = false →
      ({ w0 := x, w1 := y : Desc }).fieldsOk = true → ({ w0 := x, w1 := y : Desc }).count ≠ 0 →
      exec (.dset d a b) s = put (.desc (d.extractLsb' 0 5) ⟨x, y⟩) 1)
    ∧ (room true →
      let r := a.extractLsb' 0 5
      let e := s.cx.desc r
      exec (.dget d a 0) s = .next (s.wreg d { val := e.w0 } 2)
      ∧ exec (.dget d a 1) s = .next (s.wreg d { val := e.w1 } 2)
      ∧ ((s.cx.sreg b).poison = false →
        (e.kind ≠ 2 → exec (.dadv a b) s = put (.base r (mkWord ((e.w0 + y).toNat % 2 ^ 57))) 1)
        ∧ (e.kind = 2 → 0 ≤ (bitsOf e.w0 3 12 : Int) + y.toInt → (bitsOf e.w0 3 12 : Int) + y.toInt ≤ 4095 →
          ∃ z, exec (.dadv a b) s = put (.base r z) 1
            ∧ (bitsOf z 3 12 : Int) = (bitsOf e.w0 3 12 : Int) + y.toInt
            ∧ ∀ i < 64, (i < 3 ∨ 15 ≤ i) → z.getLsbD i = e.w0.getLsbD i)
        ∧ (y.toNat ≤ 65535 → exec (.dcnt a b) s = put (.count r (some y.toNat)) 1)
        ∧ ∀ p : Pend, 1 ≤ p.bound → let old := s.cx.descs[r.toNat]
          (∀ z, p.w = .base r z → (s.applyGroup [p]).cx.descs = s.cx.descs.set r.toNat { old with w0 := z })
          ∧ ∀ n ≤ 65535, p.w = .count r (some n) → ∃ z,
            (s.applyGroup [p]).cx.descs = s.cx.descs.set r.toNat { old with w1 := z } ∧ bitsOf z 24 16 = n
            ∧ ∀ i < 64, (i < 24 ∨ 40 ≤ i) → z.getLsbD i = old.w1.getLsbD i))
    ∧ exec (.fmget a n) s = .next (s.wreg a { val := (s.cx.fm n).setWidth 64 } 2)
    ∧ (room false → s.latchBusy ps = false →
      exec (.rdrn 0 ps) s = .next s
      ∧ (a ≠ 0 → ∃ r : Reg, exec (.rdrn a ps) s = .next ((s.wreg a r 3).fromLatch ps)
        ∧ r.poison = (s.cx.latch ps).poison
        ∧ r.taint = [] ∧ ((s.cx.latch ps).kind ≠ .fp32 → r.val = (s.cx.latch ps).val)
        ∧ ((s.cx.latch ps).kind = .fp32 → r.val.toNat = (s.cx.latch ps).val.toNat % 2 ^ 32))
      ∧ (o ≠ 3 → ∃ l : Latch, exec (.rclr c o ps) s = put (.latch ps l) 1 ∧ l.poison = false
        ∧ l.kind = (match c with | 0 => .fp32 | 1 => .fp64 | 2 => .int64 | _ => .n64)
        ∧ l.op = (match o with | 0 => .add | 1 => .min | _ => .max)
        ∧ l.val = (match c, o with
          | 0, 0 => 0x80000000 | 0, 1 => 0x7F800000 | 0, _ => 0xFF800000
          | 1, 0 => 0x8000000000000000 | 1, 1 => 0x7FF0000000000000 | 1, _ => 0xFFF0000000000000
          | 2, 0 => 0 | 2, 1 => 0x7FFFFFFFFFFFFFFF | 2, _ => 0x8000000000000000
          | _, 0 => 0 | _, 1 => 0xFFFFFFFFFFFFFFFF | _, _ => 0)))
    ∧ (¬ room true → ∀ i ∈ [Instr.dget d a 0, Instr.dget d a 1],
        exec i s = .next { s with ctl := .stalled false })
    ∧ (¬ room false ∨ s.latchBusy ps = true →
        exec (.rdrn a ps) s = .next { s with ctl := .stalled false }
        ∧ exec (.rclr c o ps) s = .next { s with ctl := .stalled false })

/-! ### Commands -/

/-- The shuttle words queue their command with the regions, formats and configuration of their issue (08
R170, R173, R177 to R180); the configuration words change the configuration as last issued.

The shuttle's steps (08 R162, R165, R170, R171, R174, R178): a configuration command takes effect as it
starts, a beat whose words are full, and whose words and scale indices no refresh window holds back (10 R195),
advances its step and empties the words it takes, a step that has
performed its beats and a tile command whose groups have passed or that has no region complete; a count of charged
cycles that reaches 4,095 is recorded (20 R310).

What they leave in tiles and in memory: a product of the MAC preset in output-stationary flow adds to each element
the products of its row of A and its column of B, in ascending k, exactly, and rounds once (R156, R158, R163, R164);
an `MLDA` converts each element of its region and zeroes the others, an `MDRAIN` writes the converted elements and,
with `.clr`, zeroes the tile (R178). -/
def Obligations.ShuttleCommands : Prop :=
  (∀ (s : State) (acc n : BitVec 3) (da db : DReg) (depth a6 p q opt : BitVec 6)
      (tag flags v f sl : BitVec 2) (m : BitVec 3) (clr wide : BitVec 1),
      s.shuttleFull = false →
      let cfg := s.cx.mcfg
      let put := fun (k : MKind) (a b : Option Region) => Queued s k (s.commandDeps a b) true
      let conf := fun (c : MCfg) => (.next (Queued { s with cx := { s.cx with mcfg := c } } (.config c) [] false)
        : Out)
      let noted := fun (t : State) (l : Vector Form 8) => (.next { t with cx := { t.cx with forms := l } } : Out)
      let both := fun (k : BitVec 3) (w : BitVec 1) (x : Form) =>
        let l := s.cx.forms.setIfInBounds k.toNat x
        if w = 1 then l.setIfInBounds (k.toNat + 1) x else l
      let d := a6.extractLsb' 0 5
      (exec (.ssel p) s = conf { cfg with sel := p.toNat }
        ∧ (¬ (p = 1 ∧ cfg.skew = 0) → exec (.mflow p) s = conf { cfg with flow := p.toNat })
        ∧ (¬ (p = 0 ∧ cfg.flow = 1) → exec (.mskew p) s = conf { cfg with skew := p.toNat })
        ∧ (s.mfmtOk p.toNat q.toNat (formOfBits (opt.toNat % 4)) (opt.toNat / 4) = true →
          exec (.mfmt p q opt) s = conf { cfg with
            fa := p.toNat, fb := q.toNat, form := formOfBits (opt.toNat % 4), p := opt.toNat / 4 + 1 }))
      ∧ exec (.mzero n wide v f) s
        = noted (Queued s (.zero n.toNat (wide == 1) v.toNat (formOfBits f.toNat)) [] true)
            (both n wide (formOfBits f.toNat))
      ∧ (Usable s [.of d .dst (s.countOf d)] → s.tileRegionOk d = true →
        exec (.mdrain a6 n m clr) s = .next
          (put (.drain (s.regionOf d) n.toNat m.toNat (clr == 1)) (some (s.regionOf d)) none))
      ∧ (Usable s [.of d .src (s.countOf d)] →
        (s.tileRegionOk d = true → exec (.mlda n a6 f m) s
          = noted (put (.load n.toNat (s.regionOf d) (formOfBits f.toNat) m.toNat) (some (s.regionOf d)) none)
              (s.cx.forms.setIfInBounds n.toNat (formOfBits f.toNat)))
        ∧ ((s.cx.desc d).kind = 0 → s.fmtOf (s.cx.desc d).code = .int false 16 → (s.cx.desc d).stride = 1 →
          1 ≤ s.countOf d → s.countOf d ≤ 8 →
          exec (.sload sl a6) s
            = .next (put (.program sl.toNat (s.regionOf d)) (some (s.regionOf d)) none))
        ∧ (let P := (s.weightShape (s.countOf d)).2
          let nr := s.countOf d / (64 * P)
          (s.cx.desc d).kind = 1 → nr * (64 * P) = s.countOf d → 1 ≤ nr → nr ≤ 64 →
          exec (.mwgt a6) s
            = .next (put (.weights (s.regionOf d) nr P cfg.p) (some (s.regionOf d)) none)))
      ∧ (let uses := s.stepUses da db (depth.toNat + 1) (wide == 1)
        let b := if cfg.flow = 1 then none else some (s.regionOf db)
        Usable s uses → (∀ u ∈ uses, (s.cx.desc u.d).kind = 1 ∧ u.n ≤ s.countOf u.d) →
        (s.cx.desc da).code = cfg.fa →
        (if cfg.flow = 1 then wide = 0 ∧ db = 0 else (s.cx.desc db).code = cfg.fb) →
        (flags = 0 → s.formOf acc.toNat = cfg.form ∧ (wide = 1 → s.formOf (acc.toNat + 1) = cfg.form)) →
        exec (.mstep acc wide da db depth tag flags) s
          = noted (put (.step acc.toNat (wide == 1) (depth.toNat + 1) (tagOfCode tag.toNat) flags.toNat
              (s.regionOf da) b { cfg with bFmt := some (s.fmtOf cfg.fb) }) (some (s.regionOf da)) b)
            (if flags = 0 then s.cx.forms else both acc wide cfg.form)))
  ∧ (∀ (s : State) (before : List MCmd) (m : MCmd),
      firstWaiting s.core.shq = some (before, m) → s.mayStart before m = true →
      (∀ c, m.kind = .config c → ∃ t, exec .shuttleCommandStart s = .next t ∧ t.core.cfg = c
        ∧ (∀ x ∈ t.core.shq, x.id ≠ m.id) ∧ t.mem = s.mem ∧ t.cx = s.cx)
      ∧ (m.kind.isConfig = false → ∃ t x, exec .shuttleCommandStart s = .next t ∧ x ∈ t.core.shq
        ∧ x.id = m.id ∧ x.kind = m.kind ∧ x.started = true ∧ t.mem = s.mem
        ∧ t.cx = { s.cx with stepped := t.cx.stepped }))
  ∧ (∀ (s : State) (m : MCmd) (acc : Nat) (wide : Bool) (d : Nat) (tag : TagMode) (init : Nat) (a : Region)
      (b : Option Region) (cfg : MCfg),
      s.core.shq.find? (fun x => x.started && x.kind.isStep && !x.beatsDone) = some m →
      m.kind = .step acc wide d tag init a b cfg →
      let shape := stepPacking cfg a.fmt (stepFmtB a b cfg)
      let words := stepWords cfg shape.1 shape.2 d wide tag a b
      let now := (words m.beat).map (fun w => (w.1, actMode words m.kind.beats w.1))
      let groups := beatGroups cfg shape.1 shape.2 d wide m.beat
      (∀ w ∈ now, s.wsBlocked (8 * w.1) = false) →
      (∀ w ∈ firstAtBeat words m.beat now, w.2 ≠ .keep →
        s.full (8 * w.1) = true ∧ s.firstAt m.id w.1 true = true) →
      (∀ g ∈ groups.1, s.scaleBlocked a g = false) → (∀ g ∈ groups.2, ∀ r, b = some r → s.scaleBlocked r g = false) →
      ∃ t x, exec .beat s = .next t ∧ x ∈ t.core.shq ∧ x.id = m.id ∧ x.beat = m.beat + 1
        ∧ t.core.beatDone = true ∧ t.mem = s.mem
        ∧ (∀ loc, t.full loc = s.full loc ∨ loc / 8 ∈ takenAt words m.beat m.kind.beats)
        ∧ (∀ w ∈ takenAt words m.beat m.kind.beats, s.freedFor m.id w = false → tagged (8 * w) = true →
            (w ∉ m.acted ∨ ∃ i < m.beat, ∃ x ∈ words i, x.1 = w) → t.full (8 * w) = false)
        ∧ (Unwatched s → m.owner = s.cx.uid → m.seen = [] → shape.2 = 1 → cfg.flow = 0 → cfg.skew = 0 → cfg.sel = 8 →
          a.scales = none → a.kind = 1 → ∀ br : Region, b = some br → br.scales = none → br.kind = 1 →
          (∀ w ∈ now, s.marked (8 * w.1) = false) →
          let q := m.beat / d
          let lane := fun (r : Region) (l : List Nat) (j i : Nat) =>
            (((s.groupLanes r false cfg.p (l[j]?.getD 0))[i]?).map (·.1)).getD (.i 0)
          let old := fun (k : Fin 8) (i : Nat) =>
            if m.beat % d = 0 ∧ init ≠ 0 then infCode cfg.form (init - 1) else s.cx.tiles[k].get i
          ∀ k : Fin 8, k.val = acc + q → t.cx.tiles[k].form = cfg.form ∧ ∀ i < 4096, t.cx.tiles[k].get i
            = (roundForm cfg.form ((List.range shape.1).foldl
                (fun x j => (numAdd x (numMul (lane a groups.1 j (i / 64)) (lane br groups.2 j (i % 64))).1).1)
                (formValue cfg.form (old k i)))).1))
  ∧ (∀ (s : State) (m : MCmd) (rest : List MCmd), s.core.shq = m :: rest → m.started = true →
      (m.kind.isStep = true → m.beatsDone = true → ∃ t, exec .shuttleCommandComplete s = .next t
        ∧ (∀ x ∈ t.core.shq, x.id ≠ m.id) ∧ t.mem = s.mem)
      ∧ (∀ r dst, m.kind.region = some (r, dst) → (r.count + 63) / 64 ≤ m.beat →
        ∃ t, exec .shuttleCommandComplete s = .next t ∧ (∀ x ∈ t.core.shq, x.id ≠ m.id) ∧ t.mem = s.mem)
      ∧ (∀ n wide v f, m.kind = .zero n wide v f → m.owner = s.cx.uid →
        let zeros := Tile.fill f (infCode f v)
        ∃ t, exec .shuttleCommandComplete s = .next t ∧ (∀ x ∈ t.core.shq, x.id ≠ m.id) ∧ t.mem = s.mem
          ∧ t.cx.tiles = (let l := s.cx.tiles.setIfInBounds n zeros
              if wide then l.setIfInBounds (n + 1) zeros else l))
      ∧ (Unwatched s → m.owner = s.cx.uid → m.beat = 0 → m.acted = [] → m.seen = [] → ∀ r : Region, r.scales = none →
        r.tag = .keep → 1 ≤ r.count → r.count ≤ 4096 → (∀ i < r.count, ∀ w ∈ r.words i, s.wsBlocked (8 * w) = false) →
        (∀ (n : Fin 8) form mode, m.kind = .load n.val r form mode → r.kind ≠ 2 →
          (∀ i < r.count, (s.codeAt r i).1.2 = false) →
          ∃ t, exec .shuttleCommandComplete s = .next t ∧ (∀ x ∈ t.core.shq, x.id ≠ m.id) ∧ t.mem = s.mem
            ∧ t.cx.tiles[n].form = form
            ∧ ∀ i < 4096, t.cx.tiles[n].get i = if i < r.count
              then mkWord ((fmtOfForm form).convert mode (s.valueAt r i (s.codeAt r i).1.1).1).1 else 0)
        ∧ (∀ (n : Fin 8) mode clr, m.kind = .drain r n.val mode clr → r.kind = 0 → r.stride = 1 →
          (r.fmt.width ≤ 8 ∨ r.fmt.width ∈ [16, 32, 64]) →
          ∃ t, exec .shuttleCommandComplete s = .next t ∧ (∀ x ∈ t.core.shq, x.id ≠ m.id)
            ∧ t.cx.tiles = (if clr then s.cx.tiles.set n.val { form := s.cx.tiles[n].form } else s.cx.tiles)
            ∧ (∀ l, (∀ i < r.count, l ∉ r.bytesAt i) → t.byte l = s.byte l)
            ∧ ∀ i < r.count, (t.codeAt r i).1.1 = (r.fmt.convert mode
                (formValue s.cx.tiles[n].form (s.cx.tiles[n].get i))).1 % 2 ^ r.fmt.width)))
  ∧ (∀ s : State, ((∀ n ∈ s.core.charge.toList, n < 4095) → exec .chargeRecord s = .next s)
      ∧ ((∃ n ∈ s.core.charge.toList, 4095 ≤ n) → ∃ t, exec .chargeRecord s = .next t
        ∧ t.core.charge = Vector.replicate 5 0 ∧ t.cx = s.cx ∧ t.mem = s.mem))

/-- The COPY words read their block at issue and hand the command to the queue of the X pipe, from which it passes,
behind the commands before it, to the engine that class bit 3 chooses while that has room (10 R186, R198, R201,
R202). `CPYW` takes privilege; a block in a poisoned line fails the command.

A copy command's steps (10 R197, R198, R200, R204, R205): an engine takes the next command of its sources in
turn when it could start it, by the model's choice (log entry 91), a `CPYW` to a held die failing with reason 3; a
segment of at most 256 bytes without tags is written once no page faults, no refresh window stands open and no bank of
its lines is under refresh (11 R207), each byte with its value and the bits it covers, unless the buffer of a collective
or a timed send lies there (17 R276, 16 R269); a source written meanwhile makes the value free by the model's own
record of it (log entry 85); at a fault it pauses with its done-mark in word 7, and goes on
when the fault is resolved; and when all is written, or it failed, word 7 tells and its queue entry is gone. -/
def Obligations.CopyCommands : Prop :=
  (∀ (s : State) (p q : SReg) (patch : BitVec 2) (cls : BitVec 4),
      s.cx.xq.length < 8 → s.blockHeld p 64 cls.toNat = false → s.blockCheck p 64 = none →
      (patch ≠ 0 → (s.cx.sreg q).poison = false) →
      ∀ x ∈ [(Instr.cpy p q patch cls, 0), (Instr.cpyt p q patch cls, 1), (Instr.cpyp p q patch cls, 2),
        (Instr.cpyg p q patch cls, 3), (Instr.cpyw p q patch cls, 4), (Instr.cpyc p q patch cls, 5)],
        let r : CopyReq := ⟨x.2, p, q, patch, cls⟩
        let blk := (r.block s).1
        let bad := (r.block s).2.2
        let sides := s.sidesOf x.2 blk
        (x.2 = 4 → s.cx.priv = true) → (bad = false → s.copyBlockCheck x.2 blk = none) →
        ∃ c : CopyCmd,
          exec x.1 s
            = .next (State.pumpX 8 { JoinedBatch s 1 with core := { s.core with copies := s.core.copies ++ [c] } })
          ∧ c.id = s.nextId ∧ c.owner = s.cx.uid ∧ c.fn = x.2 ∧ c.eng = decide (8 ≤ cls.toNat)
          ∧ c.die = (if s.core.control then blkDie blk else s.coreid / 24) ∧ c.store = blkDie blk
          ∧ c.source = (if s.core.control then 2 else if s.bank then 1 else 0)
          ∧ c.blk = blk ∧ c.blkLoc = (r.block s).2.1 ∧ c.cls = cls.toNat ∧ c.priv = s.cx.priv
          ∧ c.deps = s.copyDeps cls.toNat
              (if bad then [] else sides.1 :: (sides.2.1.toList ++ sides.2.2.toList))
          ∧ c.accepted = false ∧ c.started = false ∧ c.done = 0 ∧ c.fail = if bad then some 2 else none)
  ∧ (∀ (s : State) (c : CopyCmd) (rest : List Nat) (n : Nat), s.cx.xq = c.id :: rest → s.copyOf c.id = some c →
      let there := s.core.copies.filter (fun x => x.accepted && !x.started && x.engine == c.engine)
      (there.length < 32 → State.pumpX (n + 1) s = State.pumpX n
        { s with
          cx := { s.cx with xq := rest }
          core := { s.core with
            copies := s.core.copies.map (fun x => if x.id = c.id then { x with accepted := true } else x) } })
      ∧ (32 ≤ there.length → State.pumpX (n + 1) s = s))
  ∧ (∀ (s : State) (c : CopyCmd), s.copyOf c.id = some c →
      let g := s.gatherSegment c
      let with_ := fun (x : CopyCmd) => s.core.copies.map (fun y => if y.id = c.id then x else y)
      let u := State.pumpX 8 s
      let running := ((u.core.copies.filter (fun x => x.eng == c.eng)).map CopyCmd.engine).eraseDups
      (running = [c.engine] → u.nextCopy c.engine = some c → u.engineBusy c.engine = false →
        u.depsDone c.deps = true →
        exec (.copyCommandStart c.eng) s = .next (State.pumpX 8 { u with core := { u.core with
          copies := u.core.copies.map (fun y => if y.id = c.id then
            { c with
              started := true
              fail := if c.fail.isSome then c.fail
                else if c.fn = 4 ∧ u.wsHeld c.store = true then some 3 else none }
            else y)
          copyLast := (c.engine, c.source) :: u.core.copyLast.filter (fun x => x.1 != c.engine) } }))
      ∧ exec (.copyCommandStart c.eng) s = .next (running.foldl State.engineStart u)
      ∧ (c.reading = true → g.fault = true → ∃ t, exec (.copyPause c.id) s = .next t
        ∧ t.core.copies = with_ { c with paused := true, seen := [], put := [] } ∧ t.cx = s.cx
        ∧ t.word (c.blkLoc + 56) = mkWord (c.done % 2 ^ 32)
        ∧ ∀ a, (a < c.blkLoc + 56 ∨ c.blkLoc + 64 ≤ a) → t.byte a = s.byte a)
      ∧ (c.reading = true → g.fault = false → blkStag c.blk = 0 → blkDtag c.blk = 0 →
        (∃ b ∈ g.out, b.loc / 8 ∉ c.put) →
        (∀ l ∈ g.lines ++ hbmLines g.out, s.hbmShut l = false) →
        (∀ b ∈ g.out, Unnoted s (some (c.owner, c.id)) b.loc ∧ s.wsBlocked (8 * (b.loc / 8)) = false ∧
            ∀ w ∈ b.src ++ b.aux, s.wsBlocked (8 * w) = false) →
        ∃ t x, exec (.copySegmentWrite c.id) s = .next t ∧ t.copyOf c.id = some x ∧ t.cx = s.cx
          ∧ x.done = c.done + g.out.length ∧ x.started = true ∧ x.paused = false ∧ t.empties = g.s.empties
          ∧ (∀ a, (∀ b ∈ g.out, b.loc ≠ a) → t.byte a = g.s.byte a)
          ∧ ∀ b ∈ g.out, g.out.filter (fun x => x.loc = b.loc) = [b] → b.loc / 8 ∉ c.put →
              s.freedFor c.id (b.loc / 8) = false →
              t.byte b.loc = BitVec.ofNat 8
                (((g.s.byte b.loc).toNat &&& (255 - b.mask)) + (b.val &&& b.mask)))
      ∧ (s.resumable c = true → (∀ x ∈ s.core.copies, x.engine = c.engine → x.reading = false) →
        exec (.copyResume c.id) s = .next { s with core := { s.core with copies := with_ { c with paused := false } } })
      ∧ (c.started = true →
        let end_ := fun (err : Option Nat) (reason mark : Nat) => ∃ t : State,
          exec (.copyComplete c.id) s = .next ((State.pumpX 8 t).copyNodeDone c.id err)
          ∧ (∀ x ∈ t.core.copies, x.id ≠ c.id)
          ∧ t.word (c.blkLoc + 56) = mkWord (mark + reason * 2 ^ 32 + 2 ^ 48)
          ∧ ∀ a, (a < c.blkLoc + 56 ∨ c.blkLoc + 64 ≤ a) → t.byte a = (s.spoil c).byte a
        (c.paused = true → end_ (some 1) 1 (c.done % 2 ^ 32))
        ∧ (c.paused = false → ∀ r < 2 ^ 16, c.fail = some r → end_ (some r) r (c.done % 2 ^ 32))
        ∧ (c.paused = false → c.fail = none → c.total ≤ c.done → end_ none 0 0xFFFFFFFF)
        ∧ (c.paused = false → c.fail = none → c.done < c.total → exec (.copyComplete c.id) s = .next s)))

/-- The FAB words read their block at issue and enter the queue of the
X pipe (16 R268, R269; 17 R273, R285, R287): there a `CPOST` waits for its entry, a `TSEND` takes an entry of its
table, `CQUERY` answers in word 15 of its block and is complete, and `CCANCEL` of a collective that does not
exist completes. That a word of a poisoned line of the block is undefined, and the FAB word goes on, is the model's
choice (log entry 58).

A timed send (16 R269) leaves not before its time as line writes of 64 bytes, and words 5 and 6 of its block
then tell: 1 on time, 2 late and by how much; when all are acknowledged, or the block was refused, it is out of
the table, 3 in word 5 telling a failure. -/
def Obligations.FabricWordsAndTimedSends : Prop :=
  (∀ (s : State) (p : SReg) (cls : BitVec 4) (loc : Nat), s.cx.xq.length < 8 →
      let read := fun (n : Nat) => { s with fv := if s.markedRange loc (8 * n) then s.fv + n else s.fv }
      (∀ n, s.markedRange loc (8 * n) = false → s.fabBlock loc n = s.blockWords loc n)
      ∧ (s.blockHeld p 128 cls.toNat = false → s.blockCheck p 128 = none →
        s.blockAt (s.cx.sreg p).val 128 = some loc →
        let blk := s.fabBlock loc 12
        let ids := s.fabBlock loc 3
        (cpostOk blk = true → ∃ c : Coll,
          exec (.cpost p cls) s = .next (State.pumpX 8
            { JoinedBatch (read 12) 2 with coll := { s.coll with table := s.coll.table ++ [c] } })
          ∧ c.cid = cId blk ∧ c.cmd = s.nextId ∧ c.owner = s.cx.uid
          ∧ c.blk = blk ∧ c.blkLoc = loc ∧ c.cls = cls.toNat ∧ c.code = 1 ∧ c.entered = false)
        ∧ (cpostOk blk = false → exec (.cpost p cls) s = .next (s.trapIssue ⟨1, s.tvalWord⟩))
        ∧ (idWordsOk ids = true →
          let f := fun (query : Bool) =>
            ({ id := s.nextId, owner := s.cx.uid, query := query, cid := cId ids, blkLoc := loc } : FabCmd)
          let with_ := fun (query : Bool) =>
            State.pumpX 8 { JoinedBatch (read 3) 2 with coll := { s.coll with fabq := s.coll.fabq ++ [f query] } }
          exec (.cquery p cls) s = .next (with_ true) ∧ exec (.ccancel p cls) s = .next (with_ false)
          ∧ (NextIdUnused s → s.cx.xq = [] →
            ((∀ h ∈ s.coll.hoop, h.full = none) → ∃ t, exec (.cquery p cls) s = .next t ∧
                t.word (loc + 120) = s.queryWord (cId ids)
              ∧ ∀ a, (a < loc + 120 ∨ loc + 128 ≤ a) → t.byte a = s.byte a)
            ∧ (s.coll.hoop = [] → s.coll? (cId ids) = none → exec (.ccancel p cls) s = .next
              ({ JoinedBatch (read 3) 2 with cx := { (JoinedBatch s 2).cx with xq := [] } }.cmdDone s.cx.uid s.nextId none 0)))))
      ∧ (s.blockHeld p 64 cls.toNat = false → s.blockCheck p 64 = none →
        s.blockAt (s.cx.sreg p).val 64 = some loc →
        let blk := s.fabBlock loc 4
        let with_ := fun (c : TSend) =>
          { JoinedBatch (read 4) 2 with fab := { s.fab with tsends := s.fab.tsends ++ [c] } }
        let rec_ := fun (c : TSend) => c.id = s.nextId ∧ c.owner = s.cx.uid ∧ c.blkLoc = loc
          ∧ c.cls = cls.toNat ∧ c.dest = blkWord blk 0 ∧ c.notbefore = (blkWord blk 3).toNat
          ∧ c.failed = !(read 4).tsendOk blk ∧ c.departed = none ∧ c.unanswered = []
        (∃ c : TSend, exec (.tsend p cls) s = .next (State.pumpX 8 (with_ c)) ∧ rec_ c ∧ c.entered = false)
        ∧ (NextIdUnused s → s.cx.xq = [] → (s.fab.tsends.filter TSend.inTable).length < 256 →
          ∃ c : TSend, exec (.tsend p cls) s
              = .next { with_ c with cx := { (JoinedBatch s 2).cx with xq := [] } }
            ∧ rec_ c ∧ c.entered = true ∧ c.late = (!c.failed && decide (c.notbefore ≤ s.ftime)))))
  ∧ (∀ (s : State) (c : TSend), s.fab.tsends.find? (fun t => t.id == c.id) = some c → c.entered = true →
      (c.failed = false → c.departed = none →
        (s.ftime < c.notbefore → exec (.tsendDeparture c.id) s = .next s)
        ∧ (c.notbefore ≤ s.ftime → s.depsDone c.deps = true →
          (∀ w rank loc, s.locate c.dest = .ok (.window w rank loc) → c.bytes ≤ 4096 →
            ∃ t x, exec (.tsendDeparture c.id) s = .next t ∧ t.cx = s.cx ∧ t.empties = s.empties
              ∧ t.fab.tsends = s.fab.tsends.map (fun y => if y.id = c.id then x else y)
              ∧ x.id = c.id ∧ x.departed = some s.ftime ∧ x.unanswered.length = (c.bytes + 63) / 64
              ∧ t.fab.pkts.length = s.fab.pkts.length + (c.bytes + 63) / 64
              ∧ t.word (c.blkLoc + 40) = (if c.late then 2 else 1)
              ∧ t.word (c.blkLoc + 48) = (if c.late then mkWord (s.ftime - c.notbefore) else 0)
              ∧ ∀ a, (a < c.blkLoc + 40 ∨ c.blkLoc + 56 ≤ a) → t.byte a = s.byte a)
          ∧ ((∀ w rank loc, s.locate c.dest ≠ .ok (.window w rank loc)) →
            exec (.tsendDeparture c.id) s = .next (s.setTsend { c with failed := true }))))
      ∧ (c.unanswered = [] → (c.failed = true ∨ c.departed ≠ none) → ∃ t : State,
        exec (.tsendComplete c.id) s = .next (State.pumpX 8 t)
        ∧ t.fab.tsends = s.fab.tsends.filter (fun x => x.id != c.id)
        ∧ t.word (c.blkLoc + 40) = (if c.failed then 3 else s.word (c.blkLoc + 40))
        ∧ ∀ a, (a < c.blkLoc + 40 ∨ c.blkLoc + 48 ≤ a) → t.byte a = s.byte a)
      ∧ (c.unanswered ≠ [] → exec (.tsendComplete c.id) s = .next (State.pumpX 8 s)))

/-- `COMMIT` closes the open batch under the lowest free id, which stays held while a command of the batch is
incomplete; `WAITB` passes a free id, waits for a held one
and raises BATCH for one held with error, which it frees; `TESTB` answers 1, 0 or 2 (08 R181 to R183). -/
def Obligations.BatchWords : Prop :=
  ∀ (s : State) (a : SReg),
    let v := (s.cx.sreg a).val
    ((s.cx.sreg a).poison = false → (∀ k : Fin 8, lowestFree s.cx.batches = some k →
        let c := { s.cx with batches := s.cx.batches.set k (.held s.cx.openTok), openTok := s.cx.openTok + 1 }
        let t := { s with cx := c.settleBatches }
        exec (.commit a) s = .next (t.wreg a { val := mkWord k.val } 1)
        ∧ ((∃ c ∈ s.cx.cmds, c.tok = s.cx.openTok ∧ c.done = false) → t.cx.batches[k.val] = .held s.cx.openTok)
        ∧ ((∀ c ∈ s.cx.cmds, c.tok = s.cx.openTok → c.done = true ∧ c.err = none) →
            t.cx.batches[k.val] = .free))
      ∧ (lowestFree s.cx.batches = none →
        ((∃ (k : Fin 8) (tok : Nat), s.cx.batches[k] = .held tok) →
            exec (.commit a) s = .next { s with ctl := .stalled false })
        ∧ ((∀ k : Fin 8, ∃ e r, s.cx.batches[k] = .error e r) →
          exec (.commit a) s = .next (s.trapIssue ⟨9, 0xFF00⟩))))
    ∧ ((s.cx.sreg a).poison = false → v.toNat < 8 →
      (s.batchOf v = .free →
        exec (.waitb a) s = .next s ∧ exec (.testb a) s = .next (s.wreg a { val := 1 } 1))
      ∧ (∀ tok, s.batchOf v = .held tok →
        exec (.waitb a) s = .next { s with ctl := .stalled false }
        ∧ exec (.testb a) s = .next (s.wreg a { val := 0 } 1))
      ∧ (∀ e r, s.batchOf v = .error e r →
        let t := { s with cx := { s.cx with
          batches := s.cx.batches.set (v.extractLsb' 0 3).toNat .free (v.extractLsb' 0 3).isLt } }
        exec (.waitb a) s
          = .next (t.trapDone 9 (mkWord (v.toNat % 8 + e % 256 * 2 ^ 8 + r % 2 ^ 16 * 2 ^ 16)))
        ∧ exec (.testb a) s = .next (t.wreg a { val := 2 } 1)))
    ∧ ((s.cx.sreg a).poison = true → (∃ k, lowestFree s.cx.batches = some k) →
      exec (.commit a) s = .next (s.trapIssue ⟨5, mkWord (a.toNat + s.widx * 2 ^ 8)⟩))
    ∧ ((s.cx.sreg a).poison = false → 8 ≤ v.toNat →
      exec (.waitb a) s = .next (s.trapIssue ⟨1, s.tvalWord⟩)
      ∧ exec (.testb a) s = .next (s.trapIssue ⟨1, s.tvalWord⟩))

/-- The barrier words on a barrier the task was given and has configured: `BARCFG` writes its scope and
count (that of the arrivals before it whole phases are over is the model's choice, log entry 111), `BARA` makes the
arrival pending on the earlier accesses (open lines stay open by the model's choice, log entry 37), `BARW` passes
when no phase of it is pending or undelivered and else waits, `BART` tells (14 R244 to R249). `NPOST` and `REQUEUE`
append a post with the poster's level and address space, by the model's choice one of a near address too (log entry
38); posts whose poster's earlier accesses have performed enter the queue behind those in it (14 R234, R250, R338; by
the model's choice, log entry 88). `EXPER` is always illegal (03 R43).

Arrivals at a named barrier (14 R245 to R248): the core's own counts once its earlier accesses have
performed; the last of a phase completes it, and frees a barrier whose task has ended; the phase is delivered
1, 6, 18 or 90 cycles later at the least, by the scope under which the core arrived. -/
def Obligations.BarriersAndPosts : Prop :=
  (∀ (s : State) (a : SReg) (n : BitVec 9) (k : Nat) (st : BitVec 6) (op : BitVec 20),
      let v := (s.cx.sreg a).val
      let wait : Out := .next { s with ctl := .stalled false }
      (s.core.control = false → s.barNum n = some k →
        ((s.cx.sreg a).poison = false → (s.bar k).pending = false → barcfgOk v = true →
          exec (.barcfg a n) s = .next (s.setBar k { s.bar k with
            conf := some (v.toNat % 8, v.toNat / 2 ^ 8 % 2 ^ 16)
            arrivals := if (s.bar k).conf.any (fun c => c.1 != v.toNat % 8) then 0
              else (s.bar k).arrivals % (v.toNat / 2 ^ 8 % 2 ^ 16) }))
        ∧ (∀ sc cnt, (s.bar k).conf = some (sc, cnt) →
          ((s.bar k).pending = true → exec (.bara n) s = wait)
          ∧ ((s.bar k).pending = false → exec (.bara n) s = .next (s.setBar k { s.bar k with
              pending := true, counted := false, completed := false, span := sc
              deps := s.unperformed 0xFFFF sc }))
          ∧ ((s.bar k).pending = false → (s.bar k).completed = false →
            exec (.barw n) s = .next s ∧ exec (.bart a n) s = .next (s.wreg a { val := 1 } 1))
          ∧ ((s.bar k).pending = true ∨ (s.bar k).completed = true →
            exec (.barw n) s = wait ∧ exec (.bart a n) s = .next (s.wreg a { val := 0 } 1))))
      ∧ (s.queuedPosts < 256 → (s.cx.sreg a).poison = false → v.toNat % 64 = 0 → v.toNat < 2 ^ 57 →
        let post := fun (r : Option Nat) =>
          (.next (State.enterPosts { s with sched := { s.sched with posts := s.sched.posts ++
            [{ addr := v.toNat, priv := s.cx.priv, level := if s.cx.priv then 3 else s.cx.task.level
               asid := (s.specialNow 0x101).toNat, ptbase := (s.specialNow 0x100).toNat, requeue := r
               deps := s.unperformed 0xFFFF 3 }] } }) : Out)
        exec (.npost a) s = post none
        ∧ (s.core.control = false → exec (.requeue a) s = post (some s.cx.task.node)))
      ∧ (let now := fun (p : Post) => !p.entered && s.depsDone p.deps
        s.enterPosts.sched.posts = s.sched.posts.filter (·.entered)
          ++ (s.sched.posts.filter now).map (fun p => { p with entered := true })
          ++ s.sched.posts.filter (fun p => !p.entered && !s.depsDone p.deps))
      ∧ exec (.exper st op) s = .next (s.trapIssue ⟨1, s.tvalWord⟩))
  ∧ (∀ (s : State) (k sc cnt : Nat),
      let b := s.bar k
      let set := fun (x : Barrier) => ∀ t, t = s.setBar k x → t.bar k = x ∧ t.cx = s.cx ∧ t.mem = s.mem
      let ended : Out := .next { s with core := { s.core with bars := s.core.bars.filter (fun e => e.1 != k) } }
      let finished : Barrier :=
        { b with arrivals := 0, pending := false, counted := false, completed := true, doneAt := s.cyc }
      b.conf = some (sc, cnt) →
      (b.pending = true → b.counted = false → s.depsDone b.deps = true →
        (b.arrivals + 1 < cnt → exec (.arrivalCounted k true) s
          = .next (s.setBar k { b with counted := true, arrivals := b.arrivals + 1 }))
        ∧ (cnt ≤ b.arrivals + 1 →
          exec (.arrivalCounted k true) s = if b.releasing then ended else .next (s.setBar k finished)))
      ∧ (b.pending = true → b.counted = false → s.depsDone b.deps = false →
        exec (.arrivalCounted k true) s = .next s)
      ∧ (b.arrivals + 1 < cnt → exec (.arrivalCounted k false) s
        = .next (s.setBar k { b with arrivals := b.arrivals + 1 }))
      ∧ (cnt ≤ b.arrivals + 1 →
        (b.counted = true →
          exec (.arrivalCounted k false) s = if b.releasing then ended else .next (s.setBar k finished))
        ∧ (b.counted = false → exec (.arrivalCounted k false) s = .next (s.setBar k { b with arrivals := 0 })))
      ∧ (b.completed = true →
        (b.doneAt + s.deliveryTime b.span ≤ s.cyc →
          exec (.barrierDelivery k) s = .next (s.setBar k { b with completed := false }))
        ∧ (s.cyc < b.doneAt + s.deliveryTime b.span → exec (.barrierDelivery k) s = .next s))
      ∧ s.deliveryTime 0 = 1 ∧ s.deliveryTime 1 = 6 ∧ s.deliveryTime 2 = 18 ∧ s.deliveryTime 3 = 90
      ∧ ∀ x, set x)

/-! ### Steps of the memories, the streams and the engines -/

/-- An access whose earlier accesses have performed, and whose bytes lie in no buffer that a collective under way (17
R276) or, for a write, a timed send (16 R269) forbids it, performs in its step (06 R103, R107 to R109, R112 to R119): a load returns its data, poison and taint to its entry; `LDF`, `LDFE` and `STE` wait for the tag and
park at the word; a store writes its bytes, an atomic its new value.

The first operation parked at a word with a need that its tag now meets acts again, an access, a stream, a
command or a packet (06 R109), and an uncorrectable error marks its line (06 R102). An access to HBM arrives
at its bank and performs once its service has started (10 R188; that it arrives there in the step that would perform
it, and that a fetching atomic counts as a read, are the model's choices, log entries 13 and 86); an entry of the write queue begins when its
merge window has passed and the entry before it on its line allows (06 R120, R121). -/
def Obligations.AccessesPerformAndWake : Prop :=
  (∀ (s : State) (id : Nat) (a : Acc), s.accOf id = some a →
      let gone := s.cx.accs.filter (fun x => x.id != a.id)
      let back := fun (r : Reg) => s.cx.lq.map (fun e =>
        if a.lq = some e.id then { e with data := some { r with taint := if a.ldc then [a.id] else [] } } else e)
      let old := s.readNat a.loc a.size
      let read : Reg := { val := mkWord old, poison := s.marked a.loc }
      let first := fun (full : Bool) => s.firstAt a.id (a.loc / 8) full = true
      let turn := whereLoc a.loc ≠ .hbm ∨ a.bank = .served
      let same := fun (t : State) => t.mem = s.mem ∧ t.empties = s.empties ∧ t.marks = s.marks
      let waits := fun (t : State) =>
        same t ∧ t.cx = s.cx ∧ ∃ w ∈ t.core.parked, w.id = a.id ∧ w.word = a.loc / 8
      (s.wsBlocked a.loc = false → turn → s.hotRange (some (s.cx.uid, a.id)) a.loc a.size = false →
        (a.kind = .read .keep → ∃ t, exec (.loadDataReturn id) s = .next t ∧ same t
          ∧ t.cx = { s.cx with accs := gone, lq := back read })
        ∧ (a.kind = .tagq → ∃ t, exec (.loadDataReturn id) s = .next t ∧ same t
          ∧ t.cx = { s.cx with accs := gone, lq := back { val := if s.full a.loc then 1 else 0 } })
        ∧ (first true → s.full a.loc = true →
          (a.kind = .read .wait → ∃ t, exec (.loadDataReturn id) s = .next t ∧ same t
            ∧ t.cx = { s.cx with accs := gone, lq := back read })
          ∧ (a.kind = .read .take → tagged a.loc = true → ∃ t, exec (.loadDataReturn id) s = .next t
            ∧ t.cx = { s.cx with accs := gone, lq := back read } ∧ t.mem = s.mem ∧ t.marks = s.marks
            ∧ t.empties = insertNat (a.loc / 8) s.empties))
        ∧ ((¬ first true ∨ s.full a.loc = false) → (a.kind = .read .wait ∨ a.kind = .read .take) →
          ∃ t, exec (.loadDataReturn id) s = .next t ∧ waits t))
      ∧ (a.begun = true → turn → (∀ l ∈ a.stored, Unnoted s (some (s.cx.uid, a.id)) l) →
        (∀ m ∈ a.merged, ∀ l ∈ bytesFrom m.1 a.size, Unnoted s (some (s.cx.uid, a.joined.foldl Nat.max a.id)) l) →
        (∀ d, a.kind = .write .keep d → ∃ t, exec (.writePerform id) s = .next t
          ∧ t.cx = { s.cx with accs := gone } ∧ t.mem = (s.setBytes a.loc d).mem ∧ t.empties = s.empties
          ∧ t.marks = s.marks)
        ∧ (∀ d m, (m = .fill ∨ (m = .wait ∧ first false ∧ s.full a.loc = false)) → a.kind = .write m d →
          tagged a.loc = true → ∃ t, exec (.writePerform id) s = .next t ∧ t.cx = { s.cx with accs := gone }
          ∧ t.mem = (s.setBytes a.loc d).mem ∧ t.empties = eraseNat (a.loc / 8) s.empties ∧ t.marks = s.marks)
        ∧ (∀ d, a.kind = .write .wait d → (¬ first false ∨ s.full a.loc = true) →
          ∃ t, exec (.writePerform id) s = .next t ∧ waits t)
        ∧ (∀ b, a.kind = .setTag b → tagged a.loc = true → ∃ t, exec (.writePerform id) s = .next t
          ∧ t.cx = { s.cx with accs := gone } ∧ t.mem = s.mem ∧ t.marks = s.marks
          ∧ t.empties = if b then eraseNat (a.loc / 8) s.empties else insertNat (a.loc / 8) s.empties)
        ∧ (∀ op v w f, a.kind = .atom op v w f → s.marked a.loc = false →
          let n := 8 * a.size
          let x := v.toNat % 2 ^ n
          let sx := (BitVec.ofNat n x).toInt
          let sm := (BitVec.ofNat n old).toInt
          let new := match op with
            | 0 => (old + x) % 2 ^ n
            | 1 => if sx < sm then x else old
            | 2 => if sm < sx then x else old
            | 3 => Nat.min old x
            | 4 => Nat.max old x
            | 5 => old &&& x
            | 6 => old ||| x
            | 7 => old ^^^ x
            | 8 => x
            | 9 =>
              let g := if n = 32 then fp32 else fp64
              (g.round 0 ((g.decode old).add (g.decode x)).1).1
            | _ => if old = x then w.toNat % 2 ^ n else old
          let also := fun (u : State) (m : Nat × Word) => u.writeNat m.1 a.size
            (atomNew op n (u.readNat m.1 a.size) (m.2.toNat % 2 ^ n) 0)
          ∃ t, exec (.writePerform id) s = .next t
            ∧ t.mem = (a.merged.foldl also (s.writeNat a.loc a.size new)).mem
            ∧ t.empties = s.empties ∧ t.marks = s.marks
            ∧ t.cx = { s.cx with accs := gone, lq := if f then back { val := mkWord old } else s.cx.lq })
        ∧ (∀ op v w f, a.kind = .atom op v w f → s.marked a.loc = true →
          ∃ t, exec (.writePerform id) s = .next t ∧ t.mem = s.mem ∧ t.empties = s.empties
            ∧ t.cx = { s.cx with accs := gone, lq := if f then back { poison := true } else s.cx.lq }))
      ∧ (whereLoc a.loc = .hbm →
        let step := if a.isRead then Instr.loadDataReturn id else Instr.writePerform id
        (a.isRead = true ∨ a.begun = true) →
        (a.bank = .before → exec step s = .next ((s.setBankStage a.id .queued).arriveAt (a.loc % 2 ^ 41)
          (a.isRead || a.lq.isSome) (s.coreid / 24) (some a.id)))
        ∧ (a.bank = .queued → exec step s = .next s)))
  ∧ (∀ (s : State) (id : Nat) (a : Acc), s.entryOf id = some a →
      let t := { s with cx := { s.cx with
        accs := s.cx.accs.map (fun x => if x.id = id then { x with begun := true, opened := s.cyc } else x) } }
      (a.opened + a.kind.window ≤ s.cyc → s.lineReady a = true →
        exec (.writeEntryBegin id) s
          = .next (if a.win.isSome then t.sendAccess { a with begun := true } else t))
      ∧ ((s.cyc < a.opened + a.kind.window ∨ s.lineReady a = false) → exec (.writeEntryBegin id) s = .next s))
  ∧ (∀ (s : State) (word line : Nat),
      let woken := s.core.parked.find? (fun x => x.word == word && x.needFull == s.full (8 * word))
      (∀ (w : Waiter) (a : Acc), woken = some w → s.accOf w.id = some a → a.loc / 8 = word →
        (∀ x ∈ s.cx.accs, x.id = a.id → x = a) → s.wsBlocked a.loc = false →
        (whereLoc a.loc ≠ .hbm ∨ a.bank = .served) → s.hotRange (some (s.cx.uid, a.id)) a.loc a.size = false →
        (∀ l ∈ a.stored, Unnoted s (some (s.cx.uid, a.id)) l) →
        let gone := s.cx.accs.filter (fun x => x.id != a.id)
        (a.kind = .read .wait ∨ a.kind = .read .take → w.needFull = true → ∃ t,
          exec (.parkedAccessWake word) s = .next t ∧ t.cx.accs = gone ∧ t.mem = s.mem
          ∧ (∀ x ∈ t.core.parked, x.id ≠ a.id)
          ∧ ∀ e ∈ t.cx.lq, a.lq = some e.id → ∃ v, e.data = some v
            ∧ v.val = mkWord (s.readNat a.loc a.size) ∧ v.poison = s.marked a.loc)
        ∧ (∀ d, a.kind = .write .wait d → a.begun = true → w.needFull = false → ∃ t,
          exec (.parkedAccessWake word) s = .next t ∧ t.cx.accs = gone
          ∧ t.mem = (s.setBytes a.loc d).mem ∧ ∀ x ∈ t.core.parked, x.id ≠ a.id))
      ∧ (∀ w : Waiter, woken = some w → (∀ a ∈ s.cx.accs, a.id ≠ w.id) →
        let stream := s.cx.streams.any (fun t => t.id == w.id)
        let copy := s.core.copies.any (fun c => c.id == w.id)
        (stream = true → exec (.parkedAccessWake word) s = .next (s.groupPass w.id))
        ∧ (stream = false → copy = true → exec (.parkedAccessWake word) s = .next (s.copySegment w.id))
        ∧ (stream = false → copy = false →
          (∀ m, s.core.shq.find? (fun m => m.id == w.id) = some m → exec (.parkedAccessWake word) s
            = .next (if m.kind.isStep then s.beat else s.shuttleComplete))
          ∧ (s.core.shq.find? (fun m => m.id == w.id) = none →
            ∀ p, s.fab.pkts.find? (fun p => p.ids.contains w.id && p.stage == .accepted) = some p →
              exec (.parkedAccessWake word) s = .next (s.remotePerform p.id))))
      ∧ (woken = none → exec (.parkedAccessWake word) s = .next s)
      ∧ exec (.uncorrectableError line) s = .next { s with marks := insertNat line s.marks })

/-- The element results of the VOP stream words on unscaled integer regions (07 R137, R138): the arithmetic words,
`VSHR`, `VFILL`, `VCVT` and `VIOTA` exact, then saturated to the destination with OF; the bitwise words and `VSHL`
truncated without a flag; `VCMP` 1 where its condition holds, integers never being unordered; `VSEL` and `VCOPY` the
code they take. -/
def Obligations.IntegerElementResults : Prop :=
  ∀ (s : State) (opt : Nat) (D A B : Region) (i ka kb ca cb cd : Nat) (g h f : Bool) (w u v : Nat),
    D.scales = none → A.scales = none → B.scales = none → 1 ≤ w → w ≤ 64 →
    D.fmt = .int g w → A.fmt = .int h u → B.fmt = .int f v →
    let x := intOfCode h u ca
    let y := intOfCode f v cb
    let z := intOfCode g w cd
    let lo : Int := if g then -2 ^ (w - 1) else 0
    let hi : Int := if g then 2 ^ (w - 1) - 1 else 2 ^ w - 1
    let elem := fun (fn : Nat) => s.vopElem fn opt D (some A) (some B) i ka kb ca cb cd
    let holds : Bool := match opt with
      | 0 => decide (x = y) | 1 => decide (x ≠ y) | 2 => decide (x < y) | 3 => decide (x ≤ y)
      | 4 => decide (y < x) | 5 => decide (y ≤ x) | 6 => false | _ => true
    let wrap := fun (n : Int) => (n % 2 ^ w).toNat
    let sat := fun (n : Int) => (if n < lo then (wrap lo, Flag.of) else if hi < n then (wrap hi, Flag.of)
      else (wrap n, 0) : Nat × Flags)
    elem 0 = sat (x + y) ∧ elem 1 = sat (x - y) ∧ elem 2 = sat (x * y) ∧ elem 3 = sat (x * y + z)
    ∧ elem 4 = sat (if y < x then y else x) ∧ elem 5 = sat (if x < y then y else x)
    ∧ elem 6 = sat (if x < 0 then -x else x) ∧ elem 7 = sat (-x)
    ∧ elem 8 = (wrap x &&& wrap y, 0) ∧ elem 9 = (wrap x ||| wrap y, 0) ∧ elem 10 = (wrap x ^^^ wrap y, 0)
    ∧ elem 11 = (wrap (x * 2 ^ (y % 64).toNat), 0)
    ∧ (g = true → elem 12 = sat (x / 2 ^ (y % 64).toNat))
    ∧ (g = false → elem 12 = sat (x % 2 ^ 65 / 2 ^ (y % 64).toNat))
    ∧ elem 13 = sat (if holds then 1 else 0) ∧ s.vopElem 18 opt D none none i ka kb ca cb cd = sat i
    ∧ elem 14 = (if y = 0 then cd else ca, 0) ∧ elem 15 = (ca, 0) ∧ elem 16 = sat x ∧ elem 17 = sat x

/-- A group of a stream passes (07 R132 to R134): it meets the tags of its source words one by one, the second source
first, and parks at those that make it wait; when it has met them all it is read and its results are kept; where no
word of its destination makes it wait, each kept result is written as the code of its element (one element a step where
tags act once per element access, by the model's choice, log entry 33), and with the last group the stream lands and
leaves its queue. It writes no word that holds no element of its destination, and no register or predicate;
descriptors of mode keep leave every tag as it is. What a VOP stream keeps of a group without poison and without an
overlap that leaves values undefined is the element result of each index (R138). -/
def Obligations.StreamGroupsPass : Prop :=
  ∀ (s : State) (id : Nat) (t : Stream),
    s.cx.streams.find? (fun x => x.id == id) = some t → s.live = true → s.depsDone t.deps = true → t.acted = [] →
    let may := fun (full : Bool) (w : Nat) =>
      s.freedFor id w = true ∨ (s.full (8 * w) = full ∧ s.firstAt id w full = true)
    let p := s.sourceTags t
    let v := (p.1.unparkAll id).seenView p.2.1.seen
    let r := (p.1.unparkAll id).readPass p.2.1
    let unsent := fun (D : Region) => ∀ x ∈ s.fab.tsends, ∀ i, ∀ l ∈ D.bytesAt i,
      ¬(x.fromLoc ≤ l ∧ l < x.fromLoc + x.bytes)
    let passed := fun (out : List OutElem) (u : State) =>
      let taken := if t.single then out.take 1 else out
      let rest := if t.single then out.drop 1 else []
      (rest = [] → t.groups ≤ t.group + 1 → ∀ x ∈ u.cx.streams, x.id ≠ id)
      ∧ (rest = [] → t.group + 1 < t.groups →
        ∃ x ∈ u.cx.streams, x.id = id ∧ x.group = t.group + 1 ∧ x.out = none)
      ∧ (rest ≠ [] → ∃ x ∈ u.cx.streams, x.id = id ∧ x.group = t.group ∧ x.out = some rest)
      ∧ u.sh = s.sh ∧ u.cx.regs = s.cx.regs ∧ u.cx.preds = s.cx.preds
      ∧ ((∀ r, (t.dst = some r ∨ t.a = some r ∨ t.b = some r) → r.tag = .keep) → u.empties = s.empties)
      ∧ (t.dst = none → u.mem = s.mem ∧ u.cx.tiles = s.cx.tiles)
      ∧ (∀ D, t.dst = some D → unsent D →
          (D.kind = 1 → ∀ i, D.at i % 8 = 0) → (∀ i, D.at i % 8 + D.span ≤ 8 ∨ D.kind = 1) →
          ∀ a, (∀ i, a / 8 ∉ D.words i) → u.byte a = s.byte a)
      ∧ (∀ D, t.dst = some D → unsent D → (D.kind = 2 → s.accUndefined D = false) → D.fmt.width ≤ 64 →
          (D.fmt.width ≤ 8 ∨ 8 ∣ D.fmt.width) → NoneOpen s →
          ∀ e ∈ taken, e.code < 2 ^ D.fmt.width → (∀ x ∈ taken, x = e ∨ D.shares x.i D e.i = false) →
            (∀ w ∈ D.words e.i, s.freedFor id w = false) → (u.codeAt D e.i).1.1 = e.code)
    (Quiet { p.1 with empties := s.empties } s ∧ p.1.marks = s.marks
      ∧ (t.seen = [] → (∀ e ∈ t.sources s, e.1.tag.waits false = true → ∀ w ∈ e.2, may true w) → p.2.2 = true)
      ∧ (∀ B, t.b = some B → t.seen = [] → B.tag.waits false = true → ∀ i ∈ t.readsB, ∀ w ∈ B.words i, ¬ may true w →
        p.2.2 = false ∧ ∃ x ∈ p.1.core.parked, x.id = id ∧ x.word = w))
    ∧ (t.out = none →
      (∀ e ∈ t.sources (s.seenView t.seen), ∀ w ∈ e.2, s.wsBlocked (8 * w) = false) →
      (∀ a ∈ t.scaleBytes (s.seenView t.seen), s.wsBlocked a = false) →
      (p.2.2 = false → exec (.streamGroupPass id) s = .next (p.1.setStream p.2.1))
      ∧ (p.2.2 = true →
        (r.2.out = none → exec (.streamGroupPass id) s = .next (r.1.setStream r.2))
        ∧ (∀ out, r.2.out = some out → (∀ D, t.dst = some D → D.tag ≠ .wait) →
          ∃ u, exec (.streamGroupPass id) s = .next u ∧ passed out u)))
    ∧ (∀ out, t.out = some out →
      (∀ D, t.dst = some D → D.tag = .wait →
        ∀ e ∈ (if t.single then out.take 1 else out), ∀ w ∈ D.words e.i, may false w) →
      ∃ u, exec (.streamGroupPass id) s = .next u ∧ passed out u)
    ∧ (∀ fn opt D, t.op = .vop fn opt → fn ≠ 16 → t.dst = some D → t.single = false → t.held = [] →
      t.keepA = none → t.keepB = none → t.savedA = [] → t.savedB = [] →
      (∀ k, (v.readOpt t.a k).2 = v ∧ (v.readOpt t.b k).2 = v ∧ (v.readElem D k).2 = v) →
      (∀ q, (t.a = some q ∨ t.b = some q) → ∀ i ∈ t.indices,
        (if t.op.broadcasts q then broadcastUndefined D t.n q
          else overlapUndefined D t.n q (srcIdx (some q) i)) = false) →
      let ca := fun (i : Nat) => (v.readOpt t.a (srcIdx t.a i)).1
      let cb := fun (i : Nat) => (v.readOpt t.b (srcIdx t.b i)).1
      let cd := fun (i : Nat) => if t.op.readsDst then (v.readElem D i).1 else (0, false)
      (∀ i ∈ t.indices, (ca i).2 = false ∧ (cb i).2 = false ∧ (cd i).2 = false ∧ v.scalePoison D i = false) →
      (∀ e ∈ t.sources v, ∀ w ∈ e.2, s.freedFor id w = false) →
      r.2.out = some (t.indices.map (fun i =>
        ⟨i, (v.vopElem fn opt D t.a t.b i (srcIdx t.a i) (srcIdx t.b i) (ca i).1 (cb i).1 (cd i).1).1, false⟩)))

/-- The HBM controller's steps (10 R187 to R191, R193, R195; 11 R207), on a pseudo-channel whose dues of earlier cycles
have been acted on: arrivals queue at their bank, by the model's choice as a step of their own (log entry 13), and a
read counts in `hbmrdln` of its die, with the cycles it waited in `hbmwait` (R193); the head access takes 1 cycle on an
open row that it names and 32 otherwise; an idle bank closes after 1,024 cycles; a due refresh of an idle bank takes
112 cycles, one of an open or queued bank is postponed, and the ninth postponement calls an all-bank refresh of 245;
bank k of the weight store has its refresh window in the first 64 cycles of its 512 (R195). The steps on a
pseudo-channel with dues open are those on it with the dues acted on. -/
def Obligations.HbmSteps : Prop :=
  (∀ (s : State) (pc : Nat),
    exec (.refreshDue pc) s = .next (s.refreshed pc)
    ∧ (s.cyc ≤ dueCycle pc (s.hchan pc).dues → s.refreshed pc = s)
    ∧ (let c := s.hchan pc
      let d := dueCycle pc c.dues
      let b := s.hbank pc (c.dues % 16)
      let next := { c with dues := c.dues + 1 }
      d < s.cyc → s.cyc ≤ dueCycle pc (c.dues + 1) →
      ((∃ st, c.allStart = some st ∧ d < st + 245) → s.refreshed pc = s.setHchan pc next)
      ∧ ((∀ st, c.allStart = some st → st + 245 ≤ d) →
        (c.post = 8 → ∃ t, s.refreshed pc = t ∧ (∀ j < 16, (t.hbank pc j).row = none)
          ∧ t.hchan pc = { next with post := 0, called := true, refall := (c.refall + 1) % 2 ^ 64
                                     allStart := some (s.allBankFrom pc d) })
        ∧ (c.post ≠ 8 → (b.isOpen d = true ∨ b.queue ≠ []) → s.refreshed pc
            = s.setHchan pc { next with post := c.post + 1, refpost := (c.refpost + 1) % 2 ^ 64 })
        ∧ (c.post ≠ 8 → b.isOpen d = false → b.queue = [] → s.refreshed pc
            = (s.setHchan pc next).setHbank pc (c.dues % 16) { b with row := none, refresh := d + 112 }))))
  ∧ (∀ (s : State) (pc d : Nat), (∀ j < 16, (s.hbank pc j).busy ≤ s.allBankFrom pc d) ∧ d ≤ s.allBankFrom pc d
    ∧ ((∀ j < 16, (s.hbank pc j).busy ≤ d) → s.allBankFrom pc d = d))
  ∧ (∀ (s : State) (pa : Nat) (read : Bool), ∃ t, exec (.hbmArrival pa read) s = .next t
      ∧ countAt (s.coreid / 24) t.hbm.hbmrdln
        = (let n := countAt (s.coreid / 24) s.hbm.hbmrdln
           if read then (n + 1) % 2 ^ 64 else n)
      ∧ (t.hbank (pa / 64 % 2048) (pa / 2 ^ 21 % 4 * 4 + pa / 2 ^ 23 % 4)).queue
        = ((s.refreshed (pa / 64 % 2048)).hbank (pa / 64 % 2048) (pa / 2 ^ 21 % 4 * 4 + pa / 2 ^ 23 % 4)).queue
            ++ [⟨s.cyc, pa / 2 ^ 25 % 2 ^ 16, read, s.coreid / 24, none⟩]
      ∧ t.cx = s.cx ∧ t.mem = s.mem)
  ∧ (∀ (s : State) (pc k : Nat), k < 16 →
    let u := s.refreshed pc
    let b := u.hbank pc k
    let c := u.hchan pc
    (∀ (r : HReq) (rest : List HReq), b.queue = r :: rest → b.refresh ≤ s.cyc → b.busy ≤ s.cyc →
      u.chanClosed pc = false →
      (∀ j < 16, ¬ ((u.hbank pc j).last = s.cyc ∧ s.cyc < (u.hbank pc j).busy)) →
      (∀ j < k, u.canServe pc j = true → u.headArrival pc j ≠ some r.cyc) →
      let time := if b.row = some r.row ∧ s.cyc < b.last + 1024 then 1 else 32
      ∃ t, exec (.hbmServiceStart pc k) s = .next t
        ∧ t.hbank pc k = { b with row := some r.row, last := s.cyc, busy := s.cyc + time, queue := rest }
        ∧ (r.read = true → countAt r.die t.hbm.hbmwait
            = (countAt r.die u.hbm.hbmwait + (s.cyc - r.cyc)) % 2 ^ 64)
        ∧ t.mem = s.mem ∧ (r.id = none → t.cx = s.cx))
    ∧ ((c.allBank s.cyc = true ∨ s.cyc < b.busy ∨ s.cyc < b.refresh ∨ b.queue = []) →
      exec (.hbmServiceStart pc k) s = .next u)
    ∧ (b.row.isSome = true → b.last + 1024 ≤ s.cyc →
      exec (.bankIdleClose pc k) s = .next (u.setHbank pc k { b with row := none }))
    ∧ (∀ st, c.called = true → c.allStart = some st → st ≤ s.cyc →
      exec (.allBankRefreshStart pc) s = .next (u.setHchan pc { c with called := false }))
    ∧ (0 < b.refresh → b.refresh ≤ s.cyc →
      exec (.bankRefreshEnd pc k) s = .next (u.setHbank pc k { b with refresh := 0 }))
    ∧ (∀ st, c.allStart = some st → st + 245 ≤ s.cyc → exec (.allBankRefreshEnd pc) s
        = .next (u.setHchan pc { c with called := false, allStart := none }))
    ∧ (s.cyc % 8192 / 512 = k → s.cyc % 512 < 64 →
      exec (.wsRefreshWindowStart k) s = .next { s with hbm := { s.hbm with wsWindow := some k } })
    ∧ (s.hbm.wsWindow = some k → 64 ≤ s.cyc % 512 →
      exec (.wsRefreshWindowEnd k) s = .next { s with hbm := { s.hbm with wsWindow := none } }))

/-! ### Translation, faults, banks -/

/-- What one table entry decides (13 R210, R211): not valid is reason 0; a reserved bit, a leaf above level
2, a table at level 0 or a frame out of alignment reason 3; a write without w reason 1; an unprivileged
access without u reason 2; else the leaf, or the next table.

The steps of a held access's translation (13 R209, R211, R212, R221), with the table root and the address space that
stood when its bundle issued (R220), in a machine in which nothing else acts at the end of the cycle: the shared TLB
answers, or the walk starts at the level-4 table; each table read goes one level down, ends in a fault or a machine
error (of an `LDS` too by the model's choice, log entry 93), or updates a and d, fills the micro-TLB and lets the
bundle complete. A fault freezes the context with cause 16, a machine error with 18 (13 R222), but a completion cause
that the bundle's C word met is delivered before it (13 R216 steps 5 and 6), the A word staying held and being
translated again by the model's choice (log entry 17). -/
def Obligations.Translation : Prop :=
  (∀ (e : Word) (level : Nat) (write priv : Bool), level ≤ 4 →
      (e.getLsbD 0 = false → walkDecide e level write priv = .fault 0)
      ∧ (e.getLsbD 0 = true →
        (e.toNat / 2 ^ 41 ≠ 0 → walkDecide e level write priv = .fault 3)
        ∧ (e.toNat / 2 ^ 41 = 0 →
          (e.getLsbD 1 = true → 3 ≤ level → walkDecide e level write priv = .fault 3)
          ∧ (e.getLsbD 1 = false → level = 0 → walkDecide e level write priv = .fault 3)
          ∧ (e.getLsbD 1 = false → level ≠ 0 →
            walkDecide e level write priv = .table (e.toNat / 2 ^ 12 % 2 ^ 29 * 2 ^ 12))
          ∧ (e.getLsbD 1 = true → level ≤ 2 →
            (level ≠ 0 → e.toNat / 2 ^ 12 % 2 ^ 29 % 2 ^ (9 * level) ≠ 0 →
              walkDecide e level write priv = .fault 3)
            ∧ (e.toNat / 2 ^ 12 % 2 ^ 29 % 2 ^ (9 * level) = 0 →
              (write = true → e.getLsbD 2 = false → walkDecide e level write priv = .fault 1)
              ∧ ((write = false ∨ e.getLsbD 2 = true) →
                (priv = false → e.getLsbD 3 = false → walkDecide e level write priv = .fault 2)
                ∧ ((priv = true ∨ e.getLsbD 3 = true) → walkDecide e level write priv = .leaf e)))))))
  ∧ (∀ (s : State) (r : Replay), s.live = true → s.cx.replay = some r → Alone s →
      let w := r.walk
      let hold := fun (v : Walk) (x : WalkResult) =>
        { s with cx := { s.cx with replay := some { r with walk := v, result := x } } }
      let found := tlbFind s.xl.shared w.asid w.va w.write w.priv
      let start := s.walkStart w.root w.asid w.va
      (r.result = .running → w.shared = false →
        (∀ e, found = some e → ∃ t, exec .sharedTlbLookup s = .next t
          ∧ t.xl.micro = tlbFill 64 e s.xl.micro ∧ (r.ctl = .seq → t.cx.replay = none ∧ t.mem = s.mem))
        ∧ (found = none → exec .sharedTlbLookup s = .next
            (hold { w with shared := true, level := start.1, entry := start.2 } .running)
          ∧ ((∀ level, ∀ e ∈ s.xl.walks, ¬ (e.1 = w.asid ∧ e.2.1 = level
              ∧ e.2.2.1 = walkTag w.va level)) → start = (4, w.root))
          ∧ (∀ pa, s.xl.walks.find? (fun e => e.1 == w.asid && e.2.1 == 1
              && e.2.2.1 == walkTag w.va 1) = some (w.asid, 1, walkTag w.va 1, pa) →
            start = (0, pa))))
      ∧ (r.result = .running → w.shared = true →
        let loc := hbmLoc s.pkgid (w.entry + 8 * tableIndex w.va w.level)
        (s.marked loc = true → exec .tableRead s = .next (hold w .machine))
        ∧ (s.marked loc = false →
          (∀ k, walkDecide (s.word loc) w.level w.write w.priv = .fault k → r.lds = false →
            exec .tableRead s = .next (hold w (.fault k)))
          ∧ (∀ k, walkDecide (s.word loc) w.level w.write w.priv = .fault k → r.lds = true → r.ctl = .seq →
            ∃ t, exec .tableRead s = .next t ∧ t.cx.replay = none ∧ t.mem = s.mem
              ∧ ∀ e ∈ t.cx.lq, r.acc.lq = some e.id → ∃ v, e.data = some v ∧ v.poison = true)
          ∧ (∀ pa, walkDecide (s.word loc) w.level w.write w.priv = .table pa → ∃ t,
            exec .tableRead s = .next t ∧ t.mem = s.mem
            ∧ t.cx = (hold { w with level := w.level - 1, entry := pa } .running).cx
            ∧ t.xl.walks.head? = some (w.asid, w.level, walkTag w.va w.level, pa))
          ∧ (∀ e, walkDecide (s.word loc) w.level w.write w.priv = .leaf e → r.ctl = .seq →
            (w.level = 0 → e.getLsbD 7 = false) → ∃ t, exec .tableRead s = .next t
            ∧ t.word loc = e ||| (if w.write then 0x60 else 0x20) ∧ t.cx.replay = none
            ∧ (∀ a, (a < loc ∨ loc + 8 ≤ a) → t.byte a = s.byte a)
            ∧ t.xl.micro.head? = some (tlbOf w.asid e w.va w.level w.write))))
      ∧ (let rec_ := fun (cause reason : Nat) => (.next (({ s with badr := r.badr } : State).freeze
            { cause := cause, reason := reason, pbits := 2 ^ r.words.length - 1 - 2 ^ r.slot
              words := r.words.length, addr := w.va, badr := r.badr }) : Out)
        (s.causeHeld r.ctl = false → (∀ k, r.result = .fault k → exec .faultFreeze s = rec_ 16 k)
          ∧ (r.result = .machine → exec .faultFreeze s = rec_ 18 0))
        ∧ (∀ n tv, r.ctl = .deferTrap n tv → n ≠ 6 → n ≠ 11 → n ≠ 17 →
          (r.result = .machine ∨ ∃ k, r.result = .fault k) → ∃ t, exec .faultFreeze s = .next t
            ∧ (s.cx.pend = [] → s.cx.thand ≠ 0 → s.cx.tcause.getLsbD 10 = false →
                t.cx.tcause = tcauseOf n true s.cx.priv
              ∧ t.cx.tval = tv ∧ t.cx.fault = s.cx.fault))))

/-- The firmware's decision on a held context (13 R222): resolved, it runs again where it stood, and its
held access is translated anew; ended, its task ends with reason 8. A `TLBINV` is over when the accesses it
waits for have performed and the copy segments then in hand are written (13 R230; which these are is the model's
choice, log entry 46). An interrupt leaves the context running at its address, with the
registers its task declared (03 R34, R35; 13 R216); that the firmware does nothing else in between is the model's
choice (log entry 20).

The banks' steps (13 R224, R225, R227; 14 R242; 16 R261): a held or empty running bank gives way to a
ready one; a bank that does not run is spilled once its withdrawals are answered and the shuttle command it started
is complete, and is empty with its context saved when the spill is over; an empty bank is filled, and is ready, or
held while a fault is not resolved; a save area that does not translate goes to the emergency area and sets occ. A filled bank holds the registers of its area, where software has
left the reserved words as they were (R226), and the flags that its commands raised meanwhile (08 R184). When
a spill or a fill starts, when a switch is made, and that a marked table line is answered as a page that does not
translate, are the model's choices (log entries 44, 45, 69). -/
def Obligations.FaultsAndBanks : Prop :=
  (∀ (s : State),
      (s.cxSt = .held → s.cx.fault.isSome = true → s.cx.stop = none →
        (∃ t, exec (.faultResolve false) s = .next t ∧ t.cxSt = .running ∧ t.cx.fault = none
          ∧ t.cx.pc = s.cx.pc ∧ t.mem = s.mem ∧ (∀ r, t.cx.replay = some r → r.result = .running))
        ∧ (∃ t, exec (.faultResolve true) s = .next t ∧ (s.shSt ≠ .ready → t.cxSt = .empty)
          ∧ (s.shSt = .ready → t.cxSt = .running ∧ t.cx.uid = s.sh.uid)
          ∧ ∀ n ∈ s.sched.nodes, n.gen = s.cx.task.node → n.st ≠ 4 → n.st ≠ 5 →
            { n with ended := n.ended + 1, failed := some (n.failed.getD 8) } ∈ t.sched.nodes))
      ∧ (¬ (s.cxSt = .held ∧ s.cx.fault.isSome = true ∧ s.cx.stop = none) →
        (s.shSt = .held → s.sh.fault.isSome = true → s.sh.stop = none →
          exec (.faultResolve false) s = .next { s with sh := s.sh.resumed, shSt := .ready }
          ∧ ∃ t, exec (.faultResolve true) s = .next t ∧ t.shSt = .empty ∧ t.cx.uid = s.cx.uid)
        ∧ (¬ (s.shSt = .held ∧ s.sh.fault.isSome = true ∧ s.sh.stop = none) →
          ∀ va c, s.core.saved.find? (fun e => e.2.fault.isSome) = some (va, c) → ∀ k, ∃ t,
            exec (.faultResolve k) s = .next t
            ∧ (k = true → ∀ e ∈ t.core.saved, e.1 ≠ va) ∧ (k = false → (va, c.resumed) ∈ t.core.saved)))
      ∧ (∀ ids, s.cx.tlbWait = some ids →
        (s.depsDone ids = true → (∀ x ∈ s.openSegs, x ∉ s.cx.tlbSegs) →
          exec .tlbinvComplete s = .next { s with cx := { s.cx with tlbWait := none, tlbSegs := [] } })
        ∧ ((s.depsDone ids = false ∨ ∃ x ∈ s.openSegs, x ∈ s.cx.tlbSegs) → exec .tlbinvComplete s = .next s))
      ∧ (s.live = true → ∃ t, exec .interrupt s = .next t ∧ t.cxSt = s.cxSt ∧ t.cx.pc = s.cx.pc
        ∧ t.mem = s.mem ∧ t.cx.captured = false
        ∧ ∀ k : Fin 64, savedReg s.cx.task.regsN k.val = true →
            (t.cx.regs[k]).val = (s.drain.cx.regs[k]).val ∧ (t.cx.regs[k]).taint = [])
      ∧ (s.live = true → s.mustWait = false →
        let t := s.enterBundle ((s.runAt 7 s.cx.pc).filterMap (fun x => x))
        ∀ q, t.issueTrap = some q → exec .trapDelivery s = .next (t.trapIssue q).finish))
  ∧ (∀ (s : State) (va : Nat) (c : Ctx),
      let idle := s.core.spilling = none ∧ s.core.filling = none
      let finished := fun (c : Ctx) => ∀ m ∈ s.core.shq, m.owner = c.uid → m.started = false
      (s.cx.stop = none → s.host.off = false → (s.cxSt = .held ∨ s.cxSt = .empty) → s.shSt = .ready →
        ∃ t, exec .contextSwitch s = .next t ∧ t.cxSt = .running ∧ t.shSt = s.cxSt ∧ t.bank = !s.bank
          ∧ t.cx.uid = s.sh.uid ∧ t.sh.uid = s.cx.uid ∧ t.mem = s.mem)
      ∧ (idle → s.emergOcc = false → (s.shSt = .ready ∨ s.shSt = .held) → s.answered s.sh = true →
        finished s.sh → exec .spill s = .next { s with
          shSt := .spilling, core := { s.core with spilling := some (s.cyc + s.sh.spillCycles) } })
      ∧ (idle → s.emergOcc = false → s.maySpill s.shSt s.sh = false →
        (s.cxSt = .ready ∨ s.cxSt = .held) → s.answered s.cx = true → finished s.cx → exec .spill s = .next { s with
          cxSt := .spilling, core := { s.core with spilling := some (s.cyc + s.cx.spillCycles) } })
      ∧ (∀ o, s.spillBank = some (c, o) → s.spillDue = true →
        let done := fun (t : State) => t.core.spilling = none
          ∧ (∃ n, (c.ctxsave.toNat, { c with areaFv := n, flags := 0, lotflags := 0 }) ∈ t.core.saved)
          ∧ (o = false → t.shSt = .empty ∧ t.cx = s.cx) ∧ (o = true → t.cxSt = .empty ∧ t.sh = s.sh)
        ((s.spillAttempt c o).2 = none → ∃ t, exec .spillComplete s = .next t ∧ done t
          ∧ t.core.emerg = s.core.emerg)
        ∧ (∀ x, (s.spillAttempt c o).2 = some x → ∃ t, exec .emergencySpill s = .next t ∧ done t
          ∧ t.core.emerg.getLsbD 0 = true
          ∧ (x = .page → t.core.emergFault = some { cause := 16, addr := c.ctxsave })))
      ∧ (idle → s.core.saved.find? (fun e => e.1 == va) = some (va, c) → s.inEmergency va = false →
        s.answered c = true → (∀ e ∈ s.sched.evicted, e.grant.launch ≠ c.task.launch) →
        (s.shSt = .empty ∨ s.cxSt = .empty) → ∃ t, exec (.fill va) s = .next t
          ∧ (s.shSt = .empty → t.shSt = .filling ∧ t.sh = c ∧ t.cx = s.cx)
          ∧ (s.shSt ≠ .empty → t.cxSt = .filling ∧ t.cx = c ∧ t.sh = s.sh)
          ∧ t.core.filling = some (s.cyc + c.spillCycles) ∧ t.mem = s.mem ∧ ∀ e ∈ t.core.saved, e.1 ≠ va)
      ∧ (∀ n, s.core.filling = some n → n ≤ s.cyc →
        (∃ t, exec .fillComplete s = .next t ∧ t.core.filling = none)
        ∧ (s.shSt = .filling →
          let area := ({ s with core := { s.core with filling := none } } : State).readArea s.sh s.sh.areaOffsets
          let w := areaWordAt area.2.1
          (area.2.2.2 = none → area.2.2.1 = false → (w 32).getLsbD 1 = false →
            ((s.sh.fault = none ∨ (w 32).getLsbD 0 = true) → s.sh.stop = none → ∃ t,
              exec .fillComplete s = .next t ∧ t.shSt = .ready ∧ t.sh.fault = none ∧ t.cx = s.cx
              ∧ t.sh.captured = true ∧ (s.sh.areaKept w = true → t.sh.flags = (w 0x258).extractLsb' 0 6 ||| s.sh.flags
                ∧ ∀ k : Fin 64, savedReg s.sh.task.regsN k.val = true →
                  (t.sh.regs[k]).val = w (0x40 + 8 * (k.val - 1))))
            ∧ (((s.sh.fault.isSome = true ∧ (w 32).getLsbD 0 = false) ∨ s.sh.stop.isSome = true) →
              ∃ t, exec .fillComplete s = .next t ∧ t.shSt = .held ∧ t.sh.fault = s.sh.fault ∧ t.cx = s.cx))
          ∧ (area.2.2.2 = none → area.2.2.1 = false → (w 32).getLsbD 1 = true →
            ∃ t, exec .fillComplete s = .next t ∧ t.shSt = .empty)
          ∧ (area.2.2.2 = none → area.2.2.1 = true → ∃ t, exec .fillComplete s = .next t ∧ t.shSt = .empty
            ∧ t.core.fillFault = some { cause := 18, reason := 1, addr := s.sh.ctxsave })
          ∧ (area.2.2.2 = some .page → ∃ t, exec .fillComplete s = .next t ∧ t.shSt = .empty
            ∧ (s.sh.ctxsave.toNat, s.sh) ∈ t.core.saved ∧ t.cx = s.cx))))

/-! ### The pricking -/

/-- Posts and nodes (14 R231 to R235, R250; 21 R317): a mailbox word takes a post when it is empty, with the address
space, table root, privilege and level that are the model's choice (log entry 25); the
pricking discards a second post of an unfinished node and counts it, finishes a misaligned or unreadable
one with reason 1, and else makes a node; the loader's outcome is kept (what it makes of an image of Chroner records is
the model's form of the finalizer, log entry 24), makes a node without predecessors
ready, or ends it; a node finishes when its tasks have ended, with the reason of a failed one. -/
def Obligations.PostsAndNodes : Prop :=
  ∀ (s : State) (i addr gen : Nat) (n : Node), s.firmware = true →
    let l := s.mailLoc i
    (s.full l = false → ∃ t, exec (.mailboxWrite i addr) s = .next t ∧ t.word l = mkWord addr
      ∧ t.full l = true ∧ t.cx = s.cx
      ∧ t.sched.posts.filter (·.entered) = s.enterPosts.sched.posts.filter (·.entered) ++
        [{ addr := addr, priv := true, level := 3, asid := s.sched.jobAsid
           ptbase := Config.tableRoot s.sched.jobAsid, mail := some i, entered := true }])
    ∧ (s.full l = true → exec (.mailboxWrite i addr) s = .next s)
    ∧ (∀ p : Post, s.enterPosts.sched.posts.find? (·.entered) = some p → ∃ t, exec .postTake s = .next t
      ∧ t.sched.posts = s.enterPosts.sched.posts.erase p ∧ t.cx = s.cx
      ∧ ((s.nodeAt p.addr).any (fun n => !n.finished) = true →
        t.sched.nodes = s.sched.nodes ∧ t.sched.postdup = (s.sched.postdup + 1) % 2 ^ 64 ∧ t.mem = s.mem
        ∧ ∀ j, p.mail = some j → t.full (s.mailLoc j) = false)
      ∧ ((s.nodeAt p.addr).any (fun n => !n.finished) = false → t.sched.gens = s.sched.gens + 1
        ∧ (∃ m ∈ t.sched.nodes, m.addr = p.addr ∧ m.gen = s.sched.gens + 1)
        ∧ (p.addr % 64 ≠ 0 → p.requeue = none → t.sched.nodes.head? = some
          { addr := p.addr, gen := s.sched.gens + 1, asid := p.asid, ptbase := p.ptbase, st := 5, reason := 1 })))
    ∧ (s.nodeOf gen = some n →
      (n.kind = 0 → n.loaded = false → n.load = none → n.finished = false →
        (∀ m ∈ s.sched.images, ¬ (m.addr = n.code ∧ m.asid = n.asid)) →
        ∃ t, exec (.imageLoad gen) s = .next t ∧ (match (s.tryImage n).1 with
          | .inl r => t.nodeOf gen = some { n with load := some r, image := none }
              ∧ t.sched.images = s.sched.images
          | .inr im => t.nodeOf gen = some { n with load := some 0, image := some im.id }
              ∧ t.sched.images = im :: s.sched.images))
      ∧ (n.loaded = false → n.finished = false →
        (n.load = some 0 → n.st = 1 → n.preds = 0 → ∃ t, exec (.imageLoadComplete gen) s = .next t
          ∧ t.nodeOf gen = some { n with loaded := true, st := 2, readyAt := s.cyc })
        ∧ (n.load = some 0 → (n.st ≠ 1 ∨ n.preds ≠ 0) → ∃ t, exec (.imageLoadComplete gen) s = .next t
          ∧ t.nodeOf gen = some { n with loaded := true })
        ∧ (∀ r, n.load = some r → r ≠ 0 → ∃ t, exec (.imageLoadComplete gen) s = .next t
          ∧ t.nodeOf gen = some { n with st := 5, reason := r }))
      ∧ (n.st = 3 → (∀ p ∈ s.sched.posts, p.requeue ≠ some gen) →
        (n.failed = none → n.total ≤ n.ended → ∃ t, exec (.nodeFinish gen) s = .next t
          ∧ t.nodeOf gen = some { n with st := 4, reason := 0 })
        ∧ (∀ r, n.failed = some r → n.next ≤ n.ended → ∃ t,
          exec (.nodeFinish gen) s = .next t ∧ t.nodeOf gen = some { n with st := 5, reason := r })
        ∧ (n.failed = none → n.ended < n.total → exec (.nodeFinish gen) s = .next s)))

/-- Placement (14 R236 to R238; 05 R74; 06 R96, R97; 13 R224): a report of another core is kept, and tells by the
model's choice which of its tasks have ended (log entry 52), whose core partitions are free then; the first node of the order whose next task fits is given
its core, and on the core followed its context stands ready with its arguments, its tile coordinates and its
partitions in s2 to s5, the core partition reading zero with full tags; it issues 40 cycles later; a ready node that
has waited too long becomes a claimant.

Eviction and restoration of a partition (06 R98): it is saved whole, and its memory zeroed by the model's choice (log
entry 112), and put back as it was; nothing outside it changes. -/
def Obligations.PlacementAndPartitions : Prop :=
  (∀ (s : State) (n o : Node) (im : Image) (core gen : Nat) (r : CoreReport),
      let own := core = s.coreid ∧ s.core.control = false
      let u := s.noteClaimants
      (∃ t, exec (.resourceReport core r) s = .next t
        ∧ t.sched.reports = (core, if own then s.ownReport else r) :: s.sched.reports.filter (fun e => e.1 != core)
        ∧ (own → t.sched.placed = s.sched.placed ∧ t.sched.grants = s.sched.grants)
        ∧ (¬ own →
          (let there := s.sched.placed.filter (fun x => x.core == core)
           t.sched.placed = s.sched.placed.filter (fun x => x.core != core)
            ++ (if r.free then [] else if r.ended then there.dropLast else there))
          ∧ (r.free = false → r.ended = false → t.sched.grants = s.sched.grants)
          ∧ (let there := s.sched.placed.filter (fun x => x.core == core)
             let gone := if r.free then there else if r.ended then there.getLast?.toList else []
             ∀ g ∈ s.sched.grants, g.quad = false → (g ∈ t.sched.grants ↔ ¬ ∃ p ∈ gone,
              g.unit = p.core ∧ g.launch = p.launch ∧ g.base = p.base ∧ g.size = p.size))))
      ∧ (s.firmware = true → u.placeOrder.findSome? u.placementOf = none → exec .taskPlacement s = .next u)
      ∧ (s.firmware = true → u.placeOrder.findSome? u.placementOf = some (.task n im core) →
        ∃ t, exec .taskPlacement s = .next t
          ∧ (∃ m ∈ t.sched.nodes, m.gen = n.gen ∧ m.st = 3 ∧ m.next = n.next + 1 ∧ m.claimant = false)
          ∧ t.sh = s.sh
          ∧ (own → t.cxSt = .ready ∧ t.cx.task.node = n.gen
            ∧ t.cx.pc = t.cx.codeOrigin ∧ t.cx.regs[1] = { val := mkWord n.args } ∧ t.cx.priv = false
            ∧ t.cx.tcx = mkWord (n.next % n.gx) ∧ t.cx.tcy = mkWord (n.next / n.gx % n.gy)
            ∧ t.cx.tcz = mkWord (n.next / (n.gx * n.gy))
            ∧ (let size := granules false im.scratch * 2 ^ 16
               ∃ g ∈ t.sched.grants, g.quad = false ∧ g.unit = core ∧ g.launch = n.gen ∧ g.size = size
                ∧ t.cx.regs[2] = { val := if size = 0 then 0 else mkWord (0x10 * 2 ^ 52 + g.base) }
                ∧ t.cx.regs[3] = { val := mkWord size }
                ∧ ∀ a, coreLoc s.pkgid core g.base ≤ a → a < coreLoc s.pkgid core g.base + size →
                    t.byte a = 0 ∧ t.full a = true)
            ∧ (granules true im.quadscratch = 0 → t.cx.regs[4] = { val := 0 } ∧ t.cx.regs[5] = { val := 0 })
            ∧ (granules true im.quadscratch ≠ 0 → ∃ g ∈ t.sched.grants, g.quad = true ∧ g.unit = core / 4
                ∧ g.launch = n.gen ∧ t.cx.regs[5] = { val := mkWord g.size }
                ∧ t.cx.regs[4] = { val := if g.size = 0 then 0 else mkWord (0x11 * 2 ^ 52 + g.base) }))
          ∧ (¬ own → t.cx = s.cx ∧ ∃ x, t.sched.placed = s.sched.placed ++ [x]
            ∧ x.core = core ∧ x.level = n.prio ∧ x.at_ = s.cyc ∧ x.launch = n.gen))
      ∧ (s.firmware = true → u.placeOrder.findSome? u.placementOf = some (.copy n) →
        ∃ t, exec .taskPlacement s = .next t ∧ t.cx = s.cx ∧ t.sched.placed = s.sched.placed)
      ∧ (s.cxSt = .ready → s.cx.captured = false → s.cx.uid ≠ 0 → s.cx.task.placed + 40 ≤ s.cyc →
        s.host.off = false → ∃ t, exec .taskStart s = .next t ∧ t.cxSt = .running ∧ t.cx.pc = s.cx.pc
          ∧ t.cx.regs = s.cx.regs ∧ t.mem = s.mem ∧ t.sh = s.sh)
      ∧ (s.firmware = true → s.nodeOf gen = some n →
        s.oldest (fun m => m.placing && m.prio == n.prio) = some o → n.st = 2 → n.next = 0 → o.gen ≠ gen →
        n.readyAt + 2 * s.lifetime o ≤ s.cyc → ∃ t, exec (.claimant gen) s = .next t
          ∧ t.nodeOf gen = some { n with claimant := true } ∧ t.cx = s.cx))
  ∧ (∀ (s : State) (g : Grant) (e : Evicted) (quad : Bool), s.firmware = true →
      let lo := s.grantLoc g
      let inside := fun (x : Nat) => decide (lo ≤ x) && decide (x < lo + g.size)
      (∀ c : Ctx, s.evictable = some c → s.engaged c = false →
        s.sched.grants.find? (fun g => g.quad == quad && g.launch == c.task.launch && g.size != 0
          && (if quad then g.unit == s.coreid / 4 && g.base == c.task.quadBase
              else g.unit == s.coreid && g.base == c.task.coreBase) && decide (g.tasks ≤ 1)) = some g →
        ∃ t, exec (.partitionEviction quad) s = .next t ∧ t.cx = s.cx
          ∧ t.shSt = (if s.shSt = .ready then .held else s.shSt)
          ∧ t.sched.evicted = { grant := g, bytes := s.mem.filter (fun x => inside x.1)
                                empties := s.empties.filter (fun w => inside (8 * w))
                                marks := s.marks.filter (fun l => inside (64 * l)) } :: s.sched.evicted
          ∧ t.sched.grants = s.sched.grants.erase g
          ∧ ∀ a, t.byte a = if lo ≤ a ∧ a < lo + g.size then 0 else s.byte a)
      ∧ (s.sched.evicted.find? (fun e => e.grant.quad == quad) = some e →
        (∀ h ∈ s.sched.grants, h.quad = quad → h.unit = e.grant.unit →
          h.base + h.size ≤ e.grant.base ∨ e.grant.base + e.grant.size ≤ h.base) →
        Memory.wf e.bytes = true →
        let lo := s.grantLoc e.grant
        (∀ x ∈ e.bytes, lo ≤ x.1 ∧ x.1 < lo + e.grant.size) →
        ∃ t, exec (.partitionRestore quad) s = .next t ∧ t.cx = s.cx
          ∧ t.sched.grants = e.grant :: s.sched.grants
          ∧ t.sched.evicted = s.sched.evicted.erase e
          ∧ ∀ a, t.byte a = if lo ≤ a ∧ a < lo + e.grant.size then getCell e.bytes a else s.byte a))

/-- The end of a task (05 R94; 14 R233, R235, R242): with nothing outstanding an `END` that waits ends its
task, with reason 3 for a batch error never observed, and empties the bank; a task of another core is
counted, when it ends being the model's choice (log entry 52).

Pre-emption (14 R239 to R243): the victim's core gets the pre-empting context in its empty bank and a
request, which opens the window; when it closes, the switch is forced and the victim is captured, one that a debugger
has stopped staying held (20 R305); a request is withdrawn when the task fits elsewhere, on another core by the
model's choice (log entry 59); the next image is prefetched. -/
def Obligations.TaskEndsAndPreemption : Prop :=
  (∀ (s : State) (node reason : Nat) (n : Node),
      let counted := fun (t : State) (r : Option Nat) => ∀ m ∈ s.sched.nodes, m.gen = node → m.st ≠ 4 → m.st ≠ 5 →
        { m with ended := m.ended + 1, failed := m.failed.or r } ∈ t.sched.nodes
      (s.live = true → s.cx.ending = true → s.cx.task.node = node → s.cx.cmds = [] → s.cx.streams = [] →
        s.cx.accs = [] → s.cx.replay = none → (∀ l ∈ s.core.lines, l.owner ≠ s.cx.uid) →
        (∀ p ∈ s.fab.pkts, p.owner = s.cx.uid → p.counted = false) →
        ∃ t, exec (.taskEnd node reason) s = .next t ∧ t.mem = s.mem
          ∧ counted t (if s.cx.settleBatches.unobserved then some 3 else none)
          ∧ (s.shSt ≠ .ready → t.cxSt = .empty ∧ t.cx = Ctx.fresh)
          ∧ (s.shSt = .ready → t.cxSt = .running ∧ t.cx.uid = s.sh.uid ∧ t.shSt = .empty ∧ t.sh = Ctx.fresh))
      ∧ (¬ (s.cx.ending = true ∧ s.cx.task.node = node ∧ s.live = true) → s.nodeOf node = some n → n.st = 3 →
          n.ended + s.ownTasks node < n.next →
        ∃ t, exec (.taskEnd node reason) s = .next t ∧ t.cx = s.cx ∧ t.mem = s.mem
          ∧ counted t (if reason = 0 then none else some reason)))
  ∧ (∀ (s : State) (n : Node) (im : Image) (a e core : Nat),
      (s.firmware = true → s.noteClaimants.preemption = some (n, im, core) → ∃ t, exec .victimChoice s = .next t
        ∧ t.cx = s.cx ∧ t.cxSt = s.cxSt
        ∧ (core = s.coreid ∧ s.core.control = false → t.shSt = .ready ∧ t.sh.task.node = n.gen
          ∧ t.sh.pc = t.sh.codeOrigin ∧ t.sched.victim = some s.cx.uid)
        ∧ (¬ (core = s.coreid ∧ s.core.control = false) → t.sh = s.sh
          ∧ ∃ x, t.sched.placed = s.sched.placed ++ [x]
            ∧ x.core = core ∧ x.level = n.prio ∧ x.at_ = s.cyc ∧ x.launch = n.gen))
      ∧ (s.sched.victim = some s.cx.uid → s.cxSt = .running → exec .yieldRequest s = .next
        { s with
          sched := { s.sched with victim := none }
          core := { s.core with yieldReq := some (s.cyc, s.cyc + s.cx.task.yieldwin) } })
      ∧ (s.core.yieldReq = some (a, e) → s.cxSt = .running → s.host.off = false →
        (e < s.cyc → s.yieldHeld = false → s.shSt = .ready → ∃ t, exec .yieldWindowExpiry s = .next t ∧
            t.cxSt = .running
          ∧ t.shSt = .ready ∧ t.cx.uid = s.sh.uid ∧ t.sh.uid = s.cx.uid ∧ t.sh.captured = true
          ∧ t.core.yieldReq = none ∧ t.bank = !s.bank ∧ t.sh.pc = s.cx.pc)
        ∧ (s.cyc ≤ e → exec .yieldWindowExpiry s = .next s))
      ∧ (s.core.yieldReq = some (a, e) → s.cxSt = .held → s.cx.stop.isSome = true → s.host.off = false →
        e < s.cyc → s.yieldHeld = false → s.shSt = .ready → ∃ t, exec .yieldWindowExpiry s = .next t
          ∧ t.cxSt = .running ∧ t.shSt = .held ∧ t.cx.uid = s.sh.uid ∧ t.sh.uid = s.cx.uid ∧ t.core.yieldReq = none)
      ∧ (s.firmware = true → s.shSt = .ready → s.sh.captured = false → s.yieldHeld = false →
        (s.core.yieldReq = some (a, e) ∨ s.sched.victim = some a) →
        s.nodeOf s.sh.task.node = some n → s.imageOf n = some im → s.fitCore n im (some s.coreid) = some core →
        ∃ t, exec .yieldRequestWithdraw s = .next t ∧ t.shSt = .empty ∧ t.sh = Ctx.fresh ∧ t.cxSt = s.cxSt
          ∧ t.core.yieldReq = none ∧ t.sched.victim = none)
      ∧ (s.firmware = true → s.cxSt = .running →
        [3, 2, 1, 0].findSome? (fun l =>
          s.oldest (fun n => n.placing && n.kind == 0 && n.next == 0 && n.prio == l)) = some n →
        exec .prefetch s = .next { s with core := { s.core with way5 := some n.code } }))

/-! ### The fabric -/

/-- Arbitration (16 R263, R264): of the packets queued for an output, requests or replies alone (which of the two
has credit where both wait is the model's choice, log entry 22), the one that wins against every other leaves, and the
others have lost once more; a packet that lost 63 times wins against one that did not, and else the one with less
slack wins.

Packets at their target (16 R255, R256, R259, R261): the next of its sequence is accepted; a line
write there performs if its words are granted to the launch, and else performs nothing and is answered
with an error, a group write at one member after another by the model's choice (log entry 64); an answer returns to
the context, counted once if it is marked (R264); a withdrawal takes back the packet that it names unless that has
performed, which takes a new number when it leaves again, by the model's choice (log entry 63). -/
def Obligations.PacketsTravel : Prop :=
  (∀ (s : State) (port now : Nat) (w p q : Packet),
      let u := s.reissue.routeAll
      let cand := fun (x : Packet) => x.stage = .queued ∧ x.port = some port ∧ u.pktHeld x = false
      ((u.fab.pkts.map (·.id)).Nodup → w ∈ u.fab.pkts → cand w →
        ((∀ x ∈ u.fab.pkts, cand x → x.vc < 5) ∨ ∀ x ∈ u.fab.pkts, cand x → 5 ≤ x.vc) →
        (∀ x ∈ u.fab.pkts, cand x → x.id ≠ w.id → w.wins s.ftime x = true) →
        ∃ t, exec (.arbitration port) s = .next t ∧ Quiet s t
          ∧ { w.charge s.ftime with stage := .flight, lost := 0, left := s.ftime } ∈ t.fab.pkts
          ∧ ∀ x ∈ u.fab.pkts, x.id ≠ w.id →
              (cand x → { x with lost := x.lost + 1 } ∈ t.fab.pkts) ∧ (¬ cand x → x ∈ t.fab.pkts))
      ∧ ((∀ x ∈ u.fab.pkts, ¬ cand x) → exec (.arbitration port) s = .next u)
      ∧ (63 ≤ p.lost → q.lost < 63 → p.wins now q = true ∧ q.wins now p = false)
      ∧ (p.lost < 63 → q.lost < 63 → p.slackNow now < q.slackNow now →
        p.wins now q = true ∧ q.wins now p = false))
  ∧ (∀ (s : State) (id : Nat) (p : Packet), s.reissue.pktOf id = some p → s.reissue.arrived p = true →
      let u := s.reissue
      (p.dup = true → exec (.reorderAccept id) s = .next (u.dropPkt id))
      ∧ (p.dup = false → p.kind.numbered = true →
        (u.isNext p = true ∨ (u.fab.pkts.filter (fun q => q.stage == .accepted)).length < 4096) →
        ∃ t, exec (.reorderAccept id) s = .next t ∧ Quiet s t
          ∧ ∃ x ∈ t.fab.pkts, x.id = p.id ∧ x.stage = .accepted ∧ x.kind = p.kind ∧ x.seq = p.seq)
      ∧ (p.dup = false → p.kind.isMsg = true → ∃ t, exec (.reorderAccept id) s = .next t ∧ Quiet s t
          ∧ ((∀ x ∈ t.fab.pkts, x.id ≠ id) ∨ ∃ x ∈ t.fab.pkts, x.id = id ∧ x.stage = .performed ∧ x.error = true)))
  ∧ (∀ (s : State) (id : Nat) (p : Packet) (a : Acc), s.pktOf id = some p →
      let becomes := fun (t : State) (st : PktStage) => ∃ x ∈ t.fab.pkts, x.id = p.id ∧ x.stage = st
        ∧ x.kind = p.kind ∧ x.seq = p.seq
      (s.live = true → s.cx.withdrawn = [] → s.fab.pkts = [p] → p.stage = .withdrawn → p.owner = s.cx.uid →
        p.kind.numbered = true → s.reissue.fab.pkts
          = [{ p with seq := (nextSeq (s.destOf p.rank * 16 + p.cls) s.fab.sendSeq).1, stage := .queued
                      entry := s.ftime, stuck := s.ftime, port := none, lost := 0 }])
      ∧ (∀ bytes, p.kind = .line bytes → p.stage = .accepted → s.isNext p = true → p.targets ≠ [] →
        ∃ t x, exec (.remotePerform id) s = .next t ∧ x ∈ t.fab.pkts ∧ x.id = p.id ∧ t.cx = s.cx
          ∧ x.targets.length + 1 = p.targets.length ∧ (x.stage = .performed ↔ x.targets = []))
      ∧ (∀ bytes, p.kind = .line bytes → p.stage = .accepted → s.isNext p = true → p.targets = [s.pkgid] →
        let loc := pkgBase s.pkgid + p.loc
        (∀ l, loc ≤ l → l < loc + bytes.length → Unnoted s p.actor l) →
        let task := ((s.ctxOf p.owner).map (·.task)).getD {}
        let granted := s.sched.grants.any
          (fun g => g.coversLoc s.pkgid task.launch loc && g.reaches task s.coreid)
        ∃ t, exec (.remotePerform id) s = .next t ∧ becomes t .performed ∧ t.cx = s.cx
          ∧ t.mem = (if granted then (s.setMasked loc bytes).mem else s.mem) ∧ t.empties = s.empties
          ∧ ∃ x ∈ t.fab.pkts, x.id = p.id ∧ x.error = (p.error || !granted))
      ∧ (p.stage = .performed → (∀ m, p.kind ≠ .coll m) →
        (p.kind.acked = true → ∃ t, exec (.ackReturn id) s = .next t ∧ t.mem = s.mem ∧ ∀ x ∈ t.fab.pkts, x.id ≠ id)
        ∧ (p.kind.acked = false → ∃ t, exec (.remoteReply id) s = .next t ∧ t.mem = s.mem
          ∧ ∀ x ∈ t.fab.pkts, x.id ≠ id))
      ∧ (p.kind = .access a → p.stage = .performed → p.owner = s.cx.uid → s.loops p = true →
        let gone := s.cx.accs.filter (fun x => x.id != a.id)
        let done := fun (t : State) => t.mem = s.mem ∧ t.empties = s.empties ∧ t.cx.accs = gone
          ∧ (∀ x ∈ t.fab.pkts, x.id ≠ id)
          ∧ ∀ k : Fin 16, k.val = p.cls % 16 →
              (p.marked = true → t.core.slkexh[k] = (s.core.slkexh[k] + 1) % 2 ^ 64
                ∧ t.cx.lotflags.getLsbD k.val = true)
              ∧ (p.marked = false → t.core.slkexh = s.core.slkexh ∧ t.cx.lotflags = s.cx.lotflags)
        (a.kind.needsLq = false → ∃ t, exec (.ackReturn id) s = .next t ∧ done t ∧ t.cx.lq = s.cx.lq)
        ∧ (a.kind.needsLq = true → ∀ r, p.answer = some r → ∃ t, exec (.remoteReply id) s = .next t ∧ done t
          ∧ t.cx.lq = s.cx.lq.map (fun e => if a.lq = some e.id then
              { e with data := some { r with taint := if a.ldc then [a.id] else [] } } else e)))
      ∧ (∀ n q, p.kind = .withdraw n → s.arrived p = true → s.pktOf n = some q → n ≠ id →
        (q.stage.unperformed = true → q.kind.numbered = true →
          ∃ t, exec (.withdrawalArrival id) s = .next t ∧ Quiet s t
            ∧ { q with stage := .withdrawn } ∈ t.fab.pkts ∧ becomes t .performed)
        ∧ (q.stage = .performed → ∃ t, exec (.withdrawalArrival id) s = .next t ∧ Quiet s t
            ∧ q ∈ t.fab.pkts ∧ becomes t .performed)))

/-- The fabric's tables and links (16 R253, R254, R257, R266, R267): a combining line leaves after 64 cycles; a dead
link gives its packets back to the router, those of its last 2,000 ns by the model's choice (log entry 80); a route
entry holds at most four alternatives; bits 31:22 of a rank's entry are reserved, and the package reads its own rank of
the table (02 R11), the lowest that names it by the model's choice (log entry 89); a packet without a route for 1 ms is
dropped with an error, its wait charged (R263), and its rank marked failed; and a migration under hold, once the
package is quiet in the model's sense (log entry 65), moves every byte to the new package. That a port asks for a table
to be written is the model's choice (log entry 28). -/
def Obligations.LinksRanksAndMigration : Prop :=
  ∀ (s : State) (k port dest rank id pkg : Nat) (alts : List (Nat × Nat)) (entry : Word)
    (members : List Nat) (l : Line) (p : Packet) (u : State),
    (s.core.lines[k]? = some l → l.opened + 64 ≤ s.cyc → (s.rankEntry l.rank).getLsbD 20 = false →
      ∃ t, exec (.combineLineExpiry k) s = .next t ∧ Quiet s t ∧ l ∉ t.core.lines
        ∧ ∃ x ∈ t.fab.pkts, x.kind = .line l.bytes ∧ x.rank = l.rank ∧ x.loc = l.addr ∧ x.cls = l.cls
          ∧ x.ids = l.ids ∧ x.stage = .queued)
    ∧ (s.core.lines[k]? = some l → s.cyc < l.opened + 64 → exec (.combineLineExpiry k) s = .next s)
    ∧ (∃ v : State, exec (.linkDown port) s = .next v.routeAll ∧ Quiet s v.routeAll ∧ port ∈ v.fab.down
      ∧ ∀ x ∈ s.fab.pkts,
        (x.port ≠ some port → x ∈ v.fab.pkts)
        ∧ (x.port = some port → x.stage = .queued →
          { x with port := none, lost := 0, stuck := s.ftime } ∈ v.fab.pkts)
        ∧ (x.port = some port → x.dup = false → s.ftime < x.left + 2000 →
          (x.stage = .flight →
            { x with stage := .queued, port := none, lost := 0, entry := s.ftime, stuck := s.ftime } ∈ v.fab.pkts)
          ∧ (x.stage = .accepted ∨ x.stage = .performed → x ∈ v.fab.pkts
            ∧ ∃ y ∈ v.fab.pkts, y.dup = true ∧ y.kind = x.kind ∧ y.seq = x.seq ∧ y.stage = .queued)))
    ∧ (Asked s u → ∃ t, exec (.routeTableLoad dest alts) s = .next t ∧ Quiet s t
      ∧ t.fab.routes.find? (fun e => e.1 == dest) = some (dest, alts.take 4)
      ∧ ∀ d, d ≠ dest → t.fab.routes.find? (fun e => e.1 == d) = s.fab.routes.find? (fun e => e.1 == d))
    ∧ (Turned s u → exec (.routeTableLoad dest alts) s = .next u ∧
        exec (.rankTableWrite rank entry members) s = .next u)
    ∧ (Asked s u → ∃ t, exec (.rankTableWrite rank entry members) s = .next t ∧ t.cx = s.cx
      ∧ t.rankEntry rank = entry &&& 0xFFFFFFFF003FFFFF ∧ (∀ r, r ≠ rank → t.rankEntry r = s.rankEntry r)
      ∧ (entry.toNat / 2 ^ 14 % 4 = 1 → entry.toNat % 2 ^ 14 = s.pkgid → t.rank ≤ rank)
      ∧ ((s.rankEntry rank).getLsbD 20 = false → Quiet s t))
    ∧ (s.pktOf id = some p → p.stage = .queued → s.loops p = false → s.pktHeld p = false → s.usablePorts p = [] →
      (p.stuck + 1000000 ≤ s.ftime →
        (p.dup = true → exec (.noRouteDrop id) s = .next (s.dropPkt id))
        ∧ (p.dup = false → ∃ t x, exec (.noRouteDrop id) s = .next t ∧ Quiet s t
          ∧ x ∈ t.fab.pkts ∧ x.id = p.id ∧ x.stage = .performed ∧ x.error = true
          ∧ x.slack = p.slackNow s.ftime ∧ (p.slack ≠ 0 → x.slack = 0 → x.marked = true)
          ∧ (t.rankEntry p.rank).getLsbD 21 = true
          ∧ ∀ a : Acc, p.kind = .access a → a.kind.needsLq = true → ∃ r, x.answer = some r ∧ r.poison = true))
      ∧ (s.ftime < p.stuck + 1000000 → exec (.noRouteDrop id) s = .next s))
    ∧ (MemOk s → (s.rankEntry s.rank).getLsbD 20 = true → s.quiet = true → pkg ≠ s.pkgid → pkg < 2 ^ 14 →
      ∃ t, exec (.migration pkg) s = .next t ∧ t.pkgid = pkg ∧ t.cx = s.cx ∧ MemOk t
        ∧ ∀ o < 2 ^ 43, t.byte (pkg * 2 ^ 43 + o) = s.byte (s.pkgid * 2 ^ 43 + o))
    ∧ ((s.rankEntry s.rank).getLsbD 20 = false → exec (.migration pkg) s = .next s)

/-! ### Collectives -/

/-- Posts, tickets and admission (17 R271, R272, R276 to R279, R300): a post takes a table entry of 64 with its
timeout, or ends with INVAL, and with its buffers pinned it leaves for its hoop, or is held there in the same ns, which
waits for none of the earlier accesses, by the model's reading, the admission alone waiting for them (log entry 40);
the hoop collects the posts of a number, refuses a stale one and one at odds with the first, and tickets it when
every member has posted, one ticket in each ns; a held ticket ranks against the admitted one, and the lowest is
admitted 2,000 ns after its issue. Tickets that fall due are issued first (`issueDue`), and the commands behind a
post pass on after it (`pumpX`). -/
def Obligations.PostsTicketsAndAdmission : Prop :=
  ∀ (s : State) (id pos : Nat) (c : Coll) (k : CollId) (key : PostKey) (tk : Ticket) (h : HoopEnt),
    let u := s.issueDue
    let n := (u.groupRanks c.cid.group).length
    let x := { c with
      entered := true, n := n, pos := (u.posIn c.cid.group).getD 0
      deadline := u.ftime + 1000 * cTimeout c.blk }
    (u.coll.table.find? (fun y => y.cmd == id) = some c → c.entered = false → u.cx.xq.head? = some id →
      ((u.coll.table.filter (·.entered)).length < 64 →
        ((u.groupOk c.cid.group = false ∨ cGroupOk c.blk n = false) →
          ∃ v, exec (.postEntry id) s = .next (State.pumpX 8 v) ∧ Ended u v x 0x16 ∧ v.cx.xq = u.cx.xq.drop 1)
        ∧ (u.groupOk c.cid.group = true → cGroupOk c.blk n = true →
          let e := ({ u with cx := { u.cx with xq := u.cx.xq.drop 1 } } : State).setColl x
          let a := e.pinBuffer x (cFrom x.blk) (cExtents x.blk n).1 false
          let b := a.2.2.pinBuffer x (cTo x.blk) (cExtents x.blk n).2 true
          ((a.1 = .refused ∨ b.1 = .refused) →
            ∃ v, exec (.postEntry id) s = .next (State.pumpX 8 v) ∧ v.cx.xq = u.cx.xq.drop 1
              ∧ ∀ y ∈ v.coll.table, y.cmd ≠ id)
          ∧ (a.1 = .pinned → b.1 = .pinned → u.isHoop c.cid.group = false →
            ∃ v y, exec (.postEntry id) s = .next (State.pumpX 8 v) ∧ y ∈ v.coll.table ∧ y.cmd = id
              ∧ y.entered = true ∧ y.pinned = true ∧ y.left = true ∧ y.code = c.code
              ∧ y.deadline = u.ftime + 1000 * cTimeout c.blk ∧ v.cx.xq = u.cx.xq.drop 1
              ∧ ∃ p ∈ v.fab.pkts, p.kind = .coll (.post id) ∧ p.slack = cSlack c.blk ∧ p.cls = c.cls)
          ∧ (a.1 = .pinned → b.1 = .pinned → u.isHoop c.cid.group = true → u.lastL c.cid.group < c.cid.seq →
            u.coll.hoop.find? (fun e => e.cid == c.cid) = none →
            ∃ v, exec (.postEntry id) s = .next (State.pumpX 8 v) ∧ v.cx.xq = u.cx.xq.drop 1
              ∧ v.coll.hoop = u.coll.hoop ++ [{ cid := c.cid, key := cKey c.blk, posted := [x.pos] }])))
      ∧ (64 ≤ (u.coll.table.filter (·.entered)).length → exec (.postEntry id) s = .next (State.pumpX 8 u)))
    ∧ (u.isHoop k.group = true → u.posIn k.group ≠ some pos → pos < (u.groupRanks k.group).length →
      let post := fun (t : State) => exec (.hoopPostArrival k pos key) s = .next t
      (u.coll.hoop.find? (fun e => e.cid == k) = none →
        (u.lastL k.group < k.seq → ∃ t, post t ∧ Quiet u t
          ∧ t.coll.hoop = u.coll.hoop ++ [{ cid := k, key := key, posted := [pos] }])
        ∧ (k.seq ≤ u.lastL k.group → ∃ t, post t ∧ Quiet u t ∧ t.coll = u.coll
          ∧ Sent u t k.group pos (.notice k 0x17)))
      ∧ (u.coll.hoop.find? (fun e => e.cid == k) = some h → h.dead = none → pos ∉ h.posted →
        u.lastL k.group < k.seq →
        (key = h.key → (u.groupRanks k.group).length ≤ h.posted.length + 1 →
          (u.coll.nextIssue ≤ u.ftime → ∃ t, post t ∧ k.seq ≤ t.lastL k.group
            ∧ t.coll.nextIssue = u.ftime + 1 ∧ (∀ e ∈ t.coll.hoop, e.cid ≠ k)
            ∧ Told u t k.group (.ticket ⟨k, u.ftime, u.pkgid⟩))
          ∧ (u.ftime < u.coll.nextIssue → ∃ t, post t ∧ Quiet u t
            ∧ { h with posted := h.posted ++ [pos], full := some u.ftime } ∈ t.coll.hoop))
        ∧ (key = h.key → h.posted.length + 1 < (u.groupRanks k.group).length → ∃ t, post t ∧ Quiet u t
          ∧ { h with posted := h.posted ++ [pos] } ∈ t.coll.hoop)
        ∧ (key ≠ h.key → ∃ t, post t ∧ k.seq ≤ t.lastL k.group ∧ Sent u t k.group pos (.notice k 0x15))))
    ∧ (u.coll? tk.coll = some c → c.code = 1 → c.left = true → u.isHoop tk.coll.group = false →
      let get := fun (t : State) => exec (.ticketArrival tk) s = .next t
      (u.coll.admitted.any (fun a => ticketBelow tk a) = true →
        ∃ t, get t ∧ Ended u t { c with ticket := some tk } 0x13 ∧ Told u t tk.coll.group (.notice tk.coll 0x13))
      ∧ (u.coll.admitted.any (fun a => ticketBelow tk a) = false →
        (∀ f ∈ u.coll.fabq, ¬ (f.reached = true ∧ f.query = false ∧ f.cancels = c.cmd)) →
        (c.deadline ≤ u.ftime → ∃ t, get t ∧ Ended u t { c with ticket := some tk } 0x11)
        ∧ (u.ftime < c.deadline → ∃ t, get t ∧ Quiet u t
          ∧ t.coll? tk.coll = some { c with ticket := some tk, code := 2 })))
    ∧ (u.lowestHeld = some c → c.ticket = some tk → u.depsDone c.deps = true →
      (∀ k, u.coll.rings.findIdx? (fun n => decide (0 < n)) = some k → tk.issue + 2000 ≤ u.ftime →
        ∃ v, exec .admission s = .next (v.collSettle c.cid) ∧ Quiet u v
          ∧ v.coll.rings = u.coll.rings.modify k (· - 1) ∧ v.coll.admitted = some tk
          ∧ { c with code := 3, admitted := some u.ftime, seqr := k } ∈ v.coll.table)
      ∧ ((u.ftime < tk.issue + 2000 ∨ ∀ n ∈ u.coll.rings, n = 0) → exec .admission s = .next u))

/-- Pieces (17 R277, R281, R282, R337): no piece leaves before T0 and its slot, and it leaves in the class and with
the slack of its collective, while its staging buffer has room, by the model's count (log entry 90); one that comes
before admission is stored while the quota has room, at 8 bytes an element by the model's choice (log entry 41), and
else deferred, and comes again 1 µs later; one of a collective that is over, and a duplicate, change nothing; when all
destination pieces are written the code is DONE, and what the member still passes on is its duty by the model's choice
(log entry 42). Integer partials are exact, and wrap at the end. What waits in
the overflow list is then taken while there is room (`collSettle`). -/
def Obligations.PiecesPass : Prop :=
  ∀ (s : State) (cid : CollId) (c : Coll) (chunk offset pos : Nat) (p q : Piece) (b : List Word)
    (sgn : Bool) (w u v : Nat),
    let gives := fun (i : Instr) (t : State) => exec i s = .next (t.collSettle cid)
    (s.active cid = some c →
      (s.ftime < c.t0 → gives (.pieceDeparture cid chunk offset) s)
      ∧ (c.t0 ≤ s.ftime →
        (c.staged.find? (fun x => x.2.chunk == chunk && x.2.offset == offset) = some (pos, p) →
          (s.ftime < c.t0 + p.step * cSlot c.blk → gives (.pieceDeparture cid chunk offset) s)
          ∧ (c.t0 + p.step * cSlot c.blk ≤ s.ftime →
            ∃ t, gives (.pieceDeparture cid chunk offset) t ∧ Quiet s t
              ∧ { c with staged := c.staged.erase (pos, p) } ∈ t.coll.table ++ t.coll.tail
              ∧ Sent s t cid.group pos (.piece p pos c.owner)
              ∧ ∃ y ∈ t.fab.pkts, y.kind = .coll (.piece p pos c.owner) ∧ y.cls = c.cls ∧ y.slack = cSlack c.blk))
        ∧ (c.staged.find? (fun x => x.2.chunk == chunk && x.2.offset == offset) = none →
          chunk ∈ c.starts → offset ∈ pieceOffsets c.blk c.n chunk → (chunk, offset) ∉ c.sent →
          (s.stagingFull c true = false → ∃ t x, gives (.pieceDeparture cid chunk offset) t
            ∧ x ∈ t.coll.table ++ t.coll.tail ∧ x.cmd = c.cmd ∧ x.sent = c.sent ++ [(chunk, offset)])
          ∧ (s.stagingFull c true = true → gives (.pieceDeparture cid chunk offset) s)))
      ∧ (q.coll = cid →
        ((q.chunk, q.offset, q.step) ∈ c.got → gives (.pieceArrival q) (s.answerPiece q false))
        ∧ ((q.chunk, q.offset, q.step) ∉ c.got →
          (s.noPlace c = true → gives (.pieceArrival q) s)
          ∧ (s.noPlace c = false → ∃ t x, gives (.pieceArrival q) t ∧ x ∈ t.coll.table ++ t.coll.tail ∧ x.cmd = c.cmd
            ∧ (q.chunk, q.offset, q.step) ∈ x.got
            ∧ (q.src < (s.groupRanks cid.group).length → Sent s t cid.group q.src (.answer q false))))))
    ∧ (s.coll? cid = some c → c.code = 3 →
      (c.complete = true → ∃ t, exec (.collectiveComplete cid) s = .next t ∧ Ended s t c 0x10
        ∧ (c.duties = false → (∀ y ∈ s.fab.pkts, y.pieceOf cid = false) → c.cid = cid →
          t.coll.rings = s.coll.rings.modify c.seqr (· + 1)))
      ∧ (c.complete = false → exec (.collectiveComplete cid) s = .next s))
    ∧ (q.coll = cid → s.active cid = none → q ∉ s.coll.overflow →
      (s.coll? cid = none → (∃ f ∈ s.coll.finals, f.1 = cid) → gives (.pieceArrival q) (s.answerPiece q false))
      ∧ ((s.coll? cid ≠ none ∨ ∀ f ∈ s.coll.finals, f.1 ≠ cid) →
        (s.overflowBytes + 8 * q.elems.length ≤ s.coll.quota * 2 ^ 20 → ∃ t, gives (.pieceArrival q) t ∧ Quiet s t
          ∧ t.coll.overflow = s.coll.overflow ++ [q] ∧ t.coll.deferred = s.coll.deferred)
        ∧ (s.coll.quota * 2 ^ 20 < s.overflowBytes + 8 * q.elems.length → ∃ t, gives (.pieceArrival q) t ∧ Quiet s t
          ∧ t.coll.overflow = s.coll.overflow ∧ t.coll.deferred = s.coll.deferred ++ [(s.ftime, q)])))
    ∧ (q.coll = cid → ∀ y : Nat × Piece, s.coll.deferred.find? (fun x => x.2 == q) = some y →
      (s.ftime < y.1 + 1000 → gives (.deferralResend q) s)
      ∧ (y.1 + 1000 ≤ s.ftime → gives (.deferralResend q)
        (({ s with coll := { s.coll with deferred := s.coll.deferred.erase y } } : State).pieceArrival q)))
    ∧ (q.coll = cid → (∀ x ∈ s.coll.deferred, x.2 ≠ q) → s.active cid = some c →
      ∀ y : Nat × Nat × Piece, s.coll.resend.find? (fun x => x.2.2 == q) = some y →
        (s.ftime < y.1 + 1000 → gives (.deferralResend q) s)
        ∧ (y.1 + 1000 ≤ s.ftime → ∃ t, gives (.deferralResend q) t ∧ Quiet s t
          ∧ t.coll.resend = s.coll.resend.erase y ∧ Sent s t cid.group y.2.1 (.piece q y.2.1 c.owner)))
    ∧ (cFmt b = .int sgn w → w ≤ 64 → u < 2 ^ w → v < 2 ^ w → cSat b = false → cAccop b = 0 →
      ((reduceEnd b (reduceStep b (widen b u).1 (widen b v).1).1).1 : Int)
        = (intOfCode sgn w u + intOfCode sgn w v) % 2 ^ w)

/-- How collectives fail (17 R280, R283 to R285): by timeout alone before the post has left, by a
withdrawal to the hoop before a ticket is held, and with an abort notice to all after; by an ORDER notice;
by an abort notice or a cancellation, which is sent on; and by the hoop's voiding of the number, which every member
that posted hears. Tickets that fall due are issued first (`issueDue`). -/
def Obligations.CollectivesFail : Prop :=
  ∀ (s : State) (cid : CollId) (c : Coll) (h : HoopEnt) (cancelled : Bool), s.issueDue.coll? cid = some c →
    let u := s.issueDue
    let voided := fun (i : Instr) (code : Nat) => ∃ t, exec i s = .next t ∧ cid.seq ≤ t.lastL cid.group
      ∧ (∀ e ∈ t.coll.hoop, e.cid ≠ cid)
      ∧ (∀ k ∈ h.posted, u.posIn cid.group ≠ some k → Sent u t cid.group k (.notice cid code))
      ∧ (∀ k ∈ h.posted, u.posIn cid.group = some k → ∀ x ∈ t.coll.table, x.cmd ≠ c.cmd)
    (u.ftime < c.deadline → exec (.collectiveTimeout cid) s = .next u)
    ∧ (c.deadline ≤ u.ftime →
      (u.hasLeft c = false → ∃ t, exec (.collectiveTimeout cid) s = .next t ∧ Ended u t c 0x12)
      ∧ (u.hasLeft c = true → c.code = 1 → u.isHoop cid.group = false →
        (c.withdrew = false → ∃ t, exec (.collectiveTimeout cid) s = .next t ∧ Quiet u t
          ∧ t.coll? cid = some { c with withdrew := true } ∧ Sent u t cid.group 0 (.withdraw cid false))
        ∧ (c.withdrew = true → exec (.collectiveTimeout cid) s = .next u))
      ∧ (u.hasLeft c = true → c.code = 1 → u.isHoop cid.group = true →
        u.coll.hoop.find? (fun e => e.cid == cid) = some h → h.dead = none → voided (.collectiveTimeout cid) 0x12)
      ∧ (u.hasLeft c = true → c.code ≠ 1 → c.cid = cid → ∃ t, exec (.collectiveTimeout cid) s = .next t
        ∧ Ended u t c 0x11 ∧ Told u t cid.group (.notice cid 0x11)))
    ∧ (∃ t, exec (.orderNotice cid) s = .next t ∧ Ended u t c 0x13 ∧ t.coll.skewAlarm = u.coll.skewAlarm)
    ∧ (c.left = true → c.cid = cid → ∃ t, exec (.abortNotice cid cancelled) s = .next t
      ∧ Ended u t c (if cancelled then 0x14 else 0x11)
      ∧ Told u t cid.group (.notice cid (if cancelled then 0x14 else 0x11)))
    ∧ (u.isHoop cid.group = false → u.hasLeft c = true → c.code = 1 →
      ∃ t, exec (.hoopWithdrawal cid cancelled) s = .next t
        ∧ Ended u t c (if cancelled then 0x14 else 0x12))
    ∧ (u.isHoop cid.group = true → u.coll.hoop.find? (fun e => e.cid == cid) = some h → h.dead = none →
      voided (.hoopWithdrawal cid cancelled) (if cancelled then 0x14 else 0x12))

/-! ### The host and the debugger -/

/-- The host's ports (02 R19; 17 R270, R280; 22 R320 to R323): the time service corrects by at most 50 ppm toward
agreement, which rate is free (log entry 27), and a skew above 1,000 ns raises the alarm (R280); a port that holds
`hsem` has `ftime` set while nothing is posted, and is refused else, in the model's form of such a request (log entry
28); a host writes and reads global memory where no collective or timed send forbids it (17 R276, 16 R269), a write in
RUD performing at once or later from the list of those on their way, by the model's reading (log entry 106), the boot
window of the model's length (log entry 54) being closed once an image is verified or runs, and the last byte of an
image beginning its verification, by the model's reading (log entry 55); a read at 2^41 is the page's by the model's
choice (log entry 28); a port claims the free semaphore and frees its own; port 0's write of a cycle is taken first,
and whether the next write of `agenda` arrived in the cycle of port 1's is free, by the model's reading (log entry
106); and `pwrlim`, clamped, and the overflow quota are for its holder. A refusal counted in `refusals` and an answer
held in `out` are the model's choice (log entry 56). -/
def Obligations.HostPorts : Prop :=
  ∀ (s : State) (skew : Int) (port rod : Bool) (pa n mib : Nat) (data : List Byte) (v : Word),
    s.host.off = false →
    let q := if port then 2 else 1
    let host := fun (h : HostSt) => (.next { s with host := h } : Out)
    (s.host.asks = [] → ∃ t, exec (.timeService skew) s = .next t ∧ Quiet s t ∧ -50 ≤ t.host.slew ∧ t.host.slew ≤ 50
      ∧ (0 ≤ skew → t.host.slew ≤ 0) ∧ (skew ≤ 0 → 0 ≤ t.host.slew) ∧ t.ftime = s.ftime
      ∧ t.coll.skewAlarm = (s.coll.skewAlarm || decide (1000 < skew.natAbs)))
    ∧ (∀ l, s.host.asks = port :: l →
      let u := { s with host := { s.host with asks := l } }
      let turned : Out := .next { u with host := { u.host with refusals := s.host.refusals + 1 } }
      (s.firmware = true → s.host.hsem = q → s.coll.table = [] → s.fab.tsends = [] → exec (.timeService skew) s
        = .next { u with ftime := (((s.ftime : Int) + skew) % 2 ^ 64).toNat, ftPhase := 0 })
      ∧ ((s.firmware = false ∨ s.host.hsem ≠ q ∨ s.coll.table ≠ [] ∨ s.fab.tsends ≠ []) →
        exec (.timeService skew) s = turned))
    ∧ (pa + data.length ≤ 2 ^ 41 → s.host.late = [] →
      (∀ a, pa ≤ a → a < pa + data.length → Unnoted s none (hbmLoc s.pkgid a)) → ∃ t,
          exec (.hostWrite port rod pa data) s = .next t ∧ t.cx = s.cx
      ∧ t.empties = s.empties
      ∧ ((rod = false ∧ t.mem = s.mem ∧ t.host = { s.host with late := [(pa, data)] })
        ∨ ((∀ a < 2 ^ 41, t.byte (hbmLoc s.pkgid a) =
            if pa ≤ a ∧ a < pa + data.length ∧ (s.host.boot = 0 ∨ bootWindow ≤ a) then (data[a - pa]?).getD 0
            else s.byte (hbmLoc s.pkgid a))
          ∧ (∀ loc, (∀ a, loc ≠ hbmLoc s.pkgid a) → t.byte loc = s.byte loc)
          ∧ ((s.host.boot ≠ 0 ∨ bootWindow ≤ pa) → t.host = s.host)
          ∧ (s.host.boot = 0 → pa < bootWindow →
            t.host = { s.host with boot := if t.imageArrived then 1 else 0
                                   arrived := s.host.arrived ++ [(pa, Nat.min bootWindow (pa + data.length))] }))))
    ∧ (pa + n ≤ 2 ^ 41 → pa < 2 ^ 41 → s.host.late = [] →
      (∀ a, pa ≤ a → a < pa + n → s.marked (hbmLoc s.pkgid a) = false ∧ s.hot none (hbmLoc s.pkgid a) = false) →
      exec (.hostRead port pa n) s
        = host { s.host with out := (List.range n).map (fun i => s.byte (hbmLoc s.pkgid (pa + i))) })
    ∧ (s.host.late = [] → exec (.hostRead port (2 ^ 41) n) s = host { s.host with out := bytesOfNat 8 s.host.hsem })
    ∧ ((port = true → ∀ w l, s.agenda ≠ .hsemWrite false w :: l) →
      (s.host.hsem = 0 → exec (.hsemWrite port (mkWord q)) s = host { s.host with hsem := q })
      ∧ (s.host.hsem = q → exec (.hsemWrite port 0) s = host { s.host with hsem := 0 })
      ∧ (s.host.hsem ≠ 0 → s.host.hsem ≠ q → exec (.hsemWrite port v) s = .next s))
    ∧ (s.host.hsem = 0 → ∀ l, s.agenda = .hsemWrite false 1 :: l →
      exec (.hsemWrite true 2) s = .next { s with fv := s.fv + 1, agenda := l, host := { s.host with hsem := 1 } }
      ∨ exec (.hsemWrite true 2) s = .next { s with fv := s.fv + 1, host := { s.host with hsem := 2 } })
    ∧ exec .hsemRelease s = host { s.host with hsem := 0 }
    ∧ (s.host.hsem = q →
      (4000 ≤ bitsOf v 0 14 → bitsOf v 0 14 ≤ 12000 →
        exec (.registerWrite port 8 v) s = host { s.host with pwrlim := bitsOf v 0 14 })
      ∧ (bitsOf v 0 14 < 4000 → exec (.registerWrite port 8 v) s = host { s.host with pwrlim := 4000 })
      ∧ (12000 < bitsOf v 0 14 → exec (.registerWrite port 8 v) s = host { s.host with pwrlim := 12000 })
      ∧ (s.firmware = true → 16 ≤ mib → mib ≤ 1024 →
        exec (.overflowQuota port mib) s = .next { s with coll := { s.coll with quota := mib } }))
    ∧ (s.host.hsem ≠ q → ∃ t, exec (.registerWrite port 8 v) s = .next t ∧ t.host.pwrlim = s.host.pwrlim)

/-- Power, reset, boot and identity (22 R323 to R325): the three rules of the power control in their
order, with which the firmware may scrub a marked line by the model's choice (log entry 107); at 125 °C, at reset,
which a port that does not hold `hsem` is refused while there is power, in the model's form of such a request (log
entry 28), and at the watchdog's bite the registers hold their reset values, memory and marks those of the model's
choice (log entries 1, 6); the ROM starts an image that verifies, in state 1 since its last byte by the model's choice
of when that is (log entry 55), and counts one refused; the identity record has 88 bytes, a report's signature 64. The
answers in `out` and the refusals in `refusals` stand by the model's choice (log entry 56). -/
def Obligations.PowerAndBoot : Prop :=
  ∀ (s : State) (watts hot : Nat) (nonce : List Byte),
    let h := { s.host with hot := hot }
    let tick := fun (x : HostSt) =>
      (s.marks = [] → exec (.powerTick watts hot) s = .next { s with host := x })
      ∧ ∃ t, exec (.powerTick watts hot) s = .next t ∧ t.host = x ∧ t.cx = s.cx ∧ t.empties = s.empties
        ∧ (∀ l ∈ t.marks, l ∈ s.marks) ∧ ∀ a, s.marked a = false → t.byte a = s.byte a
    (s.firmware = true →
      (115 ≤ hot → tick { h with clkStep := 5, trip := true })
      ∧ (hot < 115 → (s.host.pwrlim < watts ∨ 105 ≤ hot) → tick { h with
          clkStep := Nat.min 5 (s.host.clkStep + 1)
          pcap := s.host.pcap || decide (s.host.pwrlim < watts)
          tcap := s.host.tcap || decide (105 ≤ hot) })
      ∧ (hot < 100 → 20 * watts < 19 * s.host.pwrlim → tick { h with clkStep := s.host.clkStep - 1 })
      ∧ (hot < 105 → watts ≤ s.host.pwrlim → (100 ≤ hot ∨ 19 * s.host.pwrlim ≤ 20 * watts) → tick h)
      ∧ (nonce.length = 32 → ∃ t sig, exec (.attestation nonce) s = .next t ∧ Quiet s t
        ∧ t.host.out = s.report nonce ++ sig ∧ sig.length = 64))
    ∧ (∀ i ∈ [Instr.packageReset, .watchdog, .thermalPowerOff],
      (i = .watchdog → s.firmware = true) → (i = .packageReset → s.host.off = true ∨ ∀ q ∈ s.host.asks.head?,
          s.holds q = true) →
        ∃ t, exec i s = .next t ∧ t.mem = [] ∧ t.empties = []
        ∧ t.marks = [] ∧ t.cx = State.reset.cx ∧ t.sh = State.reset.sh ∧ t.cyc = 0 ∧ t.pkgid = s.pkgid
        ∧ t.host.boots = s.host.boots ∧ t.host.boot = 0 ∧ t.host.pwrlim = 12000
        ∧ (t.host.off = true ↔ i = .thermalPowerOff))
    ∧ (s.host.off = false → ∀ q l, s.host.asks = q :: l → s.holds q = false → exec .packageReset s
        = .next { s with host := { s.host with asks := l, refusals := s.host.refusals + 1 } })
    ∧ (s.host.off = false →
      (∃ t, exec .identityRead s = .next t ∧ Quiet s t ∧ t.host.out.length = 88)
      ∧ (s.host.boot ≠ 1 → exec .firmwareImage s = .next s)
      ∧ (s.host.boot = 1 →
        let len := s.readNat (hbmLoc s.pkgid 4) 4
        let fits := s.readNat (hbmLoc s.pkgid 0) 4 = 0x4F514657 ∧ 2 ^ 20 ≤ len ∧ len ≤ 2 ^ 24
        let again : Out := .next { s with host := { s.host with
          boot := 0, arrived := [], refused := Nat.min 255 (s.host.refused + 1) } }
        (¬ fits → exec .firmwareImage s = again)
        ∧ (fits → imageVerifies (s.bytes (hbmLoc s.pkgid 0) (128 + len)) = false → exec .firmwareImage s = again)
        ∧ (fits → imageVerifies (s.bytes (hbmLoc s.pkgid 0) (128 + len)) = true →
          ∃ t, exec .firmwareImage s = .next t ∧ t.mem = s.mem ∧ t.cx = s.cx
            ∧ t.host.boot = 2 ∧ t.host.boots = s.host.boots + 1 ∧ ∀ k < 64, t.full (s.mailLoc k) = false)))

/-- Debug rights and stops (20 R301 to R305): a root entry has all six rights; a holder delegates a subset
of its own; a revoked entry is gone, and so is a root that the firmware revokes as its asid is freed, in the model's
form of that (log entry 29); the holder of a stop right stops the running context while no other stop is held, which
is held until that entry's holder resumes it, and sets its breakpoints; a breakpoint and a single step stop it too.
That a port asks for a root entry is the model's choice (log entry 28).

Debug accesses, sessions and samples (20 R302, R307, R308, R312): the read and write rights reach the memory of
the address space that a request names, where no collective or timed send forbids it (17 R276, 16 R269), the count right the counters, in the model's naming of spaces and offsets (log
entry 30); a session needs its right, and a sample session a period of 2^10 to 2^24 cycles; a
sample is a record of kind 5 with the fetch address; records go to the principal of their session, in the model's form
of that (log entry 29). That a refused request counts in `refusals` and an answer stands in `out` is the model's
choice (log entry 56). -/
def Obligations.DebugRights : Prop :=
  (∀ (s : State) (who e parent holder asid slot a : Nat) (rights : BitVec 6) (c : Cap) (step : Bool)
      (v : State), s.firmware = true →
      let refused : Out := .next { s with host := { s.host with refusals := s.host.refusals + 1 } }
      let stopped := fun (t : State) (x : Nat) => t.cxSt = .held ∧ t.cx.stop = some x ∧ t.mem = s.mem
        ∧ t.cx.pc = s.cx.pc ∧ t.dbg.stopHolder = some x
      let free := ∀ x ∈ s.contexts, x.stop = none
      let u := match s.oldRoot asid with
        | some r => s.revokeEntry r
        | none => s
      (Turned s v → exec (.rootEntry asid holder) s = .next v)
      ∧ (Asked s v → asid < 4096 → u.freeCap = some e → ∃ t,
        exec (.rootEntry asid holder) s = .next t ∧ (s.dbg.traced = s.dbg.written → t.mem = s.mem)
        ∧ t.cap e = some { rights := 0x3F, parent := e, asid := asid, holder := BitVec.ofNat 32 holder }
        ∧ (s.oldRoot asid = none → Quiet s t) ∧ (∀ r, s.oldRoot asid = some r → r ≠ e → t.cap r = none))
      ∧ (s.cap parent = some c → s.freeCap = some e →
        (c.holder.toNat = who → holder < 2 ^ 32 →
          (∀ i < 6, rights.getLsbD i = true → c.rights.getLsbD i = true) →
          ∃ t, exec (.delegate who parent rights holder) s = .next t ∧ Quiet s t
            ∧ t.cap e = some { rights := rights, parent := parent, asid := c.asid, holder := BitVec.ofNat 32 holder })
        ∧ ((c.holder.toNat ≠ who ∨ 2 ^ 32 ≤ holder) → exec (.delegate who parent rights holder) s = refused))
      ∧ (s.cap e = some c → (c.holder.toNat = who ∨ (who = firmwareId ∧ c.parent = e)) →
        ∃ t, exec (.revoke who e) s = .next t ∧ t.cap e = none
        ∧ (s.dbg.traced = s.dbg.written → t.mem = s.mem))
      ∧ (s.capFor who 2 s.cx.asid.toNat = some e → (s.dbg.stopHolder = none ∨ s.dbg.stopHolder = some e) →
        (s.cxSt = .running → free → ∃ t, exec (.stopRequest who) s = .next t ∧ stopped t e)
        ∧ (¬ free → exec (.stopRequest who) s = refused)
        ∧ (slot < 4 → exec (.breakpointSet who slot (some a)) s = .next
          { s with
            cx := { s.cx with bps := s.cx.bps.filter (fun b => b.1 != slot) ++ [(slot, mkWord a, e)] }
            dbg := { s.dbg with stopHolder := some e } }))
      ∧ (s.capFor who 2 s.cx.asid.toNat = none → exec (.stopRequest who) s = refused
        ∧ exec (.breakpointSet who slot none) s = refused)
      ∧ (s.live = true → s.mustWait = false → s.cx.bpSkip = false →
        s.cx.bps.find? (fun b => b.2.1 == s.cx.pc) = some (slot, s.cx.pc, e) → ∃ t, exec .breakpoint s = .next t ∧
            stopped t e ∧ t.cx.bpSkip = true)
      ∧ (s.live = true → s.cx.stepDone = true → s.cx.replay = none → s.dbg.stopHolder = some e →
        ∃ t, exec .singleStepStop s = .next t ∧ stopped t e)
      ∧ (s.dbg.stopHolder = some e → s.cap e = some c →
        (c.holder.toNat = who → s.cxSt = .held → s.cx.stop = some e → ∃ t, exec (.resume who step) s = .next t
          ∧ t.cxSt = .running ∧ t.cx.stop = none ∧ t.cx.stepOne = step ∧ t.cx.pc = s.cx.pc ∧ t.mem = s.mem)
        ∧ (c.holder.toNat = who → s.cx.stop ≠ some e → s.shSt = .held → s.sh.stop = some e → s.sh.fault = none →
          ∃ t, exec (.resume who step) s = .next t ∧ t.shSt = .ready ∧ t.sh.stop = none ∧ t.cx = s.cx ∧ t.mem = s.mem)
        ∧ (c.holder.toNat ≠ who → exec (.resume who step) s = refused)))
  ∧ (∀ (s : State) (who asid off n kind k e : Nat) (data : List Byte) (l : List Nat),
      s.firmware = true →
      let refused : Out := .next { s with host := { s.host with refusals := s.host.refusals + 1 } }
      let req := fun (x : Nat) => asid * 2 ^ 64 + x
      let locs := fun (m : Nat) => (List.range m).mapM (fun i => s.asidLoc asid (off + i))
      (off < 2 ^ 57 →
        (s.capFor who 0 asid = some e → locs n = some l →
          (∀ x ∈ l, s.marked x = false ∧ s.hot none x = false) → exec (.debugRead who (req off) n) s
          = .next { s with host := { s.host with out := l.map s.byte } })
        ∧ (s.capFor who 1 asid = some e → locs data.length = some l → l.Nodup →
          (∀ x ∈ l, Unnoted s none x) → ∃ t, exec (.debugWrite who (req off) data) s = .next t ∧ t.cx = s.cx ∧
              t.empties = s.empties
            ∧ l.map t.byte = data ∧ ∀ x, x ∉ l → t.byte x = s.byte x)
        ∧ ((s.capFor who 0 asid = none ∨ locs n = none) → exec (.debugRead who (req off) n) s = refused)
        ∧ ((s.capFor who 1 asid = none ∨ locs data.length = none) →
          exec (.debugWrite who (req off) data) s = refused))
      ∧ (off < 2 ^ 57 → s.capFor who 0 asid = some e → ∀ c, s.stoppedOf asid (off / 2 ^ 48) = some c →
        ∃ t, exec (.debugRead who (req (2 ^ 57 + off)) n) s = .next t ∧ Quiet s t ∧ t.host.out.length = n)
      ∧ (k < 2 ^ 16 → kind < 16 →
        let ask := exec (.debugRead who (req (2 ^ 58 + 8 * (2 ^ 16 * kind + k))) 8) s
        (s.capFor who 5 asid = some e → ask
          = .next { s with host := { s.host with out := bytesOfNat 8 (s.counter kind k) } })
        ∧ (s.capFor who 5 asid = none → ask = refused))
      ∧ (∀ r c, s.dbg.trace = [r] → r.caps = [e] → s.cap e = some c → c.holder.toNat = who → 32 ≤ n →
        ∃ t, exec (.debugRead who (req (2 ^ 59)) n) s = .next t ∧ t.cx = s.cx ∧ t.dbg.trace = []
          ∧ t.host.out = [r.w0, r.badr, r.cycle, r.payload].flatMap (fun w => bytesOfNat 8 w.toNat))
      ∧ (k < 256 → kind ≤ 2 → (kind = 1 → 10 ≤ k ∧ k ≤ 24) →
        (s.capFor who (3 + kind) asid = some e → exec (.sessionOpen who kind (256 * asid + k)) s
          = .next { s with dbg := { s.dbg with sessions := s.dbg.sessions ++ [⟨e, kind, k⟩] } })
        ∧ (s.capFor who (3 + kind) asid = none → exec (.sessionOpen who kind (256 * asid + k)) s = refused))
      ∧ (k < 256 → (k < 10 ∨ 24 < k) → exec (.sessionOpen who 1 (256 * asid + k)) s = refused)
      ∧ (∀ c : Cap, s.live = true → ⟨e, 1, k⟩ ∈ s.dbg.sessions → (e, c) ∈ s.dbg.caps → c.asid = s.cx.asid.toNat →
        s.sessionsOf 2 s.core.chargeAsid = [] → s.cyc % 2 ^ k = 0 → s.dbg.sampled ≠ some s.cyc →
        s.dbg.trace.length < s.traceCap →
        ∃ t r, exec .sample s = .next t ∧ t.dbg.trace = s.dbg.trace ++ [r] ∧ bitsOf r.w0 0 8 = 5 ∧ e ∈ r.caps
          ∧ bitsOf r.badr 0 57 = bitsOf s.cx.pc 0 57 ∧ Quiet s t)
      ∧ ((∀ x ∈ s.dbg.sessions, x.kind = 1 → s.cyc % 2 ^ x.k ≠ 0) → exec .sample s = .next s.recharge))

/-! ### Two rules word for word -/

/-- 10 R190: the refresh of bank b of pseudo-channel c falls due at the cycles 10 × (c mod 16) + 2,730 × j +
170 × b, and at no other; so dues come every 170 cycles, and after bank 15 every 180. The machine acts on each due
in its order, on all of the cycles before the present one. -/
def Obligations.RefreshSchedule : Prop :=
  (∀ (c cyc b : Nat), b < 16 →
    ((∃ n, n % 16 = b ∧ dueCycle c n = cyc) ↔ ∃ j, cyc = 10 * (c % 16) + 2730 * j + 170 * b))
  ∧ (∀ (c n m : Nat), dueCycle c (n + 1) = dueCycle c n + (if n % 16 = 15 then 180 else 170)
    ∧ dueCycle c (n + 16) = dueCycle c n + 2730 ∧ (n < m → dueCycle c n < dueCycle c m))
  ∧ (∀ (s : State) (c : Nat), s.cyc ≤ dueCycle c ((s.refreshed c).hchan c).dues
    ∧ (s.hchan c).dues ≤ ((s.refreshed c).hchan c).dues
    ∧ ∀ n, (s.hchan c).dues ≤ n → (n < ((s.refreshed c).hchan c).dues ↔ dueCycle c n < s.cyc))

/-- 04 R52: the codes of E2M1, the format of fm4 after reset, are 0, 0.5, 1, 1.5, 2, 3, 4 and 6 (here doubled), and
code 8 + n is the negation of code n. -/
def Obligations.E2m1Codes : Prop :=
  ∃ f, fmtOfReg (State.reset.cx.fm 4) = .flt f ∧ ∀ n < 8, ∃ (m : Nat) (e : Int),
    f.decode n = .fin false m e ∧ f.decode (8 + n) = .fin true m e ∧ -1 ≤ e
    ∧ m * 2 ^ (e + 1).toNat = ([0, 1, 2, 3, 4, 6, 8, 12][n]?).getD 0
end

