-- ==== Sys2Proof/Laws/Mem.lean ====
section
/-!
SUPPORT. Memory, said once: the canonical form as a plain property, reading after writing, and that every
operation over memory, tags and marks keeps the canonical form (log entry 6).
-/

namespace Sys2Proof.Laws

open Sys2Proof Sys2Proof.Machine Sys2Proof.Safety

/-! ### Rising lists -/

/-- A rising list is one whose entries are pairwise in order. -/
theorem rising_iff (l : List Nat) : rising l = true ↔ l.Pairwise (· < ·) := by
  induction l with
  | nil => simp [rising]
  | cons a t ih =>
    cases t with
    | nil => simp [rising]
    | cons b u =>
      simp only [rising, Bool.and_eq_true, decide_eq_true_eq, ih, List.pairwise_cons]
      constructor
      · rintro ⟨h, h1, h2⟩
        refine ⟨?_, h1, h2⟩
        intro c hc
        rcases List.mem_cons.mp hc with rfl | hc
        · exact h
        · exact Nat.lt_trans h (h1 c hc)
      · rintro ⟨h, h1, h2⟩
        exact ⟨h b (by simp), h1, h2⟩

theorem mem_insertNat (a b : Nat) (l : List Nat) : b ∈ insertNat a l ↔ b = a ∨ b ∈ l := by
  induction l with
  | nil => simp [insertNat]
  | cons c t ih =>
    simp only [insertNat]
    split
    · simp
    · split
      · next h => subst h; simp
      · simp only [List.mem_cons, ih]
        constructor
        · rintro (h | h | h) <;> simp [h]
        · rintro (h | h | h) <;> simp [h]

theorem rising_insertNat {a : Nat} {l : List Nat} (h : rising l = true) :
    rising (insertNat a l) = true := by
  rw [rising_iff] at h ⊢
  induction l with
  | nil => simp [insertNat]
  | cons c t ih =>
    have hp := List.pairwise_cons.mp h
    simp only [insertNat]
    split
    · next hlt =>
      refine List.pairwise_cons.mpr ⟨?_, h⟩
      intro d hd
      rcases List.mem_cons.mp hd with rfl | hd
      · exact hlt
      · exact Nat.lt_trans hlt (hp.1 d hd)
    · split
      · exact h
      · next h1 h2 =>
        refine List.pairwise_cons.mpr ⟨?_, ih hp.2⟩
        intro d hd
        rcases (mem_insertNat _ _ _).mp hd with rfl | hd
        · omega
        · exact hp.1 d hd

theorem rising_filter {p : Nat → Bool} {l : List Nat} (h : rising l = true) :
    rising (l.filter p) = true := by
  rw [rising_iff] at h ⊢
  exact h.filter p

theorem rising_eraseNat {a : Nat} {l : List Nat} (h : rising l = true) : rising (eraseNat a l) = true :=
  rising_filter h

@[simp] theorem mem_eraseNat (a b : Nat) (l : List Nat) : b ∈ eraseNat a l ↔ b ∈ l ∧ b ≠ a := by
  simp [eraseNat]

/-! ### Bytes -/

/-- The canonical form: keys in order, no unlisted value listed. -/
theorem wf_iff (l : List Host.Cell) :
    Memory.wf l = true ↔ l.Pairwise (fun a b => a.1 < b.1) ∧ ∀ c ∈ l, c.2 ≠ unlisted := by
  induction l with
  | nil => simp [Memory.wf]
  | cons a t ih =>
    obtain ⟨k, v⟩ := a
    cases t with
    | nil => simp [Memory.wf]
    | cons b u =>
      obtain ⟨k2, v2⟩ := b
      have e : Memory.wf ((k, v) :: (k2, v2) :: u) = true
          ↔ (k < k2 ∧ v ≠ unlisted) ∧ Memory.wf ((k2, v2) :: u) = true := by
        simp only [Memory.wf, Bool.and_eq_true, decide_eq_true_eq, bne_iff_ne]
      rw [e, ih, List.pairwise_cons (a := (k, v))]
      constructor
      · rintro ⟨⟨h, hv⟩, h1, h2⟩
        refine ⟨⟨?_, h1⟩, ?_⟩
        · intro c hc
          rcases List.mem_cons.mp hc with rfl | hc
          · exact h
          · exact Nat.lt_trans h ((List.pairwise_cons.mp h1).1 c hc)
        · intro c hc
          rcases List.mem_cons.mp hc with rfl | hc
          · exact hv
          · exact h2 c hc
      · rintro ⟨⟨h, h1⟩, h2⟩
        exact ⟨⟨h (k2, v2) List.mem_cons_self, h2 (k, v) List.mem_cons_self⟩, h1,
          fun c hc => h2 c (List.mem_cons_of_mem _ hc)⟩

theorem getCell_insertCell (m : List Host.Cell) (a b : Nat) (v : Byte) :
    getCell (insertCell a v m) b = if a = b then v else getCell m b := by
  induction m with
  | nil => simp [insertCell, getCell]
  | cons c t ih =>
    obtain ⟨k, w⟩ := c
    simp only [insertCell]
    split
    · simp [getCell]
    · split
      · next h => subst h; by_cases hb : a = b <;> simp [getCell, hb]
      · next h => simp only [getCell, ih]; by_cases hk : k = b <;> by_cases hb : a = b <;> simp_all

theorem getCell_filter (m : List Host.Cell) (p : Nat → Bool) (b : Nat) :
    getCell (m.filter (fun c => p c.1)) b = if p b then getCell m b else unlisted := by
  induction m with
  | nil => simp [getCell]
  | cons c t ih =>
    obtain ⟨k, w⟩ := c
    by_cases hp : p k <;> by_cases hk : k = b <;> simp_all [getCell]

/-- Reading after writing a byte. -/
theorem getCell_setCell (m : List Host.Cell) (a b : Nat) (v : Byte) :
    getCell (setCell a v m) b = if a = b then v else getCell m b := by
  simp only [setCell]
  split
  · next h =>
    rw [getCell_filter m (fun k => k != a)]
    by_cases hb : a = b
    · subst hb; simp [h]
    · simp [hb, Ne.symm hb]
  · exact getCell_insertCell m a b v

theorem mem_insertCell {a : Nat} {v : Byte} {m : List Host.Cell} {c : Host.Cell}
    (h : c ∈ insertCell a v m) : c = (a, v) ∨ c ∈ m := by
  induction m with
  | nil => simpa [insertCell] using h
  | cons d t ih =>
    obtain ⟨k, w⟩ := d
    simp only [insertCell] at h
    split at h
    · simpa using h
    · split at h
      · rcases List.mem_cons.mp h with h | h
        · exact .inl h
        · exact .inr (List.mem_cons_of_mem _ h)
      · rcases List.mem_cons.mp h with h | h
        · exact .inr (by simp [h])
        · exact (ih h).imp id (List.mem_cons_of_mem _)

theorem wf_filter {p : Host.Cell → Bool} {m : List Host.Cell} (h : Memory.wf m = true) :
    Memory.wf (m.filter p) = true := by
  rw [wf_iff] at h ⊢
  exact ⟨h.1.filter p, fun c hc => h.2 c (List.mem_filter.mp hc).1⟩

theorem wf_setCell {a : Nat} {v : Byte} {m : List Host.Cell} (h : Memory.wf m = true) :
    Memory.wf (setCell a v m) = true := by
  simp only [setCell]
  split
  · exact wf_filter h
  · next hv =>
    rw [wf_iff] at h ⊢
    refine ⟨?_, ?_⟩
    · have hm := h.1
      clear h
      induction m with
      | nil => simp [insertCell]
      | cons d t ih =>
        obtain ⟨k, w⟩ := d
        have hp := List.pairwise_cons.mp hm
        simp only [insertCell]
        split
        · next hlt =>
          refine List.pairwise_cons.mpr ⟨?_, hm⟩
          intro c hc
          rcases List.mem_cons.mp hc with rfl | hc
          · exact hlt
          · exact Nat.lt_trans hlt (hp.1 c hc)
        · split
          · next h1 h2 =>
            subst h2
            exact List.pairwise_cons.mpr ⟨hp.1, hp.2⟩
          · next h1 h2 =>
            refine List.pairwise_cons.mpr ⟨?_, ih hp.2⟩
            intro c hc
            rcases mem_insertCell hc with rfl | hc
            · show k < a; omega
            · exact hp.1 c hc
    · intro c hc
      rcases mem_insertCell hc with rfl | hc
      · exact hv
      · exact h.2 c hc

/-! ### Reading after writing -/

@[simp] theorem byte_setByte (s : State) (a b : Nat) (v : Byte) :
    (s.setByte a v).byte b = if a = b then v else s.byte b := getCell_setCell _ _ _ _

/-- Bytes written are read back, and every other byte is as before. -/
theorem byte_setBytes (s : State) (loc : Nat) (l : List Byte) (a : Nat) :
    (s.setBytes loc l).byte a
      = if loc ≤ a ∧ a < loc + l.length then (l[a - loc]?).getD 0 else s.byte a := by
  induction l generalizing s loc with
  | nil => rw [if_neg (by simp)]; rfl
  | cons b t ih =>
    simp only [State.setBytes, ih, byte_setByte, List.length_cons]
    by_cases h0 : loc = a
    · subst h0
      rw [if_neg (by omega)]
      simp
    · by_cases h1 : loc + 1 ≤ a ∧ a < loc + 1 + t.length
      · have h2 : loc ≤ a ∧ a < loc + (t.length + 1) := by omega
        have h3 : a - loc = (a - (loc + 1)) + 1 := by omega
        rw [if_pos h1, if_pos h2, h3]; simp
      · have h2 : ¬ (loc ≤ a ∧ a < loc + (t.length + 1)) := by omega
        rw [if_neg h1, if_neg h2, if_neg h0]

@[simp] theorem length_bytesOfNat (n v : Nat) : (bytesOfNat n v).length = n := by
  induction n generalizing v with
  | zero => rfl
  | succ n ih => simp [bytesOfNat, ih]

theorem natOfBytes_bytesOfNat (n v : Nat) : natOfBytes (bytesOfNat n v) = v % 256 ^ n := by
  induction n generalizing v with
  | zero => simp [bytesOfNat, natOfBytes, Nat.mod_one]
  | succ n ih =>
    have h : (BitVec.ofNat 8 v).toNat = v % 256 := BitVec.toNat_ofNat ..
    simp only [bytesOfNat, natOfBytes, ih, h]
    rw [Nat.pow_succ, Nat.mul_comm (256 ^ n) 256, Nat.mod_mul]

theorem bytes_setBytes_same (s : State) (loc : Nat) (l : List Byte) :
    (s.setBytes loc l).bytes loc l.length = l := by
  apply List.ext_getElem
  · simp [State.bytes]
  · intro i h1 h2
    simp only [State.bytes, List.length_map, List.length_range] at h1
    simp [State.bytes, byte_setBytes, h1]

/-- A number written is read back, modulo its bytes. -/
theorem readNat_writeNat (s : State) (loc n v : Nat) : (s.writeNat loc n v).readNat loc n = v % 256 ^ n := by
  have h := bytes_setBytes_same s loc (bytesOfNat n v)
  rw [length_bytesOfNat] at h
  simp only [State.readNat, State.writeNat, h, natOfBytes_bytesOfNat]

/-- A word written is read back. -/
theorem word_setWord (s : State) (loc : Nat) (v : Word) : (s.setWord loc v).word loc = v := by
  simp only [State.word, State.setWord, readNat_writeNat]
  apply BitVec.eq_of_toNat_eq
  have := v.isLt
  simp only [BitVec.toNat_ofNat]
  omega

theorem byte_setWord (s : State) (loc : Nat) (v : Word) (a : Nat) (h : a < loc ∨ loc + 8 ≤ a) :
    (s.setWord loc v).byte a = s.byte a := by
  simp only [State.setWord, State.writeNat, byte_setBytes, length_bytesOfNat]
  rw [if_neg (by omega)]

/-- A word is its eight bytes. -/
theorem word_congr {s t : State} {loc : Nat} (h : ∀ i < 8, s.byte (loc + i) = t.byte (loc + i)) :
    s.word loc = t.word loc := by
  simp only [State.word, State.readNat, State.bytes]
  rw [List.map_congr_left (fun i hi => h i (List.mem_range.mp hi))]

theorem word_setWord_other (s : State) (a b : Nat) (v : Word) (h : a + 8 ≤ b ∨ b + 8 ≤ a) :
    (s.setWord a v).word b = s.word b :=
  word_congr (fun i hi => byte_setWord s a v (b + i) (by omega))

/-! ### What the writes leave alone -/

/-- Everything but memory, tags and marks is as before. -/
def OnlyMem (s t : State) : Prop := t = { s with mem := t.mem, empties := t.empties, marks := t.marks }

theorem onlyMem_refl (s : State) : OnlyMem s s := rfl

theorem onlyMem_trans {s t u : State} (h : OnlyMem s t) (k : OnlyMem t u) : OnlyMem s u := by
  rw [OnlyMem] at h k ⊢
  rw [h] at k
  exact k

theorem setBytes_only (s : State) (loc : Nat) (l : List Byte) :
    s.setBytes loc l = { s with mem := (s.setBytes loc l).mem } := by
  induction l generalizing s loc with
  | nil => rfl
  | cons b t ih =>
    rw [State.setBytes]
    exact ih (s.setByte loc b) (loc + 1)

@[simp] theorem setBytes_empties (s : State) (loc : Nat) (l : List Byte) :
    (s.setBytes loc l).empties = s.empties := by rw [setBytes_only]

@[simp] theorem setBytes_marks (s : State) (loc : Nat) (l : List Byte) :
    (s.setBytes loc l).marks = s.marks := by rw [setBytes_only]

@[simp] theorem setBytes_cx (s : State) (loc : Nat) (l : List Byte) : (s.setBytes loc l).cx = s.cx := by
  rw [setBytes_only]

theorem setWord_only (s : State) (loc : Nat) (v : Word) :
    s.setWord loc v = { s with mem := (s.setWord loc v).mem } := setBytes_only s loc _

theorem setMasked_only (s : State) (loc : Nat) (l : List (Option Byte)) :
    s.setMasked loc l = { s with mem := (s.setMasked loc l).mem } := by
  induction l generalizing s loc with
  | nil => rfl
  | cons b t ih =>
    cases b with
    | none => exact ih s (loc + 1)
    | some v =>
      rw [State.setMasked]
      exact ih (s.setByte loc v) (loc + 1)

theorem setTag_only (s : State) (loc : Nat) (b : Bool) :
    s.setTag loc b = { s with empties := (s.setTag loc b).empties } := by
  simp only [State.setTag]; split <;> rfl

theorem setMark_only (s : State) (loc : Nat) (b : Bool) :
    s.setMark loc b = { s with marks := (s.setMark loc b).marks } := by
  simp only [State.setMark]; split <;> rfl

/-- The tag after it is set, in a scratchpad. -/
theorem full_setTag (s : State) (loc : Nat) (b : Bool) (h : tagged loc = true) :
    (s.setTag loc b).full loc = b := by
  cases b
  · simp [State.setTag, State.full, h, mem_insertNat]
  · simp [State.setTag, State.full, h]

theorem marked_setMark (s : State) (loc : Nat) (b : Bool) : (s.setMark loc b).marked loc = b := by
  cases b
  · simp [State.setMark, State.marked]
  · simp [State.setMark, State.marked, mem_insertNat]

/-! ### The canonical form is kept -/

theorem memOk_of_eq {s t : State} (h : MemOk s) (h1 : t.mem = s.mem) (h2 : t.empties = s.empties)
    (h3 : t.marks = s.marks) : MemOk t := by
  rw [MemOk, h1, h2, h3]; exact h

theorem setByte_memOk {s : State} (h : MemOk s) (a : Nat) (v : Byte) : MemOk (s.setByte a v) :=
  ⟨wf_setCell h.1, h.2⟩

theorem setBytes_memOk {s : State} (h : MemOk s) (a : Nat) (l : List Byte) : MemOk (s.setBytes a l) := by
  induction l generalizing s a with
  | nil => exact h
  | cons b t ih => exact ih (setByte_memOk h a b) (a + 1)

theorem setMasked_memOk {s : State} (h : MemOk s) (a : Nat) (l : List (Option Byte)) :
    MemOk (s.setMasked a l) := by
  induction l generalizing s a with
  | nil => exact h
  | cons b t ih =>
    cases b with
    | none => exact ih h (a + 1)
    | some v => exact ih (setByte_memOk h a v) (a + 1)

theorem writeNat_memOk {s : State} (h : MemOk s) (a n v : Nat) : MemOk (s.writeNat a n v) :=
  setBytes_memOk h a _

theorem setWord_memOk {s : State} (h : MemOk s) (a : Nat) (v : Word) : MemOk (s.setWord a v) :=
  setBytes_memOk h a _

theorem setTag_memOk {s : State} (h : MemOk s) (a : Nat) (b : Bool) : MemOk (s.setTag a b) := by
  simp only [State.setTag]
  split
  · cases b
    · exact ⟨h.1, rising_insertNat h.2.1, h.2.2⟩
    · exact ⟨h.1, rising_eraseNat h.2.1, h.2.2⟩
  · exact h

theorem setMark_memOk {s : State} (h : MemOk s) (a : Nat) (b : Bool) : MemOk (s.setMark a b) := by
  cases b
  · exact ⟨h.1, h.2.1, rising_eraseNat h.2.2⟩
  · exact ⟨h.1, h.2.1, rising_insertNat h.2.2⟩

theorem zeroRange_memOk {s : State} (h : MemOk s) (a n : Nat) : MemOk (s.zeroRange a n) :=
  ⟨wf_filter h.1, rising_filter h.2.1, rising_filter h.2.2⟩

/-- A fold of operations that keep the form keeps it. -/
theorem foldl_memOk {α : Type} {f : State → α → State} (hf : ∀ s x, MemOk s → MemOk (f s x)) (l : List α)
    {s : State} (h : MemOk s) : MemOk (l.foldl f s) := by
  induction l generalizing s with
  | nil => exact h
  | cons x t ih => exact ih (hf s x h)

theorem putBack_memOk {s : State} (h : MemOk s) (e : Evicted) : MemOk (s.putBack e) := by
  simp only [State.putBack]
  refine foldl_memOk (fun t l ht => setMark_memOk ht _ _) _ ?_
  refine foldl_memOk (fun t w ht => setTag_memOk ht _ _) _ ?_
  exact foldl_memOk (fun t x ht => setByte_memOk ht _ _) _ (zeroRange_memOk h _ _)

theorem wf_foldl_setCell (f : Host.Cell → Nat) (l : List Host.Cell) {m : List Host.Cell}
    (h : Memory.wf m = true) : Memory.wf (l.foldl (fun t c => setCell (f c) c.2 t) m) = true := by
  induction l generalizing m with
  | nil => exact h
  | cons c t ih => exact ih (wf_setCell h)

theorem rising_foldl_insertNat (f : Nat → Nat) (l : List Nat) {m : List Nat} (h : rising m = true) :
    rising (l.foldl (fun t w => insertNat (f w) t) m) = true := by
  induction l generalizing m with
  | nil => exact h
  | cons c t ih => exact ih (rising_insertNat h)

theorem migrate_memOk {s : State} (h : MemOk s) (p : Nat) : MemOk (s.migrate p) := by
  simp only [State.migrate]
  split
  · exact h
  · exact ⟨wf_foldl_setCell (fun c => moveLoc s.pkgid p c.1) _ rfl,
      rising_foldl_insertNat (fun w => moveLoc s.pkgid p (8 * w) / 8) _ rfl,
      rising_foldl_insertNat (fun w => moveLoc s.pkgid p (64 * w) / 64) _ rfl⟩

/-- A byte of a partition is zero after it is zeroed, and every other byte is as before. -/
theorem byte_zeroRange (s : State) (loc n a : Nat) :
    (s.zeroRange loc n).byte a = if loc ≤ a ∧ a < loc + n then 0 else s.byte a := by
  show getCell (s.mem.filter (fun c => !(decide (loc ≤ c.1) && decide (c.1 < loc + n)))) a = _
  rw [getCell_filter s.mem (fun k => !(decide (loc ≤ k) && decide (k < loc + n)))]
  by_cases h : loc ≤ a ∧ a < loc + n
  · simp [h, unlisted]
  · have : (!(decide (loc ≤ a) && decide (a < loc + n))) = true := by
      simp only [Bool.not_eq_true', Bool.and_eq_false_iff, decide_eq_false_iff_not]; omega
    rw [if_pos this, if_neg h]; rfl

/-- The words of one aligned block of 256 bytes in a core scratchpad, or of 512 in a quad scratchpad, lie
in distinct banks (06 R100). -/
theorem bankOf_inj {quad : Bool} {key : Word} {w v : Nat}
    (hb : w / 2 ^ bankBits quad = v / 2 ^ bankBits quad) (h : bankOf quad key w = bankOf quad key v) :
    w = v := by
  simp only [bankOf, hb] at h
  have := Nat.xor_left_injective h
  rw [← Nat.div_add_mod w (2 ^ bankBits quad), ← Nat.div_add_mod v (2 ^ bankBits quad), hb, this]

end Sys2Proof.Laws
end

