-- ==== Sys2Proof/Laws/Words.lean ====
section
/-!
SUPPORT. What the issue of a word does, said once: its effect when its operands are readable and no cause
stands, LQEMPTY when an entry is missing, a stall when one is not back; and the meaning of every word is the
issue of its `WordSpec`.
-/

namespace Sys2Proof.Laws

open Sys2Proof Sys2Proof.Machine Sys2Proof.Safety

/-- Operands are readable and no cause stands: the word has its effect on the popped state. -/
theorem issueWord_effect {w : WordSpec} {s : State} {v : List Reg} (hi : w.illop s = false)
    (h : Popped s w.pops v) (hs : w.stall s v w.pops = false) (hc : w.check s v = none) :
    issueWord w s = w.effect (s.popLq w.pops) v := by
  have hl : ¬ s.cx.lq.length < w.pops := Nat.not_lt.mpr h.1
  simp [issueWord, hl, h.2, hs, hi, hc]

/-- The word is illegal by a register's value or its context (03 R336). -/
theorem issueWord_illop {w : WordSpec} {s : State} (hi : w.illop s = true) :
    issueWord w s = s.trapIssue s.illop := by
  simp [issueWord, hi]

/-- Too few entries are reserved: LQEMPTY (06 R104, 13 R219). -/
theorem issueWord_empty {w : WordSpec} {s : State} (hi : w.illop s = false) (h : s.cx.lq.length < w.pops) :
    issueWord w s = s.trapIssue ⟨4, lqEmptyTval w.pops s.cx.lq.length⟩ := by
  simp [issueWord, hi, h]

/-- The entry is reserved and not back: the word stalls (03 R336). -/
theorem issueWord_wait {w : WordSpec} {s : State} (hi : w.illop s = false) (h : w.pops ≤ s.cx.lq.length)
    (hv : lqValues w.pops s.cx.lq = none) : issueWord w s = s.stallNow true := by
  simp [issueWord, hi, Nat.not_lt.mpr h, hv]

/-- The word stalls of itself. -/
theorem issueWord_stall {w : WordSpec} {s : State} {v : List Reg} (hi : w.illop s = false)
    (h : Popped s w.pops v) (hs : w.stall s v w.pops = true) :
    issueWord w s = (w.onStall s v).stallNow false := by
  simp [issueWord, hi, Nat.not_lt.mpr h.1, h.2, hs]

/-- The word meets a cause of issue kind. -/
theorem issueWord_trap {w : WordSpec} {s : State} {v : List Reg} {t : TrapReq} (hi : w.illop s = false)
    (h : Popped s w.pops v) (hs : w.stall s v w.pops = false) (hc : w.check s v = some t) :
    issueWord w s = s.trapIssue t := by
  simp [issueWord, Nat.not_lt.mpr h.1, h.2, hs, hi, hc]

/-- A word that pops nothing has its operands. -/
theorem popped_zero (s : State) : Popped s 0 [] := by simp [Popped, lqValues]

/-- Nothing is popped. -/
@[simp] theorem popLq_zero (s : State) : s.popLq 0 = s := by simp [State.popLq]

/-- The popped state reads the same registers. -/
@[simp] theorem src_popLq (s : State) (n : Nat) (r : SReg) (v : List Reg) (i : Nat) :
    (s.popLq n).src r v i = s.src r v i := rfl

@[simp] theorem src2_popLq (s : State) (n : Nat) (a b : SReg) (v : List Reg) :
    (s.popLq n).src2 a b v = s.src2 a b v := rfl

@[simp] theorem sreg_popLq (s : State) (n : Nat) (r : SReg) :
    (s.popLq n).cx.sreg r = s.cx.sreg r := rfl

@[simp] theorem preg_popLq (s : State) (n : Nat) (k : PRegNum) :
    (s.popLq n).cx.preg k = s.cx.preg k := rfl

/-- The meaning of a word is the issue of its `WordSpec`. -/
theorem exec_word {i : Instr} {w : WordSpec} (h : wordOf i = some w) (s : State) :
    exec i s = .next (issueWord w s) := by
  cases i <;> first | (cases h; rfl) | cases h

end Sys2Proof.Laws
end

