-- ==== Sys2Proof/Laws/Ops.lean ====
section
/-!
SUPPORT. What the shared operations can do, said once: a cycle, a result sent on its way, an operand popped;
taking an exception and returning from one; capture, restore and a switch; and that each of them keeps the
canonical form of memory.
-/

namespace Sys2Proof.Laws

open Sys2Proof Sys2Proof.Machine Sys2Proof.Safety

/-- Memory, tags and marks are as before. -/
def SameMem (s t : State) : Prop := t.mem = s.mem ∧ t.empties = s.empties ∧ t.marks = s.marks

theorem sameMem_refl (s : State) : SameMem s s := ⟨rfl, rfl, rfl⟩

theorem sameMem_trans {s t u : State} (h : SameMem s t) (k : SameMem t u) : SameMem s u :=
  ⟨k.1.trans h.1, k.2.1.trans h.2.1, k.2.2.trans h.2.2⟩

theorem sameMem_memOk {s t : State} (h : SameMem s t) (hs : MemOk s) : MemOk t :=
  memOk_of_eq hs h.1 h.2.1 h.2.2

theorem sameMem_foldl {α : Type} {f : State → α → State} (hf : ∀ s x, SameMem s (f s x)) (l : List α)
    (s : State) : SameMem s (l.foldl f s) := by
  induction l generalizing s with
  | nil => exact sameMem_refl s
  | cons x t ih => exact sameMem_trans (hf s x) (ih (f s x))

/-! ### A cycle -/

/-- Only the counts of cycles and time are changed, and records written that they ask for. -/
def OnlyTime (s t : State) : Prop :=
  t = { s with
    cyc := t.cyc, ftime := t.ftime, ftPhase := t.ftPhase
    core := { s.core with
      mc := t.core.mc, charge := t.core.charge, charged := t.core.charged, chargeBank := t.core.chargeBank
      chargeAsid := t.core.chargeAsid, beatDone := t.core.beatDone, bkcfl := t.core.bkcfl }
    dbg := { s.dbg with
      trace := t.dbg.trace, traced := t.dbg.traced, trdrop := t.dbg.trdrop, sampled := t.dbg.sampled } }

theorem onlyTime_refl (s : State) : OnlyTime s s := rfl

theorem onlyTime_trans {s t u : State} (h : OnlyTime s t) (k : OnlyTime t u) : OnlyTime s u := by
  rw [OnlyTime] at h k ⊢
  rw [h] at k
  exact k

/-- A record for some entries changes the trace buffer alone (20 R306, R307). -/
theorem recordFor_time (s : State) (l : List Nat) (k n c : Nat) (b : Bool) (x y : Word) :
    OnlyTime s (s.recordFor l k n c b x y) ∧ (s.recordFor l k n c b x y).cyc = s.cyc := by
  unfold State.recordFor
  split
  · exact ⟨rfl, rfl⟩
  · split <;> exact ⟨rfl, rfl⟩

theorem sample_time (s : State) (b : Bool) : OnlyTime s (s.sample b) ∧ (s.sample b).cyc = s.cyc := by
  unfold State.sample
  dsimp only
  split
  · exact ⟨rfl, rfl⟩
  · split
    · exact ⟨rfl, rfl⟩
    · have hr := recordFor_time s ((s.dbg.sessions.filter (fun x => x.kind == 1 && s.cyc % 2 ^ x.k == 0
        && s.dbg.caps.any (fun e => e.1 == x.cap && e.2.asid == s.cx.asid.toNat))).map (·.cap)) 5 0 0 s.bank s.cx.pc
        (mkWord (bitsOf s.core.charged 0 57 + s.cycleClass.val * 2 ^ 57 + (if b then 2 ^ 60 else 0)))
      generalize s.recordFor _ _ _ _ _ _ _ = t at hr ⊢
      exact ⟨onlyTime_trans hr.1 rfl, hr.2⟩

theorem count_time (s : State) : OnlyTime s s.count ∧ s.count.cyc = (s.cyc + 1) % 2 ^ 64 := ⟨rfl, rfl⟩

theorem writeCharge_time (s : State) : OnlyTime s s.writeCharge ∧ s.writeCharge.cyc = s.cyc := by
  unfold State.writeCharge
  dsimp only
  split
  · exact ⟨rfl, rfl⟩
  · have hr := recordFor_time s (s.sessionsOf 2 s.core.chargeAsid) 7 0 0 s.core.chargeBank s.core.charged
      (mkWord (s.core.charge[0] + 2 ^ 12 * s.core.charge[1] + 2 ^ 24 * s.core.charge[2] + 2 ^ 36 * s.core.charge[3]
        + 2 ^ 48 * s.core.charge[4]))
    generalize s.recordFor _ _ _ _ _ _ _ = t at hr ⊢
    exact ⟨onlyTime_trans hr.1 rfl, hr.2⟩

theorem chargeRecord_time (s : State) : OnlyTime s s.chargeRecord ∧ s.chargeRecord.cyc = s.cyc := by
  unfold State.chargeRecord
  split
  · exact writeCharge_time s
  · exact ⟨rfl, rfl⟩

theorem recharge_time (s : State) : OnlyTime s s.recharge ∧ s.recharge.cyc = s.cyc := by
  unfold State.recharge
  dsimp only
  split
  · exact ⟨rfl, rfl⟩
  · have hr := writeCharge_time s
    generalize s.writeCharge = t at hr ⊢
    exact ⟨onlyTime_trans hr.1 rfl, hr.2⟩

/-- A cycle counts cycles and time, writes the records that are due, and does nothing else. -/
theorem tick_only (s : State) (b : Bool := false) : OnlyTime s (s.tick b) :=
  onlyTime_trans (recharge_time s).1 (onlyTime_trans (sample_time _ b).1
    (onlyTime_trans (count_time _).1 (chargeRecord_time _).1))

theorem tick_cyc (s : State) (b : Bool := false) : (s.tick b).cyc = (s.cyc + 1) % 2 ^ 64 := by
  rw [State.tick, (chargeRecord_time _).2, (count_time _).2, (sample_time _ b).2, (recharge_time s).2]

/-- So do n cycles. -/
theorem ticks_only (n : Nat) (s : State) : OnlyTime s (State.ticks n s) := by
  induction n generalizing s with
  | zero => rfl
  | succ n ih => exact onlyTime_trans (tick_only s) (ih s.tick)

/-- n cycles advance `cyc` by n. -/
theorem ticks_cyc (n : Nat) (s : State) (h : s.cyc < 2 ^ 64) :
    (State.ticks n s).cyc = (s.cyc + n) % 2 ^ 64 := by
  induction n generalizing s with
  | zero => exact (Nat.mod_eq_of_lt h).symm
  | succ n ih =>
    rw [State.ticks, ih s.tick (by rw [tick_cyc]; exact Nat.mod_lt _ (by decide)), tick_cyc]
    omega

@[simp] theorem ticks_cx (n : Nat) (s : State) : (State.ticks n s).cx = s.cx := by rw [ticks_only n s]
@[simp] theorem ticks_sh (n : Nat) (s : State) : (State.ticks n s).sh = s.sh := by rw [ticks_only n s]
@[simp] theorem ticks_cxSt (n : Nat) (s : State) : (State.ticks n s).cxSt = s.cxSt := by
  rw [ticks_only n s]
@[simp] theorem ticks_mem (n : Nat) (s : State) : (State.ticks n s).mem = s.mem := by rw [ticks_only n s]
@[simp] theorem ticks_empties (n : Nat) (s : State) : (State.ticks n s).empties = s.empties := by
  rw [ticks_only n s]
@[simp] theorem ticks_marks (n : Nat) (s : State) : (State.ticks n s).marks = s.marks := by
  rw [ticks_only n s]
@[simp] theorem ticks_ctl (n : Nat) (s : State) : (State.ticks n s).ctl = s.ctl := by rw [ticks_only n s]

theorem ticks_sameMem (n : Nat) (s : State) : SameMem s (State.ticks n s) := by
  simp [SameMem]

/-! ### Results on their way -/

/-- A result is sent: it joins the results in flight, with a landing between the next cycle and its bound
(03 R31), and nothing else changes but the count of free values. -/
theorem push_spec (s : State) (w : Write) (b : Nat) :
    ∃ land fv, 1 ≤ land ∧ land ≤ Nat.max 1 b ∧
      s.push w b = { s with
        fv := fv
        cx := { s.cx with
          pend := s.cx.pend ++ [{ w := w, issued := s.cx.icyc, bound := b, land := land }] } } := by
  refine ⟨_, _, ?_, ?_, rfl⟩
  · split <;> omega
  · split
    · exact Nat.le_max_left 1 b
    · next h =>
      have := Nat.mod_lt (Config.landing s.fv) (show b > 0 by omega)
      exact Nat.le_trans (by omega) (Nat.le_max_right 1 b)

theorem push_computes (s : State) (w : Write) (b : Nat) : ComputesOnly s (s.push w b) := rfl

/-- A scalar result: `s0` discards it, a poisoned value is any value (03 R36, 05 R81). -/
theorem wreg_spec (s : State) (r : SReg) (v : Reg) (b : Nat) :
    (r = 0 → s.wreg r v b = s) ∧
    (r ≠ 0 → v.poison = false → s.wreg r v b = s.push (.sreg r v) b) ∧
    (r ≠ 0 → v.poison = true →
      ∃ x, s.wreg r v b = ({ s with fv := s.fv + 1 }).push (.sreg r { v with val := x }) b) := by
  refine ⟨fun h => ?_, fun h hp => ?_, fun h hp => ⟨Config.freeWord s.fv, ?_⟩⟩
  · simp [State.wreg, h]
  · rw [State.wreg, if_neg (by simpa using h), if_neg (by simp [hp])]
  · rw [State.wreg, if_neg (by simpa using h), if_pos hp]
    rfl

/-- A predicate result: `k0` discards it, a poisoned value is any value (03 R36, 05 R81). -/
theorem wpred_spec (s : State) (k : PRegNum) (v : PReg) (b : Nat) :
    (k = 0 → s.wpred k v b = s) ∧
    (k ≠ 0 → v.poison = false → s.wpred k v b = s.push (.pred k v) b) ∧
    (k ≠ 0 → v.poison = true →
      ∃ x, s.wpred k v b = ({ s with fv := s.fv + 1 }).push (.pred k { v with val := x }) b) := by
  refine ⟨fun h => ?_, fun h hp => ?_, fun h hp => ⟨(Config.freeWord s.fv).getLsbD 0, ?_⟩⟩
  · simp [State.wpred, h]
  · rw [State.wpred, if_neg (by simpa using h), if_neg (by simp [hp])]
  · rw [State.wpred, if_neg (by simpa using h), if_pos hp]
    rfl

theorem computesOnly_refl (s : State) : ComputesOnly s s := rfl

theorem computesOnly_trans {s t u : State} (h : ComputesOnly s t) (k : ComputesOnly t u) :
    ComputesOnly s u := by
  rw [ComputesOnly] at h k ⊢
  rw [h] at k
  exact k

theorem wreg_computes (s : State) (r : SReg) (v : Reg) (b : Nat) : ComputesOnly s (s.wreg r v b) := by
  unfold State.wreg
  split
  · rfl
  · split <;> rfl

theorem wpred_computes (s : State) (k : PRegNum) (v : PReg) (b : Nat) :
    ComputesOnly s (s.wpred k v b) := by
  unfold State.wpred
  split
  · rfl
  · split <;> rfl

theorem wflags_computes (s : State) (f : Flags) (b : Nat) : ComputesOnly s (s.wflags f b) := by
  unfold State.wflags
  split <;> rfl

theorem popLq_computes (s : State) (n : Nat) : ComputesOnly s (s.popLq n) := rfl

theorem computesOnly_sameMem {s t : State} (h : ComputesOnly s t) : SameMem s t := by
  rw [ComputesOnly] at h
  rw [h]
  exact sameMem_refl _

/-! ### Results that land -/

theorem setSpecial_sameMem (s : State) (n : Nat) (v : Word) (p : Bool) :
    SameMem s (s.setSpecial n v p) := by
  unfold State.setSpecial
  split <;> first | exact sameMem_refl _ | (split <;> exact sameMem_refl _)

theorem applyWrite_sameMem (s : State) (w : Write) : SameMem s (s.applyWrite w) := by
  unfold State.applyWrite
  split <;> first | exact setSpecial_sameMem s _ _ _ | exact sameMem_refl _

theorem applyOne_sameMem (s : State) (l : List Pend) (p : Option Pend) : SameMem s (s.applyOne l p) := by
  unfold State.applyOne
  split <;> first | exact sameMem_refl _ | (split <;> first | exact sameMem_refl _ | exact applyWrite_sameMem s _)

theorem applyGroup_sameMem (s : State) (l : List Pend) : SameMem s (s.applyGroup l) := by
  unfold State.applyGroup
  split
  · exact applyOne_sameMem s _ _
  · exact applyOne_sameMem s _ _
  · exact applyOne_sameMem { s with fv := s.fv + 1 } _ _

theorem settleList_sameMem (t n : Nat) (l kept : List Pend) (s : State) :
    SameMem s (settleList t n l kept s).1 := by
  induction n generalizing l kept s with
  | zero => exact sameMem_refl _
  | succ n ih =>
    cases l with
    | nil => exact sameMem_refl _
    | cons p l =>
      simp only [settleList]
      split
      · split
        · exact sameMem_trans (applyWrite_sameMem s _) (ih _ _ _)
        · exact ih _ _ _
      · split
        · exact sameMem_trans (applyGroup_sameMem s _) (ih _ _ _)
        · split
          · exact sameMem_trans (applyWrite_sameMem s _) (ih _ _ _)
          · exact ih _ _ _

theorem settle_sameMem (s : State) : SameMem s s.settle :=
  settleList_sameMem s.cx.icyc s.cx.pend.length s.cx.pend [] s

theorem drain_sameMem (s : State) : SameMem s s.drain :=
  settleList_sameMem _ s.cx.pend.length _ [] s

/-- After a drain nothing is in flight but the counts that streams have yet to find (03 R34). -/
@[simp] theorem drain_pend (s : State) : s.drain.cx.pend = s.cx.pend.filter (fun p => !p.w.known) := rfl

theorem tick_sameMem (s : State) : SameMem s s.tick := ticks_sameMem 1 s

/-- The end of a bundle: a cycle passes, the address is the next one, and results that have landed are
applied (03 R33). -/
theorem advance_sameMem (s : State) (a : Word) : SameMem s (s.advance a) := by
  have h := tick_sameMem s
  unfold State.advance
  dsimp only
  generalize s.tick = t at h ⊢
  exact sameMem_trans (t := { t with cx := { t.cx with pc := a, icyc := t.cx.icyc + 1 } }) h (settle_sameMem _)

/-! ### Packets and records -/

theorem recordFor_sameMem (s : State) (l : List Nat) (k n c : Nat) (b : Bool) (x y : Word) :
    SameMem s (s.recordFor l k n c b x y) := by
  unfold State.recordFor
  split
  · exact sameMem_refl _
  · split <;> exact sameMem_refl _

/-- A trace record changes only the trace. -/
theorem record_only (s : State) (k n c : Nat) (x y : Word) :
    s.record k n c x y = { s with dbg := (s.record k n c x y).dbg } := by
  unfold State.record State.recordFor
  split
  · rfl
  · split <;> rfl

theorem record_sameMem (s : State) (k n c : Nat) (x y : Word) : SameMem s (s.record k n c x y) :=
  recordFor_sameMem s _ _ _ _ _ _ _

theorem enterRouter_sameMem (s : State) (n : Nat) (p : Packet) : SameMem s (s.enterRouter n p) := by
  unfold State.enterRouter
  exact sameMem_refl _

theorem sendPacket_sameMem (s : State) (p : Packet) : SameMem s (s.sendPacket p) :=
  enterRouter_sameMem { s with fab := { s.fab with egress := Nat.max s.cyc s.fab.egress + 1 } } _ _

theorem flushLine_sameMem (s : State) (l : Line) : SameMem s (s.flushLine l) :=
  sendPacket_sameMem { s with core := { s.core with lines := s.core.lines.filter (· != l) } } _

theorem flushLines_sameMem (s : State) (p : Line → Bool) : SameMem s (s.flushLines p) :=
  sameMem_foldl flushLine_sameMem _ s

theorem withdrawAll_sameMem (s : State) : SameMem s s.withdrawAll := by
  unfold State.withdrawAll
  exact sameMem_trans (t := { s with core := _, cx := _ }) (sameMem_refl s)
    (sameMem_foldl (fun t p => sendPacket_sameMem t _) _ _)

/-! ### Captures and switches -/

theorem capture_sameMem (s : State) : SameMem s s.capture := by
  have h := sameMem_trans (drain_sameMem s)
    (sameMem_trans (flushLines_sameMem s.drain (fun l => l.owner == s.drain.cx.uid))
      (withdrawAll_sameMem _))
  exact h

/-- A captured context says so, and has nothing in flight. -/
theorem capture_captured (s : State) : s.capture.cx.captured = true := rfl

theorem restore_sameMem (s : State) : SameMem s s.restore := by
  unfold State.restore
  exact ⟨rfl, rfl, rfl⟩

theorem ticks_restore_sameMem (n : Nat) (s : State) : SameMem s (State.ticks n s).restore :=
  sameMem_trans (ticks_sameMem n s) (restore_sameMem _)

/-- Exchanging the banks leaves memory alone (13 R224). -/
theorem exchange_sameMem (s : State) (st : BankSt) : SameMem s (s.exchange st) := by
  unfold State.exchange
  exact sameMem_trans (by exact ⟨rfl, rfl, rfl⟩) (ticks_restore_sameMem 24 _)

/-- The record of a switch changes only the trace. -/
theorem noteSwitch_only (s : State) (st : BankSt) (n : Nat) :
    s.noteSwitch st n = { s with dbg := (s.noteSwitch st n).dbg } := by
  unfold State.noteSwitch
  split
  · rfl
  · exact record_only s 4 n 0 s.cx.pc 0

theorem noteSwitch_sameMem (s : State) (st : BankSt) (n : Nat) : SameMem s (s.noteSwitch st n) := by
  rw [noteSwitch_only]
  exact sameMem_refl s

theorem leave_sameMem (s : State) (st : BankSt) (n : Nat) : SameMem s (s.leave st n) := by
  unfold State.leave
  split
  · exact sameMem_trans (noteSwitch_sameMem s st n) (exchange_sameMem _ st)
  · exact ⟨rfl, rfl, rfl⟩

@[simp] theorem restore_cxSt (s : State) : s.restore.cxSt = s.cxSt := by simp only [State.restore]
@[simp] theorem restore_shSt (s : State) : s.restore.shSt = s.shSt := by simp only [State.restore]
@[simp] theorem restore_bank (s : State) : s.restore.bank = s.bank := by simp only [State.restore]
@[simp] theorem ticks_shSt (n : Nat) (s : State) : (State.ticks n s).shSt = s.shSt := by
  rw [ticks_only n s]
@[simp] theorem ticks_bank (n : Nat) (s : State) : (State.ticks n s).bank = s.bank := by
  rw [ticks_only n s]

/-- A switch runs the other bank if it is ready: its context is then the running one (13 R224). -/
theorem leave_ready {s : State} (h : s.shSt = .ready) (st : BankSt) (n : Nat) :
    (s.leave st n).cxSt = .running ∧ (s.leave st n).shSt = st ∧ (s.leave st n).bank = !s.bank := by
  have hb : (s.noteSwitch st n).bank = s.bank := by rw [noteSwitch_only]
  have hc : (s.shSt == BankSt.ready) = true := by rw [h]; rfl
  unfold State.leave
  rw [if_pos hc]
  unfold State.exchange
  simp only [restore_cxSt, restore_shSt, restore_bank, ticks_cxSt, ticks_shSt, ticks_bank, hb, and_self]

/-- With no ready context in the other bank, the core idles. -/
theorem leave_idle {s : State} (h : s.shSt ≠ .ready) (st : BankSt) (n : Nat) :
    s.leave st n = { s with cxSt := st, ctl := .gone } := by
  have hc : ¬ (s.shSt == BankSt.ready) = true := by simpa using h
  rw [State.leave, if_neg hc]

theorem onCtx_sameMem (s : State) (p : Ctx → Bool) (f : Ctx → Ctx) : SameMem s (s.onCtx p f) :=
  sameMem_refl s

theorem freeRange_sameMem (s : State) (lo n : Nat) : SameMem s (s.freeRange lo n) := sameMem_refl s

/-- Ranges freed one after another leave memory alone. -/
theorem freeAll_sameMem (f g : State → Grant → Nat) (l : List Grant) (s : State) :
    SameMem s (l.foldl (fun t x => t.freeRange (f t x) (g t x)) s) :=
  sameMem_foldl (fun t x => freeRange_sameMem t (f t x) (g t x)) l s

theorem releaseTask_sameMem (s : State) : SameMem s s.releaseTask := by
  unfold State.releaseTask
  dsimp only [SameMem]
  rw [(freeAll_sameMem _ _ _ _).1, (freeAll_sameMem _ _ _ _).2.1, (freeAll_sameMem _ _ _ _).2.2]
  exact ⟨rfl, rfl, rfl⟩

theorem noteTaskEnd_sameMem (s : State) (n : Nat) (r : Option Nat) : SameMem s (s.noteTaskEnd n r) :=
  ⟨rfl, rfl, rfl⟩

theorem leave_of_sameMem {s t : State} (h : SameMem s t) (st : BankSt) (n : Nat) : SameMem s (t.leave st n) :=
  sameMem_trans h (leave_sameMem t st n)

/-- A charge record changes no memory (20 R310). -/
theorem writeCharge_sameMem (s : State) : SameMem s s.writeCharge := by
  have h := (writeCharge_time s).1
  rw [OnlyTime] at h
  rw [h]
  exact ⟨rfl, rfl, rfl⟩

theorem endRest_sameMem (w : State) (r : Option Nat) : SameMem w (w.endRest r) := by
  unfold State.endRest
  dsimp only
  generalize w.cx.task.node = node
  have hr : SameMem w (if w.shSt == BankSt.ready then w.record 4 3 0 w.cx.pc 0 else w) := by
    split
    · exact record_sameMem w 4 3 0 w.cx.pc 0
    · exact sameMem_refl w
  generalize (if w.shSt == BankSt.ready then w.record 4 3 0 w.cx.pc 0 else w) = v at hr ⊢
  have h := sameMem_trans hr (sameMem_trans (releaseTask_sameMem v) (noteTaskEnd_sameMem v.releaseTask node r))
  generalize v.releaseTask.noteTaskEnd node r = t at h ⊢
  split
  · have e := exchange_sameMem { t with
      cx := Ctx.fresh
      core := { t.core with yieldReq := none, parked := t.core.parked.filter (·.owner != t.cx.uid) } } .empty
    exact ⟨e.1.trans h.1, e.2.1.trans h.2.1, e.2.2.trans h.2.2⟩
  · exact ⟨h.1, h.2.1, h.2.2⟩

theorem endTask_sameMem (s : State) (r : Option Nat) : SameMem s (s.endTask r) :=
  sameMem_trans (writeCharge_sameMem s) (endRest_sameMem _ r)

/-- A task that ends in the cycle of its `END` leaves memory alone too. -/
theorem endNow_sameMem (s : State) : SameMem s s.endNow :=
  sameMem_trans (writeCharge_sameMem s) (sameMem_trans (tick_sameMem _) (endRest_sameMem _ _))

/-- A cause delivered to the firmware leaves memory alone (13 R222, R228). -/
theorem freeze_sameMem (s : State) (r : FaultRec) : SameMem s (s.freeze r) := by
  have h := sameMem_trans (record_sameMem s 2 r.cause 0 r.badr 0) (capture_sameMem _)
  unfold State.freeze
  dsimp only
  generalize (s.record 2 r.cause 0 r.badr 0).capture = t at h ⊢
  exact leave_of_sameMem (t := { t with cx := { t.cx with fault := some r } }) h .held 2

/-- With no ready context in the other bank, the faulting context is held with its record. -/
theorem freeze_held {s : State} (r : FaultRec)
    (h : (s.record 2 r.cause 0 r.badr 0).capture.shSt ≠ .ready) :
    (s.freeze r).cxSt = .held ∧ (s.freeze r).cx.fault = some r := by
  unfold State.freeze
  dsimp only
  generalize (s.record 2 r.cause 0 r.badr 0).capture = t at h ⊢
  rw [leave_idle (s := { t with cx := { t.cx with fault := some r } }) h]
  exact ⟨rfl, rfl⟩

/-! ### Descriptors -/

/-- A descriptor with nothing in flight reads as it is stored (07 R149). -/
theorem desc_idle {c : Ctx} {d : DReg} (h : c.inFlight (200 + d.toNat) = []) :
    c.desc d = c.descs[d.toNat]'d.isLt := by
  simp [Ctx.desc, Ctx.visible, h, descAfter]

/-- A `DADV` that has landed moves the base and leaves the count to what else is on its way (07 R151). -/
theorem descAfter_base (x : Desc) (d : DReg) (b : Word) (p : Pend) (h : p.w = .base d b) :
    descAfter x [p] none = { x with w0 := b } := by
  simp [descAfter, h]

/-! ### Writes that software makes -/

theorem blurByte_memOk {s : State} (h : MemOk s) (l : Nat) : MemOk (s.blurByte l) :=
  setByte_memOk (s := s.draw.2) (memOk_of_eq h rfl rfl rfl) l _

theorem blurSent_memOk {s : State} (h : MemOk s) (t : TSend) (k : Nat) : MemOk (s.blurSent t k) := by
  unfold State.blurSent
  split
  · exact h
  · dsimp only
    refine foldl_memOk (fun s g hs => setByte_memOk hs _ _) _ ?_
    exact memOk_of_eq h rfl rfl rfl

/-- What a write of software notes and leaves undefined keeps the canonical form (10 R199; 16 R269; 17 R276). -/
theorem wrote_memOk {s : State} (h : MemOk s) (old : State) (x : Actor) (ls : List Nat) :
    MemOk (s.wrote old x ls) := by
  unfold State.wrote
  dsimp only
  have hb := foldl_memOk (f := State.blurByte) (fun s l hs => blurByte_memOk hs l) (ls.filter (s.locked x)) h
  generalize (ls.filter (s.locked x)).foldl State.blurByte s = t at hb ⊢
  refine memOk_of_eq (s := t.fab.tsends.foldl _ t) ?_ rfl rfl rfl
  exact foldl_memOk (fun s u hs => foldl_memOk (fun s l hs => blurSent_memOk hs u _) _ hs) _ hb

/-! ### Taking an exception -/

theorem setWords_memOk {s : State} (h : MemOk s) (loc : Nat) (l : List Word) :
    MemOk (s.setWords loc l) :=
  setBytes_memOk h loc _

/-- A cause with its handler: the cause, the address and the value are written, the resume state is saved,
the handler is next, and 24 cycles pass (13 R217, R219). -/
theorem trap_handler {s : State} {cause : Nat} {tval resume : Word} {done : Bool}
    (h1 : s.drain.cx.thand ≠ 0) (h2 : s.drain.cx.tcause.getLsbD 10 = false) :
    (s.trap cause tval done resume).cx =
      { s.drain.cx with
        tcause := tcauseOf cause done s.drain.cx.priv, tbadr := s.drain.badr, tval := tval
        resumeAddr := resume, savedLbeg := s.drain.cx.lbeg, savedLend := s.drain.cx.lend
        savedLcnt := s.drain.cx.lcnt, lcnt := 0, pc := s.drain.cx.thand }
    ∧ (s.trap cause tval done resume).ctl = .trapped
    ∧ SameMem s (s.trap cause tval done resume) := by
  have hd := drain_sameMem s
  rw [State.trap]
  generalize s.drain = d at h1 h2 hd ⊢
  have hc : ¬ (d.cx.thand == 0 || d.cx.tcause.getLsbD 10) = true := by
    rw [h2, Bool.or_false]; simpa using h1
  rw [if_neg hc]
  dsimp only
  refine ⟨?_, ?_, sameMem_trans hd (sameMem_trans ?_ (ticks_sameMem 24 _))⟩
  · rw [ticks_cx]
  · rw [ticks_ctl]
  · exact ⟨rfl, rfl, rfl⟩

/-- A cause without a handler, or with the handler active, ends the task (13 R217). -/
theorem trap_double {s : State} {cause : Nat} {tval resume : Word} {done : Bool}
    (h : s.drain.cx.thand = 0 ∨ s.drain.cx.tcause.getLsbD 10 = true) :
    s.trap cause tval done resume = s.drain.dtrap cause tval := by
  have hc : (s.drain.cx.thand == 0 || s.drain.cx.tcause.getLsbD 10) = true := by
    rcases h with h | h <;> simp [h]
  unfold State.trap
  rw [if_pos hc]

/-- Returning from an exception of issue kind goes back to the bundle, from one of completion kind to the
resume address; the loop is restored and the handler is active no more (13 R229). -/
theorem eretPlain_spec (s : State) :
    s.eretPlain.ctl = .jump (if s.cx.tcause.getLsbD 8 then s.cx.resumeAddr else s.specialNow 0x009)
    ∧ s.eretPlain.cx.tcause.getLsbD 10 = false
    ∧ s.eretPlain.cx.lcnt = s.cx.savedLcnt ∧ SameMem s s.eretPlain := by
  refine ⟨rfl, ?_, rfl, sameMem_refl s⟩
  show (s.cx.tcause &&& ~~~(0x400 : Word)).getLsbD 10 = false
  rw [BitVec.getLsbD_and]
  simp

/-! ### The canonical form is kept by an exception -/

theorem spanEntry_sameMem (s : State) (loc : Nat) (e : Word) (n : Nat) :
    SameMem s (s.spanEntry loc e n).2 := by
  unfold State.spanEntry
  split
  · dsimp only
    split <;> exact ⟨rfl, rfl, rfl⟩
  · exact sameMem_refl s

theorem cacheWalk_sameMem (s : State) (asid : Nat) (va : Word) (l pa : Nat) :
    SameMem s (s.cacheWalk asid va l pa) := sameMem_refl s

theorem walkFrom_memOk (va : Word) (asid : Nat) (write priv : Bool) (n table : Nat) {s : State}
    (h : MemOk s) : MemOk (walkFrom va asid write priv n table s).2 := by
  induction n generalizing table s with
  | zero =>
    unfold walkFrom
    dsimp only
    split
    · exact h
    · split
      · exact h
      · exact setWord_memOk (sameMem_memOk (spanEntry_sameMem s _ _ _) h) _ _
      · exact h
  | succ n ih =>
    unfold walkFrom
    dsimp only
    split
    · exact h
    · split
      · exact h
      · exact setWord_memOk (sameMem_memOk (spanEntry_sameMem s _ _ _) h) _ _
      · exact ih _ (sameMem_memOk (cacheWalk_sameMem s _ _ _ _) h)

theorem translate_memOk {s : State} (h : MemOk s) (ptbase asid : Nat) (va : Word) (write priv : Bool) :
    MemOk (s.translate ptbase asid va write priv).2 := by
  unfold State.translate
  split
  · exact h
  · dsimp only
    have hw := walkFrom_memOk va asid write priv (s.walkStart ptbase asid va).1
      (s.walkStart ptbase asid va).2 h
    generalize walkFrom _ _ _ _ _ _ _ = r at hw ⊢
    split
    · exact memOk_of_eq hw rfl rfl rfl
    · exact hw

theorem writeHeader_memOk {s : State} (h : MemOk s) (r : FaultRec) : MemOk (s.writeHeader r) := by
  unfold State.writeHeader
  split
  · exact h
  · have ht := translate_memOk h s.cx.ptbase.toNat s.cx.asid.toNat s.cx.ctxsave true true
    split
    · next heq =>
      rw [heq] at ht
      exact setWords_memOk ht _ _
    · exact h

theorem endTask_fault_memOk {s : State} (h : MemOk s) (f : Option FaultRec) (r : Option Nat) :
    MemOk (({ s with cx := { s.cx with fault := f } } : State).endTask r) :=
  sameMem_memOk (endTask_sameMem _ _) (memOk_of_eq h rfl rfl rfl)

theorem dtrap_memOk {s : State} (h : MemOk s) (cause : Nat) (tval : Word) : MemOk (s.dtrap cause tval) := by
  unfold State.dtrap
  exact endTask_fault_memOk (writeHeader_memOk (sameMem_memOk (capture_sameMem s) h) _) _ _

/-- Taking an exception keeps the canonical form of memory. -/
theorem trap_memOk {s : State} (h : MemOk s) (cause : Nat) (tval : Word) (done : Bool) (resume : Word) :
    MemOk (s.trap cause tval done resume) := by
  have hd : MemOk s.drain := sameMem_memOk (drain_sameMem s) h
  by_cases h0 : s.drain.cx.thand = 0
  · rw [trap_double (Or.inl h0)]; exact dtrap_memOk hd _ _
  · cases h1 : s.drain.cx.tcause.getLsbD 10 with
    | true => rw [trap_double (Or.inr h1)]; exact dtrap_memOk hd _ _
    | false => exact sameMem_memOk (trap_handler h0 h1).2.2 h

theorem trapIssue_memOk {s : State} (h : MemOk s) (t : TrapReq) : MemOk (s.trapIssue t) :=
  trap_memOk (sameMem_memOk (record_sameMem s _ _ _ _ _) h) _ _ _ _

theorem loopNext_sameMem (s : State) : SameMem s s.loopNext.1 := by
  unfold State.loopNext
  dsimp only
  split
  · split <;> exact ⟨rfl, rfl, rfl⟩
  · exact sameMem_refl s

theorem trapDone_memOk {s : State} (h : MemOk s) (cause : Nat) (tval : Word) :
    MemOk (s.trapDone cause tval) := by
  unfold State.trapDone
  exact trap_memOk (sameMem_memOk (sameMem_trans (record_sameMem s _ _ _ _ _)
    (sameMem_trans (loopNext_sameMem _) (advance_sameMem _ _))) h) _ _ _ _

theorem branchTo_memOk {s : State} (h : MemOk s) (a : Word) : MemOk (s.branchTo a) := by
  unfold State.branchTo
  split
  · exact trap_memOk (sameMem_memOk (sameMem_trans (record_sameMem s _ _ _ _ _) (advance_sameMem _ _)) h)
      _ _ _ _
  · have hr := sameMem_memOk (record_sameMem s 6 0 0 s.badr a) h
    generalize s.record 6 0 0 s.badr a = t at hr ⊢
    exact hr

theorem eretJump_sameMem (s : State) (a : Word) : SameMem s (s.eretJump a) := by
  unfold State.eretJump
  dsimp only
  exact ⟨rfl, rfl, rfl⟩

/-! ### What a word can do -/

/-- The issue of a word: its own effect, a trap of issue kind, or a stall (03 R336, 13 R216). -/
theorem issueWord_cases (w : WordSpec) (s : State) :
    (∃ t, issueWord w s = s.trapIssue t)
    ∨ issueWord w s = s.stallNow true
    ∨ (∃ v, Popped s w.pops v ∧ issueWord w s = (w.onStall s v).stallNow false)
    ∨ (∃ v, Popped s w.pops v ∧ issueWord w s = w.effect (s.popLq w.pops) v) := by
  cases hi : w.illop s with
  | true => exact Or.inl ⟨_, issueWord_illop hi⟩
  | false =>
    by_cases hl : s.cx.lq.length < w.pops
    · exact Or.inl ⟨_, issueWord_empty hi hl⟩
    · have hl' := Nat.not_lt.mp hl
      cases hv : lqValues w.pops s.cx.lq with
      | none => exact Or.inr (Or.inl (issueWord_wait hi hl' hv))
      | some v =>
        have hp : Popped s w.pops v := ⟨hl', hv⟩
        cases hs : w.stall s v w.pops with
        | true => exact Or.inr (Or.inr (Or.inl ⟨v, hp, issueWord_stall hi hp hs⟩))
        | false =>
          cases hc : w.check s v with
          | some t => exact Or.inl ⟨t, issueWord_trap hi hp hs hc⟩
          | none => exact Or.inr (Or.inr (Or.inr ⟨v, hp, issueWord_effect hi hp hs hc⟩))

/-- A word keeps the canonical form when its effect and its stall do. -/
theorem issueWord_memOk {w : WordSpec} {s : State} (h : MemOk s)
    (he : ∀ v, MemOk (w.effect (s.popLq w.pops) v)) (hs : ∀ v, MemOk (w.onStall s v)) :
    MemOk (issueWord w s) := by
  rcases issueWord_cases w s with ⟨t, ht⟩ | ht | ⟨v, -, ht⟩ | ⟨v, -, ht⟩ <;> rw [ht]
  · exact trapIssue_memOk h t
  · exact memOk_of_eq h rfl rfl rfl
  · exact memOk_of_eq (hs v) rfl rfl rfl
  · exact he v

end Sys2Proof.Laws
end

