-- ==== Sys2Proof/Laws/PerInstr.lean ====
section
/-!
SUPPORT. What holds of each instruction as syntax. Family RoundTrip: whatever word the encoder gives an
instruction, with either chain bit, the decoder reads that instruction from it. Proofs go through one
lemma per format (a field of a packed word is the field) and one per major (which decoder it takes).
-/

namespace Sys2Proof.Laws

open Sys2Proof BitVec

/-- A packed word with its chain bit, bit 31. -/
abbrev wordWith (c : Bool) (b : BitVec 31) : IWord := BitVec.ofBool c ++ b

/-- The fields of a word of `packR`. -/
theorem fields_packR (c : Bool) (maj : BitVec 5) (d a b : BitVec 6) (fn : BitVec 8) :
    fld (wordWith c (packR maj d a b fn)) 26 5 = maj
    ∧ fld (wordWith c (packR maj d a b fn)) 20 6 = d
    ∧ fld (wordWith c (packR maj d a b fn)) 14 6 = a
    ∧ fld (wordWith c (packR maj d a b fn)) 8 6 = b
    ∧ fld (wordWith c (packR maj d a b fn)) 0 8 = fn := by
  refine ⟨?_, ?_, ?_, ?_, ?_⟩ <;>
    simp (disch := decide) only [fld, wordWith, packR, extractLsb'_append_eq_of_add_le,
      extractLsb'_append_eq_of_le, Nat.reduceSub, extractLsb'_eq_self]

/-- The fields of a word of `packI`. -/
theorem fields_packI (c : Bool) (maj : BitVec 5) (d a : BitVec 6) (op : BitVec 3) (imm : BitVec 11) :
    fld (wordWith c (packI maj d a op imm)) 26 5 = maj
    ∧ fld (wordWith c (packI maj d a op imm)) 20 6 = d
    ∧ fld (wordWith c (packI maj d a op imm)) 14 6 = a
    ∧ fld (wordWith c (packI maj d a op imm)) 11 3 = op
    ∧ fld (wordWith c (packI maj d a op imm)) 0 11 = imm := by
  refine ⟨?_, ?_, ?_, ?_, ?_⟩ <;>
    simp (disch := decide) only [fld, wordWith, packI, extractLsb'_append_eq_of_add_le,
      extractLsb'_append_eq_of_le, Nat.reduceSub, extractLsb'_eq_self]

/-- The fields of a word of `packL`. -/
theorem fields_packL (c : Bool) (maj : BitVec 5) (d : BitVec 6) (imm : BitVec 20) :
    fld (wordWith c (packL maj d imm)) 26 5 = maj
    ∧ fld (wordWith c (packL maj d imm)) 20 6 = d
    ∧ fld (wordWith c (packL maj d imm)) 0 20 = imm := by
  refine ⟨?_, ?_, ?_⟩ <;>
    simp (disch := decide) only [fld, wordWith, packL, extractLsb'_append_eq_of_add_le,
      extractLsb'_append_eq_of_le, Nat.reduceSub, extractLsb'_eq_self]

/-- The fields of a word of `packK`. -/
theorem fields_packK (c : Bool) (maj : BitVec 5) (d : BitVec 6) (sh : BitVec 2) (imm : BitVec 18) :
    fld (wordWith c (packK maj d sh imm)) 26 5 = maj
    ∧ fld (wordWith c (packK maj d sh imm)) 20 6 = d
    ∧ fld (wordWith c (packK maj d sh imm)) 18 2 = sh
    ∧ fld (wordWith c (packK maj d sh imm)) 0 18 = imm := by
  refine ⟨?_, ?_, ?_, ?_⟩ <;>
    simp (disch := decide) only [fld, wordWith, packK, extractLsb'_append_eq_of_add_le,
      extractLsb'_append_eq_of_le, Nat.reduceSub, extractLsb'_eq_self]

/-- The fields of a word of `packB`. -/
theorem fields_packB (c : Bool) (maj : BitVec 5) (k : BitVec 3) (n : BitVec 1) (off : BitVec 22) :
    fld (wordWith c (packB maj k n off)) 26 5 = maj
    ∧ fld (wordWith c (packB maj k n off)) 23 3 = k
    ∧ fld (wordWith c (packB maj k n off)) 22 1 = n
    ∧ fld (wordWith c (packB maj k n off)) 0 22 = off := by
  refine ⟨?_, ?_, ?_, ?_⟩ <;>
    simp (disch := decide) only [fld, wordWith, packB, extractLsb'_append_eq_of_add_le,
      extractLsb'_append_eq_of_le, Nat.reduceSub, extractLsb'_eq_self]

/-- The fields of a word of `packC`. -/
theorem fields_packC (c : Bool) (maj : BitVec 5) (off : BitVec 26) :
    fld (wordWith c (packC maj off)) 26 5 = maj
    ∧ fld (wordWith c (packC maj off)) 0 26 = off := by
  refine ⟨?_, ?_⟩ <;>
    simp (disch := decide) only [fld, wordWith, packC, extractLsb'_append_eq_of_add_le,
      extractLsb'_append_eq_of_le, Nat.reduceSub, extractLsb'_eq_self]

/-- The fields of a word of `packM`. -/
theorem fields_packM (c : Bool) (maj : BitVec 5) (x base : BitVec 6) (cls : BitVec 4) (sz : BitVec 2) (off : BitVec 8) :
    fld (wordWith c (packM maj x base cls sz off)) 26 5 = maj
    ∧ fld (wordWith c (packM maj x base cls sz off)) 20 6 = x
    ∧ fld (wordWith c (packM maj x base cls sz off)) 14 6 = base
    ∧ fld (wordWith c (packM maj x base cls sz off)) 10 4 = cls
    ∧ fld (wordWith c (packM maj x base cls sz off)) 8 2 = sz
    ∧ fld (wordWith c (packM maj x base cls sz off)) 0 8 = off := by
  refine ⟨?_, ?_, ?_, ?_, ?_, ?_⟩ <;>
    simp (disch := decide) only [fld, wordWith, packM, extractLsb'_append_eq_of_add_le,
      extractLsb'_append_eq_of_le, Nat.reduceSub, extractLsb'_eq_self]

/-- The fields of a word of `packA`. -/
theorem fields_packA (c : Bool) (maj : BitVec 5) (v base : BitVec 6) (cls : BitVec 4) (sz : BitVec 2) (f : BitVec 1) (op : BitVec 4) (res : BitVec 3) :
    fld (wordWith c (packA maj v base cls sz f op res)) 26 5 = maj
    ∧ fld (wordWith c (packA maj v base cls sz f op res)) 20 6 = v
    ∧ fld (wordWith c (packA maj v base cls sz f op res)) 14 6 = base
    ∧ fld (wordWith c (packA maj v base cls sz f op res)) 10 4 = cls
    ∧ fld (wordWith c (packA maj v base cls sz f op res)) 8 2 = sz
    ∧ fld (wordWith c (packA maj v base cls sz f op res)) 7 1 = f
    ∧ fld (wordWith c (packA maj v base cls sz f op res)) 3 4 = op
    ∧ fld (wordWith c (packA maj v base cls sz f op res)) 0 3 = res := by
  refine ⟨?_, ?_, ?_, ?_, ?_, ?_, ?_, ?_⟩ <;>
    simp (disch := decide) only [fld, wordWith, packA, extractLsb'_append_eq_of_add_le,
      extractLsb'_append_eq_of_le, Nat.reduceSub, extractLsb'_eq_self]

/-- The fields of a word of `packV`. -/
theorem fields_packV (c : Bool) (maj dd da db : BitVec 5) (opt : BitVec 3) (fn : BitVec 8) :
    fld (wordWith c (packV maj dd da db opt fn)) 26 5 = maj
    ∧ fld (wordWith c (packV maj dd da db opt fn)) 21 5 = dd
    ∧ fld (wordWith c (packV maj dd da db opt fn)) 16 5 = da
    ∧ fld (wordWith c (packV maj dd da db opt fn)) 11 5 = db
    ∧ fld (wordWith c (packV maj dd da db opt fn)) 8 3 = opt
    ∧ fld (wordWith c (packV maj dd da db opt fn)) 0 8 = fn := by
  refine ⟨?_, ?_, ?_, ?_, ?_, ?_⟩ <;>
    simp (disch := decide) only [fld, wordWith, packV, extractLsb'_append_eq_of_add_le,
      extractLsb'_append_eq_of_le, Nat.reduceSub, extractLsb'_eq_self]

/-- The fields of a word of `packS`. -/
theorem fields_packS (c : Bool) (maj : BitVec 5) (fn a : BitVec 6) (imm : BitVec 14) :
    fld (wordWith c (packS maj fn a imm)) 26 5 = maj
    ∧ fld (wordWith c (packS maj fn a imm)) 20 6 = fn
    ∧ fld (wordWith c (packS maj fn a imm)) 14 6 = a
    ∧ fld (wordWith c (packS maj fn a imm)) 0 14 = imm := by
  refine ⟨?_, ?_, ?_, ?_⟩ <;>
    simp (disch := decide) only [fld, wordWith, packS, extractLsb'_append_eq_of_add_le,
      extractLsb'_append_eq_of_le, Nat.reduceSub, extractLsb'_eq_self]

/-- The fields of a word of `packMS`. -/
theorem fields_packMS (c : Bool) (maj : BitVec 5) (acc : BitVec 3) (wide : BitVec 1) (da db : BitVec 5) (depth : BitVec 6) (tag : BitVec 2) (flags : BitVec 4) :
    fld (wordWith c (packMS maj acc wide da db depth tag flags)) 26 5 = maj
    ∧ fld (wordWith c (packMS maj acc wide da db depth tag flags)) 23 3 = acc
    ∧ fld (wordWith c (packMS maj acc wide da db depth tag flags)) 22 1 = wide
    ∧ fld (wordWith c (packMS maj acc wide da db depth tag flags)) 17 5 = da
    ∧ fld (wordWith c (packMS maj acc wide da db depth tag flags)) 12 5 = db
    ∧ fld (wordWith c (packMS maj acc wide da db depth tag flags)) 6 6 = depth
    ∧ fld (wordWith c (packMS maj acc wide da db depth tag flags)) 4 2 = tag
    ∧ fld (wordWith c (packMS maj acc wide da db depth tag flags)) 0 4 = flags := by
  refine ⟨?_, ?_, ?_, ?_, ?_, ?_, ?_, ?_⟩ <;>
    simp (disch := decide) only [fld, wordWith, packMS, extractLsb'_append_eq_of_add_le,
      extractLsb'_append_eq_of_le, Nat.reduceSub, extractLsb'_eq_self]

/-- Major 0x00 takes its decoder. -/
theorem major_0x00 (c : Bool) (fn a : BitVec 6) (imm : BitVec 14) :
    decode (wordWith c (packS 0x00 fn a imm)) =
      decCtl fn.toNat a imm := by
  obtain ⟨h0, h1, h2, h3⟩ := fields_packS c 0x00 fn a imm
  unfold decode
  rw [h0]
  simp only [h1, h2, h3]
  rfl

/-- Major 0x01 takes its decoder. -/
theorem major_0x01 (c : Bool) (k : BitVec 3) (n : BitVec 1) (off : BitVec 22) :
    decode (wordWith c (packB 0x01 k n off)) =
      some (.br k n off) := by
  obtain ⟨h0, h1, h2, h3⟩ := fields_packB c 0x01 k n off
  unfold decode
  rw [h0]
  simp only [h1, h2, h3]
  rfl

/-- Major 0x02 takes its decoder. -/
theorem major_0x02 (c : Bool) (off : BitVec 26) :
    decode (wordWith c (packC 0x02 off)) =
      some (.call off) := by
  obtain ⟨h0, h1⟩ := fields_packC c 0x02 off
  unfold decode
  rw [h0]
  simp only [h1]
  rfl

/-- Major 0x03 takes its decoder. -/
theorem major_0x03 (c : Bool) (fn a : BitVec 6) (imm : BitVec 14) :
    decode (wordWith c (packS 0x03 fn a imm)) =
      decSys fn.toNat a imm := by
  obtain ⟨h0, h1, h2, h3⟩ := fields_packS c 0x03 fn a imm
  unfold decode
  rw [h0]
  simp only [h1, h2, h3]
  rfl

/-- Major 0x04 takes its decoder. -/
theorem major_0x04 (c : Bool) (d a b : BitVec 6) (fn : BitVec 8) :
    decode (wordWith c (packR 0x04 d a b fn)) =
      decIalu fn.toNat d a b := by
  obtain ⟨h0, h1, h2, h3, h4⟩ := fields_packR c 0x04 d a b fn
  unfold decode
  rw [h0]
  simp only [h1, h2, h3, h4]
  rfl

/-- Major 0x05 takes its decoder. -/
theorem major_0x05 (c : Bool) (d a : BitVec 6) (op : BitVec 3) (imm : BitVec 11) :
    decode (wordWith c (packI 0x05 d a op imm)) =
      decIali op.toNat d a imm := by
  obtain ⟨h0, h1, h2, h3, h4⟩ := fields_packI c 0x05 d a op imm
  unfold decode
  rw [h0]
  simp only [h1, h2, h3, h4]
  rfl

/-- Major 0x06 takes its decoder. -/
theorem major_0x06 (c : Bool) (d : BitVec 6) (imm : BitVec 20) :
    decode (wordWith c (packL 0x06 d imm)) =
      some (.movi d imm) := by
  obtain ⟨h0, h1, h2⟩ := fields_packL c 0x06 d imm
  unfold decode
  rw [h0]
  simp only [h1, h2]
  rfl

/-- Major 0x07 takes its decoder. -/
theorem major_0x07 (c : Bool) (d : BitVec 6) (sh : BitVec 2) (imm : BitVec 18) :
    decode (wordWith c (packK 0x07 d sh imm)) =
      some (.movk d sh imm) := by
  obtain ⟨h0, h1, h2, h3⟩ := fields_packK c 0x07 d sh imm
  unfold decode
  rw [h0]
  simp only [h1, h2, h3]
  rfl

/-- Major 0x08 takes its decoder. -/
theorem major_0x08 (c : Bool) (d a b : BitVec 6) (fn : BitVec 8) :
    decode (wordWith c (packR 0x08 d a b fn)) =
      decFpu (fn.extractLsb' 0 6).toNat (fn.extractLsb' 6 2) d a b := by
  obtain ⟨h0, h1, h2, h3, h4⟩ := fields_packR c 0x08 d a b fn
  have g0 : fld (wordWith c (packR 0x08 d a b fn)) 0 6 = fn.extractLsb' 0 6 := by
    simp (disch := decide) only [fld, wordWith, packR, extractLsb'_append_eq_of_add_le]
  have g1 : fld (wordWith c (packR 0x08 d a b fn)) 6 2 = fn.extractLsb' 6 2 := by
    simp (disch := decide) only [fld, wordWith, packR, extractLsb'_append_eq_of_add_le]
  unfold decode
  rw [h0]
  simp only [g0, g1, h1, h2, h3]
  rfl

/-- Major 0x09 takes its decoder. -/
theorem major_0x09 (c : Bool) (d a b : BitVec 6) (fn : BitVec 8) :
    decode (wordWith c (packR 0x09 d a b fn)) =
      decCmp (fn.extractLsb' 4 4).toNat (fn.extractLsb' 0 4) d a b := by
  obtain ⟨h0, h1, h2, h3, h4⟩ := fields_packR c 0x09 d a b fn
  have g0 : fld (wordWith c (packR 0x09 d a b fn)) 4 4 = fn.extractLsb' 4 4 := by
    simp (disch := decide) only [fld, wordWith, packR, extractLsb'_append_eq_of_add_le]
  have g1 : fld (wordWith c (packR 0x09 d a b fn)) 0 4 = fn.extractLsb' 0 4 := by
    simp (disch := decide) only [fld, wordWith, packR, extractLsb'_append_eq_of_add_le]
  unfold decode
  rw [h0]
  simp only [g0, g1, h1, h2, h3]
  rfl

/-- Major 0x0A takes its decoder. -/
theorem major_0x0A (c : Bool) (d a b : BitVec 6) (fn : BitVec 8) :
    decode (wordWith c (packR 0x0A d a b fn)) =
      decField fn.toNat d a b := by
  obtain ⟨h0, h1, h2, h3, h4⟩ := fields_packR c 0x0A d a b fn
  unfold decode
  rw [h0]
  simp only [h1, h2, h3, h4]
  rfl

/-- Major 0x0C takes its decoder. -/
theorem major_0x0C (c : Bool) (x base : BitVec 6) (cls : BitVec 4) (sz : BitVec 2) (off : BitVec 8) :
    decode (wordWith c (packM 0x0C x base cls sz off)) =
      decLd x base cls sz off := by
  obtain ⟨h0, h1, h2, h3, h4, h5⟩ := fields_packM c 0x0C x base cls sz off
  unfold decode
  rw [h0]
  simp only [h1, h2, h3, h4, h5]
  rfl

/-- Major 0x0D takes its decoder. -/
theorem major_0x0D (c : Bool) (x base : BitVec 6) (cls : BitVec 4) (sz : BitVec 2) (off : BitVec 8) :
    decode (wordWith c (packM 0x0D x base cls sz off)) =
      some (.st x base cls sz off) := by
  obtain ⟨h0, h1, h2, h3, h4, h5⟩ := fields_packM c 0x0D x base cls sz off
  unfold decode
  rw [h0]
  simp only [h1, h2, h3, h4, h5]
  rfl

/-- Major 0x0E takes its decoder. -/
theorem major_0x0E (c : Bool) (x base : BitVec 6) (cls : BitVec 4) (sz : BitVec 2) (off : BitVec 8) :
    decode (wordWith c (packM 0x0E x base cls sz off)) =
      decTag (off.extractLsb' 5 3).toNat x base cls sz (off.extractLsb' 0 5) := by
  obtain ⟨h0, h1, h2, h3, h4, h5⟩ := fields_packM c 0x0E x base cls sz off
  have g0 : fld (wordWith c (packM 0x0E x base cls sz off)) 5 3 = off.extractLsb' 5 3 := by
    simp (disch := decide) only [fld, wordWith, packM, extractLsb'_append_eq_of_add_le]
  have g1 : fld (wordWith c (packM 0x0E x base cls sz off)) 0 5 = off.extractLsb' 0 5 := by
    simp (disch := decide) only [fld, wordWith, packM, extractLsb'_append_eq_of_add_le]
  unfold decode
  rw [h0]
  simp only [g0, g1, h1, h2, h3, h4]
  rfl

/-- Major 0x0F takes its decoder. -/
theorem major_0x0F (c : Bool) (v base : BitVec 6) (cls : BitVec 4) (sz : BitVec 2) (f : BitVec 1) (op : BitVec 4) (res : BitVec 3) :
    decode (wordWith c (packA 0x0F v base cls sz f op res)) =
      if res == 0 then decAtom op.toNat v base cls sz f else none := by
  obtain ⟨h0, h1, h2, h3, h4, h5, h6, h7⟩ := fields_packA c 0x0F v base cls sz f op res
  unfold decode
  rw [h0]
  simp only [h1, h2, h3, h4, h5, h6, h7]
  rfl

/-- Major 0x10 takes its decoder. -/
theorem major_0x10 (c : Bool) (fn a : BitVec 6) (imm : BitVec 14) :
    decode (wordWith c (packS 0x10 fn a imm)) =
      decOrder fn.toNat a imm := by
  obtain ⟨h0, h1, h2, h3⟩ := fields_packS c 0x10 fn a imm
  unfold decode
  rw [h0]
  simp only [h1, h2, h3]
  rfl

/-- Major 0x11 takes its decoder. -/
theorem major_0x11 (c : Bool) (dd da db : BitVec 5) (opt : BitVec 3) (fn : BitVec 8) :
    decode (wordWith c (packV 0x11 dd da db opt fn)) =
      decVop fn.toNat dd da db opt := by
  obtain ⟨h0, h1, h2, h3, h4, h5⟩ := fields_packV c 0x11 dd da db opt fn
  unfold decode
  rw [h0]
  simp only [h1, h2, h3, h4, h5]
  rfl

/-- Major 0x12 takes its decoder. -/
theorem major_0x12 (c : Bool) (dd da db : BitVec 5) (opt : BitVec 3) (fn : BitVec 8) :
    decode (wordWith c (packV 0x12 dd da db opt fn)) =
      decVsfn fn.toNat dd da db opt := by
  obtain ⟨h0, h1, h2, h3, h4, h5⟩ := fields_packV c 0x12 dd da db opt fn
  unfold decode
  rw [h0]
  simp only [h1, h2, h3, h4, h5]
  rfl

/-- Major 0x13 takes its decoder. -/
theorem major_0x13 (c : Bool) (dd da db : BitVec 5) (opt : BitVec 3) (fn : BitVec 8) :
    decode (wordWith c (packV 0x13 dd da db opt fn)) =
      decVchain fn.toNat dd da db opt := by
  obtain ⟨h0, h1, h2, h3, h4, h5⟩ := fields_packV c 0x13 dd da db opt fn
  unfold decode
  rw [h0]
  simp only [h1, h2, h3, h4, h5]
  rfl

/-- Major 0x14 takes its decoder. -/
theorem major_0x14 (c : Bool) (dd da db : BitVec 5) (opt : BitVec 3) (fn : BitVec 8) :
    decode (wordWith c (packV 0x14 dd da db opt fn)) =
      decVperm fn.toNat dd da db opt := by
  obtain ⟨h0, h1, h2, h3, h4, h5⟩ := fields_packV c 0x14 dd da db opt fn
  unfold decode
  rw [h0]
  simp only [h1, h2, h3, h4, h5]
  rfl

/-- Major 0x15 takes its decoder. -/
theorem major_0x15 (c : Bool) (d a b : BitVec 6) (fn : BitVec 8) :
    decode (wordWith c (packR 0x15 d a b fn)) =
      decVdesc fn.toNat d a b := by
  obtain ⟨h0, h1, h2, h3, h4⟩ := fields_packR c 0x15 d a b fn
  unfold decode
  rw [h0]
  simp only [h1, h2, h3, h4]
  rfl

/-- Major 0x16 takes its decoder. -/
theorem major_0x16 (c : Bool) (dd da db : BitVec 5) (opt : BitVec 3) (fn : BitVec 8) :
    decode (wordWith c (packV 0x16 dd da db opt fn)) =
      decRed fn.toNat dd da db opt := by
  obtain ⟨h0, h1, h2, h3, h4, h5⟩ := fields_packV c 0x16 dd da db opt fn
  unfold decode
  rw [h0]
  simp only [h1, h2, h3, h4, h5]
  rfl

/-- Major 0x17 takes its decoder. -/
theorem major_0x17 (c : Bool) (acc : BitVec 3) (wide : BitVec 1) (da db : BitVec 5) (depth : BitVec 6) (tag : BitVec 2) (flags : BitVec 4) :
    decode (wordWith c (packMS 0x17 acc wide da db depth tag flags)) =
      if flags.extractLsb' 2 2 == 0 then some (.mstep acc wide da db depth tag (flags.extractLsb' 0 2)) else none := by
  obtain ⟨h0, h1, h2, h3, h4, h5, h6, h7⟩ := fields_packMS c 0x17 acc wide da db depth tag flags
  have g0 : fld (wordWith c (packMS 0x17 acc wide da db depth tag flags)) 2 2 = flags.extractLsb' 2 2 := by
    simp (disch := decide) only [fld, wordWith, packMS, extractLsb'_append_eq_of_add_le]
  have g1 : fld (wordWith c (packMS 0x17 acc wide da db depth tag flags)) 0 2 = flags.extractLsb' 0 2 := by
    simp (disch := decide) only [fld, wordWith, packMS, extractLsb'_append_eq_of_add_le]
  unfold decode
  rw [h0]
  simp only [g0, g1, h1, h2, h3, h4, h5, h6]
  rfl

/-- Major 0x18 takes its decoder. -/
theorem major_0x18 (c : Bool) (d a b : BitVec 6) (fn : BitVec 8) :
    decode (wordWith c (packR 0x18 d a b fn)) =
      decMctl fn.toNat d a b := by
  obtain ⟨h0, h1, h2, h3, h4⟩ := fields_packR c 0x18 d a b fn
  unfold decode
  rw [h0]
  simp only [h1, h2, h3, h4]
  rfl

/-- Major 0x19 takes its decoder. -/
theorem major_0x19 (c : Bool) (fn a : BitVec 6) (imm : BitVec 14) :
    decode (wordWith c (packS 0x19 fn a imm)) =
      decTable fn.toNat a imm := by
  obtain ⟨h0, h1, h2, h3⟩ := fields_packS c 0x19 fn a imm
  unfold decode
  rw [h0]
  simp only [h1, h2, h3]
  rfl

/-- Major 0x1A takes its decoder. -/
theorem major_0x1A (c : Bool) (d a b : BitVec 6) (fn : BitVec 8) :
    decode (wordWith c (packR 0x1A d a b fn)) =
      decCopy fn.toNat d a b := by
  obtain ⟨h0, h1, h2, h3, h4⟩ := fields_packR c 0x1A d a b fn
  unfold decode
  rw [h0]
  simp only [h1, h2, h3, h4]
  rfl

/-- Major 0x1B takes its decoder. -/
theorem major_0x1B (c : Bool) (d a b : BitVec 6) (fn : BitVec 8) :
    decode (wordWith c (packR 0x1B d a b fn)) =
      decFab fn.toNat d a b := by
  obtain ⟨h0, h1, h2, h3, h4⟩ := fields_packR c 0x1B d a b fn
  unfold decode
  rw [h0]
  simp only [h1, h2, h3, h4]
  rfl

/-- Major 0x1C takes its decoder. -/
theorem major_0x1C (c : Bool) (fn a : BitVec 6) (imm : BitVec 14) :
    decode (wordWith c (packS 0x1C fn a imm)) =
      decBatch fn.toNat a imm := by
  obtain ⟨h0, h1, h2, h3⟩ := fields_packS c 0x1C fn a imm
  unfold decode
  rw [h0]
  simp only [h1, h2, h3]
  rfl

/-- Major 0x1F takes its decoder. -/
theorem major_0x1F (c : Bool) (d : BitVec 6) (imm : BitVec 20) :
    decode (wordWith c (packL 0x1F d imm)) =
      some (.exper d imm) := by
  obtain ⟨h0, h1, h2⟩ := fields_packL c 0x1F d imm
  unfold decode
  rw [h0]
  simp only [h1, h2]
  rfl

/-- Family RoundTrip: the decoder reads an instruction back from the word the encoder gives it. -/
def RoundTrip.Statement (i : Instr) : Prop := ∀ c w, encode c i = some w → decode w = some i

/-- An encoded instruction whose packed word decodes to it. -/
theorem roundTrip_of {i : Instr} {b : BitVec 31} (he : encodeBody i = some b)
    (hd : ∀ c, decode (wordWith c b) = some i) : RoundTrip.Statement i := by
  intro c w h
  rw [encode, he, Option.map_some, Option.some.injEq] at h
  exact h ▸ hd c

/-- A field cut in two is the field again. -/
theorem halves {n m : Nat} (x : BitVec (n + m)) : x.extractLsb' m n ++ x.extractLsb' 0 m = x := by
  apply BitVec.eq_of_getLsbD_eq
  intro i hi
  simp only [getLsbD_append, getLsbD_extractLsb']
  by_cases h : i < m
  · simp [h]
  · simp [h, show i - m < n by omega, show m + (i - m) = i by omega]

/-- A step that no word encodes. -/
theorem roundTrip_none {i : Instr} (he : encodeBody i = none) : RoundTrip.Statement i := by
  intro c w h
  rw [encode, he] at h
  cases h

theorem RoundTrip.nop : RoundTrip.Statement .nop :=
  roundTrip_of rfl fun _ => major_0x00 ..

theorem RoundTrip.endTask : RoundTrip.Statement .endTask :=
  roundTrip_of rfl fun _ => major_0x00 ..

theorem RoundTrip.yield : RoundTrip.Statement .yield :=
  roundTrip_of rfl fun _ => major_0x00 ..

theorem RoundTrip.jmp (a : SReg) : RoundTrip.Statement (.jmp a) :=
  roundTrip_of rfl fun _ => major_0x00 ..

theorem RoundTrip.jmpl (a : SReg) : RoundTrip.Statement (.jmpl a) :=
  roundTrip_of rfl fun _ => major_0x00 ..

theorem RoundTrip.ret : RoundTrip.Statement .ret :=
  roundTrip_of rfl fun _ => major_0x00 ..

theorem RoundTrip.loop (a : SReg) (n : BitVec 14) : RoundTrip.Statement (.loop a n) :=
  roundTrip_of rfl fun _ => major_0x00 ..

theorem RoundTrip.br (k : PRegNum) (n : BitVec 1) (off : BitVec 22) : RoundTrip.Statement (.br k n off) :=
  roundTrip_of rfl fun _ => major_0x01 ..

theorem RoundTrip.call (off : BitVec 26) : RoundTrip.Statement (.call off) :=
  roundTrip_of rfl fun _ => major_0x02 ..

theorem RoundTrip.trap (n : BitVec 14) : RoundTrip.Statement (.trap n) :=
  roundTrip_of rfl fun _ => major_0x03 ..

theorem RoundTrip.eret : RoundTrip.Statement .eret :=
  roundTrip_of rfl fun _ => major_0x03 ..

theorem RoundTrip.eretTo (a : SReg) : RoundTrip.Statement (.eretTo a) :=
  roundTrip_of rfl fun _ => major_0x03 ..

theorem RoundTrip.check (a : SReg) : RoundTrip.Statement (.check a) :=
  roundTrip_of rfl fun _ => major_0x03 ..

theorem RoundTrip.checkPred (a : SReg) : RoundTrip.Statement (.checkPred a) :=
  roundTrip_of rfl fun _ => major_0x03 ..

theorem RoundTrip.mfs (a : SReg) (n : BitVec 14) : RoundTrip.Statement (.mfs a n) :=
  roundTrip_of rfl fun _ => major_0x03 ..

theorem RoundTrip.mts (a : SReg) (n : BitVec 14) : RoundTrip.Statement (.mts a n) :=
  roundTrip_of rfl fun _ => major_0x03 ..

theorem RoundTrip.brk (n : BitVec 14) : RoundTrip.Statement (.brk n) :=
  roundTrip_of rfl fun _ => major_0x03 ..

theorem RoundTrip.mark (a : SReg) (n : BitVec 14) : RoundTrip.Statement (.mark a n) :=
  roundTrip_of rfl fun _ => major_0x03 ..

theorem RoundTrip.swapc : RoundTrip.Statement .swapc :=
  roundTrip_of rfl fun _ => major_0x03 ..

theorem RoundTrip.tlbinvPage (a : SReg) : RoundTrip.Statement (.tlbinvPage a) :=
  roundTrip_of rfl fun _ => major_0x03 ..

theorem RoundTrip.tlbinvAsid (a : SReg) : RoundTrip.Statement (.tlbinvAsid a) :=
  roundTrip_of rfl fun _ => major_0x03 ..

theorem RoundTrip.tlbinvLocal : RoundTrip.Statement .tlbinvLocal :=
  roundTrip_of rfl fun _ => major_0x03 ..

theorem RoundTrip.tlbinvAll : RoundTrip.Statement .tlbinvAll :=
  roundTrip_of rfl fun _ => major_0x03 ..

theorem RoundTrip.svc (n : BitVec 14) : RoundTrip.Statement (.svc n) :=
  roundTrip_of rfl fun _ => major_0x03 ..

theorem RoundTrip.add (d : SReg) (a : SReg) (b : SReg) : RoundTrip.Statement (.add d a b) :=
  roundTrip_of rfl fun _ => major_0x04 ..

theorem RoundTrip.sub (d : SReg) (a : SReg) (b : SReg) : RoundTrip.Statement (.sub d a b) :=
  roundTrip_of rfl fun _ => major_0x04 ..

theorem RoundTrip.mul (d : SReg) (a : SReg) (b : SReg) : RoundTrip.Statement (.mul d a b) :=
  roundTrip_of rfl fun _ => major_0x04 ..

theorem RoundTrip.mulh (d : SReg) (a : SReg) (b : SReg) : RoundTrip.Statement (.mulh d a b) :=
  roundTrip_of rfl fun _ => major_0x04 ..

theorem RoundTrip.mulhn (d : SReg) (a : SReg) (b : SReg) : RoundTrip.Statement (.mulhn d a b) :=
  roundTrip_of rfl fun _ => major_0x04 ..

theorem RoundTrip.div (d : SReg) (a : SReg) (b : SReg) : RoundTrip.Statement (.div d a b) :=
  roundTrip_of rfl fun _ => major_0x04 ..

theorem RoundTrip.divn (d : SReg) (a : SReg) (b : SReg) : RoundTrip.Statement (.divn d a b) :=
  roundTrip_of rfl fun _ => major_0x04 ..

theorem RoundTrip.rem (d : SReg) (a : SReg) (b : SReg) : RoundTrip.Statement (.rem d a b) :=
  roundTrip_of rfl fun _ => major_0x04 ..

theorem RoundTrip.remn (d : SReg) (a : SReg) (b : SReg) : RoundTrip.Statement (.remn d a b) :=
  roundTrip_of rfl fun _ => major_0x04 ..

theorem RoundTrip.and (d : SReg) (a : SReg) (b : SReg) : RoundTrip.Statement (.and d a b) :=
  roundTrip_of rfl fun _ => major_0x04 ..

theorem RoundTrip.or (d : SReg) (a : SReg) (b : SReg) : RoundTrip.Statement (.or d a b) :=
  roundTrip_of rfl fun _ => major_0x04 ..

theorem RoundTrip.xor (d : SReg) (a : SReg) (b : SReg) : RoundTrip.Statement (.xor d a b) :=
  roundTrip_of rfl fun _ => major_0x04 ..

theorem RoundTrip.andn (d : SReg) (a : SReg) (b : SReg) : RoundTrip.Statement (.andn d a b) :=
  roundTrip_of rfl fun _ => major_0x04 ..

theorem RoundTrip.shl (d : SReg) (a : SReg) (b : SReg) : RoundTrip.Statement (.shl d a b) :=
  roundTrip_of rfl fun _ => major_0x04 ..

theorem RoundTrip.shr (d : SReg) (a : SReg) (b : SReg) : RoundTrip.Statement (.shr d a b) :=
  roundTrip_of rfl fun _ => major_0x04 ..

theorem RoundTrip.sar (d : SReg) (a : SReg) (b : SReg) : RoundTrip.Statement (.sar d a b) :=
  roundTrip_of rfl fun _ => major_0x04 ..

theorem RoundTrip.rotl (d : SReg) (a : SReg) (b : SReg) : RoundTrip.Statement (.rotl d a b) :=
  roundTrip_of rfl fun _ => major_0x04 ..

theorem RoundTrip.min (d : SReg) (a : SReg) (b : SReg) : RoundTrip.Statement (.min d a b) :=
  roundTrip_of rfl fun _ => major_0x04 ..

theorem RoundTrip.max (d : SReg) (a : SReg) (b : SReg) : RoundTrip.Statement (.max d a b) :=
  roundTrip_of rfl fun _ => major_0x04 ..

theorem RoundTrip.minn (d : SReg) (a : SReg) (b : SReg) : RoundTrip.Statement (.minn d a b) :=
  roundTrip_of rfl fun _ => major_0x04 ..

theorem RoundTrip.maxn (d : SReg) (a : SReg) (b : SReg) : RoundTrip.Statement (.maxn d a b) :=
  roundTrip_of rfl fun _ => major_0x04 ..

theorem RoundTrip.clz (d : SReg) (a : SReg) : RoundTrip.Statement (.clz d a) :=
  roundTrip_of rfl fun _ => major_0x04 ..

theorem RoundTrip.popc (d : SReg) (a : SReg) : RoundTrip.Statement (.popc d a) :=
  roundTrip_of rfl fun _ => major_0x04 ..

theorem RoundTrip.sext (d : SReg) (a : SReg) (z : BitVec 6) : RoundTrip.Statement (.sext d a z) :=
  roundTrip_of rfl fun _ => major_0x04 ..

theorem RoundTrip.zext (d : SReg) (a : SReg) (z : BitVec 6) : RoundTrip.Statement (.zext d a z) :=
  roundTrip_of rfl fun _ => major_0x04 ..

theorem RoundTrip.addi (d : SReg) (a : SReg) (imm : BitVec 11) : RoundTrip.Statement (.addi d a imm) :=
  roundTrip_of rfl fun _ => major_0x05 ..

theorem RoundTrip.andi (d : SReg) (a : SReg) (imm : BitVec 11) : RoundTrip.Statement (.andi d a imm) :=
  roundTrip_of rfl fun _ => major_0x05 ..

theorem RoundTrip.ori (d : SReg) (a : SReg) (imm : BitVec 11) : RoundTrip.Statement (.ori d a imm) :=
  roundTrip_of rfl fun _ => major_0x05 ..

theorem RoundTrip.xori (d : SReg) (a : SReg) (imm : BitVec 11) : RoundTrip.Statement (.xori d a imm) :=
  roundTrip_of rfl fun _ => major_0x05 ..

theorem RoundTrip.shli (d : SReg) (a : SReg) (n : BitVec 6) : RoundTrip.Statement (.shli d a n) := by
  refine roundTrip_of rfl fun c => (major_0x05 ..).trans ?_
  simp (disch := decide) only [decIali, extractLsb'_append_eq_of_add_le,
    extractLsb'_append_eq_of_le, Nat.reduceSub, extractLsb'_eq_self]
  rfl

theorem RoundTrip.shri (d : SReg) (a : SReg) (n : BitVec 6) : RoundTrip.Statement (.shri d a n) := by
  refine roundTrip_of rfl fun c => (major_0x05 ..).trans ?_
  simp (disch := decide) only [decIali, extractLsb'_append_eq_of_add_le,
    extractLsb'_append_eq_of_le, Nat.reduceSub, extractLsb'_eq_self]
  rfl

theorem RoundTrip.sari (d : SReg) (a : SReg) (n : BitVec 6) : RoundTrip.Statement (.sari d a n) := by
  refine roundTrip_of rfl fun c => (major_0x05 ..).trans ?_
  simp (disch := decide) only [decIali, extractLsb'_append_eq_of_add_le,
    extractLsb'_append_eq_of_le, Nat.reduceSub, extractLsb'_eq_self]
  rfl

theorem RoundTrip.movi (d : SReg) (imm : BitVec 20) : RoundTrip.Statement (.movi d imm) :=
  roundTrip_of rfl fun _ => major_0x06 ..

theorem RoundTrip.movk (d : SReg) (sh : BitVec 2) (imm : BitVec 18) : RoundTrip.Statement (.movk d sh imm) :=
  roundTrip_of rfl fun _ => major_0x07 ..

theorem RoundTrip.fadd (p : BitVec 2) (d : SReg) (a : SReg) (b : SReg) : RoundTrip.Statement (.fadd p d a b) := by
  refine roundTrip_of rfl fun c => (major_0x08 ..).trans ?_
  simp (disch := decide) only [decFpu, extractLsb'_append_eq_of_add_le,
    extractLsb'_append_eq_of_le, Nat.reduceSub, extractLsb'_eq_self]
  rfl

theorem RoundTrip.fsub (p : BitVec 2) (d : SReg) (a : SReg) (b : SReg) : RoundTrip.Statement (.fsub p d a b) := by
  refine roundTrip_of rfl fun c => (major_0x08 ..).trans ?_
  simp (disch := decide) only [decFpu, extractLsb'_append_eq_of_add_le,
    extractLsb'_append_eq_of_le, Nat.reduceSub, extractLsb'_eq_self]
  rfl

theorem RoundTrip.fmul (p : BitVec 2) (d : SReg) (a : SReg) (b : SReg) : RoundTrip.Statement (.fmul p d a b) := by
  refine roundTrip_of rfl fun c => (major_0x08 ..).trans ?_
  simp (disch := decide) only [decFpu, extractLsb'_append_eq_of_add_le,
    extractLsb'_append_eq_of_le, Nat.reduceSub, extractLsb'_eq_self]
  rfl

theorem RoundTrip.ffma (p : BitVec 2) (d : SReg) (a : SReg) (b : SReg) : RoundTrip.Statement (.ffma p d a b) := by
  refine roundTrip_of rfl fun c => (major_0x08 ..).trans ?_
  simp (disch := decide) only [decFpu, extractLsb'_append_eq_of_add_le,
    extractLsb'_append_eq_of_le, Nat.reduceSub, extractLsb'_eq_self]
  rfl

theorem RoundTrip.fmin (p : BitVec 2) (d : SReg) (a : SReg) (b : SReg) : RoundTrip.Statement (.fmin p d a b) := by
  refine roundTrip_of rfl fun c => (major_0x08 ..).trans ?_
  simp (disch := decide) only [decFpu, extractLsb'_append_eq_of_add_le,
    extractLsb'_append_eq_of_le, Nat.reduceSub, extractLsb'_eq_self]
  rfl

theorem RoundTrip.fmax (p : BitVec 2) (d : SReg) (a : SReg) (b : SReg) : RoundTrip.Statement (.fmax p d a b) := by
  refine roundTrip_of rfl fun c => (major_0x08 ..).trans ?_
  simp (disch := decide) only [decFpu, extractLsb'_append_eq_of_add_le,
    extractLsb'_append_eq_of_le, Nat.reduceSub, extractLsb'_eq_self]
  rfl

theorem RoundTrip.fabs (p : BitVec 2) (d : SReg) (a : SReg) : RoundTrip.Statement (.fabs p d a) := by
  refine roundTrip_of rfl fun c => (major_0x08 ..).trans ?_
  simp (disch := decide) only [decFpu, extractLsb'_append_eq_of_add_le,
    extractLsb'_append_eq_of_le, Nat.reduceSub, extractLsb'_eq_self]
  rfl

theorem RoundTrip.fneg (p : BitVec 2) (d : SReg) (a : SReg) : RoundTrip.Statement (.fneg p d a) := by
  refine roundTrip_of rfl fun c => (major_0x08 ..).trans ?_
  simp (disch := decide) only [decFpu, extractLsb'_append_eq_of_add_le,
    extractLsb'_append_eq_of_le, Nat.reduceSub, extractLsb'_eq_self]
  rfl

theorem RoundTrip.fcpys (p : BitVec 2) (d : SReg) (a : SReg) (b : SReg) : RoundTrip.Statement (.fcpys p d a b) := by
  refine roundTrip_of rfl fun c => (major_0x08 ..).trans ?_
  simp (disch := decide) only [decFpu, extractLsb'_append_eq_of_add_le,
    extractLsb'_append_eq_of_le, Nat.reduceSub, extractLsb'_eq_self]
  rfl

theorem RoundTrip.fcvti (p : BitVec 2) (d : SReg) (a : SReg) (k : BitVec 2) (m : BitVec 3) : RoundTrip.Statement (.fcvti p d a k m) := by
  refine roundTrip_of rfl fun c => (major_0x08 ..).trans ?_
  simp (disch := decide) only [decFpu, extractLsb'_append_eq_of_add_le,
    extractLsb'_append_eq_of_le, Nat.reduceSub, extractLsb'_eq_self]
  rfl

theorem RoundTrip.fcvtf (p : BitVec 2) (d : SReg) (a : SReg) (k : BitVec 2) (m : BitVec 3) : RoundTrip.Statement (.fcvtf p d a k m) := by
  refine roundTrip_of rfl fun c => (major_0x08 ..).trans ?_
  simp (disch := decide) only [decFpu, extractLsb'_append_eq_of_add_le,
    extractLsb'_append_eq_of_le, Nat.reduceSub, extractLsb'_eq_self]
  rfl

theorem RoundTrip.fcvtw (p : BitVec 2) (d : SReg) (a : SReg) (m : BitVec 3) : RoundTrip.Statement (.fcvtw p d a m) := by
  refine roundTrip_of rfl fun c => (major_0x08 ..).trans ?_
  simp (disch := decide) only [decFpu, extractLsb'_append_eq_of_add_le,
    extractLsb'_append_eq_of_le, Nat.reduceSub, extractLsb'_eq_self]
  rfl

theorem RoundTrip.cmp (d : SReg) (a : SReg) (b : SReg) (c : BitVec 4) : RoundTrip.Statement (.cmp d a b c) := by
  refine roundTrip_of rfl fun c => (major_0x09 ..).trans ?_
  simp (disch := decide) only [decCmp, extractLsb'_append_eq_of_add_le,
    extractLsb'_append_eq_of_le, Nat.reduceSub, extractLsb'_eq_self]
  rfl

theorem RoundTrip.fcmp (d : SReg) (a : SReg) (b : SReg) (c : BitVec 4) : RoundTrip.Statement (.fcmp d a b c) := by
  refine roundTrip_of rfl fun c => (major_0x09 ..).trans ?_
  simp (disch := decide) only [decCmp, extractLsb'_append_eq_of_add_le,
    extractLsb'_append_eq_of_le, Nat.reduceSub, extractLsb'_eq_self]
  rfl

theorem RoundTrip.plog (d : SReg) (a : SReg) (b : SReg) (c : BitVec 4) : RoundTrip.Statement (.plog d a b c) := by
  refine roundTrip_of rfl fun c => (major_0x09 ..).trans ?_
  simp (disch := decide) only [decCmp, extractLsb'_append_eq_of_add_le,
    extractLsb'_append_eq_of_le, Nat.reduceSub, extractLsb'_eq_self]
  rfl

theorem RoundTrip.tst (d : SReg) (a : SReg) (b : SReg) (c : BitVec 4) : RoundTrip.Statement (.tst d a b c) := by
  refine roundTrip_of rfl fun c => (major_0x09 ..).trans ?_
  simp (disch := decide) only [decCmp, extractLsb'_append_eq_of_add_le,
    extractLsb'_append_eq_of_le, Nat.reduceSub, extractLsb'_eq_self]
  rfl

theorem RoundTrip.bfx (d : SReg) (a : SReg) (b : SReg) : RoundTrip.Statement (.bfx d a b) :=
  roundTrip_of rfl fun _ => major_0x0A ..

theorem RoundTrip.bfi (d : SReg) (a : SReg) (b : SReg) : RoundTrip.Statement (.bfi d a b) :=
  roundTrip_of rfl fun _ => major_0x0A ..

theorem RoundTrip.lea (d : SReg) (a : SReg) (b : SReg) : RoundTrip.Statement (.lea d a b) :=
  roundTrip_of rfl fun _ => major_0x0A ..

theorem RoundTrip.sel (d : SReg) (a : SReg) (b : SReg) : RoundTrip.Statement (.sel d a b) :=
  roundTrip_of rfl fun _ => major_0x0A ..

theorem RoundTrip.ld (base : SReg) (cls : BitVec 4) (sz : BitVec 2) (off : BitVec 8) : RoundTrip.Statement (.ld base cls sz off) :=
  roundTrip_of rfl fun _ => major_0x0C ..

theorem RoundTrip.lds (base : SReg) (cls : BitVec 4) (sz : BitVec 2) (off : BitVec 8) : RoundTrip.Statement (.lds base cls sz off) :=
  roundTrip_of rfl fun _ => major_0x0C ..

theorem RoundTrip.ldc (base : SReg) (cls : BitVec 4) (sz : BitVec 2) (off : BitVec 8) : RoundTrip.Statement (.ldc base cls sz off) :=
  roundTrip_of rfl fun _ => major_0x0C ..

theorem RoundTrip.ldf (base : SReg) (cls : BitVec 4) (sz : BitVec 2) (off : BitVec 8) : RoundTrip.Statement (.ldf base cls sz off) :=
  roundTrip_of rfl fun _ => major_0x0C ..

theorem RoundTrip.ldfe (base : SReg) (cls : BitVec 4) (sz : BitVec 2) (off : BitVec 8) : RoundTrip.Statement (.ldfe base cls sz off) :=
  roundTrip_of rfl fun _ => major_0x0C ..

theorem RoundTrip.st (x : SReg) (base : SReg) (cls : BitVec 4) (sz : BitVec 2) (off : BitVec 8) : RoundTrip.Statement (.st x base cls sz off) :=
  roundTrip_of rfl fun _ => major_0x0D ..

theorem RoundTrip.stf (x : SReg) (base : SReg) (cls : BitVec 4) (sz : BitVec 2) (off : BitVec 5) : RoundTrip.Statement (.stf x base cls sz off) := by
  refine roundTrip_of rfl fun c => (major_0x0E ..).trans ?_
  simp (disch := decide) only [decTag, extractLsb'_append_eq_of_add_le,
    extractLsb'_append_eq_of_le, Nat.reduceSub, extractLsb'_eq_self]
  rfl

theorem RoundTrip.ste (x : SReg) (base : SReg) (cls : BitVec 4) (sz : BitVec 2) (off : BitVec 5) : RoundTrip.Statement (.ste x base cls sz off) := by
  refine roundTrip_of rfl fun c => (major_0x0E ..).trans ?_
  simp (disch := decide) only [decTag, extractLsb'_append_eq_of_add_le,
    extractLsb'_append_eq_of_le, Nat.reduceSub, extractLsb'_eq_self]
  rfl

theorem RoundTrip.sete (base : SReg) (cls : BitVec 4) (sz : BitVec 2) (off : BitVec 5) : RoundTrip.Statement (.sete base cls sz off) := by
  refine roundTrip_of rfl fun c => (major_0x0E ..).trans ?_
  simp (disch := decide) only [decTag, extractLsb'_append_eq_of_add_le,
    extractLsb'_append_eq_of_le, Nat.reduceSub, extractLsb'_eq_self]
  rfl

theorem RoundTrip.setf (base : SReg) (cls : BitVec 4) (sz : BitVec 2) (off : BitVec 5) : RoundTrip.Statement (.setf base cls sz off) := by
  refine roundTrip_of rfl fun c => (major_0x0E ..).trans ?_
  simp (disch := decide) only [decTag, extractLsb'_append_eq_of_add_le,
    extractLsb'_append_eq_of_le, Nat.reduceSub, extractLsb'_eq_self]
  rfl

theorem RoundTrip.tagq (base : SReg) (cls : BitVec 4) (sz : BitVec 2) (off : BitVec 5) : RoundTrip.Statement (.tagq base cls sz off) := by
  refine roundTrip_of rfl fun c => (major_0x0E ..).trans ?_
  simp (disch := decide) only [decTag, extractLsb'_append_eq_of_add_le,
    extractLsb'_append_eq_of_le, Nat.reduceSub, extractLsb'_eq_self]
  rfl

theorem RoundTrip.aadd (v : SReg) (base : SReg) (cls : BitVec 4) (sz : BitVec 2) (fetch : BitVec 1) : RoundTrip.Statement (.aadd v base cls sz fetch) :=
  roundTrip_of rfl fun _ => major_0x0F ..

theorem RoundTrip.amin (v : SReg) (base : SReg) (cls : BitVec 4) (sz : BitVec 2) (fetch : BitVec 1) : RoundTrip.Statement (.amin v base cls sz fetch) :=
  roundTrip_of rfl fun _ => major_0x0F ..

theorem RoundTrip.amax (v : SReg) (base : SReg) (cls : BitVec 4) (sz : BitVec 2) (fetch : BitVec 1) : RoundTrip.Statement (.amax v base cls sz fetch) :=
  roundTrip_of rfl fun _ => major_0x0F ..

theorem RoundTrip.aminn (v : SReg) (base : SReg) (cls : BitVec 4) (sz : BitVec 2) (fetch : BitVec 1) : RoundTrip.Statement (.aminn v base cls sz fetch) :=
  roundTrip_of rfl fun _ => major_0x0F ..

theorem RoundTrip.amaxn (v : SReg) (base : SReg) (cls : BitVec 4) (sz : BitVec 2) (fetch : BitVec 1) : RoundTrip.Statement (.amaxn v base cls sz fetch) :=
  roundTrip_of rfl fun _ => major_0x0F ..

theorem RoundTrip.aand (v : SReg) (base : SReg) (cls : BitVec 4) (sz : BitVec 2) (fetch : BitVec 1) : RoundTrip.Statement (.aand v base cls sz fetch) :=
  roundTrip_of rfl fun _ => major_0x0F ..

theorem RoundTrip.aor (v : SReg) (base : SReg) (cls : BitVec 4) (sz : BitVec 2) (fetch : BitVec 1) : RoundTrip.Statement (.aor v base cls sz fetch) :=
  roundTrip_of rfl fun _ => major_0x0F ..

theorem RoundTrip.axor (v : SReg) (base : SReg) (cls : BitVec 4) (sz : BitVec 2) (fetch : BitVec 1) : RoundTrip.Statement (.axor v base cls sz fetch) :=
  roundTrip_of rfl fun _ => major_0x0F ..

theorem RoundTrip.aswp (v : SReg) (base : SReg) (cls : BitVec 4) (sz : BitVec 2) (fetch : BitVec 1) : RoundTrip.Statement (.aswp v base cls sz fetch) :=
  roundTrip_of rfl fun _ => major_0x0F ..

theorem RoundTrip.afadd (v : SReg) (base : SReg) (cls : BitVec 4) (sz : BitVec 2) (fetch : BitVec 1) : RoundTrip.Statement (.afadd v base cls sz fetch) :=
  roundTrip_of rfl fun _ => major_0x0F ..

theorem RoundTrip.acas (v : SReg) (base : SReg) (cls : BitVec 4) (sz : BitVec 2) (fetch : BitVec 1) : RoundTrip.Statement (.acas v base cls sz fetch) :=
  roundTrip_of rfl fun _ => major_0x0F ..

theorem RoundTrip.fence (scope : BitVec 3) (mask : BitVec 16) : RoundTrip.Statement (.fence scope mask) := by
  refine roundTrip_of rfl fun c => (major_0x10 ..).trans ?_
  simp (disch := decide) only [decOrder, extractLsb'_append_eq_of_add_le,
    extractLsb'_append_eq_of_le, Nat.reduceSub, extractLsb'_eq_self]
  exact congrArg some (congrArg (Instr.fence scope) (halves (n := 2) (m := 14) mask))

theorem RoundTrip.slkset (a : SReg) (cls : BitVec 4) : RoundTrip.Statement (.slkset a cls) := by
  refine roundTrip_of rfl fun c => (major_0x10 ..).trans ?_
  simp (disch := decide) only [decOrder, extractLsb'_append_eq_of_add_le,
    extractLsb'_append_eq_of_le, Nat.reduceSub, extractLsb'_eq_self]
  rfl

theorem RoundTrip.wdrain (w : BitVec 3) : RoundTrip.Statement (.wdrain w) := by
  refine roundTrip_of rfl fun c => (major_0x10 ..).trans ?_
  simp (disch := decide) only [decOrder, extractLsb'_append_eq_of_add_le,
    extractLsb'_append_eq_of_le, Nat.reduceSub, extractLsb'_eq_self]
  rfl

theorem RoundTrip.wallow (a : SReg) (w : BitVec 3) : RoundTrip.Statement (.wallow a w) := by
  refine roundTrip_of rfl fun c => (major_0x10 ..).trans ?_
  simp (disch := decide) only [decOrder, extractLsb'_append_eq_of_add_le,
    extractLsb'_append_eq_of_le, Nat.reduceSub, extractLsb'_eq_self]
  rfl

theorem RoundTrip.vadd (dd : DReg) (da : DReg) (db : DReg) (opt : BitVec 3) : RoundTrip.Statement (.vadd dd da db opt) :=
  roundTrip_of rfl fun _ => major_0x11 ..

theorem RoundTrip.vsub (dd : DReg) (da : DReg) (db : DReg) (opt : BitVec 3) : RoundTrip.Statement (.vsub dd da db opt) :=
  roundTrip_of rfl fun _ => major_0x11 ..

theorem RoundTrip.vmul (dd : DReg) (da : DReg) (db : DReg) (opt : BitVec 3) : RoundTrip.Statement (.vmul dd da db opt) :=
  roundTrip_of rfl fun _ => major_0x11 ..

theorem RoundTrip.vfma (dd : DReg) (da : DReg) (db : DReg) (opt : BitVec 3) : RoundTrip.Statement (.vfma dd da db opt) :=
  roundTrip_of rfl fun _ => major_0x11 ..

theorem RoundTrip.vmin (dd : DReg) (da : DReg) (db : DReg) (opt : BitVec 3) : RoundTrip.Statement (.vmin dd da db opt) :=
  roundTrip_of rfl fun _ => major_0x11 ..

theorem RoundTrip.vmax (dd : DReg) (da : DReg) (db : DReg) (opt : BitVec 3) : RoundTrip.Statement (.vmax dd da db opt) :=
  roundTrip_of rfl fun _ => major_0x11 ..

theorem RoundTrip.vabs (dd : DReg) (da : DReg) (opt : BitVec 3) : RoundTrip.Statement (.vabs dd da opt) :=
  roundTrip_of rfl fun _ => major_0x11 ..

theorem RoundTrip.vneg (dd : DReg) (da : DReg) (opt : BitVec 3) : RoundTrip.Statement (.vneg dd da opt) :=
  roundTrip_of rfl fun _ => major_0x11 ..

theorem RoundTrip.vand (dd : DReg) (da : DReg) (db : DReg) (opt : BitVec 3) : RoundTrip.Statement (.vand dd da db opt) :=
  roundTrip_of rfl fun _ => major_0x11 ..

theorem RoundTrip.vor (dd : DReg) (da : DReg) (db : DReg) (opt : BitVec 3) : RoundTrip.Statement (.vor dd da db opt) :=
  roundTrip_of rfl fun _ => major_0x11 ..

theorem RoundTrip.vxor (dd : DReg) (da : DReg) (db : DReg) (opt : BitVec 3) : RoundTrip.Statement (.vxor dd da db opt) :=
  roundTrip_of rfl fun _ => major_0x11 ..

theorem RoundTrip.vshl (dd : DReg) (da : DReg) (db : DReg) (opt : BitVec 3) : RoundTrip.Statement (.vshl dd da db opt) :=
  roundTrip_of rfl fun _ => major_0x11 ..

theorem RoundTrip.vshr (dd : DReg) (da : DReg) (db : DReg) (opt : BitVec 3) : RoundTrip.Statement (.vshr dd da db opt) :=
  roundTrip_of rfl fun _ => major_0x11 ..

theorem RoundTrip.vcmp (dd : DReg) (da : DReg) (db : DReg) (opt : BitVec 3) : RoundTrip.Statement (.vcmp dd da db opt) :=
  roundTrip_of rfl fun _ => major_0x11 ..

theorem RoundTrip.vsel (dd : DReg) (da : DReg) (db : DReg) (opt : BitVec 3) : RoundTrip.Statement (.vsel dd da db opt) :=
  roundTrip_of rfl fun _ => major_0x11 ..

theorem RoundTrip.vcopy (dd : DReg) (da : DReg) (opt : BitVec 3) : RoundTrip.Statement (.vcopy dd da opt) :=
  roundTrip_of rfl fun _ => major_0x11 ..

theorem RoundTrip.vfill (dd : DReg) (da : DReg) (opt : BitVec 3) : RoundTrip.Statement (.vfill dd da opt) :=
  roundTrip_of rfl fun _ => major_0x11 ..

theorem RoundTrip.vcvt (dd : DReg) (da : DReg) (opt : BitVec 3) : RoundTrip.Statement (.vcvt dd da opt) :=
  roundTrip_of rfl fun _ => major_0x11 ..

theorem RoundTrip.viota (dd : DReg) (opt : BitVec 3) : RoundTrip.Statement (.viota dd opt) :=
  roundTrip_of rfl fun _ => major_0x11 ..

theorem RoundTrip.vexp2 (dd : DReg) (da : DReg) (opt : BitVec 3) : RoundTrip.Statement (.vexp2 dd da opt) :=
  roundTrip_of rfl fun _ => major_0x12 ..

theorem RoundTrip.vlog2 (dd : DReg) (da : DReg) (opt : BitVec 3) : RoundTrip.Statement (.vlog2 dd da opt) :=
  roundTrip_of rfl fun _ => major_0x12 ..

theorem RoundTrip.vrcp (dd : DReg) (da : DReg) (opt : BitVec 3) : RoundTrip.Statement (.vrcp dd da opt) :=
  roundTrip_of rfl fun _ => major_0x12 ..

theorem RoundTrip.vrsq (dd : DReg) (da : DReg) (opt : BitVec 3) : RoundTrip.Statement (.vrsq dd da opt) :=
  roundTrip_of rfl fun _ => major_0x12 ..

theorem RoundTrip.vsig (dd : DReg) (da : DReg) (opt : BitVec 3) : RoundTrip.Statement (.vsig dd da opt) :=
  roundTrip_of rfl fun _ => major_0x12 ..

theorem RoundTrip.vtanh (dd : DReg) (da : DReg) (opt : BitVec 3) : RoundTrip.Statement (.vtanh dd da opt) :=
  roundTrip_of rfl fun _ => major_0x12 ..

theorem RoundTrip.vgelu (dd : DReg) (da : DReg) (opt : BitVec 3) : RoundTrip.Statement (.vgelu dd da opt) :=
  roundTrip_of rfl fun _ => major_0x12 ..

theorem RoundTrip.vchain (dd : DReg) (da : DReg) (db : DReg) (opt : BitVec 3) : RoundTrip.Statement (.vchain dd da db opt) :=
  roundTrip_of rfl fun _ => major_0x13 ..

theorem RoundTrip.chset (r : SReg) (opt : BitVec 3) : RoundTrip.Statement (.chset r opt) := by
  refine roundTrip_of rfl fun c => (major_0x13 ..).trans ?_
  simp (disch := decide) only [decVchain, extractLsb'_append_eq_of_add_le,
    extractLsb'_append_eq_of_le, Nat.reduceSub, extractLsb'_eq_self]
  exact congrArg some (congrArg (Instr.chset · opt) (halves (n := 1) (m := 5) r))

theorem RoundTrip.vcomp (dd : DReg) (da : DReg) (db : DReg) (opt : BitVec 3) : RoundTrip.Statement (.vcomp dd da db opt) :=
  roundTrip_of rfl fun _ => major_0x14 ..

theorem RoundTrip.vexpd (dd : DReg) (da : DReg) (db : DReg) (opt : BitVec 3) : RoundTrip.Statement (.vexpd dd da db opt) :=
  roundTrip_of rfl fun _ => major_0x14 ..

theorem RoundTrip.vgath (dd : DReg) (da : DReg) (db : DReg) (opt : BitVec 3) : RoundTrip.Statement (.vgath dd da db opt) :=
  roundTrip_of rfl fun _ => major_0x14 ..

theorem RoundTrip.vscat (dd : DReg) (da : DReg) (db : DReg) (opt : BitVec 3) : RoundTrip.Statement (.vscat dd da db opt) :=
  roundTrip_of rfl fun _ => major_0x14 ..

theorem RoundTrip.vscan (dd : DReg) (da : DReg) (opt : BitVec 3) : RoundTrip.Statement (.vscan dd da opt) :=
  roundTrip_of rfl fun _ => major_0x14 ..

theorem RoundTrip.vtrn (dd : DReg) (da : DReg) (opt : BitVec 3) : RoundTrip.Statement (.vtrn dd da opt) :=
  roundTrip_of rfl fun _ => major_0x14 ..

theorem RoundTrip.dset (d : SReg) (a : SReg) (b : SReg) : RoundTrip.Statement (.dset d a b) :=
  roundTrip_of rfl fun _ => major_0x15 ..

theorem RoundTrip.dget (d : SReg) (a : SReg) (b : SReg) : RoundTrip.Statement (.dget d a b) :=
  roundTrip_of rfl fun _ => major_0x15 ..

theorem RoundTrip.dadv (a : SReg) (b : SReg) : RoundTrip.Statement (.dadv a b) :=
  roundTrip_of rfl fun _ => major_0x15 ..

theorem RoundTrip.dcnt (a : SReg) (b : SReg) : RoundTrip.Statement (.dcnt a b) :=
  roundTrip_of rfl fun _ => major_0x15 ..

theorem RoundTrip.radd (da : DReg) (ps : BitVec 2) : RoundTrip.Statement (.radd da ps) := by
  refine roundTrip_of rfl fun c => (major_0x16 ..).trans ?_
  simp (disch := decide) only [decRed, extractLsb'_append_eq_of_add_le,
    extractLsb'_append_eq_of_le, Nat.reduceSub, extractLsb'_eq_self]
  rfl

theorem RoundTrip.rmin (da : DReg) (ps : BitVec 2) : RoundTrip.Statement (.rmin da ps) := by
  refine roundTrip_of rfl fun c => (major_0x16 ..).trans ?_
  simp (disch := decide) only [decRed, extractLsb'_append_eq_of_add_le,
    extractLsb'_append_eq_of_le, Nat.reduceSub, extractLsb'_eq_self]
  rfl

theorem RoundTrip.rmax (da : DReg) (ps : BitVec 2) : RoundTrip.Statement (.rmax da ps) := by
  refine roundTrip_of rfl fun c => (major_0x16 ..).trans ?_
  simp (disch := decide) only [decRed, extractLsb'_append_eq_of_add_le,
    extractLsb'_append_eq_of_le, Nat.reduceSub, extractLsb'_eq_self]
  rfl

theorem RoundTrip.rdrn (r : SReg) (ps : BitVec 2) : RoundTrip.Statement (.rdrn r ps) := by
  refine roundTrip_of rfl fun c => (major_0x16 ..).trans ?_
  simp (disch := decide) only [decRed, extractLsb'_append_eq_of_add_le,
    extractLsb'_append_eq_of_le, Nat.reduceSub, extractLsb'_eq_self]
  exact congrArg some (congrArg (Instr.rdrn · ps) (halves (n := 1) (m := 5) r))

theorem RoundTrip.rdrnDesc (dd : DReg) (ps : BitVec 2) : RoundTrip.Statement (.rdrnDesc dd ps) := by
  refine roundTrip_of rfl fun c => (major_0x16 ..).trans ?_
  simp (disch := decide) only [decRed, extractLsb'_append_eq_of_add_le,
    extractLsb'_append_eq_of_le, Nat.reduceSub, extractLsb'_eq_self]
  rfl

theorem RoundTrip.rclr (k : BitVec 2) (o : BitVec 2) (ps : BitVec 2) : RoundTrip.Statement (.rclr k o ps) := by
  refine roundTrip_of rfl fun c => (major_0x16 ..).trans ?_
  simp (disch := decide) only [decRed, extractLsb'_append_eq_of_add_le,
    extractLsb'_append_eq_of_le, Nat.reduceSub, extractLsb'_eq_self]
  rfl

theorem RoundTrip.mstep (acc : BitVec 3) (wide : BitVec 1) (da : DReg) (db : DReg) (depth : BitVec 6) (tag : BitVec 2) (flags : BitVec 2) : RoundTrip.Statement (.mstep acc wide da db depth tag flags) := by
  refine roundTrip_of rfl fun c => (major_0x17 ..).trans ?_
  simp (disch := decide) only [extractLsb'_append_eq_of_add_le,
    extractLsb'_append_eq_of_le, Nat.reduceSub, extractLsb'_eq_self]
  rfl

theorem RoundTrip.mzero (n : BitVec 3) (wide : BitVec 1) (v : BitVec 2) (f : BitVec 2) : RoundTrip.Statement (.mzero n wide v f) := by
  refine roundTrip_of rfl fun c => (major_0x18 ..).trans ?_
  simp (disch := decide) only [decMctl, extractLsb'_append_eq_of_add_le,
    extractLsb'_append_eq_of_le, Nat.reduceSub, extractLsb'_eq_self]
  rfl

theorem RoundTrip.mdrain (d : BitVec 6) (n : BitVec 3) (m : BitVec 3) (clr : BitVec 1) : RoundTrip.Statement (.mdrain d n m clr) := by
  refine roundTrip_of rfl fun c => (major_0x18 ..).trans ?_
  simp (disch := decide) only [decMctl, extractLsb'_append_eq_of_add_le,
    extractLsb'_append_eq_of_le, Nat.reduceSub, extractLsb'_eq_self]
  rfl

theorem RoundTrip.mlda (n : BitVec 3) (a : BitVec 6) (f : BitVec 2) (m : BitVec 3) : RoundTrip.Statement (.mlda n a f m) := by
  refine roundTrip_of rfl fun c => (major_0x18 ..).trans ?_
  simp (disch := decide) only [decMctl, extractLsb'_append_eq_of_add_le,
    extractLsb'_append_eq_of_le, Nat.reduceSub, extractLsb'_eq_self]
  rfl

theorem RoundTrip.mwgt (b : BitVec 6) : RoundTrip.Statement (.mwgt b) :=
  roundTrip_of rfl fun _ => major_0x18 ..

theorem RoundTrip.sload (n : BitVec 2) (a : BitVec 6) : RoundTrip.Statement (.sload n a) := by
  refine roundTrip_of rfl fun c => (major_0x18 ..).trans ?_
  simp (disch := decide) only [decMctl, extractLsb'_append_eq_of_add_le,
    extractLsb'_append_eq_of_le, Nat.reduceSub, extractLsb'_eq_self]
  rfl

theorem RoundTrip.ssel (p : BitVec 6) : RoundTrip.Statement (.ssel p) :=
  roundTrip_of rfl fun _ => major_0x18 ..

theorem RoundTrip.mflow (p : BitVec 6) : RoundTrip.Statement (.mflow p) :=
  roundTrip_of rfl fun _ => major_0x18 ..

theorem RoundTrip.mskew (p : BitVec 6) : RoundTrip.Statement (.mskew p) :=
  roundTrip_of rfl fun _ => major_0x18 ..

theorem RoundTrip.mfmt (p : BitVec 6) (q : BitVec 6) (opt : BitVec 6) : RoundTrip.Statement (.mfmt p q opt) :=
  roundTrip_of rfl fun _ => major_0x18 ..

theorem RoundTrip.scld (a : SReg) (n : BitVec 3) (f : BitVec 4) : RoundTrip.Statement (.scld a n f) := by
  refine roundTrip_of rfl fun c => (major_0x19 ..).trans ?_
  simp (disch := decide) only [decTable, extractLsb'_append_eq_of_add_le,
    extractLsb'_append_eq_of_le, Nat.reduceSub, extractLsb'_eq_self]
  rfl

theorem RoundTrip.fmset (a : SReg) (n : BitVec 4) : RoundTrip.Statement (.fmset a n) := by
  refine roundTrip_of rfl fun c => (major_0x19 ..).trans ?_
  simp (disch := decide) only [decTable, extractLsb'_append_eq_of_add_le,
    extractLsb'_append_eq_of_le, Nat.reduceSub, extractLsb'_eq_self]
  rfl

theorem RoundTrip.fmget (a : SReg) (n : BitVec 4) : RoundTrip.Statement (.fmget a n) := by
  refine roundTrip_of rfl fun c => (major_0x19 ..).trans ?_
  simp (disch := decide) only [decTable, extractLsb'_append_eq_of_add_le,
    extractLsb'_append_eq_of_le, Nat.reduceSub, extractLsb'_eq_self]
  rfl

theorem RoundTrip.cpy (p : SReg) (q : SReg) (patch : BitVec 2) (cls : BitVec 4) : RoundTrip.Statement (.cpy p q patch cls) := by
  refine roundTrip_of rfl fun c => (major_0x1A ..).trans ?_
  simp (disch := decide) only [decCopy, extractLsb'_append_eq_of_add_le,
    extractLsb'_append_eq_of_le, Nat.reduceSub, extractLsb'_eq_self]
  rfl

theorem RoundTrip.cpyt (p : SReg) (q : SReg) (patch : BitVec 2) (cls : BitVec 4) : RoundTrip.Statement (.cpyt p q patch cls) := by
  refine roundTrip_of rfl fun c => (major_0x1A ..).trans ?_
  simp (disch := decide) only [decCopy, extractLsb'_append_eq_of_add_le,
    extractLsb'_append_eq_of_le, Nat.reduceSub, extractLsb'_eq_self]
  rfl

theorem RoundTrip.cpyp (p : SReg) (q : SReg) (patch : BitVec 2) (cls : BitVec 4) : RoundTrip.Statement (.cpyp p q patch cls) := by
  refine roundTrip_of rfl fun c => (major_0x1A ..).trans ?_
  simp (disch := decide) only [decCopy, extractLsb'_append_eq_of_add_le,
    extractLsb'_append_eq_of_le, Nat.reduceSub, extractLsb'_eq_self]
  rfl

theorem RoundTrip.cpyg (p : SReg) (q : SReg) (patch : BitVec 2) (cls : BitVec 4) : RoundTrip.Statement (.cpyg p q patch cls) := by
  refine roundTrip_of rfl fun c => (major_0x1A ..).trans ?_
  simp (disch := decide) only [decCopy, extractLsb'_append_eq_of_add_le,
    extractLsb'_append_eq_of_le, Nat.reduceSub, extractLsb'_eq_self]
  rfl

theorem RoundTrip.cpyw (p : SReg) (q : SReg) (patch : BitVec 2) (cls : BitVec 4) : RoundTrip.Statement (.cpyw p q patch cls) := by
  refine roundTrip_of rfl fun c => (major_0x1A ..).trans ?_
  simp (disch := decide) only [decCopy, extractLsb'_append_eq_of_add_le,
    extractLsb'_append_eq_of_le, Nat.reduceSub, extractLsb'_eq_self]
  rfl

theorem RoundTrip.cpyc (p : SReg) (q : SReg) (patch : BitVec 2) (cls : BitVec 4) : RoundTrip.Statement (.cpyc p q patch cls) := by
  refine roundTrip_of rfl fun c => (major_0x1A ..).trans ?_
  simp (disch := decide) only [decCopy, extractLsb'_append_eq_of_add_le,
    extractLsb'_append_eq_of_le, Nat.reduceSub, extractLsb'_eq_self]
  rfl

theorem RoundTrip.cpost (p : SReg) (cls : BitVec 4) : RoundTrip.Statement (.cpost p cls) := by
  refine roundTrip_of rfl fun c => (major_0x1B ..).trans ?_
  simp (disch := decide) only [decFab, extractLsb'_append_eq_of_add_le,
    extractLsb'_append_eq_of_le, Nat.reduceSub, extractLsb'_eq_self]
  rfl

theorem RoundTrip.ccancel (p : SReg) (cls : BitVec 4) : RoundTrip.Statement (.ccancel p cls) := by
  refine roundTrip_of rfl fun c => (major_0x1B ..).trans ?_
  simp (disch := decide) only [decFab, extractLsb'_append_eq_of_add_le,
    extractLsb'_append_eq_of_le, Nat.reduceSub, extractLsb'_eq_self]
  rfl

theorem RoundTrip.cquery (p : SReg) (cls : BitVec 4) : RoundTrip.Statement (.cquery p cls) := by
  refine roundTrip_of rfl fun c => (major_0x1B ..).trans ?_
  simp (disch := decide) only [decFab, extractLsb'_append_eq_of_add_le,
    extractLsb'_append_eq_of_le, Nat.reduceSub, extractLsb'_eq_self]
  rfl

theorem RoundTrip.tsend (p : SReg) (cls : BitVec 4) : RoundTrip.Statement (.tsend p cls) := by
  refine roundTrip_of rfl fun c => (major_0x1B ..).trans ?_
  simp (disch := decide) only [decFab, extractLsb'_append_eq_of_add_le,
    extractLsb'_append_eq_of_le, Nat.reduceSub, extractLsb'_eq_self]
  rfl

theorem RoundTrip.commit (a : SReg) : RoundTrip.Statement (.commit a) :=
  roundTrip_of rfl fun _ => major_0x1C ..

theorem RoundTrip.waitb (a : SReg) : RoundTrip.Statement (.waitb a) :=
  roundTrip_of rfl fun _ => major_0x1C ..

theorem RoundTrip.testb (a : SReg) : RoundTrip.Statement (.testb a) :=
  roundTrip_of rfl fun _ => major_0x1C ..

theorem RoundTrip.bara (n : BitVec 9) : RoundTrip.Statement (.bara n) := by
  refine roundTrip_of rfl fun c => (major_0x1C ..).trans ?_
  simp (disch := decide) only [decBatch, extractLsb'_append_eq_of_add_le,
    extractLsb'_append_eq_of_le, Nat.reduceSub, extractLsb'_eq_self]
  rfl

theorem RoundTrip.barw (n : BitVec 9) : RoundTrip.Statement (.barw n) := by
  refine roundTrip_of rfl fun c => (major_0x1C ..).trans ?_
  simp (disch := decide) only [decBatch, extractLsb'_append_eq_of_add_le,
    extractLsb'_append_eq_of_le, Nat.reduceSub, extractLsb'_eq_self]
  rfl

theorem RoundTrip.bart (a : SReg) (n : BitVec 9) : RoundTrip.Statement (.bart a n) := by
  refine roundTrip_of rfl fun c => (major_0x1C ..).trans ?_
  simp (disch := decide) only [decBatch, extractLsb'_append_eq_of_add_le,
    extractLsb'_append_eq_of_le, Nat.reduceSub, extractLsb'_eq_self]
  rfl

theorem RoundTrip.barcfg (a : SReg) (n : BitVec 9) : RoundTrip.Statement (.barcfg a n) := by
  refine roundTrip_of rfl fun c => (major_0x1C ..).trans ?_
  simp (disch := decide) only [decBatch, extractLsb'_append_eq_of_add_le,
    extractLsb'_append_eq_of_le, Nat.reduceSub, extractLsb'_eq_self]
  rfl

theorem RoundTrip.npost (a : SReg) : RoundTrip.Statement (.npost a) :=
  roundTrip_of rfl fun _ => major_0x1C ..

theorem RoundTrip.requeue (a : SReg) : RoundTrip.Statement (.requeue a) :=
  roundTrip_of rfl fun _ => major_0x1C ..

theorem RoundTrip.exper (step : BitVec 6) (op : BitVec 20) : RoundTrip.Statement (.exper step op) :=
  roundTrip_of rfl fun _ => major_0x1F ..

theorem RoundTrip.loadDataReturn (id : Nat) : RoundTrip.Statement (.loadDataReturn id) :=
  roundTrip_none rfl

theorem RoundTrip.writeEntryBegin (id : Nat) : RoundTrip.Statement (.writeEntryBegin id) :=
  roundTrip_none rfl

theorem RoundTrip.writePerform (id : Nat) : RoundTrip.Statement (.writePerform id) :=
  roundTrip_none rfl

theorem RoundTrip.parkedAccessWake (word : Nat) : RoundTrip.Statement (.parkedAccessWake word) :=
  roundTrip_none rfl

theorem RoundTrip.streamGroupPass (id : Nat) : RoundTrip.Statement (.streamGroupPass id) :=
  roundTrip_none rfl

theorem RoundTrip.shuttleCommandStart : RoundTrip.Statement .shuttleCommandStart :=
  roundTrip_none rfl

theorem RoundTrip.beat : RoundTrip.Statement .beat :=
  roundTrip_none rfl

theorem RoundTrip.shuttleCommandComplete : RoundTrip.Statement .shuttleCommandComplete :=
  roundTrip_none rfl

theorem RoundTrip.copyCommandStart (eng : Bool) : RoundTrip.Statement (.copyCommandStart eng) :=
  roundTrip_none rfl

theorem RoundTrip.copySegmentWrite (id : Nat) : RoundTrip.Statement (.copySegmentWrite id) :=
  roundTrip_none rfl

theorem RoundTrip.copyPause (id : Nat) : RoundTrip.Statement (.copyPause id) :=
  roundTrip_none rfl

theorem RoundTrip.copyResume (id : Nat) : RoundTrip.Statement (.copyResume id) :=
  roundTrip_none rfl

theorem RoundTrip.copyComplete (id : Nat) : RoundTrip.Statement (.copyComplete id) :=
  roundTrip_none rfl

theorem RoundTrip.hbmServiceStart (pc : Nat) (bank : Nat) : RoundTrip.Statement (.hbmServiceStart pc bank) :=
  roundTrip_none rfl

theorem RoundTrip.bankIdleClose (pc : Nat) (bank : Nat) : RoundTrip.Statement (.bankIdleClose pc bank) :=
  roundTrip_none rfl

theorem RoundTrip.refreshDue (pc : Nat) : RoundTrip.Statement (.refreshDue pc) :=
  roundTrip_none rfl

theorem RoundTrip.allBankRefreshStart (pc : Nat) : RoundTrip.Statement (.allBankRefreshStart pc) :=
  roundTrip_none rfl

theorem RoundTrip.bankRefreshEnd (pc : Nat) (bank : Nat) : RoundTrip.Statement (.bankRefreshEnd pc bank) :=
  roundTrip_none rfl

theorem RoundTrip.allBankRefreshEnd (pc : Nat) : RoundTrip.Statement (.allBankRefreshEnd pc) :=
  roundTrip_none rfl

theorem RoundTrip.sharedTlbLookup : RoundTrip.Statement .sharedTlbLookup :=
  roundTrip_none rfl

theorem RoundTrip.tableRead : RoundTrip.Statement .tableRead :=
  roundTrip_none rfl

theorem RoundTrip.faultFreeze : RoundTrip.Statement .faultFreeze :=
  roundTrip_none rfl

theorem RoundTrip.faultResolve (kill : Bool) : RoundTrip.Statement (.faultResolve kill) :=
  roundTrip_none rfl

theorem RoundTrip.tlbinvComplete : RoundTrip.Statement .tlbinvComplete :=
  roundTrip_none rfl

theorem RoundTrip.trapDelivery : RoundTrip.Statement .trapDelivery :=
  roundTrip_none rfl

theorem RoundTrip.interrupt : RoundTrip.Statement .interrupt :=
  roundTrip_none rfl

theorem RoundTrip.contextSwitch : RoundTrip.Statement .contextSwitch :=
  roundTrip_none rfl

theorem RoundTrip.spill : RoundTrip.Statement .spill :=
  roundTrip_none rfl

theorem RoundTrip.spillComplete : RoundTrip.Statement .spillComplete :=
  roundTrip_none rfl

theorem RoundTrip.emergencySpill : RoundTrip.Statement .emergencySpill :=
  roundTrip_none rfl

theorem RoundTrip.fill (va : Nat) : RoundTrip.Statement (.fill va) :=
  roundTrip_none rfl

theorem RoundTrip.fillComplete : RoundTrip.Statement .fillComplete :=
  roundTrip_none rfl

theorem RoundTrip.postTake : RoundTrip.Statement .postTake :=
  roundTrip_none rfl

theorem RoundTrip.imageLoad (node : Nat) : RoundTrip.Statement (.imageLoad node) :=
  roundTrip_none rfl

theorem RoundTrip.imageLoadComplete (node : Nat) : RoundTrip.Statement (.imageLoadComplete node) :=
  roundTrip_none rfl

theorem RoundTrip.nodeFinish (node : Nat) : RoundTrip.Statement (.nodeFinish node) :=
  roundTrip_none rfl

theorem RoundTrip.taskPlacement : RoundTrip.Statement .taskPlacement :=
  roundTrip_none rfl

theorem RoundTrip.claimant (node : Nat) : RoundTrip.Statement (.claimant node) :=
  roundTrip_none rfl

theorem RoundTrip.taskStart : RoundTrip.Statement .taskStart :=
  roundTrip_none rfl

theorem RoundTrip.victimChoice : RoundTrip.Statement .victimChoice :=
  roundTrip_none rfl

theorem RoundTrip.yieldRequest : RoundTrip.Statement .yieldRequest :=
  roundTrip_none rfl

theorem RoundTrip.yieldWindowExpiry : RoundTrip.Statement .yieldWindowExpiry :=
  roundTrip_none rfl

theorem RoundTrip.yieldRequestWithdraw : RoundTrip.Statement .yieldRequestWithdraw :=
  roundTrip_none rfl

theorem RoundTrip.prefetch : RoundTrip.Statement .prefetch :=
  roundTrip_none rfl

theorem RoundTrip.taskEnd (node : Nat) (reason : Nat) : RoundTrip.Statement (.taskEnd node reason) :=
  roundTrip_none rfl

theorem RoundTrip.arrivalCounted (nb : Nat) (own : Bool) : RoundTrip.Statement (.arrivalCounted nb own) :=
  roundTrip_none rfl

theorem RoundTrip.barrierDelivery (nb : Nat) : RoundTrip.Statement (.barrierDelivery nb) :=
  roundTrip_none rfl

theorem RoundTrip.combineLineExpiry (k : Nat) : RoundTrip.Statement (.combineLineExpiry k) :=
  roundTrip_none rfl

theorem RoundTrip.arbitration (port : Nat) : RoundTrip.Statement (.arbitration port) :=
  roundTrip_none rfl

theorem RoundTrip.reorderAccept (id : Nat) : RoundTrip.Statement (.reorderAccept id) :=
  roundTrip_none rfl

theorem RoundTrip.remotePerform (id : Nat) : RoundTrip.Statement (.remotePerform id) :=
  roundTrip_none rfl

theorem RoundTrip.ackReturn (id : Nat) : RoundTrip.Statement (.ackReturn id) :=
  roundTrip_none rfl

theorem RoundTrip.remoteReply (id : Nat) : RoundTrip.Statement (.remoteReply id) :=
  roundTrip_none rfl

theorem RoundTrip.withdrawalArrival (id : Nat) : RoundTrip.Statement (.withdrawalArrival id) :=
  roundTrip_none rfl

theorem RoundTrip.noRouteDrop (id : Nat) : RoundTrip.Statement (.noRouteDrop id) :=
  roundTrip_none rfl

theorem RoundTrip.tsendDeparture (id : Nat) : RoundTrip.Statement (.tsendDeparture id) :=
  roundTrip_none rfl

theorem RoundTrip.tsendComplete (id : Nat) : RoundTrip.Statement (.tsendComplete id) :=
  roundTrip_none rfl

theorem RoundTrip.pieceDeparture (c : CollId) (chunk : Nat) (offset : Nat) : RoundTrip.Statement (.pieceDeparture c chunk offset) :=
  roundTrip_none rfl

theorem RoundTrip.deferralResend (p : Piece) : RoundTrip.Statement (.deferralResend p) :=
  roundTrip_none rfl

theorem RoundTrip.postEntry (id : Nat) : RoundTrip.Statement (.postEntry id) :=
  roundTrip_none rfl

theorem RoundTrip.collectiveComplete (c : CollId) : RoundTrip.Statement (.collectiveComplete c) :=
  roundTrip_none rfl

theorem RoundTrip.collectiveTimeout (c : CollId) : RoundTrip.Statement (.collectiveTimeout c) :=
  roundTrip_none rfl

theorem RoundTrip.hoopPostArrival (c : CollId) (pos : Nat) (key : PostKey) : RoundTrip.Statement (.hoopPostArrival c pos key) :=
  roundTrip_none rfl

theorem RoundTrip.ticketArrival (t : Ticket) : RoundTrip.Statement (.ticketArrival t) :=
  roundTrip_none rfl

theorem RoundTrip.admission : RoundTrip.Statement .admission :=
  roundTrip_none rfl

theorem RoundTrip.orderNotice (c : CollId) : RoundTrip.Statement (.orderNotice c) :=
  roundTrip_none rfl

theorem RoundTrip.pieceArrival (p : Piece) : RoundTrip.Statement (.pieceArrival p) :=
  roundTrip_none rfl

theorem RoundTrip.abortNotice (c : CollId) (cancelled : Bool) : RoundTrip.Statement (.abortNotice c cancelled) :=
  roundTrip_none rfl

theorem RoundTrip.hoopWithdrawal (c : CollId) (cancelled : Bool) : RoundTrip.Statement (.hoopWithdrawal c cancelled) :=
  roundTrip_none rfl

theorem RoundTrip.hbmArrival (pa : Nat) (read : Bool) : RoundTrip.Statement (.hbmArrival pa read) :=
  roundTrip_none rfl

theorem RoundTrip.wsRefreshWindowStart (bank : Nat) : RoundTrip.Statement (.wsRefreshWindowStart bank) :=
  roundTrip_none rfl

theorem RoundTrip.wsRefreshWindowEnd (bank : Nat) : RoundTrip.Statement (.wsRefreshWindowEnd bank) :=
  roundTrip_none rfl

theorem RoundTrip.linkDown (port : Nat) : RoundTrip.Statement (.linkDown port) :=
  roundTrip_none rfl

theorem RoundTrip.routeTableLoad (dest : Nat) (alts : List (Nat × Nat)) : RoundTrip.Statement (.routeTableLoad dest alts) :=
  roundTrip_none rfl

theorem RoundTrip.rankTableWrite (rank : Nat) (entry : Word) (members : List Nat) : RoundTrip.Statement (.rankTableWrite rank entry members) :=
  roundTrip_none rfl

theorem RoundTrip.mailboxWrite (i : Nat) (addr : Nat) : RoundTrip.Statement (.mailboxWrite i addr) :=
  roundTrip_none rfl

theorem RoundTrip.resourceReport (core : Nat) (r : CoreReport) : RoundTrip.Statement (.resourceReport core r) :=
  roundTrip_none rfl

theorem RoundTrip.uncorrectableError (line : Nat) : RoundTrip.Statement (.uncorrectableError line) :=
  roundTrip_none rfl

theorem RoundTrip.timeService (skew : Int) : RoundTrip.Statement (.timeService skew) :=
  roundTrip_none rfl

theorem RoundTrip.hostWrite (port : Bool) (rod : Bool) (pa : Nat) (data : List Byte) : RoundTrip.Statement (.hostWrite port rod pa data) :=
  roundTrip_none rfl

theorem RoundTrip.hostRead (port : Bool) (pa : Nat) (n : Nat) : RoundTrip.Statement (.hostRead port pa n) :=
  roundTrip_none rfl

theorem RoundTrip.hsemWrite (port : Bool) (v : Word) : RoundTrip.Statement (.hsemWrite port v) :=
  roundTrip_none rfl

theorem RoundTrip.hsemRelease : RoundTrip.Statement .hsemRelease :=
  roundTrip_none rfl

theorem RoundTrip.registerWrite (port : Bool) (off : Nat) (v : Word) : RoundTrip.Statement (.registerWrite port off v) :=
  roundTrip_none rfl

theorem RoundTrip.powerTick (watts : Nat) (hot : Nat) : RoundTrip.Statement (.powerTick watts hot) :=
  roundTrip_none rfl

theorem RoundTrip.thermalPowerOff : RoundTrip.Statement .thermalPowerOff :=
  roundTrip_none rfl

theorem RoundTrip.packageReset : RoundTrip.Statement .packageReset :=
  roundTrip_none rfl

theorem RoundTrip.firmwareImage : RoundTrip.Statement .firmwareImage :=
  roundTrip_none rfl

theorem RoundTrip.watchdog : RoundTrip.Statement .watchdog :=
  roundTrip_none rfl

theorem RoundTrip.attestation (nonce : List Byte) : RoundTrip.Statement (.attestation nonce) :=
  roundTrip_none rfl

theorem RoundTrip.identityRead : RoundTrip.Statement .identityRead :=
  roundTrip_none rfl

theorem RoundTrip.delegate (who : Nat) (parent : Nat) (rights : BitVec 6) (holder : Nat) : RoundTrip.Statement (.delegate who parent rights holder) :=
  roundTrip_none rfl

theorem RoundTrip.revoke (who : Nat) (entry : Nat) : RoundTrip.Statement (.revoke who entry) :=
  roundTrip_none rfl

theorem RoundTrip.stopRequest (who : Nat) : RoundTrip.Statement (.stopRequest who) :=
  roundTrip_none rfl

theorem RoundTrip.breakpoint : RoundTrip.Statement .breakpoint :=
  roundTrip_none rfl

theorem RoundTrip.singleStepStop : RoundTrip.Statement .singleStepStop :=
  roundTrip_none rfl

theorem RoundTrip.resume (who : Nat) (step : Bool) : RoundTrip.Statement (.resume who step) :=
  roundTrip_none rfl

theorem RoundTrip.debugRead (who : Nat) (off : Nat) (n : Nat) : RoundTrip.Statement (.debugRead who off n) :=
  roundTrip_none rfl

theorem RoundTrip.debugWrite (who : Nat) (off : Nat) (data : List Byte) : RoundTrip.Statement (.debugWrite who off data) :=
  roundTrip_none rfl

theorem RoundTrip.sample : RoundTrip.Statement .sample :=
  roundTrip_none rfl

theorem RoundTrip.chargeRecord : RoundTrip.Statement .chargeRecord :=
  roundTrip_none rfl

theorem RoundTrip.partitionEviction (quad : Bool) : RoundTrip.Statement (.partitionEviction quad) :=
  roundTrip_none rfl

theorem RoundTrip.partitionRestore (quad : Bool) : RoundTrip.Statement (.partitionRestore quad) :=
  roundTrip_none rfl

theorem RoundTrip.breakpointSet (who : Nat) (slot : Nat) (addr : Option Nat) : RoundTrip.Statement (.breakpointSet who slot addr) :=
  roundTrip_none rfl

theorem RoundTrip.sessionOpen (who : Nat) (kind : Nat) (k : Nat) : RoundTrip.Statement (.sessionOpen who kind k) :=
  roundTrip_none rfl

theorem RoundTrip.rootEntry (asid : Nat) (holder : Nat) : RoundTrip.Statement (.rootEntry asid holder) :=
  roundTrip_none rfl

theorem RoundTrip.overflowQuota (port : Bool) (mib : Nat) : RoundTrip.Statement (.overflowQuota port mib) :=
  roundTrip_none rfl

theorem RoundTrip.migration (pkg : Nat) : RoundTrip.Statement (.migration pkg) :=
  roundTrip_none rfl

end Sys2Proof.Laws
end

