-- ==== Sys2Proof/Laws/State.lean ====
section
/-!
SUPPORT. The fields of the state after each update of it: one lemma for each field an update leaves as it
was, true by `rfl`, so that no proof unfolds a record update.
-/

namespace Sys2Proof.Laws

open Sys2Proof Sys2Proof.Machine

/-! `setByte` -/

@[simp] theorem setByte_cx (s : State) (a : Nat) (v : Byte) : (s.setByte a v).cx = s.cx := rfl
@[simp] theorem setByte_sh (s : State) (a : Nat) (v : Byte) : (s.setByte a v).sh = s.sh := rfl
@[simp] theorem setByte_cxSt (s : State) (a : Nat) (v : Byte) : (s.setByte a v).cxSt = s.cxSt := rfl
@[simp] theorem setByte_shSt (s : State) (a : Nat) (v : Byte) : (s.setByte a v).shSt = s.shSt := rfl
@[simp] theorem setByte_bank (s : State) (a : Nat) (v : Byte) : (s.setByte a v).bank = s.bank := rfl
@[simp] theorem setByte_coreid (s : State) (a : Nat) (v : Byte) : (s.setByte a v).coreid = s.coreid := rfl
@[simp] theorem setByte_pkgid (s : State) (a : Nat) (v : Byte) : (s.setByte a v).pkgid = s.pkgid := rfl
@[simp] theorem setByte_rank (s : State) (a : Nat) (v : Byte) : (s.setByte a v).rank = s.rank := rfl
@[simp] theorem setByte_empties (s : State) (a : Nat) (v : Byte) : (s.setByte a v).empties = s.empties := rfl
@[simp] theorem setByte_marks (s : State) (a : Nat) (v : Byte) : (s.setByte a v).marks = s.marks := rfl
@[simp] theorem setByte_cyc (s : State) (a : Nat) (v : Byte) : (s.setByte a v).cyc = s.cyc := rfl
@[simp] theorem setByte_ftime (s : State) (a : Nat) (v : Byte) : (s.setByte a v).ftime = s.ftime := rfl
@[simp] theorem setByte_ftPhase (s : State) (a : Nat) (v : Byte) : (s.setByte a v).ftPhase = s.ftPhase := rfl
@[simp] theorem setByte_badr (s : State) (a : Nat) (v : Byte) : (s.setByte a v).badr = s.badr := rfl
@[simp] theorem setByte_bundle (s : State) (a : Nat) (v : Byte) : (s.setByte a v).bundle = s.bundle := rfl
@[simp] theorem setByte_widx (s : State) (a : Nat) (v : Byte) : (s.setByte a v).widx = s.widx := rfl
@[simp] theorem setByte_ctl (s : State) (a : Nat) (v : Byte) : (s.setByte a v).ctl = s.ctl := rfl
@[simp] theorem setByte_stalled (s : State) (a : Nat) (v : Byte) : (s.setByte a v).stalled = s.stalled := rfl
@[simp] theorem setByte_agenda (s : State) (a : Nat) (v : Byte) : (s.setByte a v).agenda = s.agenda := rfl
@[simp] theorem setByte_fv (s : State) (a : Nat) (v : Byte) : (s.setByte a v).fv = s.fv := rfl
@[simp] theorem setByte_nextId (s : State) (a : Nat) (v : Byte) : (s.setByte a v).nextId = s.nextId := rfl
@[simp] theorem setByte_core (s : State) (a : Nat) (v : Byte) : (s.setByte a v).core = s.core := rfl
@[simp] theorem setByte_xl (s : State) (a : Nat) (v : Byte) : (s.setByte a v).xl = s.xl := rfl
@[simp] theorem setByte_hbm (s : State) (a : Nat) (v : Byte) : (s.setByte a v).hbm = s.hbm := rfl
@[simp] theorem setByte_fab (s : State) (a : Nat) (v : Byte) : (s.setByte a v).fab = s.fab := rfl
@[simp] theorem setByte_coll (s : State) (a : Nat) (v : Byte) : (s.setByte a v).coll = s.coll := rfl
@[simp] theorem setByte_sched (s : State) (a : Nat) (v : Byte) : (s.setByte a v).sched = s.sched := rfl
@[simp] theorem setByte_dbg (s : State) (a : Nat) (v : Byte) : (s.setByte a v).dbg = s.dbg := rfl
@[simp] theorem setByte_host (s : State) (a : Nat) (v : Byte) : (s.setByte a v).host = s.host := rfl

/-! `zeroRange` -/

@[simp] theorem zeroRange_cx (s : State) (a n : Nat) : (s.zeroRange a n).cx = s.cx := rfl
@[simp] theorem zeroRange_sh (s : State) (a n : Nat) : (s.zeroRange a n).sh = s.sh := rfl
@[simp] theorem zeroRange_cxSt (s : State) (a n : Nat) : (s.zeroRange a n).cxSt = s.cxSt := rfl
@[simp] theorem zeroRange_shSt (s : State) (a n : Nat) : (s.zeroRange a n).shSt = s.shSt := rfl
@[simp] theorem zeroRange_bank (s : State) (a n : Nat) : (s.zeroRange a n).bank = s.bank := rfl
@[simp] theorem zeroRange_coreid (s : State) (a n : Nat) : (s.zeroRange a n).coreid = s.coreid := rfl
@[simp] theorem zeroRange_pkgid (s : State) (a n : Nat) : (s.zeroRange a n).pkgid = s.pkgid := rfl
@[simp] theorem zeroRange_rank (s : State) (a n : Nat) : (s.zeroRange a n).rank = s.rank := rfl
@[simp] theorem zeroRange_cyc (s : State) (a n : Nat) : (s.zeroRange a n).cyc = s.cyc := rfl
@[simp] theorem zeroRange_ftime (s : State) (a n : Nat) : (s.zeroRange a n).ftime = s.ftime := rfl
@[simp] theorem zeroRange_ftPhase (s : State) (a n : Nat) : (s.zeroRange a n).ftPhase = s.ftPhase := rfl
@[simp] theorem zeroRange_badr (s : State) (a n : Nat) : (s.zeroRange a n).badr = s.badr := rfl
@[simp] theorem zeroRange_bundle (s : State) (a n : Nat) : (s.zeroRange a n).bundle = s.bundle := rfl
@[simp] theorem zeroRange_widx (s : State) (a n : Nat) : (s.zeroRange a n).widx = s.widx := rfl
@[simp] theorem zeroRange_ctl (s : State) (a n : Nat) : (s.zeroRange a n).ctl = s.ctl := rfl
@[simp] theorem zeroRange_stalled (s : State) (a n : Nat) : (s.zeroRange a n).stalled = s.stalled := rfl
@[simp] theorem zeroRange_agenda (s : State) (a n : Nat) : (s.zeroRange a n).agenda = s.agenda := rfl
@[simp] theorem zeroRange_fv (s : State) (a n : Nat) : (s.zeroRange a n).fv = s.fv := rfl
@[simp] theorem zeroRange_nextId (s : State) (a n : Nat) : (s.zeroRange a n).nextId = s.nextId := rfl
@[simp] theorem zeroRange_core (s : State) (a n : Nat) : (s.zeroRange a n).core = s.core := rfl
@[simp] theorem zeroRange_xl (s : State) (a n : Nat) : (s.zeroRange a n).xl = s.xl := rfl
@[simp] theorem zeroRange_hbm (s : State) (a n : Nat) : (s.zeroRange a n).hbm = s.hbm := rfl
@[simp] theorem zeroRange_fab (s : State) (a n : Nat) : (s.zeroRange a n).fab = s.fab := rfl
@[simp] theorem zeroRange_coll (s : State) (a n : Nat) : (s.zeroRange a n).coll = s.coll := rfl
@[simp] theorem zeroRange_sched (s : State) (a n : Nat) : (s.zeroRange a n).sched = s.sched := rfl
@[simp] theorem zeroRange_dbg (s : State) (a n : Nat) : (s.zeroRange a n).dbg = s.dbg := rfl
@[simp] theorem zeroRange_host (s : State) (a n : Nat) : (s.zeroRange a n).host = s.host := rfl

/-! `draw` -/

@[simp] theorem draw_cx (s : State) : (s.draw.2).cx = s.cx := rfl
@[simp] theorem draw_sh (s : State) : (s.draw.2).sh = s.sh := rfl
@[simp] theorem draw_cxSt (s : State) : (s.draw.2).cxSt = s.cxSt := rfl
@[simp] theorem draw_shSt (s : State) : (s.draw.2).shSt = s.shSt := rfl
@[simp] theorem draw_bank (s : State) : (s.draw.2).bank = s.bank := rfl
@[simp] theorem draw_coreid (s : State) : (s.draw.2).coreid = s.coreid := rfl
@[simp] theorem draw_pkgid (s : State) : (s.draw.2).pkgid = s.pkgid := rfl
@[simp] theorem draw_rank (s : State) : (s.draw.2).rank = s.rank := rfl
@[simp] theorem draw_mem (s : State) : (s.draw.2).mem = s.mem := rfl
@[simp] theorem draw_empties (s : State) : (s.draw.2).empties = s.empties := rfl
@[simp] theorem draw_marks (s : State) : (s.draw.2).marks = s.marks := rfl
@[simp] theorem draw_cyc (s : State) : (s.draw.2).cyc = s.cyc := rfl
@[simp] theorem draw_ftime (s : State) : (s.draw.2).ftime = s.ftime := rfl
@[simp] theorem draw_ftPhase (s : State) : (s.draw.2).ftPhase = s.ftPhase := rfl
@[simp] theorem draw_badr (s : State) : (s.draw.2).badr = s.badr := rfl
@[simp] theorem draw_bundle (s : State) : (s.draw.2).bundle = s.bundle := rfl
@[simp] theorem draw_widx (s : State) : (s.draw.2).widx = s.widx := rfl
@[simp] theorem draw_ctl (s : State) : (s.draw.2).ctl = s.ctl := rfl
@[simp] theorem draw_stalled (s : State) : (s.draw.2).stalled = s.stalled := rfl
@[simp] theorem draw_agenda (s : State) : (s.draw.2).agenda = s.agenda := rfl
@[simp] theorem draw_nextId (s : State) : (s.draw.2).nextId = s.nextId := rfl
@[simp] theorem draw_core (s : State) : (s.draw.2).core = s.core := rfl
@[simp] theorem draw_xl (s : State) : (s.draw.2).xl = s.xl := rfl
@[simp] theorem draw_hbm (s : State) : (s.draw.2).hbm = s.hbm := rfl
@[simp] theorem draw_fab (s : State) : (s.draw.2).fab = s.fab := rfl
@[simp] theorem draw_coll (s : State) : (s.draw.2).coll = s.coll := rfl
@[simp] theorem draw_sched (s : State) : (s.draw.2).sched = s.sched := rfl
@[simp] theorem draw_dbg (s : State) : (s.draw.2).dbg = s.dbg := rfl
@[simp] theorem draw_host (s : State) : (s.draw.2).host = s.host := rfl

/-! `choose` -/

@[simp] theorem choose_cx (s : State) (n : Nat) : ((s.choose n).2).cx = s.cx := rfl
@[simp] theorem choose_sh (s : State) (n : Nat) : ((s.choose n).2).sh = s.sh := rfl
@[simp] theorem choose_cxSt (s : State) (n : Nat) : ((s.choose n).2).cxSt = s.cxSt := rfl
@[simp] theorem choose_shSt (s : State) (n : Nat) : ((s.choose n).2).shSt = s.shSt := rfl
@[simp] theorem choose_bank (s : State) (n : Nat) : ((s.choose n).2).bank = s.bank := rfl
@[simp] theorem choose_coreid (s : State) (n : Nat) : ((s.choose n).2).coreid = s.coreid := rfl
@[simp] theorem choose_pkgid (s : State) (n : Nat) : ((s.choose n).2).pkgid = s.pkgid := rfl
@[simp] theorem choose_rank (s : State) (n : Nat) : ((s.choose n).2).rank = s.rank := rfl
@[simp] theorem choose_mem (s : State) (n : Nat) : ((s.choose n).2).mem = s.mem := rfl
@[simp] theorem choose_empties (s : State) (n : Nat) : ((s.choose n).2).empties = s.empties := rfl
@[simp] theorem choose_marks (s : State) (n : Nat) : ((s.choose n).2).marks = s.marks := rfl
@[simp] theorem choose_cyc (s : State) (n : Nat) : ((s.choose n).2).cyc = s.cyc := rfl
@[simp] theorem choose_ftime (s : State) (n : Nat) : ((s.choose n).2).ftime = s.ftime := rfl
@[simp] theorem choose_ftPhase (s : State) (n : Nat) : ((s.choose n).2).ftPhase = s.ftPhase := rfl
@[simp] theorem choose_badr (s : State) (n : Nat) : ((s.choose n).2).badr = s.badr := rfl
@[simp] theorem choose_bundle (s : State) (n : Nat) : ((s.choose n).2).bundle = s.bundle := rfl
@[simp] theorem choose_widx (s : State) (n : Nat) : ((s.choose n).2).widx = s.widx := rfl
@[simp] theorem choose_ctl (s : State) (n : Nat) : ((s.choose n).2).ctl = s.ctl := rfl
@[simp] theorem choose_stalled (s : State) (n : Nat) : ((s.choose n).2).stalled = s.stalled := rfl
@[simp] theorem choose_agenda (s : State) (n : Nat) : ((s.choose n).2).agenda = s.agenda := rfl
@[simp] theorem choose_nextId (s : State) (n : Nat) : ((s.choose n).2).nextId = s.nextId := rfl
@[simp] theorem choose_core (s : State) (n : Nat) : ((s.choose n).2).core = s.core := rfl
@[simp] theorem choose_xl (s : State) (n : Nat) : ((s.choose n).2).xl = s.xl := rfl
@[simp] theorem choose_hbm (s : State) (n : Nat) : ((s.choose n).2).hbm = s.hbm := rfl
@[simp] theorem choose_fab (s : State) (n : Nat) : ((s.choose n).2).fab = s.fab := rfl
@[simp] theorem choose_coll (s : State) (n : Nat) : ((s.choose n).2).coll = s.coll := rfl
@[simp] theorem choose_sched (s : State) (n : Nat) : ((s.choose n).2).sched = s.sched := rfl
@[simp] theorem choose_dbg (s : State) (n : Nat) : ((s.choose n).2).dbg = s.dbg := rfl
@[simp] theorem choose_host (s : State) (n : Nat) : ((s.choose n).2).host = s.host := rfl

/-! `newId` -/

@[simp] theorem newId_cx (s : State) : (s.newId.2).cx = s.cx := rfl
@[simp] theorem newId_sh (s : State) : (s.newId.2).sh = s.sh := rfl
@[simp] theorem newId_cxSt (s : State) : (s.newId.2).cxSt = s.cxSt := rfl
@[simp] theorem newId_shSt (s : State) : (s.newId.2).shSt = s.shSt := rfl
@[simp] theorem newId_bank (s : State) : (s.newId.2).bank = s.bank := rfl
@[simp] theorem newId_coreid (s : State) : (s.newId.2).coreid = s.coreid := rfl
@[simp] theorem newId_pkgid (s : State) : (s.newId.2).pkgid = s.pkgid := rfl
@[simp] theorem newId_rank (s : State) : (s.newId.2).rank = s.rank := rfl
@[simp] theorem newId_mem (s : State) : (s.newId.2).mem = s.mem := rfl
@[simp] theorem newId_empties (s : State) : (s.newId.2).empties = s.empties := rfl
@[simp] theorem newId_marks (s : State) : (s.newId.2).marks = s.marks := rfl
@[simp] theorem newId_cyc (s : State) : (s.newId.2).cyc = s.cyc := rfl
@[simp] theorem newId_ftime (s : State) : (s.newId.2).ftime = s.ftime := rfl
@[simp] theorem newId_ftPhase (s : State) : (s.newId.2).ftPhase = s.ftPhase := rfl
@[simp] theorem newId_badr (s : State) : (s.newId.2).badr = s.badr := rfl
@[simp] theorem newId_bundle (s : State) : (s.newId.2).bundle = s.bundle := rfl
@[simp] theorem newId_widx (s : State) : (s.newId.2).widx = s.widx := rfl
@[simp] theorem newId_ctl (s : State) : (s.newId.2).ctl = s.ctl := rfl
@[simp] theorem newId_stalled (s : State) : (s.newId.2).stalled = s.stalled := rfl
@[simp] theorem newId_agenda (s : State) : (s.newId.2).agenda = s.agenda := rfl
@[simp] theorem newId_fv (s : State) : (s.newId.2).fv = s.fv := rfl
@[simp] theorem newId_core (s : State) : (s.newId.2).core = s.core := rfl
@[simp] theorem newId_xl (s : State) : (s.newId.2).xl = s.xl := rfl
@[simp] theorem newId_hbm (s : State) : (s.newId.2).hbm = s.hbm := rfl
@[simp] theorem newId_fab (s : State) : (s.newId.2).fab = s.fab := rfl
@[simp] theorem newId_coll (s : State) : (s.newId.2).coll = s.coll := rfl
@[simp] theorem newId_sched (s : State) : (s.newId.2).sched = s.sched := rfl
@[simp] theorem newId_dbg (s : State) : (s.newId.2).dbg = s.dbg := rfl
@[simp] theorem newId_host (s : State) : (s.newId.2).host = s.host := rfl

/-! `push` -/

@[simp] theorem push_sh (s : State) (w : Write) (n : Nat) : (s.push w n).sh = s.sh := rfl
@[simp] theorem push_cxSt (s : State) (w : Write) (n : Nat) : (s.push w n).cxSt = s.cxSt := rfl
@[simp] theorem push_shSt (s : State) (w : Write) (n : Nat) : (s.push w n).shSt = s.shSt := rfl
@[simp] theorem push_bank (s : State) (w : Write) (n : Nat) : (s.push w n).bank = s.bank := rfl
@[simp] theorem push_coreid (s : State) (w : Write) (n : Nat) : (s.push w n).coreid = s.coreid := rfl
@[simp] theorem push_pkgid (s : State) (w : Write) (n : Nat) : (s.push w n).pkgid = s.pkgid := rfl
@[simp] theorem push_rank (s : State) (w : Write) (n : Nat) : (s.push w n).rank = s.rank := rfl
@[simp] theorem push_mem (s : State) (w : Write) (n : Nat) : (s.push w n).mem = s.mem := rfl
@[simp] theorem push_empties (s : State) (w : Write) (n : Nat) : (s.push w n).empties = s.empties := rfl
@[simp] theorem push_marks (s : State) (w : Write) (n : Nat) : (s.push w n).marks = s.marks := rfl
@[simp] theorem push_cyc (s : State) (w : Write) (n : Nat) : (s.push w n).cyc = s.cyc := rfl
@[simp] theorem push_ftime (s : State) (w : Write) (n : Nat) : (s.push w n).ftime = s.ftime := rfl
@[simp] theorem push_ftPhase (s : State) (w : Write) (n : Nat) : (s.push w n).ftPhase = s.ftPhase := rfl
@[simp] theorem push_badr (s : State) (w : Write) (n : Nat) : (s.push w n).badr = s.badr := rfl
@[simp] theorem push_bundle (s : State) (w : Write) (n : Nat) : (s.push w n).bundle = s.bundle := rfl
@[simp] theorem push_widx (s : State) (w : Write) (n : Nat) : (s.push w n).widx = s.widx := rfl
@[simp] theorem push_ctl (s : State) (w : Write) (n : Nat) : (s.push w n).ctl = s.ctl := rfl
@[simp] theorem push_stalled (s : State) (w : Write) (n : Nat) : (s.push w n).stalled = s.stalled := rfl
@[simp] theorem push_agenda (s : State) (w : Write) (n : Nat) : (s.push w n).agenda = s.agenda := rfl
@[simp] theorem push_nextId (s : State) (w : Write) (n : Nat) : (s.push w n).nextId = s.nextId := rfl
@[simp] theorem push_core (s : State) (w : Write) (n : Nat) : (s.push w n).core = s.core := rfl
@[simp] theorem push_xl (s : State) (w : Write) (n : Nat) : (s.push w n).xl = s.xl := rfl
@[simp] theorem push_hbm (s : State) (w : Write) (n : Nat) : (s.push w n).hbm = s.hbm := rfl
@[simp] theorem push_fab (s : State) (w : Write) (n : Nat) : (s.push w n).fab = s.fab := rfl
@[simp] theorem push_coll (s : State) (w : Write) (n : Nat) : (s.push w n).coll = s.coll := rfl
@[simp] theorem push_sched (s : State) (w : Write) (n : Nat) : (s.push w n).sched = s.sched := rfl
@[simp] theorem push_dbg (s : State) (w : Write) (n : Nat) : (s.push w n).dbg = s.dbg := rfl
@[simp] theorem push_host (s : State) (w : Write) (n : Nat) : (s.push w n).host = s.host := rfl
@[simp] theorem push_cx_uid (s : State) (w : Write) (n : Nat) : (s.push w n).cx.uid = s.cx.uid := rfl
@[simp] theorem push_cx_regs (s : State) (w : Write) (n : Nat) : (s.push w n).cx.regs = s.cx.regs := rfl
@[simp] theorem push_cx_preds (s : State) (w : Write) (n : Nat) : (s.push w n).cx.preds = s.cx.preds := rfl
@[simp] theorem push_cx_icyc (s : State) (w : Write) (n : Nat) : (s.push w n).cx.icyc = s.cx.icyc := rfl
@[simp] theorem push_cx_descs (s : State) (w : Write) (n : Nat) : (s.push w n).cx.descs = s.cx.descs := rfl
@[simp] theorem push_cx_chains (s : State) (w : Write) (n : Nat) : (s.push w n).cx.chains = s.cx.chains := rfl
@[simp] theorem push_cx_latches (s : State) (w : Write) (n : Nat) : (s.push w n).cx.latches = s.cx.latches := rfl
@[simp] theorem push_cx_fms (s : State) (w : Write) (n : Nat) : (s.push w n).cx.fms = s.cx.fms := rfl
@[simp] theorem push_cx_scs (s : State) (w : Write) (n : Nat) : (s.push w n).cx.scs = s.cx.scs := rfl
@[simp] theorem push_cx_tiles (s : State) (w : Write) (n : Nat) : (s.push w n).cx.tiles = s.cx.tiles := rfl
@[simp] theorem push_cx_lq (s : State) (w : Write) (n : Nat) : (s.push w n).cx.lq = s.cx.lq := rfl
@[simp] theorem push_cx_accs (s : State) (w : Write) (n : Nat) : (s.push w n).cx.accs = s.cx.accs := rfl
@[simp] theorem push_cx_streams (s : State) (w : Write) (n : Nat) : (s.push w n).cx.streams = s.cx.streams := rfl
@[simp] theorem push_cx_fences (s : State) (w : Write) (n : Nat) : (s.push w n).cx.fences = s.cx.fences := rfl
@[simp] theorem push_cx_drains (s : State) (w : Write) (n : Nat) : (s.push w n).cx.drains = s.cx.drains := rfl
@[simp] theorem push_cx_slack (s : State) (w : Write) (n : Nat) : (s.push w n).cx.slack = s.cx.slack := rfl
@[simp] theorem push_cx_allow (s : State) (w : Write) (n : Nat) : (s.push w n).cx.allow = s.cx.allow := rfl
@[simp] theorem push_cx_outWin (s : State) (w : Write) (n : Nat) : (s.push w n).cx.outWin = s.cx.outWin := rfl
@[simp] theorem push_cx_openTok (s : State) (w : Write) (n : Nat) : (s.push w n).cx.openTok = s.cx.openTok := rfl
@[simp] theorem push_cx_cmds (s : State) (w : Write) (n : Nat) : (s.push w n).cx.cmds = s.cx.cmds := rfl
@[simp] theorem push_cx_batches (s : State) (w : Write) (n : Nat) : (s.push w n).cx.batches = s.cx.batches := rfl
@[simp] theorem push_cx_unseen (s : State) (w : Write) (n : Nat) : (s.push w n).cx.unseen = s.cx.unseen := rfl
@[simp] theorem push_cx_xq (s : State) (w : Write) (n : Nat) : (s.push w n).cx.xq = s.cx.xq := rfl
@[simp] theorem push_cx_mcfg (s : State) (w : Write) (n : Nat) : (s.push w n).cx.mcfg = s.cx.mcfg := rfl
@[simp] theorem push_cx_forms (s : State) (w : Write) (n : Nat) : (s.push w n).cx.forms = s.cx.forms := rfl
@[simp] theorem push_cx_savedCmds (s : State) (w : Write) (n : Nat) : (s.push w n).cx.savedCmds = s.cx.savedCmds := rfl
@[simp] theorem push_cx_pc (s : State) (w : Write) (n : Nat) : (s.push w n).cx.pc = s.cx.pc := rfl
@[simp] theorem push_cx_codeOrigin (s : State) (w : Write) (n : Nat) : (s.push w n).cx.codeOrigin = s.cx.codeOrigin := rfl
@[simp] theorem push_cx_codeLen (s : State) (w : Write) (n : Nat) : (s.push w n).cx.codeLen = s.cx.codeLen := rfl
@[simp] theorem push_cx_codePages (s : State) (w : Write) (n : Nat) : (s.push w n).cx.codePages = s.cx.codePages := rfl
@[simp] theorem push_cx_codeOff (s : State) (w : Write) (n : Nat) : (s.push w n).cx.codeOff = s.cx.codeOff := rfl
@[simp] theorem push_cx_codeLit (s : State) (w : Write) (n : Nat) : (s.push w n).cx.codeLit = s.cx.codeLit := rfl
@[simp] theorem push_cx_lbeg (s : State) (w : Write) (n : Nat) : (s.push w n).cx.lbeg = s.cx.lbeg := rfl
@[simp] theorem push_cx_lend (s : State) (w : Write) (n : Nat) : (s.push w n).cx.lend = s.cx.lend := rfl
@[simp] theorem push_cx_lcnt (s : State) (w : Write) (n : Nat) : (s.push w n).cx.lcnt = s.cx.lcnt := rfl
@[simp] theorem push_cx_flags (s : State) (w : Write) (n : Nat) : (s.push w n).cx.flags = s.cx.flags := rfl
@[simp] theorem push_cx_priv (s : State) (w : Write) (n : Nat) : (s.push w n).cx.priv = s.cx.priv := rfl
@[simp] theorem push_cx_acchk (s : State) (w : Write) (n : Nat) : (s.push w n).cx.acchk = s.cx.acchk := rfl
@[simp] theorem push_cx_tcx (s : State) (w : Write) (n : Nat) : (s.push w n).cx.tcx = s.cx.tcx := rfl
@[simp] theorem push_cx_tcy (s : State) (w : Write) (n : Nat) : (s.push w n).cx.tcy = s.cx.tcy := rfl
@[simp] theorem push_cx_tcz (s : State) (w : Write) (n : Nat) : (s.push w n).cx.tcz = s.cx.tcz := rfl
@[simp] theorem push_cx_tcause (s : State) (w : Write) (n : Nat) : (s.push w n).cx.tcause = s.cx.tcause := rfl
@[simp] theorem push_cx_tbadr (s : State) (w : Write) (n : Nat) : (s.push w n).cx.tbadr = s.cx.tbadr := rfl
@[simp] theorem push_cx_tval (s : State) (w : Write) (n : Nat) : (s.push w n).cx.tval = s.cx.tval := rfl
@[simp] theorem push_cx_thand (s : State) (w : Write) (n : Nat) : (s.push w n).cx.thand = s.cx.thand := rfl
@[simp] theorem push_cx_lqwait (s : State) (w : Write) (n : Nat) : (s.push w n).cx.lqwait = s.cx.lqwait := rfl
@[simp] theorem push_cx_lotflags (s : State) (w : Write) (n : Nat) : (s.push w n).cx.lotflags = s.cx.lotflags := rfl
@[simp] theorem push_cx_ptbase (s : State) (w : Write) (n : Nat) : (s.push w n).cx.ptbase = s.cx.ptbase := rfl
@[simp] theorem push_cx_asid (s : State) (w : Write) (n : Nat) : (s.push w n).cx.asid = s.cx.asid := rfl
@[simp] theorem push_cx_ctxsave (s : State) (w : Write) (n : Nat) : (s.push w n).cx.ctxsave = s.cx.ctxsave := rfl
@[simp] theorem push_cx_resumeAddr (s : State) (w : Write) (n : Nat) : (s.push w n).cx.resumeAddr = s.cx.resumeAddr := rfl
@[simp] theorem push_cx_savedLbeg (s : State) (w : Write) (n : Nat) : (s.push w n).cx.savedLbeg = s.cx.savedLbeg := rfl
@[simp] theorem push_cx_savedLend (s : State) (w : Write) (n : Nat) : (s.push w n).cx.savedLend = s.cx.savedLend := rfl
@[simp] theorem push_cx_savedLcnt (s : State) (w : Write) (n : Nat) : (s.push w n).cx.savedLcnt = s.cx.savedLcnt := rfl
@[simp] theorem push_cx_replay (s : State) (w : Write) (n : Nat) : (s.push w n).cx.replay = s.cx.replay := rfl
@[simp] theorem push_cx_fault (s : State) (w : Write) (n : Nat) : (s.push w n).cx.fault = s.cx.fault := rfl
@[simp] theorem push_cx_ending (s : State) (w : Write) (n : Nat) : (s.push w n).cx.ending = s.cx.ending := rfl
@[simp] theorem push_cx_tlbWait (s : State) (w : Write) (n : Nat) : (s.push w n).cx.tlbWait = s.cx.tlbWait := rfl
@[simp] theorem push_cx_tlbSegs (s : State) (w : Write) (n : Nat) : (s.push w n).cx.tlbSegs = s.cx.tlbSegs := rfl
@[simp] theorem push_cx_task (s : State) (w : Write) (n : Nat) : (s.push w n).cx.task = s.cx.task := rfl
@[simp] theorem push_cx_captured (s : State) (w : Write) (n : Nat) : (s.push w n).cx.captured = s.cx.captured := rfl
@[simp] theorem push_cx_stop (s : State) (w : Write) (n : Nat) : (s.push w n).cx.stop = s.cx.stop := rfl
@[simp] theorem push_cx_bps (s : State) (w : Write) (n : Nat) : (s.push w n).cx.bps = s.cx.bps := rfl
@[simp] theorem push_cx_bpSkip (s : State) (w : Write) (n : Nat) : (s.push w n).cx.bpSkip = s.cx.bpSkip := rfl
@[simp] theorem push_cx_stepOne (s : State) (w : Write) (n : Nat) : (s.push w n).cx.stepOne = s.cx.stepOne := rfl
@[simp] theorem push_cx_stepDone (s : State) (w : Write) (n : Nat) : (s.push w n).cx.stepDone = s.cx.stepDone := rfl
@[simp] theorem push_cx_withdrawn (s : State) (w : Write) (n : Nat) : (s.push w n).cx.withdrawn = s.cx.withdrawn := rfl
@[simp] theorem push_cx_capDeps (s : State) (w : Write) (n : Nat) : (s.push w n).cx.capDeps = s.cx.capDeps := rfl
@[simp] theorem push_cx_stepped (s : State) (w : Write) (n : Nat) : (s.push w n).cx.stepped = s.cx.stepped := rfl
@[simp] theorem push_cx_areaFv (s : State) (w : Write) (n : Nat) : (s.push w n).cx.areaFv = s.cx.areaFv := rfl

/-! `popLq` -/

@[simp] theorem popLq_sh (s : State) (n : Nat) : (s.popLq n).sh = s.sh := rfl
@[simp] theorem popLq_cxSt (s : State) (n : Nat) : (s.popLq n).cxSt = s.cxSt := rfl
@[simp] theorem popLq_shSt (s : State) (n : Nat) : (s.popLq n).shSt = s.shSt := rfl
@[simp] theorem popLq_bank (s : State) (n : Nat) : (s.popLq n).bank = s.bank := rfl
@[simp] theorem popLq_coreid (s : State) (n : Nat) : (s.popLq n).coreid = s.coreid := rfl
@[simp] theorem popLq_pkgid (s : State) (n : Nat) : (s.popLq n).pkgid = s.pkgid := rfl
@[simp] theorem popLq_rank (s : State) (n : Nat) : (s.popLq n).rank = s.rank := rfl
@[simp] theorem popLq_mem (s : State) (n : Nat) : (s.popLq n).mem = s.mem := rfl
@[simp] theorem popLq_empties (s : State) (n : Nat) : (s.popLq n).empties = s.empties := rfl
@[simp] theorem popLq_marks (s : State) (n : Nat) : (s.popLq n).marks = s.marks := rfl
@[simp] theorem popLq_cyc (s : State) (n : Nat) : (s.popLq n).cyc = s.cyc := rfl
@[simp] theorem popLq_ftime (s : State) (n : Nat) : (s.popLq n).ftime = s.ftime := rfl
@[simp] theorem popLq_ftPhase (s : State) (n : Nat) : (s.popLq n).ftPhase = s.ftPhase := rfl
@[simp] theorem popLq_badr (s : State) (n : Nat) : (s.popLq n).badr = s.badr := rfl
@[simp] theorem popLq_bundle (s : State) (n : Nat) : (s.popLq n).bundle = s.bundle := rfl
@[simp] theorem popLq_widx (s : State) (n : Nat) : (s.popLq n).widx = s.widx := rfl
@[simp] theorem popLq_ctl (s : State) (n : Nat) : (s.popLq n).ctl = s.ctl := rfl
@[simp] theorem popLq_stalled (s : State) (n : Nat) : (s.popLq n).stalled = s.stalled := rfl
@[simp] theorem popLq_agenda (s : State) (n : Nat) : (s.popLq n).agenda = s.agenda := rfl
@[simp] theorem popLq_fv (s : State) (n : Nat) : (s.popLq n).fv = s.fv := rfl
@[simp] theorem popLq_nextId (s : State) (n : Nat) : (s.popLq n).nextId = s.nextId := rfl
@[simp] theorem popLq_core (s : State) (n : Nat) : (s.popLq n).core = s.core := rfl
@[simp] theorem popLq_xl (s : State) (n : Nat) : (s.popLq n).xl = s.xl := rfl
@[simp] theorem popLq_hbm (s : State) (n : Nat) : (s.popLq n).hbm = s.hbm := rfl
@[simp] theorem popLq_fab (s : State) (n : Nat) : (s.popLq n).fab = s.fab := rfl
@[simp] theorem popLq_coll (s : State) (n : Nat) : (s.popLq n).coll = s.coll := rfl
@[simp] theorem popLq_sched (s : State) (n : Nat) : (s.popLq n).sched = s.sched := rfl
@[simp] theorem popLq_dbg (s : State) (n : Nat) : (s.popLq n).dbg = s.dbg := rfl
@[simp] theorem popLq_host (s : State) (n : Nat) : (s.popLq n).host = s.host := rfl
@[simp] theorem popLq_cx_uid (s : State) (n : Nat) : (s.popLq n).cx.uid = s.cx.uid := rfl
@[simp] theorem popLq_cx_regs (s : State) (n : Nat) : (s.popLq n).cx.regs = s.cx.regs := rfl
@[simp] theorem popLq_cx_preds (s : State) (n : Nat) : (s.popLq n).cx.preds = s.cx.preds := rfl
@[simp] theorem popLq_cx_pend (s : State) (n : Nat) : (s.popLq n).cx.pend = s.cx.pend := rfl
@[simp] theorem popLq_cx_icyc (s : State) (n : Nat) : (s.popLq n).cx.icyc = s.cx.icyc := rfl
@[simp] theorem popLq_cx_descs (s : State) (n : Nat) : (s.popLq n).cx.descs = s.cx.descs := rfl
@[simp] theorem popLq_cx_chains (s : State) (n : Nat) : (s.popLq n).cx.chains = s.cx.chains := rfl
@[simp] theorem popLq_cx_latches (s : State) (n : Nat) : (s.popLq n).cx.latches = s.cx.latches := rfl
@[simp] theorem popLq_cx_fms (s : State) (n : Nat) : (s.popLq n).cx.fms = s.cx.fms := rfl
@[simp] theorem popLq_cx_scs (s : State) (n : Nat) : (s.popLq n).cx.scs = s.cx.scs := rfl
@[simp] theorem popLq_cx_tiles (s : State) (n : Nat) : (s.popLq n).cx.tiles = s.cx.tiles := rfl
@[simp] theorem popLq_cx_accs (s : State) (n : Nat) : (s.popLq n).cx.accs = s.cx.accs := rfl
@[simp] theorem popLq_cx_streams (s : State) (n : Nat) : (s.popLq n).cx.streams = s.cx.streams := rfl
@[simp] theorem popLq_cx_fences (s : State) (n : Nat) : (s.popLq n).cx.fences = s.cx.fences := rfl
@[simp] theorem popLq_cx_drains (s : State) (n : Nat) : (s.popLq n).cx.drains = s.cx.drains := rfl
@[simp] theorem popLq_cx_slack (s : State) (n : Nat) : (s.popLq n).cx.slack = s.cx.slack := rfl
@[simp] theorem popLq_cx_allow (s : State) (n : Nat) : (s.popLq n).cx.allow = s.cx.allow := rfl
@[simp] theorem popLq_cx_outWin (s : State) (n : Nat) : (s.popLq n).cx.outWin = s.cx.outWin := rfl
@[simp] theorem popLq_cx_openTok (s : State) (n : Nat) : (s.popLq n).cx.openTok = s.cx.openTok := rfl
@[simp] theorem popLq_cx_cmds (s : State) (n : Nat) : (s.popLq n).cx.cmds = s.cx.cmds := rfl
@[simp] theorem popLq_cx_batches (s : State) (n : Nat) : (s.popLq n).cx.batches = s.cx.batches := rfl
@[simp] theorem popLq_cx_unseen (s : State) (n : Nat) : (s.popLq n).cx.unseen = s.cx.unseen := rfl
@[simp] theorem popLq_cx_xq (s : State) (n : Nat) : (s.popLq n).cx.xq = s.cx.xq := rfl
@[simp] theorem popLq_cx_mcfg (s : State) (n : Nat) : (s.popLq n).cx.mcfg = s.cx.mcfg := rfl
@[simp] theorem popLq_cx_forms (s : State) (n : Nat) : (s.popLq n).cx.forms = s.cx.forms := rfl
@[simp] theorem popLq_cx_savedCmds (s : State) (n : Nat) : (s.popLq n).cx.savedCmds = s.cx.savedCmds := rfl
@[simp] theorem popLq_cx_pc (s : State) (n : Nat) : (s.popLq n).cx.pc = s.cx.pc := rfl
@[simp] theorem popLq_cx_codeOrigin (s : State) (n : Nat) : (s.popLq n).cx.codeOrigin = s.cx.codeOrigin := rfl
@[simp] theorem popLq_cx_codeLen (s : State) (n : Nat) : (s.popLq n).cx.codeLen = s.cx.codeLen := rfl
@[simp] theorem popLq_cx_codePages (s : State) (n : Nat) : (s.popLq n).cx.codePages = s.cx.codePages := rfl
@[simp] theorem popLq_cx_codeOff (s : State) (n : Nat) : (s.popLq n).cx.codeOff = s.cx.codeOff := rfl
@[simp] theorem popLq_cx_codeLit (s : State) (n : Nat) : (s.popLq n).cx.codeLit = s.cx.codeLit := rfl
@[simp] theorem popLq_cx_lbeg (s : State) (n : Nat) : (s.popLq n).cx.lbeg = s.cx.lbeg := rfl
@[simp] theorem popLq_cx_lend (s : State) (n : Nat) : (s.popLq n).cx.lend = s.cx.lend := rfl
@[simp] theorem popLq_cx_lcnt (s : State) (n : Nat) : (s.popLq n).cx.lcnt = s.cx.lcnt := rfl
@[simp] theorem popLq_cx_flags (s : State) (n : Nat) : (s.popLq n).cx.flags = s.cx.flags := rfl
@[simp] theorem popLq_cx_priv (s : State) (n : Nat) : (s.popLq n).cx.priv = s.cx.priv := rfl
@[simp] theorem popLq_cx_acchk (s : State) (n : Nat) : (s.popLq n).cx.acchk = s.cx.acchk := rfl
@[simp] theorem popLq_cx_tcx (s : State) (n : Nat) : (s.popLq n).cx.tcx = s.cx.tcx := rfl
@[simp] theorem popLq_cx_tcy (s : State) (n : Nat) : (s.popLq n).cx.tcy = s.cx.tcy := rfl
@[simp] theorem popLq_cx_tcz (s : State) (n : Nat) : (s.popLq n).cx.tcz = s.cx.tcz := rfl
@[simp] theorem popLq_cx_tcause (s : State) (n : Nat) : (s.popLq n).cx.tcause = s.cx.tcause := rfl
@[simp] theorem popLq_cx_tbadr (s : State) (n : Nat) : (s.popLq n).cx.tbadr = s.cx.tbadr := rfl
@[simp] theorem popLq_cx_tval (s : State) (n : Nat) : (s.popLq n).cx.tval = s.cx.tval := rfl
@[simp] theorem popLq_cx_thand (s : State) (n : Nat) : (s.popLq n).cx.thand = s.cx.thand := rfl
@[simp] theorem popLq_cx_lqwait (s : State) (n : Nat) : (s.popLq n).cx.lqwait = s.cx.lqwait := rfl
@[simp] theorem popLq_cx_lotflags (s : State) (n : Nat) : (s.popLq n).cx.lotflags = s.cx.lotflags := rfl
@[simp] theorem popLq_cx_ptbase (s : State) (n : Nat) : (s.popLq n).cx.ptbase = s.cx.ptbase := rfl
@[simp] theorem popLq_cx_asid (s : State) (n : Nat) : (s.popLq n).cx.asid = s.cx.asid := rfl
@[simp] theorem popLq_cx_ctxsave (s : State) (n : Nat) : (s.popLq n).cx.ctxsave = s.cx.ctxsave := rfl
@[simp] theorem popLq_cx_resumeAddr (s : State) (n : Nat) : (s.popLq n).cx.resumeAddr = s.cx.resumeAddr := rfl
@[simp] theorem popLq_cx_savedLbeg (s : State) (n : Nat) : (s.popLq n).cx.savedLbeg = s.cx.savedLbeg := rfl
@[simp] theorem popLq_cx_savedLend (s : State) (n : Nat) : (s.popLq n).cx.savedLend = s.cx.savedLend := rfl
@[simp] theorem popLq_cx_savedLcnt (s : State) (n : Nat) : (s.popLq n).cx.savedLcnt = s.cx.savedLcnt := rfl
@[simp] theorem popLq_cx_replay (s : State) (n : Nat) : (s.popLq n).cx.replay = s.cx.replay := rfl
@[simp] theorem popLq_cx_fault (s : State) (n : Nat) : (s.popLq n).cx.fault = s.cx.fault := rfl
@[simp] theorem popLq_cx_ending (s : State) (n : Nat) : (s.popLq n).cx.ending = s.cx.ending := rfl
@[simp] theorem popLq_cx_tlbWait (s : State) (n : Nat) : (s.popLq n).cx.tlbWait = s.cx.tlbWait := rfl
@[simp] theorem popLq_cx_tlbSegs (s : State) (n : Nat) : (s.popLq n).cx.tlbSegs = s.cx.tlbSegs := rfl
@[simp] theorem popLq_cx_task (s : State) (n : Nat) : (s.popLq n).cx.task = s.cx.task := rfl
@[simp] theorem popLq_cx_captured (s : State) (n : Nat) : (s.popLq n).cx.captured = s.cx.captured := rfl
@[simp] theorem popLq_cx_stop (s : State) (n : Nat) : (s.popLq n).cx.stop = s.cx.stop := rfl
@[simp] theorem popLq_cx_bps (s : State) (n : Nat) : (s.popLq n).cx.bps = s.cx.bps := rfl
@[simp] theorem popLq_cx_bpSkip (s : State) (n : Nat) : (s.popLq n).cx.bpSkip = s.cx.bpSkip := rfl
@[simp] theorem popLq_cx_stepOne (s : State) (n : Nat) : (s.popLq n).cx.stepOne = s.cx.stepOne := rfl
@[simp] theorem popLq_cx_stepDone (s : State) (n : Nat) : (s.popLq n).cx.stepDone = s.cx.stepDone := rfl
@[simp] theorem popLq_cx_withdrawn (s : State) (n : Nat) : (s.popLq n).cx.withdrawn = s.cx.withdrawn := rfl
@[simp] theorem popLq_cx_capDeps (s : State) (n : Nat) : (s.popLq n).cx.capDeps = s.cx.capDeps := rfl
@[simp] theorem popLq_cx_stepped (s : State) (n : Nat) : (s.popLq n).cx.stepped = s.cx.stepped := rfl
@[simp] theorem popLq_cx_areaFv (s : State) (n : Nat) : (s.popLq n).cx.areaFv = s.cx.areaFv := rfl

/-! `stallNow` -/

@[simp] theorem stallNow_cx (s : State) (b : Bool) : (s.stallNow b).cx = s.cx := rfl
@[simp] theorem stallNow_sh (s : State) (b : Bool) : (s.stallNow b).sh = s.sh := rfl
@[simp] theorem stallNow_cxSt (s : State) (b : Bool) : (s.stallNow b).cxSt = s.cxSt := rfl
@[simp] theorem stallNow_shSt (s : State) (b : Bool) : (s.stallNow b).shSt = s.shSt := rfl
@[simp] theorem stallNow_bank (s : State) (b : Bool) : (s.stallNow b).bank = s.bank := rfl
@[simp] theorem stallNow_coreid (s : State) (b : Bool) : (s.stallNow b).coreid = s.coreid := rfl
@[simp] theorem stallNow_pkgid (s : State) (b : Bool) : (s.stallNow b).pkgid = s.pkgid := rfl
@[simp] theorem stallNow_rank (s : State) (b : Bool) : (s.stallNow b).rank = s.rank := rfl
@[simp] theorem stallNow_mem (s : State) (b : Bool) : (s.stallNow b).mem = s.mem := rfl
@[simp] theorem stallNow_empties (s : State) (b : Bool) : (s.stallNow b).empties = s.empties := rfl
@[simp] theorem stallNow_marks (s : State) (b : Bool) : (s.stallNow b).marks = s.marks := rfl
@[simp] theorem stallNow_cyc (s : State) (b : Bool) : (s.stallNow b).cyc = s.cyc := rfl
@[simp] theorem stallNow_ftime (s : State) (b : Bool) : (s.stallNow b).ftime = s.ftime := rfl
@[simp] theorem stallNow_ftPhase (s : State) (b : Bool) : (s.stallNow b).ftPhase = s.ftPhase := rfl
@[simp] theorem stallNow_badr (s : State) (b : Bool) : (s.stallNow b).badr = s.badr := rfl
@[simp] theorem stallNow_bundle (s : State) (b : Bool) : (s.stallNow b).bundle = s.bundle := rfl
@[simp] theorem stallNow_widx (s : State) (b : Bool) : (s.stallNow b).widx = s.widx := rfl
@[simp] theorem stallNow_stalled (s : State) (b : Bool) : (s.stallNow b).stalled = s.stalled := rfl
@[simp] theorem stallNow_agenda (s : State) (b : Bool) : (s.stallNow b).agenda = s.agenda := rfl
@[simp] theorem stallNow_fv (s : State) (b : Bool) : (s.stallNow b).fv = s.fv := rfl
@[simp] theorem stallNow_nextId (s : State) (b : Bool) : (s.stallNow b).nextId = s.nextId := rfl
@[simp] theorem stallNow_core (s : State) (b : Bool) : (s.stallNow b).core = s.core := rfl
@[simp] theorem stallNow_xl (s : State) (b : Bool) : (s.stallNow b).xl = s.xl := rfl
@[simp] theorem stallNow_hbm (s : State) (b : Bool) : (s.stallNow b).hbm = s.hbm := rfl
@[simp] theorem stallNow_fab (s : State) (b : Bool) : (s.stallNow b).fab = s.fab := rfl
@[simp] theorem stallNow_coll (s : State) (b : Bool) : (s.stallNow b).coll = s.coll := rfl
@[simp] theorem stallNow_sched (s : State) (b : Bool) : (s.stallNow b).sched = s.sched := rfl
@[simp] theorem stallNow_dbg (s : State) (b : Bool) : (s.stallNow b).dbg = s.dbg := rfl
@[simp] theorem stallNow_host (s : State) (b : Bool) : (s.stallNow b).host = s.host := rfl

/-! `enterBundle` -/

@[simp] theorem enterBundle_cx (s : State) (l : List IWord) : (s.enterBundle l).cx = s.cx := rfl
@[simp] theorem enterBundle_sh (s : State) (l : List IWord) : (s.enterBundle l).sh = s.sh := rfl
@[simp] theorem enterBundle_cxSt (s : State) (l : List IWord) : (s.enterBundle l).cxSt = s.cxSt := rfl
@[simp] theorem enterBundle_shSt (s : State) (l : List IWord) : (s.enterBundle l).shSt = s.shSt := rfl
@[simp] theorem enterBundle_bank (s : State) (l : List IWord) : (s.enterBundle l).bank = s.bank := rfl
@[simp] theorem enterBundle_coreid (s : State) (l : List IWord) : (s.enterBundle l).coreid = s.coreid := rfl
@[simp] theorem enterBundle_pkgid (s : State) (l : List IWord) : (s.enterBundle l).pkgid = s.pkgid := rfl
@[simp] theorem enterBundle_rank (s : State) (l : List IWord) : (s.enterBundle l).rank = s.rank := rfl
@[simp] theorem enterBundle_mem (s : State) (l : List IWord) : (s.enterBundle l).mem = s.mem := rfl
@[simp] theorem enterBundle_empties (s : State) (l : List IWord) : (s.enterBundle l).empties = s.empties := rfl
@[simp] theorem enterBundle_marks (s : State) (l : List IWord) : (s.enterBundle l).marks = s.marks := rfl
@[simp] theorem enterBundle_cyc (s : State) (l : List IWord) : (s.enterBundle l).cyc = s.cyc := rfl
@[simp] theorem enterBundle_ftime (s : State) (l : List IWord) : (s.enterBundle l).ftime = s.ftime := rfl
@[simp] theorem enterBundle_ftPhase (s : State) (l : List IWord) : (s.enterBundle l).ftPhase = s.ftPhase := rfl
@[simp] theorem enterBundle_agenda (s : State) (l : List IWord) : (s.enterBundle l).agenda = s.agenda := rfl
@[simp] theorem enterBundle_fv (s : State) (l : List IWord) : (s.enterBundle l).fv = s.fv := rfl
@[simp] theorem enterBundle_nextId (s : State) (l : List IWord) : (s.enterBundle l).nextId = s.nextId := rfl
@[simp] theorem enterBundle_core (s : State) (l : List IWord) : (s.enterBundle l).core = s.core := rfl
@[simp] theorem enterBundle_xl (s : State) (l : List IWord) : (s.enterBundle l).xl = s.xl := rfl
@[simp] theorem enterBundle_hbm (s : State) (l : List IWord) : (s.enterBundle l).hbm = s.hbm := rfl
@[simp] theorem enterBundle_fab (s : State) (l : List IWord) : (s.enterBundle l).fab = s.fab := rfl
@[simp] theorem enterBundle_coll (s : State) (l : List IWord) : (s.enterBundle l).coll = s.coll := rfl
@[simp] theorem enterBundle_sched (s : State) (l : List IWord) : (s.enterBundle l).sched = s.sched := rfl
@[simp] theorem enterBundle_dbg (s : State) (l : List IWord) : (s.enterBundle l).dbg = s.dbg := rfl
@[simp] theorem enterBundle_host (s : State) (l : List IWord) : (s.enterBundle l).host = s.host := rfl

/-! `atWord` -/

@[simp] theorem atWord_cx (s : State) (k : Nat) : (s.atWord k).cx = s.cx := rfl
@[simp] theorem atWord_sh (s : State) (k : Nat) : (s.atWord k).sh = s.sh := rfl
@[simp] theorem atWord_cxSt (s : State) (k : Nat) : (s.atWord k).cxSt = s.cxSt := rfl
@[simp] theorem atWord_shSt (s : State) (k : Nat) : (s.atWord k).shSt = s.shSt := rfl
@[simp] theorem atWord_bank (s : State) (k : Nat) : (s.atWord k).bank = s.bank := rfl
@[simp] theorem atWord_coreid (s : State) (k : Nat) : (s.atWord k).coreid = s.coreid := rfl
@[simp] theorem atWord_pkgid (s : State) (k : Nat) : (s.atWord k).pkgid = s.pkgid := rfl
@[simp] theorem atWord_rank (s : State) (k : Nat) : (s.atWord k).rank = s.rank := rfl
@[simp] theorem atWord_mem (s : State) (k : Nat) : (s.atWord k).mem = s.mem := rfl
@[simp] theorem atWord_empties (s : State) (k : Nat) : (s.atWord k).empties = s.empties := rfl
@[simp] theorem atWord_marks (s : State) (k : Nat) : (s.atWord k).marks = s.marks := rfl
@[simp] theorem atWord_cyc (s : State) (k : Nat) : (s.atWord k).cyc = s.cyc := rfl
@[simp] theorem atWord_ftime (s : State) (k : Nat) : (s.atWord k).ftime = s.ftime := rfl
@[simp] theorem atWord_ftPhase (s : State) (k : Nat) : (s.atWord k).ftPhase = s.ftPhase := rfl
@[simp] theorem atWord_badr (s : State) (k : Nat) : (s.atWord k).badr = s.badr := rfl
@[simp] theorem atWord_bundle (s : State) (k : Nat) : (s.atWord k).bundle = s.bundle := rfl
@[simp] theorem atWord_ctl (s : State) (k : Nat) : (s.atWord k).ctl = s.ctl := rfl
@[simp] theorem atWord_stalled (s : State) (k : Nat) : (s.atWord k).stalled = s.stalled := rfl
@[simp] theorem atWord_agenda (s : State) (k : Nat) : (s.atWord k).agenda = s.agenda := rfl
@[simp] theorem atWord_fv (s : State) (k : Nat) : (s.atWord k).fv = s.fv := rfl
@[simp] theorem atWord_nextId (s : State) (k : Nat) : (s.atWord k).nextId = s.nextId := rfl
@[simp] theorem atWord_core (s : State) (k : Nat) : (s.atWord k).core = s.core := rfl
@[simp] theorem atWord_xl (s : State) (k : Nat) : (s.atWord k).xl = s.xl := rfl
@[simp] theorem atWord_hbm (s : State) (k : Nat) : (s.atWord k).hbm = s.hbm := rfl
@[simp] theorem atWord_fab (s : State) (k : Nat) : (s.atWord k).fab = s.fab := rfl
@[simp] theorem atWord_coll (s : State) (k : Nat) : (s.atWord k).coll = s.coll := rfl
@[simp] theorem atWord_sched (s : State) (k : Nat) : (s.atWord k).sched = s.sched := rfl
@[simp] theorem atWord_dbg (s : State) (k : Nat) : (s.atWord k).dbg = s.dbg := rfl
@[simp] theorem atWord_host (s : State) (k : Nat) : (s.atWord k).host = s.host := rfl

/-! `noteIssued` -/


/-! `joinBatch` -/

@[simp] theorem joinBatch_sh (s : State) (i e : Nat) : (s.joinBatch i e).sh = s.sh := rfl
@[simp] theorem joinBatch_cxSt (s : State) (i e : Nat) : (s.joinBatch i e).cxSt = s.cxSt := rfl
@[simp] theorem joinBatch_shSt (s : State) (i e : Nat) : (s.joinBatch i e).shSt = s.shSt := rfl
@[simp] theorem joinBatch_bank (s : State) (i e : Nat) : (s.joinBatch i e).bank = s.bank := rfl
@[simp] theorem joinBatch_coreid (s : State) (i e : Nat) : (s.joinBatch i e).coreid = s.coreid := rfl
@[simp] theorem joinBatch_pkgid (s : State) (i e : Nat) : (s.joinBatch i e).pkgid = s.pkgid := rfl
@[simp] theorem joinBatch_rank (s : State) (i e : Nat) : (s.joinBatch i e).rank = s.rank := rfl
@[simp] theorem joinBatch_mem (s : State) (i e : Nat) : (s.joinBatch i e).mem = s.mem := rfl
@[simp] theorem joinBatch_empties (s : State) (i e : Nat) : (s.joinBatch i e).empties = s.empties := rfl
@[simp] theorem joinBatch_marks (s : State) (i e : Nat) : (s.joinBatch i e).marks = s.marks := rfl
@[simp] theorem joinBatch_cyc (s : State) (i e : Nat) : (s.joinBatch i e).cyc = s.cyc := rfl
@[simp] theorem joinBatch_ftime (s : State) (i e : Nat) : (s.joinBatch i e).ftime = s.ftime := rfl
@[simp] theorem joinBatch_ftPhase (s : State) (i e : Nat) : (s.joinBatch i e).ftPhase = s.ftPhase := rfl
@[simp] theorem joinBatch_badr (s : State) (i e : Nat) : (s.joinBatch i e).badr = s.badr := rfl
@[simp] theorem joinBatch_bundle (s : State) (i e : Nat) : (s.joinBatch i e).bundle = s.bundle := rfl
@[simp] theorem joinBatch_widx (s : State) (i e : Nat) : (s.joinBatch i e).widx = s.widx := rfl
@[simp] theorem joinBatch_ctl (s : State) (i e : Nat) : (s.joinBatch i e).ctl = s.ctl := rfl
@[simp] theorem joinBatch_stalled (s : State) (i e : Nat) : (s.joinBatch i e).stalled = s.stalled := rfl
@[simp] theorem joinBatch_agenda (s : State) (i e : Nat) : (s.joinBatch i e).agenda = s.agenda := rfl
@[simp] theorem joinBatch_fv (s : State) (i e : Nat) : (s.joinBatch i e).fv = s.fv := rfl
@[simp] theorem joinBatch_nextId (s : State) (i e : Nat) : (s.joinBatch i e).nextId = s.nextId := rfl
@[simp] theorem joinBatch_core (s : State) (i e : Nat) : (s.joinBatch i e).core = s.core := rfl
@[simp] theorem joinBatch_xl (s : State) (i e : Nat) : (s.joinBatch i e).xl = s.xl := rfl
@[simp] theorem joinBatch_hbm (s : State) (i e : Nat) : (s.joinBatch i e).hbm = s.hbm := rfl
@[simp] theorem joinBatch_fab (s : State) (i e : Nat) : (s.joinBatch i e).fab = s.fab := rfl
@[simp] theorem joinBatch_coll (s : State) (i e : Nat) : (s.joinBatch i e).coll = s.coll := rfl
@[simp] theorem joinBatch_sched (s : State) (i e : Nat) : (s.joinBatch i e).sched = s.sched := rfl
@[simp] theorem joinBatch_dbg (s : State) (i e : Nat) : (s.joinBatch i e).dbg = s.dbg := rfl
@[simp] theorem joinBatch_host (s : State) (i e : Nat) : (s.joinBatch i e).host = s.host := rfl

/-! `onCtx` -/

@[simp] theorem onCtx_cxSt (s : State) (p : Ctx → Bool) (f : Ctx → Ctx) : (s.onCtx p f).cxSt = s.cxSt := rfl
@[simp] theorem onCtx_shSt (s : State) (p : Ctx → Bool) (f : Ctx → Ctx) : (s.onCtx p f).shSt = s.shSt := rfl
@[simp] theorem onCtx_bank (s : State) (p : Ctx → Bool) (f : Ctx → Ctx) : (s.onCtx p f).bank = s.bank := rfl
@[simp] theorem onCtx_coreid (s : State) (p : Ctx → Bool) (f : Ctx → Ctx) : (s.onCtx p f).coreid = s.coreid := rfl
@[simp] theorem onCtx_pkgid (s : State) (p : Ctx → Bool) (f : Ctx → Ctx) : (s.onCtx p f).pkgid = s.pkgid := rfl
@[simp] theorem onCtx_rank (s : State) (p : Ctx → Bool) (f : Ctx → Ctx) : (s.onCtx p f).rank = s.rank := rfl
@[simp] theorem onCtx_mem (s : State) (p : Ctx → Bool) (f : Ctx → Ctx) : (s.onCtx p f).mem = s.mem := rfl
@[simp] theorem onCtx_empties (s : State) (p : Ctx → Bool) (f : Ctx → Ctx) : (s.onCtx p f).empties = s.empties := rfl
@[simp] theorem onCtx_marks (s : State) (p : Ctx → Bool) (f : Ctx → Ctx) : (s.onCtx p f).marks = s.marks := rfl
@[simp] theorem onCtx_cyc (s : State) (p : Ctx → Bool) (f : Ctx → Ctx) : (s.onCtx p f).cyc = s.cyc := rfl
@[simp] theorem onCtx_ftime (s : State) (p : Ctx → Bool) (f : Ctx → Ctx) : (s.onCtx p f).ftime = s.ftime := rfl
@[simp] theorem onCtx_ftPhase (s : State) (p : Ctx → Bool) (f : Ctx → Ctx) : (s.onCtx p f).ftPhase = s.ftPhase := rfl
@[simp] theorem onCtx_badr (s : State) (p : Ctx → Bool) (f : Ctx → Ctx) : (s.onCtx p f).badr = s.badr := rfl
@[simp] theorem onCtx_bundle (s : State) (p : Ctx → Bool) (f : Ctx → Ctx) : (s.onCtx p f).bundle = s.bundle := rfl
@[simp] theorem onCtx_widx (s : State) (p : Ctx → Bool) (f : Ctx → Ctx) : (s.onCtx p f).widx = s.widx := rfl
@[simp] theorem onCtx_ctl (s : State) (p : Ctx → Bool) (f : Ctx → Ctx) : (s.onCtx p f).ctl = s.ctl := rfl
@[simp] theorem onCtx_stalled (s : State) (p : Ctx → Bool) (f : Ctx → Ctx) : (s.onCtx p f).stalled = s.stalled := rfl
@[simp] theorem onCtx_agenda (s : State) (p : Ctx → Bool) (f : Ctx → Ctx) : (s.onCtx p f).agenda = s.agenda := rfl
@[simp] theorem onCtx_fv (s : State) (p : Ctx → Bool) (f : Ctx → Ctx) : (s.onCtx p f).fv = s.fv := rfl
@[simp] theorem onCtx_nextId (s : State) (p : Ctx → Bool) (f : Ctx → Ctx) : (s.onCtx p f).nextId = s.nextId := rfl
@[simp] theorem onCtx_xl (s : State) (p : Ctx → Bool) (f : Ctx → Ctx) : (s.onCtx p f).xl = s.xl := rfl
@[simp] theorem onCtx_hbm (s : State) (p : Ctx → Bool) (f : Ctx → Ctx) : (s.onCtx p f).hbm = s.hbm := rfl
@[simp] theorem onCtx_fab (s : State) (p : Ctx → Bool) (f : Ctx → Ctx) : (s.onCtx p f).fab = s.fab := rfl
@[simp] theorem onCtx_coll (s : State) (p : Ctx → Bool) (f : Ctx → Ctx) : (s.onCtx p f).coll = s.coll := rfl
@[simp] theorem onCtx_sched (s : State) (p : Ctx → Bool) (f : Ctx → Ctx) : (s.onCtx p f).sched = s.sched := rfl
@[simp] theorem onCtx_dbg (s : State) (p : Ctx → Bool) (f : Ctx → Ctx) : (s.onCtx p f).dbg = s.dbg := rfl
@[simp] theorem onCtx_host (s : State) (p : Ctx → Bool) (f : Ctx → Ctx) : (s.onCtx p f).host = s.host := rfl

/-! `onOwner` -/

@[simp] theorem onOwner_cxSt (s : State) (u : Nat) (f : Ctx → Ctx) : (s.onOwner u f).cxSt = s.cxSt := rfl
@[simp] theorem onOwner_shSt (s : State) (u : Nat) (f : Ctx → Ctx) : (s.onOwner u f).shSt = s.shSt := rfl
@[simp] theorem onOwner_bank (s : State) (u : Nat) (f : Ctx → Ctx) : (s.onOwner u f).bank = s.bank := rfl
@[simp] theorem onOwner_coreid (s : State) (u : Nat) (f : Ctx → Ctx) : (s.onOwner u f).coreid = s.coreid := rfl
@[simp] theorem onOwner_pkgid (s : State) (u : Nat) (f : Ctx → Ctx) : (s.onOwner u f).pkgid = s.pkgid := rfl
@[simp] theorem onOwner_rank (s : State) (u : Nat) (f : Ctx → Ctx) : (s.onOwner u f).rank = s.rank := rfl
@[simp] theorem onOwner_mem (s : State) (u : Nat) (f : Ctx → Ctx) : (s.onOwner u f).mem = s.mem := rfl
@[simp] theorem onOwner_empties (s : State) (u : Nat) (f : Ctx → Ctx) : (s.onOwner u f).empties = s.empties := rfl
@[simp] theorem onOwner_marks (s : State) (u : Nat) (f : Ctx → Ctx) : (s.onOwner u f).marks = s.marks := rfl
@[simp] theorem onOwner_cyc (s : State) (u : Nat) (f : Ctx → Ctx) : (s.onOwner u f).cyc = s.cyc := rfl
@[simp] theorem onOwner_ftime (s : State) (u : Nat) (f : Ctx → Ctx) : (s.onOwner u f).ftime = s.ftime := rfl
@[simp] theorem onOwner_ftPhase (s : State) (u : Nat) (f : Ctx → Ctx) : (s.onOwner u f).ftPhase = s.ftPhase := rfl
@[simp] theorem onOwner_badr (s : State) (u : Nat) (f : Ctx → Ctx) : (s.onOwner u f).badr = s.badr := rfl
@[simp] theorem onOwner_bundle (s : State) (u : Nat) (f : Ctx → Ctx) : (s.onOwner u f).bundle = s.bundle := rfl
@[simp] theorem onOwner_widx (s : State) (u : Nat) (f : Ctx → Ctx) : (s.onOwner u f).widx = s.widx := rfl
@[simp] theorem onOwner_ctl (s : State) (u : Nat) (f : Ctx → Ctx) : (s.onOwner u f).ctl = s.ctl := rfl
@[simp] theorem onOwner_stalled (s : State) (u : Nat) (f : Ctx → Ctx) : (s.onOwner u f).stalled = s.stalled := rfl
@[simp] theorem onOwner_agenda (s : State) (u : Nat) (f : Ctx → Ctx) : (s.onOwner u f).agenda = s.agenda := rfl
@[simp] theorem onOwner_fv (s : State) (u : Nat) (f : Ctx → Ctx) : (s.onOwner u f).fv = s.fv := rfl
@[simp] theorem onOwner_nextId (s : State) (u : Nat) (f : Ctx → Ctx) : (s.onOwner u f).nextId = s.nextId := rfl
@[simp] theorem onOwner_xl (s : State) (u : Nat) (f : Ctx → Ctx) : (s.onOwner u f).xl = s.xl := rfl
@[simp] theorem onOwner_hbm (s : State) (u : Nat) (f : Ctx → Ctx) : (s.onOwner u f).hbm = s.hbm := rfl
@[simp] theorem onOwner_fab (s : State) (u : Nat) (f : Ctx → Ctx) : (s.onOwner u f).fab = s.fab := rfl
@[simp] theorem onOwner_coll (s : State) (u : Nat) (f : Ctx → Ctx) : (s.onOwner u f).coll = s.coll := rfl
@[simp] theorem onOwner_sched (s : State) (u : Nat) (f : Ctx → Ctx) : (s.onOwner u f).sched = s.sched := rfl
@[simp] theorem onOwner_dbg (s : State) (u : Nat) (f : Ctx → Ctx) : (s.onOwner u f).dbg = s.dbg := rfl
@[simp] theorem onOwner_host (s : State) (u : Nat) (f : Ctx → Ctx) : (s.onOwner u f).host = s.host := rfl

/-! `cmdDone` -/

@[simp] theorem cmdDone_cxSt (s : State) (o i : Nat) (e : Option Nat) (f : Flags) : (s.cmdDone o i e f).cxSt = s.cxSt := rfl
@[simp] theorem cmdDone_shSt (s : State) (o i : Nat) (e : Option Nat) (f : Flags) : (s.cmdDone o i e f).shSt = s.shSt := rfl
@[simp] theorem cmdDone_bank (s : State) (o i : Nat) (e : Option Nat) (f : Flags) : (s.cmdDone o i e f).bank = s.bank := rfl
@[simp] theorem cmdDone_coreid (s : State) (o i : Nat) (e : Option Nat) (f : Flags) : (s.cmdDone o i e f).coreid = s.coreid := rfl
@[simp] theorem cmdDone_pkgid (s : State) (o i : Nat) (e : Option Nat) (f : Flags) : (s.cmdDone o i e f).pkgid = s.pkgid := rfl
@[simp] theorem cmdDone_rank (s : State) (o i : Nat) (e : Option Nat) (f : Flags) : (s.cmdDone o i e f).rank = s.rank := rfl
@[simp] theorem cmdDone_mem (s : State) (o i : Nat) (e : Option Nat) (f : Flags) : (s.cmdDone o i e f).mem = s.mem := rfl
@[simp] theorem cmdDone_empties (s : State) (o i : Nat) (e : Option Nat) (f : Flags) : (s.cmdDone o i e f).empties = s.empties := rfl
@[simp] theorem cmdDone_marks (s : State) (o i : Nat) (e : Option Nat) (f : Flags) : (s.cmdDone o i e f).marks = s.marks := rfl
@[simp] theorem cmdDone_cyc (s : State) (o i : Nat) (e : Option Nat) (f : Flags) : (s.cmdDone o i e f).cyc = s.cyc := rfl
@[simp] theorem cmdDone_ftime (s : State) (o i : Nat) (e : Option Nat) (f : Flags) : (s.cmdDone o i e f).ftime = s.ftime := rfl
@[simp] theorem cmdDone_ftPhase (s : State) (o i : Nat) (e : Option Nat) (f : Flags) : (s.cmdDone o i e f).ftPhase = s.ftPhase := rfl
@[simp] theorem cmdDone_badr (s : State) (o i : Nat) (e : Option Nat) (f : Flags) : (s.cmdDone o i e f).badr = s.badr := rfl
@[simp] theorem cmdDone_bundle (s : State) (o i : Nat) (e : Option Nat) (f : Flags) : (s.cmdDone o i e f).bundle = s.bundle := rfl
@[simp] theorem cmdDone_widx (s : State) (o i : Nat) (e : Option Nat) (f : Flags) : (s.cmdDone o i e f).widx = s.widx := rfl
@[simp] theorem cmdDone_ctl (s : State) (o i : Nat) (e : Option Nat) (f : Flags) : (s.cmdDone o i e f).ctl = s.ctl := rfl
@[simp] theorem cmdDone_stalled (s : State) (o i : Nat) (e : Option Nat) (f : Flags) : (s.cmdDone o i e f).stalled = s.stalled := rfl
@[simp] theorem cmdDone_agenda (s : State) (o i : Nat) (e : Option Nat) (f : Flags) : (s.cmdDone o i e f).agenda = s.agenda := rfl
@[simp] theorem cmdDone_fv (s : State) (o i : Nat) (e : Option Nat) (f : Flags) : (s.cmdDone o i e f).fv = s.fv := rfl
@[simp] theorem cmdDone_nextId (s : State) (o i : Nat) (e : Option Nat) (f : Flags) : (s.cmdDone o i e f).nextId = s.nextId := rfl
@[simp] theorem cmdDone_xl (s : State) (o i : Nat) (e : Option Nat) (f : Flags) : (s.cmdDone o i e f).xl = s.xl := rfl
@[simp] theorem cmdDone_hbm (s : State) (o i : Nat) (e : Option Nat) (f : Flags) : (s.cmdDone o i e f).hbm = s.hbm := rfl
@[simp] theorem cmdDone_fab (s : State) (o i : Nat) (e : Option Nat) (f : Flags) : (s.cmdDone o i e f).fab = s.fab := rfl
@[simp] theorem cmdDone_coll (s : State) (o i : Nat) (e : Option Nat) (f : Flags) : (s.cmdDone o i e f).coll = s.coll := rfl
@[simp] theorem cmdDone_sched (s : State) (o i : Nat) (e : Option Nat) (f : Flags) : (s.cmdDone o i e f).sched = s.sched := rfl
@[simp] theorem cmdDone_dbg (s : State) (o i : Nat) (e : Option Nat) (f : Flags) : (s.cmdDone o i e f).dbg = s.dbg := rfl
@[simp] theorem cmdDone_host (s : State) (o i : Nat) (e : Option Nat) (f : Flags) : (s.cmdDone o i e f).host = s.host := rfl

/-! `sendPacket` -/

@[simp] theorem sendPacket_cx (s : State) (p : Packet) : (s.sendPacket p).cx = s.cx := rfl
@[simp] theorem sendPacket_sh (s : State) (p : Packet) : (s.sendPacket p).sh = s.sh := rfl
@[simp] theorem sendPacket_cxSt (s : State) (p : Packet) : (s.sendPacket p).cxSt = s.cxSt := rfl
@[simp] theorem sendPacket_shSt (s : State) (p : Packet) : (s.sendPacket p).shSt = s.shSt := rfl
@[simp] theorem sendPacket_bank (s : State) (p : Packet) : (s.sendPacket p).bank = s.bank := rfl
@[simp] theorem sendPacket_coreid (s : State) (p : Packet) : (s.sendPacket p).coreid = s.coreid := rfl
@[simp] theorem sendPacket_pkgid (s : State) (p : Packet) : (s.sendPacket p).pkgid = s.pkgid := rfl
@[simp] theorem sendPacket_rank (s : State) (p : Packet) : (s.sendPacket p).rank = s.rank := rfl
@[simp] theorem sendPacket_mem (s : State) (p : Packet) : (s.sendPacket p).mem = s.mem := rfl
@[simp] theorem sendPacket_empties (s : State) (p : Packet) : (s.sendPacket p).empties = s.empties := rfl
@[simp] theorem sendPacket_marks (s : State) (p : Packet) : (s.sendPacket p).marks = s.marks := rfl
@[simp] theorem sendPacket_cyc (s : State) (p : Packet) : (s.sendPacket p).cyc = s.cyc := rfl
@[simp] theorem sendPacket_ftime (s : State) (p : Packet) : (s.sendPacket p).ftime = s.ftime := rfl
@[simp] theorem sendPacket_ftPhase (s : State) (p : Packet) : (s.sendPacket p).ftPhase = s.ftPhase := rfl
@[simp] theorem sendPacket_badr (s : State) (p : Packet) : (s.sendPacket p).badr = s.badr := rfl
@[simp] theorem sendPacket_bundle (s : State) (p : Packet) : (s.sendPacket p).bundle = s.bundle := rfl
@[simp] theorem sendPacket_widx (s : State) (p : Packet) : (s.sendPacket p).widx = s.widx := rfl
@[simp] theorem sendPacket_ctl (s : State) (p : Packet) : (s.sendPacket p).ctl = s.ctl := rfl
@[simp] theorem sendPacket_stalled (s : State) (p : Packet) : (s.sendPacket p).stalled = s.stalled := rfl
@[simp] theorem sendPacket_agenda (s : State) (p : Packet) : (s.sendPacket p).agenda = s.agenda := rfl
@[simp] theorem sendPacket_fv (s : State) (p : Packet) : (s.sendPacket p).fv = s.fv := rfl
@[simp] theorem sendPacket_nextId (s : State) (p : Packet) : (s.sendPacket p).nextId = s.nextId := rfl
@[simp] theorem sendPacket_core (s : State) (p : Packet) : (s.sendPacket p).core = s.core := rfl
@[simp] theorem sendPacket_xl (s : State) (p : Packet) : (s.sendPacket p).xl = s.xl := rfl
@[simp] theorem sendPacket_hbm (s : State) (p : Packet) : (s.sendPacket p).hbm = s.hbm := rfl
@[simp] theorem sendPacket_coll (s : State) (p : Packet) : (s.sendPacket p).coll = s.coll := rfl
@[simp] theorem sendPacket_sched (s : State) (p : Packet) : (s.sendPacket p).sched = s.sched := rfl
@[simp] theorem sendPacket_dbg (s : State) (p : Packet) : (s.sendPacket p).dbg = s.dbg := rfl
@[simp] theorem sendPacket_host (s : State) (p : Packet) : (s.sendPacket p).host = s.host := rfl

/-! `flushLine` -/

@[simp] theorem flushLine_cx (s : State) (l : Line) : (s.flushLine l).cx = s.cx := rfl
@[simp] theorem flushLine_sh (s : State) (l : Line) : (s.flushLine l).sh = s.sh := rfl
@[simp] theorem flushLine_cxSt (s : State) (l : Line) : (s.flushLine l).cxSt = s.cxSt := rfl
@[simp] theorem flushLine_shSt (s : State) (l : Line) : (s.flushLine l).shSt = s.shSt := rfl
@[simp] theorem flushLine_bank (s : State) (l : Line) : (s.flushLine l).bank = s.bank := rfl
@[simp] theorem flushLine_coreid (s : State) (l : Line) : (s.flushLine l).coreid = s.coreid := rfl
@[simp] theorem flushLine_pkgid (s : State) (l : Line) : (s.flushLine l).pkgid = s.pkgid := rfl
@[simp] theorem flushLine_rank (s : State) (l : Line) : (s.flushLine l).rank = s.rank := rfl
@[simp] theorem flushLine_mem (s : State) (l : Line) : (s.flushLine l).mem = s.mem := rfl
@[simp] theorem flushLine_empties (s : State) (l : Line) : (s.flushLine l).empties = s.empties := rfl
@[simp] theorem flushLine_marks (s : State) (l : Line) : (s.flushLine l).marks = s.marks := rfl
@[simp] theorem flushLine_cyc (s : State) (l : Line) : (s.flushLine l).cyc = s.cyc := rfl
@[simp] theorem flushLine_ftime (s : State) (l : Line) : (s.flushLine l).ftime = s.ftime := rfl
@[simp] theorem flushLine_ftPhase (s : State) (l : Line) : (s.flushLine l).ftPhase = s.ftPhase := rfl
@[simp] theorem flushLine_badr (s : State) (l : Line) : (s.flushLine l).badr = s.badr := rfl
@[simp] theorem flushLine_bundle (s : State) (l : Line) : (s.flushLine l).bundle = s.bundle := rfl
@[simp] theorem flushLine_widx (s : State) (l : Line) : (s.flushLine l).widx = s.widx := rfl
@[simp] theorem flushLine_ctl (s : State) (l : Line) : (s.flushLine l).ctl = s.ctl := rfl
@[simp] theorem flushLine_stalled (s : State) (l : Line) : (s.flushLine l).stalled = s.stalled := rfl
@[simp] theorem flushLine_agenda (s : State) (l : Line) : (s.flushLine l).agenda = s.agenda := rfl
@[simp] theorem flushLine_fv (s : State) (l : Line) : (s.flushLine l).fv = s.fv := rfl
@[simp] theorem flushLine_nextId (s : State) (l : Line) : (s.flushLine l).nextId = s.nextId := rfl
@[simp] theorem flushLine_xl (s : State) (l : Line) : (s.flushLine l).xl = s.xl := rfl
@[simp] theorem flushLine_hbm (s : State) (l : Line) : (s.flushLine l).hbm = s.hbm := rfl
@[simp] theorem flushLine_coll (s : State) (l : Line) : (s.flushLine l).coll = s.coll := rfl
@[simp] theorem flushLine_sched (s : State) (l : Line) : (s.flushLine l).sched = s.sched := rfl
@[simp] theorem flushLine_dbg (s : State) (l : Line) : (s.flushLine l).dbg = s.dbg := rfl
@[simp] theorem flushLine_host (s : State) (l : Line) : (s.flushLine l).host = s.host := rfl

/-! `retire` -/

@[simp] theorem retire_cxSt (s : State) (u : Nat) (a : Acc) (v : Option Reg) : (s.retire u a v).cxSt = s.cxSt := rfl
@[simp] theorem retire_shSt (s : State) (u : Nat) (a : Acc) (v : Option Reg) : (s.retire u a v).shSt = s.shSt := rfl
@[simp] theorem retire_bank (s : State) (u : Nat) (a : Acc) (v : Option Reg) : (s.retire u a v).bank = s.bank := rfl
@[simp] theorem retire_coreid (s : State) (u : Nat) (a : Acc) (v : Option Reg) : (s.retire u a v).coreid = s.coreid := rfl
@[simp] theorem retire_pkgid (s : State) (u : Nat) (a : Acc) (v : Option Reg) : (s.retire u a v).pkgid = s.pkgid := rfl
@[simp] theorem retire_rank (s : State) (u : Nat) (a : Acc) (v : Option Reg) : (s.retire u a v).rank = s.rank := rfl
@[simp] theorem retire_mem (s : State) (u : Nat) (a : Acc) (v : Option Reg) : (s.retire u a v).mem = s.mem := rfl
@[simp] theorem retire_empties (s : State) (u : Nat) (a : Acc) (v : Option Reg) : (s.retire u a v).empties = s.empties := rfl
@[simp] theorem retire_marks (s : State) (u : Nat) (a : Acc) (v : Option Reg) : (s.retire u a v).marks = s.marks := rfl
@[simp] theorem retire_cyc (s : State) (u : Nat) (a : Acc) (v : Option Reg) : (s.retire u a v).cyc = s.cyc := rfl
@[simp] theorem retire_ftime (s : State) (u : Nat) (a : Acc) (v : Option Reg) : (s.retire u a v).ftime = s.ftime := rfl
@[simp] theorem retire_ftPhase (s : State) (u : Nat) (a : Acc) (v : Option Reg) : (s.retire u a v).ftPhase = s.ftPhase := rfl
@[simp] theorem retire_badr (s : State) (u : Nat) (a : Acc) (v : Option Reg) : (s.retire u a v).badr = s.badr := rfl
@[simp] theorem retire_bundle (s : State) (u : Nat) (a : Acc) (v : Option Reg) : (s.retire u a v).bundle = s.bundle := rfl
@[simp] theorem retire_widx (s : State) (u : Nat) (a : Acc) (v : Option Reg) : (s.retire u a v).widx = s.widx := rfl
@[simp] theorem retire_ctl (s : State) (u : Nat) (a : Acc) (v : Option Reg) : (s.retire u a v).ctl = s.ctl := rfl
@[simp] theorem retire_stalled (s : State) (u : Nat) (a : Acc) (v : Option Reg) : (s.retire u a v).stalled = s.stalled := rfl
@[simp] theorem retire_agenda (s : State) (u : Nat) (a : Acc) (v : Option Reg) : (s.retire u a v).agenda = s.agenda := rfl
@[simp] theorem retire_fv (s : State) (u : Nat) (a : Acc) (v : Option Reg) : (s.retire u a v).fv = s.fv := rfl
@[simp] theorem retire_nextId (s : State) (u : Nat) (a : Acc) (v : Option Reg) : (s.retire u a v).nextId = s.nextId := rfl
@[simp] theorem retire_xl (s : State) (u : Nat) (a : Acc) (v : Option Reg) : (s.retire u a v).xl = s.xl := rfl
@[simp] theorem retire_hbm (s : State) (u : Nat) (a : Acc) (v : Option Reg) : (s.retire u a v).hbm = s.hbm := rfl
@[simp] theorem retire_fab (s : State) (u : Nat) (a : Acc) (v : Option Reg) : (s.retire u a v).fab = s.fab := rfl
@[simp] theorem retire_coll (s : State) (u : Nat) (a : Acc) (v : Option Reg) : (s.retire u a v).coll = s.coll := rfl
@[simp] theorem retire_sched (s : State) (u : Nat) (a : Acc) (v : Option Reg) : (s.retire u a v).sched = s.sched := rfl
@[simp] theorem retire_dbg (s : State) (u : Nat) (a : Acc) (v : Option Reg) : (s.retire u a v).dbg = s.dbg := rfl
@[simp] theorem retire_host (s : State) (u : Nat) (a : Acc) (v : Option Reg) : (s.retire u a v).host = s.host := rfl

/-! `restore` -/


/-! `noteTaskEnd` -/

@[simp] theorem noteTaskEnd_cx (s : State) (n : Nat) (r : Option Nat) : (s.noteTaskEnd n r).cx = s.cx := rfl
@[simp] theorem noteTaskEnd_sh (s : State) (n : Nat) (r : Option Nat) : (s.noteTaskEnd n r).sh = s.sh := rfl
@[simp] theorem noteTaskEnd_cxSt (s : State) (n : Nat) (r : Option Nat) : (s.noteTaskEnd n r).cxSt = s.cxSt := rfl
@[simp] theorem noteTaskEnd_shSt (s : State) (n : Nat) (r : Option Nat) : (s.noteTaskEnd n r).shSt = s.shSt := rfl
@[simp] theorem noteTaskEnd_bank (s : State) (n : Nat) (r : Option Nat) : (s.noteTaskEnd n r).bank = s.bank := rfl
@[simp] theorem noteTaskEnd_coreid (s : State) (n : Nat) (r : Option Nat) : (s.noteTaskEnd n r).coreid = s.coreid := rfl
@[simp] theorem noteTaskEnd_pkgid (s : State) (n : Nat) (r : Option Nat) : (s.noteTaskEnd n r).pkgid = s.pkgid := rfl
@[simp] theorem noteTaskEnd_rank (s : State) (n : Nat) (r : Option Nat) : (s.noteTaskEnd n r).rank = s.rank := rfl
@[simp] theorem noteTaskEnd_mem (s : State) (n : Nat) (r : Option Nat) : (s.noteTaskEnd n r).mem = s.mem := rfl
@[simp] theorem noteTaskEnd_empties (s : State) (n : Nat) (r : Option Nat) : (s.noteTaskEnd n r).empties = s.empties := rfl
@[simp] theorem noteTaskEnd_marks (s : State) (n : Nat) (r : Option Nat) : (s.noteTaskEnd n r).marks = s.marks := rfl
@[simp] theorem noteTaskEnd_cyc (s : State) (n : Nat) (r : Option Nat) : (s.noteTaskEnd n r).cyc = s.cyc := rfl
@[simp] theorem noteTaskEnd_ftime (s : State) (n : Nat) (r : Option Nat) : (s.noteTaskEnd n r).ftime = s.ftime := rfl
@[simp] theorem noteTaskEnd_ftPhase (s : State) (n : Nat) (r : Option Nat) : (s.noteTaskEnd n r).ftPhase = s.ftPhase := rfl
@[simp] theorem noteTaskEnd_badr (s : State) (n : Nat) (r : Option Nat) : (s.noteTaskEnd n r).badr = s.badr := rfl
@[simp] theorem noteTaskEnd_bundle (s : State) (n : Nat) (r : Option Nat) : (s.noteTaskEnd n r).bundle = s.bundle := rfl
@[simp] theorem noteTaskEnd_widx (s : State) (n : Nat) (r : Option Nat) : (s.noteTaskEnd n r).widx = s.widx := rfl
@[simp] theorem noteTaskEnd_ctl (s : State) (n : Nat) (r : Option Nat) : (s.noteTaskEnd n r).ctl = s.ctl := rfl
@[simp] theorem noteTaskEnd_stalled (s : State) (n : Nat) (r : Option Nat) : (s.noteTaskEnd n r).stalled = s.stalled := rfl
@[simp] theorem noteTaskEnd_agenda (s : State) (n : Nat) (r : Option Nat) : (s.noteTaskEnd n r).agenda = s.agenda := rfl
@[simp] theorem noteTaskEnd_fv (s : State) (n : Nat) (r : Option Nat) : (s.noteTaskEnd n r).fv = s.fv := rfl
@[simp] theorem noteTaskEnd_nextId (s : State) (n : Nat) (r : Option Nat) : (s.noteTaskEnd n r).nextId = s.nextId := rfl
@[simp] theorem noteTaskEnd_core (s : State) (n : Nat) (r : Option Nat) : (s.noteTaskEnd n r).core = s.core := rfl
@[simp] theorem noteTaskEnd_xl (s : State) (n : Nat) (r : Option Nat) : (s.noteTaskEnd n r).xl = s.xl := rfl
@[simp] theorem noteTaskEnd_hbm (s : State) (n : Nat) (r : Option Nat) : (s.noteTaskEnd n r).hbm = s.hbm := rfl
@[simp] theorem noteTaskEnd_fab (s : State) (n : Nat) (r : Option Nat) : (s.noteTaskEnd n r).fab = s.fab := rfl
@[simp] theorem noteTaskEnd_coll (s : State) (n : Nat) (r : Option Nat) : (s.noteTaskEnd n r).coll = s.coll := rfl
@[simp] theorem noteTaskEnd_dbg (s : State) (n : Nat) (r : Option Nat) : (s.noteTaskEnd n r).dbg = s.dbg := rfl
@[simp] theorem noteTaskEnd_host (s : State) (n : Nat) (r : Option Nat) : (s.noteTaskEnd n r).host = s.host := rfl

/-! `eretPlain` -/

@[simp] theorem eretPlain_sh (s : State) : (s.eretPlain).sh = s.sh := rfl
@[simp] theorem eretPlain_cxSt (s : State) : (s.eretPlain).cxSt = s.cxSt := rfl
@[simp] theorem eretPlain_shSt (s : State) : (s.eretPlain).shSt = s.shSt := rfl
@[simp] theorem eretPlain_bank (s : State) : (s.eretPlain).bank = s.bank := rfl
@[simp] theorem eretPlain_coreid (s : State) : (s.eretPlain).coreid = s.coreid := rfl
@[simp] theorem eretPlain_pkgid (s : State) : (s.eretPlain).pkgid = s.pkgid := rfl
@[simp] theorem eretPlain_rank (s : State) : (s.eretPlain).rank = s.rank := rfl
@[simp] theorem eretPlain_mem (s : State) : (s.eretPlain).mem = s.mem := rfl
@[simp] theorem eretPlain_empties (s : State) : (s.eretPlain).empties = s.empties := rfl
@[simp] theorem eretPlain_marks (s : State) : (s.eretPlain).marks = s.marks := rfl
@[simp] theorem eretPlain_cyc (s : State) : (s.eretPlain).cyc = s.cyc := rfl
@[simp] theorem eretPlain_ftime (s : State) : (s.eretPlain).ftime = s.ftime := rfl
@[simp] theorem eretPlain_ftPhase (s : State) : (s.eretPlain).ftPhase = s.ftPhase := rfl
@[simp] theorem eretPlain_badr (s : State) : (s.eretPlain).badr = s.badr := rfl
@[simp] theorem eretPlain_bundle (s : State) : (s.eretPlain).bundle = s.bundle := rfl
@[simp] theorem eretPlain_widx (s : State) : (s.eretPlain).widx = s.widx := rfl
@[simp] theorem eretPlain_stalled (s : State) : (s.eretPlain).stalled = s.stalled := rfl
@[simp] theorem eretPlain_agenda (s : State) : (s.eretPlain).agenda = s.agenda := rfl
@[simp] theorem eretPlain_fv (s : State) : (s.eretPlain).fv = s.fv := rfl
@[simp] theorem eretPlain_nextId (s : State) : (s.eretPlain).nextId = s.nextId := rfl
@[simp] theorem eretPlain_core (s : State) : (s.eretPlain).core = s.core := rfl
@[simp] theorem eretPlain_xl (s : State) : (s.eretPlain).xl = s.xl := rfl
@[simp] theorem eretPlain_hbm (s : State) : (s.eretPlain).hbm = s.hbm := rfl
@[simp] theorem eretPlain_fab (s : State) : (s.eretPlain).fab = s.fab := rfl
@[simp] theorem eretPlain_coll (s : State) : (s.eretPlain).coll = s.coll := rfl
@[simp] theorem eretPlain_sched (s : State) : (s.eretPlain).sched = s.sched := rfl
@[simp] theorem eretPlain_dbg (s : State) : (s.eretPlain).dbg = s.dbg := rfl
@[simp] theorem eretPlain_host (s : State) : (s.eretPlain).host = s.host := rfl

/-! `eretJump` -/

@[simp] theorem eretJump_sh (s : State) (a : Word) : (s.eretJump a).sh = s.sh := rfl
@[simp] theorem eretJump_cxSt (s : State) (a : Word) : (s.eretJump a).cxSt = s.cxSt := rfl
@[simp] theorem eretJump_shSt (s : State) (a : Word) : (s.eretJump a).shSt = s.shSt := rfl
@[simp] theorem eretJump_bank (s : State) (a : Word) : (s.eretJump a).bank = s.bank := rfl
@[simp] theorem eretJump_coreid (s : State) (a : Word) : (s.eretJump a).coreid = s.coreid := rfl
@[simp] theorem eretJump_pkgid (s : State) (a : Word) : (s.eretJump a).pkgid = s.pkgid := rfl
@[simp] theorem eretJump_rank (s : State) (a : Word) : (s.eretJump a).rank = s.rank := rfl
@[simp] theorem eretJump_mem (s : State) (a : Word) : (s.eretJump a).mem = s.mem := rfl
@[simp] theorem eretJump_empties (s : State) (a : Word) : (s.eretJump a).empties = s.empties := rfl
@[simp] theorem eretJump_marks (s : State) (a : Word) : (s.eretJump a).marks = s.marks := rfl
@[simp] theorem eretJump_cyc (s : State) (a : Word) : (s.eretJump a).cyc = s.cyc := rfl
@[simp] theorem eretJump_ftime (s : State) (a : Word) : (s.eretJump a).ftime = s.ftime := rfl
@[simp] theorem eretJump_ftPhase (s : State) (a : Word) : (s.eretJump a).ftPhase = s.ftPhase := rfl
@[simp] theorem eretJump_badr (s : State) (a : Word) : (s.eretJump a).badr = s.badr := rfl
@[simp] theorem eretJump_bundle (s : State) (a : Word) : (s.eretJump a).bundle = s.bundle := rfl
@[simp] theorem eretJump_widx (s : State) (a : Word) : (s.eretJump a).widx = s.widx := rfl
@[simp] theorem eretJump_stalled (s : State) (a : Word) : (s.eretJump a).stalled = s.stalled := rfl
@[simp] theorem eretJump_agenda (s : State) (a : Word) : (s.eretJump a).agenda = s.agenda := rfl
@[simp] theorem eretJump_fv (s : State) (a : Word) : (s.eretJump a).fv = s.fv := rfl
@[simp] theorem eretJump_nextId (s : State) (a : Word) : (s.eretJump a).nextId = s.nextId := rfl
@[simp] theorem eretJump_core (s : State) (a : Word) : (s.eretJump a).core = s.core := rfl
@[simp] theorem eretJump_xl (s : State) (a : Word) : (s.eretJump a).xl = s.xl := rfl
@[simp] theorem eretJump_hbm (s : State) (a : Word) : (s.eretJump a).hbm = s.hbm := rfl
@[simp] theorem eretJump_fab (s : State) (a : Word) : (s.eretJump a).fab = s.fab := rfl
@[simp] theorem eretJump_coll (s : State) (a : Word) : (s.eretJump a).coll = s.coll := rfl
@[simp] theorem eretJump_sched (s : State) (a : Word) : (s.eretJump a).sched = s.sched := rfl
@[simp] theorem eretJump_dbg (s : State) (a : Word) : (s.eretJump a).dbg = s.dbg := rfl
@[simp] theorem eretJump_host (s : State) (a : Word) : (s.eretJump a).host = s.host := rfl

/-! `setPkt` -/

@[simp] theorem setPkt_cx (s : State) (p : Packet) : (s.setPkt p).cx = s.cx := rfl
@[simp] theorem setPkt_sh (s : State) (p : Packet) : (s.setPkt p).sh = s.sh := rfl
@[simp] theorem setPkt_cxSt (s : State) (p : Packet) : (s.setPkt p).cxSt = s.cxSt := rfl
@[simp] theorem setPkt_shSt (s : State) (p : Packet) : (s.setPkt p).shSt = s.shSt := rfl
@[simp] theorem setPkt_bank (s : State) (p : Packet) : (s.setPkt p).bank = s.bank := rfl
@[simp] theorem setPkt_coreid (s : State) (p : Packet) : (s.setPkt p).coreid = s.coreid := rfl
@[simp] theorem setPkt_pkgid (s : State) (p : Packet) : (s.setPkt p).pkgid = s.pkgid := rfl
@[simp] theorem setPkt_rank (s : State) (p : Packet) : (s.setPkt p).rank = s.rank := rfl
@[simp] theorem setPkt_mem (s : State) (p : Packet) : (s.setPkt p).mem = s.mem := rfl
@[simp] theorem setPkt_empties (s : State) (p : Packet) : (s.setPkt p).empties = s.empties := rfl
@[simp] theorem setPkt_marks (s : State) (p : Packet) : (s.setPkt p).marks = s.marks := rfl
@[simp] theorem setPkt_cyc (s : State) (p : Packet) : (s.setPkt p).cyc = s.cyc := rfl
@[simp] theorem setPkt_ftime (s : State) (p : Packet) : (s.setPkt p).ftime = s.ftime := rfl
@[simp] theorem setPkt_ftPhase (s : State) (p : Packet) : (s.setPkt p).ftPhase = s.ftPhase := rfl
@[simp] theorem setPkt_badr (s : State) (p : Packet) : (s.setPkt p).badr = s.badr := rfl
@[simp] theorem setPkt_bundle (s : State) (p : Packet) : (s.setPkt p).bundle = s.bundle := rfl
@[simp] theorem setPkt_widx (s : State) (p : Packet) : (s.setPkt p).widx = s.widx := rfl
@[simp] theorem setPkt_ctl (s : State) (p : Packet) : (s.setPkt p).ctl = s.ctl := rfl
@[simp] theorem setPkt_stalled (s : State) (p : Packet) : (s.setPkt p).stalled = s.stalled := rfl
@[simp] theorem setPkt_agenda (s : State) (p : Packet) : (s.setPkt p).agenda = s.agenda := rfl
@[simp] theorem setPkt_fv (s : State) (p : Packet) : (s.setPkt p).fv = s.fv := rfl
@[simp] theorem setPkt_nextId (s : State) (p : Packet) : (s.setPkt p).nextId = s.nextId := rfl
@[simp] theorem setPkt_core (s : State) (p : Packet) : (s.setPkt p).core = s.core := rfl
@[simp] theorem setPkt_xl (s : State) (p : Packet) : (s.setPkt p).xl = s.xl := rfl
@[simp] theorem setPkt_hbm (s : State) (p : Packet) : (s.setPkt p).hbm = s.hbm := rfl
@[simp] theorem setPkt_coll (s : State) (p : Packet) : (s.setPkt p).coll = s.coll := rfl
@[simp] theorem setPkt_sched (s : State) (p : Packet) : (s.setPkt p).sched = s.sched := rfl
@[simp] theorem setPkt_dbg (s : State) (p : Packet) : (s.setPkt p).dbg = s.dbg := rfl
@[simp] theorem setPkt_host (s : State) (p : Packet) : (s.setPkt p).host = s.host := rfl

/-! `dropPkt` -/

@[simp] theorem dropPkt_cx (s : State) (i : Nat) : (s.dropPkt i).cx = s.cx := rfl
@[simp] theorem dropPkt_sh (s : State) (i : Nat) : (s.dropPkt i).sh = s.sh := rfl
@[simp] theorem dropPkt_cxSt (s : State) (i : Nat) : (s.dropPkt i).cxSt = s.cxSt := rfl
@[simp] theorem dropPkt_shSt (s : State) (i : Nat) : (s.dropPkt i).shSt = s.shSt := rfl
@[simp] theorem dropPkt_bank (s : State) (i : Nat) : (s.dropPkt i).bank = s.bank := rfl
@[simp] theorem dropPkt_coreid (s : State) (i : Nat) : (s.dropPkt i).coreid = s.coreid := rfl
@[simp] theorem dropPkt_pkgid (s : State) (i : Nat) : (s.dropPkt i).pkgid = s.pkgid := rfl
@[simp] theorem dropPkt_rank (s : State) (i : Nat) : (s.dropPkt i).rank = s.rank := rfl
@[simp] theorem dropPkt_mem (s : State) (i : Nat) : (s.dropPkt i).mem = s.mem := rfl
@[simp] theorem dropPkt_empties (s : State) (i : Nat) : (s.dropPkt i).empties = s.empties := rfl
@[simp] theorem dropPkt_marks (s : State) (i : Nat) : (s.dropPkt i).marks = s.marks := rfl
@[simp] theorem dropPkt_cyc (s : State) (i : Nat) : (s.dropPkt i).cyc = s.cyc := rfl
@[simp] theorem dropPkt_ftime (s : State) (i : Nat) : (s.dropPkt i).ftime = s.ftime := rfl
@[simp] theorem dropPkt_ftPhase (s : State) (i : Nat) : (s.dropPkt i).ftPhase = s.ftPhase := rfl
@[simp] theorem dropPkt_badr (s : State) (i : Nat) : (s.dropPkt i).badr = s.badr := rfl
@[simp] theorem dropPkt_bundle (s : State) (i : Nat) : (s.dropPkt i).bundle = s.bundle := rfl
@[simp] theorem dropPkt_widx (s : State) (i : Nat) : (s.dropPkt i).widx = s.widx := rfl
@[simp] theorem dropPkt_ctl (s : State) (i : Nat) : (s.dropPkt i).ctl = s.ctl := rfl
@[simp] theorem dropPkt_stalled (s : State) (i : Nat) : (s.dropPkt i).stalled = s.stalled := rfl
@[simp] theorem dropPkt_agenda (s : State) (i : Nat) : (s.dropPkt i).agenda = s.agenda := rfl
@[simp] theorem dropPkt_fv (s : State) (i : Nat) : (s.dropPkt i).fv = s.fv := rfl
@[simp] theorem dropPkt_nextId (s : State) (i : Nat) : (s.dropPkt i).nextId = s.nextId := rfl
@[simp] theorem dropPkt_core (s : State) (i : Nat) : (s.dropPkt i).core = s.core := rfl
@[simp] theorem dropPkt_xl (s : State) (i : Nat) : (s.dropPkt i).xl = s.xl := rfl
@[simp] theorem dropPkt_hbm (s : State) (i : Nat) : (s.dropPkt i).hbm = s.hbm := rfl
@[simp] theorem dropPkt_coll (s : State) (i : Nat) : (s.dropPkt i).coll = s.coll := rfl
@[simp] theorem dropPkt_sched (s : State) (i : Nat) : (s.dropPkt i).sched = s.sched := rfl
@[simp] theorem dropPkt_dbg (s : State) (i : Nat) : (s.dropPkt i).dbg = s.dbg := rfl
@[simp] theorem dropPkt_host (s : State) (i : Nat) : (s.dropPkt i).host = s.host := rfl

/-! `setRank` -/

@[simp] theorem setRank_cx (s : State) (r : Nat) (e : Word) : (s.setRank r e).cx = s.cx := rfl
@[simp] theorem setRank_sh (s : State) (r : Nat) (e : Word) : (s.setRank r e).sh = s.sh := rfl
@[simp] theorem setRank_cxSt (s : State) (r : Nat) (e : Word) : (s.setRank r e).cxSt = s.cxSt := rfl
@[simp] theorem setRank_shSt (s : State) (r : Nat) (e : Word) : (s.setRank r e).shSt = s.shSt := rfl
@[simp] theorem setRank_bank (s : State) (r : Nat) (e : Word) : (s.setRank r e).bank = s.bank := rfl
@[simp] theorem setRank_coreid (s : State) (r : Nat) (e : Word) : (s.setRank r e).coreid = s.coreid := rfl
@[simp] theorem setRank_pkgid (s : State) (r : Nat) (e : Word) : (s.setRank r e).pkgid = s.pkgid := rfl
@[simp] theorem setRank_rank (s : State) (r : Nat) (e : Word) : (s.setRank r e).rank = s.rank := rfl
@[simp] theorem setRank_mem (s : State) (r : Nat) (e : Word) : (s.setRank r e).mem = s.mem := rfl
@[simp] theorem setRank_empties (s : State) (r : Nat) (e : Word) : (s.setRank r e).empties = s.empties := rfl
@[simp] theorem setRank_marks (s : State) (r : Nat) (e : Word) : (s.setRank r e).marks = s.marks := rfl
@[simp] theorem setRank_cyc (s : State) (r : Nat) (e : Word) : (s.setRank r e).cyc = s.cyc := rfl
@[simp] theorem setRank_ftime (s : State) (r : Nat) (e : Word) : (s.setRank r e).ftime = s.ftime := rfl
@[simp] theorem setRank_ftPhase (s : State) (r : Nat) (e : Word) : (s.setRank r e).ftPhase = s.ftPhase := rfl
@[simp] theorem setRank_badr (s : State) (r : Nat) (e : Word) : (s.setRank r e).badr = s.badr := rfl
@[simp] theorem setRank_bundle (s : State) (r : Nat) (e : Word) : (s.setRank r e).bundle = s.bundle := rfl
@[simp] theorem setRank_widx (s : State) (r : Nat) (e : Word) : (s.setRank r e).widx = s.widx := rfl
@[simp] theorem setRank_ctl (s : State) (r : Nat) (e : Word) : (s.setRank r e).ctl = s.ctl := rfl
@[simp] theorem setRank_stalled (s : State) (r : Nat) (e : Word) : (s.setRank r e).stalled = s.stalled := rfl
@[simp] theorem setRank_agenda (s : State) (r : Nat) (e : Word) : (s.setRank r e).agenda = s.agenda := rfl
@[simp] theorem setRank_fv (s : State) (r : Nat) (e : Word) : (s.setRank r e).fv = s.fv := rfl
@[simp] theorem setRank_nextId (s : State) (r : Nat) (e : Word) : (s.setRank r e).nextId = s.nextId := rfl
@[simp] theorem setRank_core (s : State) (r : Nat) (e : Word) : (s.setRank r e).core = s.core := rfl
@[simp] theorem setRank_xl (s : State) (r : Nat) (e : Word) : (s.setRank r e).xl = s.xl := rfl
@[simp] theorem setRank_hbm (s : State) (r : Nat) (e : Word) : (s.setRank r e).hbm = s.hbm := rfl
@[simp] theorem setRank_coll (s : State) (r : Nat) (e : Word) : (s.setRank r e).coll = s.coll := rfl
@[simp] theorem setRank_sched (s : State) (r : Nat) (e : Word) : (s.setRank r e).sched = s.sched := rfl
@[simp] theorem setRank_dbg (s : State) (r : Nat) (e : Word) : (s.setRank r e).dbg = s.dbg := rfl
@[simp] theorem setRank_host (s : State) (r : Nat) (e : Word) : (s.setRank r e).host = s.host := rfl

/-! `setTsend` -/

@[simp] theorem setTsend_cx (s : State) (t : TSend) : (s.setTsend t).cx = s.cx := rfl
@[simp] theorem setTsend_sh (s : State) (t : TSend) : (s.setTsend t).sh = s.sh := rfl
@[simp] theorem setTsend_cxSt (s : State) (t : TSend) : (s.setTsend t).cxSt = s.cxSt := rfl
@[simp] theorem setTsend_shSt (s : State) (t : TSend) : (s.setTsend t).shSt = s.shSt := rfl
@[simp] theorem setTsend_bank (s : State) (t : TSend) : (s.setTsend t).bank = s.bank := rfl
@[simp] theorem setTsend_coreid (s : State) (t : TSend) : (s.setTsend t).coreid = s.coreid := rfl
@[simp] theorem setTsend_pkgid (s : State) (t : TSend) : (s.setTsend t).pkgid = s.pkgid := rfl
@[simp] theorem setTsend_rank (s : State) (t : TSend) : (s.setTsend t).rank = s.rank := rfl
@[simp] theorem setTsend_mem (s : State) (t : TSend) : (s.setTsend t).mem = s.mem := rfl
@[simp] theorem setTsend_empties (s : State) (t : TSend) : (s.setTsend t).empties = s.empties := rfl
@[simp] theorem setTsend_marks (s : State) (t : TSend) : (s.setTsend t).marks = s.marks := rfl
@[simp] theorem setTsend_cyc (s : State) (t : TSend) : (s.setTsend t).cyc = s.cyc := rfl
@[simp] theorem setTsend_ftime (s : State) (t : TSend) : (s.setTsend t).ftime = s.ftime := rfl
@[simp] theorem setTsend_ftPhase (s : State) (t : TSend) : (s.setTsend t).ftPhase = s.ftPhase := rfl
@[simp] theorem setTsend_badr (s : State) (t : TSend) : (s.setTsend t).badr = s.badr := rfl
@[simp] theorem setTsend_bundle (s : State) (t : TSend) : (s.setTsend t).bundle = s.bundle := rfl
@[simp] theorem setTsend_widx (s : State) (t : TSend) : (s.setTsend t).widx = s.widx := rfl
@[simp] theorem setTsend_ctl (s : State) (t : TSend) : (s.setTsend t).ctl = s.ctl := rfl
@[simp] theorem setTsend_stalled (s : State) (t : TSend) : (s.setTsend t).stalled = s.stalled := rfl
@[simp] theorem setTsend_agenda (s : State) (t : TSend) : (s.setTsend t).agenda = s.agenda := rfl
@[simp] theorem setTsend_fv (s : State) (t : TSend) : (s.setTsend t).fv = s.fv := rfl
@[simp] theorem setTsend_nextId (s : State) (t : TSend) : (s.setTsend t).nextId = s.nextId := rfl
@[simp] theorem setTsend_core (s : State) (t : TSend) : (s.setTsend t).core = s.core := rfl
@[simp] theorem setTsend_xl (s : State) (t : TSend) : (s.setTsend t).xl = s.xl := rfl
@[simp] theorem setTsend_hbm (s : State) (t : TSend) : (s.setTsend t).hbm = s.hbm := rfl
@[simp] theorem setTsend_coll (s : State) (t : TSend) : (s.setTsend t).coll = s.coll := rfl
@[simp] theorem setTsend_sched (s : State) (t : TSend) : (s.setTsend t).sched = s.sched := rfl
@[simp] theorem setTsend_dbg (s : State) (t : TSend) : (s.setTsend t).dbg = s.dbg := rfl
@[simp] theorem setTsend_host (s : State) (t : TSend) : (s.setTsend t).host = s.host := rfl

/-! `setColl` -/

@[simp] theorem setColl_cx (s : State) (c : Coll) : (s.setColl c).cx = s.cx := rfl
@[simp] theorem setColl_sh (s : State) (c : Coll) : (s.setColl c).sh = s.sh := rfl
@[simp] theorem setColl_cxSt (s : State) (c : Coll) : (s.setColl c).cxSt = s.cxSt := rfl
@[simp] theorem setColl_shSt (s : State) (c : Coll) : (s.setColl c).shSt = s.shSt := rfl
@[simp] theorem setColl_bank (s : State) (c : Coll) : (s.setColl c).bank = s.bank := rfl
@[simp] theorem setColl_coreid (s : State) (c : Coll) : (s.setColl c).coreid = s.coreid := rfl
@[simp] theorem setColl_pkgid (s : State) (c : Coll) : (s.setColl c).pkgid = s.pkgid := rfl
@[simp] theorem setColl_rank (s : State) (c : Coll) : (s.setColl c).rank = s.rank := rfl
@[simp] theorem setColl_mem (s : State) (c : Coll) : (s.setColl c).mem = s.mem := rfl
@[simp] theorem setColl_empties (s : State) (c : Coll) : (s.setColl c).empties = s.empties := rfl
@[simp] theorem setColl_marks (s : State) (c : Coll) : (s.setColl c).marks = s.marks := rfl
@[simp] theorem setColl_cyc (s : State) (c : Coll) : (s.setColl c).cyc = s.cyc := rfl
@[simp] theorem setColl_ftime (s : State) (c : Coll) : (s.setColl c).ftime = s.ftime := rfl
@[simp] theorem setColl_ftPhase (s : State) (c : Coll) : (s.setColl c).ftPhase = s.ftPhase := rfl
@[simp] theorem setColl_badr (s : State) (c : Coll) : (s.setColl c).badr = s.badr := rfl
@[simp] theorem setColl_bundle (s : State) (c : Coll) : (s.setColl c).bundle = s.bundle := rfl
@[simp] theorem setColl_widx (s : State) (c : Coll) : (s.setColl c).widx = s.widx := rfl
@[simp] theorem setColl_ctl (s : State) (c : Coll) : (s.setColl c).ctl = s.ctl := rfl
@[simp] theorem setColl_stalled (s : State) (c : Coll) : (s.setColl c).stalled = s.stalled := rfl
@[simp] theorem setColl_agenda (s : State) (c : Coll) : (s.setColl c).agenda = s.agenda := rfl
@[simp] theorem setColl_fv (s : State) (c : Coll) : (s.setColl c).fv = s.fv := rfl
@[simp] theorem setColl_nextId (s : State) (c : Coll) : (s.setColl c).nextId = s.nextId := rfl
@[simp] theorem setColl_core (s : State) (c : Coll) : (s.setColl c).core = s.core := rfl
@[simp] theorem setColl_xl (s : State) (c : Coll) : (s.setColl c).xl = s.xl := rfl
@[simp] theorem setColl_hbm (s : State) (c : Coll) : (s.setColl c).hbm = s.hbm := rfl
@[simp] theorem setColl_fab (s : State) (c : Coll) : (s.setColl c).fab = s.fab := rfl
@[simp] theorem setColl_sched (s : State) (c : Coll) : (s.setColl c).sched = s.sched := rfl
@[simp] theorem setColl_dbg (s : State) (c : Coll) : (s.setColl c).dbg = s.dbg := rfl
@[simp] theorem setColl_host (s : State) (c : Coll) : (s.setColl c).host = s.host := rfl

/-! `enterRouter` -/

@[simp] theorem enterRouter_cx (s : State) (n : Nat) (p : Packet) : (s.enterRouter n p).cx = s.cx := rfl
@[simp] theorem enterRouter_sh (s : State) (n : Nat) (p : Packet) : (s.enterRouter n p).sh = s.sh := rfl
@[simp] theorem enterRouter_cxSt (s : State) (n : Nat) (p : Packet) : (s.enterRouter n p).cxSt = s.cxSt := rfl
@[simp] theorem enterRouter_shSt (s : State) (n : Nat) (p : Packet) : (s.enterRouter n p).shSt = s.shSt := rfl
@[simp] theorem enterRouter_bank (s : State) (n : Nat) (p : Packet) : (s.enterRouter n p).bank = s.bank := rfl
@[simp] theorem enterRouter_coreid (s : State) (n : Nat) (p : Packet) : (s.enterRouter n p).coreid = s.coreid := rfl
@[simp] theorem enterRouter_pkgid (s : State) (n : Nat) (p : Packet) : (s.enterRouter n p).pkgid = s.pkgid := rfl
@[simp] theorem enterRouter_rank (s : State) (n : Nat) (p : Packet) : (s.enterRouter n p).rank = s.rank := rfl
@[simp] theorem enterRouter_mem (s : State) (n : Nat) (p : Packet) : (s.enterRouter n p).mem = s.mem := rfl
@[simp] theorem enterRouter_empties (s : State) (n : Nat) (p : Packet) : (s.enterRouter n p).empties = s.empties := rfl
@[simp] theorem enterRouter_marks (s : State) (n : Nat) (p : Packet) : (s.enterRouter n p).marks = s.marks := rfl
@[simp] theorem enterRouter_cyc (s : State) (n : Nat) (p : Packet) : (s.enterRouter n p).cyc = s.cyc := rfl
@[simp] theorem enterRouter_ftime (s : State) (n : Nat) (p : Packet) : (s.enterRouter n p).ftime = s.ftime := rfl
@[simp] theorem enterRouter_ftPhase (s : State) (n : Nat) (p : Packet) : (s.enterRouter n p).ftPhase = s.ftPhase := rfl
@[simp] theorem enterRouter_badr (s : State) (n : Nat) (p : Packet) : (s.enterRouter n p).badr = s.badr := rfl
@[simp] theorem enterRouter_bundle (s : State) (n : Nat) (p : Packet) : (s.enterRouter n p).bundle = s.bundle := rfl
@[simp] theorem enterRouter_widx (s : State) (n : Nat) (p : Packet) : (s.enterRouter n p).widx = s.widx := rfl
@[simp] theorem enterRouter_ctl (s : State) (n : Nat) (p : Packet) : (s.enterRouter n p).ctl = s.ctl := rfl
@[simp] theorem enterRouter_stalled (s : State) (n : Nat) (p : Packet) : (s.enterRouter n p).stalled = s.stalled := rfl
@[simp] theorem enterRouter_agenda (s : State) (n : Nat) (p : Packet) : (s.enterRouter n p).agenda = s.agenda := rfl
@[simp] theorem enterRouter_fv (s : State) (n : Nat) (p : Packet) : (s.enterRouter n p).fv = s.fv := rfl
@[simp] theorem enterRouter_nextId (s : State) (n : Nat) (p : Packet) : (s.enterRouter n p).nextId = s.nextId := rfl
@[simp] theorem enterRouter_core (s : State) (n : Nat) (p : Packet) : (s.enterRouter n p).core = s.core := rfl
@[simp] theorem enterRouter_xl (s : State) (n : Nat) (p : Packet) : (s.enterRouter n p).xl = s.xl := rfl
@[simp] theorem enterRouter_hbm (s : State) (n : Nat) (p : Packet) : (s.enterRouter n p).hbm = s.hbm := rfl
@[simp] theorem enterRouter_coll (s : State) (n : Nat) (p : Packet) : (s.enterRouter n p).coll = s.coll := rfl
@[simp] theorem enterRouter_sched (s : State) (n : Nat) (p : Packet) : (s.enterRouter n p).sched = s.sched := rfl
@[simp] theorem enterRouter_dbg (s : State) (n : Nat) (p : Packet) : (s.enterRouter n p).dbg = s.dbg := rfl
@[simp] theorem enterRouter_host (s : State) (n : Nat) (p : Packet) : (s.enterRouter n p).host = s.host := rfl

/-! `sendMsg` -/

@[simp] theorem sendMsg_cx (s : State) (g k c l : Nat) (m : CollMsg) : (s.sendMsg g k c l m).cx = s.cx := rfl
@[simp] theorem sendMsg_sh (s : State) (g k c l : Nat) (m : CollMsg) : (s.sendMsg g k c l m).sh = s.sh := rfl
@[simp] theorem sendMsg_cxSt (s : State) (g k c l : Nat) (m : CollMsg) : (s.sendMsg g k c l m).cxSt = s.cxSt := rfl
@[simp] theorem sendMsg_shSt (s : State) (g k c l : Nat) (m : CollMsg) : (s.sendMsg g k c l m).shSt = s.shSt := rfl
@[simp] theorem sendMsg_bank (s : State) (g k c l : Nat) (m : CollMsg) : (s.sendMsg g k c l m).bank = s.bank := rfl
@[simp] theorem sendMsg_coreid (s : State) (g k c l : Nat) (m : CollMsg) : (s.sendMsg g k c l m).coreid = s.coreid := rfl
@[simp] theorem sendMsg_pkgid (s : State) (g k c l : Nat) (m : CollMsg) : (s.sendMsg g k c l m).pkgid = s.pkgid := rfl
@[simp] theorem sendMsg_rank (s : State) (g k c l : Nat) (m : CollMsg) : (s.sendMsg g k c l m).rank = s.rank := rfl
@[simp] theorem sendMsg_mem (s : State) (g k c l : Nat) (m : CollMsg) : (s.sendMsg g k c l m).mem = s.mem := rfl
@[simp] theorem sendMsg_empties (s : State) (g k c l : Nat) (m : CollMsg) : (s.sendMsg g k c l m).empties = s.empties := rfl
@[simp] theorem sendMsg_marks (s : State) (g k c l : Nat) (m : CollMsg) : (s.sendMsg g k c l m).marks = s.marks := rfl
@[simp] theorem sendMsg_cyc (s : State) (g k c l : Nat) (m : CollMsg) : (s.sendMsg g k c l m).cyc = s.cyc := rfl
@[simp] theorem sendMsg_ftime (s : State) (g k c l : Nat) (m : CollMsg) : (s.sendMsg g k c l m).ftime = s.ftime := rfl
@[simp] theorem sendMsg_ftPhase (s : State) (g k c l : Nat) (m : CollMsg) : (s.sendMsg g k c l m).ftPhase = s.ftPhase := rfl
@[simp] theorem sendMsg_badr (s : State) (g k c l : Nat) (m : CollMsg) : (s.sendMsg g k c l m).badr = s.badr := rfl
@[simp] theorem sendMsg_bundle (s : State) (g k c l : Nat) (m : CollMsg) : (s.sendMsg g k c l m).bundle = s.bundle := rfl
@[simp] theorem sendMsg_widx (s : State) (g k c l : Nat) (m : CollMsg) : (s.sendMsg g k c l m).widx = s.widx := rfl
@[simp] theorem sendMsg_ctl (s : State) (g k c l : Nat) (m : CollMsg) : (s.sendMsg g k c l m).ctl = s.ctl := rfl
@[simp] theorem sendMsg_stalled (s : State) (g k c l : Nat) (m : CollMsg) : (s.sendMsg g k c l m).stalled = s.stalled := rfl
@[simp] theorem sendMsg_agenda (s : State) (g k c l : Nat) (m : CollMsg) : (s.sendMsg g k c l m).agenda = s.agenda := rfl
@[simp] theorem sendMsg_fv (s : State) (g k c l : Nat) (m : CollMsg) : (s.sendMsg g k c l m).fv = s.fv := rfl
@[simp] theorem sendMsg_nextId (s : State) (g k c l : Nat) (m : CollMsg) : (s.sendMsg g k c l m).nextId = s.nextId := rfl
@[simp] theorem sendMsg_core (s : State) (g k c l : Nat) (m : CollMsg) : (s.sendMsg g k c l m).core = s.core := rfl
@[simp] theorem sendMsg_xl (s : State) (g k c l : Nat) (m : CollMsg) : (s.sendMsg g k c l m).xl = s.xl := rfl
@[simp] theorem sendMsg_hbm (s : State) (g k c l : Nat) (m : CollMsg) : (s.sendMsg g k c l m).hbm = s.hbm := rfl
@[simp] theorem sendMsg_coll (s : State) (g k c l : Nat) (m : CollMsg) : (s.sendMsg g k c l m).coll = s.coll := rfl
@[simp] theorem sendMsg_sched (s : State) (g k c l : Nat) (m : CollMsg) : (s.sendMsg g k c l m).sched = s.sched := rfl
@[simp] theorem sendMsg_dbg (s : State) (g k c l : Nat) (m : CollMsg) : (s.sendMsg g k c l m).dbg = s.dbg := rfl
@[simp] theorem sendMsg_host (s : State) (g k c l : Nat) (m : CollMsg) : (s.sendMsg g k c l m).host = s.host := rfl

/-! `setHoop` -/

@[simp] theorem setHoop_cx (s : State) (h : HoopEnt) : (s.setHoop h).cx = s.cx := rfl
@[simp] theorem setHoop_sh (s : State) (h : HoopEnt) : (s.setHoop h).sh = s.sh := rfl
@[simp] theorem setHoop_cxSt (s : State) (h : HoopEnt) : (s.setHoop h).cxSt = s.cxSt := rfl
@[simp] theorem setHoop_shSt (s : State) (h : HoopEnt) : (s.setHoop h).shSt = s.shSt := rfl
@[simp] theorem setHoop_bank (s : State) (h : HoopEnt) : (s.setHoop h).bank = s.bank := rfl
@[simp] theorem setHoop_coreid (s : State) (h : HoopEnt) : (s.setHoop h).coreid = s.coreid := rfl
@[simp] theorem setHoop_pkgid (s : State) (h : HoopEnt) : (s.setHoop h).pkgid = s.pkgid := rfl
@[simp] theorem setHoop_rank (s : State) (h : HoopEnt) : (s.setHoop h).rank = s.rank := rfl
@[simp] theorem setHoop_mem (s : State) (h : HoopEnt) : (s.setHoop h).mem = s.mem := rfl
@[simp] theorem setHoop_empties (s : State) (h : HoopEnt) : (s.setHoop h).empties = s.empties := rfl
@[simp] theorem setHoop_marks (s : State) (h : HoopEnt) : (s.setHoop h).marks = s.marks := rfl
@[simp] theorem setHoop_cyc (s : State) (h : HoopEnt) : (s.setHoop h).cyc = s.cyc := rfl
@[simp] theorem setHoop_ftime (s : State) (h : HoopEnt) : (s.setHoop h).ftime = s.ftime := rfl
@[simp] theorem setHoop_ftPhase (s : State) (h : HoopEnt) : (s.setHoop h).ftPhase = s.ftPhase := rfl
@[simp] theorem setHoop_badr (s : State) (h : HoopEnt) : (s.setHoop h).badr = s.badr := rfl
@[simp] theorem setHoop_bundle (s : State) (h : HoopEnt) : (s.setHoop h).bundle = s.bundle := rfl
@[simp] theorem setHoop_widx (s : State) (h : HoopEnt) : (s.setHoop h).widx = s.widx := rfl
@[simp] theorem setHoop_ctl (s : State) (h : HoopEnt) : (s.setHoop h).ctl = s.ctl := rfl
@[simp] theorem setHoop_stalled (s : State) (h : HoopEnt) : (s.setHoop h).stalled = s.stalled := rfl
@[simp] theorem setHoop_agenda (s : State) (h : HoopEnt) : (s.setHoop h).agenda = s.agenda := rfl
@[simp] theorem setHoop_fv (s : State) (h : HoopEnt) : (s.setHoop h).fv = s.fv := rfl
@[simp] theorem setHoop_nextId (s : State) (h : HoopEnt) : (s.setHoop h).nextId = s.nextId := rfl
@[simp] theorem setHoop_core (s : State) (h : HoopEnt) : (s.setHoop h).core = s.core := rfl
@[simp] theorem setHoop_xl (s : State) (h : HoopEnt) : (s.setHoop h).xl = s.xl := rfl
@[simp] theorem setHoop_hbm (s : State) (h : HoopEnt) : (s.setHoop h).hbm = s.hbm := rfl
@[simp] theorem setHoop_fab (s : State) (h : HoopEnt) : (s.setHoop h).fab = s.fab := rfl
@[simp] theorem setHoop_sched (s : State) (h : HoopEnt) : (s.setHoop h).sched = s.sched := rfl
@[simp] theorem setHoop_dbg (s : State) (h : HoopEnt) : (s.setHoop h).dbg = s.dbg := rfl
@[simp] theorem setHoop_host (s : State) (h : HoopEnt) : (s.setHoop h).host = s.host := rfl

/-! `ringFree` -/

@[simp] theorem ringFree_cx (s : State) (k : Nat) : (s.ringFree k).cx = s.cx := rfl
@[simp] theorem ringFree_sh (s : State) (k : Nat) : (s.ringFree k).sh = s.sh := rfl
@[simp] theorem ringFree_cxSt (s : State) (k : Nat) : (s.ringFree k).cxSt = s.cxSt := rfl
@[simp] theorem ringFree_shSt (s : State) (k : Nat) : (s.ringFree k).shSt = s.shSt := rfl
@[simp] theorem ringFree_bank (s : State) (k : Nat) : (s.ringFree k).bank = s.bank := rfl
@[simp] theorem ringFree_coreid (s : State) (k : Nat) : (s.ringFree k).coreid = s.coreid := rfl
@[simp] theorem ringFree_pkgid (s : State) (k : Nat) : (s.ringFree k).pkgid = s.pkgid := rfl
@[simp] theorem ringFree_rank (s : State) (k : Nat) : (s.ringFree k).rank = s.rank := rfl
@[simp] theorem ringFree_mem (s : State) (k : Nat) : (s.ringFree k).mem = s.mem := rfl
@[simp] theorem ringFree_empties (s : State) (k : Nat) : (s.ringFree k).empties = s.empties := rfl
@[simp] theorem ringFree_marks (s : State) (k : Nat) : (s.ringFree k).marks = s.marks := rfl
@[simp] theorem ringFree_cyc (s : State) (k : Nat) : (s.ringFree k).cyc = s.cyc := rfl
@[simp] theorem ringFree_ftime (s : State) (k : Nat) : (s.ringFree k).ftime = s.ftime := rfl
@[simp] theorem ringFree_ftPhase (s : State) (k : Nat) : (s.ringFree k).ftPhase = s.ftPhase := rfl
@[simp] theorem ringFree_badr (s : State) (k : Nat) : (s.ringFree k).badr = s.badr := rfl
@[simp] theorem ringFree_bundle (s : State) (k : Nat) : (s.ringFree k).bundle = s.bundle := rfl
@[simp] theorem ringFree_widx (s : State) (k : Nat) : (s.ringFree k).widx = s.widx := rfl
@[simp] theorem ringFree_ctl (s : State) (k : Nat) : (s.ringFree k).ctl = s.ctl := rfl
@[simp] theorem ringFree_stalled (s : State) (k : Nat) : (s.ringFree k).stalled = s.stalled := rfl
@[simp] theorem ringFree_agenda (s : State) (k : Nat) : (s.ringFree k).agenda = s.agenda := rfl
@[simp] theorem ringFree_fv (s : State) (k : Nat) : (s.ringFree k).fv = s.fv := rfl
@[simp] theorem ringFree_nextId (s : State) (k : Nat) : (s.ringFree k).nextId = s.nextId := rfl
@[simp] theorem ringFree_core (s : State) (k : Nat) : (s.ringFree k).core = s.core := rfl
@[simp] theorem ringFree_xl (s : State) (k : Nat) : (s.ringFree k).xl = s.xl := rfl
@[simp] theorem ringFree_hbm (s : State) (k : Nat) : (s.ringFree k).hbm = s.hbm := rfl
@[simp] theorem ringFree_fab (s : State) (k : Nat) : (s.ringFree k).fab = s.fab := rfl
@[simp] theorem ringFree_sched (s : State) (k : Nat) : (s.ringFree k).sched = s.sched := rfl
@[simp] theorem ringFree_dbg (s : State) (k : Nat) : (s.ringFree k).dbg = s.dbg := rfl
@[simp] theorem ringFree_host (s : State) (k : Nat) : (s.ringFree k).host = s.host := rfl

/-! `setBankStage` -/

@[simp] theorem setBankStage_cxSt (s : State) (i : Nat) (g : BankStage) : (s.setBankStage i g).cxSt = s.cxSt := rfl
@[simp] theorem setBankStage_shSt (s : State) (i : Nat) (g : BankStage) : (s.setBankStage i g).shSt = s.shSt := rfl
@[simp] theorem setBankStage_bank (s : State) (i : Nat) (g : BankStage) : (s.setBankStage i g).bank = s.bank := rfl
@[simp] theorem setBankStage_coreid (s : State) (i : Nat) (g : BankStage) : (s.setBankStage i g).coreid = s.coreid := rfl
@[simp] theorem setBankStage_pkgid (s : State) (i : Nat) (g : BankStage) : (s.setBankStage i g).pkgid = s.pkgid := rfl
@[simp] theorem setBankStage_rank (s : State) (i : Nat) (g : BankStage) : (s.setBankStage i g).rank = s.rank := rfl
@[simp] theorem setBankStage_mem (s : State) (i : Nat) (g : BankStage) : (s.setBankStage i g).mem = s.mem := rfl
@[simp] theorem setBankStage_empties (s : State) (i : Nat) (g : BankStage) : (s.setBankStage i g).empties = s.empties := rfl
@[simp] theorem setBankStage_marks (s : State) (i : Nat) (g : BankStage) : (s.setBankStage i g).marks = s.marks := rfl
@[simp] theorem setBankStage_cyc (s : State) (i : Nat) (g : BankStage) : (s.setBankStage i g).cyc = s.cyc := rfl
@[simp] theorem setBankStage_ftime (s : State) (i : Nat) (g : BankStage) : (s.setBankStage i g).ftime = s.ftime := rfl
@[simp] theorem setBankStage_ftPhase (s : State) (i : Nat) (g : BankStage) : (s.setBankStage i g).ftPhase = s.ftPhase := rfl
@[simp] theorem setBankStage_badr (s : State) (i : Nat) (g : BankStage) : (s.setBankStage i g).badr = s.badr := rfl
@[simp] theorem setBankStage_bundle (s : State) (i : Nat) (g : BankStage) : (s.setBankStage i g).bundle = s.bundle := rfl
@[simp] theorem setBankStage_widx (s : State) (i : Nat) (g : BankStage) : (s.setBankStage i g).widx = s.widx := rfl
@[simp] theorem setBankStage_ctl (s : State) (i : Nat) (g : BankStage) : (s.setBankStage i g).ctl = s.ctl := rfl
@[simp] theorem setBankStage_stalled (s : State) (i : Nat) (g : BankStage) : (s.setBankStage i g).stalled = s.stalled := rfl
@[simp] theorem setBankStage_agenda (s : State) (i : Nat) (g : BankStage) : (s.setBankStage i g).agenda = s.agenda := rfl
@[simp] theorem setBankStage_fv (s : State) (i : Nat) (g : BankStage) : (s.setBankStage i g).fv = s.fv := rfl
@[simp] theorem setBankStage_nextId (s : State) (i : Nat) (g : BankStage) : (s.setBankStage i g).nextId = s.nextId := rfl
@[simp] theorem setBankStage_xl (s : State) (i : Nat) (g : BankStage) : (s.setBankStage i g).xl = s.xl := rfl
@[simp] theorem setBankStage_hbm (s : State) (i : Nat) (g : BankStage) : (s.setBankStage i g).hbm = s.hbm := rfl
@[simp] theorem setBankStage_fab (s : State) (i : Nat) (g : BankStage) : (s.setBankStage i g).fab = s.fab := rfl
@[simp] theorem setBankStage_coll (s : State) (i : Nat) (g : BankStage) : (s.setBankStage i g).coll = s.coll := rfl
@[simp] theorem setBankStage_sched (s : State) (i : Nat) (g : BankStage) : (s.setBankStage i g).sched = s.sched := rfl
@[simp] theorem setBankStage_dbg (s : State) (i : Nat) (g : BankStage) : (s.setBankStage i g).dbg = s.dbg := rfl
@[simp] theorem setBankStage_host (s : State) (i : Nat) (g : BankStage) : (s.setBankStage i g).host = s.host := rfl

/-! `raiseL` -/

@[simp] theorem raiseL_cx (s : State) (c : CollId) : (s.raiseL c).cx = s.cx := rfl
@[simp] theorem raiseL_sh (s : State) (c : CollId) : (s.raiseL c).sh = s.sh := rfl
@[simp] theorem raiseL_cxSt (s : State) (c : CollId) : (s.raiseL c).cxSt = s.cxSt := rfl
@[simp] theorem raiseL_shSt (s : State) (c : CollId) : (s.raiseL c).shSt = s.shSt := rfl
@[simp] theorem raiseL_bank (s : State) (c : CollId) : (s.raiseL c).bank = s.bank := rfl
@[simp] theorem raiseL_coreid (s : State) (c : CollId) : (s.raiseL c).coreid = s.coreid := rfl
@[simp] theorem raiseL_pkgid (s : State) (c : CollId) : (s.raiseL c).pkgid = s.pkgid := rfl
@[simp] theorem raiseL_rank (s : State) (c : CollId) : (s.raiseL c).rank = s.rank := rfl
@[simp] theorem raiseL_mem (s : State) (c : CollId) : (s.raiseL c).mem = s.mem := rfl
@[simp] theorem raiseL_empties (s : State) (c : CollId) : (s.raiseL c).empties = s.empties := rfl
@[simp] theorem raiseL_marks (s : State) (c : CollId) : (s.raiseL c).marks = s.marks := rfl
@[simp] theorem raiseL_cyc (s : State) (c : CollId) : (s.raiseL c).cyc = s.cyc := rfl
@[simp] theorem raiseL_ftime (s : State) (c : CollId) : (s.raiseL c).ftime = s.ftime := rfl
@[simp] theorem raiseL_ftPhase (s : State) (c : CollId) : (s.raiseL c).ftPhase = s.ftPhase := rfl
@[simp] theorem raiseL_badr (s : State) (c : CollId) : (s.raiseL c).badr = s.badr := rfl
@[simp] theorem raiseL_bundle (s : State) (c : CollId) : (s.raiseL c).bundle = s.bundle := rfl
@[simp] theorem raiseL_widx (s : State) (c : CollId) : (s.raiseL c).widx = s.widx := rfl
@[simp] theorem raiseL_ctl (s : State) (c : CollId) : (s.raiseL c).ctl = s.ctl := rfl
@[simp] theorem raiseL_stalled (s : State) (c : CollId) : (s.raiseL c).stalled = s.stalled := rfl
@[simp] theorem raiseL_agenda (s : State) (c : CollId) : (s.raiseL c).agenda = s.agenda := rfl
@[simp] theorem raiseL_fv (s : State) (c : CollId) : (s.raiseL c).fv = s.fv := rfl
@[simp] theorem raiseL_nextId (s : State) (c : CollId) : (s.raiseL c).nextId = s.nextId := rfl
@[simp] theorem raiseL_core (s : State) (c : CollId) : (s.raiseL c).core = s.core := rfl
@[simp] theorem raiseL_xl (s : State) (c : CollId) : (s.raiseL c).xl = s.xl := rfl
@[simp] theorem raiseL_hbm (s : State) (c : CollId) : (s.raiseL c).hbm = s.hbm := rfl
@[simp] theorem raiseL_fab (s : State) (c : CollId) : (s.raiseL c).fab = s.fab := rfl
@[simp] theorem raiseL_sched (s : State) (c : CollId) : (s.raiseL c).sched = s.sched := rfl
@[simp] theorem raiseL_dbg (s : State) (c : CollId) : (s.raiseL c).dbg = s.dbg := rfl
@[simp] theorem raiseL_host (s : State) (c : CollId) : (s.raiseL c).host = s.host := rfl

/-! `setHbank` -/

@[simp] theorem setHbank_cx (s : State) (p b : Nat) (x : HBank) : (s.setHbank p b x).cx = s.cx := rfl
@[simp] theorem setHbank_sh (s : State) (p b : Nat) (x : HBank) : (s.setHbank p b x).sh = s.sh := rfl
@[simp] theorem setHbank_cxSt (s : State) (p b : Nat) (x : HBank) : (s.setHbank p b x).cxSt = s.cxSt := rfl
@[simp] theorem setHbank_shSt (s : State) (p b : Nat) (x : HBank) : (s.setHbank p b x).shSt = s.shSt := rfl
@[simp] theorem setHbank_bank (s : State) (p b : Nat) (x : HBank) : (s.setHbank p b x).bank = s.bank := rfl
@[simp] theorem setHbank_coreid (s : State) (p b : Nat) (x : HBank) : (s.setHbank p b x).coreid = s.coreid := rfl
@[simp] theorem setHbank_pkgid (s : State) (p b : Nat) (x : HBank) : (s.setHbank p b x).pkgid = s.pkgid := rfl
@[simp] theorem setHbank_rank (s : State) (p b : Nat) (x : HBank) : (s.setHbank p b x).rank = s.rank := rfl
@[simp] theorem setHbank_mem (s : State) (p b : Nat) (x : HBank) : (s.setHbank p b x).mem = s.mem := rfl
@[simp] theorem setHbank_empties (s : State) (p b : Nat) (x : HBank) : (s.setHbank p b x).empties = s.empties := rfl
@[simp] theorem setHbank_marks (s : State) (p b : Nat) (x : HBank) : (s.setHbank p b x).marks = s.marks := rfl
@[simp] theorem setHbank_cyc (s : State) (p b : Nat) (x : HBank) : (s.setHbank p b x).cyc = s.cyc := rfl
@[simp] theorem setHbank_ftime (s : State) (p b : Nat) (x : HBank) : (s.setHbank p b x).ftime = s.ftime := rfl
@[simp] theorem setHbank_ftPhase (s : State) (p b : Nat) (x : HBank) : (s.setHbank p b x).ftPhase = s.ftPhase := rfl
@[simp] theorem setHbank_badr (s : State) (p b : Nat) (x : HBank) : (s.setHbank p b x).badr = s.badr := rfl
@[simp] theorem setHbank_bundle (s : State) (p b : Nat) (x : HBank) : (s.setHbank p b x).bundle = s.bundle := rfl
@[simp] theorem setHbank_widx (s : State) (p b : Nat) (x : HBank) : (s.setHbank p b x).widx = s.widx := rfl
@[simp] theorem setHbank_ctl (s : State) (p b : Nat) (x : HBank) : (s.setHbank p b x).ctl = s.ctl := rfl
@[simp] theorem setHbank_stalled (s : State) (p b : Nat) (x : HBank) : (s.setHbank p b x).stalled = s.stalled := rfl
@[simp] theorem setHbank_agenda (s : State) (p b : Nat) (x : HBank) : (s.setHbank p b x).agenda = s.agenda := rfl
@[simp] theorem setHbank_fv (s : State) (p b : Nat) (x : HBank) : (s.setHbank p b x).fv = s.fv := rfl
@[simp] theorem setHbank_nextId (s : State) (p b : Nat) (x : HBank) : (s.setHbank p b x).nextId = s.nextId := rfl
@[simp] theorem setHbank_core (s : State) (p b : Nat) (x : HBank) : (s.setHbank p b x).core = s.core := rfl
@[simp] theorem setHbank_xl (s : State) (p b : Nat) (x : HBank) : (s.setHbank p b x).xl = s.xl := rfl
@[simp] theorem setHbank_fab (s : State) (p b : Nat) (x : HBank) : (s.setHbank p b x).fab = s.fab := rfl
@[simp] theorem setHbank_coll (s : State) (p b : Nat) (x : HBank) : (s.setHbank p b x).coll = s.coll := rfl
@[simp] theorem setHbank_sched (s : State) (p b : Nat) (x : HBank) : (s.setHbank p b x).sched = s.sched := rfl
@[simp] theorem setHbank_dbg (s : State) (p b : Nat) (x : HBank) : (s.setHbank p b x).dbg = s.dbg := rfl
@[simp] theorem setHbank_host (s : State) (p b : Nat) (x : HBank) : (s.setHbank p b x).host = s.host := rfl

/-! `setHchan` -/

@[simp] theorem setHchan_cx (s : State) (p : Nat) (x : HChan) : (s.setHchan p x).cx = s.cx := rfl
@[simp] theorem setHchan_sh (s : State) (p : Nat) (x : HChan) : (s.setHchan p x).sh = s.sh := rfl
@[simp] theorem setHchan_cxSt (s : State) (p : Nat) (x : HChan) : (s.setHchan p x).cxSt = s.cxSt := rfl
@[simp] theorem setHchan_shSt (s : State) (p : Nat) (x : HChan) : (s.setHchan p x).shSt = s.shSt := rfl
@[simp] theorem setHchan_bank (s : State) (p : Nat) (x : HChan) : (s.setHchan p x).bank = s.bank := rfl
@[simp] theorem setHchan_coreid (s : State) (p : Nat) (x : HChan) : (s.setHchan p x).coreid = s.coreid := rfl
@[simp] theorem setHchan_pkgid (s : State) (p : Nat) (x : HChan) : (s.setHchan p x).pkgid = s.pkgid := rfl
@[simp] theorem setHchan_rank (s : State) (p : Nat) (x : HChan) : (s.setHchan p x).rank = s.rank := rfl
@[simp] theorem setHchan_mem (s : State) (p : Nat) (x : HChan) : (s.setHchan p x).mem = s.mem := rfl
@[simp] theorem setHchan_empties (s : State) (p : Nat) (x : HChan) : (s.setHchan p x).empties = s.empties := rfl
@[simp] theorem setHchan_marks (s : State) (p : Nat) (x : HChan) : (s.setHchan p x).marks = s.marks := rfl
@[simp] theorem setHchan_cyc (s : State) (p : Nat) (x : HChan) : (s.setHchan p x).cyc = s.cyc := rfl
@[simp] theorem setHchan_ftime (s : State) (p : Nat) (x : HChan) : (s.setHchan p x).ftime = s.ftime := rfl
@[simp] theorem setHchan_ftPhase (s : State) (p : Nat) (x : HChan) : (s.setHchan p x).ftPhase = s.ftPhase := rfl
@[simp] theorem setHchan_badr (s : State) (p : Nat) (x : HChan) : (s.setHchan p x).badr = s.badr := rfl
@[simp] theorem setHchan_bundle (s : State) (p : Nat) (x : HChan) : (s.setHchan p x).bundle = s.bundle := rfl
@[simp] theorem setHchan_widx (s : State) (p : Nat) (x : HChan) : (s.setHchan p x).widx = s.widx := rfl
@[simp] theorem setHchan_ctl (s : State) (p : Nat) (x : HChan) : (s.setHchan p x).ctl = s.ctl := rfl
@[simp] theorem setHchan_stalled (s : State) (p : Nat) (x : HChan) : (s.setHchan p x).stalled = s.stalled := rfl
@[simp] theorem setHchan_agenda (s : State) (p : Nat) (x : HChan) : (s.setHchan p x).agenda = s.agenda := rfl
@[simp] theorem setHchan_fv (s : State) (p : Nat) (x : HChan) : (s.setHchan p x).fv = s.fv := rfl
@[simp] theorem setHchan_nextId (s : State) (p : Nat) (x : HChan) : (s.setHchan p x).nextId = s.nextId := rfl
@[simp] theorem setHchan_core (s : State) (p : Nat) (x : HChan) : (s.setHchan p x).core = s.core := rfl
@[simp] theorem setHchan_xl (s : State) (p : Nat) (x : HChan) : (s.setHchan p x).xl = s.xl := rfl
@[simp] theorem setHchan_fab (s : State) (p : Nat) (x : HChan) : (s.setHchan p x).fab = s.fab := rfl
@[simp] theorem setHchan_coll (s : State) (p : Nat) (x : HChan) : (s.setHchan p x).coll = s.coll := rfl
@[simp] theorem setHchan_sched (s : State) (p : Nat) (x : HChan) : (s.setHchan p x).sched = s.sched := rfl
@[simp] theorem setHchan_dbg (s : State) (p : Nat) (x : HChan) : (s.setHchan p x).dbg = s.dbg := rfl
@[simp] theorem setHchan_host (s : State) (p : Nat) (x : HChan) : (s.setHchan p x).host = s.host := rfl

/-! `setBar` -/

@[simp] theorem setBar_cx (s : State) (k : Nat) (b : Barrier) : (s.setBar k b).cx = s.cx := rfl
@[simp] theorem setBar_sh (s : State) (k : Nat) (b : Barrier) : (s.setBar k b).sh = s.sh := rfl
@[simp] theorem setBar_cxSt (s : State) (k : Nat) (b : Barrier) : (s.setBar k b).cxSt = s.cxSt := rfl
@[simp] theorem setBar_shSt (s : State) (k : Nat) (b : Barrier) : (s.setBar k b).shSt = s.shSt := rfl
@[simp] theorem setBar_bank (s : State) (k : Nat) (b : Barrier) : (s.setBar k b).bank = s.bank := rfl
@[simp] theorem setBar_coreid (s : State) (k : Nat) (b : Barrier) : (s.setBar k b).coreid = s.coreid := rfl
@[simp] theorem setBar_pkgid (s : State) (k : Nat) (b : Barrier) : (s.setBar k b).pkgid = s.pkgid := rfl
@[simp] theorem setBar_rank (s : State) (k : Nat) (b : Barrier) : (s.setBar k b).rank = s.rank := rfl
@[simp] theorem setBar_mem (s : State) (k : Nat) (b : Barrier) : (s.setBar k b).mem = s.mem := rfl
@[simp] theorem setBar_empties (s : State) (k : Nat) (b : Barrier) : (s.setBar k b).empties = s.empties := rfl
@[simp] theorem setBar_marks (s : State) (k : Nat) (b : Barrier) : (s.setBar k b).marks = s.marks := rfl
@[simp] theorem setBar_cyc (s : State) (k : Nat) (b : Barrier) : (s.setBar k b).cyc = s.cyc := rfl
@[simp] theorem setBar_ftime (s : State) (k : Nat) (b : Barrier) : (s.setBar k b).ftime = s.ftime := rfl
@[simp] theorem setBar_ftPhase (s : State) (k : Nat) (b : Barrier) : (s.setBar k b).ftPhase = s.ftPhase := rfl
@[simp] theorem setBar_badr (s : State) (k : Nat) (b : Barrier) : (s.setBar k b).badr = s.badr := rfl
@[simp] theorem setBar_bundle (s : State) (k : Nat) (b : Barrier) : (s.setBar k b).bundle = s.bundle := rfl
@[simp] theorem setBar_widx (s : State) (k : Nat) (b : Barrier) : (s.setBar k b).widx = s.widx := rfl
@[simp] theorem setBar_ctl (s : State) (k : Nat) (b : Barrier) : (s.setBar k b).ctl = s.ctl := rfl
@[simp] theorem setBar_stalled (s : State) (k : Nat) (b : Barrier) : (s.setBar k b).stalled = s.stalled := rfl
@[simp] theorem setBar_agenda (s : State) (k : Nat) (b : Barrier) : (s.setBar k b).agenda = s.agenda := rfl
@[simp] theorem setBar_fv (s : State) (k : Nat) (b : Barrier) : (s.setBar k b).fv = s.fv := rfl
@[simp] theorem setBar_nextId (s : State) (k : Nat) (b : Barrier) : (s.setBar k b).nextId = s.nextId := rfl
@[simp] theorem setBar_xl (s : State) (k : Nat) (b : Barrier) : (s.setBar k b).xl = s.xl := rfl
@[simp] theorem setBar_hbm (s : State) (k : Nat) (b : Barrier) : (s.setBar k b).hbm = s.hbm := rfl
@[simp] theorem setBar_fab (s : State) (k : Nat) (b : Barrier) : (s.setBar k b).fab = s.fab := rfl
@[simp] theorem setBar_coll (s : State) (k : Nat) (b : Barrier) : (s.setBar k b).coll = s.coll := rfl
@[simp] theorem setBar_sched (s : State) (k : Nat) (b : Barrier) : (s.setBar k b).sched = s.sched := rfl
@[simp] theorem setBar_dbg (s : State) (k : Nat) (b : Barrier) : (s.setBar k b).dbg = s.dbg := rfl
@[simp] theorem setBar_host (s : State) (k : Nat) (b : Barrier) : (s.setBar k b).host = s.host := rfl

/-! `refuse` -/

@[simp] theorem refuse_cx (s : State) : (s.refuse).cx = s.cx := rfl
@[simp] theorem refuse_sh (s : State) : (s.refuse).sh = s.sh := rfl
@[simp] theorem refuse_cxSt (s : State) : (s.refuse).cxSt = s.cxSt := rfl
@[simp] theorem refuse_shSt (s : State) : (s.refuse).shSt = s.shSt := rfl
@[simp] theorem refuse_bank (s : State) : (s.refuse).bank = s.bank := rfl
@[simp] theorem refuse_coreid (s : State) : (s.refuse).coreid = s.coreid := rfl
@[simp] theorem refuse_pkgid (s : State) : (s.refuse).pkgid = s.pkgid := rfl
@[simp] theorem refuse_rank (s : State) : (s.refuse).rank = s.rank := rfl
@[simp] theorem refuse_mem (s : State) : (s.refuse).mem = s.mem := rfl
@[simp] theorem refuse_empties (s : State) : (s.refuse).empties = s.empties := rfl
@[simp] theorem refuse_marks (s : State) : (s.refuse).marks = s.marks := rfl
@[simp] theorem refuse_cyc (s : State) : (s.refuse).cyc = s.cyc := rfl
@[simp] theorem refuse_ftime (s : State) : (s.refuse).ftime = s.ftime := rfl
@[simp] theorem refuse_ftPhase (s : State) : (s.refuse).ftPhase = s.ftPhase := rfl
@[simp] theorem refuse_badr (s : State) : (s.refuse).badr = s.badr := rfl
@[simp] theorem refuse_bundle (s : State) : (s.refuse).bundle = s.bundle := rfl
@[simp] theorem refuse_widx (s : State) : (s.refuse).widx = s.widx := rfl
@[simp] theorem refuse_ctl (s : State) : (s.refuse).ctl = s.ctl := rfl
@[simp] theorem refuse_stalled (s : State) : (s.refuse).stalled = s.stalled := rfl
@[simp] theorem refuse_agenda (s : State) : (s.refuse).agenda = s.agenda := rfl
@[simp] theorem refuse_fv (s : State) : (s.refuse).fv = s.fv := rfl
@[simp] theorem refuse_nextId (s : State) : (s.refuse).nextId = s.nextId := rfl
@[simp] theorem refuse_core (s : State) : (s.refuse).core = s.core := rfl
@[simp] theorem refuse_xl (s : State) : (s.refuse).xl = s.xl := rfl
@[simp] theorem refuse_hbm (s : State) : (s.refuse).hbm = s.hbm := rfl
@[simp] theorem refuse_fab (s : State) : (s.refuse).fab = s.fab := rfl
@[simp] theorem refuse_coll (s : State) : (s.refuse).coll = s.coll := rfl
@[simp] theorem refuse_sched (s : State) : (s.refuse).sched = s.sched := rfl
@[simp] theorem refuse_dbg (s : State) : (s.refuse).dbg = s.dbg := rfl

/-! `answer` -/

@[simp] theorem answer_cx (s : State) (l : List Byte) : (s.answer l).cx = s.cx := rfl
@[simp] theorem answer_sh (s : State) (l : List Byte) : (s.answer l).sh = s.sh := rfl
@[simp] theorem answer_cxSt (s : State) (l : List Byte) : (s.answer l).cxSt = s.cxSt := rfl
@[simp] theorem answer_shSt (s : State) (l : List Byte) : (s.answer l).shSt = s.shSt := rfl
@[simp] theorem answer_bank (s : State) (l : List Byte) : (s.answer l).bank = s.bank := rfl
@[simp] theorem answer_coreid (s : State) (l : List Byte) : (s.answer l).coreid = s.coreid := rfl
@[simp] theorem answer_pkgid (s : State) (l : List Byte) : (s.answer l).pkgid = s.pkgid := rfl
@[simp] theorem answer_rank (s : State) (l : List Byte) : (s.answer l).rank = s.rank := rfl
@[simp] theorem answer_mem (s : State) (l : List Byte) : (s.answer l).mem = s.mem := rfl
@[simp] theorem answer_empties (s : State) (l : List Byte) : (s.answer l).empties = s.empties := rfl
@[simp] theorem answer_marks (s : State) (l : List Byte) : (s.answer l).marks = s.marks := rfl
@[simp] theorem answer_cyc (s : State) (l : List Byte) : (s.answer l).cyc = s.cyc := rfl
@[simp] theorem answer_ftime (s : State) (l : List Byte) : (s.answer l).ftime = s.ftime := rfl
@[simp] theorem answer_ftPhase (s : State) (l : List Byte) : (s.answer l).ftPhase = s.ftPhase := rfl
@[simp] theorem answer_badr (s : State) (l : List Byte) : (s.answer l).badr = s.badr := rfl
@[simp] theorem answer_bundle (s : State) (l : List Byte) : (s.answer l).bundle = s.bundle := rfl
@[simp] theorem answer_widx (s : State) (l : List Byte) : (s.answer l).widx = s.widx := rfl
@[simp] theorem answer_ctl (s : State) (l : List Byte) : (s.answer l).ctl = s.ctl := rfl
@[simp] theorem answer_stalled (s : State) (l : List Byte) : (s.answer l).stalled = s.stalled := rfl
@[simp] theorem answer_agenda (s : State) (l : List Byte) : (s.answer l).agenda = s.agenda := rfl
@[simp] theorem answer_fv (s : State) (l : List Byte) : (s.answer l).fv = s.fv := rfl
@[simp] theorem answer_nextId (s : State) (l : List Byte) : (s.answer l).nextId = s.nextId := rfl
@[simp] theorem answer_core (s : State) (l : List Byte) : (s.answer l).core = s.core := rfl
@[simp] theorem answer_xl (s : State) (l : List Byte) : (s.answer l).xl = s.xl := rfl
@[simp] theorem answer_hbm (s : State) (l : List Byte) : (s.answer l).hbm = s.hbm := rfl
@[simp] theorem answer_fab (s : State) (l : List Byte) : (s.answer l).fab = s.fab := rfl
@[simp] theorem answer_coll (s : State) (l : List Byte) : (s.answer l).coll = s.coll := rfl
@[simp] theorem answer_sched (s : State) (l : List Byte) : (s.answer l).sched = s.sched := rfl
@[simp] theorem answer_dbg (s : State) (l : List Byte) : (s.answer l).dbg = s.dbg := rfl

/-! `addCap` -/

@[simp] theorem addCap_cx (s : State) (e : Nat) (c : Cap) : (s.addCap e c).cx = s.cx := rfl
@[simp] theorem addCap_sh (s : State) (e : Nat) (c : Cap) : (s.addCap e c).sh = s.sh := rfl
@[simp] theorem addCap_cxSt (s : State) (e : Nat) (c : Cap) : (s.addCap e c).cxSt = s.cxSt := rfl
@[simp] theorem addCap_shSt (s : State) (e : Nat) (c : Cap) : (s.addCap e c).shSt = s.shSt := rfl
@[simp] theorem addCap_bank (s : State) (e : Nat) (c : Cap) : (s.addCap e c).bank = s.bank := rfl
@[simp] theorem addCap_coreid (s : State) (e : Nat) (c : Cap) : (s.addCap e c).coreid = s.coreid := rfl
@[simp] theorem addCap_pkgid (s : State) (e : Nat) (c : Cap) : (s.addCap e c).pkgid = s.pkgid := rfl
@[simp] theorem addCap_rank (s : State) (e : Nat) (c : Cap) : (s.addCap e c).rank = s.rank := rfl
@[simp] theorem addCap_mem (s : State) (e : Nat) (c : Cap) : (s.addCap e c).mem = s.mem := rfl
@[simp] theorem addCap_empties (s : State) (e : Nat) (c : Cap) : (s.addCap e c).empties = s.empties := rfl
@[simp] theorem addCap_marks (s : State) (e : Nat) (c : Cap) : (s.addCap e c).marks = s.marks := rfl
@[simp] theorem addCap_cyc (s : State) (e : Nat) (c : Cap) : (s.addCap e c).cyc = s.cyc := rfl
@[simp] theorem addCap_ftime (s : State) (e : Nat) (c : Cap) : (s.addCap e c).ftime = s.ftime := rfl
@[simp] theorem addCap_ftPhase (s : State) (e : Nat) (c : Cap) : (s.addCap e c).ftPhase = s.ftPhase := rfl
@[simp] theorem addCap_badr (s : State) (e : Nat) (c : Cap) : (s.addCap e c).badr = s.badr := rfl
@[simp] theorem addCap_bundle (s : State) (e : Nat) (c : Cap) : (s.addCap e c).bundle = s.bundle := rfl
@[simp] theorem addCap_widx (s : State) (e : Nat) (c : Cap) : (s.addCap e c).widx = s.widx := rfl
@[simp] theorem addCap_ctl (s : State) (e : Nat) (c : Cap) : (s.addCap e c).ctl = s.ctl := rfl
@[simp] theorem addCap_stalled (s : State) (e : Nat) (c : Cap) : (s.addCap e c).stalled = s.stalled := rfl
@[simp] theorem addCap_agenda (s : State) (e : Nat) (c : Cap) : (s.addCap e c).agenda = s.agenda := rfl
@[simp] theorem addCap_fv (s : State) (e : Nat) (c : Cap) : (s.addCap e c).fv = s.fv := rfl
@[simp] theorem addCap_nextId (s : State) (e : Nat) (c : Cap) : (s.addCap e c).nextId = s.nextId := rfl
@[simp] theorem addCap_core (s : State) (e : Nat) (c : Cap) : (s.addCap e c).core = s.core := rfl
@[simp] theorem addCap_xl (s : State) (e : Nat) (c : Cap) : (s.addCap e c).xl = s.xl := rfl
@[simp] theorem addCap_hbm (s : State) (e : Nat) (c : Cap) : (s.addCap e c).hbm = s.hbm := rfl
@[simp] theorem addCap_fab (s : State) (e : Nat) (c : Cap) : (s.addCap e c).fab = s.fab := rfl
@[simp] theorem addCap_coll (s : State) (e : Nat) (c : Cap) : (s.addCap e c).coll = s.coll := rfl
@[simp] theorem addCap_sched (s : State) (e : Nat) (c : Cap) : (s.addCap e c).sched = s.sched := rfl
@[simp] theorem addCap_host (s : State) (e : Nat) (c : Cap) : (s.addCap e c).host = s.host := rfl

end Sys2Proof.Laws
end

