-- ==== Sys2Proof/Tests/Slice0.lean ====
section
/-!
SUPPORT. Tests on the spec's own numbers: words written out from the encoding tables decode to their
instructions, ill-formed terms are refused, and for the statements' hypotheses concrete states and operands
that meet them.
-/

namespace Sys2Proof.Tests

open Sys2Proof Sys2Proof.Machine Sys2Proof.Safety

/-! ### Words of the encoding tables -/

theorem test_decode_ctl :
    decode 0b0_00000_00000000000000000000000000 = some .nop
    ∧ decode 0b0_00000_00000100000000000000000000 = some .endTask
    ∧ decode 0b0_00000_00001000000000000000000000 = some .yield
    ∧ decode 0b0_00000_000011_010101_00000000000000 = some (.jmp 21)
    ∧ decode 0b0_00000_000100_010101_00000000000000 = some (.jmpl 21)
    ∧ decode 0b0_00000_00010100000000000000000000 = some .ret
    ∧ decode 0b0_00000_000110_010101_00000000001001 = some (.loop 21 9) := by
  decide

theorem test_decode_br :
    decode 0b0_00001_101_1_0001110010100110010101 = some (.br 5 1 469397) := by
  decide

theorem test_decode_call :
    decode 0b0_00010_10101101011010011011010101 = some (.call 45459157) := by
  decide

theorem test_decode_sys1 :
    decode 0b0_00011_000000000000_10011011010101 = some (.trap 9941)
    ∧ decode 0b0_00011_00000100000000000000000000 = some .eret
    ∧ decode 0b0_00011_000001_010101_00000000000001 = some (.eretTo 21)
    ∧ decode 0b0_00011_000010_010101_00000000000000 = some (.check 21)
    ∧ decode 0b0_00011_000010_000101_00000000000001 = some (.checkPred 5)
    ∧ decode 0b0_00011_000011_010101_00011001010011 = some (.mfs 21 1619)
    ∧ decode 0b0_00011_000100_010101_00011001010011 = some (.mts 21 1619)
    ∧ decode 0b0_00011_000101000000_10011011010101 = some (.brk 9941)
    ∧ decode 0b0_00011_000110_010101_00011001010011 = some (.mark 21 1619)
    ∧ decode 0b0_00011_00011100000000000000000000 = some .swapc := by
  decide

theorem test_decode_sys2 :
    decode 0b0_00011_001000_010101_00000000000000 = some (.tlbinvPage 21)
    ∧ decode 0b0_00011_001000_010101_01000000000000 = some (.tlbinvAsid 21)
    ∧ decode 0b0_00011_00100000000010000000000000 = some .tlbinvLocal
    ∧ decode 0b0_00011_00100000000011000000000000 = some .tlbinvAll
    ∧ decode 0b0_00011_001001000000_10011011010101 = some (.svc 9941) := by
  decide

theorem test_decode_ialu1 :
    decode 0b0_00100_010101_010011_010101_00000000 = some (.add 21 19 21)
    ∧ decode 0b0_00100_010101_010011_010101_00000001 = some (.sub 21 19 21)
    ∧ decode 0b0_00100_010101_010011_010101_00000010 = some (.mul 21 19 21)
    ∧ decode 0b0_00100_010101_010011_010101_00000011 = some (.mulh 21 19 21)
    ∧ decode 0b0_00100_010101_010011_010101_00000100 = some (.mulhn 21 19 21)
    ∧ decode 0b0_00100_010101_010011_010101_00000101 = some (.div 21 19 21)
    ∧ decode 0b0_00100_010101_010011_010101_00000110 = some (.divn 21 19 21)
    ∧ decode 0b0_00100_010101_010011_010101_00000111 = some (.rem 21 19 21)
    ∧ decode 0b0_00100_010101_010011_010101_00001000 = some (.remn 21 19 21)
    ∧ decode 0b0_00100_010101_010011_010101_00001001 = some (.and 21 19 21) := by
  decide

theorem test_decode_ialu2 :
    decode 0b0_00100_010101_010011_010101_00001010 = some (.or 21 19 21)
    ∧ decode 0b0_00100_010101_010011_010101_00001011 = some (.xor 21 19 21)
    ∧ decode 0b0_00100_010101_010011_010101_00001100 = some (.andn 21 19 21)
    ∧ decode 0b0_00100_010101_010011_010101_00001101 = some (.shl 21 19 21)
    ∧ decode 0b0_00100_010101_010011_010101_00001110 = some (.shr 21 19 21)
    ∧ decode 0b0_00100_010101_010011_010101_00001111 = some (.sar 21 19 21)
    ∧ decode 0b0_00100_010101_010011_010101_00010000 = some (.rotl 21 19 21)
    ∧ decode 0b0_00100_010101_010011_010101_00010001 = some (.min 21 19 21)
    ∧ decode 0b0_00100_010101_010011_010101_00010010 = some (.max 21 19 21)
    ∧ decode 0b0_00100_010101_010011_010101_00010011 = some (.minn 21 19 21) := by
  decide

theorem test_decode_ialu3 :
    decode 0b0_00100_010101_010011_010101_00010100 = some (.maxn 21 19 21)
    ∧ decode 0b0_00100_010101_010011_00000000010101 = some (.clz 21 19)
    ∧ decode 0b0_00100_010101_010011_00000000010110 = some (.popc 21 19)
    ∧ decode 0b0_00100_010101_010011_000010_00010111 = some (.sext 21 19 2)
    ∧ decode 0b0_00100_010101_010011_000001_00011000 = some (.zext 21 19 1) := by
  decide

theorem test_decode_iali :
    decode 0b0_00101_010101_010011_000_00110010101 = some (.addi 21 19 405)
    ∧ decode 0b0_00101_010101_010011_001_00110010101 = some (.andi 21 19 405)
    ∧ decode 0b0_00101_010101_010011_010_00110010101 = some (.ori 21 19 405)
    ∧ decode 0b0_00101_010101_010011_011_00110010101 = some (.xori 21 19 405)
    ∧ decode 0b0_00101_010101_010011_10000000_010101 = some (.shli 21 19 21)
    ∧ decode 0b0_00101_010101_010011_10100000_010101 = some (.shri 21 19 21)
    ∧ decode 0b0_00101_010101_010011_11000000_010101 = some (.sari 21 19 21) := by
  decide

theorem test_decode_movi :
    decode 0b0_00110_010101_10011100011001010011 = some (.movi 21 640595) := by
  decide

theorem test_decode_movk :
    decode 0b0_00111_010101_10_110010100110010101 = some (.movk 21 2 207253) := by
  decide

theorem test_decode_fpu1 :
    decode 0b0_01000_010101_010011_010101_01_000000 = some (.fadd 1 21 19 21)
    ∧ decode 0b0_01000_010101_010011_010101_01_000001 = some (.fsub 1 21 19 21)
    ∧ decode 0b0_01000_010101_010011_010101_01_000010 = some (.fmul 1 21 19 21)
    ∧ decode 0b0_01000_010101_010011_010101_01_000011 = some (.ffma 1 21 19 21)
    ∧ decode 0b0_01000_010101_010011_010101_01_000100 = some (.fmin 1 21 19 21)
    ∧ decode 0b0_01000_010101_010011_010101_01_000101 = some (.fmax 1 21 19 21)
    ∧ decode 0b0_01000_010101_010011_000000_01_000110 = some (.fabs 1 21 19)
    ∧ decode 0b0_01000_010101_010011_000000_01_000111 = some (.fneg 1 21 19)
    ∧ decode 0b0_01000_010101_010011_010101_01_001000 = some (.fcpys 1 21 19 21)
    ∧ decode 0b0_01000_010101_010011_0_11_010_01_001001 = some (.fcvti 1 21 19 3 2) := by
  decide

theorem test_decode_fpu2 :
    decode 0b0_01000_010101_010011_0_10_001_01_001010 = some (.fcvtf 1 21 19 2 1)
    ∧ decode 0b0_01000_010101_010011_000_010_00_001011 = some (.fcvtw 0 21 19 2) := by
  decide

theorem test_decode_cmp :
    decode 0b0_01001_000011_010011_010101_0000_1001 = some (.cmp 3 19 21 9)
    ∧ decode 0b0_01001_000011_010011_010101_0001_1_101 = some (.fcmp 3 19 21 13)
    ∧ decode 0b0_01001_000011_000010_000101_0010_1101 = some (.plog 3 2 5 13)
    ∧ decode 0b0_01001_000011_010011_010101_0011_0001 = some (.tst 3 19 21 1) := by
  decide

theorem test_decode_field :
    decode 0b0_01010_010101_010011_010101_00000000 = some (.bfx 21 19 21)
    ∧ decode 0b0_01010_010101_010011_010101_00000001 = some (.bfi 21 19 21)
    ∧ decode 0b0_01010_010101_010011_010101_00000010 = some (.lea 21 19 21)
    ∧ decode 0b0_01010_010101_010011_000101_00000011 = some (.sel 21 19 5) := by
  decide

theorem test_decode_load :
    decode 0b0_01100_000000_010101_0011_10_00100101 = some (.ld 21 3 2 37)
    ∧ decode 0b0_01100_100000_010101_0011_10_00100101 = some (.lds 21 3 2 37)
    ∧ decode 0b0_01100_010000_010101_0011_10_00100101 = some (.ldc 21 3 2 37)
    ∧ decode 0b0_01100_000100_010101_0011_01_00100101 = some (.ldf 21 3 1 37)
    ∧ decode 0b0_01100_001000_010101_0011_01_00100101 = some (.ldfe 21 3 1 37) := by
  decide

theorem test_decode_store :
    decode 0b0_01101_010101_010011_0101_10_11010101 = some (.st 21 19 5 2 213) := by
  decide

theorem test_decode_tag :
    decode 0b0_01110_010101_010011_0101_01_000_10101 = some (.stf 21 19 5 1 21)
    ∧ decode 0b0_01110_010101_010011_0101_01_001_10101 = some (.ste 21 19 5 1 21)
    ∧ decode 0b0_01110_000000_010101_0011_01_010_00101 = some (.sete 21 3 1 5)
    ∧ decode 0b0_01110_000000_010101_0011_01_011_00101 = some (.setf 21 3 1 5)
    ∧ decode 0b0_01110_000000_010101_0011_01_100_00101 = some (.tagq 21 3 1 5) := by
  decide

theorem test_decode_atom1 :
    decode 0b0_01111_010101_010011_0101_01_1_0000000 = some (.aadd 21 19 5 1 1)
    ∧ decode 0b0_01111_010101_010011_0101_01_1_0001000 = some (.amin 21 19 5 1 1)
    ∧ decode 0b0_01111_010101_010011_0101_01_1_0010000 = some (.amax 21 19 5 1 1)
    ∧ decode 0b0_01111_010101_010011_0101_01_1_0011000 = some (.aminn 21 19 5 1 1)
    ∧ decode 0b0_01111_010101_010011_0101_01_1_0100000 = some (.amaxn 21 19 5 1 1)
    ∧ decode 0b0_01111_010101_010011_0101_01_1_0101000 = some (.aand 21 19 5 1 1)
    ∧ decode 0b0_01111_010101_010011_0101_01_1_0110000 = some (.aor 21 19 5 1 1)
    ∧ decode 0b0_01111_010101_010011_0101_01_1_0111000 = some (.axor 21 19 5 1 1)
    ∧ decode 0b0_01111_010101_010011_0101_01_1_1000000 = some (.aswp 21 19 5 1 1)
    ∧ decode 0b0_01111_010101_010011_0101_01_1_1001000 = some (.afadd 21 19 5 1 1) := by
  decide

theorem test_decode_atom2 :
    decode 0b0_01111_000110_010011_0101_01_1_1010000 = some (.acas 6 19 5 1 1) := by
  decide

theorem test_decode_order :
    decode 0b0_10000_000000_100_0_1100011001010011 = some (.fence 4 50771)
    ∧ decode 0b0_10000_000001_010101_0000000000_0011 = some (.slkset 21 3)
    ∧ decode 0b0_10000_00001000000000000000000_101 = some (.wdrain 5)
    ∧ decode 0b0_10000_000011_010101_00000000000_011 = some (.wallow 21 3) := by
  decide

theorem test_decode_vop1 :
    decode 0b0_10001_10101_10011_10101_101_00000000 = some (.vadd 21 19 21 5)
    ∧ decode 0b0_10001_10101_10011_10101_101_00000001 = some (.vsub 21 19 21 5)
    ∧ decode 0b0_10001_10101_10011_10101_101_00000010 = some (.vmul 21 19 21 5)
    ∧ decode 0b0_10001_10101_10011_10101_101_00000011 = some (.vfma 21 19 21 5)
    ∧ decode 0b0_10001_10101_10011_10101_101_00000100 = some (.vmin 21 19 21 5)
    ∧ decode 0b0_10001_10101_10011_10101_101_00000101 = some (.vmax 21 19 21 5)
    ∧ decode 0b0_10001_10101_10011_00000_101_00000110 = some (.vabs 21 19 5)
    ∧ decode 0b0_10001_10101_10011_00000_101_00000111 = some (.vneg 21 19 5)
    ∧ decode 0b0_10001_10101_10011_10101_101_00001000 = some (.vand 21 19 21 5)
    ∧ decode 0b0_10001_10101_10011_10101_101_00001001 = some (.vor 21 19 21 5) := by
  decide

theorem test_decode_vop2 :
    decode 0b0_10001_10101_10011_10101_101_00001010 = some (.vxor 21 19 21 5)
    ∧ decode 0b0_10001_10101_10011_10101_101_00001011 = some (.vshl 21 19 21 5)
    ∧ decode 0b0_10001_10101_10011_10101_101_00001100 = some (.vshr 21 19 21 5)
    ∧ decode 0b0_10001_10101_10011_10101_100_00001101 = some (.vcmp 21 19 21 4)
    ∧ decode 0b0_10001_10101_10011_10101_101_00001110 = some (.vsel 21 19 21 5)
    ∧ decode 0b0_10001_10101_10011_00000_101_00001111 = some (.vcopy 21 19 5)
    ∧ decode 0b0_10001_10101_10011_00000_101_00010000 = some (.vfill 21 19 5)
    ∧ decode 0b0_10001_10101_10011_00000_011_00010001 = some (.vcvt 21 19 3)
    ∧ decode 0b0_10001_10101_0000000000_011_00010010 = some (.viota 21 3) := by
  decide

theorem test_decode_vsfn :
    decode 0b0_10010_10101_10011_00000_101_00000000 = some (.vexp2 21 19 5)
    ∧ decode 0b0_10010_10101_10011_00000_101_00000001 = some (.vlog2 21 19 5)
    ∧ decode 0b0_10010_10101_10011_00000_101_00000010 = some (.vrcp 21 19 5)
    ∧ decode 0b0_10010_10101_10011_00000_101_00000011 = some (.vrsq 21 19 5)
    ∧ decode 0b0_10010_10101_10011_00000_101_00000100 = some (.vsig 21 19 5)
    ∧ decode 0b0_10010_10101_10011_00000_101_00000101 = some (.vtanh 21 19 5)
    ∧ decode 0b0_10010_10101_10011_00000_101_00000110 = some (.vgelu 21 19 5) := by
  decide

theorem test_decode_chain :
    decode 0b0_10011_10101_10011_10101_101_00000000 = some (.vchain 21 19 21 5)
    ∧ decode 0b0_10011_00000_10101_0000_1_101_00000001 = some (.chset 53 5) := by
  decide

theorem test_decode_permute :
    decode 0b0_10100_10101_10011_10101_101_00000000 = some (.vcomp 21 19 21 5)
    ∧ decode 0b0_10100_10101_10011_10101_101_00000001 = some (.vexpd 21 19 21 5)
    ∧ decode 0b0_10100_10101_10011_10101_101_00000010 = some (.vgath 21 19 21 5)
    ∧ decode 0b0_10100_10101_10011_10101_101_00000011 = some (.vscat 21 19 21 5)
    ∧ decode 0b0_10100_10101_10011_00000_010_00000100 = some (.vscan 21 19 2)
    ∧ decode 0b0_10100_10101_10011_00000_101_00000101 = some (.vtrn 21 19 5) := by
  decide

theorem test_decode_vdesc :
    decode 0b0_10101_011101_010011_010101_00000000 = some (.dset 29 19 21)
    ∧ decode 0b0_10101_101000_011110_000001_00000001 = some (.dget 40 30 1)
    ∧ decode 0b0_10101_000000_011110_010011_00000010 = some (.dadv 30 19)
    ∧ decode 0b0_10101_000000_011110_010011_00000011 = some (.dcnt 30 19) := by
  decide

theorem test_decode_red :
    decode 0b0_10110_00000_10101_000000_11_00000000 = some (.radd 21 3)
    ∧ decode 0b0_10110_00000_10101_000000_11_00000001 = some (.rmin 21 3)
    ∧ decode 0b0_10110_00000_10101_000000_11_00000010 = some (.rmax 21 3)
    ∧ decode 0b0_10110_00000_10101_0000_1_0_01_00000011 = some (.rdrn 53 1)
    ∧ decode 0b0_10110_10101_00000000001_11_00000011 = some (.rdrnDesc 21 3)
    ∧ decode 0b0_10110_0_10_01_00000000000_11_00000100 = some (.rclr 1 2 3) := by
  decide

theorem test_decode_mstep :
    decode 0b0_10111_010_1_10101_00101_010101_10_00_01 = some (.mstep 2 1 21 5 21 2 1) := by
  decide

theorem test_decode_mctl :
    decode 0b0_11000_00_1_010_00000000_10_01_00000000 = some (.mzero 2 1 1 2)
    ∧ decode 0b0_11000_011101_000_101_00_1_010_00000001 = some (.mdrain 29 5 2 1)
    ∧ decode 0b0_11000_000_101_011101_0_010_01_00000010 = some (.mlda 5 29 1 2)
    ∧ decode 0b0_11000_010101_00000000000000000011 = some (.mwgt 21)
    ∧ decode 0b0_11000_0000_01_011101_00000000000100 = some (.sload 1 29)
    ∧ decode 0b0_11000_111111_00000000000000000101 = some (.ssel 63)
    ∧ decode 0b0_11000_000001_00000000000000000110 = some (.mflow 1)
    ∧ decode 0b0_11000_000010_00000000000000000111 = some (.mskew 2)
    ∧ decode 0b0_11000_000011_000100_1001_01_00001000 = some (.mfmt 3 4 37) := by
  decide

theorem test_decode_table :
    decode 0b0_11001_000000_010101_0000000_011_0101 = some (.scld 21 3 5)
    ∧ decode 0b0_11001_000001_010101_0000000000_0011 = some (.fmset 21 3)
    ∧ decode 0b0_11001_000010_010101_0000000000_0011 = some (.fmget 21 3) := by
  decide

theorem test_decode_copy :
    decode 0b0_11010_010101_010011_01_0101_00000000 = some (.cpy 21 19 1 5)
    ∧ decode 0b0_11010_010101_010011_01_0101_00000001 = some (.cpyt 21 19 1 5)
    ∧ decode 0b0_11010_010101_010011_01_0101_00000010 = some (.cpyp 21 19 1 5)
    ∧ decode 0b0_11010_010101_010011_01_0101_00000011 = some (.cpyg 21 19 1 5)
    ∧ decode 0b0_11010_010101_010011_01_0101_00000100 = some (.cpyw 21 19 1 5)
    ∧ decode 0b0_11010_010101_010011_01_0101_00000101 = some (.cpyc 21 19 1 5) := by
  decide

theorem test_decode_fab :
    decode 0b0_11011_010101_00000000_0011_00000000 = some (.cpost 21 3)
    ∧ decode 0b0_11011_010101_00000000_0011_00000001 = some (.ccancel 21 3)
    ∧ decode 0b0_11011_010101_00000000_0011_00000010 = some (.cquery 21 3)
    ∧ decode 0b0_11011_010101_00000000_0011_00000011 = some (.tsend 21 3) := by
  decide

theorem test_decode_sync :
    decode 0b0_11100_000000_010101_00000000000000 = some (.commit 21)
    ∧ decode 0b0_11100_000001_010101_00000000000000 = some (.waitb 21)
    ∧ decode 0b0_11100_000010_010101_00000000000000 = some (.testb 21)
    ∧ decode 0b0_11100_00001100000000000_011010101 = some (.bara 213)
    ∧ decode 0b0_11100_00010000000000000_011010101 = some (.barw 213)
    ∧ decode 0b0_11100_000101_010101_00000_001010011 = some (.bart 21 83)
    ∧ decode 0b0_11100_000110_010101_00000_001010011 = some (.barcfg 21 83)
    ∧ decode 0b0_11100_000111_010101_00000000000000 = some (.npost 21)
    ∧ decode 0b0_11100_001000_010101_00000000000000 = some (.requeue 21) := by
  decide

theorem test_decode_exper :
    decode 0b0_11111_010101_10011100011001010011 = some (.exper 21 640595) := by
  decide

/-! ### Ill-formed terms are refused (03 R36 to R38) -/

/-- Field 63 is `lq` only where a source may pop it: a destination, or a field of a C, V, R, M, T or X
word, may not name it. -/
theorem test_wf_lq :
    Instr.wf (.add 63 1 2) = false ∧ Instr.wf (.add 1 63 63) = true ∧ Instr.wf (.jmp 63) = false
    ∧ Instr.wf (.movi 63 0) = false ∧ Instr.wf (.clz 63 1) = false ∧ Instr.wf (.addi 63 1 0) = false
    ∧ Instr.wf (.bfx 63 1 2) = false ∧ Instr.wf (.sel 63 1 0) = false ∧ Instr.wf (.chset 63 0) = false
    ∧ Instr.wf (.rdrn 63 0) = false ∧ Instr.wf (.cpost 63 0) = false ∧ Instr.wf (.commit 63) = false
    ∧ Instr.wf (.bart 63 0) = false ∧ Instr.wf (.fmset 63 0) = false ∧ Instr.wf (.check 63) = false := by decide

/-- A field that names a predicate is at most 7, one that names a descriptor at most 31. -/
theorem test_wf_numbers :
    Instr.wf (.checkPred 8) = false ∧ Instr.wf (.cmp 8 1 2 0) = false ∧ Instr.wf (.plog 1 8 0 0) = false
    ∧ Instr.wf (.plog 1 0 8 0) = false ∧ Instr.wf (.sel 1 2 8) = false ∧ Instr.wf (.sel 1 2 7) = true
    ∧ Instr.wf (.dset 32 1 2) = false ∧ Instr.wf (.dset 31 1 2) = true ∧ Instr.wf (.dget 1 32 0) = false
    ∧ Instr.wf (.dadv 32 1) = false ∧ Instr.wf (.mdrain 32 0 0 0) = false ∧ Instr.wf (.mwgt 32) = false
    ∧ Instr.wf (.sload 0 32) = false ∧ Instr.wf (.mlda 0 32 0 0) = false := by decide

/-- Operand ranges of the scalar words. -/
theorem test_wf_scalar :
    Instr.wf (.loop 1 0) = false ∧ Instr.wf (.sext 1 2 3) = false ∧ Instr.wf (.zext 1 2 3) = false
    ∧ Instr.wf (.movk 1 3 1024) = false ∧ Instr.wf (.movk 1 3 1023) = true ∧ Instr.wf (.fadd 2 1 2 3) = false
    ∧ Instr.wf (.fabs 2 1 2) = false ∧ Instr.wf (.fcvti 0 1 2 0 5) = false ∧ Instr.wf (.fcvtw 0 1 2 5) = false
    ∧ Instr.wf (.cmp 1 2 3 10) = false ∧ Instr.wf (.cmp 1 2 3 9) = true ∧ Instr.wf (.fcmp 1 2 3 6) = false
    ∧ Instr.wf (.fcmp 1 2 3 14) = false ∧ Instr.wf (.fcmp 1 2 3 13) = true ∧ Instr.wf (.tst 1 2 3 2) = false
    ∧ Instr.wf (.mfs 1 0x00E) = false ∧ Instr.wf (.mfs 1 0x00D) = true ∧ Instr.wf (.mts 1 0x000) = false
    ∧ Instr.wf (.mts 1 0x00D) = false ∧ Instr.wf (.mts 1 0x103) = true ∧ Instr.wf (.mts 1 0x104) = false := by
  decide

/-- Operand ranges of the A, V, R, M, T and X words. -/
theorem test_wf_pipes :
    Instr.wf (.aadd 1 2 0 1 0) = false ∧ Instr.wf (.acas 3 2 0 3 0) = false ∧ Instr.wf (.acas 62 2 0 3 0) = false
    ∧ Instr.wf (.acas 60 2 0 3 0) = true ∧ Instr.wf (.fence 5 0) = false ∧ Instr.wf (.vcvt 1 2 5) = false
    ∧ Instr.wf (.vscan 1 2 3) = false ∧ Instr.wf (.dget 1 2 2) = false ∧ Instr.wf (.rclr 0 3 0) = false
    ∧ Instr.wf (.mstep 7 1 1 2 0 0 0) = false ∧ Instr.wf (.mstep 7 0 1 2 0 3 0) = false
    ∧ Instr.wf (.mstep 7 0 1 2 0 2 0) = true ∧ Instr.wf (.mzero 7 1 0 0) = false ∧ Instr.wf (.mzero 0 0 3 0) = false
    ∧ Instr.wf (.mdrain 0 0 5 0) = false ∧ Instr.wf (.mlda 0 0 0 5) = false ∧ Instr.wf (.ssel 4) = false
    ∧ Instr.wf (.ssel 14) = false ∧ Instr.wf (.ssel 13) = true ∧ Instr.wf (.mflow 2) = false
    ∧ Instr.wf (.mskew 3) = false ∧ Instr.wf (.mfmt 32 0 0) = false ∧ Instr.wf (.scld 1 7 9) = false
    ∧ Instr.wf (.scld 1 7 8) = true ∧ Instr.wf (.cpy 1 2 0 0) = false ∧ Instr.wf (.cpyt 1 2 3 0) = false
    ∧ Instr.wf (.cpy 1 2 3 0) = true ∧ Instr.wf (.exper 1 0) = false := by decide

/-- The ranges of the whole steps' operands. -/
theorem test_wf_steps :
    Instr.wf (.hbmServiceStart 2048 0) = false ∧ Instr.wf (.bankIdleClose 0 16) = false
    ∧ Instr.wf (.refreshDue 2048) = false ∧ Instr.wf (.wsRefreshWindowStart 16) = false
    ∧ Instr.wf (.resourceReport 1536 ⟨true, true, 0, 0, 0, false⟩) = false ∧ Instr.wf (.mailboxWrite 64 0) = false
    ∧ Instr.wf (.barrierDelivery 512) = false ∧ Instr.wf (.linkDown 32) = false
    ∧ Instr.wf (.rankTableWrite 16384 0 []) = false ∧ Instr.wf (.routeTableLoad 16384 []) = false
    ∧ Instr.wf (.routeTableLoad 0 (List.replicate 5 (0, 0))) = false ∧ Instr.wf (.sessionOpen 0 3 0) = false := by
  decide
/-! ### States the witnesses stand on -/

/-- A running context with code of 64 bytes at address 0. -/
def tCx : Ctx := { Ctx.fresh with uid := 1, codeLen := 64, codePages := [0] }

/-- The core runs it. -/
def tRun : State := { State.reset with cx := tCx, cxSt := .running }

/-- With privilege. -/
def tPriv : State := { tRun with cx := { tCx with priv := true } }

/-- s1 holds a value. -/
def withS1 (s : State) (v : Reg) : State := { s with cx := { s.cx with regs := s.cx.regs.set 1 v } }

/-- k1 holds a value. -/
def withK1 (s : State) (v : PReg) : State := { s with cx := { s.cx with preds := s.cx.preds.set 1 v } }

/-- s61 holds a value. -/
def withS61 (s : State) (v : Reg) : State := { s with cx := { s.cx with regs := s.cx.regs.set 61 v } }

/-- One entry of `lq` is back. -/
def tBack : State := { tRun with cx := { tCx with lq := [⟨1, some { val := 5 }⟩] } }

/-- One entry of `lq` is reserved and not back. -/
def tWait : State := { tRun with cx := { tCx with lq := [⟨1, none⟩] } }

/-- A handler is set. -/
def tHand : State := { tRun with cx := { tCx with thand := 8 } }

/-- The shadow bank holds a ready context. -/
def tReady : State := { tPriv with sh := { tCx with uid := 2 }, shSt := .ready }

/-- The firmware runs. -/
def tFirm : State := { tRun with host := { tRun.host with boot := 2 } }

/-- The launch of the running task holds 16 KiB of its core's scratchpad. -/
def tGrant : State :=
  { tRun with sched := { tRun.sched with
      grants := [{ quad := false, unit := 0, launch := 0, base := 0, size := 16384 }] } }

/-- s1 holds the first address of that partition. -/
def tNear : State := withS1 tGrant { val := 0x0100000000000000 }

/-! ### Encoding, reset, steps -/

theorem wit_encoding : encode false (.add 3 1 2) = some 0x10304200 ∧ decode 0x10304200 = some (.add 3 1 2) := by
  decide

theorem wit_memOk : MemOk State.reset ∧ ∃ t, step State.reset = .next t :=
  ⟨⟨by decide, by decide, by decide⟩, ⟨_, rfl⟩⟩

theorem wit_stepRunsWord :
    let s := State.reset.withFetchWord 32 0x10304200
    s.agenda = [] ∧ s.host.off = false ∧ s.stalled = false ∧ s.mayIssue = true
    ∧ s.inCode s.cx.pc = true ∧ s.cx.pc.toNat % 4 = 0 ∧ chainBit (s.fetchWord s.cx.pc) = false
    ∧ decode (s.fetchWord s.cx.pc) = some (.add 3 1 2) ∧ Instr.wf (.add 3 1 2) = true := by
  decide

theorem wit_memoryReadsBack : (0 ≤ 0 ∧ 0 < 0 + [(7 : Byte)].length) ∧ ¬ (0 ≤ 1 ∧ 1 < 0 + [(7 : Byte)].length) := by
  decide

/-! ### Registers in flight -/

theorem wit_resultLands : (1 : SReg) ≠ 0 ∧ (1 : PRegNum) ≠ 0 ∧ 1 ≤ 1 ∧ 1 ≤ 24 ∧ ({ val := 5 } : Reg).poison = false
    ∧ (∀ p ∈ tRun.cx.pend, p.w.key ≠ some 1) ∧ ∀ p ∈ tRun.cx.pend, p.w.key ≠ some 101 := by decide

/-- Two results on their way to s1. -/
def tOldResult : Pend := { w := .sreg 1 { val := 5 }, issued := 0, bound := 3, land := 2 }
def tNewResult : Pend := { w := .sreg 1 { val := 6 }, issued := 1, bound := 3, land := 1 }
def tTwo : State := { tRun with cx := { tCx with icyc := 2, pend := [tOldResult, tNewResult] } }

theorem wit_overlap :
    (1 : SReg) ≠ 0 ∧ tOldResult.w = .sreg 1 { val := 5 } ∧ tNewResult.w = .sreg 1 { val := 6 }
    ∧ tOldResult.applied = false ∧ tNewResult.applied = false ∧ tOldResult.issued ≤ tNewResult.issued
    ∧ tNewResult.issued < tOldResult.issued + tOldResult.bound ∧ tTwo.cx.inFlight 1 = [tOldResult, tNewResult] := by
  decide

theorem wit_poisonedResult : (1 : SReg) ≠ 0 ∧ ({ poison := true } : Reg).poison = true := by decide

/-! ### Scalar words -/

theorem wit_popped : Popped tRun (pops2 1 2) [] ∧ Popped tBack (pops2 63 0) [{ val := 5 }]
    ∧ Popped tBack (pops2 1 63) [{ val := 5 }] ∧ Popped tRun (pops2 1 0) [] :=
  ⟨⟨by decide, by decide⟩, ⟨by decide, by decide⟩, ⟨by decide, by decide⟩, ⟨by decide, by decide⟩⟩

theorem wit_movk : ((3 : BitVec 2) = 3 → (1023 : BitVec 18).toNat < 1024)
    ∧ ((0 : BitVec 2) = 3 → (262143 : BitVec 18).toNat < 1024) := by decide

theorem wit_precisions : (0 : BitVec 2).toNat ≤ 1 ∧ (1 : BitVec 2).toNat ≤ 1 ∧ (4 : BitVec 3).toNat ≤ 4 := by decide

theorem wit_fcmp : (13 : BitVec 4).toNat % 8 ≤ 5 ∧ (0 : BitVec 4).toNat % 8 ≤ 5 := by decide

theorem wit_computes : computes (.div 1 2 63) = true ∧ ∃ w, wordOf (.div 1 2 63) = some w
    ∧ Popped tBack w.pops [{ val := 5 }] := ⟨by decide, _, rfl, by decide, by decide⟩

/-! ### Control -/

theorem wit_clean : (tRun.cx.sreg 1).poison = false ∧ (tRun.cx.preg 1).poison = false := by decide

theorem wit_branches :
    ((tRun.cx.preg 0).val = ((1 : BitVec 1) == 1) ∧ (tRun.cx.preg 0).val ≠ ((0 : BitVec 1) == 1))
    ∧ (tRun.badr + 4 * (3 : BitVec 22).signExtend 64).toNat % 4 = 0
    ∧ tRun.inCode (tRun.badr + 4 * (3 : BitVec 22).signExtend 64) = true
    ∧ (tRun.cx.sreg 1).val.toNat % 4 = 0 ∧ tRun.inCode (tRun.cx.sreg 1).val = true
    ∧ (tRun.cx.sreg 61).val.toNat % 4 = 0 ∧ tRun.inCode (tRun.cx.sreg 61).val = true
    ∧ tRun.inCode (tRun.badr + 4 * (15 : BitVec 26).signExtend 64) = true := by decide

theorem wit_badTargets : tRun.inCode (tRun.badr + 4 * (16 : BitVec 22).signExtend 64) = false
    ∧ ((withS1 tRun { val := 2 }).cx.sreg 1).val.toNat % 4 ≠ 0
    ∧ ((withS61 tRun { val := 64 }).cx.sreg 61).poison = false
    ∧ (withS61 tRun { val := 64 }).inCode ((withS61 tRun { val := 64 }).cx.sreg 61).val = false
    ∧ tRun.inCode (tRun.badr + 4 * (16 : BitVec 26).signExtend 64) = false := by decide

theorem wit_illegalWord :
    let s := State.reset.withFetchWord 32 0x2C000000
    s.agenda = [] ∧ s.host.off = false ∧ s.stalled = false ∧ s.mayIssue = true ∧ s.inCode s.cx.pc = true
    ∧ chainBit (s.fetchWord s.cx.pc) = false ∧ wordIllegal (s.fetchWord s.cx.pc) = true := by decide

theorem wit_illegalIali :
    let s := State.reset.withFetchWord 32 0x15552085
    let w : IWord := 0x15552085
    fld w 26 5 = 5 ∧ 4 ≤ (fld w 11 3).toNat ∧ fld w 6 5 ≠ 0 ∧ s.agenda = [] ∧ s.host.off = false
    ∧ s.stalled = false ∧ s.mayIssue = true ∧ s.inCode s.cx.pc = true ∧ s.fetchWord s.cx.pc = w
    ∧ chainBit w = false ∧ fld (0x15553800 : IWord) 26 5 = 5 ∧ fld (0x15553800 : IWord) 11 3 = 7 := by decide

theorem wit_poisonedControl : ((withK1 tRun { poison := true }).cx.preg 1).poison = true
    ∧ ((withK1 tRun { poison := true }).cx.preg ((1 : SReg).extractLsb' 0 3)).poison = true
    ∧ (1 : SReg).toNat ≤ 7 ∧ ((withS61 tRun { poison := true }).cx.sreg 61).poison = true
    ∧ ((withS1 tPriv { poison := true }).cx.sreg 1).poison = true
    ∧ (withS1 tPriv { poison := true }).cx.priv = true := by decide

theorem wit_privileged : tRun.cx.priv = false ∧ 0x100 ≤ (0x100 : BitVec 14).toNat
    ∧ (0x014 : BitVec 14).toNat
      ∈ [0x001, 0x002, 0x003, 0x004, 0x008, 0x009, 0x00A, 0x010, 0x011, 0x012, 0x013, 0x014] := by decide

theorem wit_pops :
    (∃ w, wordOf (.add 1 63 63) = some w ∧ w.illop tBack = false ∧ tBack.cx.lq.length < w.pops)
    ∧ (∃ w, wordOf (.add 1 63 2) = some w ∧ w.illop tWait = false ∧ w.pops ≤ tWait.cx.lq.length
      ∧ ∃ e ∈ tWait.cx.lq.take w.pops, e.data = none)
    ∧ ∃ w, wordOf .eret = some w ∧ w.illop tRun = true :=
  ⟨⟨_, rfl, by decide, by decide⟩, ⟨_, rfl, by decide, by decide, ⟨1, none⟩, by decide, by decide⟩,
    ⟨_, rfl, by decide⟩⟩

theorem wit_loopTest :
    let s := { tRun with bundle := [0], cx := { tCx with lend := 4, lcnt := 1 } }
    let t := { tRun with bundle := [0], cx := { tCx with lend := 4, lcnt := 2 } }
    (∀ p ∈ s.cx.pend, ∀ n v b, p.w ≠ .special n v b) ∧ s.badr + 4 * mkWord s.bundle.length = s.cx.lend
    ∧ s.cx.lcnt = 1 ∧ 1 < t.cx.lcnt.toNat ∧ t.badr + 4 * mkWord t.bundle.length = t.cx.lend
    ∧ tRun.cx.lcnt = 0 := ⟨by simp [tCx, Ctx.fresh], by decide⟩

theorem wit_endAndYield :
    let s := { tReady with core := { tReady.core with yieldReq := some (0, 10) } }
    tRun.core.control = false ∧ { tRun.core with control := true : CoreSt }.control = true
    ∧ tRun.core.yieldReq = none ∧ s.core.yieldReq ≠ none ∧ s.cx.tcause.getLsbD 10 = false
    ∧ s.shSt = .ready := by decide

/-- The waits of `END` are over at once, or a command of the batch holds it. -/
theorem wit_endWaits :
    let ends := fun (s : State) =>
      let c := { s.cx with ending := true, openTok := s.cx.openTok + 1 }
      { s with ctl := .jump 4, cx := c.settleBatches }
    (ends tRun).endMet = true ∧ (ends tReady).endMet = true ∧ tReady.shSt = .ready ∧ tRun.shSt ≠ .ready
    ∧ (ends { tRun with cx := { tCx with cmds := [{ id := 7, tok := 0, eng := 0 }] } }).endMet = false := by decide

/-! ### Traps -/

theorem wit_trapEntry : tHand.drain.cx.thand ≠ 0 ∧ tHand.drain.cx.tcause.getLsbD 10 = false := by decide

theorem wit_dtrap :
    let s := { tRun with sched := { tRun.sched with nodes := [{ addr := 0, gen := 0, st := 3 }] } }
    s.drain.cx.thand = 0 ∧ s.shSt ≠ .ready
    ∧ ∀ n ∈ s.sched.nodes, n.gen = s.cx.task.node ∧ n.st ≠ 4 ∧ n.st ≠ 5 ∧ n.failed = none := by decide

theorem wit_freeze : tRun.shSt ≠ .ready ∧ tReady.shSt = .ready := by decide

theorem wit_exceptionReturn :
    let s := { tRun with cx := { tCx with tcause := 0x500, resumeAddr := 60 } }
    let t := { tRun with cx := { tCx with tcause := 0x400 } }
    let u := { tRun with cx := { tCx with tcause := 0x500, resumeAddr := 64 } }
    tRun.cx.tcause.getLsbD 10 = false
    ∧ s.cx.tcause.getLsbD 10 = true ∧ s.cx.tcause.getLsbD 8 = true
    ∧ s.cx.resumeAddr.toNat % 4 = 0 ∧ s.inCode s.cx.resumeAddr = true
    ∧ t.cx.tcause.getLsbD 8 = false ∧ (t.specialNow 0x009).toNat % 4 = 0 ∧ t.inCode (t.specialNow 0x009) = true
    ∧ u.inCode u.cx.resumeAddr = false
    ∧ (s.cx.sreg 1).poison = false ∧ (s.cx.sreg 1).val.toNat % 4 = 0 ∧ s.inCode (s.cx.sreg 1).val = true
    ∧ ((withS1 s { val := 2 }).cx.sreg 1).val.toNat % 4 ≠ 0
    ∧ ((withS1 s { poison := true }).cx.sreg 1).poison = true := by decide

theorem wit_trapBrkSvc :
    let c : Cap := { rights := 4, parent := 3, asid := 0, holder := 9 }
    let s := { tRun with dbg := { tRun.dbg with stopHolder := some 3, caps := [(3, c)] } }
    tRun.dbg.stopHolder = none ∧ s.dbg.stopHolder = some 3 ∧ s.cx.tcause.getLsbD 10 = false
    ∧ (3, c) ∈ s.dbg.caps ∧ c.asid = s.cx.asid.toNat ∧ { c with asid := 1 : Cap }.asid ≠ s.cx.asid.toNat
    ∧ ({ s with cx := { tCx with tcause := 0x400 } } : State).cx.tcause.getLsbD 10 = true := by decide

/-! ### Special registers, banks, TLBs -/

theorem wit_specialRegisters : (0xFF : BitVec 14).toNat < 0x100 ∧ tPriv.cx.priv = true
    ∧ (tPriv.cx.sreg 1).poison = false ∧ tPriv.coll.table = [] ∧ tPriv.fab.tsends = [] ∧ tRun.cx.priv = false
    ∧ (0x022 : BitVec 14).toNat ∈ [0x007, 0x00B, 0x00C, 0x018, 0x020, 0x021, 0x022]
    ∧ 0x001 ∉ [0x007, 0x00B, 0x00C, 0x018, 0x020, 0x021, 0x022] ∧ tRun.cx.pend = []
    ∧ { tCx with icyc := 5, pend := [{ w := .special 0x020 8 false, issued := 0, bound := 2, land := 1 }] : Ctx }.visible
      (1000 + 0x020) = some (.special 0x020 8 false) := by decide

theorem wit_swapc : tPriv.cx.priv = true ∧ { tPriv with shSt := .filling : State }.shSt = .filling
    ∧ tPriv.shSt ≠ .filling ∧ tPriv.shSt ≠ .ready ∧ tReady.shSt = .ready := by decide

/-! ### The A pipe -/

theorem wit_loads : Popped tNear (pops2 0 1) [] ∧ tNear.fenced = false ∧ tNear.cx.lq.length - pops2 0 1 < 32
    ∧ (tNear.src 1 [] 0).poison = false
    ∧ Goes tNear (0x0100000000000000 + BitVec.ofInt 64 ((127 : BitVec 8).toInt * 2 ^ (3 : BitVec 2).toNat)) 8
      .tagWrite 15 (coreLoc 0 0 1016)
    ∧ Goes tNear 0x0100000000003FFF 1 .read 0 (coreLoc 0 0 16383)
    ∧ ∃ c x, tRun.checkAccess 0x0100000000000000 8 .read = .bad c x := by
  refine ⟨⟨by decide, by decide⟩, by decide, by decide, by decide, .inl ⟨.inl (by decide), by decide⟩,
    .inl ⟨.inl (by decide), by decide⟩, ⟨7, 0x0100000000000000, by decide⟩⟩

/-- A page of global memory is in the micro-TLB. -/
def tPage : State :=
  { tRun with xl := { micro := [⟨0, 0, 12, 4096, true, true, false, true⟩], shared := [], walks := [] } }

theorem wit_goesGlobal : Goes tPage 8 8 .store 1 (hbmLoc 0 4104) :=
  .inr ⟨by decide, by decide, ⟨0, 0, 12, 4096, true, true, false, true⟩, by decide, by decide⟩

theorem wit_stores : tNear.fenced = false ∧ writesQueued tNear < 16 ∧ Popped tNear (pops2 2 1) []
    ∧ (tNear.src 2 [] 0).poison = false ∧ (tNear.src2 2 1 []).poison = false
    ∧ Goes tNear (0x0100000000000000 + BitVec.ofInt 64 ((15 : BitVec 5).toInt * 2 ^ (3 : BitVec 2).toNat)) 8
      .tagWrite 0 (coreLoc 0 0 120)
    ∧ Goes tNear 0x0100000000000001 1 .tagRead 0 (coreLoc 0 0 1) :=
  ⟨by decide, by decide, ⟨by decide, by decide⟩, by decide, by decide, .inl ⟨.inl (by decide), by decide⟩,
    .inl ⟨.inl (by decide), by decide⟩⟩

/-- An `AADD.w.c2` adding 5. -/
def tAtomAcc : Acc :=
  { id := 0, kind := .atom 0 5 0 false, cls := 2, addr := 0x0100000000000000, loc := coreLoc 0 0 0, size := 4 }

/-- An `AADD.w.c2` to the first word of the partition is queued. -/
def tAtom : State :=
  { tNear with cx := { tNear.cx with accs := [tAtomAcc] } }

theorem wit_atomics : Popped tAtom (pops2 2 1) [] ∧ tAtom.fenced = false ∧ writesQueued tAtom < 16
    ∧ tAtom.cx.lq.length - pops2 2 1 < 32 ∧ (tAtom.src 2 [] 0).poison = false
    ∧ (tAtom.src2 2 1 []).poison = false
    ∧ Goes tAtom (tAtom.src2 2 1 []).val 4 .atomic 2 (coreLoc 0 0 0)
    ∧ (∀ b ∈ tAtom.cx.accs, b.kind.mergeable = true → b.cls ≠ (3 : BitVec 4).toNat)
    ∧ (tAtom.cx.sreg 3).poison = false
    ∧ (tAtom.cx.accs.filter (fun c => c.kind.closes && c.win.isNone && c.rank == 0
        && c.loc / 64 == coreLoc 0 0 0 / 64)).getLast? = some tAtomAcc
    ∧ tAtomAcc.kind = .atom 0 5 0 false ∧ tAtomAcc.cls = 2 ∧ tAtomAcc.size = 4 ∧ tAtomAcc.loc = coreLoc 0 0 0
    ∧ tAtomAcc.begun = false ∧ tAtom.cyc < tAtomAcc.opened + 4
    ∧ ∀ d ∈ tAtom.orderDeps 2 (coreLoc 0 0 0) (tAtom.src2 2 1 []).taint, d < tAtom.nextId →
        d = tAtomAcc.id ∨ d ∈ tAtomAcc.deps ∨ tAtom.outstanding d = false :=
  ⟨⟨by decide, by decide⟩, by decide, by decide, by decide, by decide, by decide,
    .inl ⟨.inl (by decide), by decide⟩, by decide⟩

/-- The entry holds an operand for its own word, and one, or none, for the next word of the line. -/
theorem wit_atomicsMerge :
    let b := { tAtomAcc with merged := [(coreLoc 0 0 4, 3)] }
    let s := withS1 { tAtom with cx := { tAtom.cx with accs := [b] } } { val := 0x0100000000000004 }
    Goes s (s.src2 2 1 []).val 4 .atomic 2 (coreLoc 0 0 4)
    ∧ (s.cx.accs.filter (fun c => c.kind.closes && c.win.isNone && c.rank == 0
        && c.loc / 64 == coreLoc 0 0 4 / 64)).getLast? = some b
    ∧ b.loc ≠ coreLoc 0 0 4 ∧ b.merged = [] ++ (coreLoc 0 0 4, 3) :: [] ∧ tAtomAcc.merged = []
    ∧ (∀ d ∈ s.orderDeps 2 (coreLoc 0 0 4) (s.src2 2 1 []).taint, d < s.nextId →
        d = b.id ∨ d ∈ b.deps ∨ s.outstanding d = false)
    ∧ (7, Instr.axor 2 1 2 2 0) ∈ [(7, Instr.axor 2 1 2 2 0)] :=
  ⟨.inl ⟨.inl (by decide), by decide⟩, by decide⟩

theorem wit_accessAddresses :
    (3 : Word).toNat % 8 ≠ 0 ∧ 2 ^ 57 ≤ (0x0200000000000000 : Word).toNat
    ∧ (0x00FFFFFFFFFFFFF8 : Word).toNat < 2 ^ 56 ∧ 2 ^ 56 ≤ (0x0100000000000000 : Word).toNat
    ∧ (0x01000000001FFFF8 : Word).toNat < 2 ^ 56 + 2 ^ 21
    ∧ 2 ^ 56 + 2 ^ 21 ≤ (0x0100000000200000 : Word).toNat
    ∧ (0x010FFFFFFFFFFFF8 : Word).toNat < 2 ^ 56 + 2 ^ 52 ∧ tRun.core.control = false
    ∧ 2 ^ 56 + 2 ^ 52 ≤ (0x0110000000000000 : Word).toNat
    ∧ (0x01100000007FFFF8 : Word).toNat < 2 ^ 56 + 2 ^ 52 + 2 ^ 23
    ∧ 2 ^ 56 + 2 ^ 53 ≤ (0x0120000000000000 : Word).toNat
    ∧ (0x012000000FFFFFF8 : Word).toNat < 2 ^ 56 + 2 ^ 53 + 2 ^ 28
    ∧ { tRun.core with control := true : CoreSt }.control = true
    ∧ (0x012FFFFFFFFFFFF8 : Word).toNat < 2 ^ 56 + 3 * 2 ^ 52 := by decide

/-- Region 0x3: the last word of the last core, and the last words of a quad's and of a quad that is none. -/
theorem wit_farAddresses :
    (63 < 64 ∧ 5 < 8 ∧ 3 < 4 ∧ 2 ^ 21 - 8 < 2 ^ 23 ∧ 2 ^ 23 - 8 < 2 ^ 23 ∧ (5 : Nat) < 7)
    ∧ (0x013FEE00001FFFF8 : Word).toNat = 2 ^ 56 + 3 * 2 ^ 52 + 63 * 2 ^ 46 + 5 * 2 ^ 43 + 3 * 2 ^ 41 + (2 ^ 21 - 8)
    ∧ (0x013FEF00007FFFF8 : Word).toNat
        = 2 ^ 56 + 3 * 2 ^ 52 + 63 * 2 ^ 46 + 5 * 2 ^ 43 + 3 * 2 ^ 41 + (2 ^ 23 - 8) + 2 ^ 40
    ∧ (0x013FFF00007FFFF8 : Word).toNat
        = 2 ^ 56 + 3 * 2 ^ 52 + 63 * 2 ^ 46 + 7 * 2 ^ 43 + 3 * 2 ^ 41 + (2 ^ 23 - 8) + 2 ^ 40 := by decide

/-- The first words beyond regions 0x1 and 0x2, region 0x7's last, a reserved bit in region 0x3, and the last window's last
word. -/
theorem wit_windowAddresses :
    2 ^ 56 + 2 ^ 52 + 2 ^ 23 ≤ (0x0110000000800000 : Word).toNat
    ∧ 2 ^ 56 + 2 * 2 ^ 52 + 2 ^ 28 ≤ (0x0120000010000000 : Word).toNat
    ∧ 2 ^ 56 + 4 * 2 ^ 52 ≤ (0x0140000000000000 : Word).toNat
    ∧ (0x017FFFFFFFFFFFF8 : Word).toNat < 2 ^ 56 + 8 * 2 ^ 52
    ∧ (0x0130000000800000 : Word).toNat
        = 2 ^ 56 + 3 * 2 ^ 52 + 0 * 2 ^ 46 + 0 * 2 ^ 43 + 0 * 2 ^ 41 + 0 * 2 ^ 40 + 2 ^ 23
    ∧ (0x01FFFFC6FFFFFFF8 : Word).toNat
        = 2 ^ 56 + (8 + 7) * 2 ^ 52 + 16383 * 2 ^ 38 + 1 * 2 ^ 34 + 1535 * 2 ^ 23 + (2 ^ 23 - 8)
    ∧ rankKind 0x4000 = 1 ∧ rankKind 0x8001 = 2 ∧ rankKind 0xC000 = 3 ∧ (0x4000 : Word).getLsbD 21 = false := by
  decide

theorem wit_accessCauses : ∃ o : AccOp, wordOf (.st 2 1 0 3 0) = some (accWord o) ∧ Popped tNear o.pops []
    ∧ o.stall tNear [] o.pops = false ∧ o.lds = false ∧ o.value = some 2
    ∧ (o.valueOf (withS1 tNear {}) []).poison = false ∧ (o.secondOf tNear).poison = false
    ∧ (o.baseOf tNear []).poison = false
    ∧ ∃ c x, (withS1 tNear { val := 3 }).checkAccess (o.ea (withS1 tNear { val := 3 }) []) o.align o.sort
      = .bad c x :=
  ⟨_, rfl, ⟨by decide, by decide⟩, by decide, by decide, by decide, by decide, by decide, by decide, 6, 3, by decide⟩

/-- Rank 0 is a package, and s1 an address of the window onto it. -/
def tWindow : State :=
  withS1 { tGrant with fab := { tRun.fab with ranks := [(0, 0x4000)] } } { val := 0x0180000000000000 }

/-- A combining line of class 0 onto it is open since cycle 0, the first eight of its bytes written. -/
def tLine : Line :=
  { owner := 1, ids := [8], addr := coreLoc 0 0 0, rank := 0, win := 0, cls := 0
    bytes := List.replicate 8 (some 7) ++ List.replicate 56 none, slack := 5, opened := 0, openedNs := 0 }
def withLine (l : Line) : State := { tWindow with core := { tWindow.core with lines := [l] } }

theorem wit_windowStores : ∃ w rank loc, Popped tWindow (pops2 2 1) [] ∧ (tWindow.src 2 [] 0).poison = false
    ∧ (tWindow.src2 2 1 []).poison = false ∧ tWindow.fenced = false ∧ tWindow.depsDone (tWindow.src2 2 1 []).taint = true
    ∧ tWindow.checkAccess (tWindow.src2 2 1 []).val 8 .store = .ok (.window w rank loc)
    ∧ tWindow.heldWindow 0 rank loc = false ∧ tWindow.behindUnsent 0 rank loc = false ∧ w < 8
    ∧ tWindow.core.lines = [] ∧ tWindow.winCount 1 w < tWindow.cx.allowOf (BitVec.ofNat 3 w) :=
  ⟨0, 0, coreLoc 0 0 0, ⟨by decide, by decide⟩, by decide, by decide, by decide, by decide, rfl, by decide⟩

/-- The line is joined, and complete but for the bytes of the store; one of another class is met. -/
theorem wit_windowLines :
    let own := fun (l : Line) => l.owner == 1 && l.rank == 0 && l.win == 0 && l.cls == 0 && l.addr == coreLoc 0 0 0 / 64 * 64
    let whole := { tLine with bytes := List.replicate 8 none ++ List.replicate 56 (some 7) }
    (withLine tLine).core.lines.find? own = some tLine ∧ (withLine whole).core.lines.find? own = some whole
    ∧ none ∈ mergeBytes 0 (bytesOfNat 8 0) tLine.bytes ∧ none ∉ mergeBytes 0 (bytesOfNat 8 0) whole.bytes
    ∧ (withLine tLine).heldWindow 0 0 (coreLoc 0 0 0) = false
    ∧ (withLine tLine).behindUnsent 0 0 (coreLoc 0 0 0) = false
    ∧ (∀ l ∈ (withLine { tLine with cls := 15 }).core.lines, own l = false)
    ∧ ((withLine tLine).meetsRank 0 0 && tLine.addr == coreLoc 0 0 0 / 64 * 64) = true := by decide +kernel

/-- A `TAGQ` of the first byte. -/
def tTagq : Acc := { id := 0, kind := .tagq, cls := 0, addr := 0, loc := 0, size := 1 }

theorem wit_orderWords : tRun.fenced = false ∧ (∀ l ∈ tRun.core.lines, l.owner ≠ tRun.cx.uid)
    ∧ Popped tRun (pops2 1 0) [] ∧ (tRun.src 1 [] 0).poison = false
    ∧ ∃ o : AccOp, wordOf (.ld 1 0 3 0) = some (accWord o)
      ∧ Popped { tRun with cx := { tCx with drains := [0], accs := [tTagq], fences := [⟨1, [0]⟩] } } o.pops []
      ∧ { tRun with cx := { tCx with drains := [0], accs := [tTagq], fences := [⟨1, [0]⟩] } : State }.fenced = true :=
  ⟨by decide, by decide, ⟨by decide, by decide⟩, by decide, _, rfl, ⟨by decide, by decide⟩, by decide⟩

/-! ### Streams and tables -/

/-- Word 1 of a descriptor of stride 1: kind, count, format code. -/
def tW1 (kind count code : Nat) : Word := mkWord (2 ^ 40 + count * 2 ^ 24 + kind * 2 ^ 22 + code * 2 ^ 16)

/-- Three descriptors stand in the partition; the rest are unset. -/
def withDescs (s : State) (x y z : Word) : State :=
  { s with cx := { s.cx with descs := ((s.cx.descs.set 1 ⟨0x0100000000000000, x⟩).set 2
    ⟨0x0100000000000800, y⟩).set 3 ⟨0x0100000000001000, z⟩ } }

/-- Integer regions: 4 elements, 4 and 1. -/
def tInts : State := withDescs tGrant (tW1 0 4 6) (tW1 0 4 6) (tW1 0 1 6)

/-- A word moves codes between regions of one format; a false predicate, and a destination of no elements. -/
theorem wit_codesAndNothing :
    let t := withK1 tInts { val := false }
    (tInts.cx.desc 1).code = (tInts.cx.desc 2).code
    ∧ Usable tInts [{ d := 1, role := .dst, n := 4, codes := true },
        { d := 2, role := .src, n := tInts.usedOf 2 4, codes := true }]
    ∧ Usable tInts [.of 1 .dst 4] ∧ Usable tInts [.of 1 .dst 4, .of 3 .src 1] ∧ 1 ≤ tInts.countOf 3
    ∧ ∃ q, wordOf (.vadd 1 2 3 1) = some (streamWord q) ∧ Usable t (q.uses t) ∧ q.rules t = true ∧ q.wait t = false
      ∧ q.vpipe = true ∧ q.pred = some 1 ∧ (t.cx.preg 1).poison = false ∧ (t.cx.preg 1).val = false :=
  ⟨by decide, ⟨by decide, by decide⟩, ⟨by decide, by decide⟩, ⟨by decide, by decide⟩, by decide, _, rfl,
    ⟨by decide, by decide⟩, by decide⟩

/-- The destination has no elements. -/
def tNone : State := withDescs tGrant (tW1 0 0 6) (tW1 0 4 6) (tW1 0 1 6)

theorem wit_lengthZero : ∃ q, wordOf (.viota 1 0) = some (streamWord q) ∧ Usable tNone (q.uses tNone)
    ∧ q.rules tNone = true ∧ q.wait tNone = false ∧ (tNone.cx.preg 0).poison = false ∧ q.n tNone = 0
    ∧ q.op tNone ≠ .perm 0 :=
  ⟨_, rfl, ⟨by decide, by decide⟩, by decide⟩

/-- Float regions of 4 elements. -/
def tFloats : State := withDescs tGrant (tW1 0 4 2) (tW1 0 4 2) (tW1 0 4 3)

theorem wit_streams :
    (tInts.cx.streams.filter (·.vpipe == true)).length < 4 ∧ (tInts.cx.preg 0).poison = false
    ∧ (tInts.cx.preg 0).val = true ∧ tInts.countOf 1 = 4 ∧ tInts.lenOk 2 4 = true ∧ tInts.lenOk 3 4 = true
    ∧ Usable tInts [.of 1 .dst 4, .of 2 .src (tInts.usedOf 2 4), .of 3 .src (tInts.usedOf 3 4)]
    ∧ tInts.vopForm 8 1 2 3 = true ∧ tInts.vopForm 14 1 2 3 = true ∧ tInts.vopForm 15 1 2 2 = true
    ∧ tInts.isFloat 1 = tInts.isFloat 2 := by
  refine ⟨by decide, by decide, by decide, by decide, by decide, by decide, ⟨by decide, by decide⟩, ?_⟩
  decide

theorem wit_floatStreams :
    tFloats.lenOk 3 4 = true ∧ Usable tFloats [.of 1 .dst 4, .of 2 .src 4, .of 3 .src 4]
    ∧ Usable tFloats [.of 1 .dst 4, .of 2 .src 4] ∧ tFloats.vopForm 0 1 2 3 = true
    ∧ tFloats.isFloat 1 = true ∧ tFloats.isFloat 2 = true ∧ 1 ≤ tFloats.countOf 2
    ∧ Usable tFloats [.of 1 .dst 4, .of 2 .src 1] ∧ Usable tFloats [.of 1 .dst 4] :=
  ⟨by decide, ⟨by decide, by decide⟩, ⟨by decide, by decide⟩, by decide, by decide, by decide, by decide,
    ⟨by decide, by decide⟩, ⟨by decide, by decide⟩⟩

/-- 64 integers, 64 and 64 indices. -/
def tGather : State := withDescs tGrant (tW1 0 64 6) (tW1 0 64 6) (tW1 0 64 10)

theorem wit_permutations :
    tGather.countOf 1 = 64 ∧ tGather.countOf 2 = 64 ∧ (tGather.cx.desc 1).code = (tGather.cx.desc 2).code
    ∧ tGather.isFloat 3 = false ∧ tGather.lenOk 3 64 = true ∧ 64 % 64 = 0 ∧ 64 ≤ 4096
    ∧ Usable tGather [{ Use.of 1 .dst 64 with whole := true }, .of 2 .src 64, .of 3 .src (tGather.usedOf 3 64)]
    ∧ Usable tGather [.of 1 .dst 64, { Use.of 2 .src 64 with whole := true }, .of 3 .src (tGather.usedOf 3 64)]
    ∧ Usable tGather [.of 1 .dst 64, .of 2 .src 64, .of 3 .src (tGather.usedOf 3 64)]
    ∧ Usable tGather [.of 1 .dst 64, .of 2 .src 64] :=
  ⟨by decide, by decide, by decide, by decide, by decide, by decide, by decide, ⟨by decide, by decide⟩,
    ⟨by decide, by decide⟩, ⟨by decide, by decide⟩, ⟨by decide, by decide⟩⟩

/-- Chain 0 is one addition of B, and a latch that sums integers. -/
def tChain : State := { tFloats with cx := { tFloats.cx with chains := tFloats.cx.chains.set 0 0x01 } }

theorem wit_chains :
    (let ops := chainOps (tFloats.cx.chain 0)
     ops.any chainReserved = false ∧ ops.any (fun b => chainBinary (b % 16) && b / 16 == 0) = false)
    ∧ (let ops := chainOps (tChain.cx.chain 0)
       ops.any chainReserved = false ∧ ops.any (fun b => chainBinary (b % 16) && b / 16 == 0) = true)
    ∧ (tChain.cx.desc 1).code ≠ 1 ∧ (tChain.cx.desc 2).code ≠ 1 ∧ (tChain.cx.desc 3).code ≠ 1
    ∧ tChain.isFloat 3 = true ∧ tChain.lenOk 3 4 = true
    ∧ Usable tChain [.of 1 .dst 4, .of 2 .src 4, .of 3 .src (tChain.usedOf 3 4)]
    ∧ (tNone.cx.desc 1).count = 0 ∧ (withDescs tGrant (tW1 0 0 2) (tW1 0 4 2) (tW1 0 4 3)).countOf 1 = 0 :=
  ⟨by decide, by decide, by decide, by decide, by decide, by decide, by decide, ⟨by decide, by decide⟩, by decide,
    by decide⟩

/-- Latch 1 keeps a minimum, latch 2 a maximum. -/
def tLatch : State := { tFloats with cx := { tFloats.cx with
  latches := (tFloats.cx.latches.set 1 { op := .min }).set 2 { op := .max } } }

theorem wit_reductions :
    (tLatch.cx.streams.filter (·.vpipe == false)).length < 4 ∧ Usable tLatch [.of 2 .src 4]
    ∧ (∀ ps : BitVec 2, tLatch.suitsLatch (tLatch.cx.latch ps).kind 2 = true) ∧ (tLatch.cx.latch 0).op = .add
    ∧ (tLatch.cx.latch 1).op = .min ∧ (tLatch.cx.latch 2).op = .max ∧ Usable tLatch [.of 1 .dst 1]
    ∧ tLatch.latchBusy 0 = false :=
  ⟨by decide, ⟨by decide, by decide⟩, by decide, by decide, by decide, by decide, ⟨by decide, by decide⟩,
    by decide⟩

/-- Descriptor 4 names accumulator elements from 4,000 on. -/
def tAccDesc : State := { tInts with cx := { tInts.cx with
  descs := tInts.cx.descs.set 4 ⟨mkWord (4000 * 8), tW1 2 64 6⟩ } }

/-- Four streams wait in each of the two queues; latch 0 is named by one of them. -/
def tFull : State :=
  let t : Stream := { id := 1, vpipe := true, op := .vop 18 0, n := 1, issued := 0, lat := 6, groups := 1, left := 1 }
  { tRun with cx := { tCx with
      streams := List.replicate 4 t ++ List.replicate 4 { t with vpipe := false, op := .red 0 0 } } }

theorem wit_fullQueues :
    ¬ (tFull.cx.streams.filter (·.vpipe == true)).length < 4 ∧ ¬ (tFull.cx.streams.filter (·.vpipe == false)).length < 4
    ∧ tFull.latchBusy 0 = true ∧ tFull.latchBusy 1 = false ∧ (tRun.cx.streams.filter (·.vpipe == true)).length < 4
    ∧ (tRun.cx.streams.filter (·.vpipe == false)).length < 4 := by decide

theorem wit_tables :
    (tRun.cx.sreg 1).poison = false ∧ fmtRegLegal (0x1E300700 : BitVec 32) = true
    ∧ ({ w0 := 0x0100000000000000, w1 := tW1 0 4 6 : Desc }).fieldsOk = true
    ∧ ({ w0 := 0x0100000000000000, w1 := tW1 0 4 6 : Desc }).count ≠ 0
    ∧ (tAccDesc.cx.desc 1).kind ≠ 2 ∧ (tAccDesc.cx.desc 4).kind = 2
    ∧ (bitsOf (tAccDesc.cx.desc 4).w0 3 12 : Int) + (95 : Word).toInt ≤ 4095
    ∧ 0 ≤ (bitsOf (tAccDesc.cx.desc 4).w0 3 12 : Int) + (-4000 : Word).toInt
    ∧ (65535 : Word).toNat ≤ 65535 ∧ tRun.latchBusy 3 = false ∧ (2 : BitVec 2) ≠ 3
    ∧ (tRun.cx.latch 0).kind = .fp32
    ∧ 1 ≤ ({ w := .count 1 (some 65535), issued := 0, bound := 1, land := 1 } : Pend).bound := by decide

theorem wit_scaleLoads : ∃ t, exec (.scld 1 7 15) tRun = .next t := ⟨_, rfl⟩

/-! ### The shuttle -/

/-- Plane regions of two FP16 operands, and a flat region of tile elements. -/
def tPlanes : State := withDescs tGrant (tW1 1 64 3) (tW1 1 64 3) (tW1 0 64 2)

/-- A stitch program of 8 words. -/
def tProgram : State := withDescs tGrant (tW1 0 8 11) 0 0

/-- In the weight-stationary flow. -/
def tFlow : State := { tPlanes with cx := { tPlanes.cx with mcfg := { flow := 1 } } }

theorem wit_shuttle :
    tPlanes.shuttleFull = false ∧ ¬ ((0 : BitVec 6) = 1 ∧ tPlanes.cx.mcfg.skew = 0)
    ∧ ¬ ((1 : BitVec 6) = 0 ∧ tPlanes.cx.mcfg.flow = 1)
    ∧ tPlanes.mfmtOk (3 : BitVec 6).toNat (3 : BitVec 6).toNat (formOfBits ((0 : BitVec 6).toNat % 4))
      ((0 : BitVec 6).toNat / 4) = true
    ∧ Usable tPlanes [.of 3 .dst (tPlanes.countOf 3)] ∧ tPlanes.tileRegionOk 3 = true
    ∧ Usable tPlanes [.of 3 .src (tPlanes.countOf 3)]
    ∧ Usable tProgram [.of 1 .src (tProgram.countOf 1)] ∧ (tProgram.cx.desc 1).kind = 0
    ∧ tProgram.fmtOf (tProgram.cx.desc 1).code = .int false 16 ∧ (tProgram.cx.desc 1).stride = 1
    ∧ tProgram.countOf 1 = 8 :=
  ⟨by decide, by decide, by decide, by decide, ⟨by decide, by decide⟩, by decide, ⟨by decide, by decide⟩,
    ⟨by decide, by decide⟩, by decide, by decide, by decide, by decide⟩

/-- Two INT8 operands at precision 8, which the configuration names, and plane regions of them. -/
def tStep : State :=
  let s := withDescs tGrant (tW1 1 64 8) (tW1 1 64 8) (tW1 1 64 8)
  { s with cx := { s.cx with
    mcfg := { fa := 8, fb := 8, form := .i32, p := 8 }, forms := s.cx.forms.set 2 .i32 } }

theorem wit_shuttleSteps :
    Usable tPlanes (tPlanes.stepUses 1 2 1 false)
    ∧ (∀ u ∈ tPlanes.stepUses 1 2 1 false, (tPlanes.cx.desc u.d).kind = 1 ∧ u.n ≤ tPlanes.countOf u.d)
    ∧ (tPlanes.cx.desc 1).code = tPlanes.cx.mcfg.fa ∧ tPlanes.cx.mcfg.flow ≠ 1
    ∧ (tPlanes.cx.desc 2).code = tPlanes.cx.mcfg.fb ∧ tPlanes.formOf 2 = tPlanes.cx.mcfg.form
    ∧ Usable tFlow (tFlow.stepUses 1 0 1 false) ∧ tFlow.cx.mcfg.flow = 1
    ∧ Usable tPlanes [.of 2 .src (tPlanes.countOf 2)] ∧ (tPlanes.cx.desc 2).kind = 1
    ∧ tPlanes.countOf 2 / (64 * (tPlanes.weightShape (tPlanes.countOf 2)).2) = 1
    ∧ 1 * (64 * (tPlanes.weightShape (tPlanes.countOf 2)).2) = tPlanes.countOf 2 :=
  ⟨⟨by decide, by decide⟩, by decide, by decide, by decide, by decide, by decide, ⟨by decide, by decide⟩,
    by decide, ⟨by decide, by decide⟩, by decide, by decide, by decide⟩

/-- The commands of a shuttle step, not started and started, of a zeroing, and a change of the skew. -/
def tMStep : MCmd := { id := 7, owner := 1, badr := 0, started := true
                       kind := .step 2 false 1 .keep 0 (tPlanes.regionOf 1) (some (tPlanes.regionOf 2)) {} }
def tMZero : MCmd := { id := 7, owner := 1, badr := 0, started := true, kind := .zero 7 false 0 .fp32 }
def tMConf : MCmd := { id := 7, owner := 1, badr := 0, kind := .config { skew := 0 } }

/-- One command is in the queue, out of the weight store's refresh window. -/
def withShq (m : MCmd) : State := { tPlanes with cyc := 64, core := { tPlanes.core with shq := [m] } }

/-- A drain whose one group has passed. -/
def tMDrain : MCmd := { id := 7, owner := 1, badr := 0, started := true, beat := 1
                        kind := .drain (tPlanes.regionOf 3) 0 0 false }

theorem wit_shuttleCommands :
    firstWaiting (withShq tMConf).core.shq = some ([], tMConf) ∧ (withShq tMConf).mayStart [] tMConf = true
    ∧ firstWaiting [{ tMStep with started := false }] = some ([], { tMStep with started := false })
    ∧ (withShq { tMStep with started := false }).mayStart [] { tMStep with started := false } = true
    ∧ tMStep.kind.isConfig = false
    ∧ (withShq tMStep).core.shq.find? (fun x => x.started && x.kind.isStep && !x.beatsDone) = some tMStep
    ∧ { tMStep with beat := 64 : MCmd }.beatsDone = true ∧ tMStep.kind.isStep = true
    ∧ tMDrain.kind.region = some (tPlanes.regionOf 3, true) ∧ ((tPlanes.regionOf 3).count + 63) / 64 ≤ tMDrain.beat
    ∧ tMZero.owner = (withShq tMZero).cx.uid ∧ tMZero.started = true
    ∧ (∀ n ∈ tRun.core.charge.toList, n < 4095)
    ∧ ∃ n ∈ { tRun.core with charge := #v[4095, 0, 0, 0, 0] : CoreSt }.charge.toList, 4095 ≤ n :=
  by and_intros <;> decide

/-- A step whose words are taken, and a product of the MAC preset in output-stationary flow without skew. -/
def tMTake : MCmd := { tMStep with
  kind := .step 2 false 1 .take 0 (tPlanes.regionOf 1) (some (tPlanes.regionOf 2)) {} }
def tMProduct : MCmd := { tMStep with
  kind := .step 2 false 1 .keep 0 (tPlanes.regionOf 1) (some (tPlanes.regionOf 2)) { skew := 0 } }

theorem wit_product :
    let cfg : MCfg := { skew := 0 }
    let shape := stepPacking cfg (tPlanes.regionOf 1).fmt
      (stepFmtB (tPlanes.regionOf 1) (some (tPlanes.regionOf 2)) cfg)
    let words := stepWords cfg shape.1 shape.2 1 false .keep (tPlanes.regionOf 1) (some (tPlanes.regionOf 2))
    Unwatched (withShq tMProduct) ∧ tMProduct.owner = (withShq tMProduct).cx.uid ∧ tMProduct.seen = [] ∧ shape.2 = 1
    ∧ cfg.flow = 0 ∧ cfg.sel = 8 ∧ (tPlanes.regionOf 1).scales = none ∧ (tPlanes.regionOf 1).kind = 1
    ∧ (tPlanes.regionOf 2).scales = none ∧ (tPlanes.regionOf 2).kind = 1
    ∧ ∀ w ∈ words 0, (withShq tMProduct).marked (8 * w.1) = false :=
  ⟨by simp [Unwatched, withShq, tPlanes, withDescs, tGrant, tRun, State.reset], by decide, rfl, by decide, rfl, rfl,
    by decide, by decide, by decide, by decide, fun _ _ => rfl⟩

/-- Regions of FP32 elements that a tile is loaded from and drained to. -/
theorem wit_tileCommands :
    let r := tPlanes.regionOf 3
    let s := fun (k : MKind) => withShq { tMStep with kind := k }
    r.scales = none ∧ r.tag = .keep ∧ 1 ≤ r.count ∧ r.count ≤ 4096 ∧ r.kind = 0 ∧ r.stride = 1
    ∧ (r.fmt.width ≤ 8 ∨ r.fmt.width ∈ [16, 32, 64])
    ∧ ∀ k : MKind, Unwatched (s k) ∧ (∀ w, (s k).wsBlocked (8 * w) = false)
      ∧ ∀ i < r.count, ((s k).codeAt r i).1.2 = false := by
  refine ⟨by decide, by decide, by decide, by decide, by decide, by decide, by decide, fun k => ⟨?_, ?_, ?_⟩⟩
  · simp [Unwatched, withShq, tPlanes, withDescs, tGrant, tRun, State.reset]
  · intro w; simp [State.wsBlocked, withShq]
  · intro i _; rfl

theorem wit_beat :
    let cfg : MCfg := {}
    let shape := stepPacking cfg (tPlanes.regionOf 1).fmt
      (stepFmtB (tPlanes.regionOf 1) (some (tPlanes.regionOf 2)) cfg)
    let words := stepWords cfg shape.1 shape.2 1 false .take (tPlanes.regionOf 1) (some (tPlanes.regionOf 2))
    let now := (words 0).map (fun w => (w.1, actMode words tMTake.kind.beats w.1))
    (∀ w ∈ now, (withShq tMTake).wsBlocked (8 * w.1) = false)
    ∧ (∀ w ∈ firstAtBeat words 0 now,
        (withShq tMTake).full (8 * w.1) = true ∧ (withShq tMTake).firstAt tMTake.id w.1 true = true)
    ∧ takenAt words 0 tMTake.kind.beats ≠ [] ∧ tMTake.acted = []
    ∧ (∀ g, (withShq tMTake).scaleBlocked (tPlanes.regionOf 1) g = false)
    ∧ (∀ w, (withShq tMTake).freedFor tMTake.id w = false) ∧ tagged (coreLoc 0 0 0) = true :=
  ⟨fun w _ => by simp [State.wsBlocked, withShq], fun _ _ => ⟨rfl, rfl⟩, by decide +kernel, rfl,
    fun g => by
      simp only [State.scaleBlocked, List.any_eq_false]
      intro x _
      simp [State.wsBlocked, withShq], fun _ => rfl, by decide⟩

/-! ### Commands with a block -/

/-- A block that copies 64 bytes lies at s1's address, in the partition. -/
def tCopy : State :=
  (((withS1 tPriv { val := 0x0100000000000000 }).setWord (coreLoc 0 0 0) 0x0100000000000400).setWord
    (coreLoc 0 0 8) 0x0100000000000800).setWord (coreLoc 0 0 16) 64

/-- The running task holds the partition. -/
def tCopyHeld : State := { tCopy with sched := tGrant.sched }

theorem wit_copyWords :
    tCopyHeld.cx.xq.length < 8 ∧ tCopyHeld.blockHeld 1 64 15 = false
    ∧ tCopyHeld.blockCheck 1 64 = none ∧ (tCopyHeld.cx.sreg 2).poison = false ∧ tCopyHeld.cx.priv = true
    ∧ (CopyReq.block ⟨0, 1, 2, 0, 15⟩ tCopyHeld).2.2 = false
    ∧ tCopyHeld.copyBlockCheck 0 (CopyReq.block ⟨0, 1, 2, 0, 15⟩ tCopyHeld).1 = none := by
  decide +kernel

/-- A copy of 64 bytes under way. -/
def tCpy : CopyCmd :=
  { id := 7, owner := 1, fn := 0, eng := true, die := 0
    blk := [0x0100000000000400, 0x0100000000000800, 64, 0, 0, 0, 0, 0], blkLoc := coreLoc 0 0 0, cls := 15
    accepted := true }

/-- A copy of 64 bytes from global memory, which no table maps. -/
def tCpyGlobal : CopyCmd := { tCpy with blk := [0x1000, 0x0100000000000800, 64, 0, 0, 0, 0, 0], started := true }

/-- It alone is in the engine. -/
def withCopy (c : CopyCmd) : State := { tCopyHeld with cyc := 64, core := { tCopyHeld.core with copies := [c] } }

/-- It has been started, and is paused. -/
def tCpyOn : CopyCmd := { tCpy with started := true }
def tCpyOff : CopyCmd := { tCpyOn with paused := true }

/-- It stands first in its context's queue. -/
def tCpyQueued : State :=
  let s := withCopy { tCpy with accepted := false }
  { s with cx := { s.cx with xq := [7] } }

theorem wit_copyQueue :
    tCpyQueued.cx.xq = [7] ∧ tCpyQueued.copyOf 7 = some { tCpy with accepted := false }
    ∧ (tCpyQueued.core.copies.filter
        (fun x => x.accepted && !x.started && x.engine == { tCpy with accepted := false : CopyCmd }.engine)).length < 32
    ∧ 32 ≤ ((List.replicate 32 tCpy).filter (fun x => x.accepted && !x.started && x.engine == tCpy.engine)).length := by
  decide +kernel

theorem wit_copySteps :
    let u := State.pumpX 8 (withCopy tCpy)
    (withCopy tCpy).copyOf 7 = some tCpy
    ∧ ((u.core.copies.filter (fun x => x.eng == tCpy.eng)).map CopyCmd.engine).eraseDups = [tCpy.engine]
    ∧ u.nextCopy tCpy.engine = some tCpy ∧ u.engineBusy tCpy.engine = false ∧ u.depsDone tCpy.deps = true
    ∧ tCpyGlobal.reading = true ∧ tCpyOn.reading = true
    ∧ ((withCopy tCpyOn).gatherSegment tCpyOn).fault = false ∧ blkStag tCpy.blk = 0 ∧ blkDtag tCpy.blk = 0
    ∧ ((withCopy tCpyOn).gatherSegment tCpyOn).out.any (fun b => !tCpyOn.put.contains (b.loc / 8)) = true
    ∧ ((withCopy tCpyOn).gatherSegment tCpyOn).out.all (fun b => !(withCopy tCpyOn).wsBlocked (8 * (b.loc / 8))
        && (b.src ++ b.aux).all (fun w => !(withCopy tCpyOn).wsBlocked (8 * w))) = true
    ∧ (withCopy tCpyOff).resumable tCpyOff = true ∧ tCpyOff.reading = false ∧ tCpyOff.started = true
    ∧ { tCpyOn with fail := some 2 : CopyCmd }.fail = some 2 ∧ 65535 < 2 ^ 16 ∧ tCpyOn.paused = false
    ∧ { tCpyOn with done := 64 : CopyCmd }.total ≤ 64 ∧ tCpyOn.fail = none ∧ tCpyOn.done < tCpyOn.total := by
  decide +kernel

set_option maxRecDepth 4000 in
theorem wit_copyBytes :
    let g := (withCopy tCpyOn).gatherSegment tCpyOn
    g.out.all (fun b => (g.out.filter (fun x => x.loc == b.loc)).length == 1 && !tCpyOn.put.contains (b.loc / 8)
      && !(withCopy tCpyOn).freedFor tCpyOn.id (b.loc / 8)) = true ∧ g.out.length = 64 := by
  decide +kernel

/-- No buffer forbids it a byte, and no bank of its lines is shut. -/
theorem wit_copyUnnoted : (∀ x l, Unnoted (withCopy tCpyOn) x l)
    ∧ (((withCopy tCpyOn).gatherSegment tCpyOn).lines
        ++ hbmLines ((withCopy tCpyOn).gatherSegment tCpyOn).out).all (fun l => !(withCopy tCpyOn).hbmShut l) = true :=
  ⟨fun _ _ => ⟨rfl, fun _ h => absurd h List.not_mem_nil⟩, by decide +kernel⟩

set_option maxRecDepth 4000 in
theorem wit_copyFault : ((withCopy tCpyGlobal).gatherSegment tCpyGlobal).fault = true := by
  decide +kernel

/-- Its block describes an all-reduce of 16 FP32 elements of group 5, number 1. -/
def tPostBlk : List Word :=
  [0x400, 5, 1, 0x0100000000000400, 0x0100000000000800, 16, 0, 0, 0, 1000, 0, 0]

/-- Words from a location on. -/
def withWords (s : State) (loc : Nat) : List Word → State
  | [] => s
  | w :: l => withWords (s.setWord loc w) (loc + 8) l

/-- The block lies at s1's address. -/
def tPosted : State :=
  let s := withWords tNear (coreLoc 0 0 0) tPostBlk
  { s with sched := tGrant.sched }

set_option maxRecDepth 4000 in
theorem wit_fabricWords :
    tPosted.cx.xq = [] ∧ tPosted.blockHeld 1 128 0 = false ∧ tPosted.blockCheck 1 128 = none
    ∧ tPosted.blockAt (tPosted.cx.sreg 1).val 128 = some (coreLoc 0 0 0)
    ∧ tPosted.markedRange (coreLoc 0 0 0) 96 = false ∧ tPosted.markedRange (coreLoc 0 0 0) 24 = false
    ∧ cpostOk (tPosted.blockWords (coreLoc 0 0 0) 12) = true
    ∧ idWordsOk (tPosted.blockWords (coreLoc 0 0 0) 3) = true
    ∧ tPosted.coll? (cId (tPosted.blockWords (coreLoc 0 0 0) 3)) = none
    ∧ tPosted.blockHeld 1 64 0 = false ∧ tPosted.blockCheck 1 64 = none
    ∧ tPosted.blockAt (tPosted.cx.sreg 1).val 64 = some (coreLoc 0 0 0)
    ∧ tPosted.markedRange (coreLoc 0 0 0) 32 = false
    ∧ (tPosted.fab.tsends.filter (·.entered)).length < 256 := by decide

theorem wit_nextIdUnused : NextIdUnused tPosted ∧ tPosted.cx.xq.length < 8 ∧ tPosted.coll.hoop = []
    ∧ cpostOk [] = false ∧ (tPosted.fab.tsends.filter TSend.inTable).length < 256 :=
  ⟨⟨by decide, by decide, by decide⟩, by decide, by decide, by decide, by decide⟩

/-- A timed send of 128 bytes to the window onto rank 0 waits for its time. -/
def tSend : TSend :=
  { id := 7, owner := 1, blkLoc := coreLoc 0 0 0, dest := 0x0180000000000000, from_ := 0x0100000000000000
    bytes := 128, slack := 10, notbefore := 100, cls := 0, entered := true }

/-- It is alone in the table, at a time. -/
def withSend (c : TSend) (now : Nat) : State :=
  { tWindow with ftime := now, fab := { tWindow.fab with tsends := [c] } }

theorem wit_timedSends :
    let off := { tSend with dest := 0x0100000000000000 }
    (withSend tSend 99).fab.tsends.find? (fun t => t.id == 7) = some tSend
    ∧ tSend.entered = true ∧ tSend.failed = false ∧ tSend.departed = none
    ∧ (withSend tSend 99).ftime < tSend.notbefore ∧ tSend.notbefore ≤ (withSend tSend 100).ftime
    ∧ (withSend tSend 100).depsDone tSend.deps = true
    ∧ (withSend tSend 100).locate tSend.dest = .ok (.window 0 0 (coreLoc 0 0 0)) ∧ tSend.bytes ≤ 4096
    ∧ (withSend off 100).locate off.dest = .ok (.near (coreLoc 0 0 0))
    ∧ tSend.unanswered = [] ∧ { tSend with failed := true : TSend }.failed = true
    ∧ { tSend with departed := some 100 : TSend }.departed ≠ none
    ∧ { tSend with departed := some 100, unanswered := [3] : TSend }.unanswered ≠ [] := by decide

/-! ### Batches, barriers, posts -/

/-- A shuttle command of the open batch is under way. -/
def tBatch : State := { tRun with cx := { tCx with cmds := [{ id := 7, tok := 0, eng := 0 }] } }

/-- Every id is held, every id has failed, id 0 has failed. -/
def tHeld : State := { tRun with cx := { tCx with batches := Vector.replicate 8 (.held 3) } }
def tErrs : State := { tRun with cx := { tCx with batches := Vector.replicate 8 (.error 2 0x17) } }

theorem wit_batches :
    lowestFree tBatch.cx.batches = some 0 ∧ (∃ c ∈ tBatch.cx.cmds, c.tok = tBatch.cx.openTok ∧ c.done = false)
    ∧ lowestFree tHeld.cx.batches = none ∧ tHeld.cx.batches[(7 : Fin 8)] = .held 3
    ∧ lowestFree tErrs.cx.batches = none ∧ (∀ k : Fin 8, tErrs.cx.batches[k] = .error 2 0x17)
    ∧ ((withS1 tRun { val := 7 }).cx.sreg 1).val.toNat < 8 ∧ tRun.batchOf 7 = .free
    ∧ tHeld.batchOf 7 = .held 3 ∧ tErrs.batchOf 7 = .error 2 0x17
    ∧ 8 ≤ ((withS1 tRun { val := 8 }).cx.sreg 1).val.toNat ∧ lowestFree tRun.cx.batches = some 0
    ∧ (∀ c ∈ tRun.cx.cmds, c.tok = tRun.cx.openTok → c.done = true ∧ c.err = none)
    ∧ ((withS1 tRun { poison := true }).cx.sreg 1).poison = true := by decide

/-- Barrier 2 of the core is the task's barrier 0, of 2 arrivals. -/
def withBar (b : Barrier) : State :=
  { tRun with cx := { tCx with task := { barriers := [2] } }, core := { tRun.core with bars := [(2, b)] } }
def tBar : Barrier := { holder := some 1, number := 0, conf := some (3, 2) }

theorem wit_barriers :
    (withBar tBar).core.control = false ∧ (withBar tBar).barNum 0 = some 2 ∧ (withBar tBar).bar 2 = tBar ∧ barcfgOk 0x203 = true
    ∧ tBar.pending = false ∧ tBar.completed = false ∧ tBar.conf = some (3, 2)
    ∧ (withBar { tBar with pending := true }).depsDone [] = true ∧ tBar.arrivals + 1 < 2
    ∧ 2 ≤ { tBar with arrivals := 1 : Barrier }.arrivals + 1 ∧ tBar.releasing = false
    ∧ { tBar with releasing := true : Barrier }.releasing = true ∧ { tBar with counted := true : Barrier }.counted = true
    ∧ tBar.counted = false ∧ { tBar with completed := true : Barrier }.completed = true
    ∧ tBar.doneAt + (withBar tBar).deliveryTime { tBar with span := 3 : Barrier }.span ≤ 90
    ∧ 89 < tBar.doneAt + (withBar tBar).deliveryTime 3
    ∧ { tBatch with core := (withBar { tBar with pending := true, deps := [9] }).core
                    cx := { tCx with accs := [{ tTagq with id := 9 }] } : State }.depsDone [9] = false := by decide

theorem wit_posts : tRun.queuedPosts < 256 ∧ ((withS1 tRun { val := 0x40 }).cx.sreg 1).val.toNat % 64 = 0
    ∧ ((withS1 tRun { val := 0x01FFFFFFFFFFFFC0 }).cx.sreg 1).val.toNat < 2 ^ 57 := by decide

/-! ### Memories and streams -/

/-- One access is in its queue, alone; the word of the partition it goes to is full or empty. -/
def withAcc (k : AccKind) : State :=
  { tNear with cx := { tNear.cx with accs := [{ id := 9, kind := k, cls := 0, addr := 0x0100000000000000
                                                loc := coreLoc 0 0 0, size := 8, lq := some 9, begun := true }] } }
def withAccEmpty (k : AccKind) : State := { withAcc k with empties := [coreLoc 0 0 0 / 8] }

theorem wit_performs :
    let loc := coreLoc 0 0 0
    ∀ k : AccKind,
      ((withAcc k).accOf 9).map (·.kind) = some k ∧ ((withAcc k).accOf 9).map (·.loc) = some loc
      ∧ ((withAcc k).accOf 9).map (·.begun) = some true
      ∧ (withAcc k).wsBlocked loc = false ∧ whereLoc loc ≠ .hbm ∧ (withAcc k).hotRange (some (1, 9)) loc 8 = false
      ∧ (∀ l, Unnoted (withAcc k) (some (1, 9)) l)
      ∧ ((withAcc k).accOf 9).map (·.merged) = some []
      ∧ (∀ full, (withAcc k).firstAt 9 (loc / 8) full = true)
      ∧ (withAcc k).full loc = true ∧ (withAccEmpty k).full loc = false ∧ tagged loc = true
      ∧ (withAcc k).marked loc = false ∧ ({ withAcc k with marks := [loc / 64] } : State).marked loc = true :=
  fun _ => ⟨rfl, rfl, rfl, rfl, by decide, rfl, fun _ => ⟨rfl, fun _ h => absurd h List.not_mem_nil⟩, rfl, fun _ => rfl,
    rfl, rfl, rfl, rfl, rfl⟩

/-- Another operation is first at the word. -/
theorem wit_notFirst : ({ withAcc (.read .take) with
    core := { tNear.core with parked := [⟨coreLoc 0 0 0 / 8, 1, 8, true⟩] } } : State).firstAt 9
      (coreLoc 0 0 0 / 8) true = false := by decide

/-- A load of HBM, and a store that has begun, at a stage of their bank. -/
def tHbmLoad (g : BankStage) : Acc :=
  { id := 9, kind := .read .keep, cls := 0, addr := 8, loc := hbmLoc 0 8, size := 8, lq := some 9, bank := g }

theorem wit_hbmAccess :
    (∀ g, ({ tNear with cx := { tNear.cx with accs := [tHbmLoad g] } } : State).accOf 9 = some (tHbmLoad g))
    ∧ whereLoc (tHbmLoad .before).loc = .hbm ∧ (tHbmLoad .before).isRead = true
    ∧ { tHbmLoad .queued with kind := .write .keep [5], begun := true : Acc }.begun = true
    ∧ (tHbmLoad .served).bank = .served ∧ tNear.wsBlocked (tHbmLoad .served).loc = false :=
  ⟨fun g => by cases g <;> decide, by decide⟩

theorem wit_begins :
    let a : Acc := { id := 9, kind := .write .keep [], cls := 0, addr := 0, loc := 0, size := 8 }
    let b : Acc := { id := 10, kind := .atom 0 1 0 false, cls := 0, addr := 0, loc := 0, size := 8 }
    let s : State := { tNear with cyc := 64, cx := { tNear.cx with accs := [a, b] } }
    s.entryOf 9 = some a ∧ s.entryOf 10 = some b ∧ a.opened + a.kind.window ≤ 64 ∧ b.opened + b.kind.window ≤ 64
    ∧ s.lineReady a = true ∧ s.lineReady b = false ∧ tNear.cyc < b.opened + b.kind.window := by decide

/-- A load parked at an empty word that has since been filled. -/
def tParked : State :=
  { withAcc (.read .wait) with core := { tNear.core with parked := [⟨coreLoc 0 0 0 / 8, 1, 9, true⟩] } }

theorem wit_wakes :
    let w := coreLoc 0 0 0 / 8
    tParked.core.parked.find? (fun x => x.word == w && x.needFull == tParked.full (8 * w)) = some ⟨w, 1, 9, true⟩
    ∧ (tParked.accOf 9).map (·.loc / 8) = some w ∧ (tParked.accOf 9).map (·.kind) = some (.read .wait)
    ∧ (∀ x ∈ tParked.cx.accs, some x = tParked.accOf 9) ∧ tParked.wsBlocked (coreLoc 0 0 0) = false
    ∧ whereLoc (coreLoc 0 0 0) ≠ .hbm ∧ tParked.hotRange (some (1, 9)) (coreLoc 0 0 0) 8 = false
    ∧ ((withAcc (.write .wait [5])).accOf 9).map (·.begun) = some true
    ∧ tNear.core.parked.find? (fun x => x.word == w && x.needFull == tNear.full (8 * w)) = none := by decide

/-- What waits is a stream, a copy, a shuttle step, or an access of a packet. -/
theorem wit_wakesOthers :
    let w : Waiter := ⟨coreLoc 0 0 0 / 8, 1, 7, true⟩
    let s := { tNear with core := { tNear.core with parked := [w] } }
    let t : Stream := { id := 7, vpipe := true, op := .vop 18 0, n := 1, issued := 0, lat := 6, groups := 1, left := 1 }
    let p : Packet := { id := 4, owner := 1, ids := [7], kind := .line [some 7], rank := 0, pkg := 0, targets := [0]
                        loc := coreLoc 0 0 0, cls := 0, seq := 0, win := 0, counted := true, slack := 5, entry := 0
                        stage := .accepted }
    s.core.parked.find? (fun x => x.word == w.word && x.needFull == s.full (8 * w.word)) = some w
    ∧ (∀ a ∈ s.cx.accs, a.id ≠ w.id) ∧ [t].any (fun t => t.id == w.id) = true
    ∧ [tCpyOn].any (fun c => c.id == w.id) = true ∧ [tMStep].find? (fun m => m.id == w.id) = some tMStep
    ∧ s.core.shq.find? (fun m => m.id == w.id) = none
    ∧ [p].find? (fun p => p.ids.contains w.id && p.stage == .accepted) = some p := by decide

theorem wit_elements : (tInts.regionOf 1).scales = none ∧ (tInts.regionOf 1).fmt = .int true 32 ∧ 1 ≤ 32 ∧ 32 ≤ 64
    ∧ { tInts.regionOf 1 with fmt := .int false 16 : Region }.fmt = .int false 16 := by
  decide

/-- A sum of two groups, with no tag mode. -/
def tSum : Stream :=
  { id := 9, vpipe := true, op := .vop 0 0, n := 128, dst := some (tInts.regionOf 1), a := some (tInts.regionOf 2)
    b := some (tInts.regionOf 3), issued := 0, lat := 6, groups := 2, left := 2 }

/-- The stream is alone, out of the weight store's refresh window. -/
def tStreams : State := { tInts with cyc := 64, cx := { tInts.cx with streams := [tSum] } }

theorem wit_groups :
    tStreams.cx.streams.find? (fun x => x.id == 9) = some tSum ∧ tStreams.live = true
    ∧ tStreams.depsDone tSum.deps = true ∧ (tInts.regionOf 1).tag = .keep ∧ (tInts.regionOf 2).tag = .keep
    ∧ (tInts.regionOf 3).tag = .keep ∧ tSum.out = none ∧ tSum.group + 1 < tSum.groups
    ∧ (tInts.regionOf 1).kind ≠ 1 ∧ { tSum with group := 1 : Stream }.groups ≤ 2
    ∧ tSum.dst = some (tInts.regionOf 1) ∧ tSum.scaleBytes tStreams = []
    ∧ tSum.acted = [] ∧ tSum.seen = [] ∧ (tStreams.sourceTags tSum).2.2 = true
    ∧ (∀ x, x ∉ tStreams.fab.tsends) :=
  by and_intros <;> decide

/-- The stream's state is read as it stands: nothing forbids a byte, no value is poisoned, nothing overlaps. -/
theorem wit_groupsRead :
    let v := tStreams.unparkAll 9
    tSum.op = .vop 0 0 ∧ tSum.single = false ∧ tSum.held = [] ∧ tSum.keepA = none ∧ tSum.keepB = none
    ∧ (∀ k, (v.readOpt tSum.a k).2 = v ∧ (v.readOpt tSum.b k).2 = v ∧ (v.readElem (tInts.regionOf 1) k).2 = v)
    ∧ (∀ q, (tSum.a = some q ∨ tSum.b = some q) → ∀ i ∈ tSum.indices,
        (if tSum.op.broadcasts q then broadcastUndefined (tInts.regionOf 1) tSum.n q
          else overlapUndefined (tInts.regionOf 1) tSum.n q (srcIdx (some q) i)) = false)
    ∧ (∀ i ∈ tSum.indices, (v.readOpt tSum.a (srcIdx tSum.a i)).1.2 = false
        ∧ (v.readOpt tSum.b (srcIdx tSum.b i)).1.2 = false ∧ v.scalePoison (tInts.regionOf 1) i = false)
    ∧ (∀ w, tStreams.freedFor 9 w = false) ∧ Safety.NoneOpen tStreams := by
  have hot : ∀ x l, (tStreams.unparkAll 9).hot x l = false := fun _ _ => rfl
  have read : ∀ r : Region, r.kind = 0 → ∀ k, ((tStreams.unparkAll 9).readElem r k).2 = tStreams.unparkAll 9 := by
    intro r h k
    have hc : ((tStreams.unparkAll 9).codeAt r k).2 = tStreams.unparkAll 9 := by
      unfold State.codeAt
      simp only [h]
      simp
    unfold State.readElem
    simp only [hc, hot, List.any_eq_true, Bool.false_eq_true, and_false, exists_false, if_false]
  refine ⟨rfl, rfl, rfl, rfl, rfl, fun k => ⟨?_, ?_, ?_⟩, ?_, ?_, fun _ => rfl, ?_⟩
  · exact read (tInts.regionOf 2) (by decide) k
  · exact read (tInts.regionOf 3) (by decide) k
  · exact read (tInts.regionOf 1) (by decide) k
  · intro q hq
    rcases hq with h | h
    · cases h; decide +kernel
    · cases h; decide +kernel
  · decide +kernel
  · exact fun c h => absurd h (by simp [tStreams, tInts, withDescs, tGrant, tRun, State.reset])

/-- Its destination is not tagged and its first source waits for full words, the first of which is empty. -/
def tSumWaits : Stream := { tSum with a := some { tInts.regionOf 2 with tag := .wait } }

theorem wit_groupsWait :
    let s := { tStreams with cx := { tStreams.cx with streams := [tSumWaits] }, empties := [coreLoc 0 0 2048 / 8] }
    s.cx.streams.find? (fun x => x.id == 9) = some tSumWaits ∧ s.depsDone tSumWaits.deps = true
    ∧ tSumWaits.scaleBytes s = []
    ∧ (tSumWaits.sources s).any (fun e => e.1.tag.waits false && e.2.contains (coreLoc 0 0 2048 / 8)) = true
    ∧ s.full (8 * (coreLoc 0 0 2048 / 8)) = false ∧ (s.sourceTags tSumWaits).2.2 = false
    ∧ (s.sourceTags { tSumWaits with a := tSum.b, b := tSumWaits.a }).2.2 = false := by
  decide +kernel

theorem wit_groupsReach : (∀ e ∈ tSum.sources tStreams, ∀ w ∈ e.2, tStreams.wsBlocked (8 * w) = false)
    ∧ ∀ i, (tInts.regionOf 1).at i % 8 + (tInts.regionOf 1).span ≤ 8 := by
  refine ⟨fun e _ w _ => by simp [State.wsBlocked, tStreams], fun i => ?_⟩
  have h : (tInts.regionOf 1).at i = (coreLoc 0 0 0 + 4 * i) := by
    have hl : (tInts.regionOf 1).loc = coreLoc 0 0 0 := by decide
    have ho : (tInts.regionOf 1).off i = 4 * i := by
      have hk : (tInts.regionOf 1).kind = 0 := by decide
      have hw : (tInts.regionOf 1).fmt.width = 32 := by decide
      have hs : (tInts.regionOf 1).stride = 1 := by decide
      unfold Region.off
      rw [hk, hw, hs]
      norm_num
      omega
    simp only [Region.at, hl, ho]; omega
  have hs : (tInts.regionOf 1).span = 4 := by decide
  have hc : coreLoc 0 0 0 % 8 = 0 := by decide
  omega

/-! ### HBM -/

/-- Bank 15 of pseudo-channel 0, and the channel, at a cycle. -/
def withBank (b : HBank) (c : HChan) (now : Nat) : State :=
  (({ tRun with cyc := now }).setHbank 0 15 b).setHchan 0 c

/-- A bank with row 3 open and a load of that row queued. -/
def tBusy : HBank := { row := some 3, queue := [{ cyc := 5, row := 3, read := true }] }

theorem wit_refreshes :
    let s := withBank tBusy { dues := 15 } 2551
    dueCycle 0 (s.hchan 0).dues = 2550 ∧ 2550 < s.cyc ∧ s.cyc ≤ dueCycle 0 ((s.hchan 0).dues + 1)
    ∧ 2550 ≤ dueCycle 0 ((withBank {} { dues := 15 } 2550).hchan 0).dues
    ∧ (s.hchan 0).post ≠ 8 ∧ (s.hbank 0 15).queue ≠ [] ∧ (s.hchan 0).allStart = none
    ∧ ((withBank {} { dues := 15 } 2551).hbank 0 15).isOpen 2550 = false
    ∧ ((withBank {} { dues := 15 } 2551).hbank 0 15).queue = []
    ∧ ((withBank { row := some 3, last := 2000 } { dues := 15 } 2551).hbank 0 15).isOpen 2550 = true
    ∧ ((withBank tBusy { dues := 15, post := 8 } 2551).hchan 0).post = 8
    ∧ ((withBank tBusy { dues := 15, allStart := some 2306 } 2551).hchan 0).allStart = some 2306 ∧ 2550 < 2306 + 245
    ∧ 2305 + 245 ≤ 2550 ∧ (∀ j < 16, (s.hbank 0 j).busy ≤ 2550) := by decide

theorem wit_hbm :
    let u := (withBank tBusy { dues := 6 } 1000).refreshed 0
    (15 : Nat) < 16 ∧ (u.hbank 0 15).queue = [{ cyc := 5, row := 3, read := true }] ∧ (u.hbank 0 15).refresh ≤ 1000
    ∧ (u.hbank 0 15).busy ≤ 1000 ∧ u.chanClosed 0 = false
    ∧ (∀ j < 16, ¬ ((u.hbank 0 j).last = 1000 ∧ 1000 < (u.hbank 0 j).busy))
    ∧ (∀ j < 15, u.canServe 0 j = false)
    ∧ ((u.hbank 0 15).row = some 3 ∧ 1000 < (u.hbank 0 15).last + 1024)
    ∧ (((withBank tBusy { dues := 6, allStart := some 900 } 1000).refreshed 0).hchan 0).allBank 1000 = true
    ∧ (((withBank tBusy { dues := 7 } 1024).refreshed 0).hbank 0 15).row.isSome = true
    ∧ (((withBank tBusy { dues := 7 } 1024).refreshed 0).hbank 0 15).last + 1024 ≤ 1024
    ∧ (((withBank {} { dues := 6, called := true, allStart := some 900 } 1000).refreshed 0).hchan 0).called = true
    ∧ (((withBank {} { dues := 6, called := true, allStart := some 900 } 1000).refreshed 0).hchan 0).allStart = some 900
    ∧ 900 ≤ 1000 ∧ 755 + 245 ≤ 1000
    ∧ (((withBank { refresh := 9 } { dues := 6 } 1000).refreshed 0).hbank 0 15).refresh = 9 ∧ 0 < 9 ∧ 9 ≤ 1000
    ∧ (7680 % 8192 / 512 = 15 ∧ 7743 % 512 < 64) ∧ 64 ≤ 7744 % 512 := by decide +kernel

theorem wit_refreshSchedule : (15 : Nat) < 16 ∧ 15 % 16 = 15 ∧ dueCycle 0 15 = 10 * (0 % 16) + 2730 * 0 + 170 * 15
    ∧ (14 : Nat) < 15 ∧ (tRun.hchan 0).dues ≤ 0 := by decide

/-! ### Translation, faults, banks -/

theorem wit_walks :
    ((0 : Word).getLsbD 0 = false) ∧ ((0x20000000001 : Word).toNat / 2 ^ 41 ≠ 0)
    ∧ ((3 : Word).getLsbD 0 = true ∧ (3 : Word).toNat / 2 ^ 41 = 0 ∧ (3 : Word).getLsbD 1 = true ∧ 3 ≤ 3)
    ∧ (1 : Word).getLsbD 1 = false ∧ (4 : Nat) ≠ 0
    ∧ ((0x1003 : Word).getLsbD 1 = true ∧ (0x1003 : Word).toNat / 2 ^ 12 % 2 ^ 29 % 2 ^ (9 * 2) ≠ 0)
    ∧ (0x1003 : Word).toNat / 2 ^ 12 % 2 ^ 29 % 2 ^ (9 * 0) = 0 ∧ (0x1003 : Word).getLsbD 2 = false
    ∧ (0x1007 : Word).getLsbD 2 = true ∧ (0x1007 : Word).getLsbD 3 = false ∧ (0x100F : Word).getLsbD 3 = true := by
  decide

/-- A load of address 8 is held for its translation, at a stage. -/
def tHold (w : Walk) (r : WalkResult) : Replay :=
  { acc := { id := 9, kind := .read .keep, cls := 0, addr := 8, loc := 0, size := 8, lq := some 9 }, lds := false
    badr := 0, words := [0x64000000], slot := 0, walk := w, result := r }
def withReplay (s : State) (w : Walk) (r : WalkResult) : State :=
  { s with cx := { s.cx with replay := some (tHold w r) } }

/-- The shared TLB holds page 0; a level-0 entry maps it; a level-4 entry names a table. -/
def tShared : State :=
  { tRun with xl := { micro := [], shared := [⟨0, 0, 21, 2 ^ 21, true, true, false, true⟩], walks := [] } }
def tLeaf : State := tRun.setWord (hbmLoc 0 4096) 0x200F
def tTable : State := tRun.setWord (hbmLoc 0 0) 0x1001

theorem wit_translation :
    let before : Walk := ⟨8, 0, 0, false, false, false, 4, 0⟩
    let walk : Walk := ⟨8, 0, 0, false, false, true, 4, 0⟩
    let last : Walk := ⟨8, 0, 0, false, false, true, 0, 4096⟩
    (withReplay tShared before .running).live = true ∧ Safety.Alone (withReplay tShared before .running)
    ∧ Safety.Alone (withReplay tTable walk .running)
    ∧ tlbFind tShared.xl.shared before.asid 8 false false = some ⟨0, 0, 21, 2 ^ 21, true, true, false, true⟩
    ∧ tlbFind tRun.xl.shared before.asid 8 false false = none ∧ tRun.xl.walks = []
    ∧ (tHold before .running).ctl = .seq ∧ before.shared = false ∧ walk.shared = true
    ∧ tTable.marked (hbmLoc 0 0) = false
    ∧ walkDecide (tRun.word (hbmLoc 0 0)) 4 false false = .fault 0
    ∧ walkDecide (tTable.word (hbmLoc 0 0)) 4 false false = .table 4096
    ∧ tableIndex 8 4 = 0 ∧ tableIndex 8 0 = 0 ∧ last.entry = 4096
    ∧ walkDecide (tLeaf.word (hbmLoc 0 4096)) 0 false false = .leaf 0x200F ∧ (0x200F : Word).getLsbD 7 = false
    ∧ ({ tRun with marks := [hbmLoc 0 0 / 64] } : State).marked (hbmLoc 0 0) = true
    ∧ tRun.walkStart walk.root walk.asid 8 = (4, 0)
    ∧ [(walk.asid, 1, walkTag 8 1, 4096)].find? (fun e => e.1 == walk.asid
        && e.2.1 == 1 && e.2.2.1 == walkTag 8 1) = some (walk.asid, 1, walkTag 8 1, 4096)
    ∧ { tHold walk .running with lds := true : Replay }.lds = true ∧ (tHold walk .running).lds = false :=
  ⟨by decide, ⟨by decide, by decide, by decide, by decide⟩, ⟨by decide, by decide, by decide, by decide⟩, by decide⟩

theorem wit_heldCauses :
    tRun.causeHeld .seq = false ∧ (tHold ⟨8, 0, 0, false, false, true, 0, 0⟩ (.fault 0)).ctl = .seq
    ∧ { tHold ⟨8, 0, 0, false, false, true, 0, 0⟩ .machine with ctl := .deferTrap 10 7 : Replay }.ctl = .deferTrap 10 7
    ∧ tHand.cx.pend = [] ∧ tHand.cx.thand ≠ 0 ∧ tHand.cx.tcause.getLsbD 10 = false := by decide

/-- A context held with its fault. -/
def tFaulted : State := { tRun with cxSt := .held, cx := { tCx with fault := some { cause := 16 } } }

/-- An illegal word stands at the fetch address. -/
def tIllegal : State := State.reset.withFetchWord 32 0x2C000000

theorem wit_faults :
    tFaulted.cxSt = .held ∧ tFaulted.cx.fault.isSome = true ∧ tFaulted.cx.stop = none ∧ tFaulted.shSt ≠ .ready
    ∧ tRun.cxSt ≠ .held ∧ { tCx with fault := some { cause := 16 } : Ctx }.fault.isSome = true
    ∧ ({ tRun with shSt := .held, sh := { tCx with fault := some { cause := 16 } } } : State).sh.stop = none
    ∧ [(0x1000, { tCx with fault := some { cause := 16 } })].find? (fun e : Nat × Ctx => e.2.fault.isSome)
      = some (0x1000, { tCx with fault := some { cause := 16 } })
    ∧ { tCx with tlbWait := some [9] : Ctx }.tlbWait = some [9] ∧ tRun.depsDone [9] = true ∧ tRun.live = true
    ∧ (∀ x ∈ tRun.openSegs, x ∉ tRun.cx.tlbSegs) ∧ (withAcc (.read .keep)).depsDone [9] = false
    ∧ savedReg tRun.cx.task.regsN 1 = true ∧ tIllegal.live = true ∧ tIllegal.mustWait = false
    ∧ (tIllegal.enterBundle ((tIllegal.runAt 7 tIllegal.cx.pc).filterMap (fun x => x))).issueTrap
      = some ⟨1, mkWord 0x2C000000⟩ := by decide

/-- The other bank's context waits, and a save area of it is mapped, or is not. -/
def tWaits (st : BankSt) : State :=
  { tShared with cyc := 9, sh := { tCx with uid := 2, ctxsave := 0x1000, task := { accsN := 0 } }, shSt := st }
def tUnmapped : State := { tRun with cyc := 9, sh := { tCx with uid := 2, ctxsave := 0x1000 }, shSt := .spilling }

/-- It is being spilled, or filled. -/
def tSpills (s : State) : State := { s with core := { s.core with spilling := some 9 } }
def tFills : State := { tWaits .filling with core := { tRun.core with filling := some 9 } }

theorem wit_banks :
    ({ tWaits .ready with cxSt := .held } : State).cx.stop = none ∧ tRun.host.off = false
    ∧ (tWaits .ready).core.spilling = none ∧ (tWaits .ready).core.filling = none
    ∧ (tWaits .ready).emergOcc = false ∧ (tWaits .ready).answered (tWaits .ready).sh = true
    ∧ (tSpills (tWaits .spilling)).spillDue = true
    ∧ (tSpills (tWaits .spilling)).spillBank = some ((tWaits .spilling).sh, false)
    ∧ ({ tWaits .empty with cxSt := .held } : State).maySpill (tWaits .empty).shSt (tWaits .empty).sh = false
    ∧ (tWaits .empty).answered (tWaits .empty).cx = true ∧ (∀ m ∈ tRun.core.shq, m.started = false)
    ∧ ({ tWaits .ready with cxSt := .empty } : State).cxSt = .empty ∧ (9 : Nat) ≤ tFills.cyc
    ∧ ({ tRun with core := { tRun.core with saved := [(0x1000, tCx)] } } : State).core.saved.find?
      (fun e => e.1 == 0x1000) = some (0x1000, tCx)
    ∧ tRun.inEmergency 0x1000 = false ∧ tRun.answered tCx = true
    ∧ (∀ e ∈ tRun.sched.evicted, e.grant.launch ≠ tCx.task.launch) ∧ tRun.shSt = .empty
    ∧ tFills.core.filling = some 9 ∧ tFills.shSt = .filling ∧ tFills.sh.fault = none ∧ tFills.sh.stop = none := by
  decide

theorem setWord_xl (s : State) (loc : Nat) (w : Word) : (s.setWord loc w).xl = s.xl := by
  suffices h : ∀ (l : List Byte) (s : State) (loc : Nat), (s.setBytes loc l).xl = s.xl from h _ s loc
  intro l
  induction l with
  | nil => intro s loc; rfl
  | cons b t ih => intro s loc; exact (ih _ _).trans rfl

theorem writeArea_mapped (c : Ctx) : ∀ (l : List (Nat × Word)) (s : State),
    l.all (fun x => (tlbFind s.xl.shared c.asid.toNat (c.ctxsave + mkWord x.1) true true).isSome) = true →
    (s.writeArea c l).2 = none
  | [], _, _ => rfl
  | (o, w) :: t, s, h => by
    simp only [List.all_cons, Bool.and_eq_true] at h
    obtain ⟨e, he⟩ := Option.isSome_iff_exists.1 h.1
    simp only [State.writeArea, State.translate, he]
    exact writeArea_mapped c t _ (by rw [setWord_xl]; exact h.2)

theorem wit_spillMapped : ((tSpills (tWaits .spilling)).spillAttempt (tWaits .spilling).sh false).2 = none :=
  writeArea_mapped _ _ _ (by decide +kernel)

theorem wit_spillUnmapped : ((tSpills tUnmapped).spillAttempt tUnmapped.sh false).2 = some .page := by
  decide +kernel

/-- What a fill reads of the save area. -/
def tArea (s : State) : State × List (Nat × Word) × Bool × Option AreaStop :=
  ({ s with core := { s.core with filling := none } } : State).readArea s.sh s.sh.areaOffsets

theorem wit_fill :
    (tArea tFills).2.2.2 = none ∧ (tArea tFills).2.2.1 = false
    ∧ (areaWordAt (tArea tFills).2.1 32).getLsbD 1 = false := by decide +kernel

/-- The reserved words of an area may stand as its spill left them. -/
theorem wit_areaKept (c : Ctx) : ∃ w, c.areaKept w = true := by
  refine ⟨fun o => Config.freeWord (c.areaFv + hiddenOffsets.idxOf o), ?_⟩
  have h : ∀ e ∈ hiddenOffsets.zipIdx, hiddenOffsets.idxOf e.1 = e.2 := by decide +kernel
  simp only [Ctx.areaKept, List.all_eq_true, beq_iff_eq]
  exact fun e he => by rw [h e he]

/-- The firmware has set kill; a line of the area is marked; the area is not mapped. -/
theorem wit_fillStops :
    let kill := tFills.setWord (hbmLoc 0 (2 ^ 21 + 0x1020)) 2
    let mark := { tFills with marks := [hbmLoc 0 (2 ^ 21 + 0x1000) / 64] }
    ((tArea kill).2.2.2 = none ∧ (tArea kill).2.2.1 = false ∧ (areaWordAt (tArea kill).2.1 32).getLsbD 1 = true)
    ∧ ((tArea mark).2.2.2 = none ∧ (tArea mark).2.2.1 = true)
    ∧ (tArea { tFills with xl := tRun.xl }).2.2.2 = some .page := by decide +kernel

theorem wit_fillHeld :
    let s := { tFills with sh := { tFills.sh with fault := some { cause := 16 } } }
    s.sh.fault.isSome = true ∧ (areaWordAt (tArea s).2.1 32).getLsbD 0 = false
    ∧ { tFills.sh with stop := some 3 : Ctx }.stop.isSome = true ∧ tFills.sh.stop = none := by
  decide +kernel

/-! ### The pricking -/

/-- A node of one task at an address that no page maps, waiting for its image. -/
def tNode : Node := { addr := 0x40, gen := 1, code := 0x1000, args := 7 }

/-- The firmware runs with its nodes, images and reports; the core is empty. -/
def withNodes (l : List Node) (im : List Image) : State :=
  { State.reset with
    host := { State.reset.host with boot := 2 }
    sched := { State.reset.sched with
      nodes := l, images := im, reports := [(0, ⟨true, true, 32, 32, 512, false⟩)] } }

/-- Pages 0 to 511 are in the shared TLB, and an image without code begins at 0x1000. -/
def tImage : State :=
  let s := withNodes [tNode] []
  withWords { s with xl := tShared.xl } (hbmLoc 0 (2 ^ 21 + 0x1000)) [mkWord (0x4F514B31 + 2 ^ 40), 0x45, 0, 0, 0, 0]

/-- The image, loaded and ready. -/
def tIm : Image :=
  { addr := 0x1000, asid := 0, regs := 5, accs := 1, barriers := 0, yieldwin := 0, scratch := 0, quadscratch := 0
    lifetime := 1000000, codeLen := 0, ready := true, id := 1 }

theorem wit_posts2 :
    let p : Post := { addr := 0x80, priv := true, level := 3 }
    let s := { tFirm with sched := { tFirm.sched with posts := [p], nodes := [tNode] } }
    s.firmware = true ∧ s.enterPosts.sched.posts.find? (·.entered) = some { p with entered := true } ∧ p.mail = none
    ∧ (s.nodeAt 0x40).any (fun n => !n.finished) = true ∧ (s.nodeAt 0x80).any (fun n => !n.finished) = false
    ∧ 0x48 % 64 ≠ 0 ∧ 0x80 % 64 = 0 ∧ s.full (s.mailLoc 63) = true
    ∧ ({ s with empties := [s.mailLoc 63 / 8] } : State).full (s.mailLoc 63) = false := by decide

theorem wit_nodes :
    let s := withNodes [tNode] []
    s.firmware = true ∧ s.nodeOf 1 = some tNode ∧ tNode.kind = 0 ∧ tNode.loaded = false ∧ tNode.load = none
    ∧ tNode.finished = false ∧ (∀ m ∈ s.sched.images, ¬ (m.addr = tNode.code ∧ m.asid = tNode.asid))
    ∧ tNode.st = 1 ∧ tNode.preds = 0 ∧ { tNode with load := some 0 : Node }.load = some 0
    ∧ { tNode with load := some 5 : Node }.load = some 5 ∧ tNode.succs = []
    ∧ { tNode with st := 3 : Node }.failed = none ∧ { tNode with st := 3, ended := 1 : Node }.total ≤ 1
    ∧ { tNode with st := 3 : Node }.ended < { tNode with st := 3 : Node }.total
    ∧ { tNode with failed := some 8, next := 1 : Node }.next ≤ 1 ∧ (∀ p ∈ s.sched.posts, p.requeue ≠ some 1) := by
  decide

theorem wit_imageAbsent : ((withNodes [tNode] []).tryImage tNode).1 = .inl 1 := by decide +kernel

theorem wit_imageLoads : ∃ im, (tImage.tryImage tNode).1 = .inr im :=
  Sum.isRight_iff.mp (by decide +kernel)

/-- An operation record of three distances. -/
def tRec (da db dc : Nat) (i : Instr) : Word :=
  mkWord (da * 2 ^ 52 + db * 2 ^ 42 + dc * 2 ^ 32 + ((encode false i).getD 0).toNat)

/-- A Chroner list: a literal 5; a label with a join of it and of the sum; the sum of the join and the task's s1; a
branch back to the label; an end. -/
def tRecs : List Word :=
  [mkWord (2 ^ 62 + 5), mkWord (2 ^ 63), mkWord (3 * 2 ^ 62 + 2 * 2 ^ 52 + 1023 * 2 ^ 42)
   , tRec 1 4 0 (.add 0 0 0), tRec 0 0 0 (.br 0 0 (-3)), tRec 0 0 0 .endTask]

/-- What a finalizer may answer for it, with words of its choice. -/
def tFinal (l : List Instr) : Finalized :=
  let start := startAccount.holds
  { code := l.flatMap (fun i => bytesOfNat 4 ((encode false i).getD 0).toNat)
    does := [none, some 3, some 4, some 5], labels := [(1, 1)]
    accounts := [(0, ⟨start, []⟩), (1, ⟨start ++ [⟨6, .record 2, 0⟩], []⟩), (2, ⟨start ++ [⟨6, .record 3, 0⟩], []⟩)
      , (3, ⟨start ++ [⟨6, .record 3, 0⟩], []⟩)] }

/-- 21 R314 to R316: the list is accepted; a code that carries the sum in s6 round the loop keeps it, one that adds
another register, expands another constant or branches elsewhere does not; its highest register is s6. -/
theorem test_chroner : chronerOk 1 0 tRecs = true
    ∧ (tFinal [.movi 6 5, .add 6 6 1, .br 0 0 (-1), .endTask]).keeps tRecs = true
    ∧ (tFinal [.movi 6 5, .add 6 6 2, .br 0 0 (-1), .endTask]).keeps tRecs = false
    ∧ (tFinal [.movi 6 4, .add 6 6 1, .br 0 0 (-1), .endTask]).keeps tRecs = false
    ∧ (tFinal [.movi 6 5, .add 6 6 1, .br 0 0 0, .endTask]).keeps tRecs = false
    ∧ highestReg (tFinal [.movi 6 5, .add 6 6 1, .br 0 0 (-1), .endTask]).words = 6 := by decide +kernel

/-- 21 R314: an operation that names a label, or a register by its field, is refused. -/
theorem test_chronerRefused : chronerOk 1 0 [mkWord (2 ^ 63), tRec 1 0 0 (.addi 0 0 0)] = false
    ∧ chronerOk 1 0 [tRec 0 0 0 (.addi 6 0 0)] = false := by decide +kernel

/-- 21 R316, R319: the plain finalization keeps the list, in few registers. -/
theorem test_plainFinal : (planOf tRecs).fits = true ∧ (plainFinal tRecs).keeps tRecs = true
    ∧ highestReg (plainFinal tRecs).words ≤ 60 := by decide +kernel

/-- An image of Chroner records is loaded, whatever its finalizer answers. -/
theorem wit_form1 : loadImage 0 0 1 [mkWord (0x4F514B31 + 2 ^ 32 + 2 ^ 40), 0x45, 0, 0, 0, 0] [] 0 [] ≠ none := by
  have h : ¬ bitsOf (mkWord (0x4F514B31 + 2 ^ 32 + 2 ^ 40)) 32 8 = 0 := by decide
  intro e
  unfold loadImage at e
  dsimp only at e
  rw [if_neg (by exact h), if_neg (by decide)] at e
  have e2 : finalized [] [] = none := by
    split at e <;> simpa using e
  unfold finalized at e2
  dsimp only at e2
  split at e2
  · simp at e2
  · rw [if_pos (by decide)] at e2
    simp at e2

/-- The node is ready, and the core followed is free. -/
def tReadyNode : Node := { tNode with st := 2, loaded := true, load := some 0, image := some 1 }
def tPlace : State := withNodes [tReadyNode] [tIm]

theorem wit_placement :
    tPlace.firmware = true ∧ tPlace.core.control = false
    ∧ (tPlace.noteClaimants.placeOrder.findSome? tPlace.noteClaimants.placementOf).isSome = true
    ∧ (withNodes [] []).noteClaimants.placeOrder.findSome? (withNodes [] []).noteClaimants.placementOf = none
    ∧ (17 : Nat) ≠ tPlace.coreid ∧ (⟨false, false, 0, 0, 0, false⟩ : CoreReport).free = false
    ∧ (⟨true, true, 0, 0, 0, false⟩ : CoreReport).free = true
    ∧ { (⟨false, false, 0, 0, 0, false⟩ : CoreReport) with ended := true }.ended = true := by decide +kernel

theorem wit_placementHere :
    tPlace.noteClaimants.placeOrder.findSome? tPlace.noteClaimants.placementOf
      = some (.task tReadyNode tIm tPlace.coreid) := by rfl

/-- An image that declares quad scratch, its launch's partition standing in quad 0. -/
def tImQuad : Image := { tIm with quadscratch := 65536 }
def tPlaceQuad : State :=
  let s := withNodes [tReadyNode] [tImQuad]
  { s with sched := { s.sched with
      grants := [{ quad := true, unit := 0, launch := 1, base := 0, size := 262144 }] } }

theorem wit_placementQuad : granules true tIm.quadscratch = 0 ∧ granules true tImQuad.quadscratch ≠ 0
    ∧ tPlaceQuad.noteClaimants.placeOrder.findSome? tPlaceQuad.noteClaimants.placementOf
      = some (.task tReadyNode tImQuad tPlaceQuad.coreid) := ⟨by decide, by decide, by rfl⟩

/-- Core 17 alone is reported, and a copy node is ready. -/
def tPlaceAway : State :=
  { tPlace with sched := { tPlace.sched with reports := [(17, ⟨true, true, 32, 32, 512, false⟩)] } }
def tPlaceCopy : State := withNodes [{ tReadyNode with kind := 1 }] []

theorem wit_placementElsewhere :
    tPlaceAway.noteClaimants.placeOrder.findSome? tPlaceAway.noteClaimants.placementOf
      = some (.task tReadyNode tIm 17)
    ∧ tPlaceCopy.noteClaimants.placeOrder.findSome? tPlaceCopy.noteClaimants.placementOf
      = some (.copy { tReadyNode with kind := 1 }) := by
  have h : tPlaceCopy.noteClaimants.copyFits { tReadyNode with kind := 1 } = true := by decide +kernel
  have l : tPlaceCopy.noteClaimants.placeOrder = [{ tReadyNode with kind := 1 }] := by rfl
  refine ⟨by rfl, ?_⟩
  rw [l, List.findSome?_cons, State.placementOf, if_neg (by decide), if_pos h]

theorem wit_taskStart :
    let s := { tRun with cxSt := .ready, cyc := 40 }
    s.cxSt = .ready ∧ s.cx.captured = false ∧ s.cx.uid ≠ 0 ∧ s.cx.task.placed + 40 ≤ s.cyc
    ∧ s.host.off = false := by decide

/-- Two nodes of one level; the second has waited. -/
def tOld : Node := { tReadyNode with gen := 2, readyAt := 0 }
def tClaims : State := { withNodes [tOld, { tReadyNode with readyAt := 1 }] [tIm] with cyc := 2000001 }

theorem wit_claimant :
    tClaims.firmware = true ∧ tClaims.nodeOf 1 = some { tReadyNode with readyAt := 1 }
    ∧ tClaims.oldest (fun m => m.placing && m.prio == 0) = some tOld ∧ tOld.gen ≠ 1
    ∧ 1 + 2 * tClaims.lifetime tOld ≤ tClaims.cyc ∧ tReadyNode.st = 2 ∧ tReadyNode.next = 0 := by decide

/-- The other bank's task holds a partition. -/
def tEvict : State :=
  { tFirm with
    sched := tGrant.sched, shSt := .ready, sh := { tCx with uid := 2, captured := true } }

theorem wit_partitions :
    let g : Grant := { quad := false, unit := 0, launch := 0, base := 0, size := 16384 }
    let e : Evicted := { grant := g, bytes := [(coreLoc 0 0 0, 5)] }
    let s := { tFirm with sched := { tFirm.sched with evicted := [e] } }
    tEvict.firmware = true ∧ tEvict.evictable = some tEvict.sh ∧ tEvict.engaged tEvict.sh = false
    ∧ tEvict.sched.grants.find? (fun g => g.quad == false && g.launch == tEvict.sh.task.launch && g.size != 0
        && (if false then g.unit == tEvict.coreid / 4 && g.base == tEvict.sh.task.quadBase
            else g.unit == tEvict.coreid && g.base == tEvict.sh.task.coreBase) && decide (g.tasks ≤ 1)) = some g
    ∧ s.sched.evicted.find? (fun e => e.grant.quad == false) = some e ∧ s.sched.grants = []
    ∧ Memory.wf e.bytes = true ∧ ∀ x ∈ e.bytes, s.grantLoc g ≤ x.1 ∧ x.1 < s.grantLoc g + g.size := by decide

theorem wit_taskEnds :
    let s := { tRun with
      cx := { tCx with ending := true }
      sched := { tRun.sched with nodes := [{ tNode with gen := 0, st := 3, next := 1 }] } }
    s.live = true ∧ s.cx.ending = true ∧ s.cx.task.node = 0 ∧ s.cx.cmds = [] ∧ s.cx.streams = [] ∧ s.cx.accs = []
    ∧ s.cx.replay = none ∧ (∀ l ∈ s.core.lines, l.owner ≠ s.cx.uid) ∧ (∀ p ∈ s.fab.pkts, p.owner = s.cx.uid → p.counted = false)
    ∧ s.shSt ≠ .ready ∧ tReady.shSt = .ready ∧ tRun.cx.ending = false ∧ (withNodes [{ tNode with st := 3, next := 1 }] []).nodeOf 1
      = some { tNode with st := 3, next := 1 }
    ∧ (∀ m ∈ s.sched.nodes, m.gen = 0 ∧ m.st ≠ 4 ∧ m.st ≠ 5 ∧ m.failed = none)
    ∧ { tNode with st := 3, next := 1 : Node }.ended + (withNodes [] []).ownTasks 1 < 1 := by decide

/-- A task of level 0 runs, a node of level 3 is ready. -/
def tHigh : Node := { tReadyNode with prio := 3 }
def tPreempt : State := { withNodes [tHigh] [tIm] with cx := tCx, cxSt := .running }

theorem wit_preemption : tPreempt.firmware = true
    ∧ tPreempt.noteClaimants.preemption = some (tHigh, tIm, tPreempt.coreid) ∧ tPreempt.core.control = false
    ∧ tPreempt.oldest (fun n => n.placing && n.kind == 0 && n.next == 0 && n.prio == 3) = some tHigh :=
  ⟨by decide, by rfl, by decide, by decide +kernel⟩

/-- A task of level 0 was placed on core 17, which the report says is not free. -/
def tPreemptAway : State :=
  { tPreempt with sched := { tPreempt.sched with
      placed := [{ core := 17, level := 0, at_ := 5 }], reports := [(17, ⟨false, true, 32, 32, 512, false⟩)] } }

theorem wit_preemptionElsewhere : tPreemptAway.noteClaimants.preemption = some (tHigh, tIm, 17) := by rfl

/-- The pre-empting task's context waits in the other bank. -/
def tYields : State :=
  { tPreempt with
    sh := { tCx with uid := 2, task := { node := 1 } }, shSt := .ready, cyc := 11
    core := { tPreempt.core with yieldReq := some (0, 10) }
    sched := { tPreempt.sched with
      nodes := [{ tHigh with st := 3, next := 1 }], reports := [(7, ⟨true, true, 32, 32, 512, false⟩)] } }

theorem wit_yields :
    ({ tPreempt with sched := { tPreempt.sched with victim := some 1 } } : State).sched.victim = some tPreempt.cx.uid
    ∧ { tYields with cxSt := .held, cx := { tYields.cx with stop := some 3 } : State }.cx.stop.isSome = true
    ∧ tYields.yieldHeld = false ∧ tYields.core.yieldReq = some (0, 10) ∧ tYields.cxSt = .running ∧ tYields.host.off = false ∧ 10 < tYields.cyc
    ∧ tYields.shSt = .ready ∧ ({ tYields with cyc := 10 } : State).cyc ≤ 10 ∧ tYields.sh.captured = false
    ∧ tYields.nodeOf tYields.sh.task.node = some { tHigh with st := 3, next := 1 }
    ∧ tYields.imageOf { tHigh with st := 3, next := 1 } = some tIm
    ∧ tYields.fitCore { tHigh with st := 3, next := 1 } tIm (some tYields.coreid) = some 7 := by decide +kernel

/-! ### The fabric -/

/-- A line write to package 1 over port 2, and another of less slack. -/
def tPkt : Packet :=
  { id := 4, owner := 1, kind := .line [some 7], rank := 1, pkg := 1, targets := [1], dests := [1], loc := coreLoc 0 0 0
    cls := 15, seq := 0, win := 0, counted := true, slack := 100, entry := 0, port := some 2 }
def tPktTight : Packet := { tPkt with id := 5, seq := 1, slack := 10 }

/-- Packets are on their way. -/
def withPkts (l : List Packet) : State := { tGrant with fab := { tGrant.fab with pkts := l } }

theorem wit_arbitration :
    let s := withPkts [tPkt, tPktTight]
    s.reissue.routeAll.fab.pkts = [tPkt, tPktTight] ∧ (s.fab.pkts.map (·.id)).Nodup
    ∧ tPktTight.stage = .queued ∧ tPktTight.port = some 2 ∧ s.pktHeld tPktTight = false
    ∧ (∀ x ∈ s.fab.pkts, x.vc < 5) ∧ (∀ x ∈ [{ tPkt with vc := 5 }], 5 ≤ x.vc)
    ∧ tPktTight.wins s.ftime tPkt = true ∧ 63 ≤ { tPkt with lost := 63 : Packet }.lost ∧ tPkt.lost < 63
    ∧ tPktTight.slackNow 0 < tPkt.slackNow 0 ∧ (withPkts []).reissue.routeAll.fab.pkts = [] := by decide +kernel

theorem wit_packetsArrive :
    let p := { tPkt with stage := .flight, targets := [0], dests := [0] }
    let back := { tPkt with stage := .withdrawn }
    let q := { p with stage := .accepted }
    let s := withPkts [q]
    let task := ((s.ctxOf q.owner).map (·.task)).getD {}
    let load : Acc := { id := 9, kind := .read .keep, cls := 15, addr := 0, loc := 0, size := 8, lq := some 9 }
    let r := { p with kind := .access load, stage := .performed, answer := some { val := 5 }, marked := true }
    let w := { p with id := 6, kind := .withdraw 4 }
    (withPkts [p]).reissue.pktOf 4 = some p ∧ (withPkts [p]).reissue.arrived p = true ∧ p.kind.numbered = true
    ∧ p.dup = false ∧ (withPkts [p]).reissue.isNext p = true ∧ { p with kind := .coll (.post 7) : Packet }.kind.isMsg = true
    ∧ s.pktOf 4 = some q ∧ s.isNext q = true ∧ q.targets = [s.pkgid]
    ∧ s.sched.grants.any (fun g => g.coversLoc s.pkgid task.launch (pkgBase s.pkgid + q.loc)
        && g.reaches task s.coreid) = true
    ∧ (withPkts [r]).pktOf 4 = some r ∧ r.owner = (withPkts [r]).cx.uid ∧ (withPkts [r]).loops r = true
    ∧ load.kind.needsLq = true ∧ r.kind.acked = false ∧ { q with stage := .performed : Packet }.kind.acked = true
    ∧ (AccKind.write .keep []).needsLq = false ∧ (withPkts [back]).live = true ∧ (withPkts [back]).cx.withdrawn = []
    ∧ back.owner = (withPkts [back]).cx.uid ∧ back.kind.numbered = true ∧ (withPkts [q]).coll.table = []
    ∧ { q with targets := [0, 1] : Packet }.targets ≠ []
    ∧ (withPkts [w, p]).pktOf 6 = some w ∧ (withPkts [w, p]).arrived w = true
    ∧ (withPkts [w, p]).pktOf 4 = some p ∧ p.stage.unperformed = true ∧ 4 ≠ 6 ∧ 15 % 16 < 16 := by decide +kernel

theorem wit_lines :
    let s := { withLine tLine with cyc := 64 }
    s.core.lines[0]? = some tLine ∧ tLine.opened + 64 ≤ s.cyc ∧ (s.rankEntry tLine.rank).getLsbD 20 = false
    ∧ ({ s with cyc := 63 } : State).cyc < tLine.opened + 64 := by decide

theorem wit_noRoute :
    let p := { tPkt with port := none }
    let s := { withPkts [p] with ftime := 1000000 }
    s.pktOf 4 = some p ∧ p.stage = .queued ∧ s.loops p = false ∧ s.pktHeld p = false ∧ s.usablePorts p = []
    ∧ p.stuck + 1000000 ≤ s.ftime ∧ ({ s with ftime := 999999 } : State).ftime < p.stuck + 1000000
    ∧ p.dup = false ∧ { p with dup := true : Packet }.dup = true ∧ p.slack ≠ 0 ∧ p.slackNow s.ftime = 0 := by decide

/-- A machine whose next configuration request comes through port 0. -/
def tPort : State := { tFirm with host := { tFirm.host with asks := [false] } }

/-- The firmware writes tables itself; a port does while it holds `hsem`. -/
theorem wit_asked : Safety.Asked tFirm tFirm
    ∧ Safety.Asked { tPort with host := { tPort.host with hsem := 1 } } { tFirm with host := { tFirm.host with hsem := 1 } } :=
  ⟨.inl ⟨by decide, rfl⟩, .inr ⟨false, [], rfl, rfl, by decide, by decide⟩⟩

/-- A port without `hsem` is refused. -/
theorem wit_turned : Safety.Turned tPort { tFirm with host := { tFirm.host with refusals := 1 } } :=
  ⟨false, [], rfl, .inr (by decide), rfl⟩

theorem wit_configures : tFirm.configures false = false
    ∧ (0x4000 : Word).toNat / 2 ^ 14 % 4 = 1 ∧ (0x4000 : Word).toNat % 2 ^ 14 = tFirm.pkgid
    ∧ (tFirm.rankEntry 16383).getLsbD 20 = false ∧ 1999 < 0 + 2000 := by decide

/-- The package's own rank is held. -/
def tHeldRank : State := { tGrant with fab := { tGrant.fab with ranks := [(0, 0x104000)] } }

theorem wit_migration : MemOk tHeldRank ∧ (tHeldRank.rankEntry tHeldRank.rank).getLsbD 20 = true
    ∧ tHeldRank.quiet = true ∧ 16383 ≠ tHeldRank.pkgid ∧ 16383 < 2 ^ 14
    ∧ (tGrant.rankEntry tGrant.rank).getLsbD 20 = false :=
  ⟨⟨by decide, by decide, by decide⟩, by decide⟩

/-! ### Collectives -/

/-- Group 5 has two members, this package and package 1. -/
def tGroup : State :=
  { tGrant with fab := { tGrant.fab with
      ranks := [(0, 0x4000), (1, 0x4001), (5, 0x8001)], members := [(0, 0), (1, 1)] } }

/-- A posted collective of it, at a code. -/
def tColl (code : Nat) : Coll :=
  { cid := ⟨5, 1⟩, cmd := 7, owner := 1, blk := tPostBlk, blkLoc := coreLoc 0 0 0, cls := 0, asid := 0, ptbase := 0
    priv := false, code := code, entered := true, pinned := true, left := true, n := 2, deadline := 1000000 }

/-- It is alone in the table, at a time. -/
def withColl (c : Coll) (now : Nat) : State :=
  { tGroup with ftime := now, coll := { tGroup.coll with table := [c] } }

theorem wit_postEntry :
    let c := { tColl 1 with entered := false, pinned := false, left := false }
    let x := { c with entered := true, n := 2, pos := 0, deadline := 1000000 }
    let s := { withColl c 0 with cx := { tGroup.cx with xq := [7] } }
    s.issueDue = s ∧ s.coll.table.find? (fun y => y.cmd == 7) = some c ∧ c.entered = false
    ∧ s.cx.xq.head? = some 7 ∧ (s.coll.table.filter (·.entered)).length < 64 ∧ s.groupOk 5 = true
    ∧ (s.groupRanks 5).length = 2 ∧ cGroupOk c.blk 2 = true
    ∧ (({ s with cx := { s.cx with xq := [] } } : State).setColl x).pinBuffer x (cFrom x.blk) (cExtents x.blk 2).1 false
      = (.pinned, [], ({ s with cx := { s.cx with xq := [] } } : State).setColl x)
    ∧ ((({ s with cx := { s.cx with xq := [] } } : State).setColl x).pinBuffer x (cTo x.blk) (cExtents x.blk 2).2
        true).1 = .pinned
    ∧ s.isHoop 5 = true ∧ ({ s with pkgid := 1 } : State).isHoop 5 = false ∧ s.lastL 5 < 1 ∧ s.coll.hoop = []
    ∧ tGrant.groupOk 5 = false ∧ 64 ≤ (List.replicate 64 (tColl 1)).length := by decide +kernel

/-- Another package, which has no such partition, refuses the buffers. -/
theorem wit_pinRefused :
    let x := { tColl 1 with pinned := false, left := false }
    (({ tGroup with sched := {} } : State).setColl x).nearBufferOk (cFrom x.blk) (cExtents x.blk 2).1 false = false
    ∧ ((({ tGroup with sched := {} } : State).setColl x).pinBuffer x (cFrom x.blk) (cExtents x.blk 2).1 false).1
      = .refused := by decide +kernel

theorem wit_hoop :
    let h : HoopEnt := { cid := ⟨5, 1⟩, key := cKey tPostBlk, posted := [0] }
    let s := { tGroup with coll := { tGroup.coll with hoop := [h] } }
    s.issueDue = s ∧ tGroup.isHoop 5 = true ∧ tGroup.posIn 5 ≠ some 1 ∧ 1 < (tGroup.groupRanks 5).length
    ∧ tGroup.coll.hoop.find? (fun e => e.cid == (⟨5, 1⟩ : CollId)) = none ∧ tGroup.lastL 5 < 1
    ∧ 0 ≤ tGroup.lastL 5 ∧ s.coll.hoop.find? (fun e => e.cid == (⟨5, 1⟩ : CollId)) = some h ∧ h.dead = none
    ∧ 1 ∉ h.posted ∧ (s.groupRanks 5).length ≤ h.posted.length + 1 ∧ cKey [] ≠ h.key
    ∧ s.coll.nextIssue ≤ s.ftime ∧ s.ftime < { s.coll with nextIssue := 1 : CollSt }.nextIssue
    ∧ { h with posted := [] : HoopEnt }.posted.length + 1 < (s.groupRanks 5).length := by decide +kernel

theorem wit_tickets :
    let u : Ticket := ⟨⟨5, 1⟩, 10, 0⟩
    let c := tColl 1
    let d := { tColl 2 with ticket := some u }
    let s := { withColl c 999999 with pkgid := 1 }
    let t := withColl d 2010
    s.issueDue = s ∧ s.coll? ⟨5, 1⟩ = some c ∧ c.code = 1 ∧ c.left = true ∧ s.isHoop 5 = false
    ∧ s.coll.admitted.any (fun a => ticketBelow u a) = false
    ∧ (some (⟨⟨5, 9⟩, 11, 0⟩ : Ticket)).any (fun a => ticketBelow u a) = true ∧ s.ftime < c.deadline
    ∧ c.deadline ≤ (withColl c 1000000).ftime ∧ s.coll.fabq = [] ∧ t.issueDue = t
    ∧ t.lowestHeld = some d ∧ t.depsDone d.deps = true
    ∧ t.coll.rings.findIdx? (fun n => decide (0 < n)) = some 0 ∧ u.issue + 2000 ≤ t.ftime
    ∧ (∀ n ∈ List.replicate 32 0, n = 0) ∧ (withColl d 2009).ftime < u.issue + 2000 := by decide +kernel

/-- A piece of the collective. -/
def tPiece : Piece :=
  { coll := ⟨5, 1⟩, chunk := 1, offset := 0, step := 1, final := false, elems := [1, 2], src := 1 }

theorem wit_pieces :
    let c := { tColl 3 with admitted := some 100, staged := [(1, tPiece)] }
    let d := { tColl 3 with admitted := some 100 }
    let e := { tColl 3 with
      written := [(0, 16)], sent := (pieceOffsets tPostBlk 2 1).map (fun o => (1, o)) }
    (withColl c 99).active ⟨5, 1⟩ = some c ∧ (withColl c 99).ftime < c.t0 ∧ c.t0 ≤ 100
    ∧ c.staged.find? (fun x => x.2.chunk == 1 && x.2.offset == 0) = some (1, tPiece)
    ∧ c.t0 + tPiece.step * cSlot c.blk ≤ (withColl c 100).ftime
    ∧ (withColl c 100).ftime < c.t0 + tPiece.step * cSlot (tPostBlk.set 8 1)
    ∧ d.staged.find? (fun x => x.2.chunk == 1 && x.2.offset == 0) = none ∧ 1 ∈ d.starts
    ∧ 0 ∈ pieceOffsets d.blk d.n 1 ∧ (1, 0) ∉ d.sent ∧ (withColl d 100).stagingFull d true = false
    ∧ (withColl d 100).stagingFull { d with staged := List.replicate 16 (1, { tPiece with step := 0 }) } true = true
    ∧ c.complete = false ∧ e.complete = true ∧ (withColl e 100).coll? ⟨5, 1⟩ = some e ∧ e.code = 3
    ∧ (1, 0, 1) ∉ c.got ∧ (1, 0, 1) ∈ { c with got := [(1, 0, 1)] : Coll }.got
    ∧ (withColl c 100).noPlace c = false
    ∧ (withColl c 100).noPlace { d with staged := List.replicate 16 (1, tPiece) } = true
    ∧ 1 < ((withColl c 100).groupRanks 5).length := by decide +kernel

/-- No collective is admitted under the piece's number, or none of it is known any more. -/
theorem wit_piecesWait :
    let c := { tColl 3 with admitted := some 100 }
    let s := { tGroup with ftime := 1000, coll := { tGroup.coll with deferred := [(0, tPiece)] } }
    let t := { withColl c 1000 with coll := { (withColl c 0).coll with resend := [(0, 1, tPiece)] } }
    tGroup.active tPiece.coll = none ∧ tGroup.coll? tPiece.coll = none ∧ tPiece ∉ tGroup.coll.overflow
    ∧ (∃ f ∈ { tGroup.coll with finals := [(tPiece.coll, 0x10, 0)] : CollSt }.finals, f.1 = tPiece.coll)
    ∧ (∀ f ∈ tGroup.coll.finals, f.1 ≠ tPiece.coll)
    ∧ tGroup.overflowBytes + 8 * tPiece.elems.length ≤ tGroup.coll.quota * 2 ^ 20
    ∧ { tGroup.coll with quota := 0 : CollSt }.quota * 2 ^ 20 < tGroup.overflowBytes + 8 * tPiece.elems.length
    ∧ s.coll.deferred.find? (fun x => x.2 == tPiece) = some (0, tPiece) ∧ 0 + 1000 ≤ s.ftime ∧ 999 < 0 + 1000
    ∧ (∀ x ∈ t.coll.deferred, x.2 ≠ tPiece) ∧ t.active ⟨5, 1⟩ = some c
    ∧ t.coll.resend.find? (fun x => x.2.2 == tPiece) = some (0, 1, tPiece) :=
  ⟨by decide, by decide, by decide, ⟨_, .head _, rfl⟩, by decide⟩

theorem wit_collOver :
    let e := { tColl 3 with
      written := [(0, 16)], sent := (pieceOffsets tPostBlk 2 1).map (fun o => (1, o))
      got := (pieceOffsets tPostBlk 2 0).map (fun o => (0, o, 1)) }
    e.complete = true ∧ e.duties = false ∧ ∀ y ∈ (withColl e 100).fab.pkts, y.pieceOf ⟨5, 1⟩ = false := by decide

theorem wit_integerPieces : cFmt [mkWord (6 * 2 ^ 9)] = .int true 32 ∧ 32 ≤ 64 ∧ 2 ^ 32 - 1 < 2 ^ 32
    ∧ cSat [mkWord (6 * 2 ^ 9)] = false ∧ cAccop [mkWord (6 * 2 ^ 9)] = 0 := by decide

theorem wit_collectivesFail :
    let h : HoopEnt := { cid := ⟨5, 1⟩, key := cKey tPostBlk, posted := [0] }
    let s := { withColl (tColl 1) 1000000 with coll := { (withColl (tColl 1) 0).coll with hoop := [h] } }
    let away := { withColl (tColl 1) 1000000 with pkgid := 1 }
    (withColl (tColl 1) 999999).issueDue = withColl (tColl 1) 999999 ∧ away.issueDue = away ∧ s.issueDue = s
    ∧ (withColl (tColl 1) 999999).coll? ⟨5, 1⟩ = some (tColl 1) ∧ 999999 < (tColl 1).deadline
    ∧ (tColl 1).deadline ≤ 1000000 ∧ away.hasLeft { tColl 1 with left := false } = false
    ∧ away.hasLeft (tColl 1) = true ∧ away.isHoop 5 = false ∧ away.coll? ⟨5, 1⟩ = some (tColl 1)
    ∧ (tColl 1).withdrew = false ∧ { tColl 1 with withdrew := true : Coll }.withdrew = true ∧ (tColl 2).code ≠ 1
    ∧ s.isHoop 5 = true ∧ s.coll.hoop.find? (fun e => e.cid == (⟨5, 1⟩ : CollId)) = some h
    ∧ h.dead = none := by decide +kernel

/-! ### Host and debugger -/

theorem wit_host :
    tRun.host.off = false ∧ 2 ^ 41 - 1 + [(7 : Byte)].length ≤ 2 ^ 41 ∧ tRun.host.boot = 0 ∧ 0 + 1 ≤ 2 ^ 41
    ∧ (∀ a, 0 ≤ a → a < 0 + 1 → tRun.marked (hbmLoc tRun.pkgid a) = false) ∧ tRun.host.hsem = 0
    ∧ ({ tFirm.host with hsem := 2 } : HostSt).hsem = (if true then 2 else 1)
    ∧ 4000 ≤ bitsOf 4000 0 14 ∧ bitsOf 12000 0 14 ≤ 12000 ∧ bitsOf 3999 0 14 < 4000 ∧ 12000 < bitsOf 12001 0 14
    ∧ tFirm.firmware = true ∧ 16 ≤ 16 ∧ 1024 ≤ 1024 ∧ ({ tFirm.host with hsem := 1 } : HostSt).hsem ≠ 2
    ∧ tRun.host.asks = [] ∧ tRun.host.late = [] ∧ tPort.host.asks = [false] ∧ tPort.host.hsem ≠ 1
    ∧ ({ tPort.host with hsem := 1 } : HostSt).hsem = (if false then 2 else 1) ∧ tPort.firmware = true
    ∧ tPort.coll.table = [] ∧ tPort.fab.tsends = [] ∧ tRun.agenda = []
    ∧ bootWindow ≤ bootWindow ∧ 0 < bootWindow
    ∧ ({ tRun with agenda := [.hsemWrite false 1] } : State).agenda = [.hsemWrite false 1] :=
  by
    and_intros
    all_goals first
      | decide

/-- Nothing forbids a host or a debugger a byte, nor a line write its own. -/
theorem wit_unnoted : (∀ l, Unnoted tRun none l ∧ tRun.hot none l = false)
    ∧ ∀ x l, Unnoted (withPkts [{ tPkt with stage := .accepted }]) x l :=
  ⟨fun _ => ⟨⟨rfl, fun _ h => absurd h List.not_mem_nil⟩, rfl⟩, fun _ _ => ⟨rfl, fun _ h => absurd h List.not_mem_nil⟩⟩

/-- The header of an image of 2^20 bytes stands in the boot window. -/
def tBoot : State := { tRun.setWord (hbmLoc 0 0) 0x001000004F514657 with host := { tRun.host with boot := 1 } }

theorem wit_power :
    tFirm.firmware = true ∧ 115 ≤ 115 ∧ tFirm.host.pwrlim < 12001 ∧ 20 * 11399 < 19 * tFirm.host.pwrlim
    ∧ 19 * tFirm.host.pwrlim ≤ 20 * 11400 ∧ (List.replicate 32 (0 : Byte)).length = 32
    ∧ tRun.host.off = false ∧ tFirm.host.boot ≠ 1 ∧ tBoot.host.boot = 1 ∧ tFirm.marks = []
    ∧ (∀ q ∈ tFirm.host.asks.head?, tFirm.holds q = true) ∧ tPort.host.asks = [false] ∧ tPort.holds false = false
    ∧ tPort.host.off = false ∧ tRun.readNat (hbmLoc 0 0) 4 ≠ 0x4F514657
    ∧ tBoot.readNat (hbmLoc 0 0) 4 = 0x4F514657 ∧ tBoot.readNat (hbmLoc 0 4) 4 = 2 ^ 20 ∧ 2 ^ 24 ≤ 2 ^ 24 := by
  decide

/-- Principal 3 holds every right over address space 0. -/
def tCap : Cap := { rights := 0x3F, parent := 0, asid := 0, holder := 3 }
def tDbg : State := { tFirm with dbg := { tFirm.dbg with caps := [(0, tCap)] } }

theorem wit_rights :
    tDbg.firmware = true ∧ 4095 < 4096 ∧ tDbg.freeCap = some 1 ∧ tDbg.cap 0 = some tCap
    ∧ (∀ i < 6, (5 : BitVec 6).getLsbD i = true → tCap.rights.getLsbD i = true)
    ∧ tCap.holder ≠ 4 ∧ tCap.holder.toNat = 3 ∧ 3 < 2 ^ 32 ∧ tCap.parent = 0 ∧ tDbg.dbg.traced = tDbg.dbg.written
    ∧ (∀ x ∈ tDbg.contexts, x.stop = none) ∧ tDbg.capFor 3 2 tDbg.cx.asid.toNat = some 0 ∧ tDbg.dbg.stopHolder = none
    ∧ tDbg.cxSt = .running ∧ tDbg.capFor 3 0 0 = some 0 ∧ tDbg.capFor 3 1 0 = some 0 ∧ tDbg.capFor 4 0 0 = none
    ∧ tDbg.capFor 4 1 0 = none ∧ tDbg.capFor 3 5 0 = some 0 ∧ tDbg.capFor 4 5 0 = none ∧ tDbg.oldRoot 1 = none
    ∧ tDbg.oldRoot 0 = some 0 ∧ tDbg.configures true = false ∧ tDbg.host.asks = []
    ∧ tDbg.freeCap ≠ some 0 := by decide +kernel

theorem wit_noRight : tDbg.capFor 4 2 tDbg.cx.asid.toNat = none := by decide +kernel

theorem wit_stops :
    let s := { tDbg with cx := { tCx with bps := [(3, 0, 0)] } }
    let t := { tDbg with cx := { tCx with stepDone := true }, dbg := { tDbg.dbg with stopHolder := some 0 } }
    let u := { t with cxSt := .held, cx := { tCx with stop := some 0 } }
    s.live = true ∧ s.mustWait = false ∧ s.cx.bpSkip = false ∧ s.cx.bps = [(3, s.cx.pc, 0)] ∧ t.live = true
    ∧ t.cx.stepDone = true ∧ t.cx.replay = none ∧ t.dbg.stopHolder = some 0 ∧ u.cxSt = .held
    ∧ u.cx.stop = some 0 ∧ u.cap 0 = some tCap ∧ u.stoppedOf 0 0 = some u.cx ∧ (∀ x ∈ s.contexts, x.stop = none)
    ∧ ¬ (∀ x ∈ u.contexts, x.stop = none)
    ∧ ({ t with shSt := .held, sh := { tCx with uid := 2, stop := some 0 } } : State).sh.stop = some 0
    ∧ t.cx.stop ≠ some 0 ∧ t.sh.fault = none := by decide

/-- Its page 0 is in the shared TLB. -/
def tDbgMap : State := { tDbg with xl := tShared.xl }

theorem wit_traceRoom (s : State) (h : s.dbg.trace = []) : s.dbg.trace.length < s.traceCap := by
  rw [h, State.traceCap, List.length_nil]; omega

theorem wit_debugAccess :
    (List.range 2).mapM (fun i => tDbgMap.asidLoc 0 (7 + i)) = some [hbmLoc 0 (2 ^ 21 + 7), hbmLoc 0 (2 ^ 21 + 8)]
    ∧ [hbmLoc 0 (2 ^ 21 + 7), hbmLoc 0 (2 ^ 21 + 8)].Nodup ∧ (7 : Nat) < 2 ^ 57
    ∧ (List.range 2).mapM (fun i => tDbg.asidLoc 0 (2 ^ 56 - 1 + i)) = none ∧ 65535 < 2 ^ 16 := by decide +kernel

theorem wit_debugBytes : ∀ l, tDbgMap.marked l = false ∧ tDbgMap.hot none l = false ∧ Unnoted tDbgMap none l :=
  fun _ => ⟨rfl, rfl, rfl, fun _ h => absurd h List.not_mem_nil⟩

theorem wit_sessions :
    let r : TraceRec := ⟨5, 0, 0, 0, [0]⟩
    tDbg.capFor 3 (3 + 1) 0 = some 0 ∧ tDbg.capFor 4 (3 + 1) 0 = none
    ∧ (10 ≤ 24 ∧ 24 ≤ 24) ∧ 9 < 10 ∧ 24 < 25 ∧ tDbg.cx.asid.toNat = tCap.asid ∧ 1024 % 2 ^ 10 = 0 ∧ 1025 % 2 ^ 10 ≠ 0
    ∧ tDbg.dbg.trace = [] ∧ tDbg.dbg.sampled ≠ some tDbg.cyc ∧ (0, tCap) ∈ tDbg.dbg.caps ∧ tDbg.live = true
    ∧ tDbg.sessionsOf 2 tDbg.core.chargeAsid = [] ∧ r.caps = [0] ∧ tDbg.cap 0 = some tCap
    ∧ (⟨0, 1, 10⟩ : Session) ∈ { tDbg.dbg with sessions := [⟨0, 1, 10⟩] : DbgSt }.sessions := by decide +kernel

/-! ### One step, by hand from the rules -/

/-- The value on its way to a register after a word. -/
def result (o : Out) (r : SReg) : Option Word :=
  match o with
  | .next t => (t.cx.pend.filterMap (fun p => match p.w with
      | .sreg d v => if d = r then some v.val else none
      | _ => none)).getLast?
  | _ => none

/-- The flags on their way. -/
def flagsOf (o : Out) : Flags :=
  match o with
  | .next t => (t.cx.pend.filterMap (fun p => match p.w with | .flags f => some f | _ => none)).foldl (· ||| ·) 0
  | _ => 0

/-- s1 and s2 hold values. -/
def with12 (x y : Word) : State := { withS1 tRun { val := x } with
  cx := { (withS1 tRun { val := x }).cx with regs := (withS1 tRun { val := x }).cx.regs.set 2 { val := y } } }

/-- 05 R83: subtraction wraps; the high half of −1 × 2 is −1 signed and 1 unsigned. -/
theorem test_sub_mulh : result (exec (.sub 3 1 2) (with12 0 1)) 3 = some 0xFFFFFFFFFFFFFFFF
    ∧ result (exec (.mulh 3 1 2) (with12 (-1) 2)) 3 = some (-1)
    ∧ result (exec (.mulhn 3 1 2) (with12 (-1) 2)) 3 = some 1 := by decide

/-- 05 R84: −7 ÷ 2 truncates to −3 with remainder −1; −2^63 ÷ −1 is −2^63 with OF, remainder 0; by zero
all ones, and the dividend. -/
theorem test_div : result (exec (.div 3 1 2) (with12 (-7) 2)) 3 = some (-3)
    ∧ result (exec (.rem 3 1 2) (with12 (-7) 2)) 3 = some (-1)
    ∧ result (exec (.div 3 1 2) (with12 0x8000000000000000 (-1))) 3 = some 0x8000000000000000
    ∧ flagsOf (exec (.div 3 1 2) (with12 0x8000000000000000 (-1))) = Flag.of
    ∧ result (exec (.rem 3 1 2) (with12 0x8000000000000000 (-1))) 3 = some 0
    ∧ result (exec (.divn 3 1 2) (with12 5 0)) 3 = some (-1) ∧ result (exec (.remn 3 1 2) (with12 5 0)) 3 = some 5 := by
  decide

/-- 05 R83: shifts take the amount modulo 64; `ROTL` by 0 keeps its operand. -/
theorem test_shift : result (exec (.shl 3 1 2) (with12 1 65)) 3 = some 2
    ∧ result (exec (.sar 3 1 2) (with12 0x8000000000000000 63)) 3 = some (-1)
    ∧ result (exec (.rotl 3 1 2) (with12 0x8000000000000001 1)) 3 = some 3
    ∧ result (exec (.rotl 3 1 2) (with12 5 0)) 3 = some 5 := by decide

/-- 05 R87: in FP32 1.5 + 2.25 is 3.75, 1 ÷ 3 of FP64 narrowed is 0x3EAAAAAB, inexact, and `FNEG`
acts on the sign of a NaN alone. -/
theorem test_float : result (exec (.fadd 0 3 1 2) (with12 0x3FC00000 0x40100000)) 3 = some 0x40700000
    ∧ result (exec (.fcvtw 0 3 1 0) (with12 0x3FD5555555555555 0)) 3 = some 0x3EAAAAAB
    ∧ flagsOf (exec (.fcvtw 0 3 1 0) (with12 0x3FD5555555555555 0)) = Flag.nx
    ∧ result (exec (.fneg 0 3 1) (with12 0xFFFFFFFF7FC00001 0)) 3 = some 0xFFC00001 := by decide +kernel

/-- 05 R88: 3.5 to an integer rounds to 4 to nearest even and to 3 toward zero; 2^31 saturates `.i32`. -/
theorem test_convert : result (exec (.fcvti 0 3 1 0 0) (with12 0x40600000 0)) 3 = some 4
    ∧ result (exec (.fcvti 0 3 1 0 1) (with12 0x40600000 0)) 3 = some 3
    ∧ result (exec (.fcvti 0 3 1 0 0) (with12 0x4F000000 0)) 3 = some 0x7FFFFFFF
    ∧ result (exec (.fcvtf 0 3 1 0 0) (with12 0xFFFFFFFF 0)) 3 = some 0xBF800000 := by decide +kernel

/-- 05 R90: a field of 8 bits from bit 4, sign-extended; and put back. -/
theorem test_fields : result (exec (.bfx 3 1 2) (with12 0xF80 0x10704)) 3 = some 0xFFFFFFFFFFFFFFF8
    ∧ result (exec (.bfi 3 1 2) (with12 0xAB 0x704)) 3 = some 0xAB0 := by decide

/-- 05 R86: `MOVK` replaces bits 35:18. -/
theorem test_movk : result (exec (.movk 1 1 0) (withS1 tRun { val := -1 })) 1 = some 0xFFFFFFF00003FFFF := by decide

/-- 05 R93: the loop test falls through at a count of 1. -/
theorem test_loop : let s := { tRun with bundle := [0], cx := { tCx with lbeg := 16, lend := 4, lcnt := 2 } }
    s.loopNext.2 = 16 ∧ s.loopNext.1.cx.lcnt = 1 := by decide

/-- 04 R52: the codes of E2M1 convert back from FP32 values, 5 going to the even 4 and 7 to 6 by saturation. -/
theorem test_e2m1 : ∃ f, fmtOfReg (State.reset.cx.fm 4) = .flt f
    ∧ (f.round 0 (fp32.decode 0x40A00000)).1 = 6 ∧ (f.round 0 (fp32.decode 0x3F800000)).1 = 2 :=
  ⟨_, rfl, by decide +kernel, by decide +kernel⟩

/-- 08 R168, 07 R138: a saturating sum of two 16-bit elements. -/
theorem test_saturate : let s := withDescs tGrant (tW1 0 4 7) (tW1 0 4 7) (tW1 0 4 7)
    s.vopElem 0 0 (s.regionOf 1) (some (s.regionOf 2)) (some (s.regionOf 3)) 0 0 0 0x7FFF 1 0 = (0x7FFF, Flag.of)
    ∧ s.vopElem 11 0 (s.regionOf 1) (some (s.regionOf 2)) (some (s.regionOf 3)) 0 0 0 0x4001 1 0 = (0x8002, 0) := by
  decide +kernel

/-- 13 R217: a trap goes to the handler with cause 1, kind issue, ha set. -/
theorem test_trap : (tHand.trap 1 7 false 0).cx.pc = 8 ∧ (tHand.trap 1 7 false 0).cx.tcause = 0x401
    ∧ (tHand.trap 1 7 false 0).cx.tval = 7 := by decide +kernel

/-- 06 R117: an atomic subtracts by adding −1 and wraps in its size. -/
theorem test_atomic : ∃ t, exec (.writePerform 9) (withAcc (.atom 0 (-1) 0 true)) = .next t
    ∧ t.readNat (coreLoc 0 0 0) 8 = 2 ^ 64 - 1 ∧ (t.cx.lq.any (fun e => e.id == 9)) = false := ⟨_, rfl, by decide, by decide⟩

end Sys2Proof.Tests
end

/-! ### Values at package reset -/

namespace Sys2Proof.ResetProofs

open Sys2Proof Sys2Proof.Machine

/-- The first and the last format of the reset table are the same (04 R50). -/
theorem fmReset_ends : fmReset[0] = 0x1E300700 ∧ fmReset[15] = fmReset[0] := by decide

/-- The format registers, exception registers, scale table, latches, slacks and allowances of a context as a task
starts with it. -/
theorem fresh_values :
    Ctx.fresh.fms = fmReset ∧ Ctx.fresh.thand = 0 ∧ Ctx.fresh.tcause = 0 ∧ Ctx.fresh.ptbase = 0
    ∧ Ctx.fresh.asid = 0 ∧ Ctx.fresh.ctxsave = 0 ∧ Ctx.fresh.lotflags = 0
    ∧ Ctx.fresh.scs = Vector.replicate 16 0
    ∧ Ctx.fresh.latches = Vector.replicate 4 { val := 0, kind := .fp32, op := .add, poison := false }
    ∧ Ctx.fresh.slack = Vector.replicate 16 65535 ∧ Ctx.fresh.allow = Vector.replicate 8 64 :=
  ⟨rfl, rfl, rfl, rfl, rfl, rfl, rfl, rfl, rfl, rfl, rfl⟩

/-- Settles O5: the bank of reset is a fresh context, and the units of the core and the host endpoint hold the values
that their declarations give. -/
theorem resetValues : Obligations.ResetValues := by
  obtain ⟨hfms, hthand, htcause, hptbase, hasid, hctxsave, hlot, hscs, hlatches, hslack, hallow⟩ := fresh_values
  obtain ⟨hfirst, hlast⟩ := fmReset_ends
  exact ⟨rfl, hfms, hfirst, hlast, hthand, htcause, hptbase, hasid, hctxsave, rfl, hlot, hscs, hlatches, hslack,
    hallow, rfl, rfl, rfl, rfl, rfl, rfl, rfl, rfl, rfl, rfl⟩

end Sys2Proof.ResetProofs

/-! ### A host's write that moves the destination of a collective -/

namespace Sys2Proof.HostProofs

open Sys2Proof Sys2Proof.Machine Sys2Proof.Safety Sys2Proof.Laws

/-- While no timed send is posted, a write of one byte that the state after it locks leaves there what `blurByte`
draws, whatever was written (17 R276). -/
theorem byte_wrote_locked {s old : State} {x : Actor} {l : Nat} (hsends : s.fab.tsends = [])
    (hlocked : s.locked x l = true) :
    (s.wrote old x [l]).byte l = (Config.freeWord s.fv).extractLsb' 0 8 := by
  have hblur : (s.wrote old x [l]).mem = (s.blurByte l).mem := by
    simp [State.wrote, State.blurByte, hlocked, hsends]
  calc (s.wrote old x [l]).byte l
      = (s.blurByte l).byte l := congrArg (getCell · l) hblur
    _ = (Config.freeWord s.fv).extractLsb' 0 8 := by simp [State.blurByte, State.draw]

/-- A host's store of one byte beyond the boot window (22 R320). -/
theorem hostStore_one {s : State} {pa : Nat} (b : Byte) (hbeyond : bootWindow ≤ pa) :
    s.hostStore pa [b] = (s.setByte (hbmLoc s.pkgid pa) b).wrote s none [hbmLoc s.pkgid pa] := by
  simp [State.hostStore, hbeyond]

/-- A write in ROD performs in its turn, and nothing else does while no write is on its way (22 R320). -/
theorem exec_hostWrite_rod {s : State} (port : Bool) {pa : Nat} {data : List Byte} (hon : s.host.off = false)
    (hfits : pa + data.length ≤ 2 ^ 41) (hlate : s.host.late = []) :
    exec (.hostWrite port true pa data) s = .next (s.hostStore pa data) := by
  have hgoes : (!s.powered || decide (2 ^ 41 < pa + data.length)) = false := by
    simp only [State.powered, hon, decide_eq_false (Nat.not_lt.mpr hfits), Bool.not_false, Bool.not_true, Bool.or_false]
  have hnone : s.lateWrites = s := by simp only [State.lateWrites, hlate, List.foldl_nil]
  show Host.Outcome.next (s.hostWrite true pa data) = _
  simp only [State.hostWrite, hgoes, hnone, Bool.false_eq_true, if_false, if_true]

/-- A physical address beyond the boot window, with a page of its own. -/
def tablePa : Nat := 2 ^ 25

/-- A collective whose destination is the page at virtual address 0, not yet pinned. -/
def unpinnedColl : Coll where
  cid := ⟨0, 1⟩
  cmd := 0
  owner := 0
  blk := []
  blkLoc := 0
  cls := 0
  asid := 0
  ptbase := 0
  priv := true
  toLen := 4096

/-- The firmware runs, and a context has posted that collective in a batch that is still open. The walk cache of level
1 holds the table at `tablePa`, whose entry 0 is for virtual address 0: it names the table's own frame and is not valid
(13 R210). -/
def unmapped : State :=
  { State.reset with
    cxSt := .running
    cx := { State.reset.cx with cmds := [{ id := 0, tok := 0, eng := 2 }] }
    mem := [(hbmLoc 0 (tablePa + 3), 2)]
    xl := { State.reset.xl with walks := [(0, 1, 0, tablePa)] }
    coll := { State.reset.coll with table := [unpinnedColl] }
    host := { State.reset.host with boot := 2 } }

/-- The low byte of a valid leaf, with w set where without it the byte would be the one that is drawn first (13
R210). -/
def leafByte : Byte := if (Config.freeWord 0).extractLsb' 0 8 = 3 then 7 else 3

theorem leafByte_cases : leafByte = 3 ∨ leafByte = 7 := by
  unfold leafByte
  split
  · exact .inr rfl
  · exact .inl rfl

theorem leafByte_ne_drawn : leafByte ≠ (Config.freeWord 0).extractLsb' 0 8 := by
  unfold leafByte
  split
  · next hdrawn => rw [hdrawn]; decide
  · next hdrawn => exact Ne.symm hdrawn

/-- Before the write the page of the destination is not present, so no rule forbids the host the entry. -/
theorem unmapped_unnoted : Unnoted unmapped none (hbmLoc unmapped.pkgid tablePa) :=
  ⟨by decide +kernel, fun _ h => absurd h List.not_mem_nil⟩

/-- With the entry made valid the destination is the frame in which the entry itself lies. -/
theorem unmapped_locked_after_leaf :
    (unmapped.setByte (hbmLoc unmapped.pkgid tablePa) leafByte).locked none (hbmLoc unmapped.pkgid tablePa)
      = true := by
  rcases leafByte_cases with hleaf | hleaf
  · rw [hleaf]; decide +kernel
  · rw [hleaf]; decide +kernel

/-- The byte that the host wrote into the entry is a free one. -/
theorem byte_hostStore_unmapped :
    (unmapped.hostStore tablePa [leafByte]).byte (hbmLoc unmapped.pkgid tablePa)
      = (Config.freeWord 0).extractLsb' 0 8 := by
  rw [hostStore_one leafByte (by decide)]
  exact byte_wrote_locked rfl unmapped_locked_after_leaf

/-- Refutes O56: `wrote` asks which bytes are locked in the state after the store, and a host's write of a page-table
entry may itself map the destination of an unpinned collective to the written place. In `unmapped` nothing forbids the
write at `tablePa`, and yet the byte there is not the host's after it. -/
theorem not_hostPorts : ¬ Obligations.HostPorts := by
  unfold Obligations.HostPorts
  intro h
  obtain ⟨-, -, hwrite, -⟩ := h unmapped 0 false true tablePa 0 0 [leafByte] 0 rfl
  have hfits : tablePa + [leafByte].length ≤ 2 ^ 41 := by simp [tablePa]
  have hfree : ∀ a, tablePa ≤ a → a < tablePa + [leafByte].length → Unnoted unmapped none (hbmLoc unmapped.pkgid a) := by
    intro a hfrom hto
    obtain rfl : a = tablePa := Nat.le_antisymm (Nat.le_of_lt_succ hto) hfrom
    exact unmapped_unnoted
  obtain ⟨t, hexec, -, -, ⟨hrud, -⟩ | ⟨hbytes, -⟩⟩ := hwrite hfits rfl hfree
  · exact absurd hrud Bool.noConfusion
  · rw [exec_hostWrite_rod false rfl hfits rfl] at hexec
    obtain rfl : unmapped.hostStore tablePa [leafByte] = t := Host.Outcome.next.inj hexec
    have hwritten : (unmapped.hostStore tablePa [leafByte]).byte (hbmLoc unmapped.pkgid tablePa) = leafByte := by
      rw [hbytes tablePa (by norm_num [tablePa]),
        if_pos ⟨Nat.le_refl _, Nat.lt_succ_self _, .inr (by decide)⟩, Nat.sub_self]
      rfl
    exact leafByte_ne_drawn (hwritten.symm.trans byte_hostStore_unmapped)

end Sys2Proof.HostProofs

/-! ### The encoder and the decoder are inverse to each other (03 R20, R27 to R29) -/

namespace Sys2Proof.EncodingProofs

open Sys2Proof Sys2Proof.Laws

/-! Fields that stand side by side in a word -/

/-- Two fields that stand side by side are one field. -/
theorem fld_append (w : IWord) {hi lo n m : Nat} (h : hi = lo + m) :
    fld w hi n ++ fld w lo m = fld w lo (n + m) :=
  BitVec.extractLsb'_append_extractLsb'_eq_extractLsb' h

theorem packR_fields (w : IWord) :
    packR (fld w 26 5) (fld w 20 6) (fld w 14 6) (fld w 8 6) (fld w 0 8) = fld w 0 31 := by
  simp (disch := decide) only [packR, fld_append]

theorem packI_fields (w : IWord) :
    packI (fld w 26 5) (fld w 20 6) (fld w 14 6) (fld w 11 3) (fld w 0 11) = fld w 0 31 := by
  simp (disch := decide) only [packI, fld_append]

theorem packL_fields (w : IWord) : packL (fld w 26 5) (fld w 20 6) (fld w 0 20) = fld w 0 31 := by
  simp (disch := decide) only [packL, fld_append]

theorem packK_fields (w : IWord) :
    packK (fld w 26 5) (fld w 20 6) (fld w 18 2) (fld w 0 18) = fld w 0 31 := by
  simp (disch := decide) only [packK, fld_append]

theorem packB_fields (w : IWord) :
    packB (fld w 26 5) (fld w 23 3) (fld w 22 1) (fld w 0 22) = fld w 0 31 := by
  simp (disch := decide) only [packB, fld_append]

theorem packC_fields (w : IWord) : packC (fld w 26 5) (fld w 0 26) = fld w 0 31 := by
  simp (disch := decide) only [packC, fld_append]

theorem packM_fields (w : IWord) :
    packM (fld w 26 5) (fld w 20 6) (fld w 14 6) (fld w 10 4) (fld w 8 2) (fld w 0 8) = fld w 0 31 := by
  simp (disch := decide) only [packM, fld_append]

theorem packA_fields (w : IWord) :
    packA (fld w 26 5) (fld w 20 6) (fld w 14 6) (fld w 10 4) (fld w 8 2) (fld w 7 1) (fld w 3 4) (fld w 0 3)
      = fld w 0 31 := by
  simp (disch := decide) only [packA, fld_append]

theorem packV_fields (w : IWord) :
    packV (fld w 26 5) (fld w 21 5) (fld w 16 5) (fld w 11 5) (fld w 8 3) (fld w 0 8) = fld w 0 31 := by
  simp (disch := decide) only [packV, fld_append]

theorem packS_fields (w : IWord) :
    packS (fld w 26 5) (fld w 20 6) (fld w 14 6) (fld w 0 14) = fld w 0 31 := by
  simp (disch := decide) only [packS, fld_append]

theorem packMS_fields (w : IWord) :
    packMS (fld w 26 5) (fld w 23 3) (fld w 22 1) (fld w 17 5) (fld w 12 5) (fld w 6 6) (fld w 4 2) (fld w 0 4)
      = fld w 0 31 := by
  simp (disch := decide) only [packMS, fld_append]

/-- A word is its chain bit and the bits below it. -/
theorem chainBit_append_fld (w : IWord) : BitVec.ofBool (chainBit w) ++ fld w 0 31 = w := by
  have h : BitVec.ofBool (chainBit w) = fld w 31 1 := by
    apply BitVec.eq_of_getLsbD_eq
    intro i hi
    obtain rfl : i = 0 := by omega
    simp [chainBit, fld]
  rw [h, fld_append w (by decide)]
  exact BitVec.extractLsb'_eq_self

/-- A field is what its high bits hold above its low bits. -/
theorem append_low {n m : Nat} {x : BitVec (n + m)} {y : BitVec n} (h : x.extractLsb' m n = y) :
    y ++ x.extractLsb' 0 m = x := by
  rw [← h, halves]

/-- A field cut in three is the field again. -/
theorem thirds {n k m hi : Nat} (x : BitVec (n + k + m)) (hhi : hi = m + k) :
    x.extractLsb' hi n ++ x.extractLsb' m k ++ x.extractLsb' 0 m = x := by
  rw [BitVec.extractLsb'_append_extractLsb'_eq_extractLsb' hhi, halves]

/-- A field is what its high bits hold above its middle and its low bits. -/
theorem append_mid_low {n k m hi : Nat} {x : BitVec (n + k + m)} {y : BitVec n} (h : x.extractLsb' hi n = y)
    (hhi : hi = m + k) : y ++ x.extractLsb' m k ++ x.extractLsb' 0 m = x := by
  rw [← h, thirds x hhi]

/-! What each decoder answers -/

/-- Whatever a decoder answers for some bits is an instruction whose encoded bits they are. -/
def Reads (b : BitVec 31) (o : Option Instr) : Prop := ∀ i, o = some i → encodeBody i = some b

theorem reads_none (b : BitVec 31) : Reads b none ↔ True := by simp [Reads]

theorem reads_some (b : BitVec 31) (i : Instr) : Reads b (some i) ↔ encodeBody i = some b := by simp [Reads]

theorem reads_req (b : BitVec 31) (c : Bool) (i : Instr) :
    Reads b (req c i) ↔ (c = true → encodeBody i = some b) := by
  cases c <;> simp [Reads, req]

theorem reads_ite (b : BitVec 31) (c : Prop) [Decidable c] (x y : Option Instr) :
    Reads b (if c then x else y) ↔ (c → Reads b x) ∧ (¬ c → Reads b y) := by
  by_cases h : c <;> simp [h]

theorem decCtl_reads (n : Nat) (a : BitVec 6) (imm : BitVec 14) :
    Reads (packS 0x00 (BitVec.ofNat 6 n) a imm) (decCtl n a imm) := by
  unfold decCtl
  split <;> simp only [reads_none, reads_some, reads_req, Bool.and_eq_true, beq_iff_eq, and_imp] <;>
    (intros; subst_vars; rfl)

theorem decSys_reads (n : Nat) (a : BitVec 6) (imm : BitVec 14) :
    Reads (packS 0x03 (BitVec.ofNat 6 n) a imm) (decSys n a imm) := by
  unfold decSys
  split <;> simp only [reads_none, reads_some, reads_req, reads_ite, Bool.and_eq_true, beq_iff_eq, and_imp]
  case h_2 | h_3 => refine ⟨?_, fun _ => ?_⟩ <;> (intros; subst_vars; rfl)
  case h_9 => refine ⟨?_, fun _ => ⟨?_, fun _ => ⟨?_, fun _ => ?_⟩⟩⟩ <;> (intros; subst_vars; rfl)
  all_goals (intros; subst_vars; rfl)

theorem decIalu_reads (n : Nat) (d a b : BitVec 6) :
    Reads (packR 0x04 d a b (BitVec.ofNat 8 n)) (decIalu n d a b) := by
  unfold decIalu
  split <;> simp only [reads_none, reads_some, reads_req, beq_iff_eq] <;> (intros; subst_vars; rfl)

theorem decIali_reads (n : Nat) (d a : BitVec 6) (imm : BitVec 11) :
    Reads (packI 0x05 d a (BitVec.ofNat 3 n) imm) (decIali n d a imm) := by
  unfold decIali
  dsimp only
  split <;> simp only [reads_none, reads_some, reads_req, beq_iff_eq]
  case h_5 | h_6 | h_7 => exact fun h => congrArg (some ∘ packI 0x05 d a _) (append_low h)
  all_goals rfl

theorem decFpu_reads (n : Nat) (p : BitVec 2) (d a b : BitVec 6) :
    Reads (packR 0x08 d a b (p ++ BitVec.ofNat 6 n)) (decFpu n p d a b) := by
  unfold decFpu
  dsimp only
  split <;> simp only [reads_none, reads_some, reads_req, Bool.and_eq_true, beq_iff_eq, and_imp]
  case h_10 | h_11 =>
    exact fun h => congrArg (fun b => some (packR 0x08 d a b _)) (append_mid_low h rfl)
  case h_12 =>
    intro h hk
    refine (congrArg (fun k => some (packR 0x08 d a ((0 : BitVec 1) ++ k ++ _) _)) hk.symm).trans ?_
    exact congrArg (fun b => some (packR 0x08 d a b _)) (append_mid_low h rfl)
  all_goals (intros; subst_vars; rfl)

theorem decCmp_reads (n : Nat) (c : BitVec 4) (d a b : BitVec 6) :
    Reads (packR 0x09 d a b (BitVec.ofNat 4 n ++ c)) (decCmp n c d a b) := by
  unfold decCmp
  split <;> simp only [reads_none, reads_some] <;> rfl

theorem decField_reads (n : Nat) (d a b : BitVec 6) :
    Reads (packR 0x0A d a b (BitVec.ofNat 8 n)) (decField n d a b) := by
  unfold decField
  split <;> simp only [reads_none, reads_some] <;> rfl

theorem decLd_reads (x base : BitVec 6) (cls : BitVec 4) (sz : BitVec 2) (off : BitVec 8) :
    Reads (packM 0x0C x base cls sz off) (decLd x base cls sz off) := by
  have hx : x = BitVec.ofNat 6 x.toNat := by simp
  unfold decLd
  split <;> simp only [reads_none, reads_some]
  all_goals (next h => rw [hx, h]; rfl)

theorem decTag_reads (n : Nat) (x base : BitVec 6) (cls : BitVec 4) (sz : BitVec 2) (off : BitVec 5) :
    Reads (packM 0x0E x base cls sz (BitVec.ofNat 3 n ++ off)) (decTag n x base cls sz off) := by
  unfold decTag
  split <;> simp only [reads_none, reads_some, reads_req, beq_iff_eq] <;> (intros; subst_vars; rfl)

theorem decAtom_reads (n : Nat) (v base : BitVec 6) (cls : BitVec 4) (sz : BitVec 2) (f : BitVec 1) :
    Reads (packA 0x0F v base cls sz f (BitVec.ofNat 4 n) 0) (decAtom n v base cls sz f) := by
  unfold decAtom
  split <;> simp only [reads_none, reads_some] <;> rfl

theorem decOrder_reads (n : Nat) (a : BitVec 6) (imm : BitVec 14) :
    Reads (packS 0x10 (BitVec.ofNat 6 n) a imm) (decOrder n a imm) := by
  unfold decOrder
  dsimp only
  split <;> simp only [reads_none, reads_req, Bool.and_eq_true, beq_iff_eq, and_imp]
  case h_1 =>
    intro h
    have hmask : (a.extractLsb' 0 2 ++ imm).extractLsb' 14 2 = a.extractLsb' 0 2 := by
      simp (disch := decide) only [BitVec.extractLsb'_append_eq_of_le, Nat.reduceSub, BitVec.extractLsb'_eq_self]
    have himm : (a.extractLsb' 0 2 ++ imm).extractLsb' 0 14 = imm := by
      simp (disch := decide) only [BitVec.extractLsb'_append_eq_of_add_le, BitVec.extractLsb'_eq_self]
    have ha : a.extractLsb' 3 3 ++ (0 : BitVec 1) ++ (a.extractLsb' 0 2 ++ imm).extractLsb' 14 2 = a := by
      rw [hmask, ← h]
      exact thirds (n := 3) (k := 1) (m := 2) a rfl
    exact congrArg₂ (fun a imm => some (packS 0x10 0 a imm)) ha himm
  case h_2 | h_4 => exact fun h => congrArg (some ∘ packS 0x10 _ a) (append_low h)
  case h_3 =>
    rintro rfl h
    exact congrArg (some ∘ packS 0x10 _ 0) (append_low h)

theorem decVop_reads (n : Nat) (dd da db : BitVec 5) (opt : BitVec 3) :
    Reads (packV 0x11 dd da db opt (BitVec.ofNat 8 n)) (decVop n dd da db opt) := by
  unfold decVop
  split <;> simp only [reads_none, reads_some, reads_req, Bool.and_eq_true, beq_iff_eq, and_imp] <;>
    (intros; subst_vars; rfl)

theorem decVsfn_reads (n : Nat) (dd da db : BitVec 5) (opt : BitVec 3) :
    Reads (packV 0x12 dd da db opt (BitVec.ofNat 8 n)) (decVsfn n dd da db opt) := by
  unfold decVsfn
  split <;> simp only [reads_none, reads_req, beq_iff_eq] <;> (intros; subst_vars; rfl)

/-- The register that `CHSET` and `RDRN` name by da and bit 0 of db (07 R142, R153). -/
theorem fields_splitReg {da db : BitVec 5} (h : db.extractLsb' 1 4 = 0) :
    let r : BitVec 6 := db.extractLsb' 0 1 ++ da
    r.extractLsb' 0 5 = da ∧ (0 : BitVec 4) ++ (r.extractLsb' 5 1 : BitVec 1) = db := by
  constructor
  · simp (disch := decide) only [BitVec.extractLsb'_append_eq_of_add_le, BitVec.extractLsb'_eq_self]
  · simp (disch := decide) only [BitVec.extractLsb'_append_eq_of_le, Nat.reduceSub, BitVec.extractLsb'_eq_self]
    exact append_low h

theorem decVchain_reads (n : Nat) (dd da db : BitVec 5) (opt : BitVec 3) :
    Reads (packV 0x13 dd da db opt (BitVec.ofNat 8 n)) (decVchain n dd da db opt) := by
  unfold decVchain
  dsimp only
  split <;> simp only [reads_none, reads_some, reads_req, Bool.and_eq_true, beq_iff_eq, and_imp]
  case h_1 => rfl
  case h_2 =>
    rintro rfl h
    exact congrArg₂ (fun da db => some (packV 0x13 0 da db opt 1)) (fields_splitReg h).1 (fields_splitReg h).2

theorem decVperm_reads (n : Nat) (dd da db : BitVec 5) (opt : BitVec 3) :
    Reads (packV 0x14 dd da db opt (BitVec.ofNat 8 n)) (decVperm n dd da db opt) := by
  unfold decVperm
  split <;> simp only [reads_none, reads_some, reads_req, beq_iff_eq] <;> (intros; subst_vars; rfl)

theorem decVdesc_reads (n : Nat) (d a b : BitVec 6) :
    Reads (packR 0x15 d a b (BitVec.ofNat 8 n)) (decVdesc n d a b) := by
  unfold decVdesc
  split <;> simp only [reads_none, reads_some, reads_req, beq_iff_eq] <;> (intros; subst_vars; rfl)

theorem decRed_reads (n : Nat) (dd da db : BitVec 5) (opt : BitVec 3) :
    Reads (packV 0x16 dd da db opt (BitVec.ofNat 8 n)) (decRed n dd da db opt) := by
  unfold decRed
  dsimp only
  split <;> simp only [reads_none, reads_req, reads_ite, Bool.and_eq_true, beq_iff_eq, and_imp]
  case h_1 | h_2 | h_3 =>
    rintro rfl rfl h
    exact congrArg (fun opt => some (packV 0x16 0 da 0 opt _)) (append_low h)
  case h_4 =>
    constructor
    · rintro ho rfl hdb
      obtain ⟨hlow, hhigh⟩ := fields_splitReg hdb
      refine (congrArg₂ (fun da db => some (packV 0x16 0 da db _ 3)) hlow hhigh).trans ?_
      exact congrArg (fun opt => some (packV 0x16 0 da db opt 3)) (append_low ho)
    · rintro ho rfl rfl
      have hone := (BitVec.eq_zero_or_eq_one _).resolve_left ho
      exact congrArg (fun opt => some (packV 0x16 dd 0 0 opt 3)) (append_low hone)
  case h_5 =>
    rintro hd rfl rfl ho
    exact congrArg₂ (fun dd opt => some (packV 0x16 dd 0 0 opt 4)) (append_mid_low hd rfl) (append_low ho)

theorem decMctl_reads (n : Nat) (p q opt : BitVec 6) :
    Reads (packR 0x18 p q opt (BitVec.ofNat 8 n)) (decMctl n p q opt) := by
  unfold decMctl
  dsimp only
  split <;> simp only [reads_none, reads_some, reads_req, Bool.and_eq_true, beq_iff_eq, and_imp]
  case h_1 =>
    rintro hp rfl ho
    exact congrArg₂ (fun p opt => some (packR 0x18 p 0 opt 0)) (append_mid_low hp rfl)
      (append_mid_low ho rfl)
  case h_2 =>
    intro hq ho
    exact congrArg₂ (fun q opt => some (packR 0x18 p q opt 1)) (append_low hq) (append_mid_low ho rfl)
  case h_3 =>
    intro hp ho
    exact congrArg₂ (fun p opt => some (packR 0x18 p q opt 2)) (append_low hp) (append_mid_low ho rfl)
  case h_5 =>
    rintro hp rfl
    exact congrArg (fun p => some (packR 0x18 p q 0 4)) (append_low hp)
  all_goals (intros; subst_vars; rfl)

theorem decTable_reads (n : Nat) (a : BitVec 6) (imm : BitVec 14) :
    Reads (packS 0x19 (BitVec.ofNat 6 n) a imm) (decTable n a imm) := by
  unfold decTable
  dsimp only
  split <;> simp only [reads_none, reads_req, beq_iff_eq]
  case h_1 => exact fun h => congrArg (some ∘ packS 0x19 0 a) (append_mid_low h rfl)
  case h_2 | h_3 => exact fun h => congrArg (some ∘ packS 0x19 _ a) (append_low h)

theorem decCopy_reads (n : Nat) (p q opt : BitVec 6) :
    Reads (packR 0x1A p q opt (BitVec.ofNat 8 n)) (decCopy n p q opt) := by
  unfold decCopy
  dsimp only
  split <;> simp only [reads_none, reads_some]
  all_goals exact congrArg (fun opt => some (packR 0x1A p q opt _)) (halves (n := 2) (m := 4) opt)

theorem decFab_reads (n : Nat) (p q opt : BitVec 6) :
    Reads (packR 0x1B p q opt (BitVec.ofNat 8 n)) (decFab n p q opt) := by
  unfold decFab
  dsimp only
  split <;> simp only [reads_none, reads_req, Bool.and_eq_true, beq_iff_eq, and_imp]
  all_goals
    rintro rfl h
    exact congrArg (fun opt => some (packR 0x1B p 0 opt _)) (append_low h)

theorem decBatch_reads (n : Nat) (a : BitVec 6) (imm : BitVec 14) :
    Reads (packS 0x1C (BitVec.ofNat 6 n) a imm) (decBatch n a imm) := by
  unfold decBatch
  dsimp only
  split <;> simp only [reads_none, reads_req, Bool.and_eq_true, beq_iff_eq, and_imp]
  case h_4 | h_5 =>
    rintro rfl h
    exact congrArg (some ∘ packS 0x1C _ 0) (append_low h)
  case h_6 | h_7 => exact fun h => congrArg (some ∘ packS 0x1C _ a) (append_low h)
  all_goals (rintro rfl; rfl)


/-- The major of a word as the formats write it. -/
theorem major_eq {w : IWord} {k : Nat} (h : (fld w 26 5).toNat = k) : BitVec.ofNat 5 k = fld w 26 5 := by
  rw [← h, BitVec.ofNat_toNat, BitVec.setWidth_eq]

/-- A decoder of format F-S reads the word's own fields. -/
theorem reads_formatS {w : IWord} {k : Nat} (h : (fld w 26 5).toNat = k)
    {dec : Nat → BitVec 6 → BitVec 14 → Option Instr}
    (hdec : ∀ n a imm, Reads (packS (BitVec.ofNat 5 k) (BitVec.ofNat 6 n) a imm) (dec n a imm)) :
    Reads (fld w 0 31) (dec (fld w 20 6).toNat (fld w 14 6) (fld w 0 14)) := by
  have hread := hdec (fld w 20 6).toNat (fld w 14 6) (fld w 0 14)
  rwa [major_eq h, BitVec.ofNat_toNat, BitVec.setWidth_eq, packS_fields] at hread

/-- A decoder of format F-R reads the word's own fields. -/
theorem reads_formatR {w : IWord} {k : Nat} (h : (fld w 26 5).toNat = k)
    {dec : Nat → BitVec 6 → BitVec 6 → BitVec 6 → Option Instr}
    (hdec : ∀ n d a b, Reads (packR (BitVec.ofNat 5 k) d a b (BitVec.ofNat 8 n)) (dec n d a b)) :
    Reads (fld w 0 31) (dec (fld w 0 8).toNat (fld w 20 6) (fld w 14 6) (fld w 8 6)) := by
  have hread := hdec (fld w 0 8).toNat (fld w 20 6) (fld w 14 6) (fld w 8 6)
  rwa [major_eq h, BitVec.ofNat_toNat, BitVec.setWidth_eq, packR_fields] at hread

/-- A decoder of format F-V reads the word's own fields. -/
theorem reads_formatV {w : IWord} {k : Nat} (h : (fld w 26 5).toNat = k)
    {dec : Nat → BitVec 5 → BitVec 5 → BitVec 5 → BitVec 3 → Option Instr}
    (hdec : ∀ n dd da db opt, Reads (packV (BitVec.ofNat 5 k) dd da db opt (BitVec.ofNat 8 n)) (dec n dd da db opt)) :
    Reads (fld w 0 31) (dec (fld w 0 8).toNat (fld w 21 5) (fld w 16 5) (fld w 11 5) (fld w 8 3)) := by
  have hread := hdec (fld w 0 8).toNat (fld w 21 5) (fld w 16 5) (fld w 11 5) (fld w 8 3)
  rwa [major_eq h, BitVec.ofNat_toNat, BitVec.setWidth_eq, packV_fields] at hread

theorem reads_iali {w : IWord} (h : (fld w 26 5).toNat = 0x05) :
    Reads (fld w 0 31) (decIali (fld w 11 3).toNat (fld w 20 6) (fld w 14 6) (fld w 0 11)) := by
  have hread := decIali_reads (fld w 11 3).toNat (fld w 20 6) (fld w 14 6) (fld w 0 11)
  rwa [BitVec.ofNat_toNat, BitVec.setWidth_eq, show (0x05 : BitVec 5) = _ from major_eq h, packI_fields] at hread

theorem reads_fpu {w : IWord} (h : (fld w 26 5).toNat = 0x08) :
    Reads (fld w 0 31) (decFpu (fld w 0 6).toNat (fld w 6 2) (fld w 20 6) (fld w 14 6) (fld w 8 6)) := by
  have hread := decFpu_reads (fld w 0 6).toNat (fld w 6 2) (fld w 20 6) (fld w 14 6) (fld w 8 6)
  rwa [BitVec.ofNat_toNat, BitVec.setWidth_eq, fld_append w (by decide),
    show (0x08 : BitVec 5) = _ from major_eq h, packR_fields] at hread

theorem reads_cmp {w : IWord} (h : (fld w 26 5).toNat = 0x09) :
    Reads (fld w 0 31) (decCmp (fld w 4 4).toNat (fld w 0 4) (fld w 20 6) (fld w 14 6) (fld w 8 6)) := by
  have hread := decCmp_reads (fld w 4 4).toNat (fld w 0 4) (fld w 20 6) (fld w 14 6) (fld w 8 6)
  rwa [BitVec.ofNat_toNat, BitVec.setWidth_eq, fld_append w (by decide),
    show (0x09 : BitVec 5) = _ from major_eq h, packR_fields] at hread

theorem reads_tag {w : IWord} (h : (fld w 26 5).toNat = 0x0E) :
    Reads (fld w 0 31)
      (decTag (fld w 5 3).toNat (fld w 20 6) (fld w 14 6) (fld w 10 4) (fld w 8 2) (fld w 0 5)) := by
  have hread := decTag_reads (fld w 5 3).toNat (fld w 20 6) (fld w 14 6) (fld w 10 4) (fld w 8 2) (fld w 0 5)
  rwa [BitVec.ofNat_toNat, BitVec.setWidth_eq, fld_append w (by decide),
    show (0x0E : BitVec 5) = _ from major_eq h, packM_fields] at hread

theorem reads_atom {w : IWord} (h : (fld w 26 5).toNat = 0x0F) (hres : fld w 0 3 = 0) :
    Reads (fld w 0 31)
      (decAtom (fld w 3 4).toNat (fld w 20 6) (fld w 14 6) (fld w 10 4) (fld w 8 2) (fld w 7 1)) := by
  have hread := decAtom_reads (fld w 3 4).toNat (fld w 20 6) (fld w 14 6) (fld w 10 4) (fld w 8 2) (fld w 7 1)
  rwa [BitVec.ofNat_toNat, BitVec.setWidth_eq, ← hres,
    show (0x0F : BitVec 5) = _ from major_eq h, packA_fields] at hread

/-- The bits of `MSTEP`, whose flags stand below two reserved bits (08 R173). -/
theorem encodeBody_mstep {w : IWord} (h : (fld w 26 5).toNat = 0x17) (hres : fld w 2 2 = 0) :
    encodeBody (.mstep (fld w 23 3) (fld w 22 1) (fld w 17 5) (fld w 12 5) (fld w 6 6) (fld w 4 2) (fld w 0 2))
      = some (fld w 0 31) := by
  have hflags : (0 : BitVec 2) ++ fld w 0 2 = fld w 0 4 := by rw [← hres, fld_append w (by decide)]
  rw [← packMS_fields w, ← hflags, ← major_eq h]
  rfl

/-- The decoder answers for the bits below the chain bit: each major reads its format's fields (03 R27, R28). -/
theorem decode_reads (w : IWord) : Reads (fld w 0 31) (decode w) := by
  unfold decode
  dsimp only
  split
  case h_1 h => exact reads_formatS h decCtl_reads
  case h_2 h => rw [reads_some, ← packB_fields w, ← major_eq h]; rfl
  case h_3 h => rw [reads_some, ← packC_fields w, ← major_eq h]; rfl
  case h_4 h => exact reads_formatS h decSys_reads
  case h_5 h => exact reads_formatR h decIalu_reads
  case h_6 h => exact reads_iali h
  case h_7 h => rw [reads_some, ← packL_fields w, ← major_eq h]; rfl
  case h_8 h => rw [reads_some, ← packK_fields w, ← major_eq h]; rfl
  case h_9 h => exact reads_fpu h
  case h_10 h => exact reads_cmp h
  case h_11 h => exact reads_formatR h decField_reads
  case h_12 h => rw [← packM_fields w, ← major_eq h]; exact decLd_reads _ _ _ _ _
  case h_13 h => rw [reads_some, ← packM_fields w, ← major_eq h]; rfl
  case h_14 h => exact reads_tag h
  case h_15 h => simpa only [beq_iff_eq, reads_ite, reads_none, implies_true, and_true] using reads_atom h
  case h_16 h => exact reads_formatS h decOrder_reads
  case h_17 h => exact reads_formatV h decVop_reads
  case h_18 h => exact reads_formatV h decVsfn_reads
  case h_19 h => exact reads_formatV h decVchain_reads
  case h_20 h => exact reads_formatV h decVperm_reads
  case h_21 h => exact reads_formatR h decVdesc_reads
  case h_22 h => exact reads_formatV h decRed_reads
  case h_23 h =>
    simpa only [beq_iff_eq, reads_ite, reads_none, reads_some, implies_true, and_true] using encodeBody_mstep h
  case h_24 h => exact reads_formatR h decMctl_reads
  case h_25 h => exact reads_formatS h decTable_reads
  case h_26 h => exact reads_formatR h decCopy_reads
  case h_27 h => exact reads_formatR h decFab_reads
  case h_28 h => exact reads_formatS h decBatch_reads
  case h_29 h => rw [reads_some, ← packL_fields w, ← major_eq h]; rfl
  case h_30 => exact (reads_none _).mpr trivial

/-- Settles O2: the decoder answers for the bits of the word below its chain bit. -/
theorem encodeInvertsDecode : Obligations.EncodeInvertsDecode := by
  intro w i h
  rw [encode, decode_reads w i h, Option.map_some, chainBit_append_fld]

/-- The chain bit of an encoded word is the one it was encoded with (03 R20). -/
theorem chainBit_encode {c : Bool} {i : Instr} {w : IWord} (h : encode c i = some w) : chainBit w = c := by
  obtain ⟨b, -, rfl⟩ := Option.map_eq_some_iff.mp h
  rw [chainBit, BitVec.getLsbD_append]
  cases c <;> simp

/-- The decoder reads every instruction back from the encoder's word; a step has none. -/
theorem roundTrip (i : Instr) : RoundTrip.Statement i := by
  cases i with
  | nop => exact RoundTrip.nop
  | endTask => exact RoundTrip.endTask
  | yield => exact RoundTrip.yield
  | jmp => exact RoundTrip.jmp _
  | jmpl => exact RoundTrip.jmpl _
  | ret => exact RoundTrip.ret
  | loop => exact RoundTrip.loop _ _
  | br => exact RoundTrip.br _ _ _
  | call => exact RoundTrip.call _
  | trap => exact RoundTrip.trap _
  | eret => exact RoundTrip.eret
  | eretTo => exact RoundTrip.eretTo _
  | check => exact RoundTrip.check _
  | checkPred => exact RoundTrip.checkPred _
  | mfs => exact RoundTrip.mfs _ _
  | mts => exact RoundTrip.mts _ _
  | brk => exact RoundTrip.brk _
  | mark => exact RoundTrip.mark _ _
  | swapc => exact RoundTrip.swapc
  | tlbinvPage => exact RoundTrip.tlbinvPage _
  | tlbinvAsid => exact RoundTrip.tlbinvAsid _
  | tlbinvLocal => exact RoundTrip.tlbinvLocal
  | tlbinvAll => exact RoundTrip.tlbinvAll
  | svc => exact RoundTrip.svc _
  | add => exact RoundTrip.add _ _ _
  | sub => exact RoundTrip.sub _ _ _
  | mul => exact RoundTrip.mul _ _ _
  | mulh => exact RoundTrip.mulh _ _ _
  | mulhn => exact RoundTrip.mulhn _ _ _
  | div => exact RoundTrip.div _ _ _
  | divn => exact RoundTrip.divn _ _ _
  | rem => exact RoundTrip.rem _ _ _
  | remn => exact RoundTrip.remn _ _ _
  | and => exact RoundTrip.and _ _ _
  | or => exact RoundTrip.or _ _ _
  | xor => exact RoundTrip.xor _ _ _
  | andn => exact RoundTrip.andn _ _ _
  | shl => exact RoundTrip.shl _ _ _
  | shr => exact RoundTrip.shr _ _ _
  | sar => exact RoundTrip.sar _ _ _
  | rotl => exact RoundTrip.rotl _ _ _
  | min => exact RoundTrip.min _ _ _
  | max => exact RoundTrip.max _ _ _
  | minn => exact RoundTrip.minn _ _ _
  | maxn => exact RoundTrip.maxn _ _ _
  | clz => exact RoundTrip.clz _ _
  | popc => exact RoundTrip.popc _ _
  | sext => exact RoundTrip.sext _ _ _
  | zext => exact RoundTrip.zext _ _ _
  | addi => exact RoundTrip.addi _ _ _
  | andi => exact RoundTrip.andi _ _ _
  | ori => exact RoundTrip.ori _ _ _
  | xori => exact RoundTrip.xori _ _ _
  | shli => exact RoundTrip.shli _ _ _
  | shri => exact RoundTrip.shri _ _ _
  | sari => exact RoundTrip.sari _ _ _
  | movi => exact RoundTrip.movi _ _
  | movk => exact RoundTrip.movk _ _ _
  | fadd => exact RoundTrip.fadd _ _ _ _
  | fsub => exact RoundTrip.fsub _ _ _ _
  | fmul => exact RoundTrip.fmul _ _ _ _
  | ffma => exact RoundTrip.ffma _ _ _ _
  | fmin => exact RoundTrip.fmin _ _ _ _
  | fmax => exact RoundTrip.fmax _ _ _ _
  | fabs => exact RoundTrip.fabs _ _ _
  | fneg => exact RoundTrip.fneg _ _ _
  | fcpys => exact RoundTrip.fcpys _ _ _ _
  | fcvti => exact RoundTrip.fcvti _ _ _ _ _
  | fcvtf => exact RoundTrip.fcvtf _ _ _ _ _
  | fcvtw => exact RoundTrip.fcvtw _ _ _ _
  | cmp => exact RoundTrip.cmp _ _ _ _
  | fcmp => exact RoundTrip.fcmp _ _ _ _
  | plog => exact RoundTrip.plog _ _ _ _
  | tst => exact RoundTrip.tst _ _ _ _
  | bfx => exact RoundTrip.bfx _ _ _
  | bfi => exact RoundTrip.bfi _ _ _
  | lea => exact RoundTrip.lea _ _ _
  | sel => exact RoundTrip.sel _ _ _
  | ld => exact RoundTrip.ld _ _ _ _
  | lds => exact RoundTrip.lds _ _ _ _
  | ldc => exact RoundTrip.ldc _ _ _ _
  | ldf => exact RoundTrip.ldf _ _ _ _
  | ldfe => exact RoundTrip.ldfe _ _ _ _
  | st => exact RoundTrip.st _ _ _ _ _
  | stf => exact RoundTrip.stf _ _ _ _ _
  | ste => exact RoundTrip.ste _ _ _ _ _
  | sete => exact RoundTrip.sete _ _ _ _
  | setf => exact RoundTrip.setf _ _ _ _
  | tagq => exact RoundTrip.tagq _ _ _ _
  | aadd => exact RoundTrip.aadd _ _ _ _ _
  | amin => exact RoundTrip.amin _ _ _ _ _
  | amax => exact RoundTrip.amax _ _ _ _ _
  | aminn => exact RoundTrip.aminn _ _ _ _ _
  | amaxn => exact RoundTrip.amaxn _ _ _ _ _
  | aand => exact RoundTrip.aand _ _ _ _ _
  | aor => exact RoundTrip.aor _ _ _ _ _
  | axor => exact RoundTrip.axor _ _ _ _ _
  | aswp => exact RoundTrip.aswp _ _ _ _ _
  | afadd => exact RoundTrip.afadd _ _ _ _ _
  | acas => exact RoundTrip.acas _ _ _ _ _
  | fence => exact RoundTrip.fence _ _
  | slkset => exact RoundTrip.slkset _ _
  | wdrain => exact RoundTrip.wdrain _
  | wallow => exact RoundTrip.wallow _ _
  | vadd => exact RoundTrip.vadd _ _ _ _
  | vsub => exact RoundTrip.vsub _ _ _ _
  | vmul => exact RoundTrip.vmul _ _ _ _
  | vfma => exact RoundTrip.vfma _ _ _ _
  | vmin => exact RoundTrip.vmin _ _ _ _
  | vmax => exact RoundTrip.vmax _ _ _ _
  | vabs => exact RoundTrip.vabs _ _ _
  | vneg => exact RoundTrip.vneg _ _ _
  | vand => exact RoundTrip.vand _ _ _ _
  | vor => exact RoundTrip.vor _ _ _ _
  | vxor => exact RoundTrip.vxor _ _ _ _
  | vshl => exact RoundTrip.vshl _ _ _ _
  | vshr => exact RoundTrip.vshr _ _ _ _
  | vcmp => exact RoundTrip.vcmp _ _ _ _
  | vsel => exact RoundTrip.vsel _ _ _ _
  | vcopy => exact RoundTrip.vcopy _ _ _
  | vfill => exact RoundTrip.vfill _ _ _
  | vcvt => exact RoundTrip.vcvt _ _ _
  | viota => exact RoundTrip.viota _ _
  | vexp2 => exact RoundTrip.vexp2 _ _ _
  | vlog2 => exact RoundTrip.vlog2 _ _ _
  | vrcp => exact RoundTrip.vrcp _ _ _
  | vrsq => exact RoundTrip.vrsq _ _ _
  | vsig => exact RoundTrip.vsig _ _ _
  | vtanh => exact RoundTrip.vtanh _ _ _
  | vgelu => exact RoundTrip.vgelu _ _ _
  | vchain => exact RoundTrip.vchain _ _ _ _
  | chset => exact RoundTrip.chset _ _
  | vcomp => exact RoundTrip.vcomp _ _ _ _
  | vexpd => exact RoundTrip.vexpd _ _ _ _
  | vgath => exact RoundTrip.vgath _ _ _ _
  | vscat => exact RoundTrip.vscat _ _ _ _
  | vscan => exact RoundTrip.vscan _ _ _
  | vtrn => exact RoundTrip.vtrn _ _ _
  | dset => exact RoundTrip.dset _ _ _
  | dget => exact RoundTrip.dget _ _ _
  | dadv => exact RoundTrip.dadv _ _
  | dcnt => exact RoundTrip.dcnt _ _
  | radd => exact RoundTrip.radd _ _
  | rmin => exact RoundTrip.rmin _ _
  | rmax => exact RoundTrip.rmax _ _
  | rdrn => exact RoundTrip.rdrn _ _
  | rdrnDesc => exact RoundTrip.rdrnDesc _ _
  | rclr => exact RoundTrip.rclr _ _ _
  | mstep => exact RoundTrip.mstep _ _ _ _ _ _ _
  | mzero => exact RoundTrip.mzero _ _ _ _
  | mdrain => exact RoundTrip.mdrain _ _ _ _
  | mlda => exact RoundTrip.mlda _ _ _ _
  | mwgt => exact RoundTrip.mwgt _
  | sload => exact RoundTrip.sload _ _
  | ssel => exact RoundTrip.ssel _
  | mflow => exact RoundTrip.mflow _
  | mskew => exact RoundTrip.mskew _
  | mfmt => exact RoundTrip.mfmt _ _ _
  | scld => exact RoundTrip.scld _ _ _
  | fmset => exact RoundTrip.fmset _ _
  | fmget => exact RoundTrip.fmget _ _
  | cpy => exact RoundTrip.cpy _ _ _ _
  | cpyt => exact RoundTrip.cpyt _ _ _ _
  | cpyp => exact RoundTrip.cpyp _ _ _ _
  | cpyg => exact RoundTrip.cpyg _ _ _ _
  | cpyw => exact RoundTrip.cpyw _ _ _ _
  | cpyc => exact RoundTrip.cpyc _ _ _ _
  | cpost => exact RoundTrip.cpost _ _
  | ccancel => exact RoundTrip.ccancel _ _
  | cquery => exact RoundTrip.cquery _ _
  | tsend => exact RoundTrip.tsend _ _
  | commit => exact RoundTrip.commit _
  | waitb => exact RoundTrip.waitb _
  | testb => exact RoundTrip.testb _
  | bara => exact RoundTrip.bara _
  | barw => exact RoundTrip.barw _
  | bart => exact RoundTrip.bart _ _
  | barcfg => exact RoundTrip.barcfg _ _
  | npost => exact RoundTrip.npost _
  | requeue => exact RoundTrip.requeue _
  | exper => exact RoundTrip.exper _ _
  | _ => exact roundTrip_none rfl

/-- Settles O1: the decoder reads each instruction back, and ignores the chain bit that stands above it. -/
theorem decodeInvertsEncode : Obligations.DecodeInvertsEncode :=
  fun i c w h => ⟨roundTrip i c w h, chainBit_encode h⟩

/-- Settles O3: the decoder evaluates on each of the words. -/
theorem writtenWordsDecode : Obligations.WrittenWordsDecode := by
  unfold Obligations.WrittenWordsDecode
  and_intros <;> decide

end Sys2Proof.EncodingProofs

/-! ### Registers: hard-wired ones, results in flight (03 R23, R31, R32, R36) -/

namespace Sys2Proof.RegisterProofs

open Sys2Proof Sys2Proof.Machine Sys2Proof.Laws

/-- Settles O12: reads of s0 and k0 do not look at the stored value, and writes to them are dropped. -/
theorem hardwiredRegisters : Obligations.HardwiredRegisters :=
  fun s v p n => ⟨rfl, rfl, (wreg_spec s 0 v n).1 rfl, (wpred_spec s 0 p n).1 rfl⟩

/-! What a read sees -/

/-- A scalar register but s0 holds what is stored unless a result to it is seen. -/
theorem sreg_of_visible_none {c : Ctx} {r : SReg} (hr : r ≠ 0) (h : c.visible r.toNat = none) :
    c.sreg r = c.regs[r.toNat]'r.isLt := by
  rw [Ctx.sreg, if_neg (by simpa using hr), h]

theorem sreg_of_visible_some {c : Ctx} {r d : SReg} {v : Reg} (hr : r ≠ 0)
    (h : c.visible r.toNat = some (.sreg d v)) : c.sreg r = v := by
  rw [Ctx.sreg, if_neg (by simpa using hr), h]

theorem preg_of_visible_none {c : Ctx} {k : PRegNum} (hk : k ≠ 0) (h : c.visible (100 + k.toNat) = none) :
    c.preg k = c.preds[k.toNat]'k.isLt := by
  rw [Ctx.preg, if_neg (by simpa using hk), h]

theorem preg_of_visible_some {c : Ctx} {k d : PRegNum} {v : PReg} (hk : k ≠ 0)
    (h : c.visible (100 + k.toNat) = some (.pred d v)) : c.preg k = v := by
  rw [Ctx.preg, if_neg (by simpa using hk), h]

/-- Nothing on its way to a destination is seen there. -/
theorem visible_of_unsent {c : Ctx} {key : Nat} (h : ∀ p ∈ c.pend, p.w.key ≠ some key) :
    c.visible key = none := by
  have hnone : c.inFlight key = [] := by
    simp only [Ctx.inFlight, List.filter_eq_nil_iff, Bool.and_eq_true, beq_iff_eq, not_and]
    exact fun p hp hkey => absurd hkey (h p hp)
  simp [Ctx.visible, hnone]

/-- The one result on its way to a destination is seen from its landing on (03 R31). -/
theorem visible_of_lone {c : Ctx} {key : Nat} {l : List Pend} {p : Pend} (hpend : c.pend = l ++ [p])
    (hother : ∀ q ∈ l, q.w.key ≠ some key) (hkey : p.w.key = some key) (hbase : p.w.isBase = false)
    (hknown : p.w.known = true) (happ : p.applied = false) (hland : 1 ≤ p.land) :
    c.visible key = if p.issued + p.land ≤ c.icyc then some p.w else none := by
  have hold : l.filter (fun q => q.w.key == some key && decide (q.issued < c.icyc)) = [] := by
    simp only [List.filter_eq_nil_iff, Bool.and_eq_true, beq_iff_eq, not_and]
    exact fun q hq hkey => absurd hkey (hother q hq)
  have hflight : c.inFlight key = if p.issued < c.icyc then [p] else [] := by
    rw [Ctx.inFlight, hpend, List.filter_append, hold]
    simp [List.filter_cons, hkey]
  by_cases hlanded : p.issued + p.land ≤ c.icyc
  · have hsent : p.issued < c.icyc := by omega
    simp [Ctx.visible, hflight, hsent, hbase, happ, Pend.landed, hknown, hlanded]
  · by_cases hsent : p.issued < c.icyc <;>
      simp [Ctx.visible, hflight, hsent, hbase, happ, Pend.landed, hknown, hlanded]

/-- A result sent to a destination that nothing else is on its way to lands once, within its bound: it is seen there
from one issue cycle on, and nothing before (03 R31). -/
theorem push_visible_once (s : State) {w : Write} {key L : Nat} (hkey : w.key = some key) (hbase : w.isBase = false)
    (hknown : w.known = true) (hL : 1 ≤ L) (hother : ∀ p ∈ s.cx.pend, p.w.key ≠ some key) :
    ∃ k, 1 ≤ k ∧ k ≤ L ∧ ∀ n,
      ({ (s.push w L).cx with icyc := s.cx.icyc + n }).visible key = if n < k then none else some w := by
  obtain ⟨land, fv, hlow, hhigh, hpush⟩ := push_spec s w L
  refine ⟨land, hlow, Nat.max_eq_right hL ▸ hhigh, fun n => ?_⟩
  rw [hpush, visible_of_lone (p := { w := w, issued := s.cx.icyc, bound := L, land := land }) rfl hother hkey hbase
    hknown rfl hlow]
  by_cases h : n < land
  · rw [if_pos h, if_neg (by simpa using h)]
  · rw [if_neg h, if_pos (by simpa using h)]

/-- Settles O13: before the landing a read finds the register stored, from then on the result. -/
theorem resultLandsOnceWithinBound : Obligations.ResultLandsOnceWithinBound := by
  constructor
  · intro s r v L hr hL hv hother
    obtain ⟨k, hlow, hhigh, hseen⟩ := push_visible_once s (w := .sreg r v) rfl rfl rfl hL hother
    refine ⟨k, hlow, hhigh, fun n => ?_⟩
    rw [(wreg_spec s r v L).2.1 hr hv]
    by_cases h : n < k
    · rw [if_pos h, sreg_of_visible_none hr (visible_of_unsent hother),
        sreg_of_visible_none hr ((hseen n).trans (if_pos h))]
      rfl
    · rw [if_neg h, sreg_of_visible_some hr ((hseen n).trans (if_neg h))]
  · intro s r v L hr hL hv hother
    obtain ⟨k, hlow, hhigh, hseen⟩ := push_visible_once s (w := .pred r v) rfl rfl rfl hL hother
    refine ⟨k, hlow, hhigh, fun n => ?_⟩
    rw [(wpred_spec s r v L).2.1 hr hv]
    by_cases h : n < k
    · rw [if_pos h, preg_of_visible_none hr (visible_of_unsent hother),
        preg_of_visible_none hr ((hseen n).trans (if_pos h))]
      rfl
    · rw [if_neg h, preg_of_visible_some hr ((hseen n).trans (if_neg h))]

/-! A bundle does not see its own results -/

/-- A result sent in this issue cycle is not seen in it: it issued with the bundle that reads (03 R23). -/
@[simp] theorem visible_push (s : State) (w : Write) (n key : Nat) :
    (s.push w n).cx.visible key = s.cx.visible key := by
  have hflight : (s.push w n).cx.inFlight key = s.cx.inFlight key := by
    obtain ⟨land, fv, -, -, hpush⟩ := push_spec s w n
    simp [hpush, Ctx.inFlight]
  rw [Ctx.visible, hflight]
  rfl

@[simp] theorem sreg_push (s : State) (w : Write) (n : Nat) (r : SReg) : (s.push w n).cx.sreg r = s.cx.sreg r := by
  rw [Ctx.sreg, visible_push]
  rfl

@[simp] theorem preg_push (s : State) (w : Write) (n : Nat) (k : PRegNum) : (s.push w n).cx.preg k = s.cx.preg k := by
  rw [Ctx.preg, visible_push]
  rfl

/-- Issuing a result for a scalar register leaves every read of the cycle as it was. -/
theorem reads_wreg (s : State) (d r : SReg) (k : PRegNum) (v : Reg) (n : Nat) :
    (s.wreg d v n).cx.sreg r = s.cx.sreg r ∧ (s.wreg d v n).cx.preg k = s.cx.preg k := by
  obtain ⟨hzero, hplain, hpoisoned⟩ := wreg_spec s d v n
  by_cases hd : d = 0
  · simp [hzero hd]
  · cases hv : v.poison
    · simp [hplain hd hv]
    · obtain ⟨x, hx⟩ := hpoisoned hd hv
      simp [hx]

/-- Issuing a result for a predicate leaves every read of the cycle as it was. -/
theorem reads_wpred (s : State) (e k : PRegNum) (r : SReg) (p : PReg) (n : Nat) :
    (s.wpred e p n).cx.sreg r = s.cx.sreg r ∧ (s.wpred e p n).cx.preg k = s.cx.preg k := by
  obtain ⟨hzero, hplain, hpoisoned⟩ := wpred_spec s e p n
  by_cases he : e = 0
  · simp [hzero he]
  · cases hp : p.poison
    · simp [hplain he hp]
    · obtain ⟨x, hx⟩ := hpoisoned he hp
      simp [hx]

/-! Two results on their way to one register -/

/-- A read of a destination with two results on their way sees the stored value or one of the two (03 R32). -/
theorem visible_of_pair {c : Ctx} {key : Nat} {p q : Pend} (h : c.inFlight key = [p, q]) (hp : p.w.isBase = false)
    (hq : q.w.isBase = false) :
    c.visible key = none ∨ c.visible key = some p.w ∨ c.visible key = some q.w := by
  have hfilter : (c.inFlight key).filter (fun x => !x.w.isBase) = [p, q] := by simp [h, hp, hq]
  have hpicked : ∀ n : Nat, ((readable c.icyc [p, q])[n]?).map Pend.w = none
      ∨ ((readable c.icyc [p, q])[n]?).map Pend.w = some p.w
      ∨ ((readable c.icyc [p, q])[n]?).map Pend.w = some q.w := by
    intro n
    rcases hx : (readable c.icyc [p, q])[n]? with _ | x
    · exact .inl rfl
    · have hmem : x ∈ [p, q] := (List.mem_filter.mp (List.mem_of_getElem? hx)).1
      rcases List.mem_pair.mp hmem with rfl | rfl
      · exact .inr (.inl rfl)
      · exact .inr (.inr rfl)
  rw [Ctx.visible, hfilter]
  dsimp only
  generalize (if oldReadable c.icyc [p, q] = true then 1 else 0) = old
  by_cases hold : Config.readPick c.icyc key
      % (if (readable c.icyc [p, q]).length + old = 0 then 1 else (readable c.icyc [p, q]).length + old) < old
  · exact .inl (if_pos hold)
  · rw [if_neg hold]
    exact hpicked _

/-- Of two overlapping results the earlier is never replaced, so it may be the final one, and the later may be too
unless its own bound is none. -/
theorem candidates_of_pair {p q : Pend} (hord : p.issued ≤ q.issued) (hover : q.issued < p.issued + p.bound) :
    candidates [p, q] = [p, q] ∨ candidates [p, q] = [p] := by
  have hp : ¬ p.issued + p.bound ≤ p.issued ∧ ¬ p.issued + p.bound ≤ q.issued := by omega
  obtain ⟨hpp, hpq⟩ := hp
  by_cases hq : q.bound = 0
  · exact .inr (by simp [candidates, hpp, hpq, hq])
  · exact .inl (by simp [candidates, List.filter_cons, hpp, hpq, hq]; omega)

/-- A group whose pick is a scalar result that has not been applied writes it to its register. -/
theorem applyOne_sreg (s : State) (l : List Pend) {p : Pend} {r : SReg} {v : Reg} (hw : p.w = .sreg r v)
    (happ : p.applied = false) : (s.applyOne l (some p)).cx.regs[r.toNat]'r.isLt = v := by
  simp [State.applyOne, hw, happ, State.applyWrite]

/-- Two overlapping scalar results leave one of their values (03 R32). -/
theorem applyGroup_pair (s : State) {r : SReg} {v w : Reg} {p q : Pend} (hp : p.w = .sreg r v) (hq : q.w = .sreg r w)
    (happ : p.applied = false) (happ' : q.applied = false) (hord : p.issued ≤ q.issued)
    (hover : q.issued < p.issued + p.bound) :
    (s.applyGroup [p, q]).cx.regs[r.toNat]'r.isLt = v ∨ (s.applyGroup [p, q]).cx.regs[r.toNat]'r.isLt = w := by
  have hfilter : [p, q].filter (fun x => !x.w.isBase) = [p, q] := by simp [hp, hq, Write.isBase]
  unfold State.applyGroup
  rw [hfilter]
  rcases candidates_of_pair hord hover with hboth | hone
  · rw [hboth]
    dsimp only
    rcases (s.choose 2).1 with _ | _ | n
    · exact .inl (applyOne_sreg _ _ hp happ)
    · exact .inr (applyOne_sreg _ _ hq happ')
    · exact .inl (applyOne_sreg _ _ hp happ)
  · rw [hone]
    exact .inl (applyOne_sreg s _ hp happ)

/-- Settles O14: a read passes over the results of its own cycle, of two results it sees one or neither, and a poisoned
one draws its value bits. -/
theorem resultsInFlight : Obligations.ResultsInFlight := by
  refine ⟨fun s d r e k v p n => ?_,
    fun s r v w p q hr hp hq happ happ' hord hover => ⟨fun hflight => ?_, ?_⟩, ?_⟩
  · obtain ⟨hss, hsp⟩ := reads_wreg s d r k v n
    exact ⟨hss, hsp, reads_wpred s e k r p n⟩
  · rcases visible_of_pair hflight (by rw [hp]; rfl) (by rw [hq]; rfl) with h | h | h
    · exact .inr (.inr (sreg_of_visible_none hr h))
    · exact .inl (sreg_of_visible_some hr (h.trans (congrArg some hp)))
    · exact .inr (.inl (sreg_of_visible_some hr (h.trans (congrArg some hq))))
  · exact applyGroup_pair s hp hq happ happ' hord hover
  · intro s r v L hr hv
    rw [State.wreg, if_neg (by simpa using hr), if_pos hv]
    rfl

end Sys2Proof.RegisterProofs

/-! ### Memory: bytes written are read back (03 R20, 06 R95) -/

namespace Sys2Proof.MemoryProofs

open Sys2Proof Sys2Proof.Machine Sys2Proof.Laws

/-- Settles O11, with the lemmas about `setBytes`, each by induction on the bytes written. -/
theorem memoryReadsBack : Obligations.MemoryReadsBack :=
  fun s loc l a => ⟨byte_setBytes s loc l a, setBytes_empties s loc l, setBytes_marks s loc l,
    fun h => setBytes_memOk h loc l⟩

end Sys2Proof.MemoryProofs

/-! ### Issue of a word that stands alone (03 R20, R24, R38, R40, R336) -/

namespace Sys2Proof.IssueProofs

open Sys2Proof Sys2Proof.Machine Sys2Proof.Laws

/-- With nothing on the agenda, power on and no stall, a step in which a bundle may issue is that bundle's issue. -/
theorem step_eq_issueBundle {s : State} (hagenda : s.agenda = []) (hon : s.host.off = false)
    (hstall : s.stalled = false) (hmay : s.mayIssue = true) : step s = s.issueBundle (s.runAt 7 s.cx.pc) := by
  simp [step, hagenda, hon, hstall, State.issue, hmay]

/-- A word in the code whose chain bit is clear is a run of its own (03 R22). -/
theorem runAt_single {s : State} {n : Nat} {a : Word} (hin : s.inCode a = true)
    (hchain : chainBit (s.fetchWord a) = false) : s.runAt (n + 1) a = [some (s.fetchWord a)] := by
  simp [State.runAt, hin, hchain]

/-- A bundle of one word keeps every rule of 03 R39. -/
theorem illbun_single (s : State) (w : IWord) : s.illbun [some w] = none := by
  have hbreach : breach ((s.cx.pc.toNat - s.cx.codeOrigin.toNat) / 4) [some w] 0 = none := by
    cases hp : pipeOf w with
    | none => simp [breach, hp]
    | some p => cases p <;> simp [breach, hp, Pipe.room]
  simp [State.illbun, State.breachAt, hbreach]

/-- The causes met as soon as a bundle of one word stands at the fetch address. -/
theorem preTrap_single (s : State) (w : IWord) :
    s.preTrap [some w] = firstOf [s.illopOf [w], s.lqShort [w]] := by
  simp [State.preTrap, illbun_single, firstOf]

/-- ILLOP of a word alone, at index 0. -/
theorem illopOf_single {s : State} (w : IWord) (hidx : s.widx = 0) :
    s.illopOf [w] = if wordIllegal w || s.illegalNow w then some ⟨1, mkWord w.toNat⟩ else none := by
  have hat : s.atWord 0 = s := by rw [State.atWord, ← hidx]
  simp [State.illopOf, hat]

/-- `tval` of a cause at a word that has just come into issue alone. -/
theorem tvalWord_enterBundle (s : State) (w : IWord) : (s.enterBundle [w]).tvalWord = mkWord w.toNat := by
  simp [State.tvalWord, State.curWord, State.enterBundle]

/-- LQEMPTY of a word alone (06 R104). -/
theorem lqShort_single {s : State} {w : IWord} {i : Instr} {x : WordSpec} (hdec : decode w = some i)
    (hword : wordOf i = some x) :
    s.lqShort [w] = if s.cx.lq.length < x.pops then some ⟨4, lqEmptyTval x.pops s.cx.lq.length⟩ else none := by
  simp [State.lqShort, bundleSpecs, hdec, hword]

/-- A cause met at once is delivered, and the bundle is over. -/
theorem issueBundle_trap {s : State} {w : IWord} {t : TrapReq}
    (h : (s.enterBundle [w]).preTrap [some w] = some t) :
    s.issueBundle [some w] = .next ((s.enterBundle [w]).trapIssue t).finish := by
  simp [State.issueBundle, h]

/-- A word alone that meets no cause at once runs, and the bundle is over. -/
theorem issueBundle_exec {s : State} {w : IWord} {i : Instr} (hdec : decode w = some i)
    (h : (s.enterBundle [w]).preTrap [some w] = none) :
    s.issueBundle [some w] = andThen (exec i (s.enterBundle [w])) State.finish := by
  simp [State.issueBundle, h, hdec]

/-- A well-formed word alone in its bundle meets before its issue just the causes that its issue meets first, so its
bundle runs it in any case (03 R336). -/
theorem issueBundle_single {s : State} {w : IWord} {i : Instr} (hdec : decode w = some i) (hwf : i.wf = true) :
    s.issueBundle [some w] = andThen (exec i (s.enterBundle [w])) State.finish := by
  have hlegal : wordIllegal w = false := by simp [wordIllegal, hdec, hwf]
  have hillop := illopOf_single (s := s.enterBundle [w]) w rfl
  cases hword : wordOf i with
  | none =>
    refine issueBundle_exec hdec ?_
    have hnow : (s.enterBundle [w]).illegalNow w = false := by simp [State.illegalNow, hdec, hword]
    rw [preTrap_single, hillop, hlegal, hnow]
    simp [firstOf, State.lqShort, bundleSpecs, hdec, hword]
  | some x =>
    have hnow : (s.enterBundle [w]).illegalNow w = x.illop (s.enterBundle [w]) := by
      simp [State.illegalNow, hdec, hword]
    have htrap := preTrap_single (s.enterBundle [w]) w
    rw [hillop, hlegal, hnow, lqShort_single hdec hword, Bool.false_or] at htrap
    by_cases hx : x.illop (s.enterBundle [w]) = true
    · rw [if_pos hx] at htrap
      rw [issueBundle_trap htrap, exec_word hword, issueWord_illop hx, State.illop, tvalWord_enterBundle]
      rfl
    · rw [if_neg hx] at htrap
      by_cases hshort : (s.enterBundle [w]).cx.lq.length < x.pops
      · rw [if_pos hshort] at htrap
        rw [issueBundle_trap htrap, exec_word hword, issueWord_empty (Bool.eq_false_iff.mpr hx) hshort]
        rfl
      · rw [if_neg hshort] at htrap
        exact issueBundle_exec hdec htrap

/-- Settles O9: the step issues a run of one word, and the causes checked before its issue are its own. -/
theorem stepRunsDecodedWord : Obligations.StepRunsDecodedWord := by
  intro s i hagenda hon hstall hmay hin _ hchain hdec hwf
  rw [step_eq_issueBundle hagenda hon hstall hmay, runAt_single hin hchain, issueBundle_single hdec hwf]

/-! Causes of issue kind -/

/-- A word that nothing makes illegal, that pops nothing and does not stall delivers the cause its check finds. -/
theorem exec_trap {i : Instr} {x : WordSpec} {s : State} {t : TrapReq} (hword : wordOf i = some x)
    (hlegal : x.illop s = false) (hpops : x.pops = 0) (hstall : x.stall s [] 0 = false)
    (hcheck : x.check s [] = some t) : exec i s = .next (s.trapIssue t) := by
  rw [exec_word hword, issueWord_trap hlegal (hpops ▸ popped_zero s) (hpops ▸ hstall) hcheck]

theorem poisonCheck_poisoned (s : State) (r : SReg) {v : Reg} (h : v.poison = true) :
    s.poisonCheck r v = some ⟨5, mkWord (r.toNat + s.widx * 2 ^ 8)⟩ := if_pos h

theorem privCheck_unprivileged {s : State} (h : s.cx.priv = false) :
    s.privCheck = some ⟨3, mkWord (s.curWord.toNat + s.widx * 2 ^ 32)⟩ := by
  simp [State.privCheck, h, State.tvalWord]

theorem privCheck_privileged {s : State} (h : s.cx.priv = true) : s.privCheck = none := if_pos h

/-- The first check of several, where it fails. -/
theorem firstOf_cons_some (t : TrapReq) (l : List (Option TrapReq)) : firstOf (some t :: l) = some t := rfl

/-- The first check of several, where it does not fail. -/
theorem firstOf_cons_none (l : List (Option TrapReq)) : firstOf (none :: l) = firstOf l := rfl

/-- A pop that names an entry that is not back has no values. -/
theorem lqValues_eq_none {n : Nat} {l : List LqEnt} (h : ∃ e ∈ l.take n, e.data = none) : lqValues n l = none := by
  unfold lqValues
  generalize l.take n = m at h
  induction m with
  | nil => simp at h
  | cons d m ih =>
    rw [List.mapM_cons]
    rcases hd : d.data with _ | v
    · rfl
    · have hrest : ∃ e ∈ m, e.data = none := by simpa [hd] using h
      simp [ih hrest]

/-- A word alone that is no instruction raises ILLOP (03 R38, R40). -/
theorem step_illegalWord {s : State} (hagenda : s.agenda = []) (hon : s.host.off = false)
    (hstall : s.stalled = false) (hmay : s.mayIssue = true) (hin : s.inCode s.cx.pc = true)
    (hchain : chainBit (s.fetchWord s.cx.pc) = false) (hill : wordIllegal (s.fetchWord s.cx.pc) = true) :
    step s = .next ((s.enterBundle [s.fetchWord s.cx.pc]).trapIssue
      ⟨1, mkWord (s.fetchWord s.cx.pc).toNat⟩).finish := by
  rw [step_eq_issueBundle hagenda hon hstall hmay, runAt_single hin hchain]
  apply issueBundle_trap
  rw [preTrap_single, illopOf_single _ rfl, hill]
  rfl

/-- `MTS` by privileged code of a poisoned register (13 R223). -/
theorem mts_check_poisoned {s : State} {a : SReg} {m : BitVec 14} (hpriv : s.cx.priv = true)
    (h : (s.cx.sreg a).poison = true) :
    (mtsWord a m).check s [] = some ⟨5, mkWord (a.toNat + s.widx * 2 ^ 8)⟩ := by
  simp only [mtsWord, privCheck_privileged hpriv, ite_self, firstOf_cons_none, poisonCheck_poisoned s a h,
    firstOf_cons_some]

/-- `MTS` by unprivileged code of a register that only privileged code writes (05 R79). -/
theorem mts_check_unprivileged {s : State} {a : SReg} {m : BitVec 14} (hpriv : s.cx.priv = false)
    (h : specialPrivWrite m.toNat = true) :
    (mtsWord a m).check s [] = some ⟨3, mkWord (s.curWord.toNat + s.widx * 2 ^ 32)⟩ := by
  simp only [mtsWord, privCheck_unprivileged hpriv, h, if_true, firstOf_cons_some]

/-- POISON of the control words, of `CHECK`, `MARK` and privileged `MTS` (05 R92; 13 R219, R223). -/
theorem exec_poisoned (s : State) (a c : SReg) (k : PRegNum) (n : BitVec 1) (off : BitVec 22) (m : BitVec 14) :
    let poison := fun (x : Nat) => (.next (s.trapIssue ⟨5, mkWord (x + s.widx * 2 ^ 8)⟩) : Out)
    ((s.cx.preg k).poison = true → exec (.br k n off) s = poison (k.toNat + 2 ^ 6))
    ∧ ((s.cx.preg (c.extractLsb' 0 3)).poison = true → c.toNat ≤ 7 →
        exec (.checkPred c) s = poison (c.toNat + 2 ^ 6))
    ∧ ((s.cx.sreg 61).poison = true → exec .ret s = poison 61)
    ∧ ((s.cx.sreg a).poison = true →
        exec (.jmp a) s = poison a.toNat ∧ exec (.jmpl a) s = poison a.toNat
        ∧ exec (.loop a m) s = poison a.toNat ∧ exec (.check a) s = poison a.toNat
        ∧ exec (.mark a m) s = poison a.toNat
        ∧ (s.cx.priv = true → exec (.mts a m) s = poison a.toNat)) := by
  refine ⟨fun h => ?_, fun h hc => ?_, fun h => ?_, fun h => ?_⟩
  · exact exec_trap rfl rfl rfl rfl (if_pos h)
  · have hnum : (c.extractLsb' 0 3).toNat = c.toNat := by
      simp only [BitVec.extractLsb'_toNat, Nat.shiftRight_zero]
      omega
    rw [← hnum]
    exact exec_trap rfl rfl rfl rfl (if_pos h)
  · exact exec_trap rfl rfl rfl rfl (poisonCheck_poisoned s 61 h)
  · have hcheck := poisonCheck_poisoned s a h
    exact ⟨exec_trap rfl rfl rfl rfl hcheck, exec_trap rfl rfl rfl rfl hcheck, exec_trap rfl rfl rfl rfl hcheck,
      exec_trap rfl rfl rfl rfl hcheck, exec_trap rfl rfl rfl rfl hcheck,
      fun hpriv => exec_trap rfl rfl rfl rfl (mts_check_poisoned hpriv h)⟩

/-- PRIV of the words and special registers that unprivileged code may not use (05 R79; 13 R219, R228). -/
theorem exec_unprivileged (s : State) (a : SReg) (n : BitVec 14) (hpriv : s.cx.priv = false) :
    let priv : Out := .next (s.trapIssue ⟨3, mkWord (s.curWord.toNat + s.widx * 2 ^ 32)⟩)
    exec .swapc s = priv ∧ exec .tlbinvLocal s = priv ∧ exec .tlbinvAll s = priv
    ∧ exec (.tlbinvPage a) s = priv ∧ exec (.tlbinvAsid a) s = priv
    ∧ (0x100 ≤ n.toNat → exec (.mfs a n) s = priv ∧ exec (.mts a n) s = priv)
    ∧ (n.toNat ∈ [0x001, 0x002, 0x003, 0x004, 0x008, 0x009, 0x00A, 0x010, 0x011, 0x012, 0x013, 0x014] →
        exec (.mts a n) s = priv) := by
  have hcheck := privCheck_unprivileged hpriv
  have hfirst : ∀ l, firstOf (s.privCheck :: l) = s.privCheck := fun l => by rw [hcheck, firstOf_cons_some]
  have hnowait : swapcWord.stall s [] 0 = false := by simp [swapcWord, hpriv]
  refine ⟨exec_trap rfl rfl rfl hnowait hcheck, exec_trap rfl rfl rfl rfl hcheck, exec_trap rfl rfl rfl rfl hcheck,
    exec_trap rfl rfl rfl rfl ((hfirst _).trans hcheck), exec_trap rfl rfl rfl rfl ((hfirst _).trans hcheck),
    fun hn => ?_, fun hn => ?_⟩
  · have hhidden : specialHidden n.toNat = true := decide_eq_true hn
    exact ⟨exec_trap rfl rfl rfl rfl ((if_pos hhidden).trans hcheck),
      exec_trap rfl rfl rfl rfl (mts_check_unprivileged hpriv (by rw [specialPrivWrite, hhidden, Bool.true_or]))⟩
  · refine exec_trap rfl rfl rfl rfl (mts_check_unprivileged hpriv ?_)
    rw [specialPrivWrite, List.contains_iff_mem.mpr hn, Bool.or_true]

/-- ILLOP that depends on the state, LQEMPTY, and the wait for an entry that is not back (03 R336; 06 R104). -/
theorem exec_firstCauses {i : Instr} {x : WordSpec} (s : State) (hword : wordOf i = some x) :
    (x.illop s = true → exec i s = .next (s.trapIssue ⟨1, s.tvalWord⟩))
    ∧ (x.illop s = false →
      (s.cx.lq.length < x.pops → exec i s = .next (s.trapIssue
        ⟨4, mkWord (x.pops % 256 + (s.cx.lq.length % 256) * 256)⟩))
      ∧ (x.pops ≤ s.cx.lq.length → (∃ e ∈ s.cx.lq.take x.pops, e.data = none) →
          exec i s = .next { s with ctl := .stalled true })) := by
  rw [exec_word hword]
  refine ⟨fun h => ?_, fun h => ⟨fun hshort => ?_, fun henough hback => ?_⟩⟩
  · rw [issueWord_illop h]
    rfl
  · rw [issueWord_empty h hshort]
    rfl
  · rw [issueWord_wait h henough (lqValues_eq_none hback)]
    rfl

/-- Settles O10: each cause is the first that the issue of the word meets. -/
theorem issueChecks : Obligations.IssueChecks :=
  ⟨fun _ hagenda hon hstall hmay hin hchain hill => step_illegalWord hagenda hon hstall hmay hin hchain hill,
    exec_poisoned, exec_unprivileged, fun _ _ s hword => exec_firstCauses s hword⟩

end Sys2Proof.IssueProofs

/-! ### Codes of a floating format without special values (04 R45, R49, R52) -/

namespace Sys2Proof.FormatProofs

open Sys2Proof Sys2Proof.Machine

/-- The significand of a magnitude code, with its hidden bit unless the code is subnormal (04 R45). -/
def significand (f : FFmt) (mag : Nat) : Nat :=
  (if mag / 2 ^ f.mbits = 0 then 0 else 2 ^ f.mbits) + mag % 2 ^ f.mbits

/-- The exponent of the last place of a magnitude code: a subnormal code has the one of exponent field 1 (04 R45). -/
def lastPlace (f : FFmt) (mag : Nat) : Int :=
  ((if mag / 2 ^ f.mbits = 0 then 1 else mag / 2 ^ f.mbits : Nat) : Int) - f.bias - f.mbits

/-- The sign bit stands above the magnitude, and with policy 2 every code is finite: the two signs of a magnitude
differ in their sign alone. -/
theorem decode_code {f : FFmt} (hsgn : f.sgn = true) (hspec : f.spec = 2) (neg : Bool) {mag : Nat}
    (hmag : mag < 2 ^ (f.ebits + f.mbits)) :
    f.decode (f.code neg mag) = .fin neg (significand f mag) (lastPlace f mag) := by
  have hlow : f.code neg mag % 2 ^ (f.ebits + f.mbits) = mag := by
    cases neg <;> simp [FFmt.code, hsgn, Nat.mod_eq_of_lt hmag]
  have hsign : (f.sgn && f.code neg mag / 2 ^ (f.ebits + f.mbits) % 2 == 1) = neg := by
    cases neg <;> simp [FFmt.code, hsgn, Nat.div_eq_of_lt hmag]
  by_cases hsub : mag / 2 ^ f.mbits = 0
  · simp [FFmt.decode, hlow, hsign, hspec, significand, lastPlace, hsub]
  · simp [FFmt.decode, hlow, hsign, hspec, significand, lastPlace, hsub]

/-- E2M1: no special values, saturating, bias 1 (04 R50). -/
def e2m1 : FFmt := ⟨true, 2, 1, 1, 2, true⟩

theorem fmtOfReg_fm4_reset : fmtOfReg (State.reset.cx.fm 4) = .flt e2m1 := by decide

/-- The magnitudes of E2M1, doubled, are the row of values of R52. -/
theorem e2m1_magnitudes : ∀ n < 8, -1 ≤ lastPlace e2m1 n
    ∧ significand e2m1 n * 2 ^ (lastPlace e2m1 n + 1).toNat = ([0, 1, 2, 3, 4, 6, 8, 12][n]?).getD 0 := by decide

/-- Settles O60: codes n and 8 + n are the two signs of magnitude n. -/
theorem e2m1Codes : Obligations.E2m1Codes := by
  refine ⟨e2m1, fmtOfReg_fm4_reset, fun n hn => ?_⟩
  obtain ⟨hplace, hvalue⟩ := e2m1_magnitudes n hn
  exact ⟨significand e2m1 n, lastPlace e2m1 n, decode_code rfl rfl false hn, decode_code rfl rfl true hn, hplace,
    hvalue⟩

end Sys2Proof.FormatProofs

/-! ### Computing words: what their issue answers (05 R81, R83 to R90) -/

namespace Sys2Proof.ComputeProofs

open Sys2Proof Sys2Proof.Machine Sys2Proof.Safety Sys2Proof.Laws

/-! The forms of a computing word -/

section Forms

variable {i : Instr} {s : State} {v : List Reg}

/-- A word of two scalar sources sends what its operation gives for their values. -/
theorem exec_alu2 {d a b : SReg} {n : Nat} {f : Word → Word → Word} {r : Word}
    (hword : wordOf i = some (alu2 d a b n f)) (hp : Popped s (pops2 a b) v)
    (hr : f (s.src a v 0).val (s.src2 a b v).val = r) :
    exec i s = .next ((s.popLq (pops2 a b)).wreg d (joinAttr r [s.src a v 0, s.src2 a b v]) n) := by
  rw [exec_word hword, issueWord_effect rfl hp rfl rfl, ← hr]
  rfl

/-- A word of one scalar source. -/
theorem exec_alu1 {d a : SReg} {n : Nat} {f : Word → Word} {r : Word}
    (hword : wordOf i = some (alu1 d a n f)) (hp : Popped s (pops2 a 0) v) (hr : f (s.src a v 0).val = r) :
    exec i s = .next ((s.popLq (pops2 a 0)).wreg d (joinAttr r [s.src a v 0]) n) := by
  rw [exec_word hword, issueWord_effect rfl hp rfl rfl, ← hr]
  rfl

/-- A word of two scalar sources whose result raises flags. -/
theorem exec_flagged2 {d a b : SReg} {n : Nat} {f : Word → Word → Word × Flags} {r : Word} {g : Flags}
    (hword : wordOf i = some (flagged2 d a b n f)) (hp : Popped s (pops2 a b) v)
    (hr : f (s.src a v 0).val (s.src2 a b v).val = (r, g)) :
    exec i s = .next (((s.popLq (pops2 a b)).wreg d (joinAttr r [s.src a v 0, s.src2 a b v]) n).wflags g n) := by
  rw [exec_word hword, issueWord_effect rfl hp rfl rfl]
  simp only [flagged2, src_popLq, src2_popLq, hr]

/-- A word of one scalar source whose result raises flags. -/
theorem exec_flagged1 {d a : SReg} {n : Nat} {f : Word → Word × Flags} {r : Word} {g : Flags}
    (hword : wordOf i = some (flagged1 d a n f)) (hp : Popped s (pops2 a 0) v)
    (hr : f (s.src a v 0).val = (r, g)) :
    exec i s = .next (((s.popLq (pops2 a 0)).wreg d (joinAttr r [s.src a v 0]) n).wflags g n) := by
  rw [exec_word hword, issueWord_effect rfl hp rfl rfl]
  simp only [flagged1, src_popLq, hr]

/-- A comparison of two scalar sources. -/
theorem exec_cmp2 {d a b : SReg} {n : Nat} {f : Word → Word → Bool × Flags} {r : Bool} {g : Flags}
    (hword : wordOf i = some (cmp2 d a b n f)) (hp : Popped s (pops2 a b) v)
    (hr : f (s.src a v 0).val (s.src2 a b v).val = (r, g)) :
    exec i s = .next (((s.popLq (pops2 a b)).wpred (d.extractLsb' 0 3)
      (joinPred r [s.src a v 0, s.src2 a b v]) n).wflags g n) := by
  rw [exec_word hword, issueWord_effect rfl hp rfl rfl]
  simp only [cmp2, src_popLq, src2_popLq, hr]

/-- No flag is raised by an empty set of flags. -/
@[simp] theorem wflags_zero (s : State) (n : Nat) : s.wflags 0 n = s := rfl

end Forms

/-! Values of the integer words -/

@[simp] theorem toNat_mkWord (n : Nat) : (mkWord n).toNat = n % 2 ^ 64 := BitVec.toNat_ofNat ..

theorem mulh_eq (x y : Word) :
    BitVec.ofInt 64 (x.toInt * y.toInt / 2 ^ 64) = (x.signExtend 128 * y.signExtend 128).extractLsb' 64 64 := by
  have hprod : x.signExtend 128 * y.signExtend 128 = BitVec.ofInt 128 (x.toInt * y.toInt) := by
    rw [BitVec.ofInt_mul]; rfl
  rw [hprod]
  generalize x.toInt * y.toInt = p
  apply BitVec.eq_of_toNat_eq
  simp only [BitVec.toNat_ofInt, BitVec.extractLsb'_toNat, Nat.shiftRight_eq_div_pow]
  omega

theorem mulhn_eq (x y : Word) :
    mkWord (x.toNat * y.toNat / 2 ^ 64) = (x.zeroExtend 128 * y.zeroExtend 128).extractLsb' 64 64 := by
  apply BitVec.eq_of_toNat_eq
  have hx := x.isLt
  have hy := y.isLt
  have hzx : (x.zeroExtend 128).toNat = x.toNat := by simp; omega
  have hzy : (y.zeroExtend 128).toNat = y.toNat := by simp; omega
  rw [toNat_mkWord, BitVec.extractLsb'_toNat, BitVec.toNat_mul, hzx, hzy, Nat.shiftRight_eq_div_pow]
  generalize x.toNat * y.toNat = p
  omega

theorem rotl_eq (x y : Word) :
    x.rotateLeft (shAmt y) = (x <<< (y.toNat % 64)) ||| (x >>> (64 - y.toNat % 64)) := by
  have hsh : shAmt y % 64 = y.toNat % 64 := by simp [shAmt, bitsOf]
  rw [BitVec.rotateLeft_def, hsh]

theorem shAmt_eq (y : Word) : shAmt y = y.toNat % 64 := by simp [shAmt, bitsOf]

/-- The lesser by the strict order is the lesser by the weak one. -/
theorem min_eq {α β : Type} [LinearOrder α] (f : β → α) (x y : β) :
    (if decide (f y < f x) = true then y else x) = if f x ≤ f y then x else y := by
  by_cases h : f x ≤ f y <;> simp [h, not_lt.mpr, not_le.mp]

/-- The greater by the strict order is the greater by the weak one, where no two values stand equal in it. -/
theorem max_eq {α β : Type} [LinearOrder α] {f : β → α} (hf : Function.Injective f) (x y : β) :
    (if decide (f x < f y) = true then y else x) = if f x ≤ f y then y else x := by
  rcases lt_trichotomy (f x) (f y) with h | h | h
  · simp [h, h.le]
  · simp [hf h]
  · simp [h.not_gt, h.not_ge]

/-! Division -/

theorem divOp_eq (x y : Word) :
    divOp x y = if y = 0 then (-1, 0) else if x.toInt = -2 ^ 63 ∧ y.toInt = -1 then (x, Flag.of)
      else (BitVec.ofInt 64 (x.toInt.tdiv y.toInt), 0) := by
  simp only [divOp, Bool.and_eq_true, beq_iff_eq]

theorem remOp_eq (x y : Word) :
    remOp x y = if y = 0 then x else if x.toInt = -2 ^ 63 ∧ y.toInt = -1 then 0
      else x - BitVec.ofInt 64 (x.toInt.tdiv y.toInt) * y := by
  have hrem : BitVec.ofInt 64 (x.toInt.tmod y.toInt) = x - BitVec.ofInt 64 (x.toInt.tdiv y.toInt) * y := by
    rw [Int.tmod_def, Int.sub_eq_add_neg, BitVec.ofInt_add, BitVec.ofInt_neg, BitVec.ofInt_mul, BitVec.ofInt_toInt,
      BitVec.ofInt_toInt, BitVec.mul_comm, ← BitVec.sub_eq_add_neg]
  simp only [remOp, hrem, Bool.and_eq_true, beq_iff_eq]

theorem divnOp_eq (x y : Word) : divnOp x y = if y = 0 then -1 else x / y := by
  have hdiv : mkWord (x.toNat / y.toNat) = x / y := by
    apply BitVec.eq_of_toNat_eq
    rw [toNat_mkWord, BitVec.toNat_udiv]
    exact Nat.mod_eq_of_lt (Nat.lt_of_le_of_lt (Nat.div_le_self _ _) x.isLt)
  simp only [divnOp, hdiv, beq_iff_eq]

theorem remnOp_eq (x y : Word) : remnOp x y = if y = 0 then x else x - x / y * y := by
  have hrem : mkWord (x.toNat % y.toNat) = x - x / y * y := by
    have hmod : mkWord (x.toNat % y.toNat) = x % y := by
      apply BitVec.eq_of_toNat_eq
      rw [toNat_mkWord, BitVec.toNat_umod]
      exact Nat.mod_eq_of_lt (Nat.lt_of_le_of_lt (Nat.mod_le _ _) x.isLt)
    have hsum : y * (x / y) + x % y = x := by
      apply BitVec.eq_of_toNat_eq
      rw [BitVec.toNat_add, BitVec.toNat_mul, BitVec.toNat_udiv, BitVec.toNat_umod, Nat.mod_add_mod,
        Nat.div_add_mod, Nat.mod_eq_of_lt x.isLt]
    rw [hmod, BitVec.mul_comm]
    exact (BitVec.sub_eq_iff_eq_add.mpr ((BitVec.add_comm _ _).trans hsum).symm).symm
  simp only [remnOp, hrem, beq_iff_eq]

/-! Counts and extensions -/

theorem clzOp_spec (x : Word) :
    (clzOp x).toNat ≤ 64 ∧ (∀ i < 64, 64 - (clzOp x).toNat ≤ i → x.getLsbD i = false)
      ∧ ((clzOp x).toNat < 64 → x.getLsbD (63 - (clzOp x).toNat) = true) := by
  by_cases hx : x = 0
  · simp [clzOp, hx]
  · have hne : x.toNat ≠ 0 := by simpa [← BitVec.toNat_inj] using hx
    have hlog : Nat.log2 x.toNat < 64 := (Nat.log2_lt hne).mpr x.isLt
    have hclz : (clzOp x).toNat = 63 - Nat.log2 x.toNat := by
      rw [clzOp, if_neg (by simpa using hx), toNat_mkWord]
      omega
    rw [hclz]
    refine ⟨by omega, fun i _ hi => ?_, fun _ => ?_⟩
    · exact Nat.testBit_lt_two_pow (Nat.lt_of_lt_of_le Nat.lt_log2_self (Nat.pow_le_pow_right (by decide) (by omega)))
    · rw [show 63 - (63 - Nat.log2 x.toNat) = Nat.log2 x.toNat by omega]
      exact Nat.testBit_log2 hne

/-- Counting along a list is the length of what the test keeps. -/
theorem foldl_count {α : Type} (p : α → Bool) (l : List α) (n : Nat) :
    l.foldl (fun n i => if p i then n + 1 else n) n = n + (l.filter p).length := by
  induction l generalizing n with
  | nil => rfl
  | cons x l ih =>
    rw [List.foldl_cons, ih, List.filter_cons]
    split
    · rw [List.length_cons]; omega
    · rfl

theorem popcOp_toNat (x : Word) :
    (popcOp x).toNat = ((List.range 64).filter (fun i => x.getLsbD i)).length := by
  have hle := List.length_filter_le (fun i => x.getLsbD i) (List.range 64)
  rw [List.length_range] at hle
  rw [popcOp, foldl_count, toNat_mkWord, Nat.zero_add]
  exact Nat.mod_eq_of_lt (Nat.lt_of_le_of_lt hle (by decide))

/-- The value of a signed code is that of the word of its width. -/
theorem intOfCode_eq_toInt {w : Nat} (hw : 0 < w) (n : Nat) : intOfCode true w n = (BitVec.ofNat w n).toInt := by
  obtain ⟨k, rfl⟩ : ∃ k, w = k + 1 := ⟨w - 1, by omega⟩
  simp only [BitVec.toInt_eq_toNat_cond, BitVec.toNat_ofNat, intOfCode, Nat.add_sub_cancel, Bool.true_and,
    decide_eq_true_eq, Nat.cast_pow, Nat.cast_ofNat]
  generalize n % 2 ^ (k + 1) = c
  have hpow : 2 ^ (k + 1) = 2 * 2 ^ k := Nat.pow_succ'
  by_cases h : 2 ^ k ≤ c
  · rw [if_pos h, if_neg (by omega)]
  · rw [if_neg h, if_pos (by omega)]

theorem sextOp_eq {w : Nat} (hw : 0 < w) (x : Word) : sextOp w x = (x.setWidth w).signExtend 64 := by
  rw [sextOp, intOfCode_eq_toInt hw, BitVec.ofNat_toNat]
  rfl

theorem zextOp_eq (w : Nat) (x : Word) : zextOp w x = (x.setWidth w).setWidth 64 := by
  apply BitVec.eq_of_toNat_eq
  simp [zextOp, bitsOf]

/-- Settles O15: each word is one of the forms above, with a value lemma where the model computes by numbers. -/
theorem ialuResults : Obligations.IaluResults := by
  refine ⟨fun s d a b v hp => ?_, fun s d a b v hp => ?_, fun s d a v hp => ?_⟩
  · have hsh := shAmt_eq (s.src2 a b v).val
    exact ⟨exec_alu2 rfl hp rfl, exec_alu2 rfl hp rfl, exec_alu2 rfl hp rfl, exec_alu2 rfl hp (mulh_eq _ _),
      exec_alu2 rfl hp (mulhn_eq _ _), exec_alu2 rfl hp rfl, exec_alu2 rfl hp rfl, exec_alu2 rfl hp rfl,
      exec_alu2 rfl hp rfl, exec_alu2 rfl hp (by rw [hsh]), exec_alu2 rfl hp (by rw [hsh]),
      exec_alu2 rfl hp (by rw [hsh]), exec_alu2 rfl hp (rotl_eq _ _), exec_alu2 rfl hp (min_eq BitVec.toInt _ _),
      exec_alu2 rfl hp (max_eq (fun _ _ => BitVec.eq_of_toInt_eq) _ _), exec_alu2 rfl hp (min_eq BitVec.toNat _ _),
      exec_alu2 rfl hp (max_eq (fun _ _ => BitVec.eq_of_toNat_eq) _ _), exec_alu2 rfl hp rfl⟩
  · have hdiv := divOp_eq (s.src a v 0).val (s.src2 a b v).val
    have hrem := remOp_eq (s.src a v 0).val (s.src2 a b v).val
    have hdivn := divnOp_eq (s.src a v 0).val (s.src2 a b v).val
    have hremn := remnOp_eq (s.src a v 0).val (s.src2 a b v).val
    refine ⟨?_, ?_, ?_, ?_⟩
    · split_ifs with hzero hedge
      · exact exec_flagged2 (g := 0) rfl hp (hdiv.trans (if_pos hzero))
      · exact exec_flagged2 rfl hp (hdiv.trans ((if_neg hzero).trans (if_pos hedge)))
      · exact exec_flagged2 (g := 0) rfl hp (hdiv.trans ((if_neg hzero).trans (if_neg hedge)))
    · split_ifs with hzero hedge
      · exact exec_alu2 rfl hp (hrem.trans (if_pos hzero))
      · exact exec_alu2 rfl hp (hrem.trans ((if_neg hzero).trans (if_pos hedge)))
      · exact exec_alu2 rfl hp (hrem.trans ((if_neg hzero).trans (if_neg hedge)))
    · split_ifs with hzero
      · exact exec_alu2 rfl hp (hdivn.trans (if_pos hzero))
      · exact exec_alu2 rfl hp (hdivn.trans (if_neg hzero))
    · split_ifs with hzero
      · exact exec_alu2 rfl hp (hremn.trans (if_pos hzero))
      · exact exec_alu2 rfl hp (hremn.trans (if_neg hzero))
  · obtain ⟨hbound, hzeros, hone⟩ := clzOp_spec (s.src a v 0).val
    exact ⟨⟨_, exec_alu1 rfl hp rfl, hbound, hzeros, hone⟩, ⟨_, exec_alu1 rfl hp rfl, popcOp_toNat _⟩,
      exec_alu1 rfl hp (sextOp_eq (by decide) _), exec_alu1 rfl hp (sextOp_eq (by decide) _),
      exec_alu1 rfl hp (sextOp_eq (by decide) _), exec_alu1 rfl hp (zextOp_eq _ _), exec_alu1 rfl hp (zextOp_eq _ _),
      exec_alu1 rfl hp (zextOp_eq _ _)⟩

/-! Bits of a word -/

theorem getLsbD_mkWord {k : Nat} (hk : k < 64) (n : Nat) : (mkWord n).getLsbD k = n.testBit k := by
  rw [mkWord, BitVec.getLsbD_ofNat, decide_eq_true hk, Bool.true_and]

/-- The bits of a number that is cut in three at lo and lo + len. -/
theorem testBit_thirds {lo len r m : Nat} (q k : Nat) (hr : r < 2 ^ lo) (hm : m < 2 ^ len) :
    (2 ^ lo * (2 ^ len * q + m) + r).testBit k
      = if k < lo then r.testBit k else if k - lo < len then m.testBit (k - lo) else q.testBit (k - lo - len) := by
  rw [Nat.testBit_two_pow_mul_add _ hr, Nat.testBit_two_pow_mul_add _ hm]

/-- A number with one field replaced, bit by bit. -/
theorem testBit_replace (old : Nat) {f : Nat} (lo len k : Nat) (hf : f < 2 ^ len) :
    (old - old / 2 ^ lo % 2 ^ len * 2 ^ lo + f * 2 ^ lo).testBit k
      = if lo ≤ k ∧ k < lo + len then f.testBit (k - lo) else old.testBit k := by
  obtain ⟨q, m, r, hm, hr, hold⟩ : ∃ q m r, m < 2 ^ len ∧ r < 2 ^ lo ∧ old = 2 ^ lo * (2 ^ len * q + m) + r :=
    ⟨old / 2 ^ lo / 2 ^ len, old / 2 ^ lo % 2 ^ len, old % 2 ^ lo, Nat.mod_lt _ (Nat.two_pow_pos len),
      Nat.mod_lt _ (Nat.two_pow_pos lo), by rw [Nat.div_add_mod, Nat.div_add_mod]⟩
  have hfield : old / 2 ^ lo % 2 ^ len = m := by
    rw [hold, Nat.mul_add_div (Nat.two_pow_pos lo), Nat.div_eq_of_lt hr, Nat.add_zero, Nat.mul_add_mod,
      Nat.mod_eq_of_lt hm]
  have hnew : old - m * 2 ^ lo + f * 2 ^ lo = 2 ^ lo * (2 ^ len * q + f) + r := by
    rw [hold, Nat.mul_add, Nat.mul_add, Nat.mul_comm m, Nat.mul_comm f]
    omega
  rw [hfield, hnew, hold, testBit_thirds q k hr hf, testBit_thirds q k hr hm]
  by_cases hlow : k < lo
  · rw [if_pos hlow, if_neg (by omega), if_pos hlow]
  · by_cases hmid : k - lo < len
    · rw [if_neg hlow, if_pos hmid, if_pos (by omega)]
    · rw [if_neg hlow, if_neg hmid, if_neg (by omega), if_neg hlow, if_neg hmid]

theorem getLsbD_movkOp {sh : BitVec 2} {i : BitVec 18} (hi : sh = 3 → i.toNat < 1024) (old : Word) {k : Nat}
    (hk : k < 64) :
    (movkOp sh i old).getLsbD k = if 18 * sh.toNat ≤ k ∧ k < 18 * sh.toNat + 18 then i.getLsbD (k - 18 * sh.toNat)
      else old.getLsbD k := by
  have hwhole : i.toNat % 2 ^ (if 18 * sh.toNat = 54 then 10 else 18) = i.toNat := by
    by_cases h : 18 * sh.toNat = 54
    · rw [if_pos h]
      exact Nat.mod_eq_of_lt (hi (by bv_omega))
    · rw [if_neg h]
      exact Nat.mod_eq_of_lt i.isLt
  have hend : (k < 18 * sh.toNat + if 18 * sh.toNat = 54 then 10 else 18) ↔ k < 18 * sh.toNat + 18 := by
    by_cases h : 18 * sh.toNat = 54
    · rw [if_pos h]; omega
    · rw [if_neg h]
  have hfield : i.toNat % 2 ^ (if 18 * sh.toNat = 54 then 10 else 18) < 2 ^ (if 18 * sh.toNat = 54 then 10 else 18) :=
    Nat.mod_lt _ (Nat.two_pow_pos _)
  rw [movkOp, getLsbD_mkWord hk]
  simp only [bitsOf]
  rw [testBit_replace _ _ _ _ hfield, hwhole]
  simp only [hend]
  rfl

/-! Illegal immediate words -/

theorem decode_iali {w : IWord} (hmajor : fld w 26 5 = 5) :
    decode w = decIali (fld w 11 3).toNat (fld w 20 6) (fld w 14 6) (fld w 0 11) := by
  simp only [decode, hmajor]
  rfl

/-- Bits 10:6 of the immediate are those of the word. -/
theorem imm_high (w : IWord) : (fld w 0 11).extractLsb' 6 5 = fld w 6 5 := by
  apply BitVec.eq_of_getLsbD_eq
  intro i hi
  simp [fld, hi]

theorem wordIllegal_iali {w : IWord} (hmajor : fld w 26 5 = 5)
    (h : fld w 11 3 = 7 ∨ (4 ≤ (fld w 11 3).toNat ∧ fld w 6 5 ≠ 0)) : wordIllegal w = true := by
  have hnone : decode w = none := by
    rw [decode_iali hmajor]
    rcases h with hop | ⟨hshift, hhigh⟩
    · rw [hop]; rfl
    · have hlt := (fld w 11 3).isLt
      have hno : ((fld w 0 11).extractLsb' 6 5 == (0 : BitVec 5)) = false := by
        rw [imm_high]; exact beq_eq_false_iff_ne.mpr hhigh
      generalize (fld w 11 3).toNat = op at hshift hlt
      have hcases : op = 4 ∨ op = 5 ∨ op = 6 ∨ op = 7 := by omega
      rcases hcases with rfl | rfl | rfl | rfl <;> simp only [decIali, hno, req] <;> rfl
  rw [wordIllegal, hnone]

/-- Settles O16: an immediate word is a word of one source, `MOVK` replaces one field, and an IALI word that decodes to
nothing raises ILLOP. -/
theorem immediateResults : Obligations.ImmediateResults := by
  refine ⟨fun s d a imm n v hp => ?_, fun s w hmajor h => ?_⟩
  · refine ⟨exec_alu1 rfl hp rfl, exec_alu1 rfl hp rfl, exec_alu1 rfl hp rfl, exec_alu1 rfl hp rfl,
      exec_alu1 rfl hp rfl, exec_alu1 rfl hp rfl, exec_alu1 rfl hp rfl, fun i => ?_, fun sh i hi => ?_⟩
    · rw [exec_word rfl, issueWord_effect rfl (popped_zero s) rfl rfl]
      rfl
    · refine ⟨movkOp sh i (s.cx.sreg d).val, ?_, fun k hk => getLsbD_movkOp hi _ hk⟩
      rw [exec_word rfl, issueWord_effect rfl (popped_zero s) rfl rfl]
      rfl
  · have hill := wordIllegal_iali hmajor h
    refine ⟨hill, fun hagenda hon hstall hmay hin hfetch hchain => ?_⟩
    subst hfetch
    exact IssueProofs.step_illegalWord hagenda hon hstall hmay hin hchain hill

/-! Fields of a word -/

theorem testBit_bitsOf (w : Word) (lo len i : Nat) :
    (bitsOf w lo len).testBit i = (decide (i < len) && w.getLsbD (lo + i)) := by
  rw [bitsOf, Nat.testBit_mod_two_pow, Nat.testBit_div_two_pow, Nat.add_comm i lo]
  rfl

/-- The bits of a specifier: position, length and sign (05 R90). -/
theorem fieldSpec_eq (y : Word) :
    fieldSpec y = (y.toNat % 64, y.toNat / 256 % 64 + 1, y.getLsbD 16) := by
  simp [fieldSpec, bitsOf]

/-- A field extracted: its own bits, then zeros or copies of its top bit. -/
theorem getLsbD_bfxOp (x y : Word) {i : Nat} (hi : i < 64) :
    (bfxOp x y).getLsbD i = if i < y.toNat / 256 % 64 + 1 then x.getLsbD (y.toNat % 64 + i)
      else (y.getLsbD 16 && x.getLsbD (y.toNat % 64 + y.toNat / 256 % 64)) := by
  simp only [bfxOp, fieldSpec_eq]
  generalize y.toNat % 64 = pos
  generalize y.toNat / 256 % 64 = top
  cases y.getLsbD 16 with
  | false =>
    rw [if_neg Bool.false_ne_true, getLsbD_mkWord hi, testBit_bitsOf, Bool.false_and]
    by_cases h : i < top + 1 <;> simp [h]
  | true =>
    have hext : BitVec.ofInt 64 (intOfCode true (top + 1) (bitsOf x pos (top + 1)))
        = (BitVec.ofNat (top + 1) (bitsOf x pos (top + 1))).signExtend 64 := by
      rw [intOfCode_eq_toInt (Nat.succ_pos top)]; rfl
    have hbit : ∀ j < top + 1, (BitVec.ofNat (top + 1) (bitsOf x pos (top + 1))).getLsbD j = x.getLsbD (pos + j) :=
      fun j hj => by rw [BitVec.getLsbD_ofNat, testBit_bitsOf, decide_eq_true hj, Bool.true_and, Bool.true_and]
    rw [if_pos rfl, hext, BitVec.getLsbD_signExtend, decide_eq_true hi, Bool.true_and, Bool.true_and,
      BitVec.msb_eq_getLsbD_last, Nat.add_sub_cancel, hbit top (Nat.lt_succ_self top)]
    by_cases h : i < top + 1
    · rw [if_pos h, if_pos h, hbit i h]
    · rw [if_neg h, if_neg h]

/-- A field inserted: the low bits of the source at its place, the old bits around it. -/
theorem getLsbD_bfiOp (x y old : Word) {i : Nat} (hi : i < 64) :
    (bfiOp x y old).getLsbD i
      = if y.toNat % 64 ≤ i ∧ i < y.toNat % 64 + (y.toNat / 256 % 64 + 1) then x.getLsbD (i - y.toNat % 64)
        else old.getLsbD i := by
  simp only [bfiOp, fieldSpec_eq]
  generalize y.toNat % 64 = pos
  generalize y.toNat / 256 % 64 + 1 = len
  have hmask : (mkWord ((2 ^ len - 1) * 2 ^ pos)).getLsbD i = (decide (pos ≤ i) && decide (i - pos < len)) := by
    rw [getLsbD_mkWord hi, Nat.testBit_mul_two_pow, Nat.testBit_two_pow_sub_one]
  have hsrc : (mkWord (x.toNat * 2 ^ pos)).getLsbD i = (decide (pos ≤ i) && x.getLsbD (i - pos)) := by
    rw [getLsbD_mkWord hi, Nat.testBit_mul_two_pow]; rfl
  rw [BitVec.getLsbD_or, BitVec.getLsbD_and, BitVec.getLsbD_and, BitVec.getLsbD_not, hmask, hsrc, decide_eq_true hi]
  by_cases hlow : pos ≤ i
  · by_cases hhigh : i - pos < len
    · rw [if_pos ⟨hlow, by omega⟩]; simp [hlow, hhigh]
    · rw [if_neg (by omega)]; simp [hhigh]
  · rw [if_neg (by omega)]; simp [hlow]

/-- The attributes of two registers and a predicate together. -/
theorem joinAttr_pred (w : Word) (x y : Reg) (k : PReg) :
    joinAttr w [x, y, k.attr] = { val := w, poison := x.poison || y.poison || k.poison
                                  taint := (x.taint ++ y.taint ++ k.taint).eraseDups } := by
  simp [joinAttr, PReg.attr, Bool.or_assoc]

/-- Settles O20, by the bits of a field extracted and of a field inserted. -/
theorem fieldResults : Obligations.FieldResults := by
  refine fun s d a b v => ⟨fun hp => ⟨?_, ?_⟩, fun hp => ?_⟩
  · have hlen : (s.src2 a b v).val.toNat / 256 % 64 + 1 ≤ 64 := by omega
    refine ⟨_, exec_alu2 rfl hp rfl, fun i hi => ?_, fun i hout hi => ?_⟩
    · rw [getLsbD_bfxOp _ _ (by omega), if_pos hi]
      by_cases hin : (s.src2 a b v).val.toNat % 64 + i ≤ 63
      · rw [decide_eq_true hin, Bool.true_and]
      · rw [decide_eq_false hin, Bool.false_and, BitVec.getLsbD_of_ge _ _ (by omega)]
    · rw [getLsbD_bfxOp _ _ hi, if_neg (by omega), getLsbD_bfxOp _ _ (by omega), if_pos (by omega), Nat.add_sub_cancel]
  · refine ⟨bfiOp (s.src a v 0).val (s.src2 a b v).val (s.cx.sreg d).val, ?_, fun i hi => getLsbD_bfiOp _ _ _ hi⟩
    rw [exec_word rfl, issueWord_effect rfl hp rfl rfl]
    rfl
  · rw [exec_word rfl, issueWord_effect rfl hp rfl rfl]
    exact congrArg (fun x => Host.Outcome.next ((s.popLq (pops2 a 0)).wreg d x 1)) (joinAttr_pred _ _ _ _)

/-! Comparisons -/

theorem exec_cmp {s : State} {v : List Reg} {d a b : SReg} {c : BitVec 4} {r : Bool} (hp : Popped s (pops2 a b) v)
    (hr : cmpOp c (s.src a v 0).val (s.src2 a b v).val = r) :
    exec (.cmp d a b c) s = .next ((s.popLq (pops2 a b)).wpred (d.extractLsb' 0 3)
      (joinPred r [s.src a v 0, s.src2 a b v]) 1) :=
  exec_cmp2 (g := 0) rfl hp (congrArg (·, 0) hr)

theorem exec_tst {s : State} {v : List Reg} {d a b : SReg} {c : BitVec 4} {r : Bool} (hp : Popped s (pops2 a b) v)
    (hr : ((((s.src a v 0).val &&& (s.src2 a b v).val) != 0) != (c == 1)) = r) :
    exec (.tst d a b c) s = .next ((s.popLq (pops2 a b)).wpred (d.extractLsb' 0 3)
      (joinPred r [s.src a v 0, s.src2 a b v]) 1) :=
  exec_cmp2 (g := 0) rfl hp (congrArg (·, 0) hr)

theorem bne_eq_decide (x y : Word) : (x != y) = decide (x ≠ y) := by
  rw [bne, decide_not]; rfl

theorem not_slt (x y : Word) : (!x.slt y) = decide (y.toInt ≤ x.toInt) := by
  rw [BitVec.slt, ← decide_not, decide_eq_decide, not_lt]

theorem not_ult (x y : Word) : (!x.ult y) = decide (y.toNat ≤ x.toNat) := by
  rw [BitVec.ult, ← decide_not, decide_eq_decide, not_lt]

/-- Bit 3 of a float condition names the precision. -/
theorem getLsbD_three (c : BitVec 4) : c.getLsbD 3 = decide (8 ≤ c.toNat) := by
  revert c; decide

/-- The format of a float condition. -/
theorem fcmp_format (c : BitVec 4) :
    (if c.getLsbD 3 = true then fp64 else fp32) = if c.toNat < 8 then fp32 else fp64 := by
  rw [getLsbD_three]
  by_cases h : c.toNat < 8 <;> simp [h, Nat.not_le.mpr, Nat.le_of_not_lt]

/-- Settles O19: each comparison is the condition that its code names, and `PLOG` reads its truth table. -/
theorem compareResults : Obligations.CompareResults := by
  refine fun s d a b v hp => ⟨⟨?_, ?_, ?_, ?_, ?_, ?_, ?_, ?_, ?_, ?_⟩, ⟨?_, ?_⟩, fun c hc => ?_, fun tt => ?_⟩
  · exact exec_cmp hp rfl
  · exact exec_cmp hp (bne_eq_decide _ _)
  · exact exec_cmp hp rfl
  · exact exec_cmp hp (not_slt _ _)
  · exact exec_cmp hp (not_slt _ _)
  · exact exec_cmp hp rfl
  · exact exec_cmp hp rfl
  · exact exec_cmp hp (not_ult _ _)
  · exact exec_cmp hp (not_ult _ _)
  · exact exec_cmp hp rfl
  · exact exec_tst hp ((Bool.bne_false _).trans (bne_eq_decide _ _))
  · exact exec_tst hp (by rw [bne_eq_decide]; simp)
  · refine exec_cmp2 rfl hp (Prod.ext ?_ ?_)
    · simp only [fcmpOp, fcmp_format]
      generalize c.toNat % 8 = m
      generalize FVal.cmp _ _ = o
      rcases m with _ | _ | _ | _ | _ | m <;> rcases o with _ | _ | _ | _ <;> rfl
    · simp only [fcmpOp, fcmp_format, Flag.when]
  · rw [exec_word rfl, issueWord_effect rfl (popped_zero s) rfl rfl]
    simp [plogWord, joinPred, joinAttr, PReg.attr]

/-! Floating words -/

theorem precision_cases {p : BitVec 2} (hp : p.toNat ≤ 1) : p = 0 ∨ p = 1 := by bv_omega

/-- Decoding looks at the magnitude's bits and at the one above them alone. -/
theorem decode_mod_width (f : FFmt) (c : Nat) :
    f.decode (c % 2 ^ (f.ebits + f.mbits + 1)) = f.decode c := by
  have hmag : c % 2 ^ (f.ebits + f.mbits + 1) % 2 ^ (f.ebits + f.mbits) = c % 2 ^ (f.ebits + f.mbits) :=
    Nat.mod_mod_of_dvd _ (Nat.pow_dvd_pow 2 (Nat.le_succ _))
  have hsign : c % 2 ^ (f.ebits + f.mbits + 1) / 2 ^ (f.ebits + f.mbits) % 2 = c / 2 ^ (f.ebits + f.mbits) % 2 := by
    rw [Nat.pow_succ, Nat.mod_mul_right_div_self, Nat.mod_mod]
  simp only [FFmt.decode, hmag, hsign]

theorem precFmt_eq (p : BitVec 2) : precFmt p = if p = 0 then fp32 else fp64 := by
  simp only [precFmt, beq_iff_eq]

/-- A source is its low bits, 32 in FP32 (05 R87). -/
theorem fpSrc_eq {p : BitVec 2} (hp : p.toNat ≤ 1) (x : Word) :
    fpSrc p x = (if p = 0 then fp32 else fp64).decode (x.toNat % 2 ^ (32 * (p.toNat + 1))) := by
  rw [fpSrc, precFmt_eq]
  rcases precision_cases hp with rfl | rfl
  · exact (decode_mod_width fp32 x.toNat).symm
  · exact (decode_mod_width fp64 x.toNat).symm

theorem fpBound_eq (p : BitVec 2) : fpBound p = if p = 0 then 4 else 6 := by
  simp only [fpBound, beq_iff_eq]

/-- Settles O17: each word is the exact operation, rounded by `fpRound`, on sources cut to their precision. -/
theorem floatResults : Obligations.FloatResults := by
  intro s p d a b v hp hprec
  dsimp only
  rw [← fpSrc_eq hprec, ← fpSrc_eq hprec, ← fpSrc_eq hprec, ← precFmt_eq, ← fpBound_eq]
  refine ⟨exec_flagged2 rfl hp rfl, exec_flagged2 rfl hp rfl, exec_flagged2 rfl hp rfl, ?_, exec_flagged2 rfl hp rfl,
    exec_flagged2 rfl hp rfl⟩
  rw [exec_word rfl, issueWord_effect rfl hp rfl rfl]
  rfl

/-! Sign bits -/

theorem signBit_eq (p : BitVec 2) : signBit p = 2 ^ (if p = 0 then 31 else 63) := by
  rw [signBit, precFmt_eq]
  by_cases h : p = 0
  · rw [if_pos h, if_pos h]; rfl
  · rw [if_neg h, if_neg h]; rfl

theorem testBit_magOf (p : BitVec 2) (x : Word) (i : Nat) :
    (magOf p x).testBit i = (decide (i < if p = 0 then 31 else 63) && x.getLsbD i) := by
  rw [magOf, signBit_eq, Nat.testBit_mod_two_pow]
  rfl

theorem signOf_eq (p : BitVec 2) (x : Word) : signOf p x = x.getLsbD (if p = 0 then 31 else 63) := by
  rw [signOf, signBit_eq, BitVec.getLsbD, Nat.testBit_eq_decide_div_mod_eq]
  rfl

/-- A code of a sign and a magnitude, bit by bit. -/
theorem getLsbD_withSign (p : BitVec 2) (neg : Bool) (x : Word) {i : Nat} (hi : i < 64) :
    (withSign p neg (magOf p x)).getLsbD i = ((decide (i < if p = 0 then 31 else 63) && x.getLsbD i)
      || (decide (i = if p = 0 then 31 else 63) && neg)) := by
  have hmag : magOf p x < 2 ^ (if p = 0 then 31 else 63) := by
    rw [magOf, signBit_eq]; exact Nat.mod_lt _ (Nat.two_pow_pos _)
  have hsum : (if neg then signBit p else 0) + magOf p x = 2 ^ (if p = 0 then 31 else 63) * neg.toNat + magOf p x := by
    rw [signBit_eq]; cases neg <;> simp
  rw [withSign, getLsbD_mkWord hi, hsum, Nat.testBit_two_pow_mul_add _ hmag, testBit_magOf]
  generalize (if p = 0 then 31 else 63) = top at hmag ⊢
  by_cases hlt : i < top
  · simp [hlt, Nat.ne_of_lt hlt]
  · by_cases heq : i = top
    · cases neg <;> simp [heq]
    · obtain ⟨j, hj⟩ : ∃ j, i - top = j + 1 := ⟨i - top - 1, by omega⟩
      cases neg <;> simp [hlt, heq, hj, Nat.testBit_succ]

/-! Conversions -/

theorem clampInt_mem {lo hi : Int} (h : lo ≤ hi) (i : Int) :
    lo ≤ (clampInt lo hi i).1 ∧ (clampInt lo hi i).1 ≤ hi := by
  unfold clampInt
  split_ifs with hlow hhigh
  · exact ⟨le_refl lo, h⟩
  · exact ⟨h, le_refl hi⟩
  · exact ⟨not_lt.mp hlow, not_lt.mp hhigh⟩

/-- A conversion to an integer range stays in it. -/
theorem toInt_mem {lo hi : Int} (hlo : lo ≤ 0) (hhi : 0 ≤ hi) (m : Nat) (x : FVal) :
    lo ≤ (x.toInt lo hi m).1 ∧ (x.toInt lo hi m).1 ≤ hi := by
  cases x with
  | nan sig => exact ⟨hlo, hhi⟩
  | inf neg =>
    cases neg with
    | false => exact ⟨hlo.trans hhi, le_refl hi⟩
    | true => exact ⟨le_refl lo, hlo.trans hhi⟩
  | fin neg k e => exact clampInt_mem (hlo.trans hhi) _

theorem ofInt_signExtend {i : Int} (hlo : -2 ^ 31 ≤ i) (hhi : i ≤ 2 ^ 31 - 1) :
    BitVec.ofInt 64 i = (BitVec.ofInt 32 i).signExtend 64 := by
  have hval : (BitVec.ofInt 32 i).toInt = i := by
    rw [BitVec.toInt_ofInt]
    exact Int.bmod_eq_of_le (by omega) (by omega)
  rw [BitVec.signExtend, hval]

theorem ofInt_setWidth {i : Int} (hlo : 0 ≤ i) (hhi : i ≤ 2 ^ 32 - 1) :
    BitVec.ofInt 64 i = (BitVec.ofInt 32 i).setWidth 64 := by
  apply BitVec.eq_of_toNat_eq
  simp only [BitVec.toNat_setWidth, BitVec.toNat_ofInt]
  omega

/-- A conversion from an integer kind rounds the value that the kind reads. -/
theorem fcvtfOp_of_value {p k : BitVec 2} {m : BitVec 3} {x : Word} {i : Int}
    (h : intOfCode (kindOf k).1 (kindOf k).2 x.toNat = i) :
    fcvtfOp p k m x = (mkWord ((precFmt p).round m.toNat (FVal.ofInt i)).1,
      ((precFmt p).round m.toNat (FVal.ofInt i)).2) := by
  rw [← h]; rfl

theorem signedCode_low (x : Word) : intOfCode true 32 x.toNat = (x.setWidth 32).toInt := by
  rw [intOfCode_eq_toInt (by decide), BitVec.ofNat_toNat]

theorem signedCode_whole (x : Word) : intOfCode true 64 x.toNat = x.toInt := by
  rw [intOfCode_eq_toInt (by decide), BitVec.ofNat_toNat, BitVec.setWidth_eq]

theorem naturalCode_low (x : Word) : intOfCode false 32 x.toNat = ((x.setWidth 32).toNat : Int) := by
  rw [BitVec.toNat_setWidth]; rfl

theorem naturalCode_whole (x : Word) : intOfCode false 64 x.toNat = (x.toNat : Int) :=
  congrArg Int.ofNat (Nat.mod_eq_of_lt x.isLt)

/-- Settles O18: a sign-bit word puts a sign on a magnitude; a saturated value fits the 32 bits that the statement cuts
it to. -/
theorem signBitAndConversionResults : Obligations.SignBitAndConversionResults := by
  refine ⟨fun s p d a b v _ => ⟨fun hp => ⟨?_, ?_⟩, fun hp => ?_⟩, fun s p d a k m v hp _ _ => ?_⟩
  · exact ⟨_, exec_alu1 rfl hp rfl, fun i hi => by rw [fabsOp, getLsbD_withSign _ _ _ hi]; simp⟩
  · exact ⟨_, exec_alu1 rfl hp rfl, fun i hi => by rw [fnegOp, getLsbD_withSign _ _ _ hi, signOf_eq]⟩
  · exact ⟨_, exec_alu2 rfl hp rfl, fun i hi => by rw [fcpysOp, getLsbD_withSign _ _ _ hi, signOf_eq]⟩
  · dsimp only
    rw [← precFmt_eq]
    have hmem := fun (lo hi : Int) (hlo : lo ≤ 0) (hhi : 0 ≤ hi) =>
      toInt_mem hlo hhi m.toNat ((precFmt p).decode (s.src a v 0).val.toNat)
    refine ⟨?_, ?_, ?_, ?_, ?_, ?_⟩
    · rintro rfl
      obtain ⟨hlo, hhi⟩ := hmem (-2 ^ 31) (2 ^ 31 - 1) (by decide) (by decide)
      exact ⟨exec_flagged1 rfl hp (Prod.ext (ofInt_signExtend hlo hhi) rfl),
        exec_flagged1 rfl hp (fcvtfOp_of_value (signedCode_low _))⟩
    · rintro rfl
      exact ⟨exec_flagged1 rfl hp rfl, exec_flagged1 rfl hp (fcvtfOp_of_value (signedCode_whole _))⟩
    · rintro rfl
      obtain ⟨hlo, hhi⟩ := hmem 0 (2 ^ 32 - 1) (by decide) (by decide)
      exact ⟨exec_flagged1 rfl hp (Prod.ext (ofInt_setWidth hlo hhi) rfl),
        exec_flagged1 rfl hp (fcvtfOp_of_value (naturalCode_low _))⟩
    · rintro rfl
      exact ⟨exec_flagged1 rfl hp rfl, exec_flagged1 rfl hp (fcvtfOp_of_value (naturalCode_whole _))⟩
    · rintro rfl
      exact exec_flagged1 rfl hp rfl
    · rintro rfl
      exact exec_flagged1 rfl hp rfl

end Sys2Proof.ComputeProofs

/-! ### The frame of the computing words fails for a register field that names no register (03 R36; 05 R81) -/

namespace Sys2Proof.ComputeProofs

open Sys2Proof Sys2Proof.Machine Sys2Proof.Safety Sys2Proof.Laws

/-- `ADD` to register field 63 sends its result to that number at the reset state. -/
theorem exec_add_field63 :
    exec (.add 63 0 0) State.reset = .next (State.reset.push (.sreg 63 { val := 0 }) 1) := by
  rw [exec_alu2 (v := []) (r := 0) rfl (popped_zero _) rfl]
  rfl

/-- Refutes O21: `ADD` with the destination field 63, which names no register (03 R36), still sends its result to the
key 63, while `dests` lists no destination for it. -/
theorem not_computingWordsFrame : ¬ Obligations.ComputingWordsFrame := by
  intro h
  obtain ⟨t, l, hexec, -, -, hpend, hdests⟩ := h State.reset (.add 63 0 0) _ [] rfl rfl (popped_zero _)
  rw [exec_add_field63] at hexec
  cases hexec
  obtain ⟨p, rfl, hkey⟩ : ∃ p, l = [p] ∧ p.w.key = some 63 := ⟨_, hpend.symm, rfl⟩
  obtain ⟨-, hnone | ⟨k, hk, -⟩⟩ := hdests p List.mem_cons_self
  · rw [hkey] at hnone
    cases hnone
  · cases hk

end Sys2Proof.ComputeProofs

/-! ### Control: transfers and loops (05 R91 to R93) -/

namespace Sys2Proof.ControlProofs

open Sys2Proof Sys2Proof.Machine Sys2Proof.Safety Sys2Proof.Laws

/-- A word that pops nothing and meets no cause has its effect. -/
theorem exec_effect {i : Instr} {x : WordSpec} {s : State} (hword : wordOf i = some x) (hlegal : x.illop s = false)
    (hpops : x.pops = 0) (hstall : x.stall s [] 0 = false) (hcheck : x.check s [] = none) :
    exec i s = .next (x.effect s []) := by
  have hp : Popped s x.pops [] := hpops ▸ popped_zero s
  rw [exec_word hword, issueWord_effect hlegal hp (hpops ▸ hstall) hcheck, hpops, popLq_zero]

theorem poisonCheck_clean (s : State) (r : SReg) {v : Reg} (h : v.poison = false) : s.poisonCheck r v = none := by
  rw [State.poisonCheck, h]; rfl

/-! Transfers -/

/-- A good target: aligned and in the code (05 R91). -/
theorem branchTo_good {s : State} {t : Word} (h : t.toNat % 4 = 0 ∧ s.inCode t = true) :
    s.branchTo t = { s.record 6 0 0 s.badr t with ctl := .jump t } := by
  rw [State.branchTo, if_neg (by simp [h])]

/-- A bad target raises ADDR of completion kind, and the bundle is over without a transfer (05 R91). -/
theorem branchTo_bad {s : State} {t : Word} (h : t.toNat % 4 ≠ 0 ∨ s.inCode t = false) :
    s.branchTo t = ((s.record 2 (s.takenCause 6) 0 s.badr 0).advance s.nextAddr).trap 6 t true s.nextAddr := by
  rw [State.branchTo, if_pos (by simpa using h)]
  rfl

theorem callTo_good {s : State} {t : Word} (h : t.toNat % 4 = 0 ∧ s.inCode t = true) :
    s.callTo t = { (s.push (.sreg 61 { val := s.nextAddr }) 1).record 6 0 0 s.badr t with ctl := .jump t } := by
  rw [State.callTo, if_pos (by simp [State.targetOk, h])]
  exact branchTo_good (s := s.push (.sreg 61 { val := s.nextAddr }) 1) h

theorem callTo_bad {s : State} {t : Word} (h : t.toNat % 4 ≠ 0 ∨ s.inCode t = false) :
    s.callTo t = s.branchTo t := by
  rw [State.callTo, if_neg (by simpa [State.targetOk, imp_iff_not_or] using h)]

/-- `BR` on a clean predicate goes to its target when the predicate and n differ (05 R91). -/
theorem exec_br {s : State} {k : PRegNum} {n : BitVec 1} {off : BitVec 22} (h : (s.cx.preg k).poison = false) :
    exec (.br k n off) s = .next (if (s.cx.preg k).val = (n == 1) then s
      else s.branchTo (s.badr + 4 * off.signExtend 64)) := by
  rw [exec_effect (x := brWord k n off) rfl rfl rfl rfl (by simp [brWord, h])]
  by_cases heq : (s.cx.preg k).val = (n == 1)
  · rw [if_pos heq]
    simp only [brWord, brTaken, heq, bne_self_eq_false, Bool.false_eq_true, if_false]
  · rw [if_neg heq]
    exact congrArg _ (if_pos (bne_iff_ne.mpr heq))

/-- Settles O23: each transfer is `branchTo` or `callTo` of its target. -/
theorem transfersAndBadTargets : Obligations.TransfersAndBadTargets := by
  refine ⟨fun s a k n off => ⟨fun hk => ⟨fun heq => ?_, fun hne hok => ?_⟩, fun ha hok => ⟨?_, ?_⟩, fun ha hok => ?_,
    fun off hok => ?_⟩, fun s a k n off => ⟨fun hk hne hno => ?_, fun ha hno => ⟨?_, ?_⟩, fun ha hno => ?_,
    fun off hno => ?_⟩⟩
  · rw [exec_br hk, if_pos heq]
  · rw [exec_br hk, if_neg hne, branchTo_good hok]
  · rw [exec_effect (x := jmpWord a) rfl rfl rfl rfl (poisonCheck_clean s a ha)]
    exact congrArg _ (branchTo_good hok)
  · rw [exec_effect (x := jmplWord a) rfl rfl rfl rfl (poisonCheck_clean s a ha)]
    exact congrArg _ (callTo_good hok)
  · rw [exec_effect (x := retWord) rfl rfl rfl rfl (poisonCheck_clean s 61 ha)]
    exact congrArg _ (branchTo_good hok)
  · rw [exec_effect (x := callWord off) rfl rfl rfl rfl rfl]
    exact congrArg _ (callTo_good hok)
  · rw [exec_br hk, if_neg hne, branchTo_bad hno]
    rfl
  · rw [exec_effect (x := jmpWord a) rfl rfl rfl rfl (poisonCheck_clean s a ha)]
    exact congrArg _ (branchTo_bad hno)
  · rw [exec_effect (x := jmplWord a) rfl rfl rfl rfl (poisonCheck_clean s a ha)]
    exact congrArg _ ((callTo_bad hno).trans (branchTo_bad hno))
  · rw [exec_effect (x := retWord) rfl rfl rfl rfl (poisonCheck_clean s 61 ha)]
    exact congrArg _ (branchTo_bad hno)
  · rw [exec_effect (x := callWord off) rfl rfl rfl rfl rfl]
    exact congrArg _ ((callTo_bad hno).trans (branchTo_bad hno))

/-! Loops -/

/-- The destinations of results that go to no special register are numbered below those that do. -/
theorem key_lt_of_not_special {w : Write} {k : Nat} (hw : ∀ n v b, w ≠ .special n v b) (hk : w.key = some k) :
    k < 1000 := by
  cases w with
  | special n v b => exact absurd rfl (hw n v b)
  | flags f => exact absurd hk (by simp [Write.key])
  | sreg r v | pred r v | desc r v | base r v | count r v | chain r v | fm r v | sc r v | slack r v | allow r v
  | latch r v =>
    have hr := r.isLt
    simp only [Write.key, Option.some.injEq] at hk
    omega

/-- With nothing on its way to a special register, a read finds what is stored (03 R31). -/
theorem specialNow_stored {s : State} (h : ∀ p ∈ s.cx.pend, ∀ n v b, p.w ≠ .special n v b) (n : Nat) :
    s.specialNow n = s.special n := by
  have hunsent : ∀ p ∈ s.cx.pend, p.w.key ≠ some (1000 + n) := fun p hp hk =>
    absurd (key_lt_of_not_special (h p hp) hk) (by omega)
  rw [State.specialNow, RegisterProofs.visible_of_unsent hunsent]

/-- The loop test where nothing is on its way to a special register (05 R93). -/
theorem loopNext_stored {s : State} (h : ∀ p ∈ s.cx.pend, ∀ n v b, p.w ≠ .special n v b) :
    s.loopNext = if s.nextAddr = s.cx.lend ∧ s.cx.lcnt ≠ 0 then
        if s.cx.lcnt = 1 then ({ s with cx := { s.cx with lcnt := 0 } }, s.nextAddr)
        else ({ s with cx := { s.cx with lcnt := s.cx.lcnt - 1 } }, s.cx.lbeg)
      else (s, s.nextAddr) := by
  have hlbeg : s.specialNow 0x020 = s.cx.lbeg := specialNow_stored h 0x020
  have hlend : s.specialNow 0x021 = s.cx.lend := specialNow_stored h 0x021
  have hlcnt : s.specialNow 0x022 = s.cx.lcnt := specialNow_stored h 0x022
  simp only [State.loopNext, hlbeg, hlend, hlcnt, Bool.and_eq_true, beq_iff_eq, bne_iff_ne]

/-- Settles O24: `LOOP` writes the loop state at once, and the loop test reads it as stored. -/
theorem loops : Obligations.Loops := by
  refine ⟨fun s a n ha => ?_, fun s h => ?_⟩
  · rw [exec_effect (x := loopWord a n) rfl rfl rfl rfl (poisonCheck_clean s a ha)]
    refine ⟨_, rfl, rfl, rfl, rfl, ?_, rfl⟩
    simp only [loopWord, beq_iff_eq]
  · rw [loopNext_stored h]
    refine ⟨fun hout => if_neg fun hin => ?_, fun hend hone => ?_, fun hend hmore => ?_⟩
    · exact hout.elim (fun hne => hne hin.1) hin.2
    · rw [if_pos ⟨hend, by rw [hone]; decide⟩, if_pos hone]
      rfl
    · rw [if_pos ⟨hend, by bv_omega⟩, if_neg (by bv_omega)]

end Sys2Proof.ControlProofs

/-! ### Special registers (05 R78 to R80; 10 R196; 13 R218, R220; 16 R265) -/

namespace Sys2Proof.SpecialProofs

open Sys2Proof Sys2Proof.Machine Sys2Proof.Safety Sys2Proof.Laws Sys2Proof.ComputeProofs Sys2Proof.ControlProofs

/-! `MFS` and `MTS` -/

theorem mfs_check_readable {s : State} {a : SReg} {n : BitVec 14} (h : n.toNat < 0x100 ∨ s.cx.priv = true) :
    (mfsWord a n).check s [] = none := by
  rcases h with hlow | hpriv
  · have hseen : specialHidden n.toNat = false := decide_eq_false (Nat.not_le.mpr hlow)
    simp only [mfsWord, hseen, Bool.false_eq_true, if_false]
  · simp only [mfsWord, IssueProofs.privCheck_privileged hpriv, ite_self]

/-- `MTS` of a clean register meets no cause where code may write the register and `ftime` is not in use. -/
theorem mts_check_writable {s : State} {a : SReg} {n : BitVec 14} (hclean : (s.cx.sreg a).poison = false)
    (hpriv : s.cx.priv = true ∨ specialPrivWrite n.toNat = false) (hidle : n = 1 → s.posted = false) :
    (mtsWord a n).check s [] = none := by
  have hmay : (if specialPrivWrite n.toNat then s.privCheck else none) = none := by
    rcases hpriv with hpriv | hopen
    · rw [IssueProofs.privCheck_privileged hpriv, ite_self]
    · rw [hopen]; rfl
  have hfree : (n == 1 && s.posted) = false := by
    by_cases h : n = 1
    · rw [hidle h, Bool.and_false]
    · rw [beq_eq_false_iff_ne.mpr h, Bool.false_and]
  simp only [mtsWord, hmay, poisonCheck_clean s a hclean, hfree, Bool.false_eq_true, if_false]
  rfl

/-! Fields -/

/-- The bits kept of a word are those of a mask. -/
theorem keep_eq_and (w : Word) (lo len : Nat) : keep w lo len = w &&& mkWord ((2 ^ len - 1) * 2 ^ lo) := by
  apply BitVec.eq_of_getLsbD_eq
  intro i hi
  rw [keep, BitVec.getLsbD_and, getLsbD_mkWord hi, getLsbD_mkWord hi, Nat.testBit_mul_two_pow,
    Nat.testBit_mul_two_pow, Nat.testBit_two_pow_sub_one, testBit_bitsOf]
  by_cases hlow : lo ≤ i
  · rw [Nat.add_sub_cancel' hlow, decide_eq_true hlow, Bool.true_and, Bool.true_and, Bool.and_comm]
  · rw [decide_eq_false hlow, Bool.false_and, Bool.false_and, Bool.and_false]

theorem testBit_toNat (b : Bool) (i : Nat) : b.toNat.testBit i = (decide (i = 0) && b) := by
  cases b <;> cases i <;> simp [Nat.testBit_succ]

/-- The bits of `kstat` (05 R80). -/
theorem getLsbD_kstatOf (c : Ctx) (bank : Bool) (f : Flags) (i : Nat) :
    (kstatOf c bank f).getLsbD i
      = if i < 6 then f.getLsbD i else if i = 8 then c.priv else if i = 9 then bank else if i = 10 then c.acchk
        else if i = 11 then decide (c.lcnt ≠ 0) else false := by
  have hf : f.toNat < 2 ^ 8 := by omega
  have hb : ∀ b : Bool, b.toNat < 2 ^ 1 := fun b => Bool.toNat_lt b
  have hsum : kstatOf c bank f = mkWord (2 ^ 8 * (2 ^ 1 * (2 ^ 1 * (2 ^ 1 * (c.lcnt != 0).toNat + c.acchk.toNat)
      + bank.toNat) + c.priv.toNat) + f.toNat) := by
    rw [kstatOf]
    congr 1
    cases c.priv <;> cases bank <;> cases c.acchk <;> cases (c.lcnt != 0) <;> simp <;> omega
  rw [← bne_eq_decide, hsum, mkWord, BitVec.getLsbD_ofNat, Nat.testBit_two_pow_mul_add _ hf,
    Nat.testBit_two_pow_mul_add _ (hb _),
    Nat.testBit_two_pow_mul_add _ (hb _), Nat.testBit_two_pow_mul_add _ (hb _), testBit_toNat, testBit_toNat,
    testBit_toNat, testBit_toNat]
  by_cases hlow : i < 8
  · rw [if_pos hlow, decide_eq_true (by omega : i < 64), Bool.true_and]
    by_cases hflag : i < 6
    · rw [if_pos hflag]; rfl
    · rw [if_neg hflag, if_neg (by omega), if_neg (by omega), if_neg (by omega), if_neg (by omega)]
      exact BitVec.getLsbD_of_ge f i (by omega)
  · obtain ⟨j, rfl⟩ : ∃ j, i = 8 + j := ⟨i - 8, by omega⟩
    rcases j with _ | _ | _ | _ | j
    · simp
    · simp
    · simp
    · simp
    · have habove : decide (8 + (j + 1 + 1 + 1 + 1) - 8 - 1 - 1 - 1 = 0) = false := decide_eq_false (by omega)
      rw [if_neg hlow, if_neg (by omega), if_neg (by omega), if_neg (by omega), habove, Bool.false_and, Bool.and_false,
        if_neg (by omega), if_neg (by omega), if_neg (by omega), if_neg (by omega), if_neg (by omega)]

/-- Fields that stand side by side in a word are read back. -/
theorem bitsOf_packed {a b c d : Nat} (ha : a < 2 ^ 13) (hb : b < 2 ^ 4) (hc : c < 2 ^ 1) (hd : d < 2 ^ 10) :
    bitsOf (mkWord (a + b * 2 ^ 13 + c * 2 ^ 17 + d * 2 ^ 18)) 0 13 = a
    ∧ bitsOf (mkWord (a + b * 2 ^ 13 + c * 2 ^ 17 + d * 2 ^ 18)) 13 4 = b
    ∧ bitsOf (mkWord (a + b * 2 ^ 13 + c * 2 ^ 17 + d * 2 ^ 18)) 17 1 = c
    ∧ bitsOf (mkWord (a + b * 2 ^ 13 + c * 2 ^ 17 + d * 2 ^ 18)) 18 10 = d
    ∧ bitsOf (mkWord (a + b * 2 ^ 13 + c * 2 ^ 17 + d * 2 ^ 18)) 28 36 = 0 := by
  simp only [bitsOf, toNat_mkWord]
  omega

/-- The fields of `wsrf` (10 R196). -/
theorem wsrfAt_fields (cyc : Nat) :
    bitsOf (wsrfAt cyc) 0 13 = cyc % 8192
    ∧ bitsOf (wsrfAt cyc) 13 4
      = (if cyc % 8192 % 512 < 64 then cyc % 8192 / 512 else (cyc % 8192 / 512 + 1) % 16)
    ∧ bitsOf (wsrfAt cyc) 17 1 = (if cyc % 8192 % 512 < 64 then 1 else 0)
    ∧ bitsOf (wsrfAt cyc) 18 10 = 512 - cyc % 8192 % 512 ∧ bitsOf (wsrfAt cyc) 28 36 = 0 := by
  simp only [wsrfAt, decide_eq_true_eq]
  by_cases h : cyc % 8192 % 512 < 64
  · simp only [if_pos h]
    exact bitsOf_packed (c := 1) (by omega) (by omega) (by omega) (by omega)
  · simp only [if_neg h]
    exact bitsOf_packed (c := 0) (by omega) (by omega) (by omega) (by omega)

/-! Reads and writes of the special registers -/

/-- Unprivileged code changes no register but those that it may write (05 R79). -/
theorem setSpecial_unprivileged (s : State) (v : Word) {n : Nat}
    (h : n ∉ [0x007, 0x00B, 0x00C, 0x018, 0x020, 0x021, 0x022]) : s.setSpecial n v false = s := by
  unfold State.setSpecial
  split <;> first | rfl | exact absurd (by decide) h

/-- Settles O29: the words send and read the register, and each register keeps the fields that a mask shows. -/
theorem specialRegisters : Obligations.SpecialRegisters := by
  refine ⟨fun s a n => ⟨fun h => ?_, fun hclean hpriv hidle => ?_, fun hclean hpriv hn => ?_⟩, fun s hpend => ?_,
    fun s n v p hseen => ?_, fun s v p => ?_, fun s v p => ?_⟩
  · exact exec_effect (x := mfsWord a n) rfl rfl rfl rfl (mfs_check_readable h)
  · rw [exec_effect (x := mtsWord a n) rfl rfl rfl rfl (mts_check_writable hclean (.inl hpriv) fun h => by
      obtain ⟨hcoll, hsends⟩ := hidle h
      simp [State.posted, hcoll, hsends])]
    exact congrArg (fun p => Host.Outcome.next (s.push (.special n.toNat (s.cx.sreg a).val p) 2)) hpriv
  · have hkept : n.toNat ≠ 1 ∧ specialPrivWrite n.toNat = false := by
      revert hn
      generalize n.toNat = k
      simp only [List.mem_cons, List.not_mem_nil, or_false]
      rintro (rfl | rfl | rfl | rfl | rfl | rfl | rfl) <;> decide
    rw [exec_effect (x := mtsWord a n) rfl rfl rfl rfl (mts_check_writable hclean (.inr hkept.2) fun h =>
      absurd (congrArg BitVec.toNat h) hkept.1)]
    exact congrArg (fun p => Host.Outcome.next (s.push (.special n.toNat (s.cx.sreg a).val p) 2)) hpriv
  · have hread : s.specialNow = s.special := funext (specialNow_stored (by simp [hpend]))
    dsimp only
    rw [hread]
    refine ⟨rfl, rfl, rfl, rfl, rfl, rfl, rfl, fun i => ?_, rfl, rfl, rfl, rfl, rfl, wsrfAt_fields s.cyc, fun i => ?_,
      rfl, rfl, rfl, rfl, rfl, rfl, rfl, rfl⟩
    · exact (getLsbD_kstatOf s.cx s.bank s.cx.flagsNow i).trans (by simp [Ctx.flagsNow, hpend])
    · fin_cases i <;> rfl
  · rw [State.specialNow, hseen]
    rfl
  · refine ⟨rfl, congrArg (fun x => { s.cx with tcx := x }) (keep_eq_and v 0 16),
      congrArg (fun x => { s.cx with tcy := x }) (keep_eq_and v 0 16),
      congrArg (fun x => { s.cx with tcz := x }) (keep_eq_and v 0 16), rfl, rfl, rfl, rfl, fun i => ?_, rfl, ?_⟩
    · fin_cases i <;> rfl
    · show ({ s.core with emerg := keep v 12 29 ||| (if v.getLsbD 0 then 0 else keep s.core.emerg 0 1) } : CoreSt) = _
      rw [keep_eq_and, keep_eq_and]
      rfl
  · exact ⟨rfl, congrArg (fun x => { s.cx with thand := x }) (keep_eq_and v 2 55),
      congrArg (fun x => { s.cx with lbeg := x }) (keep_eq_and v 2 55),
      congrArg (fun x => { s.cx with lend := x }) (keep_eq_and v 2 55), rfl,
      congrArg (fun x => { s.cx with asid := x }) (keep_eq_and v 0 12),
      congrArg (fun x => { s.cx with ptbase := x }) (keep_eq_and v 12 29),
      congrArg (fun x => { s.cx with ctxsave := x }) (keep_eq_and v 12 45), fun n => setSpecial_unprivileged s v⟩

end Sys2Proof.SpecialProofs

/-! ### Context banks: captures, switches and the end of a task (05 R94; 13 R224; 14 R233, R240 to R242) -/

namespace Sys2Proof.BankProofs

open Sys2Proof Sys2Proof.Machine Sys2Proof.Safety Sys2Proof.Laws Sys2Proof.ControlProofs

/-! What a capture leaves -/

/-- The banks hold the contexts that they held, and the running one is at the same address. -/
structure SameContexts (s t : State) : Prop where
  sh : t.sh = s.sh
  shSt : t.shSt = s.shSt
  cxSt : t.cxSt = s.cxSt
  bank : t.bank = s.bank
  uid : t.cx.uid = s.cx.uid
  pc : t.cx.pc = s.cx.pc

theorem sameContexts_refl (s : State) : SameContexts s s := ⟨rfl, rfl, rfl, rfl, rfl, rfl⟩

theorem sameContexts_trans {s t u : State} (h : SameContexts s t) (k : SameContexts t u) : SameContexts s u :=
  ⟨k.sh.trans h.sh, k.shSt.trans h.shSt, k.cxSt.trans h.cxSt, k.bank.trans h.bank,
    k.uid.trans h.uid, k.pc.trans h.pc⟩

theorem sameContexts_foldl {α : Type} {f : State → α → State} (hf : ∀ s x, SameContexts s (f s x)) (l : List α)
    (s : State) : SameContexts s (l.foldl f s) := by
  induction l generalizing s with
  | nil => exact sameContexts_refl s
  | cons x l ih => exact sameContexts_trans (hf s x) (ih (f s x))

theorem onlyTime_sameContexts {s t : State} (h : OnlyTime s t) : SameContexts s t := by
  rw [OnlyTime] at h
  exact ⟨by rw [h], by rw [h], by rw [h], by rw [h], by rw [h], by rw [h]⟩

theorem setSpecial_sameContexts (s : State) (n : Nat) (v : Word) (p : Bool) :
    SameContexts s (s.setSpecial n v p) := by
  unfold State.setSpecial
  (repeat' split) <;> exact ⟨rfl, rfl, rfl, rfl, rfl, rfl⟩

theorem applyWrite_sameContexts (s : State) (w : Write) : SameContexts s (s.applyWrite w) := by
  cases w with
  | special n v p => exact setSpecial_sameContexts s n v p
  | count d n => cases n <;> exact ⟨rfl, rfl, rfl, rfl, rfl, rfl⟩
  | _ => exact ⟨rfl, rfl, rfl, rfl, rfl, rfl⟩

theorem applyOne_sameContexts (s : State) (l : List Pend) (p : Option Pend) : SameContexts s (s.applyOne l p) := by
  unfold State.applyOne
  split
  · exact ⟨rfl, rfl, rfl, rfl, rfl, rfl⟩
  · exact ⟨rfl, rfl, rfl, rfl, rfl, rfl⟩
  · exact ⟨rfl, rfl, rfl, rfl, rfl, rfl⟩
  · split
    · exact sameContexts_refl s
    · exact applyWrite_sameContexts s _
  · exact sameContexts_refl s

theorem applyGroup_sameContexts (s : State) (l : List Pend) : SameContexts s (s.applyGroup l) := by
  unfold State.applyGroup
  split
  · exact applyOne_sameContexts s _ _
  · exact applyOne_sameContexts s _ _
  · exact sameContexts_trans (t := { s with fv := s.fv + 1 }) ⟨rfl, rfl, rfl, rfl, rfl, rfl⟩
      (applyOne_sameContexts _ _ _)

theorem settleList_sameContexts (t n : Nat) (l kept : List Pend) (s : State) :
    SameContexts s (settleList t n l kept s).1 := by
  induction n generalizing l kept s with
  | zero => exact sameContexts_refl s
  | succ n ih =>
    cases l with
    | nil => exact sameContexts_refl s
    | cons p l =>
      simp only [settleList]
      split
      · split
        · exact sameContexts_trans (applyWrite_sameContexts s _) (ih _ _ _)
        · exact ih _ _ _
      · split
        · exact sameContexts_trans (applyGroup_sameContexts s _) (ih _ _ _)
        · split
          · exact sameContexts_trans (applyWrite_sameContexts s _) (ih _ _ _)
          · exact ih _ _ _

theorem settle_sameContexts (s : State) : SameContexts s s.settle := by
  have h := settleList_sameContexts s.cx.icyc s.cx.pend.length s.cx.pend [] s
  exact ⟨h.sh, h.shSt, h.cxSt, h.bank, h.uid, h.pc⟩

theorem drain_sameContexts (s : State) : SameContexts s s.drain := by
  have h := settleList_sameContexts (s.cx.pend.foldl (fun n p => Nat.max n (p.issued + p.bound)) s.cx.icyc)
    s.cx.pend.length (s.cx.pend.filter (·.w.known)) [] s
  exact ⟨h.sh, h.shSt, h.cxSt, h.bank, h.uid, h.pc⟩

theorem sendPacket_sameContexts (s : State) (p : Packet) : SameContexts s (s.sendPacket p) :=
  ⟨rfl, rfl, rfl, rfl, rfl, rfl⟩

theorem flushLine_sameContexts (s : State) (l : Line) : SameContexts s (s.flushLine l) :=
  ⟨rfl, rfl, rfl, rfl, rfl, rfl⟩

theorem flushLines_sameContexts (s : State) (p : Line → Bool) : SameContexts s (s.flushLines p) :=
  sameContexts_foldl flushLine_sameContexts _ s

theorem withdrawAll_sameContexts (s : State) : SameContexts s s.withdrawAll := by
  unfold State.withdrawAll
  dsimp only
  refine sameContexts_trans ?_ (sameContexts_foldl (fun t p => sendPacket_sameContexts t _) _ _)
  exact ⟨rfl, rfl, rfl, rfl, rfl, rfl⟩

/-- A capture leaves the banks as they are (03 R34). -/
theorem capture_sameContexts (s : State) : SameContexts s s.capture := by
  have h := sameContexts_trans (drain_sameContexts s) (sameContexts_trans
    (flushLines_sameContexts s.drain (fun l => l.owner == s.drain.cx.uid)) (withdrawAll_sameContexts _))
  unfold State.capture
  dsimp only
  generalize State.withdrawAll _ = t at h ⊢
  exact ⟨h.sh, h.shSt, h.cxSt, h.bank, h.uid, h.pc⟩

/-- The end of a bundle leaves the banks as they are but for the address (03 R33). -/
theorem advance_contexts (s : State) (a : Word) :
    SameContexts { s with cx := { s.cx with pc := a } } (s.advance a) := by
  have h := onlyTime_sameContexts (tick_only s)
  unfold State.advance
  dsimp only
  generalize s.tick = t at h ⊢
  refine sameContexts_trans ?_ (settle_sameContexts _)
  exact ⟨h.sh, h.shSt, h.cxSt, h.bank, h.uid, rfl⟩

/-! Switches -/

@[simp] theorem ticks_yieldReq (n : Nat) (s : State) : (State.ticks n s).core.yieldReq = s.core.yieldReq := by
  rw [ticks_only n s]
@[simp] theorem ticks_sched (n : Nat) (s : State) : (State.ticks n s).sched = s.sched := by rw [ticks_only n s]
@[simp] theorem restore_sh (s : State) : s.restore.sh = s.sh := by simp only [State.restore]
@[simp] theorem restore_uid (s : State) : s.restore.cx.uid = s.cx.uid := by simp only [State.restore]
@[simp] theorem restore_yieldReq (s : State) : s.restore.core.yieldReq = s.core.yieldReq := by
  simp only [State.restore]
@[simp] theorem restore_sched (s : State) : s.restore.sched = s.sched := by simp only [State.restore]

/-- After the banks are exchanged the other context runs, and the one that gave way is as it was (13 R224). -/
theorem exchange_contexts (s : State) (st : BankSt) :
    (s.exchange st).cxSt = .running ∧ (s.exchange st).shSt = st ∧ (s.exchange st).bank = !s.bank
    ∧ (s.exchange st).cx.uid = s.sh.uid ∧ (s.exchange st).sh = s.cx ∧ (s.exchange st).core.yieldReq = none
    ∧ (s.exchange st).sched = s.sched := by
  unfold State.exchange
  simp

/-- A switch to a ready bank (13 R224). -/
theorem leave_contexts {s : State} (hready : s.shSt = .ready) (st : BankSt) (n : Nat) :
    (s.leave st n).cxSt = .running ∧ (s.leave st n).shSt = st ∧ (s.leave st n).bank = !s.bank
    ∧ (s.leave st n).cx.uid = s.sh.uid ∧ (s.leave st n).sh = s.cx ∧ (s.leave st n).core.yieldReq = none := by
  have hleave : s.leave st n = (s.noteSwitch st n).exchange st := if_pos (by rw [hready]; rfl)
  have hnote := noteSwitch_only s st n
  generalize s.noteSwitch st n = t at hleave hnote
  have hbank : t.bank = s.bank := by rw [hnote]
  have hsh : t.sh = s.sh := by rw [hnote]
  have hcx : t.cx = s.cx := by rw [hnote]
  obtain ⟨hrun, hshSt, hturn, huid, hold, hreq, -⟩ := exchange_contexts t st
  rw [hleave, ← hbank, ← hsh, ← hcx]
  exact ⟨hrun, hshSt, hturn, huid, hold, hreq⟩

/-! The end of a task -/

/-- What a task held has been released: contexts lose waiting accesses, partitions and barriers are free, and nothing
else has changed (06 R97 to R99, 14 R248). -/
structure Released (s t : State) : Prop where
  rest : t = { s with
    cx := t.cx, sh := t.sh, core := t.core
    sched := { s.sched with grants := t.sched.grants, evicted := t.sched.evicted } }
  uid : t.sh.uid = s.sh.uid

theorem released_refl (s : State) : Released s s := ⟨rfl, rfl⟩

theorem released_trans {s t u : State} (h : Released s t) (k : Released t u) : Released s u := by
  obtain ⟨hrest, huid⟩ := h
  obtain ⟨krest, kuid⟩ := k
  refine ⟨?_, kuid.trans huid⟩
  rw [hrest] at krest
  exact krest

theorem setLq_uid (c : Ctx) (id : Nat) (v : Reg) : (c.setLq id v).uid = c.uid := rfl

theorem releaseWaits_uid (parked : List Waiter) (lo n : Nat) (c : Ctx) : (releaseWaits parked lo n c).uid = c.uid := by
  unfold releaseWaits
  dsimp only
  generalize List.filter _ c.accs = l
  induction l generalizing c with
  | nil => rfl
  | cons a l ih =>
    rw [List.foldl_cons, ih]
    split
    · split
      · exact setLq_uid _ _ _
      · rfl
    · rfl

theorem freeRange_released (s : State) (lo n : Nat) : Released s (s.freeRange lo n) :=
  ⟨rfl, releaseWaits_uid _ lo n s.sh⟩

theorem freeAll_released (f g : State → Grant → Nat) (l : List Grant) (s : State) :
    Released s (l.foldl (fun t x => t.freeRange (f t x) (g t x)) s) := by
  induction l generalizing s with
  | nil => exact released_refl s
  | cons x l ih => exact released_trans (freeRange_released s _ _) (ih _)

theorem releaseTask_released (s : State) : Released s s.releaseTask := by
  unfold State.releaseTask
  dsimp only
  refine released_trans (released_trans ?_ (freeAll_released _ _ _ _)) ⟨rfl, rfl⟩
  exact ⟨rfl, rfl⟩

/-- The pricking counts a task of a node that has not finished, with its error (14 R233, R235). -/
theorem mem_noteTaskEnd {s : State} {node : Nat} {r : Option Nat} {m : Node} (hm : m ∈ s.sched.nodes)
    (hgen : m.gen = node) (hdone : m.st ≠ 4) (hfailed : m.st ≠ 5) :
    { m with ended := m.ended + 1, failed := m.failed.or r } ∈ (s.noteTaskEnd node r).sched.nodes := by
  refine List.mem_map.mpr ⟨m, hm, ?_⟩
  rw [if_pos (by simp [hgen, hdone, hfailed])]
  cases m.failed <;> rfl

/-- The end of the running task: the pricking counts it, its bank is empty, and the other context runs if it is ready
(05 R94, 14 R242). -/
structure TaskOver (s t : State) (r : Option Nat) : Prop where
  counted : ∀ m ∈ s.sched.nodes, m.gen = s.cx.task.node → m.st ≠ 4 → m.st ≠ 5 →
    { m with ended := m.ended + 1, failed := m.failed.or r } ∈ t.sched.nodes
  idle : s.shSt ≠ .ready → t.cxSt = .empty ∧ t.cx = Ctx.fresh
  next : s.shSt = .ready → t.cxSt = .running ∧ t.cx.uid = s.sh.uid ∧ t.shSt = .empty ∧ t.sh = Ctx.fresh

theorem endRest_over (s : State) (r : Option Nat) : TaskOver s (s.endRest r) r := by
  have hnote : ∃ v, (if s.shSt == .ready then s.record 4 3 0 s.cx.pc 0 else s) = v
      ∧ v.sched = s.sched ∧ v.shSt = s.shSt ∧ v.sh = s.sh := by
    refine ⟨_, rfl, ?_⟩
    split
    · rw [record_only]
      exact ⟨rfl, rfl, rfl⟩
    · exact ⟨rfl, rfl, rfl⟩
  obtain ⟨v, hv, hsched, hshSt, hsh⟩ := hnote
  have hfree := releaseTask_released v
  generalize hw : v.releaseTask = w at hfree
  have hnodes : w.sched.nodes = s.sched.nodes := by rw [hfree.rest, hsched]
  have hwSt : w.shSt = s.shSt := by rw [hfree.rest, hshSt]
  have huid : w.sh.uid = s.sh.uid := by rw [hfree.uid, hsh]
  unfold State.endRest
  dsimp only
  rw [hv, hw]
  have hcounted : ∀ m ∈ s.sched.nodes, m.gen = s.cx.task.node → m.st ≠ 4 → m.st ≠ 5 →
      { m with ended := m.ended + 1, failed := m.failed.or r }
        ∈ (w.noteTaskEnd s.cx.task.node r).sched.nodes :=
    fun m hm hgen hdone hfailed => mem_noteTaskEnd (hnodes.symm ▸ hm) hgen hdone hfailed
  by_cases hready : s.shSt = .ready
  · have hcond : ((w.noteTaskEnd s.cx.task.node r).shSt == BankSt.ready) = true := by
      rw [beq_iff_eq]; exact hwSt.trans hready
    rw [if_pos hcond]
    generalize hu : ({ w.noteTaskEnd s.cx.task.node r with cx := Ctx.fresh, core := _ } : State) = u
    have husched : u.sched = (w.noteTaskEnd s.cx.task.node r).sched := by rw [← hu]
    have hucx : u.cx = Ctx.fresh := by rw [← hu]
    have hush : u.sh = w.sh := by rw [← hu]; rfl
    obtain ⟨hrun, hempty, -, hnext, hold, -, hsame⟩ := exchange_contexts u .empty
    refine ⟨?_, fun h => absurd hready h, fun _ => ⟨hrun, ?_, hempty, hold.trans hucx⟩⟩
    · rw [hsame, husched]; exact hcounted
    · rw [hnext, hush, huid]
  · have hcond : ¬ ((w.noteTaskEnd s.cx.task.node r).shSt == BankSt.ready) = true := by
      rw [beq_iff_eq]; exact fun h => hready (hwSt.symm.trans h)
    rw [if_neg hcond]
    exact ⟨hcounted, fun _ => ⟨rfl, rfl⟩, fun h => absurd h hready⟩

/-- What holds of the end of a task holds of it after some time has passed. -/
theorem taskOver_of_time {s t u : State} {r : Option Nat} (h : OnlyTime s t) (k : TaskOver t u r) : TaskOver s u r := by
  have hb := onlyTime_sameContexts h
  have hsched : t.sched = s.sched := by rw [h]
  have htask : t.cx = s.cx := by rw [h]
  refine ⟨?_, fun hne => k.idle (hb.shSt.trans_ne hne), fun hready => ?_⟩
  · rw [← hsched, ← htask]; exact k.counted
  · rw [← hb.sh]; exact k.next (hb.shSt.trans hready)

theorem endTask_over (s : State) (r : Option Nat) : TaskOver s (s.endTask r) r :=
  taskOver_of_time (writeCharge_time s).1 (endRest_over _ r)

theorem endNow_over (s : State) : TaskOver s s.endNow (if s.cx.unobserved then some 3 else none) := by
  have htime := onlyTime_trans (writeCharge_time s).1 (tick_only s.writeCharge)
  exact taskOver_of_time htime (endRest_over _ _)

/-! `END` and `YIELD` -/

/-- A context gives way to a ready one: it is captured, and resumes at the address given (13 R224, 14 R240). -/
theorem giveWay_ready {s : State} (hready : s.shSt = .ready) (next : Word) (sub : Nat) :
    let t := s.giveWay next sub
    t.core.yieldReq = none ∧ t.bank = !s.bank ∧ t.shSt = .ready ∧ t.cxSt = .running ∧ t.cx.uid = s.sh.uid
    ∧ t.sh.uid = s.cx.uid ∧ t.sh.captured = true ∧ t.sh.pc = next := by
  have hc := sameContexts_trans (advance_contexts s next) (capture_sameContexts _)
  have hcap := capture_captured (s.advance next)
  unfold State.giveWay
  dsimp only
  generalize (s.advance next).capture = v at hc hcap ⊢
  obtain ⟨hrun, hshSt, hbank, huid, hold, hreq⟩ :=
    leave_contexts (s := { v with core := { v.core with yieldReq := none } }) (hc.shSt.trans hready) .ready sub
  rw [hold]
  exact ⟨hreq, by rw [hbank, hc.bank], hshSt, hrun, by rw [huid, hc.sh], hc.uid, hcap, hc.pc⟩

theorem exec_yield {s : State} : exec .yield s = .next (if s.yields then s.giveWay s.nextAddr 0 else s) :=
  exec_effect (x := yieldWord) rfl rfl rfl rfl rfl

/-- `END` has issued, and batches whose commands are complete are closed (05 R94, 08 R182). -/
def endSettled (s : State) : State := { s.endIssued with cx := s.endIssued.cx.settleBatches }

/-- `END` on a tile core closes the open batch, and ends the task at once where its waits are over (05 R94). -/
theorem exec_endTask {s : State} (htile : s.core.control = false) :
    exec .endTask s = .next (if (endSettled s).endMet then (endSettled s).endNow else s.endIssued) :=
  exec_effect (x := endTaskWord) rfl htile rfl rfl rfl

theorem exec_endTask_waits {s : State} (htile : s.core.control = false) (hwait : (endSettled s).endMet = false) :
    exec .endTask s = .next s.endIssued := by
  rw [exec_endTask htile, hwait]
  rfl

theorem exec_endTask_met {s : State} (htile : s.core.control = false) (hmet : (endSettled s).endMet = true) :
    exec .endTask s = .next (endSettled s).endNow := by
  rw [exec_endTask htile, if_pos hmet]

/-- Settles O22: the words without effect, `END` by whether its waits are over, `YIELD` by whether it is asked. -/
theorem noEffectEndAndYield : Obligations.NoEffectEndAndYield := by
  refine ⟨fun s a k n => ⟨?_, fun ha => ⟨?_, ?_⟩, fun hk => ?_⟩, fun s => ⟨fun htile => ⟨fun hwait => ?_, fun hmet => ?_⟩,
    fun hcontrol => ?_, fun hno => ?_, fun hasked hplain hready => ?_⟩⟩
  · exact exec_effect (x := nopWord) rfl rfl rfl rfl rfl
  · exact exec_effect (x := checkWord a) rfl rfl rfl rfl (poisonCheck_clean s a ha)
  · exact exec_effect (x := markWord a n) rfl rfl rfl rfl (poisonCheck_clean s a ha)
  · exact exec_effect (x := checkPredWord k) rfl rfl rfl rfl (by simp [checkPredWord, hk])
  · exact exec_endTask_waits htile hwait
  · obtain ⟨hcounted, hidle, hnext⟩ := endNow_over (endSettled s)
    obtain ⟨hmem, hempties, -⟩ := endNow_sameMem (endSettled s)
    exact ⟨_, exec_endTask_met htile hmet, hmem, hempties, hcounted, hidle, hnext⟩
  · rw [exec_word (w := endTaskWord) rfl, issueWord_illop hcontrol]
    rfl
  · have hnot : s.yields = false := by
      rcases hno with hnone | hhandler
      · rw [State.yields, hnone]; rfl
      · rw [State.yields, hhandler, Bool.not_true, Bool.and_false]
    rw [exec_yield, hnot]
    rfl
  · have hyields : s.yields = true := by
      rw [State.yields, hplain, Option.isSome_iff_ne_none.mpr hasked]
      rfl
    rw [exec_yield, if_pos hyields]
    obtain ⟨hreq, hbank, hshSt, hrun, huid, hold, hcap, hpc⟩ := giveWay_ready hready s.nextAddr 0
    exact ⟨_, rfl, hreq, hbank, hshSt, hrun, huid, hold, hcap, hpc⟩

end Sys2Proof.BankProofs

/-! ### The pricking: placements and pre-emption (14 R237 to R243) -/

namespace Sys2Proof.PrickingProofs

open Sys2Proof Sys2Proof.Machine Sys2Proof.Safety Sys2Proof.Laws Sys2Proof.BankProofs

/-- From s to t the pricking has walked tables, granted partitions and barriers, and rewritten nodes and reports; the
contexts, the placements on other cores and the victim are as before. -/
def Arranges (s t : State) : Prop :=
  t = { s with
    mem := t.mem, empties := t.empties, marks := t.marks, fv := t.fv, xl := t.xl
    core := { s.core with bars := t.core.bars }
    sched := { s.sched with
      nodes := t.sched.nodes, grants := t.sched.grants, reports := t.sched.reports, uids := t.sched.uids } }

theorem arranges_refl (s : State) : Arranges s s := rfl

theorem arranges_trans {s t u : State} (h : Arranges s t) (k : Arranges t u) : Arranges s u := by
  rw [Arranges] at h k ⊢
  rw [h] at k
  exact k

theorem Arranges.sameContexts {s t : State} (h : Arranges s t) : SameContexts s t := by
  rw [Arranges] at h
  exact ⟨by rw [h], by rw [h], by rw [h], by rw [h], by rw [h], by rw [h]⟩

theorem Arranges.cx_eq {s t : State} (h : Arranges s t) : t.cx = s.cx := by
  rw [Arranges] at h; rw [h]

theorem Arranges.placed_eq {s t : State} (h : Arranges s t) : t.sched.placed = s.sched.placed := by
  rw [Arranges] at h; rw [h]

theorem Arranges.victim_eq {s t : State} (h : Arranges s t) : t.sched.victim = s.sched.victim := by
  rw [Arranges] at h; rw [h]

theorem Arranges.yieldReq_eq {s t : State} (h : Arranges s t) : t.core.yieldReq = s.core.yieldReq := by
  rw [Arranges] at h; rw [h]

theorem Arranges.cyc_eq {s t : State} (h : Arranges s t) : t.cyc = s.cyc := by
  rw [Arranges] at h; rw [h]

/-! Records are written -/

theorem setWord_arranges (s : State) (loc : Nat) (v : Word) : Arranges s (s.setWord loc v) := by
  rw [Arranges, setWord_only]

theorem spanEntry_arranges (s : State) (loc : Nat) (e : Word) (n : Nat) : Arranges s (s.spanEntry loc e n).2 := by
  unfold State.spanEntry
  split
  · dsimp only
    split <;> exact rfl
  · exact rfl

theorem walkFrom_arranges (va : Word) (asid : Nat) (write priv : Bool) (n table : Nat) (s : State) :
    Arranges s (walkFrom va asid write priv n table s).2 := by
  induction n generalizing table s with
  | zero =>
    unfold walkFrom
    dsimp only
    split
    · exact arranges_refl s
    · split
      · exact arranges_refl s
      · exact arranges_trans (spanEntry_arranges s _ _ _) (setWord_arranges _ _ _)
      · exact arranges_refl s
  | succ n ih =>
    unfold walkFrom
    dsimp only
    split
    · exact arranges_refl s
    · split
      · exact arranges_refl s
      · exact arranges_trans (spanEntry_arranges s _ _ _) (setWord_arranges _ _ _)
      · exact arranges_trans (t := s.cacheWalk _ _ _ _) rfl (ih _ _)

theorem translate_arranges (s : State) (ptbase asid : Nat) (va : Word) (write priv : Bool) :
    Arranges s (s.translate ptbase asid va write priv).2 := by
  unfold State.translate
  split
  · exact arranges_refl s
  · dsimp only
    have hw := walkFrom_arranges va asid write priv (s.walkStart ptbase asid va).1 (s.walkStart ptbase asid va).2 s
    generalize walkFrom _ _ _ _ _ _ _ = r at hw ⊢
    split
    · exact arranges_trans hw rfl
    · exact hw

theorem pagesFrom_arranges (ptbase asid : Nat) (write : Bool) (n p : Nat) (s : State) :
    Arranges s (pagesFrom ptbase asid write n p s).2 := by
  induction n generalizing p s with
  | zero => exact arranges_refl s
  | succ n ih =>
    have ht := translate_arranges s ptbase asid (mkWord (p * 4096)) write true
    unfold pagesFrom
    generalize s.translate _ _ _ _ _ = r at ht ⊢
    obtain ⟨x, t⟩ := r
    have hp := arranges_trans ht (ih (p + 1) t)
    split
    · next heq =>
      obtain ⟨rfl, rfl⟩ := Prod.mk.inj heq
      generalize pagesFrom _ _ _ _ _ _ = q at hp ⊢
      split <;> exact hp
    · next heq =>
      obtain ⟨rfl, rfl⟩ := Prod.mk.inj heq
      exact ht

theorem span_arranges (s : State) (ptbase asid va n : Nat) (write : Bool) :
    Arranges s (s.span ptbase asid va n write).2 := by
  unfold State.span
  split
  · exact arranges_refl s
  · have hp := pagesFrom_arranges ptbase asid write ((va + n - 1) / 4096 - va / 4096 + 1) (va / 4096) s
    generalize pagesFrom _ _ _ _ _ _ = q at hp ⊢
    split <;> exact hp

theorem writeWord6_arranges (s : State) (n : Node) : Arranges s (s.writeWord6 n) := by
  have hs := span_arranges s n.ptbase n.asid (n.addr + 48) 8 true
  unfold State.writeWord6
  generalize s.span _ _ _ _ _ = q at hs ⊢
  split
  · exact arranges_trans hs (setWord_arranges _ _ _)
  · exact hs

theorem putNode_arranges (s : State) (n : Node) : Arranges s (s.putNode n) := by
  unfold State.putNode
  refine arranges_trans ?_ (writeWord6_arranges _ n)
  exact rfl

theorem tookTask_arranges (s : State) (n : Node) : Arranges s (s.tookTask n) := putNode_arranges s _

theorem countForced_arranges (s : State) (gen : Nat) : Arranges s (s.countForced gen) := by
  unfold State.countForced
  split
  · exact putNode_arranges s _
  · exact arranges_refl s

theorem noteClaimants_arranges (s : State) : Arranges s s.noteClaimants := rfl

/-! Partitions and barriers are granted -/

theorem zeroRange_arranges (s : State) (loc n : Nat) : Arranges s (s.zeroRange loc n) := rfl

theorem addGrant_arranges (s : State) (l : List Grant) :
    Arranges s { s with sched := { s.sched with grants := l } } := rfl

theorem choose_arranges (s : State) (n : Nat) : Arranges s (s.choose n).2 := rfl

theorem draw_arranges (s : State) : Arranges s s.draw.2 := rfl

theorem nextUid_arranges (s : State) (n : Nat) : Arranges s { s with sched := { s.sched with uids := n } } := rfl

theorem allot_arranges (s : State) (uid n : Nat) : Arranges s (s.allot uid n).2 := rfl

theorem grant_arranges (s : State) (quad : Bool) (unit launch bytes : Nat) (reserve : Bool) :
    Arranges s (s.grant quad unit launch bytes reserve).2 := by
  have hchoose : Arranges s (if reserve then (0, s) else s.choose
      (s.runStarts quad unit (granules quad bytes)).length).2 := by
    cases reserve
    · exact choose_arranges s _
    · exact arranges_refl s
  unfold State.grant
  dsimp only
  generalize (if reserve then _ else _) = r at hchoose ⊢
  exact arranges_trans (arranges_trans hchoose (zeroRange_arranges _ _ _)) (addGrant_arranges _ _)

theorem grantTask_arranges (s : State) (n : Node) (im : Image) (core : Nat) (preempt : Bool) :
    Arranges s (s.grantTask n im core preempt).2 := by
  have hcore := grant_arranges s false core n.gen im.scratch
    (preempt && (s.runStarts false core (granules false im.scratch)).isEmpty)
  rw [State.grantTask]
  dsimp only
  generalize (s.grant _ _ _ _ _) = r at hcore ⊢
  obtain ⟨base, t⟩ := r
  dsimp only
  split
  · exact hcore
  · split
    · exact arranges_trans hcore (addGrant_arranges _ _)
    · exact arranges_trans hcore (grant_arranges _ _ _ _ _ _)

theorem busyReport_arranges (s : State) (core : Nat) (preempt : Bool) : Arranges s (s.busyReport core preempt) := rfl

/-- A context that a task of a node starts with: it is the node's, and starts at its code's origin (14 R236). -/
structure Starts (s : State) (n : Node) (x : Ctx × State) : Prop where
  arranges : Arranges s x.2
  node : x.1.task.node = n.gen
  origin : x.1.pc = x.1.codeOrigin

/-- `startCtx` is unfolded as a function, so that the kernel need not evaluate the partitions granted. -/
theorem startCtx_starts (s : State) (n : Node) (im : Image) (preempt : Bool) :
    Starts s n (s.startCtx n im preempt) := by
  have hgrant := grantTask_arranges s n im s.coreid preempt
  generalize hstart : State.startCtx = start
  delta State.startCtx at hstart
  subst hstart
  beta_reduce
  generalize (s.grantTask _ _ _ _) = r at hgrant ⊢
  obtain ⟨⟨cb, cn, qb, qn, res, resQ⟩, t⟩ := r
  have hallot := arranges_trans (arranges_trans hgrant (nextUid_arranges t (t.sched.uids + 1)))
    (allot_arranges _ t.sched.uids im.barriers)
  exact ⟨arranges_trans (arranges_trans hallot (draw_arranges _)) (draw_arranges _), rfl, rfl⟩

/-! The choice of a victim -/

/-- A node's task is prepared in the shadow bank of the core, whose context is the victim (14 R239). -/
structure Prepared (s : State) (n : Node) (t : State) : Prop where
  cx : t.cx = s.cx
  cxSt : t.cxSt = s.cxSt
  shSt : t.shSt = .ready
  node : t.sh.task.node = n.gen
  origin : t.sh.pc = t.sh.codeOrigin
  victim : t.sched.victim = some s.cx.uid

theorem prepared_arranges {s t u : State} {n : Node} (h : Prepared s n t) (k : Arranges t u) : Prepared s n u := by
  have hsame := k.sameContexts
  refine ⟨k.cx_eq.trans h.cx, hsame.cxSt.trans h.cxSt, hsame.shSt.trans h.shSt, ?_, ?_, k.victim_eq.trans h.victim⟩
  · rw [hsame.sh]; exact h.node
  · rw [hsame.sh]; exact h.origin

/-- A node's task is placed on a core other than the one followed, whose banks are as before (14 R236). -/
structure PlacedAway (s : State) (n : Node) (core : Nat) (t : State) : Prop where
  same : SameContexts s t
  cx : t.cx = s.cx
  victim : t.sched.victim = s.sched.victim
  yieldReq : t.core.yieldReq = s.core.yieldReq
  placed : ∃ x, t.sched.placed = s.sched.placed ++ [x]
    ∧ x.core = core ∧ x.level = n.prio ∧ x.at_ = s.cyc ∧ x.launch = n.gen

theorem placedAway_arranges {s t u : State} {n : Node} {core : Nat} (h : PlacedAway s n core t)
    (k : Arranges t u) : PlacedAway s n core u := by
  refine ⟨sameContexts_trans h.same k.sameContexts, k.cx_eq.trans h.cx, k.victim_eq.trans h.victim,
    k.yieldReq_eq.trans h.yieldReq, ?_⟩
  rw [k.placed_eq]
  exact h.placed

theorem placeAway_placedAway (s : State) (n : Node) (im : Image) (core : Nat) (preempt : Bool) :
    PlacedAway s n core (s.placeAway n im core preempt) := by
  have hgrant := grantTask_arranges s n im core preempt
  generalize hplace : State.placeAway = place
  delta State.placeAway at hplace
  subst hplace
  beta_reduce
  generalize (s.grantTask _ _ _ _) = r at hgrant ⊢
  obtain ⟨⟨cb, cn, qb, qn, rest⟩, t⟩ := r
  have hbusy := arranges_trans hgrant (busyReport_arranges t core preempt)
  have hsame := hbusy.sameContexts
  refine ⟨⟨hsame.sh, hsame.shSt, hsame.cxSt, hsame.bank, hsame.uid, hsame.pc⟩, hbusy.cx_eq, hbusy.victim_eq,
    hbusy.yieldReq_eq, ⟨core, n.prio, t.cyc, n.gen, cb, cn, qb, qn⟩, ?_, rfl, rfl, hbusy.cyc_eq, rfl⟩
  rw [← hbusy.placed_eq]
  rfl

/-- Whether the victim that is chosen runs on the core followed. -/
theorem onFollowed_iff {s : State} {core : Nat} :
    (core == s.noteClaimants.coreid && !s.noteClaimants.core.control) = true
      ↔ core = s.coreid ∧ s.core.control = false := by
  rw [Bool.and_eq_true, beq_iff_eq, Bool.not_eq_true']
  exact Iff.rfl

theorem victimChoice_here {s : State} {n : Node} {im : Image} {core : Nat} (hfw : s.firmware = true)
    (hp : s.noteClaimants.preemption = some (n, im, core)) (hhere : core = s.coreid ∧ s.core.control = false) :
    Prepared s n s.victimChoice := by
  have hstarts := startCtx_starts s.noteClaimants n im true
  unfold State.victimChoice
  rw [hfw, if_neg (by decide)]
  extract_lets u victim
  rw [hp]
  change Prepared s n (ite _ _ _)
  rw [if_pos (onFollowed_iff.mpr hhere)]
  obtain ⟨r, hr⟩ : ∃ r, s.noteClaimants.startCtx n im true = r := ⟨_, rfl⟩
  rw [hr] at hstarts ⊢
  obtain ⟨c, t⟩ := r
  obtain ⟨harr, hnode, horigin⟩ := hstarts
  have hall := arranges_trans (noteClaimants_arranges s) harr
  refine prepared_arranges ?_ (tookTask_arranges _ n)
  exact ⟨hall.cx_eq, hall.sameContexts.cxSt, rfl, hnode, horigin, rfl⟩

theorem placedAway_of_arranges {s t u : State} {n : Node} {core : Nat} (h : Arranges s t)
    (k : PlacedAway t n core u) : PlacedAway s n core u := by
  refine ⟨sameContexts_trans h.sameContexts k.same, k.cx.trans h.cx_eq, k.victim.trans h.victim_eq,
    k.yieldReq.trans h.yieldReq_eq, ?_⟩
  rw [← h.placed_eq, ← h.cyc_eq]
  exact k.placed

theorem victimChoice_away {s : State} {n : Node} {im : Image} {core : Nat} (hfw : s.firmware = true)
    (hp : s.noteClaimants.preemption = some (n, im, core)) (haway : ¬ (core = s.coreid ∧ s.core.control = false)) :
    PlacedAway s n core s.victimChoice := by
  unfold State.victimChoice
  rw [hfw, if_neg (by decide)]
  extract_lets u victim
  rw [hp]
  change PlacedAway s n core (ite _ _ _)
  rw [if_neg (mt onFollowed_iff.mp haway)]
  exact placedAway_arranges (placedAway_of_arranges (noteClaimants_arranges s) (placeAway_placedAway _ n im core true))
    (tookTask_arranges _ n)

/-! The forced switch -/

/-- The running context has given way to the one in the shadow bank (13 R224, 14 R240). -/
structure GaveWay (s : State) (st : BankSt) (t : State) : Prop where
  cxSt : t.cxSt = .running
  shSt : t.shSt = st
  uid : t.cx.uid = s.sh.uid
  old : t.sh.uid = s.cx.uid
  captured : st = .ready → t.sh.captured = true
  request : t.core.yieldReq = none
  bank : t.bank = !s.bank
  pc : t.sh.pc = s.cx.pc

theorem leave_gaveWay {s t : State} {st : BankSt} (hsame : SameContexts s t) (hready : s.shSt = .ready)
    (hcap : st = .ready → t.cx.captured = true) (n : Nat) : GaveWay s st (t.leave st n) := by
  obtain ⟨hrun, hshSt, hbank, huid, hold, hreq⟩ := leave_contexts (hsame.shSt.trans hready) st n
  refine ⟨hrun, hshSt, huid.trans (by rw [hsame.sh]), ?_, ?_, hreq, hbank.trans (by rw [hsame.bank]), ?_⟩ <;>
    rw [hold]
  · exact hsame.uid
  · exact hcap
  · exact hsame.pc

theorem yieldExpiry_running {s : State} {a e : Nat} (hreq : s.core.yieldReq = some (a, e)) (hrun : s.cxSt = .running)
    (hon : s.host.off = false) (hlate : e < s.cyc) (hheld : s.yieldHeld = false) (hready : s.shSt = .ready) :
    GaveWay s .ready s.yieldExpiry := by
  have hcount := (countForced_arranges s s.cx.task.node).sameContexts
  unfold State.yieldExpiry
  rw [hreq]
  change GaveWay s .ready (ite _ _ _)
  rw [if_neg (by simp [hlate, hon, hheld]), if_pos (by rw [hrun]; rfl)]
  obtain ⟨u, hu⟩ : ∃ u, s.countForced s.cx.task.node = u := ⟨_, rfl⟩
  rw [hu] at hcount ⊢
  have hw := sameContexts_trans (s := s) (t := { u with
    stalled := false, cx := { u.cx with replay := u.cx.replay.map Replay.again } })
    ⟨hcount.sh, hcount.shSt, hcount.cxSt, hcount.bank, hcount.uid, hcount.pc⟩ (capture_sameContexts _)
  have hcap := capture_captured { u with
    stalled := false, cx := { u.cx with replay := u.cx.replay.map Replay.again } }
  dsimp only at hw hcap ⊢
  generalize State.capture _ = w at hw hcap ⊢
  exact leave_gaveWay (t := { w with core := { w.core with yieldReq := none } })
    ⟨hw.sh, hw.shSt, hw.cxSt, hw.bank, hw.uid, hw.pc⟩ hready (fun _ => hcap) 1

theorem yieldExpiry_stopped {s : State} {a e : Nat} (hreq : s.core.yieldReq = some (a, e)) (hcx : s.cxSt = .held)
    (hstop : s.cx.stop.isSome = true)
    (hon : s.host.off = false) (hlate : e < s.cyc) (hheld : s.yieldHeld = false) (hready : s.shSt = .ready) :
    GaveWay s .held s.yieldExpiry := by
  have hcount := (countForced_arranges s s.cx.task.node).sameContexts
  unfold State.yieldExpiry
  rw [hreq]
  change GaveWay s .held (ite _ _ _)
  rw [if_neg (by simp [hlate, hon, hheld]), if_neg (by rw [hcx]; decide), if_pos (by rw [hcx, hstop]; rfl)]
  generalize s.countForced _ = u at hcount ⊢
  exact leave_gaveWay (t := { u with core := { s.core with yieldReq := none } })
    ⟨hcount.sh, hcount.shSt, hcount.cxSt, hcount.bank, hcount.uid, hcount.pc⟩ hready
    (fun h => absurd h (by decide)) 1

theorem yieldExpiry_early {s : State} {a e : Nat} (hreq : s.core.yieldReq = some (a, e)) (hearly : s.cyc ≤ e) :
    s.yieldExpiry = s := by
  unfold State.yieldExpiry
  rw [hreq]
  exact if_pos (by simp [Nat.not_lt.mpr hearly])

/-! The request -/

theorem yieldRequest_running {s : State} (hvictim : s.sched.victim = some s.cx.uid) (hrun : s.cxSt = .running) :
    s.yieldRequest = { s with
      sched := { s.sched with victim := none }
      core := { s.core with yieldReq := some (s.cyc, s.cyc + s.cx.task.yieldwin) } } := by
  unfold State.yieldRequest
  rw [hvictim]
  simp [hrun]

/-! A request that is withdrawn -/

theorem min_foldl_mem (l : List Nat) (o : Option Nat) (c : Nat)
    (h : l.foldl (fun o c => match o with | some m => some (Nat.min m c) | none => some c) o = some c) :
    o = some c ∨ c ∈ l := by
  induction l generalizing o with
  | nil => exact .inl h
  | cons x l ih =>
    rcases ih _ h with hx | hmem
    · cases o with
      | none => exact .inr (by simp [Option.some.inj hx])
      | some m =>
        have hmin : min m x = c := Option.some.inj hx
        rcases Nat.le_total m x with hle | hle
        · exact .inl (by rw [← hmin, Nat.min_eq_left hle])
        · exact .inr (by rw [← hmin, Nat.min_eq_right hle]; exact List.mem_cons_self)
    · exact .inr (List.mem_cons_of_mem x hmem)

/-- A core that fits is not the one excepted. -/
theorem fitCore_ne {s : State} {n : Node} {im : Image} {c core : Nat}
    (h : s.fitCore n im (some c) = some core) : core ≠ c := by
  have hfits : ∀ x ∈ ((s.sched.reports.map s.reportOf).filter (fun e =>
      some e.1 != some c && s.fitsFree n im e.1 e.2)).map (·.1), x ≠ c := by
    intro x hx
    obtain ⟨e, he, rfl⟩ := List.mem_map.mp hx
    have hne := (List.mem_filter.mp he).2
    simp at hne
    exact hne.1
  unfold State.fitCore at h
  rcases Option.or_eq_some_iff.mp h with hbest | ⟨-, hbest⟩
  · rcases min_foldl_mem _ _ _ hbest with hnone | hmem
    · exact absurd hnone (by simp)
    · exact hfits core (List.mem_of_mem_filter hmem)
  · rcases min_foldl_mem _ _ _ hbest with hnone | hmem
    · exact absurd hnone (by simp)
    · exact hfits core hmem

theorem unprepare_contexts (s : State) :
    s.unprepare.sh = Ctx.fresh ∧ s.unprepare.shSt = .empty ∧ s.unprepare.cxSt = s.cxSt
    ∧ s.unprepare.coreid = s.coreid ∧ s.unprepare.core.yieldReq = none ∧ s.unprepare.sched.victim = none := by
  have hfree := (releaseTask_released { s with cx := s.sh }).rest
  unfold State.unprepare
  generalize State.releaseTask _ = t at hfree ⊢
  exact ⟨rfl, rfl, by rw [hfree], by rw [hfree], rfl, rfl⟩

theorem placeOn_placedAway {s : State} {n : Node} {im : Image} {core : Nat} (haway : core ≠ s.coreid) :
    PlacedAway s n core (s.placeOn n im core) := by
  unfold State.placeOn
  rw [if_neg (by simp [haway])]
  exact placeAway_placedAway s n im core false

theorem yieldWithdraw_placedAway {s : State} {n : Node} {im : Image} {a e core : Nat} (hfw : s.firmware = true)
    (hready : s.shSt = .ready) (hnew : s.sh.captured = false) (hheld : s.yieldHeld = false)
    (hasked : s.core.yieldReq = some (a, e) ∨ s.sched.victim = some a) (hnode : s.nodeOf s.sh.task.node = some n)
    (him : s.imageOf n = some im) (hfit : s.fitCore n im (some s.coreid) = some core) :
    PlacedAway s.unprepare n core s.yieldWithdraw := by
  have hbusy : (s.core.yieldReq.isNone && s.sched.victim.isNone) = false := by
    rcases hasked with h | h <;> simp [h]
  have haway : core ≠ s.unprepare.coreid := by
    obtain ⟨-, -, -, hid, -⟩ := unprepare_contexts s
    rw [hid]
    exact fitCore_ne hfit
  unfold State.yieldWithdraw
  rw [if_neg (by rw [hfw, hready, hnew, hbusy, hheld]; decide), hnode]
  dsimp only
  rw [him, Option.bind_some, hfit]
  exact placeOn_placedAway haway

/-! The end of a task of the core, and of another core -/

/-- An `END` with nothing outstanding ends its task once the batches are settled (05 R94). -/
theorem taskEnd_over {s : State} {node reason : Nat} (hlive : s.live = true) (hending : s.cx.ending = true)
    (hnode : s.cx.task.node = node) (hcmds : s.cx.cmds = []) (hstreams : s.cx.streams = []) (haccs : s.cx.accs = [])
    (hreplay : s.cx.replay = none) (hlines : ∀ l ∈ s.core.lines, l.owner ≠ s.cx.uid)
    (hpkts : ∀ p ∈ s.fab.pkts, p.owner = s.cx.uid → p.counted = false) :
    s.taskEnd node reason = State.endTask { s with cx := s.cx.settleBatches }
      (if s.cx.settleBatches.unobserved then some 3 else none) := by
  have hsettled : s.cx.settleBatches.cmds = [] := by simp [Ctx.settleBatches, hcmds]
  have hnone : s.core.lines.filter (fun l => l.owner == s.cx.settleBatches.uid) = [] :=
    List.filter_eq_nil_iff.mpr fun l hl => by rw [beq_iff_eq]; exact hlines l hl
  have hflush : s.endFlush = { s with cx := s.cx.settleBatches } := by
    unfold State.endFlush
    rw [if_pos (by rw [hlive, hending]; rfl)]
    refine (if_pos (by rw [hsettled]; simp [Ctx.settleBatches, haccs, hstreams])).trans ?_
    unfold State.flushLines
    rw [hnone]
    rfl
  have hmet : State.endMet { s with cx := s.cx.settleBatches } = true := by
    have hl : s.core.lines.any (fun l => l.owner == s.cx.uid) = false := by simpa using hlines
    have hp : s.fab.pkts.any (fun p => p.owner == s.cx.uid && p.counted) = false := by simpa using hpkts
    have hv : State.live { s with cx := s.cx.settleBatches } = true := hlive
    unfold State.endMet
    rw [hv, hsettled]
    simp [Ctx.settleBatches, hending, hstreams, haccs, hreplay, hl, hp]
  unfold State.taskEnd
  rw [if_pos (by rw [hending, hnode, hlive]; simp)]
  dsimp only
  rw [hflush]
  exact if_pos hmet

/-- A task of another core is counted when it ends (14 R233). -/
theorem taskEnd_elsewhere {s : State} {node reason : Nat} {n : Node}
    (hother : ¬ (s.cx.ending = true ∧ s.cx.task.node = node ∧ s.live = true)) (hnode : s.nodeOf node = some n)
    (hruns : n.st = 3) (hout : n.ended + s.ownTasks node < n.next) :
    s.taskEnd node reason = s.noteTaskEnd node (if reason = 0 then none else some reason) := by
  unfold State.taskEnd
  rw [if_neg (by simpa [and_assoc] using hother), hnode]
  exact if_pos (by simp [hruns, hout])

/-- Settles O50: the end of a task by `endTask_over`, the victim's core by what its banks hold after each step. -/
theorem taskEndsAndPreemption : Obligations.TaskEndsAndPreemption := by
  refine ⟨fun s node reason n => ⟨?_, ?_⟩, fun s n im a e core => ⟨?_, ?_, ?_, ?_, ?_, ?_⟩⟩
  · intro hlive hending hnode hcmds hstreams haccs hreplay hlines hpkts
    obtain ⟨hcounted, hidle, hnext⟩ := endTask_over { s with cx := s.cx.settleBatches }
      (if s.cx.settleBatches.unobserved then some 3 else none)
    have hmem := (endTask_sameMem { s with cx := s.cx.settleBatches }
      (if s.cx.settleBatches.unobserved then some 3 else none)).1
    rw [← taskEnd_over (reason := reason) hlive hending hnode hcmds hstreams haccs hreplay hlines hpkts]
      at hcounted hidle hnext hmem
    exact ⟨_, rfl, hmem, fun m hm hgen => hcounted m hm (hgen.trans hnode.symm), hidle, hnext⟩
  · intro hother hnode hruns hout
    refine ⟨s.noteTaskEnd node (if reason = 0 then none else some reason),
      congrArg Host.Outcome.next (taskEnd_elsewhere hother hnode hruns hout), rfl, rfl, ?_⟩
    exact fun m hm => mem_noteTaskEnd hm
  · intro hfw hp
    refine ⟨s.victimChoice, rfl, ?_⟩
    by_cases hhere : core = s.coreid ∧ s.core.control = false
    · obtain ⟨hcx, hcxSt, hshSt, hnode, horigin, hvictim⟩ := victimChoice_here hfw hp hhere
      exact ⟨hcx, hcxSt, fun _ => ⟨hshSt, hnode, horigin, hvictim⟩, fun h => absurd hhere h⟩
    · obtain ⟨hsame, hcx, -, -, hplaced⟩ := victimChoice_away hfw hp hhere
      exact ⟨hcx, hsame.cxSt, fun h => absurd h hhere, fun _ => ⟨hsame.sh, hplaced⟩⟩
  · exact fun hvictim hrun => congrArg Host.Outcome.next (yieldRequest_running hvictim hrun)
  · refine fun hreq hrun hon => ⟨fun hlate hheld hready => ?_, fun hearly => ?_⟩
    · obtain ⟨hcxSt, hshSt, huid, hold, hcap, hnone, hbank, hpc⟩ :=
        yieldExpiry_running hreq hrun hon hlate hheld hready
      exact ⟨_, rfl, hcxSt, hshSt, huid, hold, hcap rfl, hnone, hbank, hpc⟩
    · exact congrArg Host.Outcome.next (yieldExpiry_early hreq hearly)
  · intro hreq hstopped hstop hon hlate hheld hready
    obtain ⟨hcxSt, hshSt, huid, hold, -, hnone, -, -⟩ :=
      yieldExpiry_stopped hreq hstopped hstop hon hlate hheld hready
    exact ⟨_, rfl, hcxSt, hshSt, huid, hold, hnone⟩
  · intro hfw hready hnew hheld hasked hnode him hfit
    obtain ⟨hsh, hempty, hcxSt, -, hnone, hvictim⟩ := unprepare_contexts s
    have haway := yieldWithdraw_placedAway hfw hready hnew hheld hasked hnode him hfit
    exact ⟨_, rfl, haway.same.shSt.trans hempty, haway.same.sh.trans hsh, haway.same.cxSt.trans hcxSt,
      haway.yieldReq.trans hnone, haway.victim.trans hvictim⟩
  · intro hfw hrun holdest
    refine congrArg Host.Outcome.next ?_
    unfold State.prefetch
    rw [if_neg (by rw [hfw, hrun]; decide), holdest]

end Sys2Proof.PrickingProofs

/-! ### Memory stays canonical: the operations of the units (06 R95, R102, R108) -/

namespace Sys2Proof.CanonicalProofs

open Sys2Proof Sys2Proof.Machine Sys2Proof.Safety Sys2Proof.Laws

-- One proof after another: elaborated side by side, the many short proofs take a thread and its stack each.
set_option Elab.async false

/-!
The form is kept by every state operation that a step can reach: a lemma for each, in the order of the model's files,
proved from those of the operations it calls; then by the meaning of every instruction word, and last by `exec` and
`step`.
-/

/-- Memory, tags and marks in canonical form, as data of their own. -/
def Canonical (m : List Host.Cell) (e k : List Nat) : Prop :=
  Memory.wf m = true ∧ rising e = true ∧ rising k = true

theorem memOk_iff (s : State) : MemOk s ↔ Canonical s.mem s.empties s.marks := Iff.rfl

/-- A state that comes first in a pair, known by an equation. -/
theorem memOk_of_fst {α : Type} {x : State × α} {t : State} {a : α} (hx : MemOk x.1) (he : x = (t, a)) :
    MemOk t := by
  rw [he] at hx; exact hx

/-- A state that comes second in a pair, known by an equation. -/
theorem memOk_of_snd {α : Type} {x : α × State} {t : State} {a : α} (hx : MemOk x.2) (he : x = (a, t)) :
    MemOk t := by
  rw [he] at hx; exact hx

/-- Memory and marks of one state and tags of another. -/
theorem memOk_mixed {s t : State} (hs : MemOk s) (ht : MemOk t) : MemOk { t with mem := s.mem, marks := s.marks } :=
  ⟨hs.1, ht.2.1, hs.2.2⟩

theorem reset_memOk : MemOk State.reset := ⟨rfl, rfl, rfl⟩

/-! Registers, results and traps -/

theorem applyWrite_memOk {s : State} (h : MemOk s) (w : Write) : MemOk (s.applyWrite w) :=
  sameMem_memOk (applyWrite_sameMem s w) h

theorem push_memOk {s : State} (h : MemOk s) (w : Write) (bound : Nat) : MemOk (s.push w bound) := by
  grind [State.push, memOk_iff]

theorem wreg_memOk {s : State} (h : MemOk s) (r : SReg) (v : Reg) (bound : Nat) : MemOk (s.wreg r v bound) := by
  grind [State.wreg, State.draw, push_memOk, memOk_iff]

theorem wpred_memOk {s : State} (h : MemOk s) (k : PRegNum) (v : PReg) (bound : Nat) : MemOk (s.wpred k v bound) := by
  grind [State.wpred, State.draw, push_memOk, memOk_iff]

theorem wflags_memOk {s : State} (h : MemOk s) (f : Flags) (bound : Nat) : MemOk (s.wflags f bound) := by
  grind [State.wflags, push_memOk, memOk_iff]

theorem settle_memOk {s : State} (h : MemOk s) : MemOk s.settle :=
  sameMem_memOk (settle_sameMem s) h

theorem landStalled_memOk {s : State} (h : MemOk s) : MemOk s.landStalled := by
  grind [State.landStalled, settle_memOk, memOk_iff]

/-! Translation -/

theorem spanEntry_memOk {s : State} (h : MemOk s) (loc : Nat) (e : Word) (level : Nat) :
    MemOk (s.spanEntry loc e level).2 := by
  grind [State.spanEntry, State.choose, memOk_iff]

theorem cacheWalk_memOk {s : State} (h : MemOk s) (asid : Nat) (va : Word) (level pa : Nat) :
    MemOk (s.cacheWalk asid va level pa) :=
  sameMem_memOk (cacheWalk_sameMem s asid va level pa) h

theorem tlbDrop_memOk {s : State} (h : MemOk s) (t : Nat) (v : Word) : MemOk (s.tlbDrop t v) := by
  grind [State.tlbDrop, memOk_iff]

/-! Shared operations -/

theorem onCtx_memOk {s : State} (h : MemOk s) (p : Ctx → Bool) (f : Ctx → Ctx) : MemOk (s.onCtx p f) :=
  sameMem_memOk (onCtx_sameMem s p f) h

theorem onOwner_memOk {s : State} (h : MemOk s) (uid : Nat) (f : Ctx → Ctx) : MemOk (s.onOwner uid f) := by
  grind [State.onOwner, onCtx_memOk, memOk_iff]

theorem refuse_memOk {s : State} (h : MemOk s) : MemOk s.refuse := by
  grind [State.refuse, memOk_iff]

theorem asked_memOk {s : State} (h : MemOk s) {f : State → State} (hf : ∀ t, MemOk t → MemOk (f t)) :
    MemOk (s.asked f) := by
  grind [State.asked, refuse_memOk, memOk_iff]

theorem perform_memOk {s : State} (h : MemOk s) {a : Acc} {p : Option Reg × State} (hp : s.perform a = some p) :
    MemOk p.2 := by
  grind [State.perform, setTag_memOk, setBytes_memOk, setMark_memOk, foldl_memOk, writeNat_memOk, memOk_iff]

theorem performed_memOk {s : State} (h : MemOk s) {o : Nat} {a : Acc} {p : Option Reg × State}
    (hp : s.performed o a = some p) : MemOk p.2 := by
  obtain ⟨⟨v, t⟩, ht, rfl⟩ := Option.map_eq_some_iff.mp hp
  have ht := perform_memOk h ht
  grind [wrote_memOk, memOk_iff, State.draw]

theorem unparkAll_memOk {s : State} (h : MemOk s) (id : Nat) : MemOk (s.unparkAll id) := by
  grind [State.unparkAll, memOk_iff]

theorem retire_memOk {s : State} (h : MemOk s) (uid : Nat) (a : Acc) (v : Option Reg) : MemOk (s.retire uid a v) := by
  grind [State.retire, onOwner_memOk, unparkAll_memOk, memOk_iff]

theorem park_memOk {s : State} (h : MemOk s) (uid id word : Nat) (needFull : Bool) :
    MemOk (s.park uid id word needFull) := by
  grind [State.park, memOk_iff]

theorem enterRouter_memOk {s : State} (h : MemOk s) (ns : Nat) (p : Packet) : MemOk (s.enterRouter ns p) :=
  sameMem_memOk (enterRouter_sameMem s ns p) h

theorem sendPacket_memOk {s : State} (h : MemOk s) (p : Packet) : MemOk (s.sendPacket p) :=
  sameMem_memOk (sendPacket_sameMem s p) h

theorem flushLine_memOk {s : State} (h : MemOk s) (l : Line) : MemOk (s.flushLine l) :=
  sameMem_memOk (flushLine_sameMem s l) h

theorem flushLines_memOk {s : State} (h : MemOk s) (p : Line → Bool) : MemOk (s.flushLines p) :=
  sameMem_memOk (flushLines_sameMem s p) h

theorem recordFor_memOk {s : State} (h : MemOk s) (caps : List Nat) (kind sub code : Nat) (bank : Bool)
    (badr payload : Word) :
    MemOk (s.recordFor caps kind sub code bank badr payload) :=
  sameMem_memOk (recordFor_sameMem s caps kind sub code bank badr payload) h

theorem record_memOk {s : State} (h : MemOk s) (kind sub code : Nat) (badr payload : Word) :
    MemOk (s.record kind sub code badr payload) :=
  sameMem_memOk (record_sameMem s kind sub code badr payload) h

theorem writeCharge_memOk {s : State} (h : MemOk s) : MemOk s.writeCharge :=
  sameMem_memOk (writeCharge_sameMem s) h

theorem noteStep_memOk {s : State} (h : MemOk s) (m : MCmd) : MemOk (s.noteStep m) := by
  grind [State.noteStep, onOwner_memOk, memOk_iff]

theorem recharge_memOk {s : State} (h : MemOk s) : MemOk s.recharge := by
  grind [State.recharge, writeCharge_memOk, memOk_iff]

theorem chargeRecord_memOk {s : State} (h : MemOk s) : MemOk s.chargeRecord := by
  grind [State.chargeRecord, writeCharge_memOk, memOk_iff]

theorem sample_memOk {s : State} (h : MemOk s) (stalled : Bool) : MemOk (s.sample stalled) := by
  grind [State.sample, recordFor_memOk, memOk_iff]

theorem count_memOk {s : State} (h : MemOk s) : MemOk s.count := by
  grind [State.count, memOk_iff]

theorem tick_memOk {s : State} (h : MemOk s) (stalled : Bool := false) : MemOk (s.tick stalled) :=
  chargeRecord_memOk (count_memOk (sample_memOk (recharge_memOk h) stalled))

theorem capture_memOk {s : State} (h : MemOk s) : MemOk s.capture :=
  sameMem_memOk (capture_sameMem s) h

theorem restore_memOk {s : State} (h : MemOk s) : MemOk s.restore :=
  sameMem_memOk (restore_sameMem s) h

theorem leave_memOk {s : State} (h : MemOk s) (st : BankSt) (sub : Nat) : MemOk (s.leave st sub) :=
  sameMem_memOk (leave_sameMem s st sub) h

theorem noteTaskEnd_memOk {s : State} (h : MemOk s) (node : Nat) (reason : Option Nat) :
    MemOk (s.noteTaskEnd node reason) :=
  sameMem_memOk (noteTaskEnd_sameMem s node reason) h

theorem freeRange_memOk {s : State} (h : MemOk s) (lo n : Nat) : MemOk (s.freeRange lo n) :=
  sameMem_memOk (freeRange_sameMem s lo n) h

theorem releaseTask_memOk {s : State} (h : MemOk s) : MemOk s.releaseTask :=
  sameMem_memOk (releaseTask_sameMem s) h

theorem endTask_memOk {s : State} (h : MemOk s) (reason : Option Nat) : MemOk (s.endTask reason) :=
  sameMem_memOk (endTask_sameMem s reason) h

theorem endNow_memOk {s : State} (h : MemOk s) : MemOk s.endNow :=
  sameMem_memOk (endNow_sameMem s) h

theorem eretPlain_memOk {s : State} (h : MemOk s) : MemOk s.eretPlain := by
  grind [State.eretPlain, memOk_iff]

theorem eretJump_memOk {s : State} (h : MemOk s) (a : Word) : MemOk (s.eretJump a) :=
  sameMem_memOk (eretJump_sameMem s a) h

theorem freeze_memOk {s : State} (h : MemOk s) (r : FaultRec) : MemOk (s.freeze r) :=
  sameMem_memOk (freeze_sameMem s r) h

theorem advance_memOk {s : State} (h : MemOk s) (next : Word) : MemOk (s.advance next) :=
  sameMem_memOk (advance_sameMem s next) h

theorem loopNext_memOk {s : State} (h : MemOk s) : MemOk s.loopNext.1 := by
  grind [State.loopNext, memOk_iff]

theorem recordTrap_memOk {s : State} (h : MemOk s) (cause code : Nat) : MemOk (s.recordTrap cause code) := by
  grind [State.recordTrap, record_memOk, memOk_iff]

theorem stopHere_memOk {s : State} (h : MemOk s) (sub code : Nat) : MemOk (s.stopHere sub code) := by
  grind [State.stopHere, capture_memOk, record_memOk, memOk_iff]

theorem popLq_memOk {s : State} (h : MemOk s) (n : Nat) : MemOk (s.popLq n) := by
  grind [State.popLq, memOk_iff]

theorem stallNow_memOk {s : State} (h : MemOk s) (empty : Bool) : MemOk (s.stallNow empty) := by
  grind [State.stallNow, memOk_iff]

/-! Elements -/

theorem setTile_memOk {s : State} (h : MemOk s) (t : BitVec 3) (x : Tile) : MemOk (s.setTile t x) := by
  grind [State.setTile, memOk_iff]

theorem codeAt_memOk {s : State} (h : MemOk s) (r : Region) (i : Nat) : MemOk (s.codeAt r i).2 := by
  grind [State.codeAt, State.draw, foldl_memOk, memOk_iff]

theorem readElem_memOk {s : State} (h : MemOk s) (r : Region) (i : Nat) : MemOk (s.readElem r i).2 := by
  grind [State.readElem, State.draw, codeAt_memOk, memOk_iff]

theorem putElem_memOk {s : State} (h : MemOk s) (r : Region) (i code : Nat) (poison : Bool) :
    MemOk (s.putElem r i code poison) := by
  grind [State.putElem, State.draw, foldl_memOk, setByte_memOk, setMark_memOk, setTile_memOk, writeNat_memOk,
    memOk_iff]

theorem hotView_memOk {s : State} (h : MemOk s) (x : Actor) (words : List Nat) : MemOk (s.hotView x words) := by
  grind [State.hotView, blurByte_memOk, foldl_memOk, memOk_iff]

theorem tagsAct_memOk {s : State} (h : MemOk s) (mode : TagMode) (dst : Bool) (words : List Nat) :
    MemOk (s.tagsAct mode dst words) := by
  have hfull := fun b => foldl_memOk (f := fun s w => s.setTag (8 * w) b) (fun s w hs => setTag_memOk hs _ b) words h
  unfold State.tagsAct
  split
  · exact hfull false
  · exact hfull true
  · exact hfull true
  · exact h

theorem unpark_memOk {s : State} (h : MemOk s) (id : Nat) (words : List Nat) : MemOk (s.unpark id words) := by
  grind [State.unpark, memOk_iff]

theorem parkAll_memOk {s : State} (h : MemOk s) (owner id : Nat) (words : List Nat) (needFull : Bool) :
    MemOk (s.parkAll owner id words needFull) := by
  grind [State.parkAll, foldl_memOk, park_memOk, memOk_iff]

theorem meetFull_memOk {s : State} (h : MemOk s) (owner id : Nat) (mode : TagMode) (l : List Nat) :
    MemOk (s.meetFull owner id mode l).1 := by
  grind [State.meetFull, parkAll_memOk, tagsAct_memOk, unpark_memOk, memOk_iff]

theorem seenView_memOk {s : State} (h : MemOk s) (seen : List (Nat × Nat × Bool)) : MemOk (s.seenView seen) := by
  grind [State.seenView, foldl_memOk, setMark_memOk, setWord_memOk, memOk_iff]

theorem onlyWords_memOk {s : State} (h : MemOk s) {t : State} (ht : MemOk t) (go : List Nat) (all : Bool) :
    MemOk (s.onlyWords t go all) := by
  unfold State.onlyWords
  split
  · exact ht
  · refine foldl_memOk (fun u w hu => ?_) go ⟨h.1, ht.2.1, h.2.2⟩
    dsimp only
    split
    · exact setMark_memOk (setWord_memOk hu _ _) _ _
    · exact setWord_memOk hu _ _

theorem clearWhole_memOk {s : State} (h : MemOk s) (cover : List (Nat × Nat)) (bad : List Nat) :
    MemOk (s.clearWhole cover bad) := by
  grind [State.clearWhole, foldl_memOk, setMark_memOk, memOk_iff]

/-! Loads, stores and atomics (06) -/

theorem combine_memOk {s : State} (h : MemOk s) (id rank win cls loc : Nat) (data : List Byte) :
    MemOk (s.combine id rank win cls loc data) := by
  grind [State.combine, flushLine_memOk, flushLines_memOk, memOk_iff]

theorem combineRoom_memOk {s : State} (h : MemOk s) (win : Nat) : MemOk (s.combineRoom win) := by
  grind [State.combineRoom, flushLine_memOk, flushLines_memOk, memOk_iff]

theorem reserveLq_memOk {s : State} (h : MemOk s) (id : Nat) (data : Option Reg) : MemOk (s.reserveLq id data) := by
  grind [State.reserveLq, memOk_iff]

theorem enqueue_memOk {s : State} (h : MemOk s) (a : Acc) (taint : List Nat) : MemOk (s.enqueue a taint) := by
  grind [State.enqueue, memOk_iff]

theorem sendAccess_memOk {s : State} (h : MemOk s) (a : Acc) : MemOk (s.sendAccess a) := by
  grind [State.sendAccess, sendPacket_memOk, memOk_iff]

theorem flushFor_memOk {s : State} (h : MemOk s) (a : Acc) (rank : Nat) : MemOk (s.flushFor a rank) := by
  grind [State.flushFor, flushLines_memOk, memOk_iff]

theorem remoteAccess_memOk {s : State} (h : MemOk s) (a : Acc) (rank win : Nat) :
    MemOk (s.remoteAccess a rank win) := by
  grind [State.remoteAccess, flushFor_memOk, sendAccess_memOk, memOk_iff]

theorem atSource_memOk {s : State} (h : MemOk s) (a : Acc) : MemOk (s.atSource a) := by
  grind [State.atSource, memOk_iff]

theorem leaveSource_memOk {s : State} (h : MemOk s) : MemOk s.leaveSource := by
  grind [State.leaveSource, combineRoom_memOk, combine_memOk, remoteAccess_memOk, memOk_iff]

theorem globalAccess_memOk {s : State} (h : MemOk s) (a : Acc) (taint : List Nat) (lds : Bool) :
    MemOk (s.globalAccess a taint lds) := by
  grind [State.globalAccess, enqueue_memOk, memOk_iff]

theorem accOnStall_memOk {s : State} (h : MemOk s) (o : AccOp) (v : List Reg) : MemOk (AccOp.onStall o s v) := by
  grind [AccOp.onStall, combineRoom_memOk, flushLines_memOk, memOk_iff]

theorem accEffect_memOk {s : State} (h : MemOk s) (o : AccOp) (v : List Reg) : MemOk (AccOp.effect o s v) := by
  grind [AccOp.effect, State.draw, State.newId, atSource_memOk, combine_memOk, enqueue_memOk, globalAccess_memOk,
    remoteAccess_memOk, reserveLq_memOk, memOk_iff]

/-! Batches and flags -/

theorem joinBatch_memOk {s : State} (h : MemOk s) (id eng : Nat) : MemOk (s.joinBatch id eng) := by
  grind [State.joinBatch, memOk_iff]

theorem cmdDone_memOk {s : State} (h : MemOk s) (owner id : Nat) (err : Option Nat) (f : Flags) :
    MemOk (s.cmdDone owner id err f) := by
  grind [State.cmdDone, onOwner_memOk, memOk_iff]

theorem batchFree_memOk {s : State} (h : MemOk s) (v : Word) : MemOk (s.batchFree v) := by
  grind [State.batchFree, memOk_iff]

theorem setBar_memOk {s : State} (h : MemOk s) (k : Nat) (b : Barrier) : MemOk (s.setBar k b) := by
  grind [State.setBar, memOk_iff]

theorem arrive_memOk {s : State} (h : MemOk s) (k : Nat) : MemOk (s.arrive k) := by
  grind [State.arrive, setBar_memOk, memOk_iff]

theorem countArrival_memOk {s : State} (h : MemOk s) (k : Nat) : MemOk (s.countArrival k) := by
  grind [State.countArrival, setBar_memOk, memOk_iff]

theorem arrivalCounted_memOk {s : State} (h : MemOk s) (nb : Nat) (own : Bool) : MemOk (s.arrivalCounted nb own) := by
  grind [State.arrivalCounted, countArrival_memOk, setBar_memOk, memOk_iff]

theorem barrierDelivery_memOk {s : State} (h : MemOk s) (nb : Nat) : MemOk (s.barrierDelivery nb) := by
  grind [State.barrierDelivery, setBar_memOk, memOk_iff]

theorem enterPosts_memOk {s : State} (h : MemOk s) : MemOk s.enterPosts := by
  grind [State.enterPosts, memOk_iff]

theorem post_memOk {s : State} (h : MemOk s) (v : Word) (requeue : Bool) : MemOk (s.post v requeue) := by
  grind [State.post, enterPosts_memOk, memOk_iff]

/-! HBM -/

theorem wsNoteOn_memOk {s : State} (h : MemOk s) (die : Nat) : MemOk (s.wsNoteOn die) := by
  grind [State.wsNoteOn, memOk_iff]

theorem wsNote_memOk {s : State} (h : MemOk s) : MemOk s.wsNote := by
  grind [State.wsNote, wsNoteOn_memOk, memOk_iff]

theorem setHbank_memOk {s : State} (h : MemOk s) (pc bank : Nat) (b : HBank) : MemOk (s.setHbank pc bank b) := by
  grind [State.setHbank, memOk_iff]

theorem setHchan_memOk {s : State} (h : MemOk s) (pc : Nat) (c : HChan) : MemOk (s.setHchan pc c) := by
  grind [State.setHchan, memOk_iff]

theorem closeAll_memOk {s : State} (h : MemOk s) (pc : Nat) : MemOk (s.closeAll pc) := by
  grind [State.closeAll, memOk_iff]

theorem dueAct_memOk {s : State} (h : MemOk s) (pc : Nat) : MemOk (s.dueAct pc) := by
  grind [State.dueAct, closeAll_memOk, setHbank_memOk, setHchan_memOk, memOk_iff]

theorem duesTo_memOk {s : State} (h : MemOk s) (pc n : Nat) : MemOk (duesTo pc n s) := by
  induction n generalizing s with
  | zero => exact h
  | succ n ih =>
    unfold duesTo
    split
    · exact ih (dueAct_memOk h pc)
    · exact h

theorem refreshed_memOk {s : State} (h : MemOk s) (pc : Nat) : MemOk (s.refreshed pc) := by
  grind [State.refreshed, duesTo_memOk, memOk_iff]

theorem refreshDue_memOk {s : State} (h : MemOk s) (pc : Nat) : MemOk (s.refreshDue pc) := by
  grind [State.refreshDue, refreshed_memOk, memOk_iff]

theorem arriveAt_memOk {s : State} (h : MemOk s) (pa : Nat) (read : Bool) (die : Nat) (id : Option Nat) :
    MemOk (s.arriveAt pa read die id) := by
  grind [State.arriveAt, refreshed_memOk, setHbank_memOk, memOk_iff]

theorem hbmArrival_memOk {s : State} (h : MemOk s) (pa : Nat) (read : Bool) : MemOk (s.hbmArrival pa read) := by
  grind [State.hbmArrival, arriveAt_memOk, memOk_iff]

theorem setBankStage_memOk {s : State} (h : MemOk s) (id : Nat) (g : BankStage) : MemOk (s.setBankStage id g) := by
  grind [State.setBankStage, onCtx_memOk, memOk_iff]

theorem hbmService_memOk {s : State} (h : MemOk s) (pc bank : Nat) : MemOk (s.hbmService pc bank) := by
  grind [State.hbmService, refreshed_memOk, setBankStage_memOk, setHbank_memOk, memOk_iff]

theorem bankIdleClose_memOk {s : State} (h : MemOk s) (pc bank : Nat) : MemOk (s.bankIdleClose pc bank) := by
  grind [State.bankIdleClose, refreshed_memOk, setHbank_memOk, memOk_iff]

theorem allBankStart_memOk {s : State} (h : MemOk s) (pc : Nat) : MemOk (s.allBankStart pc) := by
  grind [State.allBankStart, refreshed_memOk, setHchan_memOk, memOk_iff]

theorem bankRefreshEnd_memOk {s : State} (h : MemOk s) (pc bank : Nat) : MemOk (s.bankRefreshEnd pc bank) := by
  grind [State.bankRefreshEnd, refreshed_memOk, setHbank_memOk, memOk_iff]

theorem allBankEnd_memOk {s : State} (h : MemOk s) (pc : Nat) : MemOk (s.allBankEnd pc) := by
  grind [State.allBankEnd, refreshed_memOk, setHchan_memOk, memOk_iff]

theorem throughBank_memOk {s : State} (h : MemOk s) (a : Acc) {act : State → State}
    (ha : ∀ t, MemOk t → MemOk (act t)) :
    MemOk (s.throughBank a act) := by
  grind [State.throughBank, arriveAt_memOk, setBankStage_memOk, memOk_iff]

theorem performOrPark_memOk {s : State} (h : MemOk s) (a : Acc) : MemOk (s.performOrPark a) := by
  unfold State.performOrPark
  dsimp only
  split
  · split
    · split
      · next hp => exact retire_memOk (performed_memOk h hp) _ _ _
      · exact park_memOk h _ _ _ _
    · exact park_memOk h _ _ _ _
  · split
    · next hp => exact retire_memOk (performed_memOk h hp) _ _ _
    · exact h

theorem loadReturn_memOk {s : State} (h : MemOk s) (id : Nat) : MemOk (s.loadReturn id) := by
  grind [State.loadReturn, performOrPark_memOk, throughBank_memOk, wsNote_memOk, memOk_iff]

theorem writeBegin_memOk {s : State} (h : MemOk s) (id : Nat) : MemOk (s.writeBegin id) := by
  grind [State.writeBegin, sendAccess_memOk, memOk_iff]

theorem writePerform_memOk {s : State} (h : MemOk s) (id : Nat) : MemOk (s.writePerform id) := by
  grind [State.writePerform, performOrPark_memOk, throughBank_memOk, memOk_iff]

theorem wsWindowStart_memOk {s : State} (h : MemOk s) (bank : Nat) : MemOk (s.wsWindowStart bank) := by
  grind [State.wsWindowStart, memOk_iff]

theorem wsWindowEnd_memOk {s : State} (h : MemOk s) (bank : Nat) : MemOk (s.wsWindowEnd bank) := by
  grind [State.wsWindowEnd, memOk_iff]

/-! Streams (07) -/

theorem readOpt_memOk {s : State} (h : MemOk s) (r : Option Region) (i : Nat) : MemOk (s.readOpt r i).2 := by
  cases r with
  | none => exact h
  | some q => exact readElem_memOk h q i

theorem readSrc_memOk {s : State} (h : MemOk s) (kept : Option (Nat × Bool)) (saved : List (Nat × Nat × Bool))
    (r : Option Region) (i : Nat) : MemOk (s.readSrc kept saved r i).2 := by
  unfold State.readSrc
  split
  · exact h
  · exact readOpt_memOk h r i

theorem groupEmit_memOk {g : GroupWork} (h : MemOk g.s) (D : Region) (i code : Nat) (poison undef : Bool)
    (f : Flags) :
    MemOk (GroupWork.emit g D i code poison undef f).s := by
  grind [GroupWork.emit, State.draw, memOk_iff]

theorem streamElem_memOk {g : GroupWork} (h : MemOk g.s) (t : Stream) (i : Nat) : MemOk (Stream.elem t g i).s := by
  grind [Stream.elem, State.draw, groupEmit_memOk, readElem_memOk, readSrc_memOk, memOk_iff]

theorem saveSrc_memOk {s : State} (h : MemOk s) (r : Option Region) (D : Region) (saved : List (Nat × Nat × Bool))
    (is : List Nat) : MemOk (s.saveSrc r D saved is).2 := by
  cases r with
  | none => exact h
  | some q =>
    refine List.foldlRecOn _ _ (motive := fun x : List (Nat × Nat × Bool) × State => MemOk x.2) h
      (fun x hx k _ => ?_)
    split
    · exact hx
    · exact readElem_memOk hx q k

theorem streamSaves_memOk {s : State} (h : MemOk s) (t : Stream) (D : Region) (is : List Nat) :
    MemOk (Stream.saves t s D is).2 := by
  grind [Stream.saves, saveSrc_memOk, memOk_iff]

theorem setStream_memOk {s : State} (h : MemOk s) (t : Stream) : MemOk (s.setStream t) := by
  grind [State.setStream, memOk_iff]

theorem landStream_memOk {s : State} (h : MemOk s) (t : Stream) : MemOk (s.landStream t) := by
  grind [State.landStream, applyWrite_memOk, memOk_iff]

theorem sourceTags_memOk {s : State} (h : MemOk s) (t : Stream) : MemOk (s.sourceTags t).1 := by
  grind [State.sourceTags, meetFull_memOk, seenView_memOk, tagsAct_memOk, memOk_iff]

theorem readPass_memOk {s : State} (h : MemOk s) (t : Stream) : MemOk (s.readPass t).1 := by
  have hg : MemOk (t.indices.foldl t.elem
      { s := s.seenView t.seen, idx := t.idx, part := t.part, poison := t.poison, flags := t.flags }).s :=
    List.foldlRecOn _ _ (motive := fun g : GroupWork => MemOk g.s) (seenView_memOk h t.seen)
      (fun g hg i _ => streamElem_memOk hg t i)
  unfold State.readPass
  dsimp only
  split <;> exact memOk_mixed h hg

theorem writePass_memOk {s : State} (h : MemOk s) (t : Stream) (D : Region) (out : List OutElem) (go : List Nat)
    (all : Bool) :
    MemOk (s.writePass t D out go all).1 := by
  grind [State.writePass, foldl_memOk, onlyWords_memOk, putElem_memOk, streamSaves_memOk, tagsAct_memOk,
    wrote_memOk, memOk_iff]

theorem clearPass_memOk {s : State} (h : MemOk s) (t : Stream) (D : Region) (out : List OutElem) :
    MemOk (s.clearPass t D out).1 := by
  grind [State.clearPass, clearWhole_memOk, foldl_memOk, memOk_iff]

theorem passEnd_memOk {s : State} (h : MemOk s) (t : Stream) (rest : List OutElem) : MemOk (s.passEnd t rest) := by
  grind [State.passEnd, landStream_memOk, setStream_memOk, unparkAll_memOk, memOk_iff]

theorem writeGroup_memOk {s : State} (h : MemOk s) (t : Stream) (results : List OutElem) :
    MemOk (s.writeGroup t results) := by
  grind [State.writeGroup, clearPass_memOk, parkAll_memOk, passEnd_memOk, setStream_memOk, unpark_memOk,
    writePass_memOk, memOk_iff]

theorem groupPass_memOk {s : State} (h : MemOk s) (id : Nat) : MemOk (s.groupPass id) := by
  grind [State.groupPass, readPass_memOk, seenView_memOk, setStream_memOk, sourceTags_memOk, unparkAll_memOk,
    writeGroup_memOk, wsNote_memOk, memOk_iff]

theorem enqueueStream_memOk {s : State} (h : MemOk s) (q : StreamReq) : MemOk (s.enqueueStream q) := by
  grind [State.enqueueStream, State.newId, memOk_iff]

theorem fromLatch_memOk {s : State} (h : MemOk s) (ps : BitVec 2) : MemOk (s.fromLatch ps) := by
  grind [State.fromLatch, memOk_iff]

/-! The matrix unit (08) -/

theorem setOwnerTile_memOk {s : State} (h : MemOk s) (uid t : Nat) (x : Tile) : MemOk (s.setOwnerTile uid t x) := by
  grind [State.setOwnerTile, onOwner_memOk, memOk_iff]

theorem enqueueM_memOk {s : State} (h : MemOk s) (k : MKind) (deps : List Nat) (batch : Bool) :
    MemOk (s.enqueueM k deps batch) := by
  grind [State.enqueueM, State.newId, joinBatch_memOk, memOk_iff]

theorem noteForm_memOk {s : State} (h : MemOk s) (t : Nat) (f : Form) : MemOk (s.noteForm t f) := by
  grind [State.noteForm, memOk_iff]

theorem configure_memOk {s : State} (h : MemOk s) (c : MCfg) : MemOk (s.configure c) := by
  grind [State.configure, enqueueM_memOk, memOk_iff]

theorem setM_memOk {s : State} (h : MemOk s) (m : MCmd) : MemOk (s.setM m) := by
  grind [State.setM, memOk_iff]

theorem shuttleStart_memOk {s : State} (h : MemOk s) : MemOk s.shuttleStart := by
  grind [State.shuttleStart, noteStep_memOk, setM_memOk, memOk_iff]

theorem reformTile_memOk {s : State} (h : MemOk s) (t : Tile) (form : Form) (d : Nat) :
    MemOk (s.reformTile t form d).2 := by
  grind [State.reformTile, memOk_iff]

theorem runBeat_memOk {s : State} (h : MemOk s) (m : MCmd) (acc : Nat) (wide : Bool) (d init : Nat) (a : Region)
    (b : Option Region) (cfg : MCfg) :
    MemOk (s.runBeat m acc wide d init a b cfg).1 := by
  grind [State.runBeat, foldl_memOk, reformTile_memOk, setOwnerTile_memOk, memOk_iff]

theorem beatTags_memOk {s : State} (h : MemOk s) (m : MCmd) (first taken : List Nat) :
    MemOk (s.beatTags m first taken).1 := by
  grind [State.beatTags, hotView_memOk, parkAll_memOk, tagsAct_memOk, unpark_memOk, memOk_iff]

theorem productView_memOk {s : State} (h : MemOk s) (reads : List (Nat × Nat × Bool)) :
    MemOk (s.productView reads) := by
  grind [State.productView, State.draw, seenView_memOk, memOk_iff]

theorem beatProduct_memOk {s : State} (h : MemOk s) (last : Bool) (reads : List (Nat × Nat × Bool)) (m : MCmd)
    (acc : Nat) (wide : Bool) (d init : Nat) (a : Region) (b : Option Region) (cfg : MCfg) :
    MemOk (if last then
      ({ ((s.productView reads).runBeat m acc wide d init a b cfg).1 with mem := s.mem, marks := s.marks },
        ((s.productView reads).runBeat m acc wide d init a b cfg).2) else (s, (0 : Flags))).1 := by
  split
  · exact memOk_mixed h (runBeat_memOk (productView_memOk h reads) m acc wide d init a b cfg)
  · exact h

theorem beat_memOk {s : State} (h : MemOk s) : MemOk s.beat := by
  unfold State.beat
  split
  · exact h
  · next m _ =>
    split
    · dsimp only
      split
      · exact wsNote_memOk h
      · split
        · next he => exact setM_memOk (memOk_of_fst (beatTags_memOk h _ _ _) he) _
        · next t n he =>
          have hu := unparkAll_memOk (memOk_of_fst (beatTags_memOk h _ _ _) he) n.id
          refine setM_memOk (tagsAct_memOk (beatProduct_memOk ?_ _ _ _ _ _ _ _ _ _ _) _ _ _) _
          exact memOk_of_eq hu rfl rfl rfl
    · exact h

theorem endM_memOk {s : State} (h : MemOk s) (m : MCmd) : MemOk (s.endM m) := by
  grind [State.endM, cmdDone_memOk, unparkAll_memOk, memOk_iff]

theorem drainGroup_memOk {s : State} (h : MemOk s) (m : MCmd) (d : Region) (n mode : Nat) (go : List Nat)
    (all : Bool) : MemOk (s.drainGroup m d n mode go all).1 := by
  refine tagsAct_memOk (wrote_memOk (onlyWords_memOk h ?_ go all) _ _ _) _ _ _
  exact List.foldlRecOn _ _ (motive := fun x : State × Flags => MemOk x.1) h
    fun _ hx _ _ => putElem_memOk hx d _ _ _

theorem loadGroup_memOk {s : State} (h : MemOk s) (m : MCmd) (a : Region) (n : Nat) (form : Form) (mode : Nat) :
    MemOk (s.loadGroup m a n form mode).1 := by
  grind [State.loadGroup, foldl_memOk, readElem_memOk, seenView_memOk, setOwnerTile_memOk, memOk_iff]

theorem weightGroup_memOk {s : State} (h : MemOk s) (m : MCmd) (b : Region) (lanes p : Nat) :
    MemOk (s.weightGroup m b lanes p) := by
  grind [State.weightGroup, foldl_memOk, hotView_memOk, seenView_memOk, setMark_memOk, memOk_iff]

theorem tileGroup_memOk {s : State} (h : MemOk s) (m : MCmd) : MemOk (s.tileGroup m).1 := by
  grind [State.tileGroup, loadGroup_memOk, weightGroup_memOk, memOk_iff]

theorem tilePass_memOk {s : State} (h : MemOk s) (m : MCmd) (r : Region) (dst : Bool) :
    MemOk (s.tilePass m r dst).1 := by
  grind [State.tilePass, drainGroup_memOk, meetFull_memOk, parkAll_memOk, tileGroup_memOk, unparkAll_memOk,
    unpark_memOk, memOk_iff]

theorem passGroups_memOk {s : State} (h : MemOk s) (n : Nat) (m : MCmd) : MemOk (State.passGroups n s m).1 := by
  induction n generalizing s m with
  | zero => exact h
  | succ n ih =>
    unfold State.passGroups
    split
    · exact h
    · split
      · exact h
      · split
        · exact wsNote_memOk h
        · next r dst _ _ _ =>
          split
          · next he => exact ih (memOk_of_fst (tilePass_memOk h m r dst) he) _
          · next he => exact memOk_of_fst (tilePass_memOk h m r dst) he

theorem tileEnd_memOk {s : State} (h : MemOk s) (m : MCmd) : MemOk (s.tileEnd m) := by
  grind [State.tileEnd, hotView_memOk, seenView_memOk, setOwnerTile_memOk, memOk_iff]

theorem shuttleComplete_memOk {s : State} (h : MemOk s) : MemOk s.shuttleComplete := by
  grind [State.shuttleComplete, endM_memOk, passGroups_memOk, setM_memOk, tileEnd_memOk, memOk_iff]

/-! The fabric (16) -/

theorem setPkt_memOk {s : State} (h : MemOk s) (p : Packet) : MemOk (s.setPkt p) := by
  grind [State.setPkt, memOk_iff]

theorem dropPkt_memOk {s : State} (h : MemOk s) (id : Nat) : MemOk (s.dropPkt id) := by
  grind [State.dropPkt, memOk_iff]

theorem chargeElsewhere_memOk {s : State} (h : MemOk s) (p : Packet) : MemOk (s.chargeElsewhere p).2 := by
  grind [State.chargeElsewhere, State.choose, memOk_iff]

theorem renumber_memOk {s : State} (h : MemOk s) (p : Packet) : MemOk (s.renumber p) := by
  grind [State.renumber, setPkt_memOk, memOk_iff]

theorem reissue_memOk {s : State} (h : MemOk s) : MemOk s.reissue := by
  grind [State.reissue, foldl_memOk, renumber_memOk, memOk_iff]

theorem routePkt_memOk {s : State} (h : MemOk s) (p : Packet) : MemOk (s.routePkt p) := by
  grind [State.routePkt, State.choose, setPkt_memOk, memOk_iff]

theorem routeAll_memOk {s : State} (h : MemOk s) : MemOk s.routeAll := by
  grind [State.routeAll, foldl_memOk, routePkt_memOk, memOk_iff]

theorem credited_memOk {s : State} (h : MemOk s) (l : List Packet) : MemOk (s.credited l).2 := by
  grind [State.credited, State.choose, memOk_iff]

theorem arbitration_memOk {s : State} (h : MemOk s) (port : Nat) : MemOk (s.arbitration port) := by
  grind [State.arbitration, credited_memOk, foldl_memOk, reissue_memOk, routeAll_memOk, setPkt_memOk, memOk_iff]

theorem reorderAccept_memOk {s : State} (h : MemOk s) (id : Nat) : MemOk (s.reorderAccept id) := by
  grind [State.reorderAccept, State.choose, chargeElsewhere_memOk, dropPkt_memOk, reissue_memOk, setPkt_memOk,
    memOk_iff]

theorem targetGranted_memOk {s : State} (h : MemOk s) (p : Packet) (pkg loc : Nat) :
    MemOk (s.targetGranted p pkg loc).2 := by
  grind [State.targetGranted, State.choose, memOk_iff]

theorem poisonAnswer_memOk {s : State} (h : MemOk s) (p : Packet) : MemOk (s.poisonAnswer p).2 := by
  unfold State.poisonAnswer
  split
  · split <;> exact h
  · exact h

theorem actAt_memOk {s : State} (h : MemOk s) {p : Packet} {pkg : Nat} {x : Option Reg × Bool × State}
    (hx : s.actAt p pkg = some x) : MemOk x.2.2 := by
  have hg : MemOk (if p.kind.isPiece then (true, s) else s.targetGranted p pkg (pkgBase pkg + p.loc)).2 := by
    split
    · exact h
    · exact targetGranted_memOk h _ _ _
  revert hx
  unfold State.actAt
  dsimp only
  generalize (if p.kind.isPiece then (true, s) else s.targetGranted p pkg (pkgBase pkg + p.loc)) = g at hg ⊢
  split
  · rintro ⟨⟩
    exact poisonAnswer_memOk hg p
  · split
    · rintro ⟨⟩
      exact wrote_memOk (setMasked_memOk hg _ _) _ _ _
    · rintro ⟨⟩
      exact hg
    · rintro ⟨⟩
      exact hg
    · split
      · intro hx
        obtain ⟨y, hy, rfl⟩ := Option.map_eq_some_iff.mp hx
        exact performed_memOk hg hy
      · rintro ⟨⟩

theorem remotePerform_memOk {s : State} (h : MemOk s) (id : Nat) : MemOk (s.remotePerform id) := by
  unfold State.remotePerform
  split
  · exact h
  · next p _ =>
    split
    · exact h
    · dsimp only
      split
      · exact setPkt_memOk h _
      · next t rest _ =>
        have hc : MemOk (if rest.isEmpty then (0, s) else s.choose (rest.length + 1)).2 := by
          split <;> exact h
        generalize (if rest.isEmpty then (0, s) else s.choose (rest.length + 1)) = c at hc ⊢
        split
        · next ha =>
          refine setPkt_memOk ?_ _
          exact memOk_of_eq (actAt_memOk hc ha) rfl rfl rfl
        · split
          · split
            · exact park_memOk h _ _ _ _
            · exact h
          · exact h

theorem countExhausted_memOk {s : State} (h : MemOk s) (p : Packet) : MemOk (s.countExhausted p) := by
  grind [State.countExhausted, onOwner_memOk, memOk_iff]

theorem tsendAnswered_memOk {s : State} (h : MemOk s) (p : Packet) : MemOk (s.tsendAnswered p) := by
  grind [State.tsendAnswered, memOk_iff]

theorem ackReturn_memOk {s : State} (h : MemOk s) (id : Nat) : MemOk (s.ackReturn id) := by
  grind [State.ackReturn, chargeElsewhere_memOk, countExhausted_memOk, dropPkt_memOk, onOwner_memOk, retire_memOk,
    tsendAnswered_memOk, memOk_iff]

theorem remoteReply_memOk {s : State} (h : MemOk s) (id : Nat) : MemOk (s.remoteReply id) := by
  grind [State.remoteReply, chargeElsewhere_memOk, countExhausted_memOk, dropPkt_memOk, retire_memOk, memOk_iff]

theorem withdrawalArrival_memOk {s : State} (h : MemOk s) (id : Nat) : MemOk (s.withdrawalArrival id) := by
  grind [State.withdrawalArrival, setPkt_memOk, memOk_iff]

theorem lineExpiry_memOk {s : State} (h : MemOk s) (k : Nat) : MemOk (s.lineExpiry k) := by
  grind [State.lineExpiry, flushLine_memOk, memOk_iff]

theorem linkDown_memOk {s : State} (h : MemOk s) (port : Nat) : MemOk (s.linkDown port) := by
  grind [State.linkDown, routeAll_memOk, memOk_iff]

theorem setRank_memOk {s : State} (h : MemOk s) (rank : Nat) (e : Word) : MemOk (s.setRank rank e) := by
  grind [State.setRank, memOk_iff]

theorem dropNoRoute_memOk {s : State} (h : MemOk s) (p : Packet) : MemOk (s.dropNoRoute p) := by
  unfold State.dropNoRoute
  split
  · split
    · exact dropPkt_memOk h _
    · exact setRank_memOk (setPkt_memOk (poisonAnswer_memOk h p) _) _ _
  · exact h

theorem readdress_memOk {s : State} (h : MemOk s) (rank : Nat) : MemOk (s.readdress rank) := by
  grind [State.readdress, foldl_memOk, setPkt_memOk, memOk_iff]

theorem moveMem_memOk {s : State} (old new : Nat) : MemOk (s.moveMem old new) :=
  ⟨wf_foldl_setCell (fun c => moveLoc old new c.1) _ rfl,
    rising_foldl_insertNat (fun w => moveLoc old new (8 * w) / 8) _ rfl,
    rising_foldl_insertNat (fun w => moveLoc old new (64 * w) / 64) _ rfl⟩

theorem noteHold_memOk {s : State} (h : MemOk s) (rank : Nat) : MemOk (s.noteHold rank) := by
  grind [State.noteHold, memOk_iff]

theorem rankWrite_memOk {s : State} (h : MemOk s) (rank : Nat) (entry : Word) (members : List Nat) :
    MemOk (s.rankWrite rank entry members) := by
  grind [State.rankWrite, foldl_memOk, moveMem_memOk, noteHold_memOk, readdress_memOk, setRank_memOk, memOk_iff]

theorem loadRoute_memOk {s : State} (h : MemOk s) (dest : Nat) (alts : List (Nat × Nat)) :
    MemOk (s.loadRoute dest alts) := by
  grind [State.loadRoute, routeAll_memOk, memOk_iff]

theorem setTsend_memOk {s : State} (h : MemOk s) (t : TSend) : MemOk (s.setTsend t) := by
  grind [State.setTsend, memOk_iff]

theorem tsendEnter_memOk {s : State} (h : MemOk s) (t : TSend) : MemOk (s.tsendEnter t) := by
  grind [State.tsendEnter, setTsend_memOk, memOk_iff]

theorem tsendBytes_memOk {s : State} (h : MemOk s) (t : TSend) : MemOk (s.tsendBytes t).2 := by
  grind [State.tsendBytes, memOk_iff]

theorem tsendReport_memOk {s : State} (h : MemOk s) (t : TSend) : MemOk (s.tsendReport t) := by
  grind [State.tsendReport, setWord_memOk, memOk_iff]

theorem tsendDeparture_memOk {s : State} (h : MemOk s) (id : Nat) : MemOk (s.tsendDeparture id) := by
  grind [State.tsendDeparture, foldl_memOk, sendPacket_memOk, setTsend_memOk, tsendBytes_memOk, tsendReport_memOk,
    memOk_iff]

theorem tsendComplete_memOk {s : State} (h : MemOk s) (id : Nat) : MemOk (s.tsendComplete id) := by
  grind [State.tsendComplete, cmdDone_memOk, setWord_memOk, memOk_iff]

/-! Collectives (17) -/

theorem sendMsg_memOk {s : State} (h : MemOk s) (group pos cls slack : Nat) (m : CollMsg) :
    MemOk (s.sendMsg group pos cls slack m) := by
  grind [State.sendMsg, enterRouter_memOk, memOk_iff]

theorem sendAll_memOk {s : State} (h : MemOk s) (group : Nat) (m : CollMsg) : MemOk (s.sendAll group m) := by
  grind [State.sendAll, foldl_memOk, sendMsg_memOk, memOk_iff]

theorem setColl_memOk {s : State} (h : MemOk s) (c : Coll) : MemOk (s.setColl c) := by
  grind [State.setColl, memOk_iff]

theorem cancelsDone_memOk {s : State} (h : MemOk s) (c : Coll) : MemOk (s.cancelsDone c) := by
  grind [State.cancelsDone, cmdDone_memOk, foldl_memOk, memOk_iff]

theorem ringFree_memOk {s : State} (h : MemOk s) (k : Nat) : MemOk (s.ringFree k) := by
  grind [State.ringFree, memOk_iff]

theorem keepClosing_memOk {s : State} (h : MemOk s) (c : Coll) : MemOk (s.keepClosing c) := by
  grind [State.keepClosing, memOk_iff]

theorem collFinal_memOk {s : State} (h : MemOk s) (c : Coll) (code : Nat) : MemOk (s.collFinal c code) := by
  grind [State.collFinal, cancelsDone_memOk, cmdDone_memOk, keepClosing_memOk, ringFree_memOk, setTag_memOk,
    setWord_memOk, memOk_iff]

theorem collFail_memOk {s : State} (h : MemOk s) (c : Coll) (code : Nat) : MemOk (s.collFail c code) := by
  grind [State.collFail, collFinal_memOk, sendAll_memOk, memOk_iff]

theorem pinPage_memOk {x : Pinning × List (Nat × Nat) × State} (h : MemOk x.2.2) (c : Coll) (write : Bool)
    (page : Nat) : MemOk (pinPage c write x page).2.2 := by
  have ht := translate_memOk h c.ptbase c.asid (mkWord (page * 4096)) write c.priv
  unfold pinPage
  split
  · split
    · next he => exact memOk_of_snd ht he
    · next he => exact memOk_of_snd ht he
    · next he => exact memOk_of_snd ht he
  · exact h

theorem pinBuffer_memOk {s : State} (h : MemOk s) (c : Coll) (a : Word) (n : Nat) (write : Bool) :
    MemOk (s.pinBuffer c a n write).2.2 := by
  unfold State.pinBuffer
  split
  · exact h
  · dsimp only
    split
    · exact h
    · exact List.foldlRecOn _ _ (motive := fun x : Pinning × List (Nat × Nat) × State => MemOk x.2.2) h
        (fun x hx k _ => pinPage_memOk hx c write _)

theorem ticketIn_memOk {s : State} (h : MemOk s) (t : Ticket) : MemOk (s.ticketIn t) := by
  grind [State.ticketIn, collFail_memOk, collFinal_memOk, sendAll_memOk, setColl_memOk, memOk_iff]

theorem raiseL_memOk {s : State} (h : MemOk s) (c : CollId) : MemOk (s.raiseL c) := by
  grind [State.raiseL, memOk_iff]

theorem issueTicket_memOk {s : State} (h : MemOk s) (h : HoopEnt) : MemOk (s.issueTicket h) := by
  grind [State.issueTicket, raiseL_memOk, sendAll_memOk, ticketIn_memOk, memOk_iff]

theorem issueDue_memOk {s : State} (h : MemOk s) : MemOk s.issueDue := by
  grind [State.issueDue, foldl_memOk, issueTicket_memOk, memOk_iff]

theorem hoopTell_memOk {s : State} (h : MemOk s) (c : CollId) (code pos : Nat) : MemOk (s.hoopTell c code pos) := by
  grind [State.hoopTell, collFinal_memOk, sendMsg_memOk, memOk_iff]

theorem hoopRefuse_memOk {s : State} (h : MemOk s) (c : CollId) (pos : Nat) (cmd : Option Nat) (code : Nat) :
    MemOk (s.hoopRefuse c pos cmd code) := by
  unfold State.hoopRefuse
  split
  · split
    · exact collFinal_memOk h _ _
    · exact h
  · exact sendMsg_memOk h _ _ _ _ _

theorem setHoop_memOk {s : State} (h : MemOk s) (h : HoopEnt) : MemOk (s.setHoop h) := by
  grind [State.setHoop, memOk_iff]

theorem hoopPost_memOk {s : State} (h : MemOk s) (c : CollId) (pos : Nat) (key : PostKey) (cmd : Option Nat) :
    MemOk (s.hoopPost c pos key cmd) := by
  grind [State.hoopPost, foldl_memOk, hoopRefuse_memOk, hoopTell_memOk, issueDue_memOk, raiseL_memOk, setHoop_memOk,
    memOk_iff]

theorem hoopVoid_memOk {s : State} (h : MemOk s) (c : CollId) (code : Nat) : MemOk (s.hoopVoid c code) := by
  grind [State.hoopVoid, foldl_memOk, hoopTell_memOk, raiseL_memOk, memOk_iff]

theorem sendPost_memOk {s : State} (h : MemOk s) (c : Coll) : MemOk (s.sendPost c) := by
  grind [State.sendPost, hoopPost_memOk, sendMsg_memOk, setColl_memOk, memOk_iff]

theorem pinPost_memOk {s : State} (h : MemOk s) (c : Coll) : MemOk (s.pinPost c) := by
  grind [State.pinPost, State.choose, collFinal_memOk, pinBuffer_memOk, sendPost_memOk, setColl_memOk, memOk_iff]

theorem postEntry_memOk {s : State} (h : MemOk s) (id : Nat) : MemOk (s.postEntry id) := by
  grind [State.postEntry, collFinal_memOk, pinPost_memOk, setColl_memOk, memOk_iff]

theorem hoopPostArrival_memOk {s : State} (h : MemOk s) (c : CollId) (pos : Nat) (key : PostKey) :
    MemOk (s.hoopPostArrival c pos key) := by
  grind [State.hoopPostArrival, State.choose, collFinal_memOk, hoopPost_memOk, memOk_iff]

theorem ticketArrival_memOk {s : State} (h : MemOk s) (t : Ticket) : MemOk (s.ticketArrival t) := by
  grind [State.ticketArrival, ticketIn_memOk, memOk_iff]

theorem collRead_memOk {s : State} (h : MemOk s) (c : Coll) (k : Nat) : MemOk (s.collRead c k).2 := by
  grind [State.collRead, State.draw, memOk_iff]

theorem collWrite_memOk {s : State} (h : MemOk s) (c : Coll) (k code : Nat) : MemOk (s.collWrite c k code) := by
  grind [State.collWrite, State.draw, writeNat_memOk, wrote_memOk, memOk_iff]

theorem collWriteAll_memOk {s : State} (h : MemOk s) (c : Coll) (k : Nat) (codes : List Nat) :
    MemOk (s.collWriteAll c k codes) := by
  grind [State.collWriteAll, collWrite_memOk, foldl_memOk, memOk_iff]

theorem collReadAll_memOk {s : State} (h : MemOk s) (c : Coll) (k m : Nat) : MemOk (s.collReadAll c k m).2 :=
  List.foldlRecOn _ _ (motive := fun x : List Nat × State => MemOk x.2) h fun _ hx _ _ => collRead_memOk hx c _

theorem collStore_memOk {s : State} (h : MemOk s) (c : Coll) (k : Nat) (codes : List Nat) :
    MemOk (s.collStore c k codes).1 := by
  grind [State.collStore, collWriteAll_memOk, memOk_iff]

theorem pieceIn_memOk {s : State} (h : MemOk s) (c : Coll) (p : Piece) : MemOk (s.pieceIn c p) := by
  grind [State.pieceIn, collReadAll_memOk, collStore_memOk, setColl_memOk, memOk_iff]

theorem pieceBegin_memOk {s : State} (h : MemOk s) (c : Coll) (chunk offset : Nat) :
    MemOk (s.pieceBegin c chunk offset) := by
  grind [State.pieceBegin, collReadAll_memOk, collStore_memOk, foldl_memOk, setColl_memOk, memOk_iff]

theorem settleCmd_memOk {s : State} (h : MemOk s) (c : Coll) : MemOk (s.settleCmd c) := by
  grind [State.settleCmd, cmdDone_memOk, keepClosing_memOk, setColl_memOk, memOk_iff]

theorem collSettle_memOk {s : State} (h : MemOk s) (cid : CollId) : MemOk (s.collSettle cid) := by
  grind [State.collSettle, foldl_memOk, pieceIn_memOk, ringFree_memOk, settleCmd_memOk, memOk_iff]

theorem pieceDeparture_memOk {s : State} (h : MemOk s) (cid : CollId) (chunk offset : Nat) :
    MemOk (s.pieceDeparture cid chunk offset) := by
  grind [State.pieceDeparture, pieceBegin_memOk, sendMsg_memOk, setColl_memOk, memOk_iff]

theorem answerPiece_memOk {s : State} (h : MemOk s) (p : Piece) (deferred : Bool) :
    MemOk (s.answerPiece p deferred) := by
  grind [State.answerPiece, State.choose, sendMsg_memOk, memOk_iff]

theorem storePiece_memOk {s : State} (h : MemOk s) (p : Piece) : MemOk (s.storePiece p) := by
  grind [State.storePiece, answerPiece_memOk, memOk_iff]

theorem pieceArrival_memOk {s : State} (h : MemOk s) (p : Piece) : MemOk (s.pieceArrival p) := by
  grind [State.pieceArrival, answerPiece_memOk, pieceIn_memOk, storePiece_memOk, memOk_iff]

theorem deferralResend_memOk {s : State} (h : MemOk s) (p : Piece) : MemOk (s.deferralResend p) := by
  grind [State.deferralResend, pieceArrival_memOk, sendMsg_memOk, memOk_iff]

theorem admission_memOk {s : State} (h : MemOk s) : MemOk s.admission := by
  grind [State.admission, collSettle_memOk, setColl_memOk, memOk_iff]

theorem collComplete_memOk {s : State} (h : MemOk s) (cid : CollId) : MemOk (s.collComplete cid) := by
  grind [State.collComplete, collFinal_memOk, memOk_iff]

theorem dropTail_memOk {s : State} (h : MemOk s) (cid : CollId) : MemOk (s.dropTail cid) := by
  grind [State.dropTail, ringFree_memOk, settleCmd_memOk, memOk_iff]

theorem collAnswered_memOk {s : State} (h : MemOk s) (p : Packet) : MemOk (s.collAnswered p) := by
  grind [State.collAnswered, collFail_memOk, collFinal_memOk, collSettle_memOk, dropTail_memOk, memOk_iff]

theorem orderNotice_memOk {s : State} (h : MemOk s) (cid : CollId) : MemOk (s.orderNotice cid) := by
  grind [State.orderNotice, collFinal_memOk, memOk_iff]

theorem hoopWithdrawal_memOk {s : State} (h : MemOk s) (c : CollId) (cancelled : Bool) :
    MemOk (s.hoopWithdrawal c cancelled) := by
  grind [State.hoopWithdrawal, collFinal_memOk, hoopVoid_memOk, memOk_iff]

theorem collTimeout_memOk {s : State} (h : MemOk s) (cid : CollId) : MemOk (s.collTimeout cid) := by
  grind [State.collTimeout, collFail_memOk, collFinal_memOk, hoopVoid_memOk, sendMsg_memOk, setColl_memOk,
    memOk_iff]

theorem abortNotice_memOk {s : State} (h : MemOk s) (cid : CollId) (cancelled : Bool) :
    MemOk (s.abortNotice cid cancelled) := by
  grind [State.abortNotice, collFail_memOk, dropTail_memOk, memOk_iff]

theorem cancel_memOk {s : State} (h : MemOk s) (f : FabCmd) : MemOk (s.cancel f) := by
  grind [State.cancel, cmdDone_memOk, collFail_memOk, collFinal_memOk, hoopVoid_memOk, sendMsg_memOk, memOk_iff]

theorem reach_memOk {s : State} (h : MemOk s) (f : FabCmd) : MemOk (s.reach f) := by
  grind [State.reach, cancel_memOk, cmdDone_memOk, issueDue_memOk, setWord_memOk, memOk_iff]

theorem pumpX_memOk {s : State} (h : MemOk s) (n : Nat) : MemOk (State.pumpX n s) := by
  induction n generalizing s with
  | zero => exact h
  | succ n ih =>
    have hg : ∀ l, MemOk { s with cx := { s.cx with xq := l } } := fun l => memOk_of_eq h rfl rfl rfl
    unfold State.pumpX
    split
    · exact h
    · dsimp only
      split
      · split
        · exact h
        · exact ih (memOk_of_eq h rfl rfl rfl)
      · split
        · split
          · exact h
          · exact ih (tsendEnter_memOk (hg _) _)
        · split
          · exact ih (reach_memOk (hg _) _)
          · exact h

/-! Control -/

theorem endIssued_memOk {s : State} (h : MemOk s) : MemOk s.endIssued := by
  grind [State.endIssued, memOk_iff]

theorem giveWay_memOk {s : State} (h : MemOk s) (next : Word) (sub : Nat) : MemOk (s.giveWay next sub) := by
  grind [State.giveWay, advance_memOk, capture_memOk, leave_memOk, memOk_iff]

theorem callTo_memOk {s : State} (h : MemOk s) (t : Word) : MemOk (s.callTo t) := by
  grind [State.callTo, branchTo_memOk, push_memOk, memOk_iff]

theorem tlbinv_memOk {s : State} (h : MemOk s) (t : Nat) (v : Word) : MemOk (s.tlbinv t v) := by
  grind [State.tlbinv, tlbDrop_memOk, memOk_iff]

/-! Copies -/

theorem copyIssue_memOk {s : State} (h : MemOk s) (c : CopyReq) : MemOk (CopyReq.issue c s) := by
  grind [CopyReq.issue, State.newId, joinBatch_memOk, pumpX_memOk, memOk_iff]

theorem moverLoc_memOk {m : Mover} (h : MemOk m.s) (c : CopyCmd) (a : Word) (write : Bool) :
    MemOk (Mover.loc m c a write).2.s := by
  grind [Mover.loc, translate_memOk, memOk_iff]

theorem moverByte_memOk {m : Mover} (h : MemOk m.s) (c : CopyCmd) (a : Word) : MemOk (Mover.byte m c a).2.s := by
  grind [Mover.byte, moverLoc_memOk, memOk_iff]

theorem moverAuxByte_memOk {m : Mover} (h : MemOk m.s) (c : CopyCmd) (a : Word) :
    MemOk (Mover.auxByte m c a).2.s := by
  grind [Mover.auxByte, moverLoc_memOk, memOk_iff]

theorem moverNum_memOk {m : Mover} (h : MemOk m.s) (c : CopyCmd) (a : Word) (n : Nat) : MemOk (m.num c a n).2.s := by
  induction n generalizing m a with
  | zero => exact h
  | succ n ih => exact ih (moverByte_memOk h c a) _

theorem moverAuxNum_memOk {m : Mover} (h : MemOk m.s) (c : CopyCmd) (a : Word) (n : Nat) :
    MemOk (m.auxNum c a n).2.s := by
  induction n generalizing m a with
  | zero => exact h
  | succ n ih => exact ih (moverAuxByte_memOk h c a) _

theorem moverFlat_memOk {m : Mover} (h : MemOk m.s) (c : CopyCmd) (base : Word) (w i : Nat) :
    MemOk (Mover.flat m c base w i).2.s := by
  grind [Mover.flat, moverByte_memOk, moverNum_memOk, memOk_iff]

theorem moverPlane_memOk {m : Mover} (h : MemOk m.s) (c : CopyCmd) (base : Word) (w g lane : Nat) :
    MemOk (m.plane c base w g lane).2.s :=
  List.foldlRecOn _ _ (motive := fun x : Nat × Mover => MemOk x.2.s) h (fun _ hx _ _ => moverByte_memOk hx c _)

theorem moverPack_memOk {m : Mover} (h : MemOk m.s) (w x : Nat) {code : Mover → Nat → Option (Nat × Mover)}
    (hc : ∀ {m i y}, MemOk m.s → code m i = some y → MemOk y.2.s) : MemOk (m.pack w x code).2.2.s := by
  have hpick : ∀ {m : Mover} (i k : Nat), MemOk m.s →
      MemOk (match code m i with | some (v, m) => (v, k, m) | none => (0, 0, m) : Nat × Nat × Mover).2.2.s := by
    intro m i k hm
    split
    · next he => exact (hc hm he :)
    · exact hm
  unfold Mover.pack
  split
  · split
    · next he => exact (hc h he :)
    · exact h
  · split
    · split
      · next he => exact (hc h he :)
      · exact h
    · exact hpick _ 15 (hpick _ 15 h)

theorem moverToPlanes_memOk {m : Mover} (h : MemOk m.s) (c : CopyCmd) (k : Nat) : MemOk (m.toPlanes c k).2.2.s := by
  refine List.foldlRecOn _ _ (motive := fun x : Nat × Nat × Mover => MemOk x.2.2.s) h (fun x hx b _ => ?_)
  split
  · exact moverFlat_memOk hx c _ _ _
  · exact hx

theorem moverIndex_memOk {m : Mover} (h : MemOk m.s) (c : CopyCmd) (i : Nat) : MemOk (m.index c i).2.s := by
  have hn := moverAuxNum_memOk h c (atOff (blkAux c.blk) (i * indexBytes (blkIkind c.blk) : Nat))
    (indexBytes (blkIkind c.blk))
  unfold Mover.index
  dsimp only
  split <;> exact hn

theorem moverConverted_memOk {m : Mover} (h : MemOk m.s) (c : CopyCmd) (i : Nat) :
    MemOk (Mover.converted m c i).2.s := by
  grind [Mover.converted, moverAuxByte_memOk, moverFlat_memOk, memOk_iff]

theorem moverValue_memOk {m : Mover} (h : MemOk m.s) (c : CopyCmd) (k : Nat) : MemOk (m.value c k).2.2.s := by
  unfold Mover.value
  split
  · exact moverByte_memOk h c _
  · exact moverByte_memOk h c _
  · exact moverToPlanes_memOk h c k
  · refine moverPack_memOk h _ _ (fun {m col y} hm hy => ?_)
    split at hy
    · cases hy
      exact moverPlane_memOk hm c _ _ _ _
    · cases hy
  · have hi := moverIndex_memOk h c (k / Nat.max 1 (blkRowBytes c.blk))
    dsimp only
    split
    · exact moverByte_memOk hi c _
    · exact hi
  · refine moverPack_memOk h _ _ (fun {m i y} hm hy => ?_)
    split at hy
    · cases hy
      exact moverConverted_memOk hm c i
    · cases hy

theorem moverGather_memOk {m : Mover} (h : MemOk m.s) (c : CopyCmd) (k : Nat) : MemOk (Mover.gather m c k).s := by
  grind [Mover.gather, State.draw, moverLoc_memOk, moverValue_memOk, memOk_iff]

theorem gatherSegment_memOk {s : State} (h : MemOk s) (c : CopyCmd) : MemOk (s.gatherSegment c).s :=
  List.foldlRecOn _ _ (motive := fun m : Mover => MemOk m.s) h (fun _ hm _ _ => moverGather_memOk hm c _)

theorem setCopy_memOk {s : State} (h : MemOk s) (c : CopyCmd) : MemOk (s.setCopy c) := by
  grind [State.setCopy, memOk_iff]

theorem engineStart_memOk {s : State} (h : MemOk s) (e : Nat) : MemOk (s.engineStart e) := by
  grind [State.engineStart, pumpX_memOk, setCopy_memOk, memOk_iff]

theorem copyStart_memOk {s : State} (h : MemOk s) (eng : Bool) : MemOk (s.copyStart eng) := by
  grind [State.copyStart, engineStart_memOk, foldl_memOk, memOk_iff]

theorem writeOut_memOk {s : State} (h : MemOk s) (c : CopyCmd) (out : List OutByte) : MemOk (s.writeOut c out).1 := by
  grind [State.writeOut, clearWhole_memOk, foldl_memOk, setByte_memOk, setMark_memOk, wrote_memOk, memOk_iff]

theorem wsNoteAll_memOk {s : State} (h : MemOk s) (words : List Nat) : MemOk (s.wsNoteAll words) := by
  grind [State.wsNoteAll, foldl_memOk, wsNoteOn_memOk, memOk_iff]

theorem copySegment_memOk {s : State} (h : MemOk s) (id : Nat) : MemOk (s.copySegment id) := by
  grind [State.copySegment, arriveAt_memOk, foldl_memOk, gatherSegment_memOk, parkAll_memOk, setCopy_memOk,
    tagsAct_memOk, unpark_memOk, writeOut_memOk, wsNoteAll_memOk, memOk_iff]

theorem copyPause_memOk {s : State} (h : MemOk s) (id : Nat) : MemOk (s.copyPause id) := by
  grind [State.copyPause, gatherSegment_memOk, setCopy_memOk, setWord_memOk, memOk_iff]

theorem copyResume_memOk {s : State} (h : MemOk s) (id : Nat) : MemOk (s.copyResume id) := by
  grind [State.copyResume, setCopy_memOk, memOk_iff]

theorem copyNodeDone_memOk {s : State} (h : MemOk s) (id : Nat) (err : Option Nat) :
    MemOk (s.copyNodeDone id err) := by
  grind [State.copyNodeDone, memOk_iff]

theorem spoil_memOk {s : State} (h : MemOk s) (c : CopyCmd) : MemOk (s.spoil c) := by
  have hm : MemOk ((List.range c.done).foldl (fun (m : Mover) k => m.gather c k) { s := s }).s :=
    List.foldlRecOn _ _ (motive := fun m : Mover => MemOk m.s) h (fun _ hm _ _ => moverGather_memOk hm c _)
  unfold State.spoil
  dsimp only
  split
  · exact h
  · exact writeOut_memOk hm c _

theorem copyComplete_memOk {s : State} (h : MemOk s) (id : Nat) : MemOk (s.copyComplete id) := by
  grind [State.copyComplete, cmdDone_memOk, copyNodeDone_memOk, pumpX_memOk, setWord_memOk, spoil_memOk, memOk_iff]

end Sys2Proof.CanonicalProofs

/-! ### Memory stays canonical: instruction words -/

namespace Sys2Proof.CanonicalProofs

open Sys2Proof Sys2Proof.Machine Sys2Proof.Safety Sys2Proof.Laws

-- One proof after another: elaborated side by side, the many short proofs take a thread and its stack each.
set_option Elab.async false

/-- A word keeps the canonical form: its effect does, and so does what it does as it stalls. -/
structure WordKeeps (w : WordSpec) : Prop where
  effect : ∀ {s v}, MemOk s → MemOk (w.effect s v)
  onStall : ∀ {s v}, MemOk s → MemOk (w.onStall s v)

theorem wordKeeps_of_effect {w : WordSpec} (he : ∀ {s v}, MemOk s → MemOk (w.effect s v))
    (hs : w.onStall = fun s _ => s := by rfl) : WordKeeps w :=
  ⟨he, fun h => by rw [hs]; exact h⟩

/-! Forms that several words share -/

theorem accWord_keeps {o : AccOp} : WordKeeps (accWord o) :=
  ⟨fun h => accEffect_memOk h o _, fun h => accOnStall_memOk h o _⟩

theorem streamWord_keeps {q : StreamReq} : WordKeeps (streamWord q) :=
  wordKeeps_of_effect fun h => by grind [streamWord, push_memOk, enqueueStream_memOk]

theorem copyWord_keeps {c : CopyReq} : WordKeeps (copyWord c) :=
  wordKeeps_of_effect fun h => copyIssue_memOk h c

theorem fabWord_keeps {p : SReg} {cls : BitVec 4} {align n : Nat} {ok : List Word → Bool}
    {act : Nat → Nat → List Word → State → State} (ha : ∀ id loc blk s, MemOk s → MemOk (act id loc blk s)) :
    WordKeeps (fabWord p cls align n ok act) :=
  wordKeeps_of_effect fun h => pumpX_memOk (ha _ _ _ _ (by exact memOk_of_eq h rfl rfl rfl)) 8

theorem alu1_keeps {d a : SReg} {n : Nat} {f : Word → Word} : WordKeeps (alu1 d a n f) :=
  wordKeeps_of_effect fun h => wreg_memOk h _ _ _

theorem alu2_keeps {d a b : SReg} {n : Nat} {f : Word → Word → Word} : WordKeeps (alu2 d a b n f) :=
  wordKeeps_of_effect fun h => wreg_memOk h _ _ _

theorem flagged1_keeps {d a : SReg} {n : Nat} {f : Word → Word × Flags} : WordKeeps (flagged1 d a n f) :=
  wordKeeps_of_effect fun h => wflags_memOk (wreg_memOk h _ _ _) _ _

theorem flagged2_keeps {d a b : SReg} {n : Nat} {f : Word → Word → Word × Flags} :
    WordKeeps (flagged2 d a b n f) :=
  wordKeeps_of_effect fun h => wflags_memOk (wreg_memOk h _ _ _) _ _

theorem cmp2_keeps {d a b : SReg} {n : Nat} {f : Word → Word → Bool × Flags} : WordKeeps (cmp2 d a b n f) :=
  wordKeeps_of_effect fun h => wflags_memOk (wpred_memOk h _ _ _) _ _

/-! Words with an effect of their own -/

theorem fenceWord_keeps {scope : BitVec 3} {mask : BitVec 16} : WordKeeps (fenceWord scope mask) :=
  wordKeeps_of_effect fun h => by grind [fenceWord, flushLines_memOk, memOk_iff]

theorem wdrainWord_keeps {w : BitVec 3} : WordKeeps (wdrainWord w) :=
  wordKeeps_of_effect fun h => by grind [wdrainWord, flushLines_memOk, memOk_iff]

theorem commitWord_keeps {a : SReg} : WordKeeps (commitWord a) :=
  wordKeeps_of_effect fun h => by grind [commitWord, wreg_memOk, memOk_iff]

theorem waitbWord_keeps {a : SReg} : WordKeeps (waitbWord a) :=
  wordKeeps_of_effect fun h => by grind [waitbWord, batchFree_memOk, trapDone_memOk]

theorem testbWord_keeps {a : SReg} : WordKeeps (testbWord a) :=
  wordKeeps_of_effect fun h => by grind [testbWord, batchFree_memOk, wreg_memOk]

theorem baraWord_keeps {n : BitVec 9} : WordKeeps (baraWord n) :=
  wordKeeps_of_effect fun h => by grind [baraWord, arrive_memOk, memOk_iff]

theorem barcfgWord_keeps {a : SReg} {n : BitVec 9} : WordKeeps (barcfgWord a n) :=
  wordKeeps_of_effect fun h => by grind [barcfgWord, setBar_memOk, memOk_iff]

theorem vchainWord_keeps {dd da db : DReg} {opt : BitVec 3} : WordKeeps (vchainWord dd da db opt) :=
  wordKeeps_of_effect fun h => by grind [vchainWord, enqueueStream_memOk]

theorem rdrnWord_keeps {r : SReg} {ps : BitVec 2} : WordKeeps (rdrnWord r ps) :=
  wordKeeps_of_effect fun h => by grind [rdrnWord, fromLatch_memOk, wreg_memOk]

theorem mstepWord_keeps {acc : BitVec 3} {wide : BitVec 1} {da db : DReg} {depth : BitVec 6} {tag flags : BitVec 2} :
    WordKeeps (mstepWord acc wide da db depth tag flags) :=
  wordKeeps_of_effect fun h => by grind [mstepWord, enqueueM_memOk, noteForm_memOk, memOk_iff]

theorem mzeroWord_keeps {n : BitVec 3} {wide : BitVec 1} {v f : BitVec 2} : WordKeeps (mzeroWord n wide v f) :=
  wordKeeps_of_effect fun h => by grind [mzeroWord, enqueueM_memOk, noteForm_memOk]

theorem scldWord_keeps {a : SReg} {n : BitVec 3} {f : BitVec 4} : WordKeeps (scldWord a n f) :=
  wordKeeps_of_effect fun h => by
    exact foldl_memOk (fun _ _ hs => push_memOk hs _ _) _ h

theorem loopWord_keeps {a : SReg} {n : BitVec 14} : WordKeeps (loopWord a n) :=
  wordKeeps_of_effect fun h => by exact memOk_of_eq h rfl rfl rfl

theorem endTaskWord_keeps : WordKeeps endTaskWord :=
  wordKeeps_of_effect fun h => by grind [endTaskWord, endIssued_memOk, endNow_memOk, memOk_iff]

theorem yieldWord_keeps : WordKeeps yieldWord :=
  wordKeeps_of_effect fun h => by grind [yieldWord, giveWay_memOk]

theorem brWord_keeps {k : PRegNum} {n : BitVec 1} {off : BitVec 22} : WordKeeps (brWord k n off) :=
  wordKeeps_of_effect fun h => by grind [brWord, branchTo_memOk]

theorem trapWord_keeps {n : BitVec 14} : WordKeeps (trapWord n) :=
  wordKeeps_of_effect fun h => by grind [trapWord, trapDone_memOk]

theorem svcWord_keeps {n : BitVec 14} : WordKeeps (svcWord n) :=
  wordKeeps_of_effect fun h => by grind [svcWord, loopNext_memOk, advance_memOk, freeze_memOk]

theorem eretToWord_keeps {a : SReg} : WordKeeps (eretToWord a) :=
  wordKeeps_of_effect fun h => by grind [eretToWord, eretJump_memOk, branchTo_memOk]

theorem brkWord_keeps {n : BitVec 14} : WordKeeps (brkWord n) :=
  wordKeeps_of_effect fun h => by grind [brkWord, stopHere_memOk, advance_memOk, loopNext_memOk, trapDone_memOk]

theorem swapcWord_keeps : WordKeeps swapcWord :=
  wordKeeps_of_effect fun h => by grind [swapcWord, loopNext_memOk, giveWay_memOk]

/-- Every instruction word keeps the canonical form. -/
theorem wordOf_keeps {i : Instr} {w : WordSpec} (hw : wordOf i = some w) : WordKeeps w := by
  cases i <;> cases hw
  case nop | checkPred | check | barw | exper => exact wordKeeps_of_effect id
  case add | sub | mul | mulh | mulhn | divn | rem | remn | and | or | xor | andn | shl | shr | sar | rotl | min | max
      | minn | maxn | lea | fcpys | bfx =>
    exact alu2_keeps
  case clz | popc | sext | zext | addi | andi | ori | xori | shli | shri | sari | fabs | fneg => exact alu1_keeps
  case div | fadd | fsub | fmul | fmin | fmax => exact flagged2_keeps
  case fcvti | fcvtf | fcvtw => exact flagged1_keeps
  case cmp | fcmp | tst => exact cmp2_keeps
  case movi | movk | bfi | sel | bart | dget | fmget | mfs => exact wordKeeps_of_effect fun h => wreg_memOk h _ _ _
  case ffma => exact wordKeeps_of_effect fun h => wflags_memOk (wreg_memOk h _ _ _) _ _
  case plog => exact wordKeeps_of_effect fun h => wpred_memOk h _ _ _
  case slkset | wallow | chset | dset | dadv | dcnt | rclr | fmset | mts =>
    exact wordKeeps_of_effect fun h => push_memOk h _ _
  case ld | lds | ldc | ldf | ldfe | st | stf | ste | sete | setf | tagq | aadd | amin | amax | aminn | amaxn | aand
      | aor | axor | aswp | afadd | acas =>
    exact accWord_keeps
  case vadd | vsub | vmul | vfma | vmin | vmax | vand | vor | vxor | vshl | vshr | vcmp | vsel | vabs | vneg | vcopy
      | vfill | vcvt | viota | vexp2 | vlog2 | vrcp | vrsq | vsig | vtanh | vgelu | vcomp | vexpd | vgath | vscat
      | vscan | vtrn | radd | rmin | rmax | rdrnDesc =>
    exact streamWord_keeps
  case vchain => exact vchainWord_keeps
  case rdrn => exact rdrnWord_keeps
  case mstep => exact mstepWord_keeps
  case mzero => exact mzeroWord_keeps
  case scld => exact scldWord_keeps
  case mlda => exact wordKeeps_of_effect fun h => noteForm_memOk (enqueueM_memOk h _ _ _) _ _
  case mdrain | mwgt | sload => exact wordKeeps_of_effect fun h => enqueueM_memOk h _ _ _
  case ssel | mflow | mskew | mfmt => exact wordKeeps_of_effect fun h => configure_memOk h _
  case cpy | cpyt | cpyp | cpyg | cpyw | cpyc => exact copyWord_keeps
  case cpost | ccancel | cquery | tsend => exact fabWord_keeps fun _ _ _ _ h => memOk_of_eq h rfl rfl rfl
  case fence => exact fenceWord_keeps
  case wdrain => exact wdrainWord_keeps
  case commit => exact commitWord_keeps
  case waitb => exact waitbWord_keeps
  case testb => exact testbWord_keeps
  case bara => exact baraWord_keeps
  case barcfg => exact barcfgWord_keeps
  case npost | requeue => exact wordKeeps_of_effect fun h => post_memOk h _ _
  case endTask => exact endTaskWord_keeps
  case yield => exact yieldWord_keeps
  case jmp | ret => exact wordKeeps_of_effect fun h => branchTo_memOk h _
  case jmpl | call => exact wordKeeps_of_effect fun h => callTo_memOk h _
  case loop => exact loopWord_keeps
  case br => exact brWord_keeps
  case trap => exact trapWord_keeps
  case eret => exact wordKeeps_of_effect fun h => eretPlain_memOk h
  case eretTo => exact eretToWord_keeps
  case brk => exact brkWord_keeps
  case mark => exact wordKeeps_of_effect fun h => record_memOk h _ _ _ _ _
  case swapc => exact swapcWord_keeps
  case tlbinvPage | tlbinvAsid | tlbinvLocal | tlbinvAll => exact wordKeeps_of_effect fun h => tlbinv_memOk h _ _
  case svc => exact svcWord_keeps

end Sys2Proof.CanonicalProofs

/-! ### Memory stays canonical: bundles, banks, the pricking, hosts and tools -/

namespace Sys2Proof.CanonicalProofs

open Sys2Proof Sys2Proof.Machine Sys2Proof.Safety Sys2Proof.Laws

-- One proof after another: elaborated side by side, the many short proofs take a thread and its stack each.
set_option Elab.async false

/-! Bundles -/

theorem atWord_memOk {s : State} (h : MemOk s) (k : Nat) : MemOk (s.atWord k) := memOk_of_eq h rfl rfl rfl

theorem bundleSpecs_keeps {ws : List IWord} {x : Instr × WordSpec} (hx : x ∈ bundleSpecs ws) : WordKeeps x.2 := by
  obtain ⟨w, -, hw⟩ := List.mem_filterMap.mp hx
  obtain ⟨i, -, hi⟩ := Option.bind_eq_some_iff.mp hw
  obtain ⟨y, hy, rfl⟩ := Option.map_eq_some_iff.mp hi
  exact wordOf_keeps hy

theorem slotWords_keeps {l : List (Instr × WordSpec)} (hl : ∀ x ∈ l, WordKeeps x.2) (k : Nat) (vals : List Reg) :
    ∀ x ∈ slotWords k vals l, WordKeeps x.w := by
  induction l generalizing k vals with
  | nil => simp [slotWords]
  | cons a t ih =>
    intro x hx
    rcases List.mem_cons.mp hx with rfl | hx
    · exact hl a (by simp)
    · exact ih (fun y hy => hl y (by simp [hy])) _ _ x hx

theorem enterBundle_memOk {s : State} (h : MemOk s) (ws : List IWord) : MemOk (s.enterBundle ws) := by
  grind [State.enterBundle, memOk_iff]

theorem deferC_memOk {s : State} (h : MemOk s) {x : Slotted} (hx : WordKeeps x.w) : MemOk (s.deferC x).2 := by
  have he : MemOk (x.w.effect s x.vals) := hx.effect h
  obtain ⟨k, i, w, v⟩ := x
  cases i
  case jmp | jmpl | ret | br | call =>
    dsimp only [State.deferC]
    split
    · exact h
    · split
      · exact he
      · exact h
  case loop => exact he
  case yield =>
    dsimp only [State.deferC]
    exact h
  case waitb =>
    dsimp only [State.deferC]
    split
    · exact batchFree_memOk h _
    · exact h
  all_goals exact h

theorem actC_memOk {s : State} (h : MemOk s) {x : Slotted} (hx : WordKeeps x.w) : MemOk (s.actC x) := by
  unfold State.actC
  dsimp only
  split
  · have hd := deferC_memOk (s := { s.atWord x.idx with ctl := .seq }) (memOk_of_eq h rfl rfl rfl) hx
    exact memOk_of_eq hd rfl rfl rfl
  · exact hx.effect (atWord_memOk h _)

theorem issueMany_memOk {s : State} (h : MemOk s) {l : List (Instr × WordSpec)} (hl : ∀ x ∈ l, WordKeeps x.2) :
    MemOk (s.issueMany l) := by
  unfold State.issueMany
  dsimp only
  split
  · exact stallNow_memOk h _
  · next vals _ =>
    have hw := slotWords_keeps hl 0 vals
    have hsub := fun (p : Slotted → Bool) x (hx : x ∈ (slotWords 0 vals l).filter p) =>
      hw x (List.mem_of_mem_filter hx)
    split
    · refine stallNow_memOk (List.foldlRecOn _ _ h fun t ht x hx => ?_) _
      exact (hsub _ x hx).onStall (atWord_memOk ht _)
    · split
      · exact trapIssue_memOk h _
      · refine List.foldlRecOn _ _ ?_ fun t ht x hx => actC_memOk ht (hsub _ x hx)
        refine List.foldlRecOn _ _ (popLq_memOk h _) fun t ht x hx => ?_
        exact (hsub _ x hx).effect (atWord_memOk ht _)

theorem paced_memOk {s : State} (h : MemOk s) : MemOk s.paced := by
  grind [State.paced, memOk_iff]

theorem stallCycle_memOk {s : State} (h : MemOk s) : MemOk s.stallCycle := by
  grind [State.stallCycle, landStalled_memOk, tick_memOk, memOk_iff]

theorem countLqWait_memOk {s : State} (h : MemOk s) : MemOk s.countLqWait := by
  grind [State.countLqWait, memOk_iff]

theorem traceOut_memOk {s : State} (h : MemOk s) : MemOk s.traceOut := by
  grind [State.traceOut, foldl_memOk, setWords_memOk, memOk_iff]

theorem hostStore_memOk {s : State} (h : MemOk s) (pa : Nat) (data : List Byte) : MemOk (s.hostStore pa data) := by
  grind [State.hostStore, foldl_memOk, setByte_memOk, wrote_memOk, memOk_iff]

theorem lateWrites_memOk {s : State} (h : MemOk s) : MemOk s.lateWrites := by
  grind [State.lateWrites, State.choose, foldl_memOk, hostStore_memOk, memOk_iff]

theorem cycleEnd_memOk {s : State} (h : MemOk s) : MemOk s.cycleEnd := by
  grind [State.cycleEnd, issueDue_memOk, lateWrites_memOk, traceOut_memOk, memOk_iff]

theorem finish_memOk {s : State} (h : MemOk s) : MemOk s.finish := by
  grind [State.finish, advance_memOk, countLqWait_memOk, cycleEnd_memOk, loopNext_memOk, paced_memOk,
    stallCycle_memOk, memOk_iff]

theorem applyCtl_memOk {s : State} (h : MemOk s) (c : Ctl) : MemOk (s.applyCtl c) := by
  unfold State.applyCtl
  split
  · exact trap_memOk (advance_memOk (recordTrap_memOk h _ _) _) _ _ _ _
  · exact brkWord_keeps.effect h
  · exact svcWord_keeps.effect h
  · exact trapDone_memOk h _ _
  · split
    · exact eretJump_memOk h _
    · exact branchTo_memOk h _
  · split
    · next hw => exact (wordOf_keeps hw).effect h
    · exact h
  · exact memOk_of_eq h rfl rfl rfl

theorem replayEnd_memOk {s : State} (h : MemOk s) (r : Replay) {f : State → State}
    (hf : ∀ t, MemOk t → MemOk (f t)) : MemOk (s.replayEnd r f) := by
  unfold State.replayEnd
  dsimp only
  refine finish_memOk (applyCtl_memOk (hf _ ?_) _)
  exact memOk_of_eq h rfl rfl rfl

theorem replayDone_memOk {s : State} (h : MemOk s) (r : Replay) (pa : Nat) : MemOk (s.replayDone r pa) :=
  replayEnd_memOk h r fun _ ht => enqueue_memOk ht _ _

theorem replayPoison_memOk {s : State} (h : MemOk s) (r : Replay) : MemOk (s.replayPoison r) := by
  refine replayEnd_memOk h r fun t ht => ?_
  dsimp only
  split <;> exact memOk_of_eq ht rfl rfl rfl

theorem trapDelivery_memOk {s : State} (h : MemOk s) : MemOk s.trapDelivery := by
  grind [State.trapDelivery, enterBundle_memOk, finish_memOk, trapIssue_memOk, memOk_iff]

/-! Table walks, faults and banks (13) -/

theorem setWalk_memOk {s : State} (h : MemOk s) (r : Replay) (w : Walk) (x : WalkResult) :
    MemOk (s.setWalk r w x) := by
  grind [State.setWalk, memOk_iff]

theorem walkHit_memOk {s : State} (h : MemOk s) (r : Replay) (t : TlbEnt) : MemOk (s.walkHit r t) := by
  grind [State.walkHit, replayDone_memOk, memOk_iff]

theorem sharedLookup_memOk {s : State} (h : MemOk s) : MemOk s.sharedLookup := by
  grind [State.sharedLookup, setWalk_memOk, walkHit_memOk, memOk_iff]

theorem tableRead_memOk {s : State} (h : MemOk s) : MemOk s.tableRead := by
  grind [State.tableRead, cacheWalk_memOk, replayPoison_memOk, setWalk_memOk, setWord_memOk, spanEntry_memOk,
    walkHit_memOk, memOk_iff]

theorem causeFirst_memOk {s : State} (h : MemOk s) (r : Replay) : MemOk (s.causeFirst r) := by
  grind [State.causeFirst, applyCtl_memOk, finish_memOk, memOk_iff]

theorem faultFreeze_memOk {s : State} (h : MemOk s) : MemOk s.faultFreeze := by
  grind [State.faultFreeze, causeFirst_memOk, freeze_memOk, memOk_iff]

theorem endShadow_memOk {s : State} (h : MemOk s) (reason : Option Nat) : MemOk (s.endShadow reason) := by
  grind [State.endShadow, noteTaskEnd_memOk, releaseTask_memOk, writeCharge_memOk, memOk_iff]

theorem dropSaved_memOk {s : State} (h : MemOk s) (va : Nat) : MemOk (s.dropSaved va) := by
  grind [State.dropSaved, memOk_iff]

theorem endSaved_memOk {s : State} (h : MemOk s) (va : Nat) (c : Ctx) (reason : Option Nat) :
    MemOk (s.endSaved va c reason) := by
  grind [State.endSaved, dropSaved_memOk, noteTaskEnd_memOk, releaseTask_memOk, writeCharge_memOk, memOk_iff]

theorem faultResolve_memOk {s : State} (h : MemOk s) (kill : Bool) : MemOk (s.faultResolve kill) := by
  grind [State.faultResolve, endSaved_memOk, endShadow_memOk, endTask_memOk, restore_memOk, memOk_iff]

theorem tlbinvComplete_memOk {s : State} (h : MemOk s) : MemOk s.tlbinvComplete := by
  grind [State.tlbinvComplete, memOk_iff]

theorem interrupt_memOk {s : State} (h : MemOk s) : MemOk s.interrupt := by
  grind [State.interrupt, capture_memOk, restore_memOk, memOk_iff]

theorem contextSwitch_memOk {s : State} (h : MemOk s) : MemOk s.contextSwitch := by
  grind [State.contextSwitch, leave_memOk, restore_memOk, memOk_iff]

theorem spill_memOk {s : State} (h : MemOk s) : MemOk s.spill := by
  grind [State.spill, memOk_iff]

theorem spillWords_memOk {s : State} (h : MemOk s) (c : Ctx) (bank : Bool) : MemOk (s.spillWords c bank).2 := by
  grind [State.spillWords, memOk_iff]

theorem writeArea_memOk {s : State} (h : MemOk s) (c : Ctx) (l : List (Nat × Word)) : MemOk (s.writeArea c l).1 := by
  induction l generalizing s with
  | nil => exact h
  | cons x t ih =>
    obtain ⟨o, w⟩ := x
    unfold State.writeArea
    split
    · next he => exact ih (setWord_memOk (memOk_of_snd (translate_memOk h _ _ _ _ _) he) _ _)
    · next he => exact memOk_of_snd (translate_memOk h _ _ _ _ _) he

theorem bankSpilled_memOk {s : State} (h : MemOk s) (c : Ctx) (ofCx : Bool) (fv : Nat) :
    MemOk (s.bankSpilled c ofCx fv) := by
  grind [State.bankSpilled, memOk_iff]

theorem spillAttempt_memOk {s : State} (h : MemOk s) (c : Ctx) (ofCx : Bool) : MemOk (s.spillAttempt c ofCx).1 := by
  grind [State.spillAttempt, spillWords_memOk, writeArea_memOk, memOk_iff]

theorem spillComplete_memOk {s : State} (h : MemOk s) : MemOk s.spillComplete := by
  unfold State.spillComplete
  split
  · split
    · exact h
    · split
      · next he => exact bankSpilled_memOk (memOk_of_fst (spillAttempt_memOk h _ _) he) _ _ _
      · exact h
  · exact h

theorem emergencySpill_memOk {s : State} (h : MemOk s) : MemOk s.emergencySpill := by
  grind [State.emergencySpill, bankSpilled_memOk, foldl_memOk, setWord_memOk, spillAttempt_memOk, spillWords_memOk,
    memOk_iff]

theorem fill_memOk {s : State} (h : MemOk s) (va : Nat) : MemOk (s.fill va) := by
  grind [State.fill, dropSaved_memOk, memOk_iff]

theorem readArea_memOk {s : State} (h : MemOk s) (c : Ctx) (l : List Nat) : MemOk (s.readArea c l).1 := by
  induction l generalizing s with
  | nil => exact h
  | cons o t ih =>
    unfold State.readArea
    split
    · next he => exact ih (memOk_of_snd (translate_memOk h _ _ _ _ _) he)
    · next he => exact memOk_of_snd (translate_memOk h _ _ _ _ _) he

theorem loadPublic_memOk {s : State} (h : MemOk s) (c : Ctx) (w : Nat → Word) : MemOk (s.loadPublic c w).2 := by
  grind [State.loadPublic, memOk_iff]

theorem filled_memOk {s : State} (h : MemOk s) (c : Ctx) (w : Nat → Word) : MemOk (s.filled c w).2 := by
  grind [State.filled, loadPublic_memOk, memOk_iff]

theorem setBank_memOk {s : State} (h : MemOk s) (ofCx : Bool) (c : Ctx) (st : BankSt) :
    MemOk (s.setBank ofCx c st) := by
  grind [State.setBank, memOk_iff]

theorem fillRecord_memOk {s : State} (h : MemOk s) (c : Ctx) (ofCx : Bool) (r : FaultRec) :
    MemOk (s.fillRecord c ofCx r) := by
  grind [State.fillRecord, recordFor_memOk, memOk_iff]

theorem fillComplete_memOk {s : State} (h : MemOk s) : MemOk s.fillComplete := by
  grind [State.fillComplete, endSaved_memOk, fillRecord_memOk, filled_memOk, readArea_memOk, setBank_memOk,
    memOk_iff]

/-! The pricking (14) -/

theorem pagesFrom_memOk {s : State} (h : MemOk s) (ptbase asid : Nat) (write : Bool) (n p : Nat) :
    MemOk (pagesFrom ptbase asid write n p s).2 := by
  induction n generalizing s p with
  | zero => exact h
  | succ n ih =>
    unfold pagesFrom
    split
    · next t he =>
      have ht := ih (memOk_of_snd (translate_memOk h _ _ _ _ _) he) (p + 1)
      split
      · next he => exact memOk_of_snd ht he
      · exact ht
    · next he => exact memOk_of_snd (translate_memOk h _ _ _ _ _) he

theorem span_memOk {s : State} (h : MemOk s) (ptbase asid va n : Nat) (write : Bool) :
    MemOk (s.span ptbase asid va n write).2 := by
  unfold State.span
  split
  · exact h
  · split
    · next he => exact memOk_of_snd (pagesFrom_memOk h _ _ _ _ _) he
    · next he => exact memOk_of_snd (pagesFrom_memOk h _ _ _ _ _) he

theorem spanWord_memOk {s : State} (h : MemOk s) (x : Span) (o : Nat) : MemOk (s.spanWord x o).2 := by
  unfold State.spanWord
  dsimp only
  split <;> exact h

theorem spanWords_memOk {s : State} (h : MemOk s) (x : Span) (n o : Nat) : MemOk (s.spanWords x n o).2 := by
  induction n generalizing s o with
  | zero => exact h
  | succ n ih => exact ih (spanWord_memOk h x o) (o + 8)

theorem writeWord6_memOk {s : State} (h : MemOk s) (n : Node) : MemOk (s.writeWord6 n) := by
  unfold State.writeWord6
  split
  · next he => exact setWord_memOk (memOk_of_snd (span_memOk h _ _ _ _ _) he) _ _
  · next he => exact memOk_of_snd (span_memOk h _ _ _ _ _) he

theorem putNode_memOk {s : State} (h : MemOk s) (n : Node) : MemOk (s.putNode n) := by
  grind [State.putNode, writeWord6_memOk, memOk_iff]

theorem readyIf_memOk {s : State} (h : MemOk s) (gen : Nat) : MemOk (s.readyIf gen) := by
  grind [State.readyIf, putNode_memOk, memOk_iff]

theorem predDone_memOk {s : State} (h : MemOk s) (gen : Nat) : MemOk (s.predDone gen) := by
  grind [State.predDone, readyIf_memOk, memOk_iff]

theorem spanBytes_memOk {s : State} (h : MemOk s) (x : Span) (n : Nat) : MemOk (s.spanBytes x n).2 := by
  grind [State.spanBytes, memOk_iff]

theorem tryImage_memOk {s : State} (h : MemOk s) (n : Node) : MemOk (s.tryImage n).2 := by
  unfold State.tryImage
  have hx := span_memOk h n.ptbase n.asid n.code 64 false
  generalize s.span n.ptbase n.asid n.code 64 false = a at hx ⊢
  obtain ⟨_ | x, t⟩ := a
  · exact hx
  · have ht := spanWords_memOk hx x 8 0
    dsimp only at ht ⊢
    generalize t.spanWords x 8 0 = b at ht ⊢
    obtain ⟨w, u⟩ := b
    split
    · exact ht
    · split
      · next he => exact memOk_of_snd (span_memOk ht _ _ _ _ _) he
      · next c v he =>
        have hb := spanBytes_memOk (memOk_of_snd (span_memOk ht _ _ _ _ _) he) c
          (bitsOf ((w[4]?).getD 0) 32 32)
        generalize v.spanBytes c _ = d at hb ⊢
        split <;> exact hb

theorem takes_memOk {s : State} (h : MemOk s) (n : Node) (m : Image) : MemOk (s.takes n m).2 := by
  grind [State.takes, State.choose, memOk_iff]

theorem takeReady_memOk {s : State} (h : MemOk s) (n : Node) : MemOk (s.takeReady n).2 := by
  unfold State.takeReady
  split
  · split
    · exact h
    · exact takes_memOk h _ _
  · exact h

theorem finishNode_memOk {s : State} (h : MemOk s) (n gen : Nat) (reason : Option Nat) :
    MemOk (finishNode n gen reason s) := by
  induction n generalizing s gen reason with
  | zero => exact h
  | succ n ih =>
    unfold finishNode
    split
    · exact h
    · split
      · exact h
      · refine foldl_memOk (fun t g ht => ?_) _ (putNode_memOk h _)
        split
        · exact ih ht g _
        · exact predDone_memOk ht g

theorem finish14_memOk {s : State} (h : MemOk s) (gen : Nat) (reason : Option Nat) :
    MemOk (s.finish14 gen reason) := by
  grind [State.finish14, finishNode_memOk, memOk_iff]

theorem postMail_memOk {s : State} (h : MemOk s) (p : Post) :
    MemOk (State.enterPosts { s with sched := { s.sched with posts := s.sched.posts ++ [p] } }) :=
  enterPosts_memOk (memOk_of_eq h rfl rfl rfl)

theorem mailboxWrite_eq (s : State) (i addr : Nat) :
    s.mailboxWrite i addr =
      if !s.firmware || s.full (s.mailLoc i) then s
      else
        let t := ((s.setWord (s.mailLoc i) (mkWord addr)).setTag (s.mailLoc i) true).enterPosts
        let p : Post :=
          { addr := addr, priv := true, level := 3, asid := s.sched.jobAsid
            ptbase := Config.tableRoot s.sched.jobAsid, mail := some i }
        State.enterPosts { t with sched := { t.sched with posts := t.sched.posts ++ [p] } } := rfl

theorem mailboxWrite_memOk {s : State} (h : MemOk s) (i addr : Nat) : MemOk (s.mailboxWrite i addr) := by
  rw [mailboxWrite_eq]
  split
  · exact h
  · exact postMail_memOk (enterPosts_memOk (setTag_memOk (setWord_memOk h _ _) _ _)) _

theorem predAddrs_memOk {s : State} (h : MemOk s) (n : Node) (w : List Word) : MemOk (s.predAddrs n w).2 := by
  unfold State.predAddrs
  split
  · exact h
  · split
    · next he => exact spanWords_memOk (memOk_of_snd (span_memOk h _ _ _ _ _) he) _ _ _
    · next he => exact memOk_of_snd (span_memOk h _ _ _ _ _) he

theorem addSucc_memOk {s : State} (h : MemOk s) (g n : Nat) : MemOk (s.addSucc g n) := by
  grind [State.addSucc, memOk_iff]

theorem linkPreds_memOk {s : State} (h : MemOk s) (gen : Nat) (addrs : List Nat) : MemOk (s.linkPreds gen addrs) := by
  grind [State.linkPreds, addSucc_memOk, foldl_memOk, memOk_iff]

theorem linkRequeue_memOk {s : State} (h : MemOk s) (gen issuer : Nat) : MemOk (s.linkRequeue gen issuer) := by
  grind [State.linkRequeue, addSucc_memOk, foldl_memOk, memOk_iff]

theorem addNode_memOk {s : State} (h : MemOk s) (n : Node) : MemOk (s.addNode n) := by
  grind [State.addNode, memOk_iff]

theorem makeNode_memOk {s : State} (h : MemOk s) (p : Post) (x : Span) : MemOk (s.makeNode p x) := by
  have hw := spanWords_memOk h x 6 0
  unfold State.makeNode
  dsimp only
  generalize s.spanWords x 6 0 = a at hw ⊢
  generalize nodeOfRecord p (s.sched.gens + 1) a.1 = n
  have hc : MemOk (if recordBad n a.1 then (none, a.2) else a.2.span n.ptbase n.asid n.code 64 false).2 := by
    split
    · exact hw
    · exact span_memOk hw _ _ _ _ _
  generalize (if recordBad n a.1 then (none, a.2) else a.2.span n.ptbase n.asid n.code 64 false) = b at hc ⊢
  have hp : MemOk (if recordBad n a.1 then (none, b.2) else b.2.predAddrs n a.1).2 := by
    split
    · exact hc
    · exact predAddrs_memOk hc _ _
  generalize (if recordBad n a.1 then (none, b.2) else b.2.predAddrs n a.1) = c at hp ⊢
  generalize (if (recordBad n a.1 || b.1.isNone || c.1.isNone) = true then some 1 else _ : Option Nat) = reason
  have hi : MemOk (if reason.isSome then (none, c.2) else c.2.takeReady n).2 := by
    split
    · exact hp
    · exact takeReady_memOk hp _
  generalize (if reason.isSome then (none, c.2) else c.2.takeReady n) = d at hi ⊢
  grind [addNode_memOk, linkRequeue_memOk, finish14_memOk, linkPreds_memOk, putNode_memOk, readyIf_memOk]

theorem badPost_memOk {s : State} (h : MemOk s) (p : Post) : MemOk (s.badPost p) := by
  grind [State.badPost, addNode_memOk, finish14_memOk, linkRequeue_memOk, memOk_iff]

theorem postTake_memOk {s : State} (h : MemOk s) : MemOk s.postTake := by
  have he := enterPosts_memOk h
  unfold State.postTake
  generalize s.enterPosts = e at he ⊢
  extract_lets
  split
  · exact he
  · next p _ =>
    split
    · exact he
    · extract_lets t u
      have ht : MemOk t := memOk_of_eq he rfl rfl rfl
      have hu : MemOk u := by
        unfold u
        split
        · exact setTag_memOk ht _ _
        · exact ht
      generalize u = u at hu ⊢
      split
      · exact memOk_of_eq hu rfl rfl rfl
      · split
        · exact badPost_memOk hu _
        · have hx := span_memOk hu p.ptbase p.asid p.addr 64 true
          split
          · next he => exact makeNode_memOk (memOk_of_snd hx he) _ _
          · next he => exact badPost_memOk (memOk_of_snd hx he) _

theorem setLoad_memOk {s : State} (h : MemOk s) (gen r : Nat) (im : Option Nat) : MemOk (s.setLoad gen r im) := by
  grind [State.setLoad, memOk_iff]

theorem loadAnew_memOk {s : State} (h : MemOk s) (n : Node) : MemOk (s.loadAnew n) := by
  grind [State.loadAnew, setLoad_memOk, tryImage_memOk, memOk_iff]

theorem imageLoad_memOk {s : State} (h : MemOk s) (gen : Nat) : MemOk (s.imageLoad gen) := by
  grind [State.imageLoad, loadAnew_memOk, setLoad_memOk, takes_memOk, memOk_iff]

theorem imageLoadComplete_memOk {s : State} (h : MemOk s) (gen : Nat) : MemOk (s.imageLoadComplete gen) := by
  grind [State.imageLoadComplete, finish14_memOk, readyIf_memOk, memOk_iff]

theorem nodeFinish_memOk {s : State} (h : MemOk s) (gen : Nat) : MemOk (s.nodeFinish gen) := by
  grind [State.nodeFinish, finish14_memOk, memOk_iff]

theorem memOk_withSched {s : State} (h : MemOk s) (x : SchedSt) : MemOk { s with sched := x } := h

theorem memOk_placed {s : State} (h : MemOk s) (c : Ctx) (st : BankSt) : MemOk { s with cx := c, cxSt := st } := h

theorem setReport_memOk {s : State} (h : MemOk s) (core : Nat) (r : CoreReport) : MemOk (s.setReport core r) := by
  grind [State.setReport, memOk_iff]

theorem dropPlaced_memOk {s : State} (h : MemOk s) (p : Placed) : MemOk (s.dropPlaced p) := by
  grind [State.dropPlaced, foldl_memOk, freeRange_memOk, memOk_iff]

theorem resourceReport_memOk {s : State} (h : MemOk s) (core : Nat) (r : CoreReport) :
    MemOk (s.resourceReport core r) := by
  grind [State.resourceReport, dropPlaced_memOk, foldl_memOk, setReport_memOk, memOk_iff]

theorem noteClaimants_memOk {s : State} (h : MemOk s) : MemOk s.noteClaimants := by
  grind [State.noteClaimants, memOk_iff]

theorem makeClaimant_memOk {s : State} (h : MemOk s) (gen : Nat) : MemOk (s.makeClaimant gen) := by
  grind [State.makeClaimant, memOk_iff]

theorem grant_memOk {s : State} (h : MemOk s) (quad : Bool) (unit launch bytes : Nat) (reserve : Bool) :
    MemOk (s.grant quad unit launch bytes reserve).2 := by
  grind [State.grant, State.choose, zeroRange_memOk, memOk_iff]

theorem grantTask_memOk {s : State} (h : MemOk s) (n : Node) (im : Image) (core : Nat) (preempt : Bool) :
    MemOk (s.grantTask n im core preempt).2 := by
  unfold State.grantTask
  extract_lets a b resC
  have hc := grant_memOk h false core n.gen im.scratch resC
  generalize s.grant false core n.gen im.scratch resC = c at hc ⊢
  obtain ⟨cb, t⟩ := c
  dsimp -zeta only at hc ⊢
  extract_lets hit
  split
  · exact hc
  · split
    · exact memOk_of_eq hc rfl rfl rfl
    · exact grant_memOk hc _ _ _ _ _

theorem allot_memOk {s : State} (h : MemOk s) (uid n : Nat) : MemOk (s.allot uid n).2 := by
  grind [State.allot, memOk_iff]

theorem startCtx_memOk {s : State} (h : MemOk s) (n : Node) (im : Image) (preempt : Bool) :
    MemOk (s.startCtx n im preempt).2 := by
  have body : State.startCtx = State.startCtx := rfl
  conv_rhs at body => delta State.startCtx
  generalize hr : s.startCtx n im preempt = r
  rw [body] at hr
  beta_reduce at hr
  subst hr
  generalize n.coords n.next = coords
  have hg := grantTask_memOk h n im s.coreid preempt
  generalize s.grantTask n im s.coreid preempt = g at hg ⊢
  obtain ⟨⟨cb, cn, qb, qn, res, resQ⟩, t⟩ := g
  obtain ⟨x, y, z⟩ := coords
  dsimp -zeta only at hg ⊢
  extract_lets uid _ u
  have ha := allot_memOk (memOk_withSched hg _ : MemOk u) uid im.barriers
  generalize u.allot uid im.barriers = b at ha ⊢
  obtain ⟨bars, v⟩ := b
  exact ha

theorem tookTask_memOk {s : State} (h : MemOk s) (n : Node) : MemOk (s.tookTask n) := by
  grind [State.tookTask, putNode_memOk, memOk_iff]

theorem busyReport_memOk {s : State} (h : MemOk s) (core : Nat) (preempt : Bool) :
    MemOk (s.busyReport core preempt) := by
  grind [State.busyReport, memOk_iff]

theorem placeAway_memOk {s : State} (h : MemOk s) (n : Node) (im : Image) (core : Nat) (preempt : Bool) :
    MemOk (s.placeAway n im core preempt) := by
  have body : State.placeAway = State.placeAway := rfl
  conv_rhs at body => delta State.placeAway
  rw [body]
  beta_reduce
  have hg := grantTask_memOk h n im core preempt
  generalize s.grantTask n im core preempt = g at hg ⊢
  obtain ⟨⟨cb, cn, qb, qn, _⟩, t⟩ := g
  exact memOk_withSched (busyReport_memOk hg core preempt) _

theorem placeOn_memOk {s : State} (h : MemOk s) (n : Node) (im : Image) (core : Nat) :
    MemOk (s.placeOn n im core) := by
  unfold State.placeOn
  split
  · have hc := startCtx_memOk h n im false
    generalize s.startCtx n im false = c at hc ⊢
    obtain ⟨c, t⟩ := c
    exact memOk_placed (busyReport_memOk hc core false) _ _
  · exact placeAway_memOk h n im core false

theorem asPricking_memOk {s : State} (h : MemOk s) (n : Node) : MemOk (s.asPricking n) := by
  grind [State.asPricking, memOk_iff]

theorem startCopy_memOk {s : State} (h : MemOk s) (n : Node) : MemOk (s.startCopy n) := by
  grind [State.startCopy, State.newId, asPricking_memOk, finish14_memOk, putNode_memOk, span_memOk, memOk_iff]

theorem taskPlacement_memOk {s : State} (h : MemOk s) : MemOk s.taskPlacement := by
  grind [State.taskPlacement, noteClaimants_memOk, placeOn_memOk, startCopy_memOk, tookTask_memOk, memOk_iff]

theorem taskStart_memOk {s : State} (h : MemOk s) : MemOk s.taskStart := by
  grind [State.taskStart, restore_memOk, memOk_iff]

theorem victimChoice_memOk {s : State} (h : MemOk s) : MemOk s.victimChoice := by
  unfold State.victimChoice
  split
  · exact h
  · extract_lets t
    have ht : MemOk t := noteClaimants_memOk h
    split
    · exact ht
    · next n im core _ =>
      split
      · have hc := startCtx_memOk ht n im true
        generalize t.startCtx n im true = c at hc ⊢
        obtain ⟨c, u⟩ := c
        refine tookTask_memOk ?_ n
        exact memOk_of_eq (s := u) hc rfl rfl rfl
      · exact tookTask_memOk (placeAway_memOk ht n im core true) n

theorem yieldRequest_memOk {s : State} (h : MemOk s) : MemOk s.yieldRequest := by
  grind [State.yieldRequest, leave_memOk, memOk_iff]

theorem countForced_memOk {s : State} (h : MemOk s) (gen : Nat) : MemOk (s.countForced gen) := by
  grind [State.countForced, putNode_memOk, memOk_iff]

theorem yieldExpiry_memOk {s : State} (h : MemOk s) : MemOk s.yieldExpiry := by
  grind [State.yieldExpiry, capture_memOk, countForced_memOk, leave_memOk, memOk_iff]

theorem unprepare_memOk {s : State} (h : MemOk s) : MemOk s.unprepare := by
  grind [State.unprepare, releaseTask_memOk, memOk_iff]

theorem yieldWithdraw_memOk {s : State} (h : MemOk s) : MemOk s.yieldWithdraw := by
  grind [State.yieldWithdraw, placeOn_memOk, unprepare_memOk, memOk_iff]

theorem prefetch_memOk {s : State} (h : MemOk s) : MemOk s.prefetch := by
  grind [State.prefetch, memOk_iff]

theorem endFlush_memOk {s : State} (h : MemOk s) : MemOk s.endFlush := by
  grind [State.endFlush, flushLines_memOk, memOk_iff]

theorem taskEnd_memOk {s : State} (h : MemOk s) (node reason : Nat) : MemOk (s.taskEnd node reason) := by
  grind [State.taskEnd, endFlush_memOk, endTask_memOk, noteTaskEnd_memOk, memOk_iff]

theorem evict_memOk {s : State} (h : MemOk s) (quad : Bool) : MemOk (s.evict quad) := by
  grind [State.evict, zeroRange_memOk, memOk_iff]

theorem restorePartition_memOk {s : State} (h : MemOk s) (quad : Bool) : MemOk (s.restorePartition quad) := by
  grind [State.restorePartition, putBack_memOk, memOk_iff]

/-! Hosts, power and reset (22) -/

theorem setTime_memOk {s : State} (h : MemOk s) (skew : ℤ) : MemOk (s.setTime skew) := by
  grind [State.setTime, refuse_memOk, memOk_iff]

theorem timeService_memOk {s : State} (h : MemOk s) (skew : ℤ) : MemOk (s.timeService skew) := by
  grind [State.timeService, State.choose, memOk_iff]

theorem hostWrite_memOk {s : State} (h : MemOk s) (rod : Bool) (pa : Nat) (data : List Byte) :
    MemOk (s.hostWrite rod pa data) := by
  grind [State.hostWrite, State.choose, hostStore_memOk, lateWrites_memOk, memOk_iff]

theorem hostByte_memOk {s : State} (h : MemOk s) (l : Nat) : MemOk (s.hostByte l).2 := by
  grind [State.hostByte, State.draw, memOk_iff]

theorem hostBytes_memOk {s : State} (h : MemOk s) (l : List Nat) : MemOk (s.hostBytes l).2 := by
  induction l generalizing s with
  | nil => exact h
  | cons a l ih => exact ih (hostByte_memOk h a)

theorem answer_memOk {s : State} (h : MemOk s) (l : List Byte) : MemOk (s.answer l) := by
  grind [State.answer, memOk_iff]

theorem hostRead_memOk {s : State} (h : MemOk s) (port : Bool) (pa n : Nat) : MemOk (s.hostRead port pa n) := by
  unfold State.hostRead
  split
  · exact h
  · split
    · extract_lets t
      have ht : MemOk t := by
        unfold t
        split
        · exact refuse_memOk h
        · exact h
      exact answer_memOk ht _
    · split
      · exact h
      · exact answer_memOk (hostBytes_memOk h _) _

theorem hsemWrite_memOk {s : State} (h : MemOk s) (port : Bool) (v : Word) : MemOk (s.hsemWrite port v) := by
  grind [State.hsemWrite, memOk_iff]

theorem registerWrite_memOk {s : State} (h : MemOk s) (port : Bool) (off : Nat) (v : Word) :
    MemOk (s.registerWrite port off v) := by
  unfold State.registerWrite
  split
  · exact h
  · split
    · split
      · exact h
      · exact refuse_memOk h
    · exact h
    · exact h

theorem overflowQuota_memOk {s : State} (h : MemOk s) (port : Bool) (mib : Nat) :
    MemOk (s.overflowQuota port mib) := by
  grind [State.overflowQuota, refuse_memOk, memOk_iff]

theorem scrub_memOk {s : State} (h : MemOk s) : MemOk s.scrub := by
  grind [State.scrub, State.choose, State.draw, foldl_memOk, setMark_memOk, setWord_memOk, wrote_memOk, memOk_iff]

theorem powerTick_memOk {s : State} (h : MemOk s) (watts hot : Nat) : MemOk (s.powerTick watts hot) := by
  grind [State.powerTick, memOk_iff]

theorem packageReset_memOk (s : State) : MemOk s.packageReset := memOk_of_eq reset_memOk rfl rfl rfl

theorem powerOff_memOk (s : State) : MemOk s.powerOff := packageReset_memOk s

theorem startFirmware_memOk {s : State} (h : MemOk s) : MemOk s.startFirmware := by
  grind [State.startFirmware, foldl_memOk, setTag_memOk, memOk_iff]

theorem firmwareImage_memOk {s : State} (h : MemOk s) : MemOk s.firmwareImage := by
  grind [State.firmwareImage, startFirmware_memOk, memOk_iff]

theorem attest_memOk {s : State} (h : MemOk s) (nonce : List Byte) : MemOk (s.attest nonce) := by
  grind [State.attest, answer_memOk, memOk_iff]

/-! Debugging (20) -/

theorem addCap_memOk {s : State} (h : MemOk s) (e : Nat) (c : Cap) : MemOk (s.addCap e c) := by
  grind [State.addCap, memOk_iff]

theorem delegate_memOk {s : State} (h : MemOk s) (who parent : Nat) (rights : BitVec 6) (holder : Nat) :
    MemOk (s.delegate who parent rights holder) := by
  grind [State.delegate, addCap_memOk, refuse_memOk, memOk_iff]

theorem unstop_memOk {s : State} (h : MemOk s) (p : Ctx → Bool) (step : Bool) : MemOk (s.unstop p step) := by
  grind [State.unstop, onCtx_memOk, restore_memOk, memOk_iff]

theorem releaseStop_memOk {s : State} (h : MemOk s) : MemOk s.releaseStop := by
  grind [State.releaseStop, memOk_iff]

theorem revokeEntry_memOk {s : State} (h : MemOk s) (entry : Nat) : MemOk (s.revokeEntry entry) := by
  grind [State.revokeEntry, onCtx_memOk, traceOut_memOk, unstop_memOk, memOk_iff]

theorem rootEntry_memOk {s : State} (h : MemOk s) (asid holder : Nat) : MemOk (s.rootEntry asid holder) := by
  grind [State.rootEntry, addCap_memOk, refuse_memOk, revokeEntry_memOk, memOk_iff]

theorem revoke_memOk {s : State} (h : MemOk s) (who entry : Nat) : MemOk (s.revoke who entry) := by
  grind [State.revoke, refuse_memOk, revokeEntry_memOk, memOk_iff]

theorem stopBefore_memOk {s : State} (h : MemOk s) (sub : Nat) : MemOk (s.stopBefore sub) := by
  grind [State.stopBefore, stopHere_memOk, memOk_iff]

theorem stopRequest_memOk {s : State} (h : MemOk s) (who : Nat) : MemOk (s.stopRequest who) := by
  grind [State.stopRequest, refuse_memOk, stopBefore_memOk, memOk_iff]

theorem breakpointSet_memOk {s : State} (h : MemOk s) (who slot : Nat) (addr : Option Nat) :
    MemOk (s.breakpointSet who slot addr) := by
  grind [State.breakpointSet, refuse_memOk, releaseStop_memOk, memOk_iff]

theorem breakStop_memOk {s : State} (h : MemOk s) : MemOk s.breakStop := by
  grind [State.breakStop, stopBefore_memOk, memOk_iff]

theorem stepStop_memOk {s : State} (h : MemOk s) : MemOk s.stepStop := by
  grind [State.stepStop, stopBefore_memOk, memOk_iff]

theorem resume_memOk {s : State} (h : MemOk s) (who : Nat) (step : Bool) : MemOk (s.resume who step) := by
  grind [State.resume, refuse_memOk, releaseStop_memOk, unstop_memOk, memOk_iff]

theorem forwardRecords_memOk {s : State} (h : MemOk s) (who n : Nat) : MemOk (s.forwardRecords who n) := by
  grind [State.forwardRecords, answer_memOk, foldl_memOk, traceOut_memOk, memOk_iff]

theorem debugRead_memOk {s : State} (h : MemOk s) (who off n : Nat) : MemOk (s.debugRead who off n) := by
  unfold State.debugRead
  extract_lets a
  split
  · exact h
  · split
    · exact forwardRecords_memOk h _ _
    · split
      · split
        · exact answer_memOk h _
        · exact refuse_memOk h
      · split
        · exact refuse_memOk h
        · split
          · split
            · next l _ => exact answer_memOk (hostBytes_memOk h l) _
            · exact refuse_memOk h
          · split
            · exact refuse_memOk h
            · next c _ =>
              have ht : MemOk (if s.inBank c then s.spillWords c (s.bankOfCtx c) else ([], s)).2 := by
                split
                · exact spillWords_memOk h c _
                · exact h
              generalize (if s.inBank c then s.spillWords c (s.bankOfCtx c) else ([], s)) = t at ht ⊢
              exact memOk_of_eq ht rfl rfl rfl

theorem setAt_memOk {s : State} (h : MemOk s) (ls : List Nat) (bs : List Byte) : MemOk (s.setAt ls bs) := by
  induction ls generalizing s bs with
  | nil => exact h
  | cons l ls ih =>
    cases bs with
    | nil => exact h
    | cons b bs => exact ih (setByte_memOk h l b) bs

theorem killIn_memOk {s : State} (h : MemOk s) (c : Ctx) : MemOk (s.killIn c) := by
  grind [State.killIn, endShadow_memOk, endTask_memOk, releaseStop_memOk, memOk_iff]

theorem writeStopped_memOk {s : State} (h : MemOk s) (c : Ctx) (o : Nat) (data : List Byte) :
    MemOk (s.writeStopped c o data) := by
  unfold State.writeStopped
  split
  · extract_lets w t
    have ht : MemOk t := onOwner_memOk h _ _
    split
    · exact killIn_memOk ht c
    · exact ht
  · split
    · exact wrote_memOk (setAt_memOk h _ _) _ _ _
    · exact refuse_memOk h

theorem debugWrite_memOk {s : State} (h : MemOk s) (who off : Nat) (data : List Byte) :
    MemOk (s.debugWrite who off data) := by
  unfold State.debugWrite
  extract_lets a
  split
  · exact h
  · split
    · exact refuse_memOk h
    · split
      · split
        · exact wrote_memOk (setAt_memOk h _ _) _ _ _
        · exact refuse_memOk h
      · split
        · exact refuse_memOk h
        · split
          · exact refuse_memOk h
          · exact writeStopped_memOk h _ _ _

theorem sessionOpen_memOk {s : State} (h : MemOk s) (who kind k : Nat) : MemOk (s.sessionOpen who kind k) := by
  grind [State.sessionOpen, refuse_memOk, memOk_iff]

/-! Parked accesses -/

theorem retry_memOk {s : State} (h : MemOk s) (w : Waiter) : MemOk (s.retry w) := by
  grind [State.retry, beat_memOk, copySegment_memOk, groupPass_memOk, loadReturn_memOk, remotePerform_memOk,
    shuttleComplete_memOk, writePerform_memOk, memOk_iff]

theorem parkedWake_memOk {s : State} (h : MemOk s) (word : Nat) : MemOk (s.parkedWake word) := by
  grind [State.parkedWake, retry_memOk, memOk_iff]

end Sys2Proof.CanonicalProofs

/-! ### Memory stays canonical: every step -/

namespace Sys2Proof.CanonicalProofs

open Sys2Proof Sys2Proof.Machine Sys2Proof.Safety Sys2Proof.Laws

-- One proof after another: elaborated side by side, the many short proofs take a thread and its stack each.
set_option Elab.async false

theorem memOk_ite {c : Prop} [Decidable c] {s t : State} (hs : MemOk s) (ht : MemOk t) :
    MemOk (if c then s else t) := by
  split
  · exact hs
  · exact ht

theorem memOk_of_next {x t : State} (h : MemOk x) (he : (.next x : Out) = .next t) : MemOk t := by
  cases he; exact h

theorem execAckReturn_memOk {s t : State} (h : MemOk s) {id : Nat} (he : execAckReturn id s = .next t) :
    MemOk t := by
  unfold execAckReturn at he
  split at he
  · exact memOk_of_next h he
  · exact memOk_of_next (memOk_ite (collAnswered_memOk (ackReturn_memOk h id) _) (ackReturn_memOk h id)) he

theorem execNoRouteDrop_memOk {s t : State} (h : MemOk s) {id : Nat} (he : execNoRouteDrop id s = .next t) :
    MemOk t := by
  unfold execNoRouteDrop at he
  split at he
  · exact memOk_of_next (dropNoRoute_memOk h _) he
  · exact memOk_of_next h he

theorem execHsemWrite_memOk {s t : State} (h : MemOk s) {port : Bool} {v : Word}
    (he : execHsemWrite port v s = .next t) : MemOk t := by
  unfold execHsemWrite at he
  split at he
  · refine memOk_of_next (memOk_ite (hsemWrite_memOk (hsemWrite_memOk ?_ _ _) _ _) (hsemWrite_memOk ?_ _ _)) he
    · exact h
    · exact h
  · exact memOk_of_next (hsemWrite_memOk h _ _) he

theorem execPackageReset_memOk {s t : State} (h : MemOk s) (he : execPackageReset s = .next t) : MemOk t := by
  refine memOk_of_next (memOk_ite (packageReset_memOk s) ?_) he
  split
  · exact memOk_ite (packageReset_memOk _) (refuse_memOk h)
  · exact packageReset_memOk s

theorem exec_own_memOk {i : Instr} (hw : wordOf i = none) {s t : State} (h : MemOk s) (he : exec i s = .next t) :
    MemOk t := by
  cases i <;> cases hw
  case loadDataReturn => exact memOk_of_next (loadReturn_memOk h _) he
  case writeEntryBegin => exact memOk_of_next (writeBegin_memOk h _) he
  case writePerform => exact memOk_of_next (writePerform_memOk h _) he
  case parkedAccessWake => exact memOk_of_next (parkedWake_memOk h _) he
  case streamGroupPass => exact memOk_of_next (groupPass_memOk h _) he
  case shuttleCommandStart => exact memOk_of_next (shuttleStart_memOk h) he
  case beat => exact memOk_of_next (beat_memOk h) he
  case shuttleCommandComplete => exact memOk_of_next (shuttleComplete_memOk h) he
  case copyCommandStart => exact memOk_of_next (copyStart_memOk (pumpX_memOk h 8) _) he
  case copySegmentWrite => exact memOk_of_next (copySegment_memOk h _) he
  case copyPause => exact memOk_of_next (copyPause_memOk h _) he
  case copyResume => exact memOk_of_next (copyResume_memOk h _) he
  case copyComplete => exact memOk_of_next (copyComplete_memOk h _) he
  case hbmServiceStart => exact memOk_of_next (hbmService_memOk h _ _) he
  case bankIdleClose => exact memOk_of_next (bankIdleClose_memOk h _ _) he
  case refreshDue => exact memOk_of_next (refreshDue_memOk h _) he
  case allBankRefreshStart => exact memOk_of_next (allBankStart_memOk h _) he
  case bankRefreshEnd => exact memOk_of_next (bankRefreshEnd_memOk h _ _) he
  case allBankRefreshEnd => exact memOk_of_next (allBankEnd_memOk h _) he
  case sharedTlbLookup => exact memOk_of_next (sharedLookup_memOk h) he
  case tableRead => exact memOk_of_next (tableRead_memOk h) he
  case faultFreeze => exact memOk_of_next (faultFreeze_memOk h) he
  case faultResolve => exact memOk_of_next (faultResolve_memOk h _) he
  case tlbinvComplete => exact memOk_of_next (tlbinvComplete_memOk h) he
  case trapDelivery => exact memOk_of_next (trapDelivery_memOk h) he
  case interrupt => exact memOk_of_next (interrupt_memOk h) he
  case contextSwitch => exact memOk_of_next (contextSwitch_memOk h) he
  case spill => exact memOk_of_next (spill_memOk h) he
  case spillComplete => exact memOk_of_next (spillComplete_memOk h) he
  case emergencySpill => exact memOk_of_next (emergencySpill_memOk h) he
  case fill => exact memOk_of_next (fill_memOk h _) he
  case fillComplete => exact memOk_of_next (fillComplete_memOk h) he
  case postTake => exact memOk_of_next (postTake_memOk h) he
  case imageLoad => exact memOk_of_next (imageLoad_memOk h _) he
  case imageLoadComplete => exact memOk_of_next (imageLoadComplete_memOk h _) he
  case nodeFinish => exact memOk_of_next (nodeFinish_memOk h _) he
  case taskPlacement => exact memOk_of_next (taskPlacement_memOk h) he
  case claimant => exact memOk_of_next (makeClaimant_memOk h _) he
  case taskStart => exact memOk_of_next (taskStart_memOk h) he
  case victimChoice => exact memOk_of_next (victimChoice_memOk h) he
  case yieldRequest => exact memOk_of_next (yieldRequest_memOk h) he
  case yieldWindowExpiry => exact memOk_of_next (yieldExpiry_memOk h) he
  case yieldRequestWithdraw => exact memOk_of_next (yieldWithdraw_memOk h) he
  case prefetch => exact memOk_of_next (prefetch_memOk h) he
  case taskEnd => exact memOk_of_next (taskEnd_memOk h _ _) he
  case arrivalCounted => exact memOk_of_next (arrivalCounted_memOk h _ _) he
  case barrierDelivery => exact memOk_of_next (barrierDelivery_memOk h _) he
  case combineLineExpiry => exact memOk_of_next (lineExpiry_memOk h _) he
  case arbitration => exact memOk_of_next (arbitration_memOk h _) he
  case reorderAccept => exact memOk_of_next (reorderAccept_memOk h _) he
  case remotePerform => exact memOk_of_next (remotePerform_memOk h _) he
  case ackReturn => exact execAckReturn_memOk h he
  case remoteReply => exact memOk_of_next (remoteReply_memOk h _) he
  case withdrawalArrival => exact memOk_of_next (withdrawalArrival_memOk h _) he
  case noRouteDrop => exact execNoRouteDrop_memOk h he
  case tsendDeparture => exact memOk_of_next (tsendDeparture_memOk h _) he
  case tsendComplete => exact memOk_of_next (pumpX_memOk (tsendComplete_memOk h _) 8) he
  case pieceDeparture => exact memOk_of_next (collSettle_memOk (pieceDeparture_memOk h _ _ _) _) he
  case deferralResend => exact memOk_of_next (collSettle_memOk (deferralResend_memOk h _) _) he
  case postEntry => exact memOk_of_next (pumpX_memOk (postEntry_memOk (issueDue_memOk h) _) 8) he
  case collectiveComplete => exact memOk_of_next (collComplete_memOk h _) he
  case collectiveTimeout => exact memOk_of_next (collTimeout_memOk (issueDue_memOk h) _) he
  case hoopPostArrival => exact memOk_of_next (hoopPostArrival_memOk (issueDue_memOk h) _ _ _) he
  case ticketArrival => exact memOk_of_next (ticketArrival_memOk (issueDue_memOk h) _) he
  case admission => exact memOk_of_next (admission_memOk (issueDue_memOk h)) he
  case orderNotice => exact memOk_of_next (orderNotice_memOk (issueDue_memOk h) _) he
  case pieceArrival => exact memOk_of_next (collSettle_memOk (pieceArrival_memOk h _) _) he
  case abortNotice => exact memOk_of_next (abortNotice_memOk (issueDue_memOk h) _ _) he
  case hoopWithdrawal => exact memOk_of_next (hoopWithdrawal_memOk (issueDue_memOk h) _ _) he
  case hbmArrival => exact memOk_of_next (hbmArrival_memOk h _ _) he
  case wsRefreshWindowStart => exact memOk_of_next (wsWindowStart_memOk h _) he
  case wsRefreshWindowEnd => exact memOk_of_next (wsWindowEnd_memOk h _) he
  case linkDown => exact memOk_of_next (linkDown_memOk h _) he
  case routeTableLoad => exact memOk_of_next (asked_memOk h fun _ ht => loadRoute_memOk ht _ _) he
  case rankTableWrite => exact memOk_of_next (asked_memOk h fun _ ht => rankWrite_memOk ht _ _ _) he
  case mailboxWrite => exact memOk_of_next (mailboxWrite_memOk h _ _) he
  case resourceReport => exact memOk_of_next (resourceReport_memOk h _ _) he
  case uncorrectableError => exact memOk_of_next (setMark_memOk h _ _) he
  case timeService =>
    exact memOk_of_next (memOk_ite (timeService_memOk h _) (asked_memOk h fun _ ht => setTime_memOk ht _)) he
  case hostWrite => exact memOk_of_next (hostWrite_memOk h _ _ _) he
  case hostRead => exact memOk_of_next (hostRead_memOk (lateWrites_memOk h) _ _ _) he
  case hsemWrite => exact execHsemWrite_memOk h he
  case hsemRelease => exact memOk_of_next (x := { s with host := { s.host with hsem := 0 } }) h he
  case registerWrite => exact memOk_of_next (registerWrite_memOk h _ _ _) he
  case powerTick => exact memOk_of_next (memOk_ite (scrub_memOk (powerTick_memOk h _ _)) (powerTick_memOk h _ _)) he
  case thermalPowerOff => exact memOk_of_next (powerOff_memOk s) he
  case packageReset => exact execPackageReset_memOk h he
  case firmwareImage => exact memOk_of_next (firmwareImage_memOk h) he
  case watchdog => exact memOk_of_next (memOk_ite (packageReset_memOk s) h) he
  case attestation => exact memOk_of_next (attest_memOk h _) he
  case identityRead => exact memOk_of_next (memOk_ite (answer_memOk h _) h) he
  case delegate => exact memOk_of_next (delegate_memOk h _ _ _ _) he
  case revoke => exact memOk_of_next (revoke_memOk h _ _) he
  case stopRequest => exact memOk_of_next (stopRequest_memOk h _) he
  case breakpoint => exact memOk_of_next (breakStop_memOk h) he
  case singleStepStop => exact memOk_of_next (stepStop_memOk h) he
  case resume => exact memOk_of_next (resume_memOk h _ _) he
  case debugRead => exact memOk_of_next (debugRead_memOk h _ _ _) he
  case debugWrite => exact memOk_of_next (debugWrite_memOk h _ _ _) he
  case sample => exact memOk_of_next (sample_memOk (recharge_memOk h) _) he
  case chargeRecord => exact memOk_of_next (chargeRecord_memOk h) he
  case partitionEviction => exact memOk_of_next (evict_memOk h _) he
  case partitionRestore => exact memOk_of_next (restorePartition_memOk h _) he
  case breakpointSet => exact memOk_of_next (breakpointSet_memOk h _ _ _) he
  case sessionOpen => exact memOk_of_next (sessionOpen_memOk h _ _ _) he
  case rootEntry => exact memOk_of_next (asked_memOk h fun _ ht => rootEntry_memOk ht _ _) he
  case overflowQuota => exact memOk_of_next (overflowQuota_memOk h _ _) he
  case migration => exact memOk_of_next (migrate_memOk h _) he

theorem exec_memOk {i : Instr} {s t : State} (h : MemOk s) (he : exec i s = .next t) : MemOk t := by
  cases hw : wordOf i with
  | none => exact exec_own_memOk hw h he
  | some w =>
    have keeps := wordOf_keeps hw
    rw [exec_word hw] at he
    have hpop : MemOk (s.popLq w.pops) := memOk_of_eq h rfl rfl rfl
    exact memOk_of_next (issueWord_memOk h (fun _ => keeps.effect hpop) (fun _ => keeps.onStall h)) he

theorem memOk_withCtl {s : State} (h : MemOk s) (c : Ctl) : MemOk { s with ctl := c } := h

theorem memOk_withAgenda {s : State} (h : MemOk s) (l : List Instr) : MemOk { s with agenda := l } := h

theorem memOk_withStalled {s : State} (h : MemOk s) (b : Bool) : MemOk { s with stalled := b } := h

theorem idle_memOk {s : State} (h : MemOk s) : MemOk s.idle :=
  memOk_withCtl (cycleEnd_memOk (stallCycle_memOk h)) _

theorem andThen_memOk {o : Out} (ho : ∀ t, o = .next t → MemOk t) {f : State → State}
    (hf : ∀ {s}, MemOk s → MemOk (f s)) {t : State} (he : andThen o f = .next t) : MemOk t := by
  cases o with
  | next u => exact memOk_of_next (hf (ho u rfl)) he
  | fault r => cases he
  | refused r => cases he

theorem issueBundle_memOk {s t : State} (h : MemOk s) {run : List (Option IWord)} (he : s.issueBundle run = .next t) :
    MemOk t := by
  unfold State.issueBundle at he
  extract_lets ws s1 at he
  have h1 : MemOk s1 := enterBundle_memOk h ws
  clear_value s1 ws
  split at he
  · exact memOk_of_next (finish_memOk (trapIssue_memOk h1 _)) he
  · split at he
    · split at he
      · exact andThen_memOk (fun _ => exec_memOk h1) finish_memOk he
      · exact memOk_of_next (idle_memOk h1) he
    · exact memOk_of_next (finish_memOk (issueMany_memOk h1 fun _ => bundleSpecs_keeps)) he

theorem holdIssue_memOk {s : State} (h : MemOk s) (run : List (Option IWord)) : MemOk (s.holdIssue run) := by
  unfold State.holdIssue
  extract_lets ws s1
  have h1 : MemOk s1 := enterBundle_memOk h ws
  split
  · exact finish_memOk (trapIssue_memOk h1 _)
  · exact idle_memOk (memOk_ite (countLqWait_memOk h1) h1)

theorem issue_memOk {s t : State} (h : MemOk s) (he : s.issue = .next t) : MemOk t := by
  unfold State.issue at he
  split at he
  · exact issueBundle_memOk h he
  · split at he
    · exact memOk_of_next (idle_memOk h) he
    · split at he
      · exact memOk_of_next (yieldExpiry_memOk h) he
      · split at he
        · exact memOk_of_next (stepStop_memOk h) he
        · split at he
          · exact memOk_of_next (breakStop_memOk h) he
          · split at he
            · exact memOk_of_next (idle_memOk (leaveSource_memOk h)) he
            · exact memOk_of_next (holdIssue_memOk h _) he

/-- Settles O7: the reset memory lists nothing. -/
theorem resetMemoryCanonical : Obligations.ResetMemoryCanonical := reset_memOk

/-- Settles O8: a step runs one instruction or one cycle of the core, and what each of them calls keeps the form. -/
theorem stepKeepsMemoryCanonical : Obligations.StepKeepsMemoryCanonical := by
  intro s t h he
  unfold step at he
  split at he
  · split at he
    · exact exec_memOk (memOk_withAgenda h _) he
    · exact memOk_of_next (memOk_withAgenda h _) he
  · split at he
    · cases he
    · split at he
      · split at he
        · exact exec_memOk (memOk_withStalled h _) he
        · exact issue_memOk h he
      · exact issue_memOk h he

end Sys2Proof.CanonicalProofs

/-! ### Loads, stores, tag operations and atomics enter their queues (06 R103, R106, R112 to R120) -/

namespace Sys2Proof.AccessProofs

open Sys2Proof Sys2Proof.Machine Sys2Proof.Safety Sys2Proof.Laws

/-! What an access word does, for every word of the A pipe at once -/

/-- What an access word's kind is, with its operands. -/
def kindOf (o : AccOp) (s : State) (v : List Reg) : AccKind := o.kind (o.valueOf s v).val (o.secondOf s).val

/-- No operand of an access word is poisoned. -/
structure Clean (o : AccOp) (s : State) (v : List Reg) : Prop where
  value : (o.valueOf s v).poison = false
  second : (o.secondOf s).poison = false
  base : (o.baseOf s v).poison = false

/-- A place of this package: a scratchpad, the weight store, or global memory whose page the micro-TLB holds. -/
def LandsAt (o : AccOp) (s : State) (v : List Reg) (loc : Nat) : Prop :=
  o.located s v = .ok (.near loc) ∨ o.located s v = .ok (.weights loc)
    ∨ o.located s v = .ok .global ∧ s.microLoc (o.ea s v) (kindOf o s v).isWrite = some loc

theorem checkAccess_tagWrite_ne_global (s : State) (a : Word) (n : Nat) :
    s.checkAccess a n .tagWrite ≠ .ok .global := by
  unfold State.checkAccess
  repeat' split
  all_goals simp_all

/-- An access that goes to a location lands there, and nothing holds it. -/
theorem landsAt_of_goes {o : AccOp} {s : State} {v : List Reg} {loc : Nat}
    (h : Goes s (o.ea s v) o.align o.sort o.cls loc)
    (hw : o.sort = .tagWrite ∨ o.sort.writes = (kindOf o s v).isWrite) :
    LandsAt o s v loc ∧ s.heldNear o.cls.toNat loc = false := by
  rcases h with ⟨hnear | hweights, hheld⟩ | ⟨hglobal, hheld, t, ht, hloc⟩
  · exact ⟨.inl hnear, hheld⟩
  · exact ⟨.inr (.inl hweights), hheld⟩
  · refine ⟨.inr (.inr ⟨hglobal, ?_⟩), hheld⟩
    rcases hw with hw | hw
    · rw [hw] at hglobal
      exact absurd hglobal (checkAccess_tagWrite_ne_global s _ _)
    · rw [State.microLoc, ← hw, ht, hloc]
      rfl

theorem trap_of_landsAt {o : AccOp} {s : State} {v : List Reg} {loc : Nat} (hl : LandsAt o s v loc) :
    (o.located s v).trap = none := by
  rcases hl with h | h | ⟨h, -⟩ <;> rw [h] <;> rfl

theorem check_of_clean {o : AccOp} {s : State} {v : List Reg} {loc : Nat} (hc : Clean o s v)
    (hl : LandsAt o s v loc) : o.check s v = none := by
  unfold AccOp.check
  simp only [firstOf, State.poisonCheck, hc.value, hc.second, hc.base, trap_of_landsAt hl]
  cases o.value <;> cases o.second <;> simp

theorem writeFull_of_room {s : State} {a : Acc} (h : a.kind.isWrite = true → writesQueued s < 16) (t : List Nat) :
    AccOp.writeFull s a t = false := by
  unfold AccOp.writeFull
  cases hk : a.kind.isWrite
  · rfl
  · have hroom : s.writesFull = false := by simpa [State.writesFull, writesQueued] using h hk
    simp [hroom]

/-- An access word that goes to a place of this package does not stall where its queues have room. -/
theorem stall_of_room {o : AccOp} {s : State} {v : List Reg} {loc n : Nat} (hf : s.fenced = false)
    (hlq : (kindOf o s v).needsLq = true → s.cx.lq.length - n < 32)
    (hwq : (kindOf o s v).isWrite = true → writesQueued s < 16)
    (hl : LandsAt o s v loc) (hh : s.heldNear o.cls.toNat loc = false) : o.stall s v n = false := by
  have hq : ((kindOf o s v).needsLq && decide (32 ≤ s.cx.lq.length - n)) = false := by
    cases hk : (kindOf o s v).needsLq
    · rfl
    · simpa using hlq hk
  have hfull : ∀ t, AccOp.writeFull s (o.entry s (kindOf o s v) loc) t = false := writeFull_of_room hwq
  unfold AccOp.stall
  unfold kindOf at hq hfull
  rcases hl with h | h | ⟨h, hm⟩
  · simp [h, hf, hq, hfull, hh]
  · simp [h, hf, hq, hfull, hh]
  · unfold kindOf at hm
    simp [h, hm, hf, hq, hfull, hh]

/-- The state in which an access enters its queue: its operands popped, its entry of `lq` reserved, no fence left. -/
def reserved (s : State) (n : Nat) (k : AccKind) : State :=
  { s with
    nextId := s.nextId + 1
    cx := { s.cx with
      fences := [], drains := []
      lq := s.cx.lq.drop n ++ (if k.needsLq then [{ id := s.nextId }] else []) } }

/-- The state in which an access word takes its identifier: its operands popped and no fence left. -/
def cleared (s : State) (n : Nat) : State :=
  { s with nextId := s.nextId + 1, cx := { s.cx with fences := [], drains := [], lq := s.cx.lq.drop n } }

/-- The entry of an access word, before it is told what it waits for. -/
def rawEntry (o : AccOp) (s : State) (v : List Reg) (loc : Nat) : Acc :=
  { id := s.nextId, kind := kindOf o s v, cls := o.cls.toNat, addr := o.ea s v, loc := loc, size := szBytes o.sz
    lq := if (kindOf o s v).needsLq then some s.nextId else none, ldc := o.ldc }

theorem asid_setSpecial (s : State) (n : Nat) (v : Word) (priv : Bool) :
    (s.setSpecial n v priv).cx.asid = if priv = true ∧ n = 0x101 then keep v 0 12 else s.cx.asid := by
  unfold State.setSpecial
  split <;> cases priv <;> simp_all [State.setMc]

/-- Two states give `asid` one value where its stored value and the results on their way to it are the same. -/
theorem asidNow_congr {s t : State} (hv : t.cx.visible (1000 + 0x101) = s.cx.visible (1000 + 0x101))
    (ha : t.cx.asid = s.cx.asid) : t.specialNow 0x101 = s.specialNow 0x101 := by
  have hafter : ∀ w, (t.applyWrite w).cx.asid = (s.applyWrite w).cx.asid := by
    intro w
    cases w with
    | special n v priv =>
      exact (asid_setSpecial t n v priv).trans (by rw [ha]; exact (asid_setSpecial s n v priv).symm)
    | count d n => cases n <;> exact ha
    | _ => exact ha
  unfold State.specialNow
  rw [hv]
  split
  · exact hafter _
  · exact ha

theorem microLoc_reserved (s : State) (n : Nat) (k : AccKind) (a : Word) (w : Bool) :
    (reserved s n k).microLoc a w = s.microLoc a w := by
  have hasid : (reserved s n k).specialNow 0x101 = s.specialNow 0x101 := asidNow_congr rfl rfl
  unfold State.microLoc
  rw [hasid]
  rfl

theorem globalAccess_of_hit {s : State} {a : Acc} {loc : Nat} (h : s.microLoc a.addr a.kind.isWrite = some loc)
    {taint : List Nat} {lds : Bool} : s.globalAccess a taint lds = s.enqueue { a with loc := loc } taint := by
  unfold State.globalAccess
  dsimp only
  rw [h]

/-- The effect of an access that lands: the operands are popped, `lq` is reserved, and the entry is queued. -/
theorem effect_of_landsAt {o : AccOp} {s : State} {v : List Reg} {loc n : Nat} (hc : Clean o s v)
    (hl : LandsAt o s v loc) :
    o.effect (s.popLq n) v
      = (reserved s n (kindOf o s v)).enqueue (rawEntry o s v loc) (o.baseOf s v).taint := by
  have hok : (o.lds && ((o.baseOf s v).poison || (o.located s v).trap.isSome)) = false := by
    rw [hc.base, trap_of_landsAt hl]
    exact Bool.and_false _
  have hres : (if (kindOf o s v).needsLq then (cleared s n).reserveLq s.nextId none else cleared s n)
      = reserved s n (kindOf o s v) := by
    cases h : (kindOf o s v).needsLq <;> simp [reserved, cleared, State.reserveLq, h]
  unfold AccOp.effect
  refine (if_neg (by rw [Bool.not_eq_true]; exact hok)).trans ?_
  dsimp only
  split
  case h_1 h' => rcases hl with h | h | ⟨h, -⟩ <;> cases h.symm.trans h'
  case h_5 h' => rcases hl with h | h | ⟨h, -⟩ <;> cases h.symm.trans h'
  case h_2 h' =>
    rcases hl with h | h | ⟨h, -⟩ <;> cases h.symm.trans h'
    exact congrArg (fun t : State => t.enqueue _ _) hres
  case h_3 h' =>
    rcases hl with h | h | ⟨h, -⟩ <;> cases h.symm.trans h'
    exact congrArg (fun t : State => t.enqueue _ _) hres
  case h_4 h' =>
    rcases hl with h | h | ⟨-, h⟩
    · cases h.symm.trans h'
    · cases h.symm.trans h'
    · refine (congrArg (fun t : State => t.globalAccess _ _ _) hres).trans (globalAccess_of_hit ?_)
      exact (microLoc_reserved s n _ _ _).trans h

/-! Entering the queue -/

theorem mergeTarget_reserved (s : State) (n : Nat) (k : AccKind) (a : Acc) (t : List Nat) :
    (reserved s n k).mergeTarget a t = s.mergeTarget a t := rfl

theorem accDeps_reserved (s : State) (n : Nat) (k : AccKind) (a : Acc) (t : List Nat) :
    (reserved s n k).accDeps a t = s.accDeps a t := rfl

/-- An access that joins no entry adds its own. -/
theorem enqueue_of_noTarget {o : AccOp} {s : State} {v : List Reg} {loc n : Nat} {t : List Nat}
    (h : s.mergeTarget (rawEntry o s v loc) t = none) :
    (reserved s n (kindOf o s v)).enqueue (rawEntry o s v loc) t
      = Entered s n { entryOf s (kindOf o s v) o.cls (o.ea s v) loc o.sz t with ldc := o.ldc } := by
  unfold State.enqueue
  rw [mergeTarget_reserved, h, accDeps_reserved]
  unfold Entered reserved entryOf rawEntry
  cases (kindOf o s v).needsLq <;> simp [State.accDeps, szBytes]

/-- What an access word needs to enter its queue: unpoisoned operands, a place that it goes to, and room. -/
structure Admits (s : State) (o : AccOp) (v : List Reg) (loc : Nat) : Prop where
  popped : Popped s o.pops v
  clean : Clean o s v
  fenced : s.fenced = false
  lqRoom : (kindOf o s v).needsLq = true → s.cx.lq.length - o.pops < 32
  writeRoom : (kindOf o s v).isWrite = true → writesQueued s < 16
  goes : Goes s (o.ea s v) o.align o.sort o.cls loc
  sort : o.sort = .tagWrite ∨ o.sort.writes = (kindOf o s v).isWrite

theorem exec_of_admits {i : Instr} {s : State} {o : AccOp} {v : List Reg} {loc : Nat}
    (hi : wordOf i = some (accWord o)) (h : Admits s o v loc) :
    exec i s = .next
      ((reserved s o.pops (kindOf o s v)).enqueue (rawEntry o s v loc) (o.baseOf s v).taint) := by
  obtain ⟨hl, hheld⟩ := landsAt_of_goes h.goes h.sort
  rw [exec_word hi, issueWord_effect (w := accWord o) rfl h.popped
    (stall_of_room h.fenced h.lqRoom h.writeRoom hl hheld) (check_of_clean h.clean hl)]
  exact congrArg Host.Outcome.next (effect_of_landsAt h.clean hl)

/-- An access that joins no entry enters its queue. -/
theorem exec_enters {i : Instr} {s : State} {o : AccOp} {v : List Reg} {loc : Nat}
    (hi : wordOf i = some (accWord o)) (h : Admits s o v loc)
    (hn : s.mergeTarget (rawEntry o s v loc) (o.baseOf s v).taint = none) :
    exec i s = .next (Entered s o.pops
      { entryOf s (kindOf o s v) o.cls (o.ea s v) loc o.sz (o.baseOf s v).taint with ldc := o.ldc }) := by
  rw [exec_of_admits hi h, enqueue_of_noTarget hn]

/-- Only an atomic that may merge joins an entry. -/
theorem mergeTarget_of_not_mergeable {s : State} {a : Acc} (h : a.kind.mergeable = false) (t : List Nat) :
    s.mergeTarget a t = none := by
  unfold State.mergeTarget
  split
  · simp [Acc.openTo, h]
  · rfl

/-! A failing `LDS` -/

/-- An `LDS` fails: its base is poisoned or its address is refused. -/
def Fails (o : AccOp) (s : State) (v : List Reg) : Prop :=
  o.lds = true ∧ ((o.baseOf s v).poison = true ∨ ∃ c x, o.located s v = .bad c x)

theorem stall_of_fails {o : AccOp} {s : State} {v : List Reg} {n : Nat} (h : Fails o s v) (hf : s.fenced = false)
    (hlq : s.cx.lq.length - n < 32) : o.stall s v n = false := by
  have hroom : ¬ 32 ≤ s.cx.lq.length - n := Nat.not_le.mpr hlq
  unfold AccOp.stall
  obtain ⟨hlds, hpoison | ⟨c, x, hbad⟩⟩ := h
  · simp [hf, hroom, hlds, hpoison]
  · simp [hf, hroom, hbad]

theorem effect_of_fails {o : AccOp} {s : State} {v : List Reg} {n : Nat} (h : Fails o s v) :
    o.effect (s.popLq n) v =
      { s with
        nextId := s.nextId + 1, fv := s.fv + 1
        cx := { s.cx with
          fences := [], drains := []
          lq := s.cx.lq.drop n ++ [⟨s.nextId, some { val := Config.freeWord s.fv, poison := true }⟩] } } := by
  have hfails : (o.lds && ((o.baseOf s v).poison || (o.located s v).trap.isSome)) = true := by
    obtain ⟨hlds, hpoison | ⟨c, x, hbad⟩⟩ := h
    · rw [hlds, hpoison]; rfl
    · rw [hlds, hbad]; exact Bool.or_true _
  unfold AccOp.effect
  exact (if_pos hfails).trans rfl

/-! The words -/

theorem load_enters {s : State} {base : SReg} {cls : BitVec 4} {sz : BitVec 2} {off : BitVec 8} {v : List Reg}
    {loc : Nat} {m : TagMode} {lds ldc : Bool} {i : Instr}
    (hi : wordOf i = some (accWord { loadOp base cls sz off m with lds := lds, ldc := ldc }))
    (hp : Popped s (pops2 0 base) v) (hf : s.fenced = false) (hlq : s.cx.lq.length - pops2 0 base < 32)
    (hc : (s.src base v 0).poison = false)
    (hg : Goes s ((s.src base v 0).val + BitVec.ofInt 64 (off.toInt * 2 ^ sz.toNat)) (2 ^ sz.toNat)
      (loadOp base cls sz off m).sort cls loc) :
    exec i s = .next (Entered s (pops2 0 base)
      { entryOf s (.read m) cls ((s.src base v 0).val + BitVec.ofInt 64 (off.toInt * 2 ^ sz.toNat)) loc sz
          (s.src base v 0).taint with ldc := ldc }) := by
  have h : Admits s { loadOp base cls sz off m with lds := lds, ldc := ldc } v loc :=
    { popped := hp, clean := ⟨rfl, rfl, hc⟩, fenced := hf, lqRoom := fun _ => hlq
      writeRoom := fun h => by cases h
      goes := hg
      sort := by cases m <;> simp [loadOp, AccessSort.writes, kindOf, AccKind.isWrite] }
  exact exec_enters hi h (mergeTarget_of_not_mergeable rfl _)

theorem store_enters {s : State} {x base : SReg} {cls : BitVec 4} {sz : BitVec 2} {off : Int} {v : List Reg}
    {loc : Nat} {m : TagMode} {sort : AccessSort} {i : Instr}
    (hi : wordOf i = some (accWord (storeOp x base cls sz off m sort)))
    (hs : sort = .tagWrite ∨ sort.writes = true)
    (hf : s.fenced = false) (hw : writesQueued s < 16) (hp : Popped s (pops2 x base) v)
    (hx : (s.src x v 0).poison = false) (hb : (s.src2 x base v).poison = false)
    (hg : Goes s ((s.src2 x base v).val + BitVec.ofInt 64 (off * 2 ^ sz.toNat)) (2 ^ sz.toNat) sort cls loc) :
    exec i s = .next (Entered s (pops2 x base)
      (entryOf s (.write m (bytesOfNat (2 ^ sz.toNat) (s.src x v 0).val.toNat)) cls
        ((s.src2 x base v).val + BitVec.ofInt 64 (off * 2 ^ sz.toNat)) loc sz (s.src2 x base v).taint)) := by
  have h : Admits s (storeOp x base cls sz off m sort) v loc :=
    { popped := hp, clean := ⟨hx, rfl, hb⟩, fenced := hf, lqRoom := fun h => by cases h
      writeRoom := fun _ => hw, goes := hg, sort := hs }
  exact exec_enters hi h (mergeTarget_of_not_mergeable rfl _)

theorem tag_enters {s : State} {base : SReg} {cls : BitVec 4} {sz : BitVec 2} {off : BitVec 5} {v : List Reg}
    {loc : Nat} {k : AccKind} {sort : AccessSort} {i : Instr}
    (hi : wordOf i = some (accWord (tagOp base cls sz off sort k)))
    (hs : sort = .tagWrite ∨ sort.writes = k.isWrite) (hk : k.mergeable = false)
    (hf : s.fenced = false) (hw : writesQueued s < 16) (hlq : s.cx.lq.length - pops2 0 base < 32)
    (hp : Popped s (pops2 0 base) v) (hc : (s.src base v 0).poison = false)
    (hg : Goes s ((s.src base v 0).val + BitVec.ofInt 64 (off.toInt * 2 ^ sz.toNat)) 1 sort cls loc) :
    exec i s = .next (Entered s (pops2 0 base)
      (entryOf s k cls ((s.src base v 0).val + BitVec.ofInt 64 (off.toInt * 2 ^ sz.toNat)) loc sz
        (s.src base v 0).taint)) := by
  have h : Admits s (tagOp base cls sz off sort k) v loc :=
    { popped := hp, clean := ⟨rfl, rfl, hc⟩, fenced := hf, lqRoom := fun _ => hlq
      writeRoom := fun _ => hw, goes := hg, sort := hs }
  exact exec_enters hi h (mergeTarget_of_not_mergeable hk _)

/-- Settles O31: every word enters its queue by `exec_enters`, and a failing `LDS` returns at once. -/
theorem loadsAndStoresEnterTheQueue : Obligations.LoadsAndStoresEnterTheQueue := by
  refine ⟨fun s base cls sz off v loc hp hf hlq => ⟨fun hc => ⟨fun hg => ⟨?_, ?_, ?_⟩, fun hg => ?_, fun hg => ?_⟩, ?_⟩,
    fun s x base cls sz o8 o5 v loc hf hw => ⟨fun hp hx hb => ⟨fun hg => ?_, fun hg => ⟨?_, ?_⟩⟩,
      fun hp hc hlq => ⟨fun hg => ⟨?_, ?_⟩, fun hg => ?_⟩⟩⟩
  · exact load_enters (m := .keep) (lds := false) (ldc := false) rfl hp hf hlq hc hg
  · exact load_enters (m := .keep) (lds := true) (ldc := false) rfl hp hf hlq hc hg
  · exact load_enters (m := .keep) (lds := false) (ldc := true) rfl hp hf hlq hc hg
  · exact load_enters (m := .wait) (lds := false) (ldc := false) rfl hp hf hlq hc hg
  · exact load_enters (m := .take) (lds := false) (ldc := false) rfl hp hf hlq hc hg
  · intro hbad
    have hfails : Fails { loadOp base cls sz off .keep with lds := true } s v := ⟨rfl, hbad⟩
    rw [exec_word (w := ldsWord base cls sz off) rfl,
      issueWord_effect (w := ldsWord base cls sz off) rfl hp (stall_of_fails hfails hf hlq) rfl]
    exact congrArg Host.Outcome.next (effect_of_fails hfails)
  · exact store_enters rfl (.inr rfl) hf hw hp hx hb hg
  · exact store_enters rfl (.inl rfl) hf hw hp hx hb hg
  · exact store_enters rfl (.inl rfl) hf hw hp hx hb hg
  · exact tag_enters rfl (.inl rfl) rfl hf hw hlq hp hc hg
  · exact tag_enters rfl (.inl rfl) rfl hf hw hlq hp hc hg
  · exact tag_enters rfl (.inr rfl) rfl hf hw hlq hp hc hg

/-! Atomics -/

theorem ea_atomOp (op : Nat) (x base : SReg) (cls : BitVec 4) (sz : BitVec 2) (f : BitVec 1) (second : Option SReg)
    (s : State) (v : List Reg) : (atomOp op x base cls sz f second).ea s v = (s.src2 x base v).val := by
  change (s.src2 x base v).val + BitVec.ofInt 64 (0 * 2 ^ sz.toNat) = _
  rw [Int.zero_mul]
  exact BitVec.add_zero _

section
variable {s : State} {x base : SReg} {cls : BitVec 4} {sz : BitVec 2} {f : BitVec 1} {v : List Reg} {loc op : Nat}
  {second : Option SReg} {i : Instr}

theorem atom_admits (hp : Popped s (pops2 x base) v) (hf : s.fenced = false)
    (hw : writesQueued s < 16) (hlq : s.cx.lq.length - pops2 x base < 32) (hx : (s.src x v 0).poison = false)
    (hb : (s.src2 x base v).poison = false) (h2 : ((atomOp op x base cls sz f second).secondOf s).poison = false)
    (hg : Goes s (s.src2 x base v).val (2 ^ sz.toNat) .atomic cls loc) :
    Admits s (atomOp op x base cls sz f second) v loc where
  popped := hp
  clean := ⟨hx, h2, hb⟩
  fenced := hf
  lqRoom := fun _ => hlq
  writeRoom := fun _ => hw
  goes := by rw [ea_atomOp]; exact hg
  sort := .inr rfl

theorem atom_enters (hi : wordOf i = some (accWord (atomOp op x base cls sz f second)))
    (h : Admits s (atomOp op x base cls sz f second) v loc)
    (hn : s.mergeTarget (rawEntry (atomOp op x base cls sz f second) s v loc) (s.src2 x base v).taint = none) :
    exec i s = .next (Entered s (pops2 x base)
      (entryOf s (.atom op (s.src x v 0).val ((atomOp op x base cls sz f second).secondOf s).val (f == 1)) cls
        (s.src2 x base v).val loc sz (s.src2 x base v).taint)) := by
  rw [exec_enters hi h hn, ea_atomOp]
  rfl

/-- Operations from 8 on never merge. -/
theorem mergeTarget_of_lateOp (h : 7 < op) (t : List Nat) :
    s.mergeTarget (rawEntry (atomOp op x base cls sz f second) s v loc) t = none :=
  mergeTarget_of_not_mergeable (by simp [rawEntry, kindOf, atomOp, AccKind.mergeable, Nat.not_le.mpr h]) t

/-- Where no entry of its class and line is open, an atomic joins none (06 R120). -/
theorem mergeTarget_of_noneOpen (h : f = 1 ∨ ∀ b ∈ s.cx.accs, b.kind.mergeable = true →
      b.begun = true ∨ b.opened + 4 ≤ s.cyc ∨ b.win ≠ none ∨ b.cls ≠ cls.toNat ∨ b.loc / 64 ≠ loc / 64)
    (t : List Nat) : s.mergeTarget (rawEntry (atomOp op x base cls sz f second) s v loc) t = none := by
  rcases h with rfl | h
  · exact mergeTarget_of_not_mergeable rfl t
  · unfold State.mergeTarget
    split
    · next b hb =>
      have hmem : b ∈ s.cx.accs := List.mem_of_mem_filter (List.mem_of_getLast? hb)
      have hclosed : b.openTo (rawEntry (atomOp op x base cls sz f second) s v loc) s.cyc = false := by
        rw [Bool.eq_false_iff]
        intro hopen
        simp only [Acc.openTo, Acc.onLine, rawEntry, atomOp, Bool.and_eq_true, beq_iff_eq, decide_eq_true_eq,
          Bool.not_eq_true'] at hopen
        obtain ⟨⟨⟨⟨⟨⟨⟨-, hm⟩, -⟩, -⟩, hcls⟩, ⟨hwin, -⟩, hline⟩, hbegun⟩, hopened⟩ := hopen
        rcases h b hmem hm with h | h | h | h | h
        · rw [h] at hbegun; cases hbegun
        · omega
        · exact h hwin
        · exact h hcls
        · exact h hline
      rw [hclosed]
      rfl
    · rfl

/-! Atomics that merge -/

/-- The state in which an atomic has joined an entry, which becomes b1 (06 R120). -/
def Joined (s : State) (n : Nat) (b b1 : Acc) : State :=
  { s with
    nextId := s.nextId + 1
    cx := { s.cx with
      fences := [], drains := [], lq := s.cx.lq.drop n
      accs := s.cx.accs.map (fun c => if c.id = b.id then { b1 with joined := b.joined ++ [s.nextId] } else c) } }

/-- The last entry that closes a line, where it is open to an atomic that waits for nothing more, is the one that the
atomic joins. -/
theorem mergeTarget_of_open {b : Acc} {y : Word} (hop : op ≤ 7)
    (hlast : (s.cx.accs.filter (fun c => c.kind.closes && c.win.isNone && c.rank == 0
        && c.loc / 64 == loc / 64)).getLast? = some b)
    (hkind : b.kind = .atom op y 0 false) (hcls : b.cls = cls.toNat) (hsize : b.size = 2 ^ sz.toNat)
    (hbegun : b.begun = false) (hopened : s.cyc < b.opened + 4) {t : List Nat}
    (hdeps : ∀ d ∈ s.orderDeps cls.toNat loc t, d < s.nextId → d = b.id ∨ d ∈ b.deps ∨ s.outstanding d = false) :
    s.mergeTarget (rawEntry (atomOp op x base cls sz 0 none) s v loc) t = some b := by
  have hsame : (fun c : Acc => c.kind.closes && c.onLine (rawEntry (atomOp op x base cls sz 0 none) s v loc))
      = fun c => c.kind.closes && c.win.isNone && c.rank == 0 && c.loc / 64 == loc / 64 := by
    funext c
    cases hwin : c.win <;> simp [Acc.onLine, rawEntry, hwin, Bool.and_assoc]
  have hb := (List.mem_filter.mp (List.mem_of_getLast? hlast)).2
  simp only [Bool.and_eq_true, beq_iff_eq, Option.isNone_iff_eq_none] at hb
  obtain ⟨⟨⟨-, hwin⟩, hrank⟩, hline⟩ := hb
  have hopen : b.openTo (rawEntry (atomOp op x base cls sz 0 none) s v loc) s.cyc = true := by
    simp [Acc.openTo, Acc.onLine, rawEntry, kindOf, atomOp, AccKind.mergeable, AccKind.op, szBytes, hkind, hcls, hsize,
      hbegun, hopened, hwin, hrank, hline, hop]
  have hnothing : (s.accDeps (rawEntry (atomOp op x base cls sz 0 none) s v loc) t).all
      (fun d => d == b.id || b.deps.contains d || !s.outstanding d) = true := by
    rw [List.all_eq_true]
    intro d hd
    obtain ⟨hmem, hlt⟩ := List.mem_filter.mp hd
    have := hdeps d hmem (of_decide_eq_true hlt)
    simpa [or_assoc] using this
  unfold State.mergeTarget
  rw [hsame, hlast]
  dsimp only
  rw [hopen, hnothing]
  rfl

theorem joined_merge (b a : Acc) : (b.merge a).joined = b.joined ++ [a.id] := by
  unfold Acc.merge
  dsimp only
  split
  · split <;> rfl
  · rfl

theorem atom_joins {b : Acc} (hi : wordOf i = some (accWord (atomOp op x base cls sz 0 none)))
    (h : Admits s (atomOp op x base cls sz 0 none) v loc)
    (hb : s.mergeTarget (rawEntry (atomOp op x base cls sz 0 none) s v loc) (s.src2 x base v).taint = some b) :
    exec i s = .next (Joined s (pops2 x base) b (b.merge (rawEntry (atomOp op x base cls sz 0 none) s v loc))) := by
  have hjoined : (b.merge (rawEntry (atomOp op x base cls sz 0 none) s v loc)).joined = b.joined ++ [s.nextId] :=
    joined_merge b _
  rw [exec_of_admits hi h]
  unfold State.enqueue
  rw [mergeTarget_reserved]
  have hb' : s.mergeTarget (rawEntry (atomOp op x base cls sz 0 none) s v loc)
      ((atomOp op x base cls sz 0 none).baseOf s v).taint = some b := hb
  rw [hb']
  unfold Joined
  rw [← hjoined]
  have hpops : (atomOp op x base cls sz 0 none).pops = pops2 x base := rfl
  rw [hpops]
  simp [reserved, kindOf, atomOp, AccKind.needsLq]

end

/-! The entry that an atomic has joined -/

theorem merge_sameWord {a b : Acc} {op : Nat} {y : Word} (hk : b.kind = .atom op y 0 false) (hloc : b.loc = a.loc) :
    b.merge a =
      { b with
        joined := b.joined ++ [a.id]
        kind := .atom op (mkWord (atomNew op (8 * a.size) (y.toNat % 2 ^ (8 * a.size))
          (a.kind.operand.toNat % 2 ^ (8 * a.size)) 0)) 0 false } := by
  simp only [Acc.merge, hk, if_pos hloc]

theorem merge_otherWord {a b : Acc} {op : Nat} {y : Word} (hk : b.kind = .atom op y 0 false) (hloc : b.loc ≠ a.loc) :
    b.merge a =
      { b with
        joined := b.joined ++ [a.id]
        merged := mergeOperand op (8 * a.size) a.loc a.kind.operand b.merged } := by
  simp only [Acc.merge, hk, if_neg hloc]

theorem mergeOperand_new (op n : Nat) {loc : Nat} (v : Word) {l : List (Nat × Word)} (h : ∀ m ∈ l, m.1 ≠ loc) :
    mergeOperand op n loc v l = l ++ [(loc, v)] := by
  induction l with
  | nil => rfl
  | cons m t ih =>
    rw [mergeOperand, if_neg (h m List.mem_cons_self), ih fun x hx => h x (List.mem_cons_of_mem _ hx)]
    rfl

theorem mergeOperand_held (op n : Nat) {loc : Nat} (v z : Word) {l1 l2 : List (Nat × Word)}
    (h : ∀ m ∈ l1, m.1 ≠ loc) :
    mergeOperand op n loc v (l1 ++ (loc, z) :: l2)
      = l1 ++ (loc, mkWord (atomNew op n (z.toNat % 2 ^ n) (v.toNat % 2 ^ n) 0)) :: l2 := by
  induction l1 with
  | nil => exact if_pos rfl
  | cons m t ih =>
    rw [List.cons_append, mergeOperand, if_neg (h m List.mem_cons_self),
      ih fun x hx => h x (List.mem_cons_of_mem _ hx)]
    rfl

/-! Operands that are combined -/

/-- A code of n bits as a signed number. -/
theorem intOfCode_signed {n m : Nat} (hm : m < 2 ^ n) :
    intOfCode true n m = if m < 2 ^ (n - 1) then (m : Int) else (m : Int) - 2 ^ n := by
  rw [intOfCode, Nat.mod_eq_of_lt hm]
  by_cases h : m < 2 ^ (n - 1)
  · simp [h, Nat.not_le.mpr h]
  · simp [h, Nat.not_lt.mp h]

theorem signedPick_min {n p q : Nat} (hp : p < 2 ^ n) (hq : q < 2 ^ n) :
    signedPick n false p q
      = if (if q < 2 ^ (n - 1) then (q : Int) else (q : Int) - 2 ^ n)
          < (if p < 2 ^ (n - 1) then (p : Int) else (p : Int) - 2 ^ n) then q else p := by
  rw [← intOfCode_signed hp, ← intOfCode_signed hq]
  simp [signedPick]

theorem signedPick_max {n p q : Nat} (hp : p < 2 ^ n) (hq : q < 2 ^ n) :
    signedPick n true p q
      = if (if p < 2 ^ (n - 1) then (p : Int) else (p : Int) - 2 ^ n)
          < (if q < 2 ^ (n - 1) then (q : Int) else (q : Int) - 2 ^ n) then q else p := by
  rw [← intOfCode_signed hp, ← intOfCode_signed hq]
  simp [signedPick]

section
variable {s : State} {x base : SReg} {cls : BitVec 4} {sz : BitVec 2} {v : List Reg} {loc op : Nat} {i : Instr}

/-- The three ways in which an atomic joins an entry (06 R120), where its operation on n bits is known. -/
theorem atom_combines {b : Acc} {y : Word} {both : Nat → Nat → Nat}
    (hi : wordOf i = some (accWord (atomOp op x base cls sz 0 none)))
    (h : Admits s (atomOp op x base cls sz 0 none) v loc)
    (hb : s.mergeTarget (rawEntry (atomOp op x base cls sz 0 none) s v loc) (s.src2 x base v).taint = some b)
    (hk : b.kind = .atom op y 0 false)
    (hboth : ∀ p q, p < 2 ^ (8 * 2 ^ sz.toNat) → q < 2 ^ (8 * 2 ^ sz.toNat) →
      atomNew op (8 * 2 ^ sz.toNat) p q 0 = both p q) :
    let n := 8 * 2 ^ sz.toNat
    let own := (s.src x v 0).val
    let with_ := fun (z : Word) => mkWord (both (z.toNat % 2 ^ n) (own.toNat % 2 ^ n))
    (b.loc = loc → exec i s = .next (Joined s (pops2 x base) b { b with kind := .atom op (with_ y) 0 false }))
    ∧ (b.loc ≠ loc → (∀ m ∈ b.merged, m.1 ≠ loc) →
        exec i s = .next (Joined s (pops2 x base) b { b with merged := b.merged ++ [(loc, own)] }))
    ∧ ∀ (l1 l2 : List (Nat × Word)) (z : Word), b.loc ≠ loc → (∀ m ∈ l1, m.1 ≠ loc) →
        b.merged = l1 ++ (loc, z) :: l2 →
        exec i s = .next (Joined s (pops2 x base) b { b with merged := l1 ++ (loc, with_ z) :: l2 }) := by
  intro n own with_
  have hnew : ∀ z : Word, mkWord (atomNew op n (z.toNat % 2 ^ n) (own.toNat % 2 ^ n) 0) = with_ z := fun z =>
    congrArg mkWord (hboth _ _ (Nat.mod_lt _ (Nat.two_pow_pos _)) (Nat.mod_lt _ (Nat.two_pow_pos _)))
  rw [atom_joins hi h hb]
  refine ⟨fun hloc => ?_, fun hloc hfresh => ?_, fun l1 l2 z hloc hfresh hm => ?_⟩
  · rw [merge_sameWord hk hloc, ← hnew]
    rfl
  · rw [merge_otherWord hk hloc]
    exact congrArg (fun l => Host.Outcome.next (Joined s (pops2 x base) b { b with merged := l }))
      (mergeOperand_new op n own hfresh)
  · rw [merge_otherWord hk hloc, hm]
    rw [← hnew]
    exact congrArg (fun l => Host.Outcome.next (Joined s (pops2 x base) b { b with merged := l }))
      (mergeOperand_held op n own z hfresh)

end

/-- Settles O32: an atomic enters by `atom_enters`, or joins the open entry of its line by `atom_combines`. -/
theorem atomicsEnterTheQueue : Obligations.AtomicsEnterTheQueue := by
  intro s x base cls sz f v loc hp hf hw hlq hx hb hg put
  have admits := fun (op : Nat) (g : BitVec 1) =>
    atom_admits (op := op) (f := g) (second := none) hp hf hw hlq hx hb rfl hg
  refine ⟨fun hopen => ?_, ?_, ?_, fun h2 => ?_, ?_⟩
  · have enters := fun (op : Nat) (i : Instr) (hi : wordOf i = some (accWord (atomOp op x base cls sz f none))) =>
      atom_enters hi (admits op f) (mergeTarget_of_noneOpen hopen _)
    exact ⟨enters 0 _ rfl, enters 1 _ rfl, enters 2 _ rfl, enters 3 _ rfl, enters 4 _ rfl, enters 5 _ rfl,
      enters 6 _ rfl, enters 7 _ rfl⟩
  · exact atom_enters (op := 8) rfl (admits 8 f) (mergeTarget_of_lateOp (by omega) _)
  · exact atom_enters (op := 9) rfl (admits 9 f) (mergeTarget_of_lateOp (by omega) _)
  · exact atom_enters (op := 10) (second := some (x + 1)) rfl (atom_admits hp hf hw hlq hx hb h2 hg)
      (mergeTarget_of_lateOp (by omega) _)
  · intro op i b y hmem hlast hk hcls hsize hbegun hopened hdeps n int both own joined with_
    have hword : op ≤ 7 ∧ wordOf i = some (accWord (atomOp op x base cls sz 0 none))
        ∧ ∀ p q, p < 2 ^ n → q < 2 ^ n → atomNew op n p q 0 = both p q := by
      simp only [List.mem_cons, Prod.mk.injEq, List.not_mem_nil, or_false] at hmem
      rcases hmem with ⟨rfl, rfl⟩ | ⟨rfl, rfl⟩ | ⟨rfl, rfl⟩ | ⟨rfl, rfl⟩ | ⟨rfl, rfl⟩ | ⟨rfl, rfl⟩ | ⟨rfl, rfl⟩
        | ⟨rfl, rfl⟩
      · exact ⟨by omega, rfl, fun _ _ _ _ => rfl⟩
      · exact ⟨by omega, rfl, fun _ _ hp hq => signedPick_min hp hq⟩
      · exact ⟨by omega, rfl, fun _ _ hp hq => signedPick_max hp hq⟩
      · exact ⟨by omega, rfl, fun _ _ _ _ => rfl⟩
      · exact ⟨by omega, rfl, fun _ _ _ _ => rfl⟩
      · exact ⟨by omega, rfl, fun _ _ _ _ => rfl⟩
      · exact ⟨by omega, rfl, fun _ _ _ _ => rfl⟩
      · exact ⟨by omega, rfl, fun _ _ _ _ => rfl⟩
    obtain ⟨hop, hi, hboth⟩ := hword
    exact atom_combines hi (admits op 0) (mergeTarget_of_open hop hlast hk hcls hsize hbegun hopened hdeps) hk hboth

end Sys2Proof.AccessProofs

/-! ### Addresses: where they point and what their checks raise (02 R13 to R16; 06 R106, R111; 16 R253) -/

namespace Sys2Proof.AddressProofs

open Sys2Proof Sys2Proof.Machine Sys2Proof.Safety Sys2Proof.Laws

/-! Where an address points (02 R13 to R16; 16 R253) -/

section
variable {s : State} {a : Word} {n : Nat} {k : AccessSort}

theorem checkAccess_misaligned (h : a.toNat % n ≠ 0) : s.checkAccess a n k = .bad 6 a := by
  unfold State.checkAccess
  rw [if_pos (bne_iff_ne.mpr h)]

/-- An aligned address is refused as its decoding is. -/
theorem checkAccess_bad (h : a.toNat % n = 0) {c : Nat} {x : Word} (hl : s.locate a = .bad c x) :
    s.checkAccess a n k = .bad c x := by
  simp [State.checkAccess, h, hl]

theorem checkAccess_global (h : a.toNat % n = 0) (hl : s.locate a = .ok .global) :
    s.checkAccess a n k = if k = .tagRead ∨ k = .tagWrite then .bad 6 a else .ok .global := by
  cases k <;> simp [State.checkAccess, h, hl]

theorem checkAccess_near (h : a.toNat % n = 0) {loc : Nat} (hl : s.locate a = .ok (.near loc)) :
    s.checkAccess a n k = if s.granted loc then .ok (.near loc) else .bad 7 a := by
  simp [State.checkAccess, h, hl]

theorem checkAccess_weights (h : a.toNat % n = 0) {loc : Nat} (hl : s.locate a = .ok (.weights loc)) :
    s.checkAccess a n k = if k = .read then .ok (.weights loc) else .bad 7 a := by
  simp [State.checkAccess, h, hl]

theorem checkAccess_window (h : a.toNat % n = 0) {w rank loc : Nat} (hl : s.locate a = .ok (.window w rank loc)) :
    s.checkAccess a n k
      = if rankKind (s.rankEntry rank) = 2 ∧ k ≠ .store then .bad 6 a else .ok (.window w rank loc) := by
  simp [State.checkAccess, h, hl]

/-! Decoding -/

theorem locate_reserved (h : 2 ^ 57 ≤ a.toNat) : s.locate a = .bad 6 a := by
  have hbits : bitsOf a 57 7 ≠ 0 := by
    have := a.isLt
    simp only [bitsOf]
    omega
  rw [State.locate, if_pos (bne_iff_ne.mpr hbits)]

theorem bitsOf_high_zero (h : a.toNat < 2 ^ 57) : bitsOf a 57 7 = 0 := by
  simp only [bitsOf]
  omega

theorem isNear_eq (a : Word) : isNear a = decide (a.toNat / 2 ^ 56 % 2 = 1) := by
  rw [isNear, BitVec.getLsbD, Nat.testBit_eq_decide_div_mod_eq]

theorem locate_global (h : a.toNat < 2 ^ 56) : s.locate a = .ok .global := by
  have hfar : isNear a = false := by
    rw [isNear_eq]
    exact decide_eq_false (by omega)
  rw [State.locate, bitsOf_high_zero (by omega), hfar]
  rfl

/-- A field of a number that lies below a multiple of a power of two. -/
theorem field_add_mul {m o lo len w : Nat} (h : lo + len ≤ w) :
    (m * 2 ^ w + o) / 2 ^ lo % 2 ^ len = o / 2 ^ lo % 2 ^ len := by
  obtain ⟨d, rfl⟩ := Nat.exists_eq_add_of_le h
  have hsplit : m * 2 ^ (lo + len + d) + o = 2 ^ lo * (2 ^ len * (m * 2 ^ d)) + o := by ring
  rw [hsplit, Nat.mul_add_div (Nat.two_pow_pos lo), Nat.mul_add_mod]

/-- An address of near space: its region, and the fields of its offset there. -/
theorem locate_near {r o : Nat} (hr : r < 16) (ho : o < 2 ^ 52) (ha : a.toNat = 2 ^ 56 + r * 2 ^ 52 + o) :
    s.locate a = s.locateNear a ∧ bitsOf a 52 4 = r
      ∧ ∀ lo len, lo + len ≤ 52 → bitsOf a lo len = o / 2 ^ lo % 2 ^ len := by
  have hnear : isNear a = true := by
    rw [isNear_eq]
    exact decide_eq_true (by omega)
  refine ⟨?_, ?_, fun lo len hlen => ?_⟩
  · rw [State.locate, bitsOf_high_zero (by omega), hnear]
    rfl
  · simp only [bitsOf]
    omega
  · have hsplit : a.toNat = (16 + r) * 2 ^ 52 + o := by omega
    rw [bitsOf, hsplit, field_add_mul hlen]

theorem locate_own {o : Nat} (ho : o < 2 ^ 52) (ha : a.toNat = 2 ^ 56 + o) :
    s.locate a = if o < 2 ^ 21 then .ok (.near (coreLoc s.pkgid s.coreUnit o)) else .bad 6 a := by
  obtain ⟨hl, hr, hf⟩ := locate_near (s := s) (a := a) (r := 0) (by omega) ho (by omega)
  rw [hl]
  simp only [State.locateNear, hr]
  rw [hf 21 31 (by omega), hf 0 21 (by omega)]
  by_cases hsmall : o < 2 ^ 21
  · rw [if_neg (by simp; omega), if_pos hsmall, show o / 2 ^ 0 % 2 ^ 21 = o by omega]
  · rw [if_pos (by simp; omega), if_neg hsmall]

theorem locate_quad {o : Nat} (ho : o < 2 ^ 52) (ha : a.toNat = 2 ^ 56 + 2 ^ 52 + o) :
    s.locate a = if s.core.control = false ∧ o < 2 ^ 23 then .ok (.near (quadLoc s.pkgid (s.coreid / 4) o))
      else .bad 6 a := by
  obtain ⟨hl, hr, hf⟩ := locate_near (s := s) (a := a) (r := 1) (by omega) ho (by omega)
  rw [hl]
  simp only [State.locateNear, hr]
  rw [hf 23 29 (by omega), hf 0 23 (by omega)]
  rw [show o / 2 ^ 0 % 2 ^ 23 = o % 2 ^ 23 by omega]
  cases hc : s.core.control
  · by_cases hsmall : o < 2 ^ 23
    · rw [if_neg (by simp; omega), if_pos ⟨rfl, hsmall⟩, Nat.mod_eq_of_lt hsmall]
    · rw [if_pos (by simp; omega), if_neg fun h => hsmall h.2]
  · rw [Bool.or_true, if_pos rfl, if_neg nofun]
theorem locate_weights {o : Nat} (ho : o < 2 ^ 52) (ha : a.toNat = 2 ^ 56 + 2 * 2 ^ 52 + o) :
    s.locate a = if s.core.control = false ∧ o < 2 ^ 28 then .ok (.weights (wsLoc s.pkgid (s.coreid / 24) o))
      else .bad 6 a := by
  obtain ⟨hl, hr, hf⟩ := locate_near (s := s) (a := a) (r := 2) (by omega) ho (by omega)
  rw [hl]
  simp only [State.locateNear, hr]
  rw [hf 28 24 (by omega), hf 0 28 (by omega)]
  rw [show o / 2 ^ 0 % 2 ^ 28 = o % 2 ^ 28 by omega]
  cases hc : s.core.control
  · by_cases hsmall : o < 2 ^ 28
    · rw [if_neg (by simp; omega), if_pos ⟨rfl, hsmall⟩, Nat.mod_eq_of_lt hsmall]
    · rw [if_pos (by simp; omega), if_neg fun h => hsmall h.2]
  · rw [Bool.or_true, if_pos rfl, if_neg nofun]
/-- Regions 0x4 to 0x7 are reserved. -/
theorem locate_unused {r o : Nat} (hlow : 4 ≤ r) (hhigh : r < 8) (ho : o < 2 ^ 52)
    (ha : a.toNat = 2 ^ 56 + r * 2 ^ 52 + o) : s.locate a = .bad 6 a := by
  obtain ⟨hl, hr, -⟩ := locate_near (s := s) (by omega) ho ha
  rw [hl, State.locateNear, hr]
  split
  · omega
  · omega
  · omega
  · omega
  · exact if_pos hhigh

/-- Region 0x3: a scratchpad of any core or quad. -/
theorem locate_die {die quad core kind off : Nat} (hdie : die < 64) (hquad : quad < 8) (hcore : core < 4)
    (hkind : kind < 2) (hoff : off < 2 ^ 40)
    (ha : a.toNat = 2 ^ 56 + 3 * 2 ^ 52 + die * 2 ^ 46 + quad * 2 ^ 43 + core * 2 ^ 41 + kind * 2 ^ 40 + off) :
    s.locate a =
      if 2 ^ 23 ≤ off ∨ 5 < quad then .bad 6 a
      else if kind = 1 then .ok (.near (quadLoc s.pkgid (die * 6 + quad) off))
      else if 2 ^ 21 ≤ off then .bad 6 a
      else .ok (.near (coreLoc s.pkgid (die * 24 + quad * 4 + core) off)) := by
  obtain ⟨hl, hr, hf⟩ := locate_near (s := s) (a := a) (r := 3)
    (o := die * 2 ^ 46 + quad * 2 ^ 43 + core * 2 ^ 41 + kind * 2 ^ 40 + off) (by omega) (by omega) (by omega)
  have hkindBit : a.getLsbD 40 = decide (kind = 1) := by
    rw [BitVec.getLsbD, Nat.testBit_eq_decide_div_mod_eq]
    exact decide_eq_decide.mpr (by omega)
  have hd : bitsOf a 46 6 = die := by rw [hf 46 6 (by omega)]; omega
  have hq : bitsOf a 43 3 = quad := by rw [hf 43 3 (by omega)]; omega
  have hc : bitsOf a 41 2 = core := by rw [hf 41 2 (by omega)]; omega
  have htop : bitsOf a 23 17 = off / 2 ^ 23 := by rw [hf 23 17 (by omega)]; omega
  have hmid : bitsOf a 21 2 = off / 2 ^ 21 % 4 := by rw [hf 21 2 (by omega)]; omega
  have hquadOff : bitsOf a 0 23 = off % 2 ^ 23 := by rw [hf 0 23 (by omega)]; omega
  have hcoreOff : bitsOf a 0 21 = off % 2 ^ 21 := by rw [hf 0 21 (by omega)]; omega
  rw [hl]
  simp only [State.locateNear, hr, hd, hq, hc, htop, hmid, hquadOff, hcoreOff, hkindBit]
  by_cases hbad : 2 ^ 23 ≤ off ∨ 5 < quad
  · rw [if_pos (by simp; omega), if_pos hbad]
  · rw [if_neg (by simp; omega), if_neg hbad]
    by_cases hk : kind = 1
    · rw [if_pos (decide_eq_true hk), if_pos hk, Nat.mod_eq_of_lt (by omega)]
    · rw [if_neg (by simp [hk]), if_neg hk]
      by_cases hbig : 2 ^ 21 ≤ off
      · rw [if_pos (by simp; omega), if_pos hbig]
      · rw [if_neg (by simp; omega), if_neg hbig, Nat.mod_eq_of_lt (by omega)]

/-- A window: the peer's scratchpad, of a rank that is present and not failed. -/
theorem locate_window {w rank peer core off : Nat} (hw : w < 8) (hrank : rank < 2 ^ 14) (hpeer : peer < 2 ^ 4)
    (hcore : core < 2 ^ 11) (hoff : off < 2 ^ 23)
    (ha : a.toNat = 2 ^ 56 + (8 + w) * 2 ^ 52 + rank * 2 ^ 38 + peer * 2 ^ 34 + core * 2 ^ 23 + off) :
    s.locate a =
      if 1 < peer ∨ 1535 < core ∨ (peer = 0 ∧ 2 ^ 21 ≤ off) then .bad 6 a
      else if rankKind (s.rankEntry rank) = 0 ∨ rankKind (s.rankEntry rank) = 3
          ∨ (s.rankEntry rank).getLsbD 21 = true then .bad 6 a
      else .ok (.window w rank (if peer = 0 then coreLoc 0 core off else quadLoc 0 (core / 4) off)) := by
  obtain ⟨hl, hr, hf⟩ := locate_near (s := s) (a := a) (r := 8 + w)
    (o := rank * 2 ^ 38 + peer * 2 ^ 34 + core * 2 ^ 23 + off) (by omega) (by omega) (by omega)
  have hrk : bitsOf a 38 14 = rank := by rw [hf 38 14 (by omega)]; omega
  have hp : bitsOf a 34 4 = peer := by rw [hf 34 4 (by omega)]; omega
  have hc : bitsOf a 23 11 = core := by rw [hf 23 11 (by omega)]; omega
  have hmid : bitsOf a 21 2 = off / 2 ^ 21 := by rw [hf 21 2 (by omega)]; omega
  have hquadOff : bitsOf a 0 23 = off := by rw [hf 0 23 (by omega)]; omega
  have hcoreOff : bitsOf a 0 21 = off % 2 ^ 21 := by rw [hf 0 21 (by omega)]; omega
  rw [hl, State.locateNear, hr, hrk, hp, hc, hmid, hquadOff, hcoreOff]
  split
  · omega
  · omega
  · omega
  · omega
  rw [if_neg (by omega : ¬ 8 + w < 8), Nat.add_sub_cancel_left]
  by_cases hbad : 1 < peer ∨ 1535 < core ∨ (peer = 0 ∧ 2 ^ 21 ≤ off)
  · rw [if_pos (by simp; omega), if_pos hbad]
  · rw [if_neg (by simp; omega), if_neg hbad]
    have habsent : ((rankKind (s.rankEntry rank) == 0 || rankKind (s.rankEntry rank) == 3
          || (s.rankEntry rank).getLsbD 21) = true)
        ↔ (rankKind (s.rankEntry rank) = 0 ∨ rankKind (s.rankEntry rank) = 3
          ∨ (s.rankEntry rank).getLsbD 21 = true) := by
      simp [or_assoc]
    have hloc : (if (peer == 0) = true then coreLoc 0 core (off % 2 ^ 21) else quadLoc 0 (core / 4) off)
        = if peer = 0 then coreLoc 0 core off else quadLoc 0 (core / 4) off := by
      simp only [coreLoc, Nat.mod_mod, beq_iff_eq]
    rw [if_congr habsent rfl rfl, hloc]

/-! What the checks of an aligned address answer -/

theorem checkAccess_own (h : a.toNat % n = 0) (hlo : 2 ^ 56 ≤ a.toNat) (hhi : a.toNat < 2 ^ 56 + 2 ^ 21) :
    s.checkAccess a n k = if s.granted (coreLoc s.pkgid s.coreUnit (a.toNat - 2 ^ 56))
      then .ok (.near (coreLoc s.pkgid s.coreUnit (a.toNat - 2 ^ 56))) else .bad 7 a := by
  refine checkAccess_near h ?_
  rw [locate_own (o := a.toNat - 2 ^ 56) (by omega) (by omega), if_pos (by omega)]

theorem checkAccess_beyondOwn (h : a.toNat % n = 0) (hlo : 2 ^ 56 + 2 ^ 21 ≤ a.toNat)
    (hhi : a.toNat < 2 ^ 56 + 2 ^ 52) : s.checkAccess a n k = .bad 6 a := by
  refine checkAccess_bad h ?_
  rw [locate_own (o := a.toNat - 2 ^ 56) (by omega) (by omega), if_neg (by omega)]

theorem checkAccess_quad (h : a.toNat % n = 0) (hc : s.core.control = false) (hlo : 2 ^ 56 + 2 ^ 52 ≤ a.toNat)
    (hhi : a.toNat < 2 ^ 56 + 2 ^ 52 + 2 ^ 23) :
    s.checkAccess a n k = if s.granted (quadLoc s.pkgid (s.coreid / 4) (a.toNat - 2 ^ 56 - 2 ^ 52))
      then .ok (.near (quadLoc s.pkgid (s.coreid / 4) (a.toNat - 2 ^ 56 - 2 ^ 52))) else .bad 7 a := by
  refine checkAccess_near h ?_
  rw [locate_quad (o := a.toNat - 2 ^ 56 - 2 ^ 52) (by omega) (by omega), if_pos ⟨hc, by omega⟩]

theorem checkAccess_weightStore (h : a.toNat % n = 0) (hc : s.core.control = false)
    (hlo : 2 ^ 56 + 2 ^ 53 ≤ a.toNat) (hhi : a.toNat < 2 ^ 56 + 2 ^ 53 + 2 ^ 28) :
    s.checkAccess a n k = if k = .read
      then .ok (.weights (wsLoc s.pkgid (s.coreid / 24) (a.toNat - 2 ^ 56 - 2 ^ 53))) else .bad 7 a := by
  refine checkAccess_weights h ?_
  rw [locate_weights (o := a.toNat - 2 ^ 56 - 2 ^ 53) (by omega) (by omega), if_pos ⟨hc, by omega⟩]

theorem checkAccess_control (h : a.toNat % n = 0) (hc : s.core.control = true) (hlo : 2 ^ 56 + 2 ^ 52 ≤ a.toNat)
    (hhi : a.toNat < 2 ^ 56 + 3 * 2 ^ 52) : s.checkAccess a n k = .bad 6 a := by
  refine checkAccess_bad h ?_
  by_cases hquad : a.toNat < 2 ^ 56 + 2 * 2 ^ 52
  · rw [locate_quad (o := a.toNat - 2 ^ 56 - 2 ^ 52) (by omega) (by omega), if_neg (by simp [hc])]
  · rw [locate_weights (o := a.toNat - 2 ^ 56 - 2 * 2 ^ 52) (by omega) (by omega), if_neg (by simp [hc])]

theorem checkAccess_beyondQuad (h : a.toNat % n = 0) (hlo : 2 ^ 56 + 2 ^ 52 + 2 ^ 23 ≤ a.toNat)
    (hhi : a.toNat < 2 ^ 56 + 2 * 2 ^ 52) : s.checkAccess a n k = .bad 6 a := by
  refine checkAccess_bad h ?_
  rw [locate_quad (o := a.toNat - 2 ^ 56 - 2 ^ 52) (by omega) (by omega), if_neg (by omega)]

theorem checkAccess_beyondWeights (h : a.toNat % n = 0) (hlo : 2 ^ 56 + 2 * 2 ^ 52 + 2 ^ 28 ≤ a.toNat)
    (hhi : a.toNat < 2 ^ 56 + 3 * 2 ^ 52) : s.checkAccess a n k = .bad 6 a := by
  refine checkAccess_bad h ?_
  rw [locate_weights (o := a.toNat - 2 ^ 56 - 2 * 2 ^ 52) (by omega) (by omega), if_neg (by omega)]

theorem checkAccess_unused (h : a.toNat % n = 0) (hlo : 2 ^ 56 + 4 * 2 ^ 52 ≤ a.toNat)
    (hhi : a.toNat < 2 ^ 56 + 8 * 2 ^ 52) : s.checkAccess a n k = .bad 6 a :=
  checkAccess_bad h (locate_unused (r := (a.toNat - 2 ^ 56) / 2 ^ 52) (o := (a.toNat - 2 ^ 56) % 2 ^ 52)
    (by omega) (by omega) (by omega) (by omega))

theorem checkAccess_ofWindow (h : a.toNat % n = 0) {w rank peer core off : Nat} (hw : w < 8) (hrank : rank < 2 ^ 14)
    (hpeer : peer < 2 ^ 4) (hcore : core < 2 ^ 11) (hoff : off < 2 ^ 23)
    (ha : a.toNat = 2 ^ 56 + (8 + w) * 2 ^ 52 + rank * 2 ^ 38 + peer * 2 ^ 34 + core * 2 ^ 23 + off) :
    s.checkAccess a n k
      = if 1 < peer ∨ 1535 < core ∨ (peer = 0 ∧ 2 ^ 21 ≤ off) then .bad 6 a
        else if rankKind (s.rankEntry rank) = 0 ∨ rankKind (s.rankEntry rank) = 3
            ∨ (s.rankEntry rank).getLsbD 21 = true then .bad 6 a
        else if rankKind (s.rankEntry rank) = 2 ∧ k ≠ .store then .bad 6 a
        else .ok (.window w rank (if peer = 0 then coreLoc 0 core off else quadLoc 0 (core / 4) off)) := by
  have hl := locate_window (s := s) hw hrank hpeer hcore hoff ha
  split at hl
  · next hbad => rw [if_pos hbad, checkAccess_bad h hl]
  · next hok =>
    rw [if_neg hok]
    split at hl
    · next habsent => rw [if_pos habsent, checkAccess_bad h hl]
    · next hthere => rw [if_neg hthere, checkAccess_window h hl]

theorem checkAccess_quadOfDie (h : a.toNat % n = 0) {die quad core off : Nat} (hdie : die < 64) (hquad : quad < 8)
    (hcore : core < 4) (hoff : off < 2 ^ 23)
    (ha : a.toNat = 2 ^ 56 + 3 * 2 ^ 52 + die * 2 ^ 46 + quad * 2 ^ 43 + core * 2 ^ 41 + off + 2 ^ 40) :
    s.checkAccess a n k
      = if 5 < quad then .bad 6 a
        else if s.granted (quadLoc s.pkgid (die * 6 + quad) off)
          then .ok (.near (quadLoc s.pkgid (die * 6 + quad) off))
        else .bad 7 a := by
  have hl := locate_die (s := s) (a := a) (off := off) hdie hquad hcore (kind := 1) (by omega) (by omega) (by omega)
  rw [if_pos rfl] at hl
  split at hl
  · next hbad => rw [if_pos (by omega), checkAccess_bad h hl]
  · next hok => rw [if_neg (by omega), checkAccess_near h hl]

theorem checkAccess_coreOfDie (h : a.toNat % n = 0) {die quad core off : Nat} (hdie : die < 64) (hquad : quad < 8)
    (hcore : core < 4) (hoff : off < 2 ^ 23)
    (ha : a.toNat = 2 ^ 56 + 3 * 2 ^ 52 + die * 2 ^ 46 + quad * 2 ^ 43 + core * 2 ^ 41 + off) :
    s.checkAccess a n k
      = if 5 < quad ∨ 2 ^ 21 ≤ off then .bad 6 a
        else if s.granted (coreLoc s.pkgid (die * 24 + quad * 4 + core) off)
          then .ok (.near (coreLoc s.pkgid (die * 24 + quad * 4 + core) off))
        else .bad 7 a := by
  obtain ⟨kind, hkind⟩ : ∃ kind, kind = 0 := ⟨0, rfl⟩
  have hl := locate_die (s := s) (a := a) (off := off) (kind := kind) hdie hquad hcore (by omega) (by omega)
    (by omega)
  rw [if_neg (by omega : ¬ kind = 1)] at hl
  split at hl
  · next hbad => rw [if_pos (by omega), checkAccess_bad h hl]
  · split at hl
    · next hbig => rw [if_pos (.inr hbig), checkAccess_bad h hl]
    · next hok => rw [if_neg (by omega), checkAccess_near h hl]

end

/-! The causes in their order -/

section
variable {i : Instr} {o : AccOp} {s : State} {v : List Reg}

theorem exec_trap (hi : wordOf i = some (accWord o)) (hp : Popped s o.pops v) (hs : o.stall s v o.pops = false)
    {t : TrapReq} (hc : o.check s v = some t) : exec i s = .next (s.trapIssue t) := by
  rw [exec_word hi, issueWord_trap (w := accWord o) rfl hp hs hc]

theorem poisonCheck_poisoned {r : SReg} {x : Reg} (h : x.poison = true) :
    s.poisonCheck r x = some ⟨5, mkWord (r.toNat + s.widx * 2 ^ 8)⟩ := by
  rw [State.poisonCheck, if_pos h]
  rfl

theorem check_value {r : SReg} (hr : o.value = some r) (h : (o.valueOf s v).poison = true) :
    o.check s v = some ⟨5, mkWord (r.toNat + s.widx * 2 ^ 8)⟩ := by
  rw [AccOp.check, hr]
  simp [firstOf, poisonCheck_poisoned h]

theorem check_second (hv : (o.valueOf s v).poison = false) {r : SReg} (hr : o.second = some r)
    (h : (o.secondOf s).poison = true) : o.check s v = some ⟨5, mkWord (r.toNat + s.widx * 2 ^ 8)⟩ := by
  rw [AccOp.check, hr]
  cases o.value <;> simp [firstOf, ControlProofs.poisonCheck_clean, hv, poisonCheck_poisoned h]

theorem check_base (hv : (o.valueOf s v).poison = false) (h2 : (o.secondOf s).poison = false) (hlds : o.lds = false)
    (h : (o.baseOf s v).poison = true) : o.check s v = some ⟨5, mkWord (o.base.toNat + s.widx * 2 ^ 8)⟩ := by
  rw [AccOp.check, hlds]
  cases o.value <;> cases o.second <;>
    simp [firstOf, ControlProofs.poisonCheck_clean, hv, h2, poisonCheck_poisoned h]

theorem check_located (hv : (o.valueOf s v).poison = false) (h2 : (o.secondOf s).poison = false)
    (hlds : o.lds = false) (hb : (o.baseOf s v).poison = false) {c : Nat} {x : Word} (h : o.located s v = .bad c x) :
    o.check s v = some ⟨c, x⟩ := by
  rw [AccOp.check, hlds, h]
  cases o.value <;> cases o.second <;>
    simp [firstOf, ControlProofs.poisonCheck_clean, hv, h2, hb, Located.trap]

end

/-- Settles O33: one lemma for each range of addresses, and one for each check of an access word. -/
theorem accessCauses : Obligations.AccessCauses := by
  refine ⟨fun s a n k => ⟨checkAccess_misaligned, fun h => ⟨fun ha => checkAccess_bad h (locate_reserved ha),
    fun ha => checkAccess_global h (locate_global ha), checkAccess_own h, checkAccess_beyondOwn h, checkAccess_quad h,
    checkAccess_weightStore h, checkAccess_control h, checkAccess_beyondQuad h, checkAccess_beyondWeights h,
    checkAccess_unused h, ?_, ?_, ?_⟩⟩, ?_⟩
  · intro w rank peer core off hw hrank hpeer hcore hoff ha
    exact checkAccess_ofWindow h hw hrank hpeer hcore hoff ha
  · intro die quad off hdie hquad hlow hhigh kind core hkind hcore ha
    refine checkAccess_bad h ?_
    rw [locate_die hdie hquad hcore hkind hhigh ha, if_pos (.inl hlow)]
  · intro die quad core off hdie hquad hcore hoff
    exact ⟨checkAccess_quadOfDie h hdie hquad hcore hoff, checkAccess_coreOfDie h hdie hquad hcore hoff⟩
  · intro i o s v hi hp hs hlds
    refine ⟨fun r hr h => exec_trap hi hp hs (check_value hr h), fun hv =>
      ⟨fun r hr h => exec_trap hi hp hs (check_second hv hr (by rw [AccOp.secondOf, hr]; exact h)), fun h2 =>
        ⟨fun h => exec_trap hi hp hs (check_base hv h2 hlds h), fun hb c x h =>
          exec_trap hi hp hs (check_located hv h2 hlds hb h)⟩⟩⟩

end Sys2Proof.AddressProofs

/-! ### Whose accesses a stream's regions name at issue (07 R125, R131; 17 R276) -/

namespace Sys2Proof.StreamProofs

open Sys2Proof Sys2Proof.Machine Sys2Proof.Safety Sys2Proof.Laws

/-- Descriptor 0 names the first element of tile 0 in FP32, and nothing is in flight. -/
def oneElement : State :=
  { State.reset with
    cx := { State.reset.cx with
      descs := State.reset.cx.descs.set 0 ⟨0, mkWord (2 ^ 40 + 2 ^ 24 + 2 * 2 ^ 22 + 2 * 2 ^ 16)⟩ } }

/-- The streams of the context that runs after a step. -/
def streamsAfter (o : Out) : List Stream :=
  match o with
  | .next t => t.cx.streams
  | _ => []

theorem usable_oneElement : Usable oneElement [.of 0 .dst 1] := ⟨by decide, by decide⟩

/-- The one stream that `VIOTA` enqueues has number 1, and its region is that of the operation of number 2. -/
theorem actor_viota_oneElement :
    (streamsAfter (exec (.viota 0 0) oneElement)).map (fun t => (t.id, t.dst.bind Region.actor))
      = [(oneElement.nextId, some (oneElement.cx.uid, oneElement.nextId + 1))] := by
  decide

theorem actor_streamRegion (s : State) (fn opt : Nat) (d : DReg) :
    (streamRegion s (.vop fn opt) d).actor = some (s.cx.uid, s.nextId) := by
  unfold streamRegion
  dsimp only
  split <;> rfl

/-- Refutes O35: `enqueueStream` takes the stream's number before it builds the stream, so that its regions are those of
the operation of the number after it, and not the regions that its descriptors name at issue. In `oneElement` the
`VIOTA` of one accumulator element is usable, and the region of its stream is that of operation 2 and not of 1. -/
theorem not_streamsEnqueue : ¬ Obligations.StreamsEnqueue := by
  unfold Obligations.StreamsEnqueue
  intro h
  have hroom : (oneElement.cx.streams.filter (·.vpipe == true)).length < 4 := by decide
  obtain ⟨-, -, -, hiota, -⟩ := h.1 oneElement 0 0 0 0 hroom (by decide)
  obtain ⟨t, hexec, hid, -, -, -, hdst, -⟩ := hiota ⟨rfl, rfl⟩ usable_oneElement
  have hactor := actor_viota_oneElement
  rw [hexec] at hactor
  have hregion : t.dst.bind Region.actor = some (oneElement.cx.uid, oneElement.nextId) := by
    rw [hdst]
    exact actor_streamRegion oneElement 18 0 0
  have hlast : [(t.id, t.dst.bind Region.actor)]
      = [(oneElement.nextId, some (oneElement.cx.uid, oneElement.nextId + 1))] := hactor
  rw [hregion] at hlast
  exact absurd hlast (by simp)

end Sys2Proof.StreamProofs

/-! ### Words on the core's tables (07 R142, R149 to R154; 10 R206) -/

namespace Sys2Proof.TableProofs

open Sys2Proof Sys2Proof.Machine Sys2Proof.Safety Sys2Proof.Laws Sys2Proof.ComputeProofs Sys2Proof.ControlProofs

/-! Fields of a word replaced -/

theorem replaceField_eq_mkWord (w : Word) (lo len f : Nat) :
    w - keep w lo len + mkWord (f * 2 ^ lo)
      = mkWord (w.toNat - w.toNat / 2 ^ lo % 2 ^ len * 2 ^ lo + f * 2 ^ lo) := by
  have hfield : w.toNat / 2 ^ lo % 2 ^ len * 2 ^ lo ≤ w.toNat :=
    (Nat.mul_le_mul_right _ (Nat.mod_le _ _)).trans (Nat.div_mul_le_self _ _)
  have hw := w.isLt
  rw [keep, bitsOf]
  generalize w.toNat / 2 ^ lo % 2 ^ len * 2 ^ lo = m at hfield ⊢
  apply BitVec.eq_of_toNat_eq
  rw [BitVec.toNat_add, BitVec.toNat_sub, toNat_mkWord, toNat_mkWord, toNat_mkWord]
  omega

/-- A word with one field replaced, bit by bit. -/
theorem getLsbD_replaceField (w : Word) (lo len : Nat) {f i : Nat} (hf : f < 2 ^ len) (hi : i < 64) :
    (w - keep w lo len + mkWord (f * 2 ^ lo)).getLsbD i
      = if lo ≤ i ∧ i < lo + len then f.testBit (i - lo) else w.getLsbD i := by
  rw [replaceField_eq_mkWord, getLsbD_mkWord hi, testBit_replace _ _ _ _ hf]
  rfl

theorem bitsOf_replaceField (w : Word) {lo len f : Nat} (hlen : lo + len ≤ 64) (hf : f < 2 ^ len) :
    bitsOf (w - keep w lo len + mkWord (f * 2 ^ lo)) lo len = f := by
  apply Nat.eq_of_testBit_eq
  intro i
  rw [testBit_bitsOf]
  by_cases hi : i < len
  · rw [getLsbD_replaceField w lo len hf (by omega), if_pos (by omega), Nat.add_sub_cancel_left, decide_eq_true hi,
      Bool.true_and]
  · rw [decide_eq_false hi, Bool.false_and]
    exact (Nat.testBit_lt_two_pow (hf.trans_le (Nat.pow_le_pow_right (by decide) (Nat.not_lt.mp hi)))).symm

theorem keep_low (w : Word) (len : Nat) : keep w 0 len = mkWord (w.toNat % 2 ^ len) := by
  rw [keep, bitsOf, Nat.pow_zero, Nat.div_one, Nat.mul_one]

/-! Room in a queue, and words that find none -/

theorem queueFull_of_room {s : State} {vpipe : Bool} (h : (s.cx.streams.filter (·.vpipe == vpipe)).length < 4) :
    s.queueFull vpipe = false := decide_eq_false (Nat.not_le.mpr h)

theorem queueFull_of_noRoom {s : State} {vpipe : Bool} (h : ¬ (s.cx.streams.filter (·.vpipe == vpipe)).length < 4) :
    s.queueFull vpipe = true := decide_eq_true (Nat.not_lt.mp h)

/-- A word that pops nothing and must wait stalls as it stands. -/
theorem exec_stall {i : Instr} {x : WordSpec} {s : State} (hword : wordOf i = some x) (hlegal : x.illop s = false)
    (hpops : x.pops = 0) (hstall : x.stall s [] 0 = true) (hkeeps : x.onStall s [] = s) :
    exec i s = .next { s with ctl := .stalled false } := by
  have hp : Popped s x.pops [] := hpops ▸ popped_zero s
  rw [exec_word hword, issueWord_stall hlegal hp (hpops ▸ hstall), hkeeps, State.stallNow]

/-! Scale entries -/

/-- Results sent one after another change nothing else, and stand in flight in their order. -/
theorem foldl_push {α : Type} (w : α → Write) (b : Nat) (l : List α) (s : State) :
    ComputesOnly s (l.foldl (fun t x => t.push (w x) b) s)
    ∧ ∃ m, (l.foldl (fun t x => t.push (w x) b) s).cx.pend = s.cx.pend ++ m ∧ m.map (·.w) = l.map w := by
  induction l generalizing s with
  | nil => exact ⟨computesOnly_refl s, [], (List.append_nil _).symm, rfl⟩
  | cons x l ih =>
    obtain ⟨honly, m, hpend, hmap⟩ := ih (s.push (w x) b)
    obtain ⟨land, fv, -, -, hpush⟩ := push_spec s (w x) b
    refine ⟨computesOnly_trans (push_computes s (w x) b) honly,
      { w := w x, issued := s.cx.icyc, bound := b, land := land } :: m, ?_, ?_⟩
    · rw [List.foldl_cons, hpend, hpush, List.append_assoc]
      rfl
    · rw [List.map_cons, hmap, List.map_cons]

theorem exec_scld {s : State} {a : SReg} (h : (s.cx.sreg a).poison = false) (k : BitVec 3) (n : BitVec 4) :
    exec (.scld a k n) s = .next ((List.range (k.toNat + 1)).foldl (fun t i =>
      t.push (.sc (n + BitVec.ofNat 4 i) ((s.cx.sreg a).val.extractLsb' (8 * i) 8)) 6) s) :=
  exec_effect (x := scldWord a k n) rfl rfl rfl rfl (poisonCheck_clean s a h)

/-! Descriptors -/

theorem exec_dget {s : State} (h : s.queueFull true = false) (d a b : SReg) :
    exec (.dget d a b) s = .next (s.wreg d
      { val := if b == 0 then (s.cx.desc (a.extractLsb' 0 5)).w0 else (s.cx.desc (a.extractLsb' 0 5)).w1 } 2) :=
  exec_effect (x := dgetWord d a b) rfl rfl rfl h rfl

theorem dset_legal {s : State} {a b : SReg}
    (hfields : ({ w0 := (s.cx.sreg a).val, w1 := (s.cx.sreg b).val } : Desc).fieldsOk = true)
    (hcount : ({ w0 := (s.cx.sreg a).val, w1 := (s.cx.sreg b).val } : Desc).count ≠ 0) (d : SReg) :
    (dsetWord d a b).illop s = false := by
  simp only [dsetWord, hfields, bne_iff_ne.mpr hcount, Bool.and_self, Bool.not_true, Bool.and_false]

theorem exec_dset {s : State} {a b : SReg} (hroom : s.queueFull true = false) (ha : (s.cx.sreg a).poison = false)
    (hb : (s.cx.sreg b).poison = false)
    (hfields : ({ w0 := (s.cx.sreg a).val, w1 := (s.cx.sreg b).val } : Desc).fieldsOk = true)
    (hcount : ({ w0 := (s.cx.sreg a).val, w1 := (s.cx.sreg b).val } : Desc).count ≠ 0) (d : SReg) :
    exec (.dset d a b) s
      = .next (s.push (.desc (d.extractLsb' 0 5) ⟨(s.cx.sreg a).val, (s.cx.sreg b).val⟩) 1) := by
  have hcheck : (dsetWord d a b).check s [] = none := by
    simp only [dsetWord, poisonCheck_clean s a ha, poisonCheck_clean s b hb]
    rfl
  exact exec_effect (x := dsetWord d a b) rfl (dset_legal hfields hcount d) rfl hroom hcheck

theorem exec_dadv {s : State} {a b : SReg} (hroom : s.queueFull true = false) (hb : (s.cx.sreg b).poison = false)
    (hlegal : (dadvWord a b).illop s = false) :
    exec (.dadv a b) s = .next (s.push (.base (a.extractLsb' 0 5)
      ((s.cx.desc (a.extractLsb' 0 5)).advance (s.cx.sreg b).val).w0) 1) :=
  exec_effect (x := dadvWord a b) rfl hlegal rfl hroom (poisonCheck_clean s b hb)

theorem dadv_legal_memory {s : State} {a : SReg} (hkind : (s.cx.desc (a.extractLsb' 0 5)).kind ≠ 2) (b : SReg) :
    (dadvWord a b).illop s = false := by
  simp only [dadvWord, beq_eq_false_iff_ne.mpr hkind, Bool.and_false, Bool.false_and]

theorem dadv_legal_start {s : State} {a b : SReg}
    (hlow : 0 ≤ (s.cx.desc (a.extractLsb' 0 5)).newStart (s.cx.sreg b).val)
    (hhigh : (s.cx.desc (a.extractLsb' 0 5)).newStart (s.cx.sreg b).val ≤ 4095) :
    (dadvWord a b).illop s = false := by
  simp only [dadvWord, decide_eq_false (Int.not_lt.mpr hlow), decide_eq_false (Int.not_lt.mpr hhigh), Bool.or_self,
    Bool.and_false]

theorem advance_memory {x : Desc} (hkind : x.kind ≠ 2) (v : Word) :
    (x.advance v).w0 = mkWord ((x.w0 + v).toNat % 2 ^ 57) := by
  rw [Desc.advance, if_neg hkind, keep_low]

theorem advance_start {x : Desc} (hkind : x.kind = 2) (v : Word) :
    (x.advance v).w0 = x.w0 - keep x.w0 3 12 + mkWord ((x.newStart v).toNat * 2 ^ 3) := by
  rw [Desc.advance, if_pos hkind]
  rfl

/-- `DADV` of an accumulator descriptor moves its start and keeps its other bits (07 R151). -/
theorem exec_dadv_start {s : State} {a b : SReg} (hroom : s.queueFull true = false)
    (hb : (s.cx.sreg b).poison = false) (hkind : (s.cx.desc (a.extractLsb' 0 5)).kind = 2)
    (hlow : 0 ≤ (s.cx.desc (a.extractLsb' 0 5)).newStart (s.cx.sreg b).val)
    (hhigh : (s.cx.desc (a.extractLsb' 0 5)).newStart (s.cx.sreg b).val ≤ 4095) :
    ∃ z, exec (.dadv a b) s = .next (s.push (.base (a.extractLsb' 0 5) z) 1)
      ∧ (bitsOf z 3 12 : Int) = (s.cx.desc (a.extractLsb' 0 5)).newStart (s.cx.sreg b).val
      ∧ ∀ i < 64, (i < 3 ∨ 15 ≤ i) → z.getLsbD i = (s.cx.desc (a.extractLsb' 0 5)).w0.getLsbD i := by
  have hfits : ((s.cx.desc (a.extractLsb' 0 5)).newStart (s.cx.sreg b).val).toNat < 2 ^ 12 := by omega
  refine ⟨_, exec_dadv hroom hb (dadv_legal_start hlow hhigh), ?_, fun i hi hout => ?_⟩
  · rw [advance_start hkind, bitsOf_replaceField _ (by decide) hfits, Int.toNat_of_nonneg hlow]
  · rw [advance_start hkind, getLsbD_replaceField _ _ _ hfits hi, if_neg (by omega)]

theorem exec_dcnt {s : State} {b : SReg} (hroom : s.queueFull true = false) (hb : (s.cx.sreg b).poison = false)
    (hcount : (s.cx.sreg b).val.toNat ≤ 65535) (a : SReg) :
    exec (.dcnt a b) s = .next (s.push (.count (a.extractLsb' 0 5) (some (s.cx.sreg b).val.toNat)) 1) := by
  have hlegal : (dcntWord a b).illop s = false := by
    simp only [dcntWord, decide_eq_false (Nat.not_lt.mpr hcount), Bool.and_false]
  exact exec_effect (x := dcntWord a b) rfl hlegal rfl hroom (poisonCheck_clean s b hb)

/-- A base that lands leaves the second word as it is (07 R151). -/
theorem applyGroup_base (s : State) {p : Pend} {r : DReg} {z : Word} (hw : p.w = .base r z) :
    (s.applyGroup [p]).cx.descs
      = s.cx.descs.set r.toNat { (s.cx.descs[r.toNat]'r.isLt) with w0 := z } r.isLt := by
  simp [State.applyGroup, candidates, State.applyOne, hw, Write.isBase, descAfter_base _ r z p hw]

/-- A count that lands replaces the count (07 R151). -/
theorem applyGroup_count (s : State) {p : Pend} {r : DReg} {n : Nat} (hbound : 1 ≤ p.bound)
    (hw : p.w = .count r (some n)) :
    (s.applyGroup [p]).cx.descs
      = s.cx.descs.set r.toNat ((s.cx.descs[r.toNat]'r.isLt).withCount n) r.isLt := by
  have hstands : ¬ p.issued + p.bound ≤ p.issued := by omega
  simp [State.applyGroup, candidates, State.applyOne, hw, Write.isBase, descAfter, hstands]

/-! Latches -/

theorem exec_rdrn {s : State} {ps : BitVec 2} (hroom : s.queueFull false = false) (hidle : s.latchBusy ps = false)
    (a : SReg) :
    exec (.rdrn a ps) s = .next (if a == 0 then s else
      (s.wreg a { val := if (s.cx.latch ps).kind = .fp32 then keep (s.cx.latch ps).val 0 32 else (s.cx.latch ps).val
                  poison := (s.cx.latch ps).poison } 3).fromLatch ps) := by
  have hgoes : (rdrnWord a ps).stall s [] 0 = false := by
    simp only [rdrnWord, hroom, hidle, Bool.or_self]
  exact exec_effect (x := rdrnWord a ps) rfl rfl rfl hgoes rfl

theorem exec_rclr {s : State} {ps : BitVec 2} (hroom : s.queueFull false = false) (hidle : s.latchBusy ps = false)
    (c o : BitVec 2) :
    exec (.rclr c o ps) s = .next (s.push (.latch ps
      { val := latchClear (lkindOf c) (redOp o.toNat), kind := lkindOf c, op := redOp o.toNat }) 1) := by
  have hgoes : (rclrWord c o ps).stall s [] 0 = false := by
    simp only [rclrWord, hroom, hidle, Bool.or_self]
  exact exec_effect (x := rclrWord c o ps) rfl rfl rfl hgoes rfl

/-- What `RCLR` leaves, for each kind and operator (04 R70, 07 R153). -/
theorem clearedLatch : ∀ c o : BitVec 2, o ≠ 3 →
    lkindOf c = (match c with | 0 => .fp32 | 1 => .fp64 | 2 => .int64 | _ => .n64)
    ∧ redOp o.toNat = (match o with | 0 => .add | 1 => .min | _ => .max)
    ∧ latchClear (lkindOf c) (redOp o.toNat) = (match c, o with
      | 0, 0 => 0x80000000 | 0, 1 => 0x7F800000 | 0, _ => 0xFF800000
      | 1, 0 => 0x8000000000000000 | 1, 1 => 0x7FF0000000000000 | 1, _ => 0xFFF0000000000000
      | 2, 0 => 0 | 2, 1 => 0x7FFFFFFFFFFFFFFF | 2, _ => 0x8000000000000000
      | _, 0 => 0 | _, 1 => 0xFFFFFFFFFFFFFFFF | _, _ => 0) := by
  decide

/-- Settles O36: a word on a table has its one effect where its queue has room and its latch is idle, and stalls
elsewhere; a descriptor word that lands replaces one field. -/
theorem tableWords : Obligations.TableWords := by
  intro s a b d n k ps c o
  dsimp only
  refine ⟨fun ha => ⟨fun hroom => ?_, fun hlegal => ?_, ?_, ?_, fun t ht => ?_⟩,
    fun hroom ha hb hfields hcount => exec_dset (queueFull_of_room hroom) ha hb hfields hcount d,
    fun hroom => ⟨exec_dget (queueFull_of_room hroom) d a 0, exec_dget (queueFull_of_room hroom) d a 1,
      fun hb => ⟨fun hkind => ?_, fun hkind hlow hhigh =>
        exec_dadv_start (queueFull_of_room hroom) hb hkind hlow hhigh,
        fun hcount => exec_dcnt (queueFull_of_room hroom) hb hcount a,
        fun p hbound => ⟨fun z hw => applyGroup_base s hw, fun n hn hw => ?_⟩⟩⟩,
    exec_effect (x := fmgetWord a n) rfl rfl rfl rfl rfl,
    fun hroom hidle => ⟨exec_rdrn (queueFull_of_room hroom) hidle 0, fun ha => ?_, fun ho => ?_⟩,
    fun hfull i hi => ?_, fun hwait => ?_⟩
  · exact exec_effect (x := chsetWord a k) rfl rfl rfl (queueFull_of_room hroom) (poisonCheck_clean s a ha)
  · have hill : (fmsetWord a n).illop s = false := by
      simp only [fmsetWord, hlegal, Bool.not_true, Bool.and_false]
    exact exec_effect (x := fmsetWord a n) rfl hill rfl rfl (poisonCheck_clean s a ha)
  · rw [exec_scld ha 0 n]
    simp [List.range_succ]
  · rw [exec_scld ha 1 n]
    simp [List.range_succ]
  · rw [exec_scld ha k n] at ht
    cases ht
    exact foldl_push (fun i => Write.sc (n + BitVec.ofNat 4 i) ((s.cx.sreg a).val.extractLsb' (8 * i) 8)) 6
      (List.range (k.toNat + 1)) s
  · rw [exec_dadv (queueFull_of_room hroom) hb (dadv_legal_memory hkind b), advance_memory hkind]
  · have hfits : n % 2 ^ 16 < 2 ^ 16 := Nat.mod_lt _ (by decide)
    refine ⟨_, applyGroup_count s hbound hw, ?_, fun i hi hout => ?_⟩
    · rw [bitsOf_replaceField _ (by decide) hfits]
      exact Nat.mod_eq_of_lt (by omega)
    · rw [getLsbD_replaceField _ _ _ hfits hi, if_neg (by omega)]
  · refine ⟨_, (exec_rdrn (queueFull_of_room hroom) hidle a).trans (by rw [if_neg (by simpa using ha)]), rfl, rfl,
      fun h => if_neg h, fun h => ?_⟩
    rw [if_pos h, keep_low, toNat_mkWord]
    omega
  · obtain ⟨hkind, hop, hval⟩ := clearedLatch c o ho
    exact ⟨_, exec_rclr (queueFull_of_room hroom) hidle c o, rfl, hkind, hop, hval⟩
  · have hstall : ∀ j, exec (.dget d a j) s = .next { s with ctl := .stalled false } := fun j =>
      exec_stall (x := dgetWord d a j) rfl rfl rfl (queueFull_of_noRoom hfull) rfl
    rcases List.mem_pair.mp hi with rfl | rfl
    · exact hstall 0
    · exact hstall 1
  · have hwaits : (s.latchBusy ps || s.queueFull false) = true := by
      rcases hwait with hfull | hbusy
      · rw [queueFull_of_noRoom hfull, Bool.or_true]
      · rw [hbusy, Bool.true_or]
    exact ⟨exec_stall (x := rdrnWord a ps) rfl rfl rfl hwaits rfl,
      exec_stall (x := rclrWord c o ps) rfl rfl rfl hwaits rfl⟩

end Sys2Proof.TableProofs

/-! ### Element results of integer streams (07 R137, R138) -/

namespace Sys2Proof.ElementProofs

open Sys2Proof Sys2Proof.Machine Sys2Proof.Safety Sys2Proof.Laws

/-! Values and conversions without scales -/

theorem scaleAt_unscaled (s : State) {r : Region} (h : r.scales = none) (i : Nat) : s.scaleAt r i = none := by
  rw [State.scaleAt, h]

theorem valueAt_int (s : State) {r : Region} {g : Bool} {w : Nat} (h : r.scales = none) (hf : r.fmt = .int g w)
    (i code : Nat) : s.valueAt r i code = (.i (intOfCode g w code), 0) := by
  rw [State.valueAt, scaleAt_unscaled s h, hf]
  rfl

/-- An integer in an unscaled integer region saturates with OF, in every rounding mode (07 R137). -/
theorem convertAt_int (s : State) {r : Region} {g : Bool} {w : Nat} (h : r.scales = none) (hf : r.fmt = .int g w)
    (i mode : Nat) (n : Int) :
    s.convertAt r i mode (.i n)
      = if n < intLo g w then (codeOfInt w (intLo g w), Flag.of)
        else if intHi g w < n then (codeOfInt w (intHi g w), Flag.of) else (codeOfInt w n, 0) := by
  rw [State.convertAt, scaleAt_unscaled s h, hf]
  simp only [Fmt.convert, clampInt]
  split
  · rfl
  · split <;> rfl

/-- The low bits of a bitwise combination of two codes of 65 bits are the combination of the low bits. -/
theorem codeOfInt_codeOfInt {w : Nat} (hw : w ≤ 65) (x : Int) : codeOfInt 65 x % 2 ^ w = codeOfInt w x := by
  have hdvd : (2 ^ w : Int) ∣ 2 ^ 65 := pow_dvd_pow 2 hw
  have hpos : (2 ^ 65 : Int) ≠ 0 := by norm_num
  zify
  rw [codeOfInt, codeOfInt, Int.toNat_of_nonneg (Int.emod_nonneg _ hpos),
    Int.toNat_of_nonneg (Int.emod_nonneg _ (by positivity)), Int.emod_emod_of_dvd _ hdvd]

theorem codeOfInt_natCast (w n : Nat) : codeOfInt w (n : Int) = n % 2 ^ w := by
  rw [codeOfInt, ← Nat.cast_ofNat, ← Nat.cast_pow, ← Int.natCast_mod, Int.toNat_natCast]

/-! Each function on two integer sources -/

section
variable (s : State) (opt : Nat) {D A B : Region} (i ka kb ca cb cd : Nat) {g h f : Bool} {w u v : Nat}
  (hA : A.scales = none) (hB : B.scales = none) (fA : A.fmt = .int h u) (fB : B.fmt = .int f v)
include hA hB fA fB

/-- The arithmetic words, `VFILL` and `VCVT`: an exact integer, then converted (07 R137). -/
theorem vopElem_arithmetic (hD : D.scales = none) (fD : D.fmt = .int g w) :
    let x := intOfCode h u ca
    let y := intOfCode f v cb
    let elem := fun fn => s.vopElem fn opt D (some A) (some B) i ka kb ca cb cd
    let into := fun n => s.convertAt D i 0 (.i n)
    elem 0 = into (x + y) ∧ elem 1 = into (x - y) ∧ elem 2 = into (x * y)
    ∧ elem 3 = into (x * y + intOfCode g w cd) ∧ elem 4 = into (if y < x then y else x)
    ∧ elem 5 = into (if x < y then y else x) ∧ elem 6 = into (x.natAbs : Int) ∧ elem 7 = into (-x)
    ∧ elem 16 = into x ∧ elem 17 = s.convertAt D i opt (.i x) := by
  simp [State.vopElem, valueAt_int s hD fD, valueAt_int s hA fA, valueAt_int s hB fB, numAdd, numSub, numMul, numFma,
    numMin, numMax]

/-- The bitwise words and the shifts (07 R138). -/
theorem vopElem_bitwise (fD : D.fmt = .int g w) :
    let x := intOfCode h u ca
    let y := intOfCode f v cb
    let elem := fun fn => s.vopElem fn opt D (some A) (some B) i ka kb ca cb cd
    elem 8 = (codeOfInt w (codeOfInt 65 x &&& codeOfInt 65 y : Nat), 0)
    ∧ elem 9 = (codeOfInt w (codeOfInt 65 x ||| codeOfInt 65 y : Nat), 0)
    ∧ elem 10 = (codeOfInt w (codeOfInt 65 x ^^^ codeOfInt 65 y : Nat), 0)
    ∧ elem 11 = (codeOfInt w (x * 2 ^ (y % 64).toNat), 0)
    ∧ (g = true → elem 12 = s.convertAt D i 0 (.i (x / 2 ^ (y % 64).toNat)))
    ∧ (g = false → elem 12 = s.convertAt D i 0 (.i (codeOfInt 65 x / 2 ^ (y % 64).toNat : Nat))) := by
  have hwidth : D.fmt.width = w := by rw [fD]; rfl
  have hsigned : D.fmt.isSigned = g := by rw [fD]; rfl
  simp +contextual [State.vopElem, valueAt_int s hA fA, valueAt_int s hB fB, Num.toI, hwidth, hsigned]

/-- `VCMP`, `VSEL` and `VCOPY` (07 R138). -/
theorem vopElem_choice :
    let x := intOfCode h u ca
    let y := intOfCode f v cb
    let elem := fun fn => s.vopElem fn opt D (some A) (some B) i ka kb ca cb cd
    elem 13 = s.convertAt D i 0 (.i (if (numCmp opt (.i x) (.i y)).1 then 1 else 0))
    ∧ elem 14 = (if y = 0 then cd else ca, 0) ∧ elem 15 = (ca, 0) := by
  simp [State.vopElem, valueAt_int s hA fA, valueAt_int s hB fB, numCmp, Num.toI, Flag.when]

end

theorem vopElem_iota (s : State) (opt : Nat) (D : Region) (i ka kb ca cb cd : Nat) :
    s.vopElem 18 opt D none none i ka kb ca cb cd = s.convertAt D i 0 (.i i) := by
  simp [State.vopElem]

/-! The conditions of `VCMP` and the bitwise results -/

/-- Integers are ordered, so each condition is the comparison it names (07 R138). -/
theorem numCmp_int (opt : Nat) (x y : Int) :
    (numCmp opt (.i x) (.i y)).1 = (match opt with
      | 0 => decide (x = y) | 1 => decide (x ≠ y) | 2 => decide (x < y) | 3 => decide (x ≤ y)
      | 4 => decide (y < x) | 5 => decide (y ≤ x) | 6 => false | _ => true) := by
  have hcmp : compare x y = if x < y then .lt else if x = y then .eq else .gt := rfl
  rcases lt_trichotomy x y with h | h | h
  · have hne : x ≠ y := h.ne
    match opt with
    | 0 | 1 | 2 | 3 | 4 | 5 | 6 | _ + 7 =>
      simp [numCmp, hcmp, h, hne, h.le, not_lt.mpr h.le, not_le.mpr h]
  · subst h
    match opt with
    | 0 | 1 | 2 | 3 | 4 | 5 | 6 | _ + 7 => simp [numCmp]
  · have hne : x ≠ y := h.ne'
    match opt with
    | 0 | 1 | 2 | 3 | 4 | 5 | 6 | _ + 7 =>
      simp [numCmp, hcmp, h, hne, h.le, not_lt.mpr h.le, not_le.mpr h]

theorem codeOfInt_and {w : Nat} (hw : w ≤ 64) (x y : Int) :
    codeOfInt w (codeOfInt 65 x &&& codeOfInt 65 y : Nat) = codeOfInt w x &&& codeOfInt w y := by
  rw [codeOfInt_natCast, Nat.and_mod_two_pow, codeOfInt_codeOfInt (by omega), codeOfInt_codeOfInt (by omega)]

theorem codeOfInt_or {w : Nat} (hw : w ≤ 64) (x y : Int) :
    codeOfInt w (codeOfInt 65 x ||| codeOfInt 65 y : Nat) = codeOfInt w x ||| codeOfInt w y := by
  rw [codeOfInt_natCast, Nat.or_mod_two_pow, codeOfInt_codeOfInt (by omega), codeOfInt_codeOfInt (by omega)]

theorem codeOfInt_xor {w : Nat} (hw : w ≤ 64) (x y : Int) :
    codeOfInt w (codeOfInt 65 x ^^^ codeOfInt 65 y : Nat) = codeOfInt w x ^^^ codeOfInt w y := by
  rw [codeOfInt_natCast, Nat.xor_mod_two_pow, codeOfInt_codeOfInt (by omega), codeOfInt_codeOfInt (by omega)]

theorem natCast_codeOfInt_div (w k : Nat) (x : Int) :
    ((codeOfInt w x / 2 ^ k : Nat) : Int) = x % 2 ^ w / 2 ^ k := by
  rw [Int.natCast_div, codeOfInt, Int.toNat_of_nonneg (Int.emod_nonneg _ (by positivity)), Nat.cast_pow, Nat.cast_ofNat]

theorem natAbs_eq_ite (x : Int) : (x.natAbs : Int) = if x < 0 then -x else x := by
  split <;> omega

/-- Settles O43: an integer element is the exact result converted into its region, or the code taken. -/
theorem integerElementResults : Obligations.IntegerElementResults := by
  intro s opt D A B i ka kb ca cb cd g h f w u v hD hA hB _ hw fD fA fB
  obtain ⟨e0, e1, e2, e3, e4, e5, e6, e7, e16, e17⟩ :=
    vopElem_arithmetic s opt i ka kb ca cb cd hA hB fA fB hD fD
  obtain ⟨e8, e9, e10, e11, e12, e12'⟩ := vopElem_bitwise s opt i ka kb ca cb cd hA hB fA fB fD
  obtain ⟨e13, e14, e15⟩ := vopElem_choice s opt (D := D) i ka kb ca cb cd hA hB fA fB
  have hsat := convertAt_int s hD fD i
  have e18 := (vopElem_iota s opt D i ka kb ca cb cd).trans (hsat 0 i)
  rw [codeOfInt_and hw] at e8
  rw [codeOfInt_or hw] at e9
  rw [codeOfInt_xor hw] at e10
  rw [natAbs_eq_ite] at e6
  rw [natCast_codeOfInt_div] at e12'
  rw [numCmp_int] at e13
  exact ⟨e0.trans (hsat 0 _), e1.trans (hsat 0 _), e2.trans (hsat 0 _), e3.trans (hsat 0 _), e4.trans (hsat 0 _),
    e5.trans (hsat 0 _), e6.trans (hsat 0 _), e7.trans (hsat 0 _), e8, e9, e10, e11, fun hg => (e12 hg).trans (hsat 0 _),
    fun hg => (e12' hg).trans (hsat 0 _), e13.trans (hsat 0 _), e18, e14, e15, e16.trans (hsat 0 _),
    e17.trans (hsat opt _)⟩

end Sys2Proof.ElementProofs

/-! ### The tags that a stream meets (06 R108, R109; 07 R132) -/

namespace Sys2Proof.GroupProofs

open Sys2Proof Sys2Proof.Machine Sys2Proof.Safety Sys2Proof.Laws

/-! What meeting tags may change -/

/-- Everything but tags and parked accesses is as before. -/
def Tagged (s t : State) : Prop :=
  t = { s with empties := t.empties, core := { s.core with parked := t.core.parked } }

theorem tagged_refl (s : State) : Tagged s s := rfl

theorem tagged_trans {s t u : State} (h : Tagged s t) (k : Tagged t u) : Tagged s u := by
  rw [Tagged] at h k ⊢
  rw [h] at k
  exact k

/-- A relation of states that every step of a fold keeps holds of the whole fold. -/
theorem foldl_related {α : Type} {R : State → State → Prop} (hrefl : ∀ s, R s s)
    (htrans : ∀ {s t u}, R s t → R t u → R s u) {f : State → α → State} (hf : ∀ s x, R s (f s x)) (l : List α)
    (s : State) : R s (l.foldl f s) := by
  induction l generalizing s with
  | nil => exact hrefl s
  | cons x l ih => exact htrans (hf s x) (ih (f s x))

theorem setTag_tagged (s : State) (loc : Nat) (b : Bool) : Tagged s (s.setTag loc b) := by
  rw [setTag_only]
  exact rfl

theorem tagsAct_tagged (s : State) (mode : TagMode) (dst : Bool) (l : List Nat) : Tagged s (s.tagsAct mode dst l) := by
  have hset := fun b => foldl_related tagged_refl tagged_trans (fun s w => setTag_tagged s (8 * w) b) l s
  unfold State.tagsAct
  split
  · exact hset false
  · exact hset true
  · exact hset true
  · exact tagged_refl s

theorem park_tagged (s : State) (uid id word : Nat) (full : Bool) : Tagged s (s.park uid id word full) := by
  unfold State.park
  split <;> rfl

theorem parkAll_tagged (s : State) (owner id : Nat) (l : List Nat) (full : Bool) :
    Tagged s (s.parkAll owner id l full) :=
  foldl_related tagged_refl tagged_trans (fun s w => park_tagged s owner id w full) l s

theorem unpark_tagged (s : State) (id : Nat) (l : List Nat) : Tagged s (s.unpark id l) := rfl

theorem unparkAll_tagged (s : State) (id : Nat) : Tagged s (s.unparkAll id) := rfl

theorem meetFull_tagged (s : State) (owner id : Nat) (mode : TagMode) (l : List Nat) :
    Tagged s (s.meetFull owner id mode l).1 := by
  unfold State.meetFull
  split
  · exact tagged_trans (tagged_trans (tagsAct_tagged s mode false _) (unpark_tagged _ id _))
      (parkAll_tagged _ owner id _ true)
  · exact tagged_refl s

/-! What it does to the words -/

theorem tagsReady_waits {m : TagMode} (hm : m.waits false = true) (s : State) (w : Nat) :
    s.tagsReady m false [w] = s.full (8 * w) := by
  cases m <;> simp_all [TagMode.waits, State.tagsReady]

/-- A source word holds a stream up no longer: its partition is freed, or it is full and no other waits before. -/
def MayRead (s : State) (id w : Nat) : Prop :=
  s.freedFor id w = true ∨ (s.full (8 * w) = true ∧ s.firstAt id w true = true)

/-- A waiting mode acts on the words that hold it up no longer, and waits at the others. -/
theorem mem_splitWords {s : State} {id : Nat} {m : TagMode} {l : List Nat} (hm : m.waits false = true) (w : Nat) :
    (w ∈ (s.splitWords id m false l).1 ↔ w ∈ l ∧ MayRead s id w)
    ∧ (w ∈ (s.splitWords id m false l).2 ↔ w ∈ l ∧ ¬ MayRead s id w) := by
  have hmay : (s.freedFor id w || (s.tagsReady m false [w] && s.firstAt id w (!false))) = true ↔ MayRead s id w := by
    rw [tagsReady_waits hm, Bool.or_eq_true, Bool.and_eq_true]
    rfl
  rw [State.splitWords, if_pos hm, List.partition_eq_filter_filter]
  exact ⟨by rw [List.mem_filter, hmay], by rw [List.mem_filter, Function.comp_apply, Bool.not_eq_true', ← hmay,
    Bool.not_eq_true]⟩

theorem full_setTag_other (s : State) {v w : Nat} (b : Bool) (h : v ≠ w) :
    (s.setTag (8 * v) b).full (8 * w) = s.full (8 * w) := by
  have hv : 8 * v / 8 = v := by omega
  have hw : 8 * w / 8 = w := by omega
  unfold State.setTag State.full
  split
  · cases b <;> simp [hv, hw, mem_insertNat, Ne.symm h]
  · rfl

theorem full_tagsAct_other (s : State) (mode : TagMode) (dst : Bool) {l : List Nat} {w : Nat} (h : w ∉ l) :
    (s.tagsAct mode dst l).full (8 * w) = s.full (8 * w) := by
  have hset : ∀ b, (l.foldl (fun t v => t.setTag (8 * v) b) s).full (8 * w) = s.full (8 * w) := fun b =>
    List.foldlRecOn l _ (motive := fun t : State => t.full (8 * w) = s.full (8 * w)) rfl
      (fun t ht v hv => (full_setTag_other t b (ne_of_mem_of_not_mem hv h)).trans ht)
  unfold State.tagsAct
  split
  · exact hset false
  · exact hset true
  · exact hset true
  · rfl

theorem firstAt_unpark_other (s : State) (id : Nat) {l : List Nat} {w : Nat} (h : w ∉ l) (full : Bool) :
    (s.unpark id l).firstAt id w full = s.firstAt id w full := by
  have hfind : (s.core.parked.filter (fun x => !(x.id == id && l.contains x.word))).find?
      (fun x => x.word == w && x.needFull == full) = s.core.parked.find? (fun x => x.word == w && x.needFull == full) := by
    rw [List.find?_filter]
    congr 1
    funext x
    by_cases hx : x.word = w
    · have hin : l.contains x.word = false := by simpa [hx] using h
      simp only [hin, Bool.and_false, Bool.not_false, true_and, Bool.decide_eq_true]
    · simp [hx]
  unfold State.firstAt State.unpark
  rw [hfind]

/-- Tag actions leave the core as it is. -/
theorem tagsAct_core (s : State) (mode : TagMode) (dst : Bool) (l : List Nat) : (s.tagsAct mode dst l).core = s.core := by
  have hset : ∀ b, (l.foldl (fun t v => t.setTag (8 * v) b) s).core = s.core := fun b =>
    foldl_related (R := fun s t => t.core = s.core) (fun _ => rfl) (fun h k => k.trans h)
      (fun s w => by rw [setTag_only]) l s
  unfold State.tagsAct
  split
  · exact hset false
  · exact hset true
  · exact hset true
  · rfl

/-- A word that a waiting mode did not act on is as it was for the next source. -/
theorem mayRead_after (s : State) (id : Nat) (mode : TagMode) {go done : List Nat} {w : Nat} (hgo : w ∉ go)
    (hdone : done ⊆ go) : MayRead ((s.tagsAct mode false done).unpark id go) id w ↔ MayRead s id w := by
  have hfreed : ((s.tagsAct mode false done).unpark id go).freedFor id w = s.freedFor id w := by
    show (s.tagsAct mode false done).core.freed.any _ = _
    rw [tagsAct_core]
    rfl
  have hfull : ((s.tagsAct mode false done).unpark id go).full (8 * w) = s.full (8 * w) :=
    full_tagsAct_other s mode false (fun h => hgo (hdone h))
  have hfirst : (s.tagsAct mode false done).firstAt id w true = s.firstAt id w true := by
    rw [State.firstAt, tagsAct_core, State.firstAt]
  rw [MayRead, hfreed, hfull, firstAt_unpark_other _ id hgo, hfirst, MayRead]

/-! Parking -/

/-- An access stands parked at a word. -/
def ParkedAt (s : State) (id w : Nat) : Prop := ∃ x ∈ s.core.parked, x.id = id ∧ x.word = w

theorem parkedAt_park_self (s : State) (owner id w : Nat) (full : Bool) : ParkedAt (s.park owner id w full) id w := by
  unfold State.park
  split
  · next h =>
    obtain ⟨x, hx, hat⟩ := List.any_eq_true.mp h
    rw [Bool.and_eq_true, beq_iff_eq, beq_iff_eq] at hat
    exact ⟨x, hx, hat⟩
  · exact ⟨⟨w, owner, id, full⟩, List.mem_append_right _ List.mem_cons_self, rfl, rfl⟩

theorem parkedAt_park {s : State} {id w : Nat} (h : ParkedAt s id w) (owner v : Nat) (full : Bool) :
    ParkedAt (s.park owner id v full) id w := by
  obtain ⟨x, hx, hat⟩ := h
  unfold State.park
  split
  · exact ⟨x, hx, hat⟩
  · exact ⟨x, List.mem_append_left _ hx, hat⟩

/-- An operation parked at each word of a list stands at all of them. -/
theorem parkedAt_parkAll {id w : Nat} {l : List Nat} (h : w ∈ l) (s : State) (owner : Nat) (full : Bool) :
    ParkedAt (s.parkAll owner id l full) id w := by
  have hkept : ∀ (m : List Nat) (t : State), ParkedAt t id w → ParkedAt (t.parkAll owner id m full) id w :=
    fun m t ht => List.foldlRecOn m _ (motive := fun t : State => ParkedAt t id w) ht
      (fun _ hu v _ => parkedAt_park hu owner v full)
  induction l generalizing s with
  | nil => exact absurd h List.not_mem_nil
  | cons v l ih =>
    rcases List.mem_cons.mp h with rfl | h
    · exact hkept l _ (parkedAt_park_self s owner id w full)
    · exact ih h _

end Sys2Proof.GroupProofs

/-! ### Reading through what a stream has read already (07 R132, R133) -/

namespace Sys2Proof.GroupProofs

open Sys2Proof Sys2Proof.Machine Sys2Proof.Safety Sys2Proof.Laws Sys2Proof.ComputeProofs

/-! States that every read finds alike -/

/-- Every byte and every mark reads alike, and nothing but the lists that hold them, the tags and the parked accesses
may differ. -/
structure Alike (s t : State) : Prop where
  rest : t = { s with mem := t.mem, empties := t.empties, marks := t.marks
                      core := { s.core with parked := t.core.parked } }
  byte : ∀ a, t.byte a = s.byte a
  mark : ∀ l, l ∈ t.marks ↔ l ∈ s.marks

theorem alike_refl (s : State) : Alike s s := ⟨rfl, fun _ => rfl, fun _ => Iff.rfl⟩

theorem Alike.of_tagged {s t : State} (h : Tagged s t) : Alike s t := by
  have hmem : t.mem = s.mem := by rw [Tagged] at h; rw [h]
  have hmarks : t.marks = s.marks := by rw [Tagged] at h; rw [h]
  refine ⟨?_, fun a => by rw [State.byte, hmem, State.byte], fun l => by rw [hmarks]⟩
  rw [hmem, hmarks]
  exact h

section
variable {s t : State} (h : Alike s t)
include h

theorem Alike.word (loc : Nat) : t.word loc = s.word loc := word_congr (fun i _ => h.byte (loc + i))

theorem Alike.readNat (loc n : Nat) : t.readNat loc n = s.readNat loc n := by
  simp only [State.readNat, State.bytes, h.byte]

theorem Alike.marked (loc : Nat) : t.marked loc = s.marked loc := by
  rw [Bool.eq_iff_iff]
  simpa [State.marked] using h.mark (loc / 64)

theorem Alike.markedRange (loc n : Nat) : t.markedRange loc n = s.markedRange loc n := by
  rw [Bool.eq_iff_iff]
  simp [State.markedRange, h.mark]

theorem Alike.cx : t.cx = s.cx := by rw [h.rest]
theorem Alike.fv : t.fv = s.fv := by rw [h.rest]
theorem Alike.pkgid : t.pkgid = s.pkgid := by rw [h.rest]
theorem Alike.xl : t.xl = s.xl := by rw [h.rest]

theorem Alike.spanEntry (loc : Nat) (e : Word) (n : Nat) : (t.spanEntry loc e n).1 = (s.spanEntry loc e n).1 := by
  simp only [State.spanEntry, h.word, State.choose, h.fv]
  split
  · split <;> rfl
  · rfl

end

/-- A walk through tables that read alike finds the same. -/
theorem walkFrom_congr (va : Word) (asid : Nat) (write priv : Bool) (level table : Nat) {s t : State} (h : Alike s t) :
    (walkFrom va asid write priv level table t).1 = (walkFrom va asid write priv level table s).1 := by
  induction level generalizing table s t with
  | zero =>
    unfold walkFrom
    simp only [h.pkgid, h.marked, h.word]
    split
    · rfl
    · split
      · rfl
      · simp only [h.spanEntry]
      · rfl
  | succ level ih =>
    unfold walkFrom
    simp only [h.pkgid, h.marked, h.word]
    split
    · rfl
    · split
      · rfl
      · simp only [h.spanEntry]
      · refine ih _ ⟨?_, h.byte, h.mark⟩
        rw [State.cacheWalk, h.xl, h.rest]
        rfl

theorem translate_congr {s t : State} (h : Alike s t) (ptbase asid : Nat) (va : Word) (write priv : Bool) :
    (t.translate ptbase asid va write priv).1 = (s.translate ptbase asid va write priv).1 := by
  have hstart : t.walkStart ptbase asid va = s.walkStart ptbase asid va := by rw [State.walkStart, h.xl, State.walkStart]
  unfold State.translate
  rw [h.xl, hstart]
  split
  · rfl
  · generalize s.walkStart ptbase asid va = start
    obtain ⟨level, table⟩ := start
    dsimp only
    have hwalk := walkFrom_congr va asid write priv level table h
    generalize walkFrom va asid write priv level table t = x at hwalk ⊢
    generalize walkFrom va asid write priv level table s = y at hwalk ⊢
    obtain ⟨x1, x2⟩ := x
    obtain ⟨y1, y2⟩ := y
    obtain rfl : x1 = y1 := hwalk
    cases x1 <;> rfl

section
variable {s t : State} (h : Alike s t)
include h

theorem Alike.vaLoc (root asid va : Nat) : t.vaLoc root asid va = s.vaLoc root asid va := by
  have htr := translate_congr h root asid (mkWord va) false true
  unfold State.vaLoc
  split
  · rfl
  · generalize t.translate root asid (mkWord va) false true = x at htr ⊢
    generalize s.translate root asid (mkWord va) false true = y at htr ⊢
    obtain ⟨x1, x2⟩ := x
    obtain ⟨y1, y2⟩ := y
    obtain rfl : x1 = y1 := htr
    cases x1 <;> simp [h.pkgid]

theorem Alike.inTo (c : Coll) (l : Nat) : t.inTo c l = s.inTo c l := by
  simp only [State.inTo, State.inBuffer, h.vaLoc, h.pkgid]

theorem Alike.hot (x : Actor) (l : Nat) : t.hot x l = s.hot x l := by
  have hcolls : t.collsOpen x = s.collsOpen x := by rw [h.rest]; rfl
  simp only [State.hot, hcolls, h.inTo]

theorem Alike.codeAt (r : Region) (i : Nat) : (t.codeAt r i).1 = (s.codeAt r i).1 := by
  have hacc : t.accUndefined r = s.accUndefined r := by rw [h.rest]; rfl
  have hpoison : t.scalePoison r i = s.scalePoison r i := by simp only [State.scalePoison, h.marked]
  unfold State.codeAt
  simp only [hacc, hpoison, h.readNat, h.marked, h.markedRange, h.cx, State.draw, h.fv]
  split
  · split <;> rfl
  · split <;> rfl

/-- Two states that read alike still do after a free value is drawn in both. -/
theorem Alike.draw : Alike s.draw.2 t.draw.2 := by
  refine ⟨?_, h.byte, h.mark⟩
  show { t with fv := t.fv + 1 } = _
  rw [h.fv]
  conv_lhs => rw [h.rest]
  rfl

end

/-- A read of a code draws a free value where the tile does not hold the form, and changes nothing else. -/
theorem codeAt_snd (s : State) (r : Region) (i : Nat) :
    (s.codeAt r i).2 = if r.kind = 2 ∧ s.accUndefined r = true then s.draw.2 else s := by
  unfold State.codeAt
  by_cases hkind : r.kind = 2
  · by_cases hacc : s.accUndefined r = true <;> simp [hkind, hacc]
  · by_cases hplane : r.kind = 1 <;> simp [hkind, hplane]

section
variable {s t : State} (h : Alike s t)
include h

theorem Alike.codeAt_state (r : Region) (i : Nat) : Alike (s.codeAt r i).2 (t.codeAt r i).2 := by
  have hacc : t.accUndefined r = s.accUndefined r := by rw [h.rest]; rfl
  rw [codeAt_snd, codeAt_snd, hacc]
  split
  · exact h.draw
  · exact h

theorem Alike.readElem (r : Region) (i : Nat) : (t.readElem r i).1 = (s.readElem r i).1 := by
  have hstate := h.codeAt_state r i
  have hhot : (r.bytesAt i).any ((t.codeAt r i).2.hot r.actor) = (r.bytesAt i).any ((s.codeAt r i).2.hot r.actor) := by
    simp only [funext (hstate.hot r.actor)]
  simp only [State.readElem, hhot, h.codeAt, State.draw, hstate.fv]
  split <;> rfl

theorem Alike.readOpt (r : Option Region) (i : Nat) : (t.readOpt r i).1 = (s.readOpt r i).1 := by
  cases r with
  | none => rfl
  | some q => exact h.readElem q i

theorem Alike.readSrc (kept : Option (Nat × Bool)) (saved : List (Nat × Nat × Bool)) (r : Option Region) (i : Nat) :
    (t.readSrc kept saved r i).1 = (s.readSrc kept saved r i).1 := by
  unfold State.readSrc
  split
  · rfl
  · exact h.readOpt r i

/-- What the next pass reads of the first source hangs on values alone. -/
theorem Alike.readsA (q : Stream) (A : Region) : q.readsA t A = q.readsA s A := by
  have hcontrol : q.control t = q.control s := by
    funext i
    unfold Stream.control
    split
    · simp only [h.readSrc]
    · rfl
  have hselects : q.selects t = q.selects s := by
    funext i
    simp only [Stream.selects, hcontrol]
  simp only [Stream.readsA, hcontrol, hselects]

end

/-! The words that a stream has read -/

theorem length_bytes (s : State) (loc n : Nat) : (s.bytes loc n).length = n := by simp [State.bytes]

theorem bytesOfNat_natOfBytes (l : List Byte) : bytesOfNat l.length (natOfBytes l) = l := by
  induction l with
  | nil => rfl
  | cons b l ih =>
    have hb : b.toNat < 256 := b.isLt
    have hhead : BitVec.ofNat 8 (b.toNat + 256 * natOfBytes l) = b := by bv_omega
    have htail : (b.toNat + 256 * natOfBytes l) / 256 = natOfBytes l := by omega
    rw [List.length_cons, natOfBytes, bytesOfNat, hhead, htail, ih]

theorem natOfBytes_lt (l : List Byte) : natOfBytes l < 256 ^ l.length := by
  induction l with
  | nil => exact Nat.one_pos
  | cons b l ih =>
    have hb : b.toNat < 256 := b.isLt
    rw [natOfBytes, List.length_cons, Nat.pow_succ]
    omega

/-- A word written back as it was read changes no byte. -/
theorem byte_setWord_read (s t : State) (loc a : Nat) (h : t.byte a = s.byte a) :
    (t.setWord loc (mkWord (s.readNat loc 8))).byte a = s.byte a := by
  have hlt : s.readNat loc 8 < 2 ^ 64 := by
    have hbytes := natOfBytes_lt (s.bytes loc 8)
    rw [length_bytes] at hbytes
    exact hbytes.trans_eq (by norm_num)
  have hback : bytesOfNat 8 (s.readNat loc 8) = s.bytes loc 8 := by
    have hbytes := bytesOfNat_natOfBytes (s.bytes loc 8)
    rwa [length_bytes] at hbytes
  rw [State.setWord, State.writeNat, toNat_mkWord, Nat.mod_eq_of_lt hlt, hback, byte_setBytes, length_bytes]
  split
  · next hin =>
    have hidx : a - loc < 8 := by omega
    simp [State.bytes, hidx, Nat.add_sub_cancel' hin.1]
  · exact h

@[simp] theorem byte_setMark (s : State) (loc : Nat) (m : Bool) (a : Nat) : (s.setMark loc m).byte a = s.byte a := by
  cases m <;> rfl

theorem mem_marks_setMark (s : State) (loc l : Nat) (m : Bool) :
    l ∈ (s.setMark loc m).marks ↔ if l = loc / 64 then m = true else l ∈ s.marks := by
  cases m
  · by_cases hl : l = loc / 64 <;> simp [State.setMark, hl]
  · by_cases hl : l = loc / 64 <;> simp [State.setMark, mem_insertNat, hl]

/-- What was read of some words of a state is no other memory than that state's. -/
theorem Alike.seenView {s t : State} (h : Alike s t) (l : List Nat) : Alike s (t.seenView (l.map s.wordSeen)) := by
  have hmark : ∀ w, (s.marked (8 * w) || (l.map s.wordSeen).any (fun x => x.1 / 8 == w / 8 && x.2.2))
      = s.marked (8 * w) := by
    intro w
    refine Bool.or_eq_left_iff_imp.mpr (fun hany => ?_)
    obtain ⟨x, hx, hat⟩ := List.any_eq_true.mp hany
    obtain ⟨v, -, rfl⟩ := List.mem_map.mp hx
    rw [Bool.and_eq_true, beq_iff_eq] at hat
    obtain ⟨hline, hmarked⟩ := hat
    have hsame : 8 * w / 64 = 8 * v / 64 := by
      have : v / 8 = w / 8 := hline
      omega
    rw [State.marked, hsame]
    exact hmarked
  refine List.foldlRecOn (l.map s.wordSeen) _ (motive := fun u => Alike s u) h (fun u hu e he => ?_)
  obtain ⟨w, -, rfl⟩ := List.mem_map.mp he
  have hstep : ((s.wordSeen w).2.2 || (l.map s.wordSeen).any (fun x => x.1 / 8 == (s.wordSeen w).1 / 8 && x.2.2))
      = s.marked (8 * w) := hmark w
  rw [hstep]
  refine ⟨?_, fun a => ?_, fun k => ?_⟩
  · rw [setMark_only, setWord_only, hu.rest]
  · rw [byte_setMark]
    exact byte_setWord_read s u (8 * w) a (hu.byte a)
  · rw [mem_marks_setMark, setWord_only]
    split
    · next hk => rw [hk, State.marked, List.contains_iff_mem]; rfl
    · exact hu.mark k

end Sys2Proof.GroupProofs

/-! ### Meeting the tags of both sources (07 R132) -/

namespace Sys2Proof.GroupProofs

open Sys2Proof Sys2Proof.Machine Sys2Proof.Safety Sys2Proof.Laws

theorem mem_wordSet (w : Nat) (l : List Nat) : w ∈ wordSet l ↔ w ∈ l := by
  have hfold : ∀ (l m : List Nat), w ∈ l.foldl (fun t v => insertNat v t) m ↔ w ∈ l ∨ w ∈ m := by
    intro l
    induction l with
    | nil => simp
    | cons v l ih =>
      intro m
      rw [List.foldl_cons, ih, mem_insertNat, List.mem_cons]
      tauto
  rw [wordSet, hfold]
  simp

/-- A stream meets the tags of the words of one source that it has not read yet. -/
def meetSource (s : State) (t : Stream) (r : Option Region) (is : List Nat) : State × Stream × Bool :=
  match r with
  | none => (s, t, true)
  | some q =>
    let m := s.meetFull s.cx.uid t.id q.tag
      ((wordSet (is.flatMap q.words)).filter (fun w => !t.seen.any (fun e => e.1 == w)))
    (m.1, { t with seen := t.seen ++ m.2.1 }, m.2.2)

/-- A word that both sources read is emptied if the second one takes it (log entry 125). -/
def takeShared (s : State) (t : Stream) (is : List Nat) (ok : Bool) : State :=
  match t.a, t.b with
  | some A, some B =>
    if ok && A.tag == .take && B.tag == .wait then
      s.tagsAct .take false ((wordSet (is.flatMap A.words)).filter (fun w =>
        (t.readsB.flatMap B.words).contains w && !s.freedFor t.id w))
    else s
  | _, _ => s

/-- The elements of the first source, as they are found once the second source's words are read. -/
def readsFirst (s : State) (t : Stream) : List Nat :=
  match t.a with
  | some A => t.readsA (s.seenView t.seen) A
  | none => []

theorem readsFirst_some {t : Stream} {A : Region} (h : t.a = some A) (s : State) :
    readsFirst s t = t.readsA (s.seenView t.seen) A := by
  rw [readsFirst, h]

/-- A stream that waits at a word of its second source does not ask for those of the first. -/
theorem sourceTags_waits {s : State} {t : Stream} (h : (meetSource s t t.b t.readsB).2.2 = false) :
    s.sourceTags t = ((meetSource s t t.b t.readsB).1, (meetSource s t t.b t.readsB).2.1, false) := by
  unfold State.sourceTags
  extract_lets meet
  have hmeet : meet = meetSource := by
    funext s t r is
    cases r <;> rfl
  rw [hmeet]
  generalize meetSource s t t.b t.readsB = b at h ⊢
  obtain ⟨s1, t1, ok⟩ := b
  obtain rfl : ok = false := h
  rfl

/-- Once all words of the second source are met, those of the first are. -/
theorem sourceTags_goes {s s1 : State} {t t1 : Stream} (h : meetSource s t t.b t.readsB = (s1, t1, true)) :
    s.sourceTags t
      = (takeShared (meetSource s1 t1 t1.a (readsFirst s1 t1)).1 (meetSource s1 t1 t1.a (readsFirst s1 t1)).2.1
          (readsFirst s1 t1) (meetSource s1 t1 t1.a (readsFirst s1 t1)).2.2,
        (meetSource s1 t1 t1.a (readsFirst s1 t1)).2.1, (meetSource s1 t1 t1.a (readsFirst s1 t1)).2.2) := by
  unfold State.sourceTags
  extract_lets meet
  have hmeet : meet = meetSource := by
    funext s t r is
    cases r <;> rfl
  rw [hmeet, h]
  dsimp only
  rw [if_neg (by decide)]
  generalize hfirst : meetSource s1 t1 t1.a _ = a
  have hnamed : meetSource s1 t1 t1.a (readsFirst s1 t1) = a := hfirst
  rw [hnamed]
  obtain ⟨s2, t2, ok⟩ := a
  unfold takeShared
  cases ha : t2.a with
  | none => rfl
  | some A =>
    cases hb : t2.b with
    | none => rfl
    | some B =>
      dsimp only
      split <;> rfl

/-! What it changes, and what it finds -/

theorem meetSource_tagged (s : State) (t : Stream) (r : Option Region) (is : List Nat) :
    Tagged s (meetSource s t r is).1 := by
  cases r with
  | none => exact tagged_refl s
  | some q => exact meetFull_tagged s s.cx.uid t.id q.tag _

theorem meetSource_stream (s : State) (t : Stream) (r : Option Region) (is : List Nat) :
    ∃ l, (meetSource s t r is).2.1 = { t with seen := l } := by
  cases r with
  | none => exact ⟨t.seen, rfl⟩
  | some q => exact ⟨_, rfl⟩

theorem takeShared_tagged (s : State) (t : Stream) (is : List Nat) (ok : Bool) : Tagged s (takeShared s t is ok) := by
  unfold takeShared
  split
  · split
    · exact tagsAct_tagged s .take false _
    · exact tagged_refl s
  · exact tagged_refl s

/-- Meeting the tags changes tags and parked accesses alone, and of the stream what it has read. -/
theorem sourceTags_changes (s : State) (t : Stream) :
    Tagged s (s.sourceTags t).1 ∧ ∃ l, (s.sourceTags t).2.1 = { t with seen := l } := by
  obtain ⟨l, hl⟩ := meetSource_stream s t t.b t.readsB
  have hb := meetSource_tagged s t t.b t.readsB
  cases hok : (meetSource s t t.b t.readsB).2.2 with
  | false =>
    rw [sourceTags_waits hok]
    exact ⟨hb, l, hl⟩
  | true =>
    have heq : meetSource s t t.b t.readsB = ((meetSource s t t.b t.readsB).1, { t with seen := l }, true) :=
      Prod.ext rfl (Prod.ext hl hok)
    obtain ⟨m, hm⟩ := meetSource_stream (meetSource s t t.b t.readsB).1 { t with seen := l } t.a
      (readsFirst (meetSource s t t.b t.readsB).1 { t with seen := l })
    rw [sourceTags_goes heq]
    exact ⟨tagged_trans hb (tagged_trans (meetSource_tagged _ _ _ _) (takeShared_tagged _ _ _ _)), m, hm⟩

theorem meetFull_keep (s : State) (owner id : Nat) {mode : TagMode} (h : mode.waits false = false) (l : List Nat) :
    s.meetFull owner id mode l = (s, [], true) := by
  rw [State.meetFull, if_neg (by rw [h]; exact Bool.false_ne_true)]

theorem meetSource_keep (s : State) (t : Stream) {r : Option Region} (h : ∀ q, r = some q → q.tag.waits false = false)
    (is : List Nat) : (meetSource s t r is).1 = s := by
  cases r with
  | none => rfl
  | some q => simp only [meetSource, meetFull_keep _ _ _ (h q rfl)]

/-- Sources of mode keep leave every tag as it is. -/
theorem sourceTags_empties_of_keep {s : State} {t : Stream}
    (h : ∀ r, (t.a = some r ∨ t.b = some r) → r.tag = .keep) : (s.sourceTags t).1.empties = s.empties := by
  have hwaits : ∀ r, (t.a = some r ∨ t.b = some r) → r.tag.waits false = false := fun r hr => by rw [h r hr]; rfl
  obtain ⟨l, hl⟩ := meetSource_stream s t t.b t.readsB
  have hb := meetSource_keep s t (fun q hq => hwaits q (.inr hq)) t.readsB
  cases hok : (meetSource s t t.b t.readsB).2.2 with
  | false => rw [sourceTags_waits hok, hb]
  | true =>
    have heq : meetSource s t t.b t.readsB = (s, { t with seen := l }, true) :=
      Prod.ext hb (Prod.ext hl hok)
    have ha := meetSource_keep s { t with seen := l } (r := t.a) (fun q hq => hwaits q (.inl hq))
      (readsFirst s { t with seen := l })
    obtain ⟨m, hm⟩ := meetSource_stream s { t with seen := l } t.a (readsFirst s { t with seen := l })
    rw [sourceTags_goes heq, ha, hm]
    unfold takeShared
    split
    · next A B hA _ => simp [h A (.inl hA)]
    · rfl

/-! All words met, or one that holds the stream up -/

/-- Where no word holds it up, an operation acts on all of them at once. -/
theorem meetFull_all {s : State} {id : Nat} {m : TagMode} {l : List Nat} (hm : m.waits false = true)
    (h : ∀ w ∈ l, MayRead s id w) (owner : Nat) :
    s.meetFull owner id m l
      = ((s.tagsAct m false (l.filter (fun w => !s.freedFor id w))).unpark id l, l.map s.wordSeen, true) := by
  have hgo : s.splitWords id m false l = (l, []) := by
    rw [State.splitWords, if_pos hm, List.partition_eq_filter_filter]
    refine Prod.ext (List.filter_eq_self.mpr fun w hw => ?_) (List.filter_eq_nil_iff.mpr fun w hw => ?_)
    · rw [tagsReady_waits hm, Bool.or_eq_true, Bool.and_eq_true]
      exact h w hw
    · rw [Function.comp_apply, tagsReady_waits hm, Bool.not_eq_true', Bool.not_eq_false, Bool.or_eq_true,
        Bool.and_eq_true]
      exact h w hw
  rw [State.meetFull, if_pos hm, hgo]
  rfl

/-- No word of some elements of a source that is not read yet holds the stream up. -/
def LetsRead (s : State) (t : Stream) (r : Option Region) (is : List Nat) : Prop :=
  ∀ q, r = some q → q.tag.waits false = true → ∀ w ∈ is.flatMap q.words,
    t.seen.any (fun e => e.1 == w) = false → MayRead s t.id w

section
variable {s : State} {t : Stream} {r : Option Region} {is : List Nat} (h : LetsRead s t r is)
include h

theorem meetSource_cases :
    meetSource s t r is = (s, t, true)
    ∨ ∃ m go, meetSource s t r is = ((s.tagsAct m false (go.filter (fun w => !s.freedFor t.id w))).unpark t.id go,
        { t with seen := t.seen ++ go.map s.wordSeen }, true) := by
  cases r with
  | none => exact .inl rfl
  | some q =>
    cases hm : q.tag.waits false with
    | false =>
      refine .inl ?_
      rw [meetSource, meetFull_keep _ _ _ hm]
      simp only [List.append_nil]
    | true =>
      have hfresh : ∀ w ∈ (wordSet (is.flatMap q.words)).filter (fun w => !t.seen.any (fun e => e.1 == w)),
          MayRead s t.id w := by
        intro w hw
        obtain ⟨hin, hnew⟩ := List.mem_filter.mp hw
        exact h q rfl hm w ((mem_wordSet w _).mp hin) (Bool.not_eq_true' _ ▸ hnew)
      refine .inr ⟨q.tag, (wordSet (is.flatMap q.words)).filter (fun w => !t.seen.any (fun e => e.1 == w)), ?_⟩
      rw [meetSource, meetFull_all hm hfresh]

theorem meetSource_met : (meetSource s t r is).2.2 = true := by
  rcases meetSource_cases h with he | ⟨m, go, he⟩ <;> rw [he]

/-- What the second source leaves for the first: every value as it was, and the words that are not read yet. -/
theorem meetSource_leaves (hseen : t.seen = []) :
    Alike s ((meetSource s t r is).1.seenView (meetSource s t r is).2.1.seen)
    ∧ ∀ w, (meetSource s t r is).2.1.seen.any (fun e => e.1 == w) = false →
        (MayRead (meetSource s t r is).1 t.id w ↔ MayRead s t.id w) := by
  rcases meetSource_cases h with he | ⟨m, go, he⟩
  · rw [he, hseen]
    exact ⟨alike_refl s, fun _ _ => Iff.rfl⟩
  · rw [he, hseen, List.nil_append]
    refine ⟨(Alike.of_tagged (tagged_trans (tagsAct_tagged s m false _) (unpark_tagged _ t.id go))).seenView go,
      fun w hw => mayRead_after s t.id m (fun hgo => ?_) (fun w hw => (List.mem_filter.mp hw).1)⟩
    have hin : (go.map s.wordSeen).any (fun e => e.1 == w) = true :=
      List.any_eq_true.mpr ⟨s.wordSeen w, List.mem_map_of_mem hgo, beq_self_eq_true w⟩
    exact Bool.noConfusion (hin.symm.trans hw)

end

/-- A stream all of whose source words let it go meets them all (07 R132). -/
theorem sourceTags_met {s : State} {t : Stream} (hseen : t.seen = [])
    (h : ∀ e ∈ t.sources s, e.1.tag.waits false = true → ∀ w ∈ e.2, MayRead s t.id w) :
    (s.sourceTags t).2.2 = true := by
  have hb : LetsRead s t t.b t.readsB := by
    intro q hq hm w hw _
    refine h (q, wordSet (t.readsB.flatMap q.words)) ?_ hm w ((mem_wordSet w _).mpr hw)
    rw [Stream.sources, hq]
    exact List.mem_append_left _ List.mem_cons_self
  have ha : ∀ q, t.a = some q → q.tag.waits false = true → ∀ w ∈ (t.readsA s q).flatMap q.words, MayRead s t.id w := by
    intro q hq hm w hw
    refine h (q, wordSet ((t.readsA s q).flatMap q.words)) ?_ hm w ((mem_wordSet w _).mpr hw)
    rw [Stream.sources, hq]
    exact List.mem_append_right _ List.mem_cons_self
  obtain ⟨l, hl⟩ := meetSource_stream s t t.b t.readsB
  obtain ⟨hview, hmay⟩ := meetSource_leaves hb hseen
  have heq : meetSource s t t.b t.readsB = ((meetSource s t t.b t.readsB).1, { t with seen := l }, true) :=
    Prod.ext rfl (Prod.ext hl (meetSource_met hb))
  rw [hl] at hview hmay
  rw [sourceTags_goes heq]
  refine meetSource_met (fun q hq hm w hw hnew => (hmay w hnew).mpr (ha q hq hm w ?_))
  have hfirst : readsFirst (meetSource s t t.b t.readsB).1 { t with seen := l } = t.readsA s q :=
    (readsFirst_some (t := { t with seen := l }) hq _).trans (hview.readsA t q)
  rwa [hfirst] at hw

/-- A stream waits at each word of its second source that holds it up, parked there (06 R109, 07 R132). -/
theorem sourceTags_parked {s : State} {t : Stream} {B : Region} {w : Nat} (hB : t.b = some B) (hseen : t.seen = [])
    (hm : B.tag.waits false = true) (hw : w ∈ t.readsB.flatMap B.words) (hheld : ¬ MayRead s t.id w) :
    (s.sourceTags t).2.2 = false ∧ ParkedAt (s.sourceTags t).1 t.id w := by
  have hfresh : w ∈ (wordSet (t.readsB.flatMap B.words)).filter (fun w => !t.seen.any (fun e => e.1 == w)) := by
    rw [hseen]
    exact List.mem_filter.mpr ⟨(mem_wordSet w _).mpr hw, rfl⟩
  generalize hl : (wordSet (t.readsB.flatMap B.words)).filter (fun w => !t.seen.any (fun e => e.1 == w)) = l at hfresh
  have hstay : w ∈ (s.splitWords t.id B.tag false l).2 := (mem_splitWords hm w).2.mpr ⟨hfresh, hheld⟩
  have hmeet : (meetSource s t t.b t.readsB).1 = (s.meetFull s.cx.uid t.id B.tag l).1
      ∧ (meetSource s t t.b t.readsB).2.2 = (s.meetFull s.cx.uid t.id B.tag l).2.2 := by
    rw [hB]
    simp only [meetSource, hl, and_self]
  have hwaits : (s.meetFull s.cx.uid t.id B.tag l).2.2 = false
      ∧ ParkedAt (s.meetFull s.cx.uid t.id B.tag l).1 t.id w := by
    rw [State.meetFull, if_pos hm]
    exact ⟨List.isEmpty_eq_false_iff.mpr (List.ne_nil_of_mem hstay), parkedAt_parkAll hstay _ _ true⟩
  rw [sourceTags_waits (hmeet.2.trans hwaits.1), hmeet.1]
  exact ⟨rfl, hwaits.2⟩

end Sys2Proof.GroupProofs

/-! ### The read half of a pass (07 R133, R138) -/

namespace Sys2Proof.GroupProofs

open Sys2Proof Sys2Proof.Machine Sys2Proof.Safety Sys2Proof.Laws

/-! Reads draw free values and change nothing else -/

/-- Everything but the counter of free values is as before. -/
def Drawn (s t : State) : Prop := t = { s with fv := t.fv }

theorem drawn_refl (s : State) : Drawn s s := rfl

theorem drawn_trans {s t u : State} (h : Drawn s t) (k : Drawn t u) : Drawn s u := by
  rw [Drawn] at h k ⊢
  rw [h] at k
  exact k

theorem draw_drawn (s : State) : Drawn s s.draw.2 := rfl

theorem codeAt_drawn (s : State) (r : Region) (i : Nat) : Drawn s (s.codeAt r i).2 := by
  rw [codeAt_snd]
  split
  · exact draw_drawn s
  · exact drawn_refl s

theorem readElem_drawn (s : State) (r : Region) (i : Nat) : Drawn s (s.readElem r i).2 := by
  unfold State.readElem
  dsimp only
  split
  · exact drawn_trans (codeAt_drawn s r i) (draw_drawn _)
  · exact codeAt_drawn s r i

theorem readOpt_drawn (s : State) (r : Option Region) (i : Nat) : Drawn s (s.readOpt r i).2 := by
  cases r with
  | none => exact drawn_refl s
  | some q => exact readElem_drawn s q i

theorem readSrc_drawn (s : State) (kept : Option (Nat × Bool)) (saved : List (Nat × Nat × Bool)) (r : Option Region)
    (i : Nat) : Drawn s (s.readSrc kept saved r i).2 := by
  unfold State.readSrc
  split
  · exact drawn_refl s
  · exact readOpt_drawn s r i

theorem emit_drawn (g : GroupWork) (D : Region) (i code : Nat) (poison undef : Bool) (f : Flags) :
    Drawn g.s (g.emit D i code poison undef f).s := by
  cases undef <;> rfl

theorem readIf_drawn (s : State) (c : Prop) [Decidable c] (D : Region) (i : Nat) (x : Nat × Bool) :
    Drawn s (if c then s.readElem D i else (x, s)).2 := by
  split
  · exact readElem_drawn s D i
  · exact drawn_refl s

theorem drawn_ite {s : State} {c : Prop} [Decidable c] {g h : GroupWork} (hg : Drawn s g.s) (hh : Drawn s h.s) :
    Drawn s (if c then g else h).s := by
  split
  · exact hg
  · exact hh

/-- An element reads its sources, by the way of its operation, and may draw its result. -/
theorem elem_drawn (t : Stream) (g : GroupWork) (i : Nat) : Drawn g.s (t.elem g i).s := by
  have hemit : ∀ {g' : GroupWork} {D : Region} {k code : Nat} {poison undef : Bool} {f : Flags}, Drawn g.s g'.s →
      Drawn g.s (g'.emit D k code poison undef f).s := fun h => drawn_trans h (emit_drawn _ _ _ _ _ _ _)
  unfold Stream.elem
  dsimp only
  cases t.dst with
  | none =>
    cases t.a with
    | none => exact drawn_refl g.s
    | some A => exact readElem_drawn g.s A i
  | some D =>
    dsimp only
    cases t.op with
    | vop fn opt =>
      exact hemit (drawn_trans (readSrc_drawn _ _ _ _ _)
        (drawn_trans (readSrc_drawn _ _ _ _ _) (readIf_drawn _ _ _ _ _)))
    | vsfn fn => exact hemit (readSrc_drawn _ _ _ _ _)
    | chain w =>
      exact hemit (drawn_trans (readSrc_drawn _ _ _ _ _)
        (drawn_trans (readSrc_drawn _ _ _ _ _) (readIf_drawn _ _ _ _ _)))
    | perm fn =>
      have hb := readSrc_drawn g.s t.keepB t.savedB t.b (srcIdx t.b i)
      dsimp only
      generalize (g.s.readSrc t.keepB t.savedB t.b (srcIdx t.b i)).2 = s at hb ⊢
      have ha : ∀ k, Drawn g.s (s.readSrc t.keepA t.savedA t.a k).2 := fun k =>
        drawn_trans hb (readSrc_drawn _ _ _ _ _)
      match fn with
      | 0 | 1 =>
        refine drawn_ite ?_ hb
        dsimp only
        exact hemit (ha _)
      | 2 => exact drawn_ite (hemit hb) (drawn_ite (hemit (ha _)) (hemit hb))
      | 3 => exact drawn_ite hb (drawn_ite (hemit (ha _)) hb)
      | n + 4 => exact hemit (ha _)
    | scan op =>
      have ha := readSrc_drawn g.s t.keepA t.savedA t.a (srcIdx t.a i)
      dsimp only
      refine hemit ?_
      dsimp only
      split
      · split
        · exact ha
        · exact drawn_trans ha (draw_drawn _)
      · exact ha
    | red fn ps => exact drawn_refl g.s
    | latchOut ps l => exact hemit (drawn_refl g.s)

theorem elems_drawn (t : Stream) (l : List Nat) (g : GroupWork) : Drawn g.s (l.foldl t.elem g).s :=
  List.foldlRecOn l t.elem (motive := fun x : GroupWork => Drawn g.s x.s) (drawn_refl g.s)
    (fun x hx i _ => drawn_trans hx (elem_drawn t x i))

/-! What the read half leaves -/

/-- What reading and writing a group never change of a stream: its number, its groups, its regions. -/
structure SameStream (t q : Stream) : Prop where
  id : q.id = t.id
  single : q.single = t.single
  group : q.group = t.group
  groups : q.groups = t.groups
  dst : q.dst = t.dst

theorem seenView_only (s : State) (l : List (Nat × Nat × Bool)) :
    s.seenView l = { s with mem := (s.seenView l).mem, marks := (s.seenView l).marks } := by
  refine foldl_related (R := fun s t => t = { s with mem := t.mem, marks := t.marks }) (fun _ => rfl) ?_ (fun s e => ?_) l s
  · intro s t u h k
    rw [h] at k
    exact k
  · rw [setMark_only, setWord_only]

/-- The read half of a pass draws values and leaves the rest of the state. -/
theorem readPass_drawn (s : State) (t : Stream) : Drawn s (s.readPass t).1 := by
  have hg := elems_drawn t t.indices
    { s := s.seenView t.seen, idx := t.idx, part := t.part, poison := t.poison, flags := t.flags }
  have hback : ∀ u, Drawn (s.seenView t.seen) u → Drawn s { u with mem := s.mem, marks := s.marks } := by
    intro u hu
    rw [Drawn] at hu
    rw [hu, seenView_only]
    rfl
  unfold State.readPass
  dsimp only
  split <;> exact hback _ hg

theorem readPass_stream (s : State) (t : Stream) :
    SameStream t (s.readPass t).2 ∧ (s.readPass t).2.acted = t.acted := by
  unfold State.readPass
  dsimp only
  split
  · exact ⟨⟨rfl, rfl, rfl, rfl, rfl⟩, rfl⟩
  · split <;> exact ⟨⟨rfl, rfl, rfl, rfl, rfl⟩, rfl⟩

end Sys2Proof.GroupProofs

/-! ### What a VOP stream keeps of a group (07 R133, R137, R138) -/

namespace Sys2Proof.GroupProofs

open Sys2Proof Sys2Proof.Machine Sys2Proof.Safety Sys2Proof.Laws

/-- The code of an element's old destination, where the operation reads it. -/
def oldDst (t : Stream) (v : State) (D : Region) (i : Nat) : Nat × Bool :=
  if t.op.readsDst then (v.readElem D i).1 else (0, false)

/-- The code that a VOP stream computes at an index from its sources as they stand. -/
def vopResult (t : Stream) (v : State) (fn opt : Nat) (D : Region) (i : Nat) : Nat × Flags :=
  v.vopElem fn opt D t.a t.b i (srcIdx t.a i) (srcIdx t.b i) (v.readOpt t.a (srcIdx t.a i)).1.1
    (v.readOpt t.b (srcIdx t.b i)).1.1 (oldDst t v D i).1

/-- A source leaves undefined what it shares with the destination (07 R133). -/
def undefinedBy (t : Stream) (D : Region) (q : Region) (i : Nat) : Bool :=
  if t.op.broadcasts q then broadcastUndefined D t.n q else overlapUndefined D t.n q (srcIdx (some q) i)

/-- A VOP stream that reads its sources as they stand, an element at a time of neither. -/
structure PlainVop (t : Stream) (fn opt : Nat) (D : Region) : Prop where
  op : t.op = .vop fn opt
  notFill : fn ≠ 16
  dst : t.dst = some D
  keepA : t.keepA = none
  keepB : t.keepB = none
  savedA : t.savedA = []
  savedB : t.savedB = []

/-- The reads of an index leave the state as it is, and find no poison and nothing undefined. -/
structure CleanAt (t : Stream) (v : State) (D : Region) (i : Nat) : Prop where
  readA : (v.readOpt t.a (srcIdx t.a i)).2 = v
  readB : (v.readOpt t.b (srcIdx t.b i)).2 = v
  readD : (v.readElem D i).2 = v
  defined : ∀ q, (t.a = some q ∨ t.b = some q) → undefinedBy t D q i = false
  poisonA : (v.readOpt t.a (srcIdx t.a i)).1.2 = false
  poisonB : (v.readOpt t.b (srcIdx t.b i)).1.2 = false
  poisonD : (oldDst t v D i).2 = false
  poisonScale : v.scalePoison D i = false

theorem readSrc_plain (s : State) (r : Option Region) (i : Nat) : s.readSrc none [] r i = s.readOpt r i := rfl

/-- A clean result is kept as it was computed. -/
theorem emit_clean {g : GroupWork} {D : Region} {i : Nat} {poison undef : Bool} (hscale : g.s.scalePoison D i = false)
    (hpoison : poison = false) (hundef : undef = false) (code : Nat) (f : Flags) :
    (g.emit D i code poison undef f).s = g.s ∧ (g.emit D i code poison undef f).out = g.out ++ [⟨i, code, false⟩] := by
  simp [GroupWork.emit, hscale, hpoison, hundef]

/-- A clean element of a VOP stream is the element result of its index (07 R138). -/
theorem elem_plainVop {t : Stream} {fn opt : Nat} {D : Region} (ht : PlainVop t fn opt D) {g : GroupWork} {i : Nat}
    (hc : CleanAt t g.s D i) :
    (t.elem g i).s = g.s ∧ (t.elem g i).out = g.out ++ [⟨i, (vopResult t g.s fn opt D i).1, false⟩] := by
  have hdst : (if (StreamOp.vop fn opt).readsDst then g.s.readElem D i else ((0, false), g.s)) = (oldDst t g.s D i, g.s) := by
    rw [oldDst, ht.op]
    split
    · exact Prod.ext rfl hc.readD
    · rfl
  have hund : ∀ r, (r = t.a ∨ r = t.b) → (match r with
      | some q => if (StreamOp.vop fn opt).broadcasts q then broadcastUndefined D t.n q
        else overlapUndefined D t.n q (srcIdx r i)
      | none => false) = false := by
    intro r hr
    cases r with
    | none => rfl
    | some q =>
      have := hc.defined q (hr.imp Eq.symm Eq.symm)
      rwa [undefinedBy, ht.op] at this
  have hclean : ((g.s.readOpt t.a (srcIdx t.a i)).1.2 || (g.s.readOpt t.b (srcIdx t.b i)).1.2 || (oldDst t g.s D i).2)
      = false := by
    rw [hc.poisonA, hc.poisonB, hc.poisonD]
    rfl
  unfold Stream.elem
  rw [ht.dst]
  dsimp only
  rw [ht.op]
  dsimp only
  rw [if_neg ht.notFill, ht.keepA, ht.keepB, ht.savedA, ht.savedB, readSrc_plain, readSrc_plain, hc.readA, hc.readB, hdst]
  exact emit_clean hc.poisonScale hclean (Bool.or_eq_false_iff.mpr ⟨hund t.a (.inl rfl), hund t.b (.inr rfl)⟩) _ _

/-- The clean elements of a pass are kept in the order of their indices. -/
theorem elems_plainVop {t : Stream} {fn opt : Nat} {D : Region} (ht : PlainVop t fn opt D) {l : List Nat}
    {g : GroupWork} (hc : ∀ i ∈ l, CleanAt t g.s D i) :
    (l.foldl t.elem g).s = g.s
    ∧ (l.foldl t.elem g).out = g.out ++ l.map (fun i => ⟨i, (vopResult t g.s fn opt D i).1, false⟩) := by
  induction l generalizing g with
  | nil => exact ⟨rfl, (List.append_nil _).symm⟩
  | cons i l ih =>
    obtain ⟨hstate, hout⟩ := elem_plainVop ht (hc i List.mem_cons_self)
    have hrest : ∀ j ∈ l, CleanAt t (t.elem g i).s D j := fun j hj => hstate ▸ hc j (List.mem_cons_of_mem i hj)
    obtain ⟨hstate', hout'⟩ := ih hrest
    rw [hstate] at hstate' hout'
    refine ⟨hstate', hout'.trans ?_⟩
    rw [hout, List.append_assoc]
    rfl

/-- What a VOP stream keeps of a clean group, no word of which is freed (07 R138). -/
theorem readPass_plainVop {s : State} {t : Stream} {fn opt : Nat} {D : Region} (ht : PlainVop t fn opt D)
    (hsingle : t.single = false) (hheld : t.held = []) (hc : ∀ i ∈ t.indices, CleanAt t (s.seenView t.seen) D i)
    (hfreed : ∀ e ∈ t.sources (s.seenView t.seen), ∀ w ∈ e.2, s.freedFor t.id w = false) :
    (s.readPass t).2.out = some (t.indices.map (fun i => ⟨i, (vopResult t (s.seenView t.seen) fn opt D i).1, false⟩)) := by
  obtain ⟨hstate, hout⟩ := elems_plainVop ht (g := { s := s.seenView t.seen, idx := t.idx, part := t.part
                                                     poison := t.poison, flags := t.flags }) hc
  have hlost : ∀ x : State, x.core = s.core →
      (t.sources (s.seenView t.seen)).any (fun e => e.2.any (x.freedFor t.id)) = false := by
    intro x hx
    have hsame : x.freedFor t.id = s.freedFor t.id := by
      funext w
      rw [State.freedFor, hx, State.freedFor]
    rw [hsame, List.any_eq_false]
    intro e he hany
    obtain ⟨w, hw, hfree⟩ := List.any_eq_true.mp hany
    exact Bool.noConfusion (hfree.symm.trans (hfreed e he w hw))
  unfold State.readPass
  dsimp only
  rw [hstate, hlost _ (by rw [seenView_only]), ht.op]
  dsimp only
  rw [hsingle, hheld, if_neg Bool.false_ne_true, Bool.false_and, if_neg Bool.false_ne_true, hout]
  rfl

end Sys2Proof.GroupProofs

/-! ### An element in memory: its bits written and read back (04 R53, R54; 07 R129, R133) -/

namespace Sys2Proof.GroupProofs

open Sys2Proof Sys2Proof.Machine Sys2Proof.Safety Sys2Proof.Laws Sys2Proof.ComputeProofs

/-! What a write of an element may change -/

/-- Everything but memory, marks, tiles and the counter of free values is as before. -/
def Stored (s t : State) : Prop :=
  t = { s with mem := t.mem, marks := t.marks, fv := t.fv, cx := { s.cx with tiles := t.cx.tiles } }

theorem stored_refl (s : State) : Stored s s := rfl

theorem stored_trans {s t u : State} (h : Stored s t) (k : Stored t u) : Stored s u := by
  rw [Stored] at h k ⊢
  rw [h] at k
  exact k

theorem writeNat_stored (s : State) (loc n v : Nat) : Stored s (s.writeNat loc n v) := by
  rw [State.writeNat, setBytes_only]
  exact rfl

theorem setMark_stored (s : State) (loc : Nat) (m : Bool) : Stored s (s.setMark loc m) := by
  cases m <;> rfl

/-- The bits of an element of bit planes are written one by one. -/
def putPlane (s : State) (r : Region) (i code n : Nat) : State :=
  (List.range n).foldl (fun (s : State) j =>
    let b := r.at i + 8 * j + i % 64 / 8
    let old := (s.byte b).toNat
    let bit := 2 ^ (i % 8)
    s.setByte b (BitVec.ofNat 8 (old - old / bit % 2 * bit + code / 2 ^ j % 2 * bit))) s

/-- The code of an element of whole or half bytes. -/
def putCode (s : State) (r : Region) (i code : Nat) : State :=
  if 16 ≤ r.fmt.width then s.writeNat (r.at i) (r.fmt.width / 8) code
  else if 5 ≤ r.fmt.width then s.writeNat (r.at i) 1 code
  else if (i * r.stride) % 2 = 0 then s.writeNat (r.at i) 1 ((s.byte (r.at i)).toNat / 16 * 16 + code % 16)
  else s.writeNat (r.at i) 1 ((s.byte (r.at i)).toNat % 16 + code % 16 * 16)

/-- Marks of the lines of a poisoned element. -/
def putMarks (s : State) (r : Region) (i : Nat) (poison : Bool) : State :=
  if poison then
    if r.kind = 1 then (List.range r.fmt.width).foldl (fun (s : State) j => s.setMark (r.at i + 8 * j) true) s
    else s.setMark (r.at i) true
  else s

theorem putElem_plane {r : Region} (h : r.kind = 1) (s : State) (i code : Nat) (poison : Bool) :
    s.putElem r i code poison = putMarks (putPlane s r i code r.fmt.width) r i poison := by
  cases poison <;> simp [State.putElem, putMarks, putPlane, h]

theorem putElem_code {r : Region} (h1 : r.kind ≠ 1) (h2 : r.kind ≠ 2) (s : State) (i code : Nat) (poison : Bool) :
    s.putElem r i code poison = putMarks (putCode s r i code) r i poison := by
  cases poison <;> simp [State.putElem, putMarks, putCode, h1, h2]

theorem putPlane_stored (s : State) (r : Region) (i code n : Nat) : Stored s (putPlane s r i code n) := by
  unfold putPlane
  refine foldl_related stored_refl stored_trans (fun u j => ?_) (List.range n) s
  exact rfl

theorem putCode_stored (s : State) (r : Region) (i code : Nat) : Stored s (putCode s r i code) := by
  unfold putCode
  split_ifs <;> exact writeNat_stored s _ _ _

theorem putMarks_stored (s : State) (r : Region) (i : Nat) (poison : Bool) : Stored s (putMarks s r i poison) := by
  unfold putMarks
  split_ifs
  · exact foldl_related stored_refl stored_trans (fun s j => setMark_stored s _ true) (List.range r.fmt.width) s
  · exact setMark_stored s _ true
  · exact stored_refl s

theorem putElem_stored (s : State) (r : Region) (i code : Nat) (poison : Bool) :
    Stored s (s.putElem r i code poison) := by
  by_cases h2 : r.kind = 2
  · unfold State.putElem
    rw [if_pos h2]
    split <;> rfl
  · by_cases h1 : r.kind = 1
    · rw [putElem_plane h1]
      exact stored_trans (putPlane_stored s r i code _) (putMarks_stored _ r i poison)
    · rw [putElem_code h1 h2]
      exact stored_trans (putCode_stored s r i code) (putMarks_stored _ r i poison)

/-- Marks change no byte. -/
theorem byte_putMarks (s : State) (r : Region) (i : Nat) (poison : Bool) (a : Nat) :
    (putMarks s r i poison).byte a = s.byte a := by
  unfold putMarks
  split_ifs
  · exact List.foldlRecOn (List.range r.fmt.width) _ (motive := fun u : State => u.byte a = s.byte a) rfl
      (fun u hu j _ => (byte_setMark u _ true a).trans hu)
  · exact byte_setMark s _ true a
  · rfl

/-! Bits -/

theorem readNat_one (s : State) (loc : Nat) : s.readNat loc 1 = (s.byte loc).toNat := by
  simp [State.readNat, State.bytes, natOfBytes]

theorem byte_writeNat_one (s : State) (loc v a : Nat) :
    (s.writeNat loc 1 v).byte a = if a = loc then BitVec.ofNat 8 v else s.byte a := by
  rw [State.writeNat, byte_setBytes]
  by_cases h : a = loc
  · simp [h, bytesOfNat]
  · rw [if_neg (by simp only [length_bytesOfNat]; omega), if_neg h]

/-- The bits of a byte one of whose fields is replaced. -/
theorem getLsbD_byte_replace (old : Byte) {f : Nat} (lo len : Nat) {k : Nat} (hf : f < 2 ^ len) (hk : k < 8) :
    (BitVec.ofNat 8 (old.toNat - old.toNat / 2 ^ lo % 2 ^ len * 2 ^ lo + f * 2 ^ lo)).getLsbD k
      = if lo ≤ k ∧ k < lo + len then f.testBit (k - lo) else old.getLsbD k := by
  rw [BitVec.getLsbD_ofNat, testBit_replace _ _ _ _ hf, decide_eq_true hk, Bool.true_and]
  rfl

/-- A bit of memory lies in the storage of an element. -/
def InCells (r : Region) (i l k : Nat) : Prop := ∃ c ∈ r.cells i, c.1 = l ∧ c.2.1 ≤ k ∧ k < c.2.1 + c.2.2

/-- Elements that share no storage have no bit in common. -/
theorem not_inCells_of_apart {r q : Region} {i j : Nat} (h : r.shares i q j = false) {l k : Nat}
    (hq : InCells q j l k) : ¬ InCells r i l k := by
  rintro ⟨c, hc, hcl, hck, hck'⟩
  obtain ⟨d, hd, hdl, hdk, hdk'⟩ := hq
  have hshare : r.shares i q j = true := by
    refine List.any_eq_true.mpr ⟨c, hc, List.any_eq_true.mpr ⟨d, hd, ?_⟩⟩
    simp only [Bool.and_eq_true, beq_iff_eq, decide_eq_true_eq]
    omega
  exact Bool.noConfusion (hshare.symm.trans h)

theorem inCells_plane {r : Region} (h : r.kind = 1) {i j : Nat} (hj : j < r.fmt.width) :
    InCells r i (r.at i + 8 * j + i % 64 / 8) (i % 8) := by
  refine ⟨(r.at i + 8 * j + i % 64 / 8, i % 8, 1), ?_, rfl, Nat.le_refl _, Nat.lt_succ_self _⟩
  rw [Region.cells, if_neg (by omega), if_pos h]
  exact List.mem_map_of_mem (List.mem_range.mpr hj)

/-- The first bit of an element of half a byte (04 R54). -/
def halfBit (r : Region) (i : Nat) : Nat := if (i * r.stride) % 2 = 0 then 0 else 4

theorem halfBit_le (r : Region) (i : Nat) : halfBit r i ≤ 4 := by
  unfold halfBit
  split <;> omega

theorem inCells_half {r : Region} (h1 : r.kind ≠ 1) (h2 : r.kind ≠ 2) (hw : r.fmt.width < 5) (i l k : Nat) :
    InCells r i l k ↔ r.at i = l ∧ halfBit r i ≤ k ∧ k < halfBit r i + 4 := by
  simp only [InCells, Region.cells, if_neg h1, if_neg h2, if_pos (Nat.le_of_lt_succ hw), List.mem_singleton,
    exists_eq_left, halfBit]

theorem inCells_whole {r : Region} (h1 : r.kind ≠ 1) (h2 : r.kind ≠ 2) (hw : 5 ≤ r.fmt.width) (i : Nat) {j k : Nat}
    (hj : j < r.span) (hk : k < 8) : InCells r i (r.at i + j) k := by
  refine ⟨(r.at i + j, 0, 8), ?_, rfl, Nat.zero_le k, by omega⟩
  rw [Region.cells, if_neg h2, if_neg h1, if_neg (by omega)]
  exact List.mem_map_of_mem (List.mem_range.mpr hj)

/-! A bit plane -/

theorem putPlane_succ (s : State) (r : Region) (i code n : Nat) :
    putPlane s r i code (n + 1) = (putPlane s r i code n).setByte (r.at i + 8 * n + i % 64 / 8)
      (BitVec.ofNat 8 (((putPlane s r i code n).byte (r.at i + 8 * n + i % 64 / 8)).toNat
        - ((putPlane s r i code n).byte (r.at i + 8 * n + i % 64 / 8)).toNat / 2 ^ (i % 8) % 2 ^ 1 * 2 ^ (i % 8)
        + code / 2 ^ n % 2 * 2 ^ (i % 8))) := by
  rw [putPlane, List.range_succ, List.foldl_append]
  rfl

/-- The bits that the first planes of an element change, and to what. -/
theorem bit_putPlane (s : State) (r : Region) (i code n : Nat) {l k : Nat} (hk : k < 8) :
    ((putPlane s r i code n).byte l).getLsbD k
      = if k = i % 8 ∧ ∃ j < n, l = r.at i + 8 * j + i % 64 / 8 then code.testBit ((l - r.at i) / 8)
        else (s.byte l).getLsbD k := by
  induction n with
  | zero => simp [putPlane]
  | succ n ih =>
    have hbit : code / 2 ^ n % 2 < 2 ^ 1 := Nat.mod_lt _ (by decide)
    rw [putPlane_succ, byte_setByte]
    by_cases hl : r.at i + 8 * n + i % 64 / 8 = l
    · rw [if_pos hl, getLsbD_byte_replace _ _ _ hbit hk, hl, ih]
      have hplane : (l - r.at i) / 8 = n := by omega
      by_cases hki : k = i % 8
      · rw [if_pos (by omega), if_pos ⟨hki, n, Nat.lt_succ_self n, hl.symm⟩, hplane, hki, Nat.sub_self,
          Nat.testBit_eq_decide_div_mod_eq, Nat.testBit_eq_decide_div_mod_eq, Nat.pow_zero, Nat.div_one, Nat.mod_mod]
      · rw [if_neg (by omega), if_neg (by tauto), if_neg (by tauto)]
    · have hiff : (∃ j < n + 1, l = r.at i + 8 * j + i % 64 / 8) ↔ ∃ j < n, l = r.at i + 8 * j + i % 64 / 8 := by
        refine ⟨fun ⟨j, hj, he⟩ => ⟨j, ?_, he⟩, fun ⟨j, hj, he⟩ => ⟨j, by omega, he⟩⟩
        rcases Nat.lt_succ_iff_lt_or_eq.mp hj with h | rfl
        · exact h
        · exact absurd he.symm hl
      simp only [if_neg hl, ih, hiff]

/-- The code that a fold over the bits of a number makes of them. -/
theorem foldl_bits (bit : Nat → Nat) (code n : Nat) (h : ∀ j < n, bit j = code / 2 ^ j % 2) :
    (List.range n).foldl (fun c j => c + bit j * 2 ^ j) 0 = code % 2 ^ n := by
  induction n with
  | zero => simp [Nat.mod_one]
  | succ n ih =>
    rw [List.range_succ, List.foldl_append, ih (fun j hj => h j (by omega)), List.foldl_cons, List.foldl_nil,
      h n (Nat.lt_succ_self n), Nat.mod_pow_succ, Nat.mul_comm]

/-! Reading an element -/

theorem codeAt_plane {r : Region} (h : r.kind = 1) (s : State) (i : Nat) :
    (s.codeAt r i).1.1 = (List.range r.fmt.width).foldl (fun c j =>
      c + s.readNat (r.at i + 8 * j + i % 64 / 8) 1 / 2 ^ (i % 8) % 2 * 2 ^ j) 0 := by
  simp [State.codeAt, h]

theorem codeAt_code {r : Region} (h1 : r.kind ≠ 1) (h2 : r.kind ≠ 2) (s : State) (i : Nat) :
    (s.codeAt r i).1.1 = if 16 ≤ r.fmt.width then s.readNat (r.at i) (r.fmt.width / 8)
      else if 5 ≤ r.fmt.width then s.readNat (r.at i) 1 % 2 ^ r.fmt.width
      else s.readNat (r.at i) 1 / (if (i * r.stride) % 2 = 0 then 1 else 16) % 2 ^ r.fmt.width := by
  simp [State.codeAt, h1, h2]

/-- An element of half a byte is one field of its byte. -/
theorem putCode_half {r : Region} (hw : r.fmt.width < 5) (s : State) (i code : Nat) :
    putCode s r i code = s.writeNat (r.at i) 1 ((s.byte (r.at i)).toNat
      - (s.byte (r.at i)).toNat / 2 ^ halfBit r i % 2 ^ 4 * 2 ^ halfBit r i + code % 16 * 2 ^ halfBit r i) := by
  have hold : (s.byte (r.at i)).toNat < 256 := (s.byte (r.at i)).isLt
  rw [putCode, if_neg (by omega), if_neg (by omega), halfBit]
  split
  · congr 1
    omega
  · congr 1
    omega

theorem bit_putCode_half {r : Region} (hw : r.fmt.width < 5) (s : State) (i code : Nat) {l k : Nat} (hk : k < 8) :
    ((putCode s r i code).byte l).getLsbD k
      = if l = r.at i ∧ halfBit r i ≤ k ∧ k < halfBit r i + 4 then code.testBit (k - halfBit r i)
        else (s.byte l).getLsbD k := by
  rw [putCode_half hw, byte_writeNat_one]
  by_cases hl : l = r.at i
  · subst hl
    have hcode : code % 16 < 2 ^ 4 := Nat.mod_lt _ (by decide)
    rw [if_pos rfl, getLsbD_byte_replace _ _ 4 hcode hk]
    by_cases hin : halfBit r i ≤ k ∧ k < halfBit r i + 4
    · rw [if_pos hin, if_pos ⟨rfl, hin⟩, show (16 : Nat) = 2 ^ 4 from rfl, Nat.testBit_mod_two_pow,
        decide_eq_true (by omega), Bool.true_and]
    · rw [if_neg hin, if_neg (fun h => hin h.2)]
  · rw [if_neg hl, if_neg (fun h => hl h.1)]

/-- An element of whole bytes writes the bytes of its span. -/
theorem byte_putCode_whole {r : Region} (h1 : r.kind ≠ 1) (hw : 5 ≤ r.fmt.width) (s : State) (i code : Nat) {l : Nat}
    (hl : l < r.at i ∨ r.at i + r.span ≤ l) : (putCode s r i code).byte l = s.byte l := by
  rw [Region.span, if_neg h1] at hl
  unfold putCode
  by_cases hwide : 16 ≤ r.fmt.width
  · rw [if_pos hwide] at hl
    rw [if_pos hwide, State.writeNat, byte_setBytes, length_bytesOfNat, if_neg (by omega)]
  · rw [if_neg hwide] at hl
    rw [if_neg hwide, if_pos hw, byte_writeNat_one, if_neg (by omega)]

/-- A write of an element changes no bit outside its storage. -/
theorem bit_putElem_other {r : Region} (h2 : r.kind ≠ 2) (s : State) (i code : Nat) (poison : Bool) {l k : Nat}
    (hk : k < 8) (hout : ¬ InCells r i l k) :
    ((s.putElem r i code poison).byte l).getLsbD k = (s.byte l).getLsbD k := by
  by_cases h1 : r.kind = 1
  · rw [putElem_plane h1, byte_putMarks, bit_putPlane _ _ _ _ _ hk, if_neg]
    rintro ⟨rfl, j, hj, rfl⟩
    exact hout (inCells_plane h1 hj)
  · rw [putElem_code h1 h2, byte_putMarks]
    by_cases hw : r.fmt.width < 5
    · rw [bit_putCode_half hw _ _ _ hk, if_neg]
      rintro ⟨rfl, hin⟩
      exact hout ((inCells_half h1 h2 hw i _ k).mpr ⟨rfl, hin⟩)
    · rw [byte_putCode_whole h1 (Nat.not_lt.mp hw)]
      by_contra hin
      have hspan := inCells_whole h1 h2 (Nat.not_lt.mp hw) i (j := l - r.at i) (by omega) hk
      rw [Nat.add_sub_cancel' (by omega)] at hspan
      exact hout hspan

theorem byte_eq_of_bits {x y : Byte} (h : ∀ k < 8, x.getLsbD k = y.getLsbD k) : x = y :=
  BitVec.eq_of_getLsbD_eq h

theorem readNat_congr {s t : State} {loc n : Nat} (h : ∀ j < n, t.byte (loc + j) = s.byte (loc + j)) :
    t.readNat loc n = s.readNat loc n := by
  simp only [State.readNat, State.bytes]
  rw [List.map_congr_left (fun j hj => h j (List.mem_range.mp hj))]

/-- A bit of a byte as the plane's reader finds it. -/
theorem readNat_bit (s : State) (loc k : Nat) :
    s.readNat loc 1 / 2 ^ k % 2 = ((s.byte loc).getLsbD k).toNat := by
  rw [readNat_one, BitVec.getLsbD, Nat.testBit_eq_decide_div_mod_eq]
  have := Nat.mod_two_eq_zero_or_one ((s.byte loc).toNat / 2 ^ k)
  rcases this with h | h <;> simp [h]

/-- The bits of an element of half a byte as its reader finds them. -/
theorem testBit_codeAt_half {r : Region} (h1 : r.kind ≠ 1) (h2 : r.kind ≠ 2) (hw : r.fmt.width < 5) (s : State)
    (i m : Nat) : (s.codeAt r i).1.1.testBit m
      = (decide (m < r.fmt.width) && (s.byte (r.at i)).getLsbD (halfBit r i + m)) := by
  rw [codeAt_code h1 h2, if_neg (show ¬16 ≤ r.fmt.width by omega), if_neg (show ¬5 ≤ r.fmt.width by omega)]
  have hdiv : (if (i * r.stride) % 2 = 0 then 1 else 16) = 2 ^ halfBit r i := by
    unfold halfBit
    split <;> rfl
  rw [hdiv, Nat.testBit_mod_two_pow, Nat.testBit_div_two_pow, readNat_one, Nat.add_comm m]
  rfl

/-- The code of an element is that of the bits of its storage. -/
theorem codeAt_congr {r : Region} (h2 : r.kind ≠ 2) {s t : State} {i : Nat}
    (h : ∀ l, ∀ k < 8, InCells r i l k → (t.byte l).getLsbD k = (s.byte l).getLsbD k) :
    (t.codeAt r i).1.1 = (s.codeAt r i).1.1 := by
  by_cases h1 : r.kind = 1
  · rw [codeAt_plane h1, codeAt_plane h1]
    refine List.foldl_ext _ _ _ (fun c j hj => ?_)
    rw [readNat_bit, readNat_bit, h _ _ (Nat.mod_lt _ (by decide)) (inCells_plane h1 (List.mem_range.mp hj))]
  · by_cases hw : r.fmt.width < 5
    · apply Nat.eq_of_testBit_eq
      intro m
      rw [testBit_codeAt_half h1 h2 hw, testBit_codeAt_half h1 h2 hw]
      by_cases hm : m < r.fmt.width
      · have hle := halfBit_le r i
        rw [h _ _ (by omega) ((inCells_half h1 h2 hw i _ _).mpr ⟨rfl, by omega⟩)]
      · rw [decide_eq_false hm, Bool.false_and, Bool.false_and]
    · have hbyte : ∀ j < r.span, t.byte (r.at i + j) = s.byte (r.at i + j) := fun j hj =>
        byte_eq_of_bits (fun k hk => h _ k hk (inCells_whole h1 h2 (Nat.not_lt.mp hw) i hj hk))
      rw [Region.span, if_neg h1] at hbyte
      rw [codeAt_code h1 h2, codeAt_code h1 h2]
      by_cases hwide : 16 ≤ r.fmt.width
      · rw [if_pos hwide] at hbyte
        rw [if_pos hwide, if_pos hwide, readNat_congr hbyte]
      · rw [if_neg hwide] at hbyte
        rw [if_neg hwide, if_neg hwide, if_pos (by omega), if_pos (by omega), readNat_congr hbyte]

/-- A code that fits its format is read back as it was written (04 R53, R54). -/
theorem codeAt_putElem {r : Region} (h2 : r.kind ≠ 2) (hfmt : r.fmt.width ≤ 8 ∨ 8 ∣ r.fmt.width) (s : State) (i : Nat)
    {code : Nat} (hcode : code < 2 ^ r.fmt.width) (poison : Bool) :
    ((s.putElem r i code poison).codeAt r i).1.1 = code := by
  by_cases h1 : r.kind = 1
  · rw [putElem_plane h1, codeAt_plane h1, foldl_bits (fun j => _ / 2 ^ (i % 8) % 2) code, Nat.mod_eq_of_lt hcode]
    intro j hj
    rw [readNat_bit, byte_putMarks, bit_putPlane _ _ _ _ _ (Nat.mod_lt _ (by decide)), if_pos ⟨rfl, j, hj, rfl⟩]
    have hplane : (r.at i + 8 * j + i % 64 / 8 - r.at i) / 8 = j := by omega
    rw [hplane, Nat.testBit_eq_decide_div_mod_eq]
    rcases Nat.mod_two_eq_zero_or_one (code / 2 ^ j) with h | h <;> simp [h]
  · rw [putElem_code h1 h2]
    have hread : ∀ n, (putMarks (putCode s r i code) r i poison).readNat (r.at i) n
        = (putCode s r i code).readNat (r.at i) n := fun n => readNat_congr (fun j _ => byte_putMarks _ _ _ _ _)
    by_cases hw : r.fmt.width < 5
    · apply Nat.eq_of_testBit_eq
      intro m
      rw [testBit_codeAt_half h1 h2 hw, byte_putMarks]
      by_cases hm : m < r.fmt.width
      · have hle := halfBit_le r i
        rw [bit_putCode_half hw _ _ _ (by omega), if_pos ⟨rfl, by omega⟩, decide_eq_true hm, Bool.true_and,
          Nat.add_sub_cancel_left]
      · rw [decide_eq_false hm, Bool.false_and]
        exact (Nat.testBit_lt_two_pow (hcode.trans_le (Nat.pow_le_pow_right (by decide) (Nat.not_lt.mp hm)))).symm
    · rw [codeAt_code h1 h2]
      by_cases hwide : 16 ≤ r.fmt.width
      · obtain ⟨n, hn⟩ : 8 ∣ r.fmt.width := hfmt.resolve_left (by omega)
        rw [if_pos hwide, hread, putCode, if_pos hwide, readNat_writeNat, Nat.mod_eq_of_lt]
        rw [hn] at hcode ⊢
        rwa [Nat.mul_div_cancel_left n (by decide), show (256 : Nat) = 2 ^ 8 from rfl, ← Nat.pow_mul]
      · have hbyte : code < 256 ^ 1 :=
          hcode.trans_le ((Nat.pow_le_pow_right (by decide) (by omega : r.fmt.width ≤ 8)).trans_eq (by decide))
        rw [if_neg hwide, if_pos (by omega), hread, putCode, if_neg hwide, if_pos (by omega), readNat_writeNat,
          Nat.mod_eq_of_lt hbyte, Nat.mod_eq_of_lt hcode]

end Sys2Proof.GroupProofs

/-! ### Elements of a tile, and the results of a group written one after another (07 R129, R133; 08 R168) -/

namespace Sys2Proof.GroupProofs

open Sys2Proof Sys2Proof.Machine Sys2Proof.Safety Sys2Proof.Laws

/-! A tile -/

/-- The element at an index of a list of elements. -/
def elemAt (l : List (Nat × Word)) (i : Nat) : Word := ((l.find? (fun e => e.1 == i)).map (·.2)).getD 0

theorem elemAt_cons (k : Nat) (w : Word) (l : List (Nat × Word)) (i : Nat) :
    elemAt ((k, w) :: l) i = if k = i then w else elemAt l i := by
  by_cases h : k = i <;> simp [elemAt, h]

theorem elemAt_insertElem (i : Nat) (v : Word) (l : List (Nat × Word)) (j : Nat) :
    elemAt (insertElem i v l) j = if j = i then v else elemAt l j := by
  induction l with
  | nil => rw [insertElem, elemAt_cons]; simp only [eq_comm]
  | cons e l ih =>
    obtain ⟨k, w⟩ := e
    rw [insertElem]
    by_cases hlt : i < k
    · rw [if_pos hlt, elemAt_cons]
      simp only [eq_comm]
    · by_cases heq : i = k
      · subst heq
        rw [if_neg hlt, if_pos rfl, elemAt_cons, elemAt_cons]
        by_cases hj : i = j
        · rw [if_pos hj, if_pos hj.symm]
        · rw [if_neg hj, if_neg (Ne.symm hj), if_neg hj]
      · rw [if_neg hlt, if_neg heq, elemAt_cons, elemAt_cons, ih]
        by_cases hj : k = j
        · rw [if_pos hj, if_pos hj, if_neg (by omega)]
        · rw [if_neg hj, if_neg hj]

theorem elemAt_filter (i : Nat) (l : List (Nat × Word)) (j : Nat) :
    elemAt (l.filter (fun e => e.1 != i)) j = if j = i then 0 else elemAt l j := by
  induction l with
  | nil => exact (ite_self _).symm
  | cons e l ih =>
    obtain ⟨k, w⟩ := e
    by_cases hk : k = i
    · subst hk
      rw [List.filter_cons_of_neg (by simp), ih, elemAt_cons]
      by_cases hj : j = k
      · rw [if_pos hj, if_pos hj]
      · rw [if_neg hj, if_neg hj, if_neg (Ne.symm hj)]
    · rw [List.filter_cons_of_pos (by simpa using hk), elemAt_cons, ih, elemAt_cons]
      by_cases hj : k = j
      · rw [if_pos hj, if_pos hj, if_neg (by omega)]
      · rw [if_neg hj, if_neg hj]

theorem get_put (t : Tile) (i : Nat) (v : Word) (j : Nat) : (t.put i v).get j = if j = i then v else t.get j := by
  show elemAt (if v == 0 then t.elems.filter (fun e => e.1 != i) else insertElem i v t.elems) j = _
  by_cases hv : v = 0
  · rw [if_pos (beq_iff_eq.mpr hv), elemAt_filter, hv]
    rfl
  · rw [if_neg (mt beq_iff_eq.mp hv), elemAt_insertElem]
    rfl

/-! An element of a tile -/

theorem tileAt_setTile (s : State) (t : BitVec 3) (x : Tile) : (s.setTile t x).cx.tileAt t = x := by
  simp [Ctx.tileAt, State.setTile]

theorem codeAt_acc {r : Region} (h : r.kind = 2) {s : State} (hdef : s.accUndefined r = false) (i : Nat) :
    (s.codeAt r i).1.1 = ((s.cx.tileAt r.tile).get (r.accIdx i).toNat).toNat := by
  simp [State.codeAt, h, hdef]

theorem putElem_acc {r : Region} (h : r.kind = 2) {s : State} (hdef : s.accUndefined r = false) (i code : Nat)
    (poison : Bool) : s.putElem r i code poison
      = s.setTile r.tile ((s.cx.tileAt r.tile).put (r.accIdx i).toNat (mkWord code)) := by
  simp [State.putElem, h, hdef]

/-- A write of an element of a tile leaves memory. -/
theorem putElem_acc_mem {r : Region} (h : r.kind = 2) (s : State) (i code : Nat) (poison : Bool) :
    (s.putElem r i code poison).mem = s.mem := by
  unfold State.putElem
  rw [if_pos h]
  split <;> rfl

/-- A write of an element of a tile keeps its form, so that the region stays defined (07 R129). -/
theorem accUndefined_putElem {r : Region} (h : r.kind = 2) {s : State} (hdef : s.accUndefined r = false) (i code : Nat)
    (poison : Bool) : (s.putElem r i code poison).accUndefined r = false := by
  rw [putElem_acc h hdef, State.accUndefined, tileAt_setTile]
  exact hdef

/-- Elements of a tile that share no storage have distinct indices. -/
theorem accIdx_ne_of_apart {r : Region} (h : r.kind = 2) {i j : Nat} (hapart : r.shares i r j = false) :
    (r.accIdx j).toNat ≠ (r.accIdx i).toNat := by
  intro heq
  simp [Region.shares, Region.cells, h, heq] at hapart

/-! An element of any region -/

/-- The region is no accumulator region, or its tile holds its form and is not in flight (07 R129). -/
def Defined (s : State) (r : Region) : Prop := r.kind = 2 → s.accUndefined r = false

theorem defined_putElem {r : Region} {s : State} (h : Defined s r) (i code : Nat) (poison : Bool) :
    Defined (s.putElem r i code poison) r :=
  fun h2 => accUndefined_putElem h2 (h h2) i code poison

/-- An element that fits its format, of a width that memory and tiles can hold, is read back as it was written. -/
theorem codeAt_putElem_self {r : Region} {s : State} (hdef : Defined s r) (hmax : r.fmt.width ≤ 64)
    (hfmt : r.fmt.width ≤ 8 ∨ 8 ∣ r.fmt.width) (i : Nat) {code : Nat} (hcode : code < 2 ^ r.fmt.width) (poison : Bool) :
    ((s.putElem r i code poison).codeAt r i).1.1 = code := by
  by_cases h2 : r.kind = 2
  · rw [codeAt_acc h2 (defined_putElem hdef i code poison h2), putElem_acc h2 (hdef h2), tileAt_setTile, get_put,
      if_pos rfl, mkWord, BitVec.toNat_ofNat, Nat.mod_eq_of_lt (hcode.trans_le (Nat.pow_le_pow_right (by decide) hmax))]
  · exact codeAt_putElem h2 hfmt s i hcode poison

/-- A write of an element leaves those that share no storage with it. -/
theorem codeAt_putElem_apart {r : Region} {s : State} (hdef : Defined s r) {i j : Nat} (hapart : r.shares i r j = false)
    (code : Nat) (poison : Bool) : ((s.putElem r i code poison).codeAt r j).1.1 = (s.codeAt r j).1.1 := by
  by_cases h2 : r.kind = 2
  · rw [codeAt_acc h2 (defined_putElem hdef i code poison h2), codeAt_acc h2 (hdef h2), putElem_acc h2 (hdef h2),
      tileAt_setTile, get_put, if_neg (accIdx_ne_of_apart h2 hapart)]
  · exact codeAt_congr h2 (fun l k hk hin =>
      bit_putElem_other h2 s i code poison hk (not_inCells_of_apart hapart hin))

/-! The results of a group -/

/-- Results are written in their order. -/
def putAll (s : State) (D : Region) (out : List OutElem) : State :=
  out.foldl (fun (u : State) e => u.putElem D e.i e.code e.poison) s

theorem putAll_stored (s : State) (D : Region) (out : List OutElem) : Stored s (putAll s D out) :=
  foldl_related stored_refl stored_trans (fun s (e : OutElem) => putElem_stored s D e.i e.code e.poison) out s

theorem defined_putAll {D : Region} {s : State} (h : Defined s D) (out : List OutElem) : Defined (putAll s D out) D :=
  List.foldlRecOn out _ (motive := fun u : State => Defined u D) h
    (fun _ hu e _ => defined_putElem hu e.i e.code e.poison)

/-- A result that none of the others overwrites is read back, once it is written or where it stands already. -/
theorem codeAt_putAll {D : Region} (hmax : D.fmt.width ≤ 64) (hfmt : D.fmt.width ≤ 8 ∨ 8 ∣ D.fmt.width) {e : OutElem}
    (hcode : e.code < 2 ^ D.fmt.width) {out : List OutElem} (hout : ∀ x ∈ out, x = e ∨ D.shares x.i D e.i = false)
    {s : State} (hdef : Defined s D) (he : e ∈ out ∨ (s.codeAt D e.i).1.1 = e.code) :
    ((putAll s D out).codeAt D e.i).1.1 = e.code := by
  induction out generalizing s with
  | nil => exact he.resolve_left List.not_mem_nil
  | cons x xs ih =>
    have hrest : ∀ y ∈ xs, y = e ∨ D.shares y.i D e.i = false := fun y hy => hout y (List.mem_cons_of_mem x hy)
    refine ih hrest (defined_putElem hdef x.i x.code x.poison) ?_
    by_cases hx : x = e
    · exact .inr (hx ▸ codeAt_putElem_self hdef hmax hfmt x.i (hx ▸ hcode) x.poison)
    · have hapart := (hout x List.mem_cons_self).resolve_left hx
      refine he.imp (fun hmem => ?_) (fun hc => (codeAt_putElem_apart hdef hapart x.code x.poison).trans hc)
      exact (List.mem_cons.mp hmem).resolve_left (Ne.symm hx)

/-! The bytes that a write leaves -/

theorem mem_bytesAt_of_inCells {r : Region} (h2 : r.kind ≠ 2) {i l k : Nat} (h : InCells r i l k) :
    l ∈ r.bytesAt i := by
  obtain ⟨c, hc, rfl, -, -⟩ := h
  rw [Region.bytesAt, if_neg h2]
  rw [Region.cells, if_neg h2] at hc
  by_cases h1 : r.kind = 1
  · rw [if_pos h1, List.mem_map] at hc ⊢
    obtain ⟨j, hj, rfl⟩ := hc
    exact ⟨j, hj, rfl⟩
  · rw [if_neg h1] at hc ⊢
    by_cases hw : r.fmt.width ≤ 4
    · rw [if_pos hw, List.mem_singleton] at hc
      subst hc
      exact List.mem_map.mpr ⟨0, List.mem_range.mpr (Nat.lt_of_lt_of_le Nat.one_pos (Nat.le_max_left 1 _)), rfl⟩
    · rw [if_neg hw, List.mem_map] at hc
      obtain ⟨j, hj, rfl⟩ := hc
      have hspan : r.span ≤ Nat.max 1 (r.fmt.width / 8) := by
        rw [Region.span, if_neg h1]
        split
        · exact Nat.le_max_right _ _
        · exact Nat.le_max_left _ _
      exact List.mem_map.mpr ⟨j, List.mem_range.mpr ((List.mem_range.mp hj).trans_le hspan), rfl⟩

theorem byte_putElem_other {r : Region} {i a : Nat} (h : a ∉ r.bytesAt i) (s : State) (code : Nat) (poison : Bool) :
    (s.putElem r i code poison).byte a = s.byte a := by
  by_cases h2 : r.kind = 2
  · rw [State.byte, putElem_acc_mem h2]
    rfl
  · exact byte_eq_of_bits (fun k hk => bit_putElem_other h2 s i code poison hk (fun hin =>
      h (mem_bytesAt_of_inCells h2 hin)))

theorem byte_putAll_other {D : Region} {out : List OutElem} {a : Nat} (h : ∀ e ∈ out, a ∉ D.bytesAt e.i) (s : State) :
    (putAll s D out).byte a = s.byte a :=
  List.foldlRecOn out _ (motive := fun u : State => u.byte a = s.byte a) rfl
    (fun u hu e he => (byte_putElem_other (h e he) u e.code e.poison).trans hu)

/-- The bytes of an element lie in its words. -/
theorem div_mem_words {r : Region} (hplane : r.kind = 1 → ∀ i, r.at i % 8 = 0)
    (hword : ∀ i, r.at i % 8 + r.span ≤ 8 ∨ r.kind = 1) {i a : Nat} (h : a ∈ r.bytesAt i) : a / 8 ∈ r.words i := by
  by_cases h2 : r.kind = 2
  · rw [Region.bytesAt, if_pos h2] at h
    exact absurd h List.not_mem_nil
  · rw [Region.bytesAt, if_neg h2] at h
    rw [Region.words, if_neg h2]
    by_cases h1 : r.kind = 1
    · rw [if_pos h1, List.mem_map] at h ⊢
      obtain ⟨j, hj, rfl⟩ := h
      have := hplane h1 i
      exact ⟨j, hj, by omega⟩
    · rw [if_neg h1, List.mem_map] at h
      obtain ⟨j, hj, rfl⟩ := h
      have hfit := (hword i).resolve_right h1
      have hmax : j < Nat.max 1 (r.fmt.width / 8) := List.mem_range.mp hj
      have hspan : j < r.span := by
        rw [Region.span, if_neg h1]
        split <;> rcases lt_max_iff.mp hmax with h | h <;> omega
      rw [if_neg h1, List.mem_singleton]
      omega

end Sys2Proof.GroupProofs

/-! ### What a write of results tells those who watch memory (10 R199, 16 R269, 17 R276) -/

namespace Sys2Proof.GroupProofs

open Sys2Proof Sys2Proof.Machine Sys2Proof.Safety Sys2Proof.Laws

/-- Everything but memory, free values, the fabric, the collectives and the copies is as before. -/
def Noted (s t : State) : Prop :=
  t = { s with mem := t.mem, fv := t.fv, fab := t.fab, coll := t.coll, core := { s.core with copies := t.core.copies } }

theorem noted_refl (s : State) : Noted s s := rfl

theorem noted_trans {s t u : State} (h : Noted s t) (k : Noted t u) : Noted s u := by
  rw [Noted] at h k ⊢
  rw [h] at k
  exact k

theorem blurByte_noted (s : State) (l : Nat) : Noted s (s.blurByte l) := rfl

theorem blurSent_noted (s : State) (t : TSend) (k : Nat) : Noted s (s.blurSent t k) := by
  unfold State.blurSent
  split
  · exact noted_refl s
  · refine noted_trans ?_ (foldl_related noted_refl noted_trans (fun s g => ?_) _ _)
    · exact rfl
    · exact rfl

/-- The bytes that an actor may not write become undefined (17 R276). -/
def blurLocked (s : State) (x : Actor) (ls : List Nat) : State := (ls.filter (s.locked x)).foldl State.blurByte s

/-- The bytes of a list in the source of a timed send that an actor's write comes after. -/
def sentBytes (x : Actor) (ls : List Nat) (t : TSend) : List Nat :=
  ls.filter (fun l => isLater x t.owner t.id && decide (t.fromLoc ≤ l) && decide (l < t.fromLoc + t.bytes))

/-- The bytes that timed sends have taken from their sources become undefined (16 R269). -/
def blurSends (s : State) (x : Actor) (ls : List Nat) : State :=
  s.fab.tsends.foldl (fun (s : State) t =>
    (sentBytes x ls t).foldl (fun (s : State) l => s.blurSent t (l - t.fromLoc)) s) s

theorem blurLocked_noted (s : State) (x : Actor) (ls : List Nat) : Noted s (blurLocked s x ls) :=
  foldl_related noted_refl noted_trans blurByte_noted _ s

theorem blurSends_noted (s : State) (x : Actor) (ls : List Nat) : Noted s (blurSends s x ls) :=
  foldl_related noted_refl noted_trans
    (fun s t => foldl_related noted_refl noted_trans (fun s l => blurSent_noted s t (l - t.fromLoc)) _ s) _ s

/-- What watches memory takes note once the bytes are undefined. -/
theorem wrote_blurs (s old : State) (x : Actor) (ls : List Nat) :
    Noted (blurSends (blurLocked s x ls) x ls) (s.wrote old x ls)
    ∧ (s.wrote old x ls).mem = (blurSends (blurLocked s x ls) x ls).mem := ⟨rfl, rfl⟩

theorem wrote_noted (s old : State) (x : Actor) (ls : List Nat) : Noted s (s.wrote old x ls) :=
  noted_trans (noted_trans (blurLocked_noted s x ls) (blurSends_noted _ x ls)) (wrote_blurs s old x ls).1

/-- No byte of a list lies in the source of a timed send (16 R269). -/
def Unsourced (s : State) (ls : List Nat) : Prop :=
  ∀ x ∈ s.fab.tsends, ∀ l ∈ ls, ¬(x.fromLoc ≤ l ∧ l < x.fromLoc + x.bytes)

theorem blurSends_of_unsourced {s : State} {ls : List Nat} (h : Unsourced s ls) (x : Actor) : blurSends s x ls = s := by
  refine List.foldlRecOn s.fab.tsends _ (motive := fun u : State => u = s) rfl (fun u hu t ht => ?_)
  have hnone : sentBytes x ls t = [] := by
    refine List.filter_eq_nil_iff.mpr (fun l hl hin => h t ht l hl ?_)
    simp only [Bool.and_eq_true, decide_eq_true_eq] at hin
    exact ⟨hin.1.2, hin.2⟩
  rw [hnone]
  exact hu

/-- Where no timed send has its source, only the bytes that software may not write become undefined (17 R276). -/
theorem wrote_mem {s : State} {ls : List Nat} (h : Unsourced s ls) (old : State) (x : Actor) :
    (s.wrote old x ls).mem = (blurLocked s x ls).mem := by
  have hfab : (blurLocked s x ls).fab = s.fab :=
    foldl_related (R := fun s t => t.fab = s.fab) (fun _ => rfl) (fun h k => k.trans h)
      (f := State.blurByte) (fun _ _ => rfl) _ s
  have hafter : Unsourced (blurLocked s x ls) ls := by
    rw [Unsourced, hfab]
    exact h
  rw [(wrote_blurs s old x ls).2, blurSends_of_unsourced hafter]

theorem byte_wrote_other {s : State} {ls : List Nat} (h : Unsourced s ls) (old : State) (x : Actor) {a : Nat}
    (ha : a ∉ ls) : (s.wrote old x ls).byte a = s.byte a := by
  rw [State.byte, wrote_mem h]
  refine List.foldlRecOn _ State.blurByte (motive := fun u : State => u.byte a = s.byte a) rfl (fun u hu l hl => ?_)
  have hne : l ≠ a := ne_of_mem_of_not_mem (List.mem_filter.mp hl).1 ha
  exact (byte_setByte _ _ _ _).trans ((if_neg hne).trans hu)

/-- While no batch of a collective is incomplete, software may write everywhere. -/
theorem locked_of_noneOpen {s : State} (h : NoneOpen s) (x : Actor) (l : Nat) : s.locked x l = false := by
  have hnone : s.collsOpen x = [] :=
    List.filter_eq_nil_iff.mpr (fun c hc => by rw [h c hc, Bool.and_false]; exact Bool.false_ne_true)
  rw [State.locked, hnone]
  rfl

theorem byte_wrote_of_noneOpen {s : State} {ls : List Nat} (h : Unsourced s ls) (hopen : NoneOpen s) (old : State)
    (x : Actor) (a : Nat) : (s.wrote old x ls).byte a = s.byte a := by
  have hnone : ls.filter (s.locked x) = [] :=
    List.filter_eq_nil_iff.mpr (fun l _ => by rw [locked_of_noneOpen hopen]; exact Bool.false_ne_true)
  rw [State.byte, wrote_mem h, blurLocked, hnone]
  rfl

end Sys2Proof.GroupProofs

/-! ### The write half of a group (07 R132, R133, R135) -/

namespace Sys2Proof.GroupProofs

open Sys2Proof Sys2Proof.Machine Sys2Proof.Safety Sys2Proof.Laws

/-! The words of the destination -/

/-- A destination word holds a stream up no longer: its partition is freed, or it is empty and no other waits before. -/
def MayWrite (s : State) (id w : Nat) : Prop :=
  s.freedFor id w = true ∨ (s.full (8 * w) = false ∧ s.firstAt id w false = true)

/-- Where no word of a destination makes a stream wait, it acts on all of them. -/
theorem splitWords_dst_all {s : State} {id : Nat} {m : TagMode} {l : List Nat}
    (h : m = .wait → ∀ w ∈ l, MayWrite s id w) : s.splitWords id m true l = (l, []) := by
  by_cases hm : m = .wait
  · subst hm
    have hgo : ∀ w ∈ l, (s.freedFor id w || (s.tagsReady .wait true [w] && s.firstAt id w (!true))) = true := by
      intro w hw
      rcases h rfl w hw with hfreed | ⟨hempty, hfirst⟩
      · rw [hfreed, Bool.true_or]
      · simp [State.tagsReady, hempty, hfirst]
    rw [State.splitWords, if_pos (show TagMode.waits .wait true = true from rfl), List.partition_eq_filter_filter, List.filter_eq_self.mpr hgo]
    refine congrArg (Prod.mk l) (List.filter_eq_nil_iff.mpr (fun w hw => ?_))
    rw [Function.comp_apply, hgo w hw]
    exact Bool.false_ne_true
  · cases m
    · rfl
    · exact absurd rfl hm
    · rfl
    · rfl

/-! What a stream keeps of its sources before it overwrites them -/

theorem saveSrc_drawn (s : State) (r : Option Region) (D : Region) (saved : List (Nat × Nat × Bool)) (is : List Nat) :
    Drawn s (s.saveSrc r D saved is).2 := by
  unfold State.saveSrc
  split
  · exact drawn_refl s
  · rename_i q
    refine List.foldlRecOn _ _ (motive := fun x : List (Nat × Nat × Bool) × State => Drawn s x.2) (drawn_refl s)
      (fun x hx k _ => ?_)
    dsimp only
    split
    · exact hx
    · exact drawn_trans hx (readElem_drawn x.2 q k)

theorem saves_drawn (t : Stream) (s : State) (D : Region) (is : List Nat) : Drawn s (t.saves s D is).2 := by
  unfold Stream.saves
  split
  · exact drawn_trans (saveSrc_drawn s t.a D t.savedA is) (saveSrc_drawn _ t.b D t.savedB is)
  · exact drawn_refl s

theorem saves_stream (t : Stream) (s : State) (D : Region) (is : List Nat) : SameStream t (t.saves s D is).1 := by
  unfold Stream.saves
  split <;> exact ⟨rfl, rfl, rfl, rfl, rfl⟩

theorem SameStream.trans {t q r : Stream} (h : SameStream t q) (k : SameStream q r) : SameStream t r :=
  ⟨k.id.trans h.id, k.single.trans h.single, k.group.trans h.group, k.groups.trans h.groups, k.dst.trans h.dst⟩

/-! What the write half may change -/

/-- Everything but memory, tags, marks, tiles, free values and those who watch memory is as before. -/
def Worked (s t : State) : Prop :=
  t = { s with mem := t.mem, marks := t.marks, fv := t.fv, empties := t.empties, fab := t.fab, coll := t.coll
               core := { s.core with parked := t.core.parked, copies := t.core.copies }
               cx := { s.cx with tiles := t.cx.tiles } }

theorem worked_refl (s : State) : Worked s s := rfl

theorem worked_trans {s t u : State} (h : Worked s t) (k : Worked t u) : Worked s u := by
  rw [Worked] at h k ⊢
  rw [h] at k
  exact k

theorem Worked.of_tagged {s t : State} (h : Tagged s t) : Worked s t := by
  rw [Tagged] at h
  rw [h]
  rfl

theorem Worked.of_drawn {s t : State} (h : Drawn s t) : Worked s t := by
  rw [Drawn] at h
  rw [h]
  rfl

theorem Worked.of_stored {s t : State} (h : Stored s t) : Worked s t := by
  rw [Stored] at h
  rw [h]
  rfl

theorem Worked.of_noted {s t : State} (h : Noted s t) : Worked s t := by
  rw [Noted] at h
  rw [h]
  rfl

theorem setMark_worked (s : State) (loc : Nat) (m : Bool) : Worked s (s.setMark loc m) := by
  cases m <;> rfl

/-- The elements of regions stand alike in two states. -/
structure SameElems (s t : State) : Prop where
  byte : ∀ a, t.byte a = s.byte a
  tiles : t.cx.tiles = s.cx.tiles
  shq : t.core.shq = s.core.shq
  uid : t.cx.uid = s.cx.uid

theorem sameElems_refl (s : State) : SameElems s s := ⟨fun _ => rfl, rfl, rfl, rfl⟩

theorem sameElems_trans {s t u : State} (h : SameElems s t) (k : SameElems t u) : SameElems s u :=
  ⟨fun a => (k.byte a).trans (h.byte a), k.tiles.trans h.tiles, k.shq.trans h.shq, k.uid.trans h.uid⟩

theorem SameElems.accUndefined {s t : State} (h : SameElems s t) (r : Region) :
    t.accUndefined r = s.accUndefined r := by
  rw [State.accUndefined, State.accUndefined, State.tileBusy, State.tileBusy, Ctx.tileAt, Ctx.tileAt, h.shq, h.uid]
  simp only [h.tiles]

theorem SameElems.defined {s t : State} (h : SameElems s t) {r : Region} (hdef : Defined s r) : Defined t r :=
  fun h2 => (h.accUndefined r).trans (hdef h2)

theorem SameElems.codeAt {s t : State} (h : SameElems s t) {r : Region} (hdef : Defined s r) (i : Nat) :
    (t.codeAt r i).1.1 = (s.codeAt r i).1.1 := by
  by_cases h2 : r.kind = 2
  · rw [codeAt_acc h2 (h.defined hdef h2), codeAt_acc h2 (hdef h2), Ctx.tileAt, Ctx.tileAt]
    simp only [h.tiles]
  · exact codeAt_congr h2 (fun l k _ _ => by rw [h.byte l])

theorem SameElems.of_tagged {s t : State} (h : Tagged s t) : SameElems s t := by
  rw [Tagged] at h
  rw [h]
  exact ⟨fun _ => rfl, rfl, rfl, rfl⟩

theorem SameElems.of_drawn {s t : State} (h : Drawn s t) : SameElems s t := by
  rw [Drawn] at h
  rw [h]
  exact ⟨fun _ => rfl, rfl, rfl, rfl⟩

theorem setMark_sameElems (s : State) (loc : Nat) (m : Bool) : SameElems s (s.setMark loc m) := by
  cases m <;> exact ⟨fun _ => rfl, rfl, rfl, rfl⟩

theorem clearWhole_worked (s : State) (cover : List (Nat × Nat)) (bad : List Nat) : Worked s (s.clearWhole cover bad) := by
  unfold State.clearWhole
  refine foldl_related worked_refl worked_trans (fun s e => ?_) cover s
  split
  · exact setMark_worked s _ false
  · exact worked_refl s

theorem clearWhole_sameElems (s : State) (cover : List (Nat × Nat)) (bad : List Nat) :
    SameElems s (s.clearWhole cover bad) := by
  unfold State.clearWhole
  refine foldl_related sameElems_refl sameElems_trans (fun s e => ?_) cover s
  split
  · exact setMark_sameElems s _ false
  · exact sameElems_refl s

theorem clearWhole_empties (s : State) (cover : List (Nat × Nat)) (bad : List Nat) :
    (s.clearWhole cover bad).empties = s.empties := by
  unfold State.clearWhole
  refine foldl_related (R := fun s t => t.empties = s.empties) (fun _ => rfl) (fun h k => k.trans h) (fun s e => ?_)
    cover s
  split
  · rw [setMark_only]
  · rfl

theorem noneOpen_of_worked {s t : State} (h : NoneOpen s) (hw : Worked s t) (hcoll : t.coll = s.coll) : NoneOpen t := by
  intro c hc
  rw [hcoll] at hc
  refine Eq.trans ?_ (h c hc)
  rw [Worked] at hw
  rw [hw]
  rfl

end Sys2Proof.GroupProofs

/-! ### A group is written (07 R132 to R135) -/

namespace Sys2Proof.GroupProofs

open Sys2Proof Sys2Proof.Machine Sys2Proof.Safety Sys2Proof.Laws

/-- The results that a pass writes: one where tags act once per element access (log entry 33). -/
def taken (t : Stream) (out : List OutElem) : List OutElem := if t.single then out.take 1 else out

/-- The results that a pass leaves to the next. -/
def leftOver (t : Stream) (out : List OutElem) : List OutElem := if t.single then out.drop 1 else []

/-- The results that are written: those of no freed partition (06 R99). -/
def kept (s : State) (t : Stream) (D : Region) (out : List OutElem) : List OutElem :=
  out.filter (fun e => !(D.words e.i).any (s.freedFor t.id))

/-- The state once the results of a pass stand in memory. -/
def putState (s : State) (t : Stream) (D : Region) (out : List OutElem) : State :=
  putAll (t.saves s D ((kept s t D out).map (·.i))).2 D (kept s t D out)

/-- The state once who watches memory has taken note of them. -/
def notedState (s : State) (t : Stream) (D : Region) (out : List OutElem) : State :=
  (putState s t D out).wrote (t.saves s D ((kept s t D out).map (·.i))).2 D.actor
    ((kept s t D out).flatMap (fun e => D.bytesAt e.i))

theorem writePass_all (s : State) (t : Stream) (D : Region) (out : List OutElem) (go : List Nat) :
    ∃ l, s.writePass t D out go true
      = ((notedState s t D out).tagsAct D.tag true l, (t.saves s D ((kept s t D out).map (·.i))).1) := by
  have hall : ∀ m : List Nat, m.filter (fun l => true || go.contains (l / 8)) = m := fun m =>
    List.filter_eq_self.mpr (fun _ _ => Bool.true_or _)
  refine ⟨go.filter (fun w => !(t.saves s D ((kept s t D out).map (·.i))).2.freedFor
    (t.saves s D ((kept s t D out).map (·.i))).1.id w), ?_⟩
  unfold State.writePass
  dsimp only
  rw [hall]
  rfl

/-- The write half of a pass of which no word makes the stream wait: the state it leaves comes of the noted one by
tag actions and by clearing marks, and the stream goes on or lands. -/
theorem writeGroup_all {s : State} {t : Stream} {D : Region} (hdst : t.dst = some D) (hacted : t.acted = [])
    {out : List OutElem} (hgo : D.tag = .wait → ∀ w ∈ t.freshWords D (taken t out), MayWrite s t.id w) :
    ∃ l cover bad q, SameStream t q ∧ s.writeGroup t out
      = (((notedState s t D (taken t out)).tagsAct D.tag true l).clearWhole cover bad).passEnd q (leftOver t out) := by
  have hsplit : (if t.single then out.splitAt 1 else (out, [])) = (taken t out, leftOver t out) := by
    unfold taken leftOver
    cases t.single
    · rfl
    · exact List.splitAt_eq
  obtain ⟨l, hpass⟩ := writePass_all s t D (taken t out) (t.freshWords D (taken t out))
  have hsaves := saves_stream t s D ((kept s t D (taken t out)).map (·.i))
  unfold State.writeGroup
  rw [hsplit]
  dsimp only
  rw [hdst]
  dsimp only
  rw [splitWords_dst_all hgo, hacted]
  rw [show (([] : List Nat).isEmpty && ([] : List Nat).isEmpty) = true from rfl, hpass]
  refine ⟨l, _, _, _, ?_, if_pos rfl⟩
  exact SameStream.trans hsaves ⟨rfl, rfl, rfl, rfl, rfl⟩

theorem writeGroup_none {s : State} {t : Stream} (hdst : t.dst = none) (out : List OutElem) :
    s.writeGroup t out = s.passEnd t (leftOver t out) := by
  unfold State.writeGroup leftOver
  rw [hdst]
  cases t.single
  · rfl
  · exact congrArg (s.passEnd t) (congrArg Prod.snd List.splitAt_eq)

/-! What stands once the results are noted -/

section

variable (s : State) (t : Stream) (D : Region) (out : List OutElem)

theorem putState_stored : ∃ x, Drawn s x ∧ Stored x (putState s t D out) :=
  ⟨_, saves_drawn t s D _, putAll_stored _ D _⟩

theorem putState_worked : Worked s (putState s t D out) := by
  obtain ⟨x, hdrawn, hstored⟩ := putState_stored s t D out
  exact worked_trans (Worked.of_drawn hdrawn) (Worked.of_stored hstored)

theorem putState_fab : (putState s t D out).fab = s.fab := by
  obtain ⟨x, hdrawn, hstored⟩ := putState_stored s t D out
  rw [hstored, hdrawn]

theorem putState_coll : (putState s t D out).coll = s.coll := by
  obtain ⟨x, hdrawn, hstored⟩ := putState_stored s t D out
  rw [hstored, hdrawn]

theorem notedState_worked : Worked s (notedState s t D out) :=
  worked_trans (putState_worked s t D out) (Worked.of_noted (wrote_noted _ _ _ _))

theorem notedState_empties : (notedState s t D out).empties = s.empties := by
  obtain ⟨x, hdrawn, hstored⟩ := putState_stored s t D out
  rw [notedState, wrote_noted, hstored, hdrawn]

variable {s D}

/-- No element of a region lies in the source of a timed send (16 R269). -/
def Unsent (s : State) (D : Region) : Prop := ∀ x ∈ s.fab.tsends, ∀ i, ∀ l ∈ D.bytesAt i,
  ¬(x.fromLoc ≤ l ∧ l < x.fromLoc + x.bytes)

theorem unsourced_putState (h : Unsent s D) : Unsourced (putState s t D out)
    ((kept s t D out).flatMap (fun e => D.bytesAt e.i)) := by
  rw [Unsourced, putState_fab]
  intro x hx l hl
  obtain ⟨e, -, hle⟩ := List.mem_flatMap.mp hl
  exact h x hx e.i l hle

/-- A byte of no element of the destination stands. -/
theorem byte_notedState (h : Unsent s D) {a : Nat} (ha : ∀ i, a ∉ D.bytesAt i) :
    (notedState s t D out).byte a = s.byte a := by
  have hnot : a ∉ (kept s t D out).flatMap (fun e => D.bytesAt e.i) := by
    intro hl
    obtain ⟨e, -, hle⟩ := List.mem_flatMap.mp hl
    exact ha e.i hle
  rw [notedState, byte_wrote_other (unsourced_putState t out h) _ _ hnot, putState,
    byte_putAll_other (fun e _ => ha e.i)]
  exact (SameElems.of_drawn (saves_drawn t s D _)).byte a

/-- While no batch of a collective is incomplete, a result of no freed partition stands as the code of its element. -/
theorem codeAt_notedState (h : Unsent s D) (hopen : NoneOpen s) (hdef : Defined s D) (hmax : D.fmt.width ≤ 64)
    (hfmt : D.fmt.width ≤ 8 ∨ 8 ∣ D.fmt.width) {e : OutElem} (he : e ∈ out) (hcode : e.code < 2 ^ D.fmt.width)
    (hout : ∀ x ∈ out, x = e ∨ D.shares x.i D e.i = false) (hfree : ∀ w ∈ D.words e.i, s.freedFor t.id w = false) :
    Defined (notedState s t D out) D ∧ ((notedState s t D out).codeAt D e.i).1.1 = e.code := by
  have hkept : e ∈ kept s t D out := by
    refine List.mem_filter.mpr ⟨he, ?_⟩
    rw [Bool.not_eq_true', List.any_eq_false]
    exact fun w hw hfreed => Bool.noConfusion (hfreed.symm.trans (hfree w hw))
  have hsaved := (SameElems.of_drawn (saves_drawn t s D ((kept s t D out).map (·.i)))).defined hdef
  have hput : Defined (putState s t D out) D := defined_putAll hsaved _
  have hnoted := wrote_noted (putState s t D out) (t.saves s D ((kept s t D out).map (·.i))).2 D.actor
    ((kept s t D out).flatMap (fun e => D.bytesAt e.i))
  have hsame : SameElems (putState s t D out) (notedState s t D out) := by
    refine ⟨fun a => ?_, by rw [notedState, hnoted], by rw [notedState, hnoted], by rw [notedState, hnoted]⟩
    exact byte_wrote_of_noneOpen (unsourced_putState t out h)
      (noneOpen_of_worked hopen (putState_worked s t D out) (putState_coll s t D out)) _ _ a
  refine ⟨hsame.defined hput, (hsame.codeAt hput e.i).trans ?_⟩
  exact codeAt_putAll hmax hfmt hcode (fun x hx => hout x (List.mem_filter.mp hx).1) hsaved (.inl hkept)

end

end Sys2Proof.GroupProofs

/-! ### A pass is over: the stream goes on, or lands (07 R132, R134) -/

namespace Sys2Proof.GroupProofs

open Sys2Proof Sys2Proof.Machine Sys2Proof.Safety Sys2Proof.Laws

/-- Everything but parked accesses and the streams, flags, pending results and latches of the running context is as
before. -/
def Closed (s t : State) : Prop :=
  t = { s with core := { s.core with parked := t.core.parked }
               cx := { s.cx with streams := t.cx.streams, flags := t.cx.flags, pend := t.cx.pend, latches := t.cx.latches } }

theorem closed_trans {s t u : State} (h : Closed s t) (k : Closed t u) : Closed s u := by
  rw [Closed] at h k ⊢
  rw [h] at k
  exact k

theorem Closed.sameElems {s t : State} (h : Closed s t) : SameElems s t := by
  rw [Closed] at h
  rw [h]
  exact ⟨fun _ => rfl, rfl, rfl, rfl⟩

/-- A stream that lands leaves its queue. -/
theorem landStream_streams (s : State) (t : Stream) :
    (s.landStream t).cx.streams = s.cx.streams.filter (·.id != t.id) := by
  unfold State.landStream
  split
  · rfl
  · split <;> rfl
  · rfl

theorem landStream_closed (s : State) (t : Stream) : Closed s (s.landStream t) := by
  unfold State.landStream
  split
  · exact rfl
  · split <;> exact rfl
  · exact rfl

theorem passEnd_closed (s : State) (t : Stream) (rest : List OutElem) : Closed s (s.passEnd t rest) := by
  unfold State.passEnd
  dsimp only
  split
  · exact rfl
  · split
    · exact closed_trans (t := s.unparkAll t.id) rfl (landStream_closed _ _)
    · exact rfl

/-- A stream that is replaced stands in the queue of its context. -/
theorem mem_setStream {s : State} {t : Stream} (h : ∃ x ∈ s.cx.streams, x.id = t.id) :
    t ∈ (s.setStream t).cx.streams := by
  obtain ⟨x, hx, hid⟩ := h
  exact List.mem_map.mpr ⟨x, hx, if_pos (beq_iff_eq.mpr hid)⟩

section

variable {s : State} {t : Stream}

theorem passEnd_lands (hlast : t.groups ≤ t.group + 1) : ∀ x ∈ (s.passEnd t []).cx.streams, x.id ≠ t.id := by
  intro x hx
  unfold State.passEnd at hx
  rw [if_neg (show ¬ (!([] : List OutElem).isEmpty) = true from Bool.false_ne_true)] at hx
  dsimp only at hx
  rw [if_pos hlast, landStream_streams] at hx
  exact bne_iff_ne.mp (List.mem_filter.mp hx).2

theorem passEnd_next (hmore : t.group + 1 < t.groups) (hin : ∃ x ∈ s.cx.streams, x.id = t.id) :
    ∃ x ∈ (s.passEnd t []).cx.streams, x.id = t.id ∧ x.group = t.group + 1 ∧ x.out = none := by
  unfold State.passEnd
  rw [if_neg (show ¬ (!([] : List OutElem).isEmpty) = true from Bool.false_ne_true)]
  dsimp only
  rw [if_neg (Nat.not_le.mpr hmore)]
  exact ⟨_, mem_setStream hin, rfl, rfl, rfl⟩

theorem passEnd_rest {rest : List OutElem} (hrest : rest ≠ []) (hin : ∃ x ∈ s.cx.streams, x.id = t.id) :
    ∃ x ∈ (s.passEnd t rest).cx.streams, x.id = t.id ∧ x.group = t.group ∧ x.out = some rest := by
  have hsome : (!rest.isEmpty) = true := by
    rw [Bool.not_eq_true', List.isEmpty_eq_false_iff]
    exact hrest
  unfold State.passEnd
  rw [if_pos hsome]
  exact ⟨_, mem_setStream hin, rfl, rfl, rfl⟩

end

/-! ### What a pass that is written leaves -/

/-- A pass of a stream with some results is over: where its stream stands, and what it has written to memory, tiles
and the tags `e`. -/
structure Passed (s : State) (e : List Nat) (t : Stream) (out : List OutElem) (u : State) : Prop where
  lands : leftOver t out = [] → t.groups ≤ t.group + 1 → ∀ x ∈ u.cx.streams, x.id ≠ t.id
  next : leftOver t out = [] → t.group + 1 < t.groups →
    ∃ x ∈ u.cx.streams, x.id = t.id ∧ x.group = t.group + 1 ∧ x.out = none
  rest : leftOver t out ≠ [] → ∃ x ∈ u.cx.streams, x.id = t.id ∧ x.group = t.group ∧ x.out = some (leftOver t out)
  sh : u.sh = s.sh
  regs : u.cx.regs = s.cx.regs
  preds : u.cx.preds = s.cx.preds
  keep : (∀ D, t.dst = some D → D.tag = .keep) → u.empties = e
  noDst : t.dst = none → u.mem = s.mem ∧ u.cx.tiles = s.cx.tiles
  byte : ∀ D, t.dst = some D → Unsent s D → ∀ a, (∀ i, a ∉ D.bytesAt i) → u.byte a = s.byte a
  code : ∀ D, t.dst = some D → Unsent s D → Defined s D → D.fmt.width ≤ 64 → (D.fmt.width ≤ 8 ∨ 8 ∣ D.fmt.width) →
    NoneOpen s → ∀ e ∈ taken t out, e.code < 2 ^ D.fmt.width →
      (∀ x ∈ taken t out, x = e ∨ D.shares x.i D e.i = false) →
      (∀ w ∈ D.words e.i, s.freedFor t.id w = false) → (u.codeAt D e.i).1.1 = e.code

/-- A stream's end of a pass does not depend on what the pass has kept of it. -/
theorem passed_of_passEnd {s x : State} {t q : Stream} {out : List OutElem} (hq : SameStream t q) (hx : Worked s x)
    (hin : ∃ y ∈ s.cx.streams, y.id = t.id)
    (hkeep : (∀ D, t.dst = some D → D.tag = .keep) → x.empties = s.empties)
    (hnone : t.dst = none → x.mem = s.mem ∧ x.cx.tiles = s.cx.tiles)
    (hbyte : ∀ D, t.dst = some D → Unsent s D → ∀ a, (∀ i, a ∉ D.bytesAt i) → x.byte a = s.byte a)
    (hcode : ∀ D, t.dst = some D → Unsent s D → Defined s D → D.fmt.width ≤ 64 →
      (D.fmt.width ≤ 8 ∨ 8 ∣ D.fmt.width) → NoneOpen s → ∀ e ∈ taken t out, e.code < 2 ^ D.fmt.width →
      (∀ y ∈ taken t out, y = e ∨ D.shares y.i D e.i = false) →
      (∀ w ∈ D.words e.i, s.freedFor t.id w = false) → Defined x D ∧ (x.codeAt D e.i).1.1 = e.code) :
    Passed s s.empties t out (x.passEnd q (leftOver t out)) := by
  have hclosed := passEnd_closed x q (leftOver t out)
  have hinx : ∃ y ∈ x.cx.streams, y.id = q.id := by
    rw [hx, hq.id]
    exact hin
  refine ⟨fun hl hlast => ?_, fun hl hmore => ?_, fun hl => ?_, ?_, ?_, ?_, fun hk => ?_, fun hd => ?_,
    fun D hD hun a ha => ?_, fun D hD hun hdef hmax hfmt hopen e he hfit hout hfree => ?_⟩
  · rw [hl, ← hq.id]
    exact passEnd_lands (by rw [hq.groups, hq.group]; exact hlast)
  · rw [hl, ← hq.id, ← hq.group]
    exact passEnd_next (by rw [hq.groups, hq.group]; exact hmore) hinx
  · rw [← hq.id, ← hq.group]
    exact passEnd_rest hl hinx
  · rw [hclosed, hx]
  · rw [hclosed, hx]
  · rw [hclosed, hx]
  · rw [hclosed]
    exact hkeep hk
  · rw [hclosed]
    exact hnone hd
  · exact (hclosed.sameElems.byte a).trans (hbyte D hD hun a ha)
  · obtain ⟨hdefx, hcodex⟩ := hcode D hD hun hdef hmax hfmt hopen e he hfit hout hfree
    exact (hclosed.sameElems.codeAt hdefx e.i).trans hcodex

/-- A group whose results are kept passes where no word of its destination makes it wait. -/
theorem writeGroup_passed {s : State} {t : Stream} {out : List OutElem} (hin : ∃ y ∈ s.cx.streams, y.id = t.id)
    (hacted : t.acted = [])
    (hgo : ∀ D, t.dst = some D → D.tag = .wait → ∀ e ∈ taken t out, ∀ w ∈ D.words e.i, MayWrite s t.id w) :
    Passed s s.empties t out (s.writeGroup t out) := by
  cases hdst : t.dst with
  | none =>
    have hno : ∀ D, t.dst ≠ some D := fun D h => Option.some_ne_none D (h.symm.trans hdst)
    rw [writeGroup_none hdst]
    exact passed_of_passEnd ⟨rfl, rfl, rfl, rfl, rfl⟩ (worked_refl s) hin (fun _ => rfl) (fun _ => ⟨rfl, rfl⟩)
      (fun D hD => absurd hD (hno D)) (fun D hD => absurd hD (hno D))
  | some D =>
    have hwords : D.tag = .wait → ∀ w ∈ t.freshWords D (taken t out), MayWrite s t.id w := by
      intro hwait w hw
      obtain ⟨e, he, hwe⟩ := List.mem_flatMap.mp ((mem_wordSet w _).mp (List.mem_filter.mp hw).1)
      exact hgo D hdst hwait e he w hwe
    obtain ⟨l, cover, bad, q, hq, heq⟩ := writeGroup_all hdst hacted hwords
    have htag := tagsAct_tagged (notedState s t D (taken t out)) D.tag true l
    have hsame : SameElems (notedState s t D (taken t out))
        (((notedState s t D (taken t out)).tagsAct D.tag true l).clearWhole cover bad) :=
      sameElems_trans (SameElems.of_tagged htag) (clearWhole_sameElems _ cover bad)
    have hone : ∀ E, t.dst = some E → E = D := fun E hE => Option.some_inj.mp (hE.symm.trans hdst)
    rw [heq]
    refine passed_of_passEnd hq ?_ hin (fun hk => ?_) (fun hno => ?_) (fun E hE hun a ha => ?_)
      (fun E hE hun hdef hmax hfmt hopen e he hfit hout hfree => ?_)
    · exact worked_trans (notedState_worked s t D _)
        (worked_trans (Worked.of_tagged htag) (clearWhole_worked _ cover bad))
    · rw [clearWhole_empties, hk D hdst]
      exact notedState_empties s t D _
    · exact absurd (hno.symm.trans hdst) (Option.some_ne_none D).symm
    · obtain rfl := hone E hE
      exact (hsame.byte a).trans (byte_notedState t _ hun ha)
    · obtain rfl := hone E hE
      obtain ⟨hdefn, hcoden⟩ := codeAt_notedState t _ hun hopen hdef hmax hfmt he hfit hout hfree
      exact ⟨hsame.defined hdefn, (hsame.codeAt hdefn e.i).trans hcoden⟩

end Sys2Proof.GroupProofs

/-! ### STREAM_GROUP_PASS (07 R132 to R134) -/

namespace Sys2Proof.GroupProofs

open Sys2Proof Sys2Proof.Machine Sys2Proof.Safety Sys2Proof.Laws

/-! What the step does -/

/-- What follows the read half of a pass: the stream stands until it has read its group whole, and is written then. -/
def afterRead (r : State × Stream) : State :=
  match r.2.out with
  | none => r.1.setStream r.2
  | some out => r.1.writeGroup r.2 out

/-- What follows the meeting of a stream's tags: it stands where it waits, and reads where it has met them all. -/
def afterTags (id : Nat) : State × Stream × Bool → State
  | (x, q, false) => x.setStream q
  | (x, q, true) => afterRead ((x.unparkAll id).readPass q)

theorem afterRead_none {r : State × Stream} (h : r.2.out = none) : afterRead r = r.1.setStream r.2 := by
  simp only [afterRead, h]

theorem afterRead_some {r : State × Stream} {out : List OutElem} (h : r.2.out = some out) :
    afterRead r = r.1.writeGroup r.2 out := by
  simp only [afterRead, h]

theorem afterTags_waits (id : Nat) {p : State × Stream × Bool} (h : p.2.2 = false) :
    afterTags id p = p.1.setStream p.2.1 := by
  obtain ⟨x, q, ok⟩ := p
  obtain rfl : ok = false := h
  rfl

theorem afterTags_met (id : Nat) {p : State × Stream × Bool} (h : p.2.2 = true) :
    afterTags id p = afterRead ((p.1.unparkAll id).readPass p.2.1) := by
  obtain ⟨x, q, ok⟩ := p
  obtain rfl : ok = true := h
  rfl

section

variable {s : State} {t : Stream} (hfind : s.cx.streams.find? (fun x => x.id == t.id) = some t)
  (hlive : s.live = true) (hdeps : s.depsDone t.deps = true)
include hfind hlive hdeps

/-- A group whose results are kept is written. -/
theorem groupPass_writes {out : List OutElem} (hout : t.out = some out) : s.groupPass t.id = s.writeGroup t out := by
  unfold State.groupPass
  rw [hfind]
  dsimp only
  rw [hlive, hdeps, hout, if_neg (show ¬ (!true || !true) = true from Bool.false_ne_true)]
  exact if_neg Bool.false_ne_true

/-- Outside the weight store's refresh window, a stream that has kept no results meets its tags. -/
theorem groupPass_meets (hout : t.out = none)
    (hwords : ∀ e ∈ t.sources (s.seenView t.seen), ∀ w ∈ e.2, s.wsBlocked (8 * w) = false)
    (hscales : ∀ a ∈ t.scaleBytes (s.seenView t.seen), s.wsBlocked a = false) :
    s.groupPass t.id = afterTags t.id (s.sourceTags t) := by
  have hopen : ((t.sources (s.seenView t.seen)).any (fun e => e.2.any (fun w => s.wsBlocked (8 * w)))
      || (t.scaleBytes (s.seenView t.seen)).any s.wsBlocked) = false := by
    rw [Bool.or_eq_false_iff, List.any_eq_false, List.any_eq_false]
    refine ⟨fun e he hany => ?_, fun a ha hblocked => Bool.noConfusion (hblocked.symm.trans (hscales a ha))⟩
    obtain ⟨w, hw, hblocked⟩ := List.any_eq_true.mp hany
    exact Bool.noConfusion (hblocked.symm.trans (hwords e he w hw))
  unfold State.groupPass
  rw [hfind]
  dsimp only
  rw [hlive, hdeps, hopen, Bool.and_false, if_neg (show ¬ (!true || !true) = true from Bool.false_ne_true),
    if_neg Bool.false_ne_true, hout]
  rfl

end

/-! From the start of the step to the write of its results -/

/-- Everything but tags, parked accesses and free values is as before. -/
def Ready (s x : State) : Prop :=
  x = { s with fv := x.fv, empties := x.empties, core := { s.core with parked := x.core.parked } }

theorem ready_of_reads {s x y : State} (h : Tagged s x) (k : Drawn x y) : Ready s y := by
  rw [Tagged] at h
  rw [Drawn, h] at k
  rw [Ready, k]

/-- What has passed from where the sources are read has passed from the start of the step. -/
theorem Passed.of_ready {s x u : State} {t q : Stream} {out : List OutElem} {e : List Nat} (hx : Ready s x)
    (hq : SameStream t q) (h : Passed x e q out u) : Passed s e t out u := by
  obtain ⟨hid, hsingle, hgroup, hgroups, hdst⟩ := hq
  obtain ⟨hlands, hnext, hrest, hsh, hregs, hpreds, hkeep, hnone, hbyte, hcode⟩ := h
  rw [leftOver, hsingle] at hlands hnext hrest
  rw [taken, hsingle] at hcode
  rw [hid] at hlands hnext hrest hcode
  rw [hgroup] at hnext hrest hlands
  rw [hgroups] at hlands hnext
  rw [hdst] at hkeep hnone hbyte hcode
  rw [hx] at hsh hregs hpreds hnone hbyte hcode
  exact ⟨hlands, hnext, hrest, hsh, hregs, hpreds, hkeep, hnone, hbyte, hcode⟩

/-- What a clean VOP stream keeps of a group once it has met the tags of its sources (07 R138). -/
theorem readPass_vop {s y : State} {t q : Stream} {fn opt : Nat} {D : Region} (hfreed : y.core.freed = s.core.freed)
    (hq : ∃ l, q = { t with seen := l }) (ht : PlainVop t fn opt D) (hsingle : t.single = false) (hheld : t.held = [])
    (hc : ∀ i ∈ t.indices, CleanAt t (y.seenView q.seen) D i)
    (hwords : ∀ e ∈ t.sources (y.seenView q.seen), ∀ w ∈ e.2, s.freedFor t.id w = false) :
    (y.readPass q).2.out
      = some (t.indices.map (fun i => ⟨i, (vopResult t (y.seenView q.seen) fn opt D i).1, false⟩)) := by
  obtain ⟨l, rfl⟩ := hq
  obtain ⟨hop, hfill, hdst, hkeepA, hkeepB, hsavedA, hsavedB⟩ := ht
  refine readPass_plainVop ⟨hop, hfill, hdst, hkeepA, hkeepB, hsavedA, hsavedB⟩ hsingle hheld (fun i hi => ?_)
    (fun e he w hw => ?_)
  · obtain ⟨hreadA, hreadB, hreadD, hdef, hpA, hpB, hpD, hpS⟩ := hc i hi
    exact ⟨hreadA, hreadB, hreadD, hdef, hpA, hpB, hpD, hpS⟩
  · rw [State.freedFor, hfreed]
    exact hwords e he w hw

/-- A stream that has read a group whole writes it where its destination does not wait (07 R132). -/
theorem readPass_passed {s : State} {t : Stream} {out : List OutElem} (hin : ∃ y ∈ s.cx.streams, y.id = t.id)
    (hacted : t.acted = []) (hdst : ∀ D, t.dst = some D → D.tag ≠ .wait) :
    let r := ((s.sourceTags t).1.unparkAll t.id).readPass (s.sourceTags t).2.1
    Passed s (s.sourceTags t).1.empties t out (r.1.writeGroup r.2 out) := by
  intro r
  obtain ⟨htag, l, hl⟩ := sourceTags_changes s t
  have hdrawn : Drawn ((s.sourceTags t).1.unparkAll t.id) r.1 := readPass_drawn _ _
  obtain ⟨hsame, hsameActed⟩ := readPass_stream ((s.sourceTags t).1.unparkAll t.id) (s.sourceTags t).2.1
  have hmeet : SameStream t (s.sourceTags t).2.1 ∧ (s.sourceTags t).2.1.acted = t.acted := by
    rw [hl]
    exact ⟨⟨rfl, rfl, rfl, rfl, rfl⟩, rfl⟩
  have hready : Ready s r.1 := ready_of_reads (tagged_trans htag (unparkAll_tagged _ t.id)) hdrawn
  have hq : SameStream t r.2 := SameStream.trans hmeet.1 hsame
  have hempties : r.1.empties = (s.sourceTags t).1.empties := by rw [hdrawn]; rfl
  rw [← hempties]
  refine Passed.of_ready hready hq (writeGroup_passed ?_ ?_ ?_)
  · rw [hready, hq.id]
    exact hin
  · exact hsameActed.trans (hmeet.2.trans hacted)
  · rw [hq.dst]
    exact fun D hD hwait => absurd hwait (hdst D hD)

/-- Settles O44: a pass meets the tags of its sources, reads its group whole, and writes the results it has kept. Each
half changes no more than its own part of the state: tags and parked accesses (`Tagged`), free values (`Drawn`), elements
(`Stored`), those who watch memory (`Noted`) and the queue of streams (`Closed`). That a result is read back rests on
the bits of the elements, of which two that share no storage have none in common. -/
theorem streamGroupsPass : Obligations.StreamGroupsPass := by
  unfold Obligations.StreamGroupsPass
  intro s id t hfind hlive hdeps hacted
  obtain rfl : t.id = id := by simpa using List.find?_some hfind
  intro may p v r unsent passed
  obtain ⟨htag, l, hl⟩ := sourceTags_changes s t
  have hmet : p.1 = { s with empties := p.1.empties, core := { s.core with parked := p.1.core.parked } } := htag
  have hmeets := groupPass_meets hfind hlive hdeps
  have hin : ∃ y ∈ s.cx.streams, y.id = t.id := ⟨t, List.mem_of_find?_eq_some hfind, rfl⟩
  have hpassed : ∀ {e out u}, Passed s e t out u →
      ((∀ r, (t.dst = some r ∨ t.a = some r ∨ t.b = some r) → r.tag = .keep) → e = s.empties) → passed out u := by
    intro e out u h hkeep
    refine ⟨h.lands, h.next, h.rest, h.sh, h.regs, h.preds, fun hall => ?_, h.noDst,
      fun D hD hun hplane hword a ha => ?_, h.code⟩
    · exact (h.keep (fun D hD => hall D (.inl hD))).trans (hkeep hall)
    · exact h.byte D hD hun a (fun i hi => ha i (div_mem_words hplane hword hi))
  refine ⟨⟨?_, ?_, ?_, ?_⟩, fun hout hwords hscales => ⟨fun hwaits => ?_, fun hall => ⟨fun hr => ?_, ?_⟩⟩, ?_, ?_⟩
  · rw [hmet]
    exact ⟨rfl, rfl, rfl⟩
  · rw [hmet]
  · exact fun hseen hmay => sourceTags_met hseen hmay
  · exact fun B hB hseen hm i hi w hw hheld =>
      sourceTags_parked hB hseen hm (List.mem_flatMap.mpr ⟨i, hi, hw⟩) hheld
  · exact congrArg Host.Outcome.next ((hmeets hout hwords hscales).trans (afterTags_waits t.id hwaits))
  · exact congrArg Host.Outcome.next (((hmeets hout hwords hscales).trans (afterTags_met t.id hall)).trans (afterRead_none hr))
  · intro out hr hdst
    refine ⟨_, congrArg Host.Outcome.next (((hmeets hout hwords hscales).trans (afterTags_met t.id hall)).trans (afterRead_some hr)), ?_⟩
    refine hpassed (readPass_passed hin hacted hdst) (fun hall => sourceTags_empties_of_keep ?_)
    exact fun q hq => hall q (.inr hq)
  · intro out hout hgo
    refine ⟨_, congrArg Host.Outcome.next (groupPass_writes hfind hlive hdeps hout), ?_⟩
    exact hpassed (writeGroup_passed hin hacted hgo) (fun _ => rfl)
  · intro fn opt D hop hfill hD hsingle hheld hkeepA hkeepB hsavedA hsavedB hreads hdef ca cb cd hclean hfreed
    refine readPass_vop (s := s) (by rw [htag]; rfl) ⟨l, hl⟩ ⟨hop, hfill, hD, hkeepA, hkeepB, hsavedA, hsavedB⟩ hsingle
      hheld (fun i hi => ?_) hfreed
    obtain ⟨hpA, hpB, hpD, hpS⟩ := hclean i hi
    exact ⟨(hreads _).1, (hreads _).2.1, (hreads i).2.2, fun q hq => hdef q hq i hi, hpA, hpB, hpD, hpS⟩

end Sys2Proof.GroupProofs

/-! ### Batches: COMMIT, WAITB and TESTB (08 R181 to R183) -/

namespace Sys2Proof.BatchProofs

open Sys2Proof Sys2Proof.Machine Sys2Proof.Safety Sys2Proof.Laws Sys2Proof.ControlProofs Sys2Proof.IssueProofs
  Sys2Proof.TableProofs

/-! A held id -/

/-- An id whose batch is incomplete stays held. -/
theorem settle_held_open {cmds : List CmdRec} {tok : Nat} (h : ∃ c ∈ cmds, c.tok = tok ∧ c.done = false) :
    BatchSt.settle cmds (.held tok) = .held tok := by
  obtain ⟨c, hc, htok, hopen⟩ := h
  have hdone : batchDone cmds tok = false :=
    List.all_eq_false.mpr ⟨c, hc, by simp [htok, hopen]⟩
  rw [BatchSt.settle, hdone, if_neg Bool.false_ne_true]

/-- An id whose commands are all complete without error becomes free. -/
theorem settle_held_done {cmds : List CmdRec} {tok : Nat}
    (h : ∀ c ∈ cmds, c.tok = tok → c.done = true ∧ c.err = none) : BatchSt.settle cmds (.held tok) = .free := by
  have hdone : batchDone cmds tok = true := by
    refine List.all_eq_true.mpr (fun c hc => ?_)
    by_cases htok : c.tok = tok
    · rw [(h c hc htok).1, Bool.or_true]
    · rw [bne_iff_ne.mpr htok, Bool.true_or]
  have herr : firstError cmds tok = none := by
    refine List.findSome?_eq_none_iff.mpr (fun c hc => ?_)
    by_cases htok : c.tok = tok
    · rw [(h c hc htok).2, Option.map_none, ite_self]
    · rw [if_neg (mt beq_iff_eq.mp htok)]
  rw [BatchSt.settle, hdone, if_pos rfl, herr]

/-- What an id just closed has become once the batches are settled. -/
theorem settleBatches_set (c : Ctx) (k : Fin 8) (b : BatchSt) (tok : Nat) :
    ({ c with batches := c.batches.set k b, openTok := tok } : Ctx).settleBatches.batches[k.val] = b.settle c.cmds := by
  simp [Ctx.settleBatches]

/-! COMMIT -/

section
variable {s : State} {a : SReg}

/-- While an id is free, `COMMIT` does not stall. -/
theorem commit_stall_free {k : Fin 8} (hk : lowestFree s.cx.batches = some k) :
    (commitWord a).stall s [] 0 = false := by
  simp [commitWord, hk]

theorem exec_commit (hp : (s.cx.sreg a).poison = false) {k : Fin 8} (hk : lowestFree s.cx.batches = some k) :
    exec (.commit a) s = .next (State.wreg { s with cx := ({ s.cx with
      batches := s.cx.batches.set k (.held s.cx.openTok), openTok := s.cx.openTok + 1 } : Ctx).settleBatches }
      a { val := mkWord k.val } 1) := by
  have hcheck : (commitWord a).check s [] = none := by
    simp [commitWord, hk, poisonCheck_clean s a hp, firstOf]
  rw [exec_effect (x := commitWord a) rfl rfl rfl (commit_stall_free hk) hcheck]
  simp only [commitWord, hk]

theorem exec_commit_poison (hp : (s.cx.sreg a).poison = true) {k : Fin 8} (hk : lowestFree s.cx.batches = some k) :
    exec (.commit a) s = .next (s.trapIssue ⟨5, mkWord (a.toNat + s.widx * 2 ^ 8)⟩) := by
  refine exec_trap (x := commitWord a) rfl rfl rfl (commit_stall_free hk) ?_
  simp [commitWord, poisonCheck_poisoned s a hp, firstOf]

theorem exec_commit_waits (hnone : lowestFree s.cx.batches = none)
    (hheld : ∃ (k : Fin 8) (tok : Nat), s.cx.batches[k] = .held tok) :
    exec (.commit a) s = .next { s with ctl := .stalled false } := by
  obtain ⟨k, tok, hk⟩ := hheld
  have hany : s.cx.batches.any (·.isHeld) = true :=
    Vector.any_eq_true.mpr ⟨k.val, k.isLt, by rw [show s.cx.batches[k.val] = .held tok from hk]; rfl⟩
  exact exec_stall (x := commitWord a) rfl rfl rfl (by simp [commitWord, hnone, hany]) rfl

theorem exec_commit_errors (hp : (s.cx.sreg a).poison = false) (hnone : lowestFree s.cx.batches = none)
    (herr : ∀ k : Fin 8, ∃ e r, s.cx.batches[k] = .error e r) :
    exec (.commit a) s = .next (s.trapIssue ⟨9, 0xFF00⟩) := by
  have hany : s.cx.batches.any (·.isHeld) = false := by
    refine Vector.any_eq_false.mpr (fun k hk hheld => ?_)
    obtain ⟨e, r, hkr⟩ := herr ⟨k, hk⟩
    rw [show s.cx.batches[k] = .error e r from hkr] at hheld
    exact Bool.false_ne_true hheld
  refine exec_trap (x := commitWord a) rfl rfl rfl (by simp [commitWord, hany]) ?_
  simp [commitWord, poisonCheck_clean s a hp, hnone, firstOf]

/-! WAITB and TESTB -/

theorem batchIdIllegal_of_lt (hv : (s.cx.sreg a).val.toNat < 8) : s.batchIdIllegal a = false := by
  rw [State.batchIdIllegal, decide_eq_false (by omega), Bool.and_false]

/-- `WAITB` of an id that is not held incomplete goes on. -/
theorem exec_waitb (hp : (s.cx.sreg a).poison = false) (hv : (s.cx.sreg a).val.toNat < 8)
    (hheld : (s.batchOf (s.cx.sreg a).val).isHeld = false) :
    exec (.waitb a) s = .next ((waitbWord a).effect s []) := by
  refine exec_effect (x := waitbWord a) rfl (batchIdIllegal_of_lt hv) rfl ?_ (poisonCheck_clean s a hp)
  simp only [waitbWord, hheld, Bool.and_false]

theorem exec_waitb_held (hp : (s.cx.sreg a).poison = false) (hv : (s.cx.sreg a).val.toNat < 8) {tok : Nat}
    (hb : s.batchOf (s.cx.sreg a).val = .held tok) :
    exec (.waitb a) s = .next { s with ctl := .stalled false } := by
  refine exec_stall (x := waitbWord a) rfl (batchIdIllegal_of_lt hv) rfl ?_ rfl
  simp only [waitbWord, hp, hb, BatchSt.isHeld, Bool.not_false, Bool.and_self]

theorem exec_testb (hp : (s.cx.sreg a).poison = false) (hv : (s.cx.sreg a).val.toNat < 8) :
    exec (.testb a) s = .next ((testbWord a).effect s []) :=
  exec_effect (x := testbWord a) rfl (batchIdIllegal_of_lt hv) rfl rfl (poisonCheck_clean s a hp)

end

/-- Settles O40: `COMMIT` gives the batch its id and settles it at once; a word of an id goes by the state of that id,
which an error leaves for the free one. -/
theorem batchWords : Obligations.BatchWords := by
  unfold Obligations.BatchWords
  intro s a v
  refine ⟨fun hp => ⟨fun k hk => ⟨exec_commit hp hk, fun hopen => ?_, fun hdone => ?_⟩,
      fun hnone => ⟨exec_commit_waits hnone, exec_commit_errors hp hnone⟩⟩,
    fun hp hv => ⟨fun hb => ⟨?_, ?_⟩, fun tok hb => ⟨exec_waitb_held hp hv hb, ?_⟩, fun e r hb => ⟨?_, ?_⟩⟩,
    fun hp ⟨k, hk⟩ => exec_commit_poison hp hk, fun hp hv => ?_⟩
  · exact (settleBatches_set s.cx k _ _).trans (settle_held_open hopen)
  · exact (settleBatches_set s.cx k _ _).trans (settle_held_done hdone)
  · rw [exec_waitb hp hv (by rw [hb]; rfl)]
    simp only [waitbWord, State.batchError, show s.batchOf (s.cx.sreg a).val = _ from hb]
  · rw [exec_testb hp hv]
    simp only [testbWord, show s.batchOf (s.cx.sreg a).val = _ from hb]
  · rw [exec_testb hp hv]
    simp only [testbWord, show s.batchOf (s.cx.sreg a).val = _ from hb]
  · rw [exec_waitb hp hv (by rw [hb]; rfl)]
    simp only [waitbWord, State.batchError, show s.batchOf (s.cx.sreg a).val = _ from hb, bitsOf, Nat.pow_zero,
      Nat.div_one]
    rfl
  · rw [exec_testb hp hv]
    simp only [testbWord, show s.batchOf (s.cx.sreg a).val = _ from hb]
    rfl
  · have hill : s.batchIdIllegal a = true := by
      rw [State.batchIdIllegal, hp, decide_eq_true (show 7 < (s.cx.sreg a).val.toNat from hv)]
      rfl
    rw [exec_word (w := waitbWord a) rfl, exec_word (w := testbWord a) rfl, issueWord_illop (w := waitbWord a) hill,
      issueWord_illop (w := testbWord a) hill]
    exact ⟨rfl, rfl⟩

end Sys2Proof.BatchProofs

/-! ### The shuttle words queue their commands (08 R170, R173, R177 to R180) -/

namespace Sys2Proof.ShuttleProofs

open Sys2Proof Sys2Proof.Machine Sys2Proof.Safety Sys2Proof.Laws Sys2Proof.ControlProofs

/-! What a word does to the queue and to the forms -/

theorem enqueueM_eq_queued (s : State) (k : MKind) (deps : List Nat) (batch : Bool) :
    s.enqueueM k deps batch = Queued s k deps batch := by
  cases batch
  · simp [State.enqueueM, State.newId, Queued]
  · rfl

/-- The forms as last issued once a tile, or a pair of tiles, has been given a form. -/
def formsNoted (l : Vector Form 8) (k : Nat) (wide : Bool) (f : Form) : Vector Form 8 :=
  if wide = true then (l.setIfInBounds k f).setIfInBounds (k + 1) f else l.setIfInBounds k f

theorem noteForm_eq (s : State) (k : Nat) (wide : Bool) (f : Form) :
    (if wide = true then (s.noteForm k f).noteForm (k + 1) f else s.noteForm k f)
      = { s with cx := { s.cx with forms := formsNoted s.cx.forms k wide f } } := by
  cases wide <;> rfl

/-- The operands of a step fit its configuration (08 R173). -/
theorem mstep_legal {s : State} {acc : BitVec 3} {wide : BitVec 1} {da db : DReg} {depth : BitVec 6} {flags : BitVec 2}
    (hill : s.usesIllop (s.stepUses da db (depth.toNat + 1) (wide == 1)) = false)
    (hplane : ∀ u ∈ s.stepUses da db (depth.toNat + 1) (wide == 1), (s.cx.desc u.d).kind = 1 ∧ u.n ≤ s.countOf u.d)
    (ha : (s.cx.desc da).code = s.cx.mcfg.fa)
    (hb : if s.cx.mcfg.flow = 1 then wide = 0 ∧ db = 0 else (s.cx.desc db).code = s.cx.mcfg.fb)
    (hforms : flags = 0 → s.formOf acc.toNat = s.cx.mcfg.form
      ∧ (wide = 1 → s.formOf (acc.toNat + 1) = s.cx.mcfg.form)) (tag : BitVec 2) :
    (mstepWord acc wide da db depth tag flags).illop s = false := by
  have huses : (s.stepUses da db (depth.toNat + 1) (wide == 1)).any
      (fun u => (s.cx.desc u.d).kind != 1 || decide ((s.cx.desc u.d).count < u.n)) = false := by
    refine List.any_eq_false.mpr (fun u hu => ?_)
    obtain ⟨hkind, hn⟩ := hplane u hu
    have hn : u.n ≤ (s.cx.desc u.d).count := hn
    simp [hkind, hn]
  have hflow : (if (s.cx.mcfg.flow == 1) = true then wide == 1 || db != 0 else (s.cx.desc db).code != s.cx.mcfg.fb)
      = false := by
    by_cases hws : s.cx.mcfg.flow = 1
    · rw [if_pos hws] at hb
      obtain ⟨rfl, rfl⟩ := hb
      rw [if_pos (beq_iff_eq.mpr hws)]
      rfl
    · rw [if_neg hws] at hb
      rw [if_neg (mt beq_iff_eq.mp hws), hb, bne_self_eq_false]
  have hinit : (flags == 0 && (s.formOf acc.toNat != s.cx.mcfg.form
      || (wide == 1 && s.formOf (acc.toNat + 1) != s.cx.mcfg.form))) = false := by
    by_cases h0 : flags = 0
    · obtain ⟨hacc, hnext⟩ := hforms h0
      by_cases hw : wide = 1
      · simp [hacc, hnext hw]
      · rw [hacc, beq_eq_false_iff_ne.mpr hw, bne_self_eq_false, Bool.false_and, Bool.or_self, Bool.and_false]
    · rw [beq_eq_false_iff_ne.mpr h0, Bool.false_and]
  simp only [mstepWord, hill, huses, ha, hflow, hinit, bne_self_eq_false, Bool.or_self]

section
variable {s : State} (hroom : s.shuttleFull = false)
include hroom

/-- A configuration word changes the configuration as last issued (08 R168, R170). -/
theorem exec_configure {i : Instr} {x : WordSpec} {c : MCfg} (hword : wordOf i = some x) (hlegal : x.illop s = false)
    (hpops : x.pops = 0) (hstall : x.stall s [] 0 = s.shuttleFull) (hcheck : x.check s [] = none)
    (heffect : x.effect s [] = s.configure c) :
    exec i s = .next (Queued { s with cx := { s.cx with mcfg := c } } (.config c) [] false) := by
  rw [exec_effect hword hlegal hpops (hstall.trans hroom) hcheck, heffect, State.configure, enqueueM_eq_queued]

theorem exec_mflow {p : BitVec 6} (h : ¬ (p = 1 ∧ s.cx.mcfg.skew = 0)) :
    exec (.mflow p) s = .next (Queued { s with cx := { s.cx with mcfg := { s.cx.mcfg with flow := p.toNat } } }
      (.config { s.cx.mcfg with flow := p.toNat }) [] false) := by
  refine exec_configure hroom (x := mflowWord p) rfl ?_ rfl rfl rfl rfl
  rw [← Bool.not_eq_true]
  simpa only [mflowWord, Bool.and_eq_true, beq_iff_eq] using h

theorem exec_mskew {p : BitVec 6} (h : ¬ (p = 0 ∧ s.cx.mcfg.flow = 1)) :
    exec (.mskew p) s = .next (Queued { s with cx := { s.cx with mcfg := { s.cx.mcfg with skew := p.toNat } } }
      (.config { s.cx.mcfg with skew := p.toNat }) [] false) := by
  refine exec_configure hroom (x := mskewWord p) rfl ?_ rfl rfl rfl rfl
  rw [← Bool.not_eq_true]
  simpa only [mskewWord, Bool.and_eq_true, beq_iff_eq] using h

theorem exec_mfmt {p q opt : BitVec 6}
    (h : s.mfmtOk p.toNat q.toNat (formOfBits (opt.toNat % 4)) (opt.toNat / 4) = true) :
    let c := { s.cx.mcfg with
      fa := p.toNat, fb := q.toNat, form := formOfBits (opt.toNat % 4), p := opt.toNat / 4 + 1 }
    exec (.mfmt p q opt) s = .next (Queued { s with cx := { s.cx with mcfg := c } } (.config c) [] false) := by
  refine exec_configure hroom (x := mfmtWord p q opt) rfl ?_ rfl rfl rfl rfl
  simp only [mfmtWord, h, Bool.not_true]

theorem exec_mzero (n : BitVec 3) (wide : BitVec 1) (v f : BitVec 2) :
    exec (.mzero n wide v f) s = .next
      { Queued s (.zero n.toNat (wide == 1) v.toNat (formOfBits f.toNat)) [] true with
        cx := { (Queued s (.zero n.toNat (wide == 1) v.toNat (formOfBits f.toNat)) [] true).cx with
          forms := formsNoted s.cx.forms n.toNat (wide == 1) (formOfBits f.toNat) } } := by
  rw [exec_effect (x := mzeroWord n wide v f) rfl rfl rfl hroom rfl]
  exact congrArg Host.Outcome.next (noteForm_eq _ _ (wide == 1) _)

theorem exec_mdrain {a6 : BitVec 6} (huse : Usable s [.of (a6.extractLsb' 0 5) .dst (s.countOf (a6.extractLsb' 0 5))])
    (hok : s.tileRegionOk (a6.extractLsb' 0 5) = true) (n m : BitVec 3) (clr : BitVec 1) :
    exec (.mdrain a6 n m clr) s = .next (Queued s
      (.drain (s.regionOf (a6.extractLsb' 0 5)) n.toNat m.toNat (clr == 1))
      (s.commandDeps (some (s.regionOf (a6.extractLsb' 0 5))) none) true) := by
  have hlegal : (mdrainWord a6 n m clr).illop s = false := by
    simp only [mdrainWord, huse.1, hok, Bool.not_true, Bool.or_self]
  rw [exec_effect (x := mdrainWord a6 n m clr) rfl hlegal rfl hroom huse.2]
  rfl

section
variable {a6 : BitVec 6} (huse : Usable s [.of (a6.extractLsb' 0 5) .src (s.countOf (a6.extractLsb' 0 5))])
include huse

theorem exec_mlda (hok : s.tileRegionOk (a6.extractLsb' 0 5) = true) (n : BitVec 3) (f : BitVec 2) (m : BitVec 3) :
    let t := Queued s (.load n.toNat (s.regionOf (a6.extractLsb' 0 5)) (formOfBits f.toNat) m.toNat)
      (s.commandDeps (some (s.regionOf (a6.extractLsb' 0 5))) none) true
    exec (.mlda n a6 f m) s = .next
      { t with cx := { t.cx with forms := s.cx.forms.setIfInBounds n.toNat (formOfBits f.toNat) } } := by
  have hlegal : (mldaWord n a6 f m).illop s = false := by
    simp only [mldaWord, huse.1, hok, Bool.not_true, Bool.or_self]
  rw [exec_effect (x := mldaWord n a6 f m) rfl hlegal rfl hroom huse.2]
  rfl

theorem exec_sload (hkind : (s.cx.desc (a6.extractLsb' 0 5)).kind = 0)
    (hfmt : s.fmtOf (s.cx.desc (a6.extractLsb' 0 5)).code = .int false 16)
    (hstride : (s.cx.desc (a6.extractLsb' 0 5)).stride = 1) (hlow : 1 ≤ s.countOf (a6.extractLsb' 0 5))
    (hhigh : s.countOf (a6.extractLsb' 0 5) ≤ 8) (sl : BitVec 2) :
    exec (.sload sl a6) s = .next (Queued s (.program sl.toNat (s.regionOf (a6.extractLsb' 0 5)))
      (s.commandDeps (some (s.regionOf (a6.extractLsb' 0 5))) none) true) := by
  have hlegal : (sloadWord sl a6).illop s = false := by
    have hsome : ((s.cx.desc (a6.extractLsb' 0 5)).count == 0) = false := beq_eq_false_iff_ne.mpr (Nat.ne_of_gt hlow)
    have hfew : decide (8 < (s.cx.desc (a6.extractLsb' 0 5)).count) = false := decide_eq_false (Nat.not_lt.mpr hhigh)
    have hill : s.usesIllop [.of (a6.extractLsb' 0 5) .src (s.cx.desc (a6.extractLsb' 0 5)).count] = false := huse.1
    simp only [sloadWord, hill, hkind, hfmt, hstride, hsome, hfew, bne_self_eq_false, Bool.or_self]
  rw [exec_effect (x := sloadWord sl a6) rfl hlegal rfl hroom huse.2]
  rfl

theorem exec_mwgt (hkind : (s.cx.desc (a6.extractLsb' 0 5)).kind = 1)
    (hrows : (s.weightShape (s.countOf (a6.extractLsb' 0 5))).1
      * (64 * (s.weightShape (s.countOf (a6.extractLsb' 0 5))).2) = s.countOf (a6.extractLsb' 0 5))
    (hlow : 1 ≤ (s.weightShape (s.countOf (a6.extractLsb' 0 5))).1)
    (hhigh : (s.weightShape (s.countOf (a6.extractLsb' 0 5))).1 ≤ 64) :
    exec (.mwgt a6) s = .next (Queued s (.weights (s.regionOf (a6.extractLsb' 0 5))
      (s.weightShape (s.countOf (a6.extractLsb' 0 5))).1 (s.weightShape (s.countOf (a6.extractLsb' 0 5))).2 s.cx.mcfg.p)
      (s.commandDeps (some (s.regionOf (a6.extractLsb' 0 5))) none) true) := by
  have hlegal : (mwgtWord a6).illop s = false := by
    have hsome : decide ((s.weightShape (s.countOf (a6.extractLsb' 0 5))).1 < 1) = false :=
      decide_eq_false (Nat.not_lt.mpr hlow)
    have hfew : decide (64 < (s.weightShape (s.countOf (a6.extractLsb' 0 5))).1) = false :=
      decide_eq_false (Nat.not_lt.mpr hhigh)
    simp only [mwgtWord, huse.1, hkind, hrows, hsome, hfew, bne_self_eq_false, Bool.or_self]
  rw [exec_effect (x := mwgtWord a6) rfl hlegal rfl hroom huse.2]
  rfl

end

theorem exec_mstep {acc : BitVec 3} {wide : BitVec 1} {da db : DReg} {depth : BitVec 6} {tag flags : BitVec 2}
    (huse : Usable s (s.stepUses da db (depth.toNat + 1) (wide == 1)))
    (hlegal : (mstepWord acc wide da db depth tag flags).illop s = false) :
    let cfg := s.cx.mcfg
    let b := if cfg.flow = 1 then none else some (s.regionOf db)
    let t := Queued s (.step acc.toNat (wide == 1) (depth.toNat + 1) (tagOfCode tag.toNat) flags.toNat
      (s.regionOf da) b { cfg with bFmt := some (s.fmtOf cfg.fb) }) (s.commandDeps (some (s.regionOf da)) b) true
    exec (.mstep acc wide da db depth tag flags) s = .next { t with cx := { t.cx with
      forms := if flags = 0 then s.cx.forms else formsNoted s.cx.forms acc.toNat (wide == 1) cfg.form } } := by
  intro cfg b t
  rw [exec_effect (x := mstepWord acc wide da db depth tag flags) rfl hlegal rfl hroom huse.2]
  refine congrArg Host.Outcome.next ?_
  by_cases h0 : flags = 0
  · subst h0
    rfl
  · rw [if_neg h0]
    exact (if_neg (mt beq_iff_eq.mp h0)).trans (noteForm_eq _ _ (wide == 1) _)

end

/-- The forms of a tile, or of a pair, as the statement writes them. -/
theorem formsNoted_beq (l : Vector Form 8) (k : Nat) (wide : BitVec 1) (f : Form) :
    formsNoted l k (wide == 1) f
      = if wide = 1 then (l.setIfInBounds k f).setIfInBounds (k + 1) f else l.setIfInBounds k f := by
  rw [formsNoted]
  simp only [beq_iff_eq]

end Sys2Proof.ShuttleProofs

/-! ### Commands of the shuttle start, and a charge is recorded (08 R165, R170; 20 R310) -/

namespace Sys2Proof.ShuttleProofs

open Sys2Proof Sys2Proof.Machine Sys2Proof.Safety Sys2Proof.Laws

/-- The first command that waits is in the queue. -/
theorem mem_of_firstWaiting {l before : List MCmd} {m : MCmd} (h : firstWaiting l = some (before, m)) : m ∈ l := by
  induction l generalizing before with
  | nil => exact absurd h (Option.some_ne_none _).symm
  | cons x l ih =>
    rw [firstWaiting] at h
    by_cases hx : x.started = true
    · rw [if_pos hx] at h
      obtain ⟨y, hy, hpair⟩ := Option.map_eq_some_iff.mp h
      obtain ⟨-, rfl⟩ := Prod.mk.injEq .. ▸ hpair
      exact List.mem_cons_of_mem x (ih (before := y.1) hy)
    · rw [if_neg hx] at h
      obtain ⟨-, rfl⟩ := Prod.mk.injEq .. ▸ Option.some_inj.mp h
      exact List.mem_cons_self

/-- A command that is replaced stands in the queue. -/
theorem mem_setM {s : State} {m x : MCmd} (hm : m ∈ s.core.shq) (hid : m.id = x.id) : x ∈ (s.setM x).core.shq :=
  List.mem_map.mpr ⟨m, hm, if_pos (beq_iff_eq.mpr hid)⟩

/-- That a step has started is told to its context alone. -/
theorem noteStep_cx (s : State) (m : MCmd) :
    (s.noteStep m).cx = { s.cx with stepped := (s.noteStep m).cx.stepped } := by
  unfold State.noteStep State.onOwner State.onCtx
  dsimp only
  split <;> rfl

section
variable {s : State} {before : List MCmd} {m : MCmd} (hfirst : firstWaiting s.core.shq = some (before, m))
  (hmay : s.mayStart before m = true)
include hfirst hmay

/-- A configuration command takes effect as it starts, and is complete (08 R170, R171). -/
theorem shuttleStart_config {c : MCfg} (hkind : m.kind = .config c) :
    s.shuttleStart = { s with core := { s.core with
      cfg := c
      shq := (s.core.shq.filter (fun x => x.id != m.id)).map (fun x =>
        if x.started then { x with fenced := true } else x) } } := by
  simp [State.shuttleStart, hfirst, hmay, hkind]

/-- Any other command stands in the queue as started; steps and weights are charged from here on. -/
theorem shuttleStart_other (hkind : m.kind.isConfig = false) :
    ∃ x : MCmd, (s.shuttleStart = s.setM x ∨ s.shuttleStart = (s.setM x).noteStep m)
      ∧ x.id = m.id ∧ x.kind = m.kind ∧ x.started = true := by
  unfold State.shuttleStart
  rw [hfirst]
  dsimp only
  rw [hmay, if_neg (show ¬ (!true) = true from Bool.false_ne_true)]
  split
  · next c hk => rw [hk] at hkind; exact Bool.noConfusion hkind
  · exact ⟨_, .inr rfl, rfl, rfl, rfl⟩
  · exact ⟨_, .inr rfl, rfl, rfl, rfl⟩
  · exact ⟨_, .inl rfl, rfl, rfl, rfl⟩

theorem shuttleStart_starts (hkind : m.kind.isConfig = false) :
    ∃ t x, exec .shuttleCommandStart s = .next t ∧ x ∈ t.core.shq ∧ x.id = m.id ∧ x.kind = m.kind ∧ x.started = true
      ∧ t.mem = s.mem ∧ t.cx = { s.cx with stepped := t.cx.stepped } := by
  obtain ⟨x, hset | hnote, hid, hxkind, hstarted⟩ := shuttleStart_other hfirst hmay hkind
  · exact ⟨s.setM x, x, congrArg Host.Outcome.next hset, mem_setM (mem_of_firstWaiting hfirst) hid.symm, hid, hxkind,
      hstarted, rfl, rfl⟩
  · exact ⟨(s.setM x).noteStep m, x, congrArg Host.Outcome.next hnote,
      mem_setM (mem_of_firstWaiting hfirst) hid.symm, hid, hxkind, hstarted, rfl, noteStep_cx (s.setM x) m⟩

theorem shuttleStart_configures {c : MCfg} (hkind : m.kind = .config c) :
    ∃ t, exec .shuttleCommandStart s = .next t ∧ t.core.cfg = c ∧ (∀ x ∈ t.core.shq, x.id ≠ m.id) ∧ t.mem = s.mem
      ∧ t.cx = s.cx := by
  refine ⟨_, congrArg Host.Outcome.next (shuttleStart_config hfirst hmay hkind), rfl, fun x hx => ?_, rfl, rfl⟩
  obtain ⟨y, hy, rfl⟩ := List.mem_map.mp hx
  have hne := bne_iff_ne.mp (List.mem_filter.mp hy).2
  split <;> exact hne

end

/-! The charge record -/

theorem chargeRecord_low {s : State} (h : ∀ n ∈ s.core.charge.toList, n < 4095) :
    exec .chargeRecord s = .next s := by
  have hnone : ¬ s.core.charge.any (fun n => decide (4095 ≤ n)) = true := by
    rw [← Vector.any_toList, List.any_eq_true]
    rintro ⟨n, hn, hfull⟩
    exact absurd (of_decide_eq_true hfull) (Nat.not_le.mpr (h n hn))
  exact congrArg Host.Outcome.next (if_neg hnone)

theorem recordFor_cx (s : State) (l : List Nat) (k n c : Nat) (b : Bool) (x y : Word) :
    (s.recordFor l k n c b x y).cx = s.cx := by
  unfold State.recordFor
  split
  · rfl
  · split <;> rfl

/-- A count that is full is recorded, and counting starts anew (20 R310). -/
theorem chargeRecord_full {s : State} (h : ∃ n ∈ s.core.charge.toList, 4095 ≤ n) :
    ∃ t, exec .chargeRecord s = .next t ∧ t.core.charge = Vector.replicate 5 0 ∧ t.cx = s.cx ∧ t.mem = s.mem := by
  obtain ⟨n, hn, hfull⟩ := h
  have hany : s.core.charge.any (fun n => decide (4095 ≤ n)) = true := by
    rw [← Vector.any_toList, List.any_eq_true]
    exact ⟨n, hn, decide_eq_true hfull⟩
  have hsome : ¬ s.core.charge.all (· == 0) = true := by
    rw [← Vector.all_toList, List.all_eq_true]
    intro hall
    have := beq_iff_eq.mp (hall n hn)
    omega
  refine ⟨_, congrArg Host.Outcome.next ((if_pos hany).trans (if_neg hsome)), rfl, ?_, ?_⟩
  · exact recordFor_cx s _ _ _ _ _ _ _
  · exact (recordFor_sameMem s _ _ _ _ _ _ _).1

end Sys2Proof.ShuttleProofs

/-! ### Commands of the shuttle complete (08 R171, R177, R178) -/

namespace Sys2Proof.ShuttleProofs

open Sys2Proof Sys2Proof.Machine Sys2Proof.Safety Sys2Proof.Laws Sys2Proof.GroupProofs

/-! A command leaves the queue -/

theorem endM_mem (s : State) (m : MCmd) : (s.endM m).mem = s.mem := rfl

theorem not_mem_endM (s : State) (m : MCmd) : ∀ x ∈ (s.endM m).core.shq, x.id ≠ m.id :=
  fun _ hx => bne_iff_ne.mp (List.mem_filter.mp hx).2

/-- That a command is complete changes no tile. -/
theorem endM_tiles (s : State) (m : MCmd) : (s.endM m).cx.tiles = s.cx.tiles := by
  unfold State.endM State.cmdDone State.onOwner State.onCtx
  dsimp only
  split <;> rfl

/-! Tiles of an owner -/

/-- The tile of the running context, where it owns the command. -/
theorem ownerTile_running {s : State} {uid : Nat} (h : uid = s.cx.uid) (k : Fin 8) :
    s.ownerTile uid k.val = s.cx.tiles[k] := by
  have hctx : s.ctxOf uid = some s.cx := List.find?_cons_of_pos (beq_iff_eq.mpr h.symm)
  simp [State.ownerTile, hctx]

theorem setOwnerTile_cx {s : State} {uid : Nat} (h : uid = s.cx.uid) (k : Nat) (t : Tile) :
    (s.setOwnerTile uid k t).cx = { s.cx with tiles := s.cx.tiles.setIfInBounds k t } :=
  if_pos (beq_iff_eq.mpr h.symm)

/-! Steps, and commands without a region -/

theorem isStep_of_region {k : MKind} {x : Region × Bool} (h : k.region = some x) : k.isStep = false := by
  cases k with
  | step => exact absurd h.symm (Option.some_ne_none x)
  | _ => rfl

section
variable {s : State} {m : MCmd} {rest : List MCmd} (hq : s.core.shq = m :: rest) (hstarted : m.started = true)
include hq hstarted

/-- A step whose beats are done leaves the queue. -/
theorem shuttleComplete_step (hstep : m.kind.isStep = true) (hdone : m.beatsDone = true) :
    s.shuttleComplete = s.endM m := by
  simp [State.shuttleComplete, hq, hstarted, hstep, hdone]

/-- A tile command all of whose groups have passed has its effect and leaves the queue. -/
theorem shuttleComplete_region {r : Region} {dst : Bool} (hregion : m.kind.region = some (r, dst)) {t : State} {n : MCmd}
    (hpass : State.passGroups 1024 s m = (t, n)) (hkind : n.kind = m.kind) (hdone : (r.count + 63) / 64 ≤ n.beat) :
    s.shuttleComplete = (t.tileEnd n).endM n := by
  have hstep := isStep_of_region hregion
  unfold State.shuttleComplete
  rw [hq]
  dsimp only
  rw [hstarted, hstep, hpass, if_neg (show ¬ (!true) = true from Bool.false_ne_true), if_neg Bool.false_ne_true]
  dsimp only
  rw [hkind, hregion]
  exact if_pos hdone

theorem shuttleComplete_zero {n v : Nat} {wide : Bool} {f : Form} (hkind : m.kind = .zero n wide v f) :
    s.shuttleComplete = (s.tileEnd m).endM m := by
  have hregion : m.kind.region = none := by rw [hkind]; rfl
  have hpass : State.passGroups 1024 s m = (s, m) := by
    rw [State.passGroups, hregion]
  have hstep : m.kind.isStep = false := by rw [hkind]; rfl
  unfold State.shuttleComplete
  rw [hq]
  dsimp only
  rw [hstarted, hstep, hpass, if_neg (show ¬ (!true) = true from Bool.false_ne_true), if_neg Bool.false_ne_true]
  dsimp only
  rw [hregion]

end

/-- The end of a tile command writes no memory. -/
theorem tileEnd_mem (s : State) (m : MCmd) : (s.tileEnd m).mem = s.mem := by
  unfold State.tileEnd
  split
  · dsimp only
    split <;> rfl
  · rfl
  · rfl
  · rfl
  · rfl

/-- No group is left: none passes. -/
theorem passGroups_done {s : State} {m : MCmd} {r : Region} {dst : Bool} (hregion : m.kind.region = some (r, dst))
    (hdone : (r.count + 63) / 64 ≤ m.beat) (fuel : Nat) : State.passGroups fuel s m = (s, m) := by
  cases fuel with
  | zero => rfl
  | succ fuel =>
    rw [State.passGroups, hregion]
    exact if_pos hdone

theorem tileEnd_zero_tiles {s : State} {m : MCmd} {n v : Nat} {wide : Bool} {f : Form}
    (hkind : m.kind = .zero n wide v f) (howner : m.owner = s.cx.uid) :
    (s.tileEnd m).cx.tiles = (let l := s.cx.tiles.setIfInBounds n (Tile.fill f (infCode f v))
      if wide then l.setIfInBounds (n + 1) (Tile.fill f (infCode f v)) else l) := by
  unfold State.tileEnd
  rw [hkind]
  have hfirst := setOwnerTile_cx howner n (Tile.fill f (infCode f v))
  have hnext := setOwnerTile_cx (s := s.setOwnerTile m.owner n (Tile.fill f (infCode f v))) (uid := m.owner)
    (by rw [hfirst]; exact howner) (n + 1) (Tile.fill f (infCode f v))
  dsimp only
  cases wide with
  | false => rw [if_neg Bool.false_ne_true, if_neg Bool.false_ne_true, hfirst]
  | true => rw [if_pos rfl, if_pos rfl, hnext, hfirst]

/-! Groups pass one after another -/

/-- What holds of a tile command and of each next group that passes holds once all have passed. -/
theorem passGroups_reaches {P : State → MCmd → Prop} {r : Region} {dst : Bool}
    (hstep : ∀ t n, P t n → n.beat < (r.count + 63) / 64 →
      ∃ u k, t.tilePass n r dst = (u, k, true) ∧ P u k ∧ k.beat = n.beat + 1)
    (hregion : ∀ t n, P t n → n.kind.region = some (r, dst))
    (hopen : ∀ t n, P t n → n.beat < (r.count + 63) / 64 → ((n.kind.groupWords n.beat).any (fun w => t.wsBlocked (8 * w))
      || ((r.groupIdx n.beat).filterMap r.scaleByte).any t.wsBlocked) = false)
    {fuel : Nat} {s : State} {m : MCmd} (h : P s m) (hfuel : (r.count + 63) / 64 ≤ m.beat + fuel) :
    ∃ t n, State.passGroups fuel s m = (t, n) ∧ P t n ∧ (r.count + 63) / 64 ≤ n.beat := by
  induction fuel generalizing s m with
  | zero => exact ⟨s, m, rfl, h, hfuel⟩
  | succ fuel ih =>
    by_cases hdone : (r.count + 63) / 64 ≤ m.beat
    · exact ⟨s, m, passGroups_done (hregion s m h) hdone _, h, hdone⟩
    · obtain ⟨u, k, hpass, hk, hbeat⟩ := hstep s m h (Nat.not_le.mp hdone)
      obtain ⟨t, n, hrest, hn⟩ := ih hk (by omega)
      refine ⟨t, n, ?_, hn⟩
      rw [State.passGroups, hregion s m h]
      dsimp only
      rw [if_neg hdone, hopen s m h (Nat.not_le.mp hdone), if_neg Bool.false_ne_true, hpass]
      exact hrest

/-- The elements of a group, and its words, are those of the region (07 R125). -/
theorem mem_groupIdx {r : Region} {g i : Nat} : i ∈ r.groupIdx g ↔ 64 * g ≤ i ∧ i < 64 * g + 64 ∧ i < r.count := by
  rw [Region.groupIdx, List.mem_map]
  constructor
  · rintro ⟨j, hj, rfl⟩
    obtain ⟨hgroup, hcount⟩ := Nat.lt_min.mp (List.mem_range.mp hj)
    omega
  · rintro ⟨hlow, hgroup, hcount⟩
    exact ⟨i - 64 * g, List.mem_range.mpr (Nat.lt_min.mpr ⟨by omega, by omega⟩), by omega⟩

theorem mem_groupOf {r : Region} {g w : Nat} : w ∈ r.groupOf g ↔ ∃ i ∈ r.groupIdx g, w ∈ r.words i := by
  rw [Region.groupOf, mem_wordSet, List.mem_flatMap, Region.groupIdx]
  simp only [List.mem_map, exists_exists_and_eq_and]

end Sys2Proof.ShuttleProofs

/-! ### MLDA: each element of the region converted into the tile (08 R178) -/

namespace Sys2Proof.ShuttleProofs

open Sys2Proof Sys2Proof.Machine Sys2Proof.Safety Sys2Proof.Laws Sys2Proof.GroupProofs

/-! Where nothing watches memory -/

section
variable {s : State} (h : Unwatched s)
include h

theorem collsOpen_of_unwatched (x : Actor) : s.collsOpen x = [] := by
  obtain ⟨htable, htail, hclosing, -⟩ := h
  rw [State.collsOpen, htable, htail, hclosing]
  rfl

theorem hot_of_unwatched (x : Actor) (l : Nat) : s.hot x l = false := by
  rw [State.hot, collsOpen_of_unwatched h]
  rfl

theorem locked_of_unwatched (x : Actor) (l : Nat) : s.locked x l = false := by
  rw [State.locked, collsOpen_of_unwatched h]
  rfl

theorem freedFor_of_unwatched (id w : Nat) : s.freedFor id w = false := by
  obtain ⟨-, -, -, -, -, hfreed, -⟩ := h
  rw [State.freedFor, hfreed]
  rfl

/-- An element of memory is read as it stands. -/
theorem readElem_of_unwatched {r : Region} (hkind : r.kind ≠ 2) (i : Nat) :
    s.readElem r i = ((s.codeAt r i).1, s) := by
  have hstate : (s.codeAt r i).2 = s := by rw [codeAt_snd, if_neg (fun hacc => hkind hacc.1)]
  have hcold : (r.bytesAt i).any (s.hot r.actor) = false :=
    List.any_eq_false.mpr (fun l _ => by rw [hot_of_unwatched h]; exact Bool.false_ne_true)
  rw [State.readElem]
  dsimp only
  rw [hstate, hcold, if_neg Bool.false_ne_true]

end

/-! Regions without scales -/

section
variable {r : Region} (h : r.scales = none)
include h

theorem scaleByte_unscaled (i : Nat) : r.scaleByte i = none := by rw [Region.scaleByte, h]; rfl

theorem scalePoison_unscaled (s : State) (i : Nat) : s.scalePoison r i = false := by
  rw [State.scalePoison, scaleByte_unscaled h]

theorem scaleAt_unscaled (s : State) (i : Nat) : s.scaleAt r i = none := by rw [State.scaleAt, h]

theorem valueAt_unscaled (s : State) (i code : Nat) : s.valueAt r i code = (r.fmt.value code, 0) := by
  rw [State.valueAt, scaleAt_unscaled h]

/-- A code of memory hangs on its bytes and marks alone. -/
theorem codeAt_of_sameMem {s t : State} (hkind : r.kind ≠ 2) (hmem : t.mem = s.mem) (hmarks : t.marks = s.marks) (i : Nat) :
    (t.codeAt r i).1 = (s.codeAt r i).1 := by
  have hread : ∀ loc n, t.readNat loc n = s.readNat loc n := fun loc n =>
    readNat_congr (fun j _ => by rw [State.byte, hmem, State.byte])
  unfold State.codeAt
  simp only [if_neg hkind, scalePoison_unscaled h, hread, State.marked, State.markedRange, hmarks]
  split <;> rfl

end

/-! The passing of groups -/

/-- Nothing watches memory, and the cycle and the context that runs are as before. -/
structure Undisturbed (s t : State) : Prop where
  unwatched : Unwatched t
  cyc : t.cyc = s.cyc
  uid : t.cx.uid = s.cx.uid

/-- A tile command is between two of its groups. -/
structure Between (m n : MCmd) : Prop where
  kind : n.kind = m.kind
  id : n.id = m.id
  owner : n.owner = m.owner
  acted : n.acted = []
  seen : n.seen = []

theorem wsBlocked_congr {s t : State} (h : t.cyc = s.cyc) (loc : Nat) : t.wsBlocked loc = s.wsBlocked loc := by
  rw [State.wsBlocked, h, State.wsBlocked]

/-- No refresh window holds a group back where none holds an element of the region back (10 R195). -/
theorem group_open {s t : State} {r : Region} (hscales : r.scales = none)
    (hopen : ∀ i < r.count, ∀ w ∈ r.words i, s.wsBlocked (8 * w) = false) (hcyc : t.cyc = s.cyc) (g : Nat) :
    ((r.groupOf g).any (fun w => t.wsBlocked (8 * w)) || ((r.groupIdx g).filterMap r.scaleByte).any t.wsBlocked)
      = false := by
  have hunscaled : (r.groupIdx g).filterMap r.scaleByte = [] :=
    List.filterMap_eq_nil_iff.mpr (fun i _ => scaleByte_unscaled hscales i)
  rw [hunscaled, List.any_nil, Bool.or_false, List.any_eq_false]
  intro w hw
  obtain ⟨i, hi, hwi⟩ := mem_groupOf.mp hw
  rw [wsBlocked_congr hcyc, hopen i (mem_groupIdx.mp hi).2.2 w hwi]
  exact Bool.false_ne_true

theorem unparkAll_unwatched {s : State} (h : Unwatched s) (id : Nat) : Unwatched (s.unparkAll id) := by
  obtain ⟨htable, htail, hclosing, hcopies, hsends, hfreed, hparked⟩ := h
  refine ⟨htable, htail, hclosing, hcopies, hsends, hfreed, ?_⟩
  rw [State.unparkAll]
  dsimp only
  rw [hparked]
  rfl

/-! Elements put into a tile -/

/-- Values put into a tile at some indices. -/
def putValues (t : Tile) (v : Nat → Word) (l : List Nat) : Tile := l.foldl (fun t i => t.put i (v i)) t

theorem putValues_form (t : Tile) (v : Nat → Word) (l : List Nat) : (putValues t v l).form = t.form :=
  List.foldlRecOn l _ (motive := fun u : Tile => u.form = t.form) rfl (fun _ hu _ _ => hu)

theorem get_putValues (t : Tile) (v : Nat → Word) (l : List Nat) (j : Nat) :
    (putValues t v l).get j = if j ∈ l then v j else t.get j := by
  induction l generalizing t with
  | nil => rw [if_neg List.not_mem_nil]; rfl
  | cons i l ih =>
    rw [putValues, List.foldl_cons]
    refine (ih (t.put i (v i))).trans ?_
    rw [get_put]
    by_cases hl : j ∈ l
    · rw [if_pos hl, if_pos (List.mem_cons_of_mem i hl)]
    · by_cases hj : j = i
      · rw [if_neg hl, if_pos hj, if_pos (hj ▸ List.mem_cons_self), hj]
      · rw [if_neg hl, if_neg hj, if_neg (fun hin => (List.mem_cons.mp hin).elim hj hl)]

/-! One group -/

/-- The code that an element of a region leaves in a tile of a form (08 R178). -/
def loadValue (s : State) (r : Region) (form : Form) (mode i : Nat) : Word :=
  mkWord ((fmtOfForm form).convert mode (s.valueAt r i (s.codeAt r i).1.1).1).1

/-- One element of a group of an `MLDA`. -/
def loadStep (id : Nat) (r : Region) (form : Form) (mode : Nat) (x : Tile × State × Flags) (i : Nat) :
    Tile × State × Flags :=
  let ((code, p), s) := x.2.1.readElem r i
  let (c, f) : Nat × Flags :=
    if p || (r.words i).any (s.freedFor id) then ((fmtOfForm form).poisonCode, Flag.nv)
    else
      let (v, f) := s.valueAt r i code
      let (c, g) := (fmtOfForm form).convert mode v
      (c, f ||| g)
  (x.1.put i (mkWord c), s, x.2.2 ||| f)

theorem loadGroup_eq (t : State) (n : MCmd) (r : Region) (k : Nat) (form : Form) (mode : Nat) :
    t.loadGroup n r k form mode =
      (let y := (r.groupIdx n.beat).foldl (loadStep n.id r form mode)
        (if n.beat = 0 then { form := form } else t.ownerTile n.owner k, t.seenView n.seen, 0)
      (State.setOwnerTile { t with fv := y.2.1.fv } n.owner k y.1, y.2.2)) := rfl

section
variable {t : State} (h : Unwatched t) {r : Region} (hkind : r.kind ≠ 2)
include h hkind

theorem loadStep_clean {i : Nat} (hclean : (t.codeAt r i).1.2 = false) (id : Nat) (form : Form) (mode : Nat) (x : Tile)
    (f : Flags) : ∃ g, loadStep id r form mode (x, t, f) i = (x.put i (loadValue t r form mode i), t, g) := by
  have hfree : (r.words i).any (t.freedFor id) = false :=
    List.any_eq_false.mpr (fun w _ => by rw [freedFor_of_unwatched h]; exact Bool.false_ne_true)
  unfold loadStep
  dsimp only
  rw [readElem_of_unwatched h hkind]
  dsimp only
  rw [hclean, hfree, if_neg (show ¬ (false || false) = true from Bool.false_ne_true)]
  exact ⟨_, rfl⟩

theorem loadSteps_clean {l : List Nat} (hclean : ∀ i ∈ l, (t.codeAt r i).1.2 = false) (id : Nat) (form : Form)
    (mode : Nat) (x : Tile) (f : Flags) :
    ∃ g, l.foldl (loadStep id r form mode) (x, t, f) = (putValues x (loadValue t r form mode) l, t, g) := by
  induction l generalizing x f with
  | nil => exact ⟨f, rfl⟩
  | cons i l ih =>
    obtain ⟨g, hg⟩ := loadStep_clean h hkind (hclean i List.mem_cons_self) id form mode x f
    obtain ⟨g', hg'⟩ := ih (fun j hj => hclean j (List.mem_cons_of_mem i hj)) (x.put i (loadValue t r form mode i)) g
    exact ⟨g', by rw [List.foldl_cons, hg, hg']; rfl⟩

/-- A group that is read clean is put into the tile, cleared before the first. -/
theorem loadGroup_clean {n : MCmd} (hseen : n.seen = []) (hclean : ∀ i ∈ r.groupIdx n.beat, (t.codeAt r i).1.2 = false)
    (k : Nat) (form : Form) (mode : Nat) :
    (t.loadGroup n r k form mode).1 = t.setOwnerTile n.owner k (putValues
      (if n.beat = 0 then { form := form } else t.ownerTile n.owner k) (loadValue t r form mode) (r.groupIdx n.beat)) := by
  obtain ⟨g, hg⟩ := loadSteps_clean h hkind hclean n.id form mode
    (if n.beat = 0 then { form := form } else t.ownerTile n.owner k) 0
  have hview : t.seenView n.seen = t := by rw [hseen]; rfl
  rw [loadGroup_eq, hview, hg]

end

/-- A group whose words are not waited for passes (06 R108, 08 R178). -/
theorem tilePass_load {t : State} {n : MCmd} {r : Region} {k mode : Nat} {form : Form} (hload : n.kind = .load k r form mode)
    (htag : r.tag = .keep) (dst : Bool) :
    t.tilePass n r dst = (((t.unparkAll n.id).loadGroup n r k form mode).1,
      n.nextGroup ((t.unparkAll n.id).loadGroup n r k form mode).2, true) := by
  have hsame : { n with seen := n.seen ++ [] } = n := by rw [List.append_nil]
  unfold State.tilePass
  split
  · next hdrain => exact MKind.noConfusion (hload.symm.trans hdrain)
  · dsimp only
    rw [htag, meetFull_keep (mode := .keep) _ _ _ rfl]
    dsimp only
    rw [hsame, if_pos rfl, State.tileGroup, hload]

/-! All groups -/

/-- The next group is next of the same command. -/
theorem between_nextGroup {m n : MCmd} (h : Between m n) (hkind : ∀ slot a, m.kind ≠ .program slot a) (f : Flags) :
    Between m (n.nextGroup f) := by
  refine ⟨h.kind, h.id, h.owner, rfl, ?_⟩
  unfold MCmd.nextGroup
  dsimp only
  split
  · next slot a hk => exact absurd (h.kind.symm.trans hk) (hkind slot a)
  · rfl

theorem setOwnerTile_undisturbed {s : State} {uid : Nat} (h : Unwatched s) (howner : uid = s.cx.uid) (k : Nat) (x : Tile) :
    Undisturbed s (s.setOwnerTile uid k x) :=
  ⟨h, rfl, by rw [setOwnerTile_cx howner]⟩

theorem Undisturbed.trans {s t u : State} (h : Undisturbed s t) (k : Undisturbed t u) : Undisturbed s u :=
  ⟨k.unwatched, k.cyc.trans h.cyc, k.uid.trans h.uid⟩

/-- What stands once some groups of an `MLDA` into tile k have passed. -/
structure LoadedTo (s : State) (m : MCmd) (r : Region) (k : Fin 8) (form : Form) (mode : Nat) (t : State) (n : MCmd) :
    Prop where
  still : Undisturbed s t
  command : Between m n
  mem : t.mem = s.mem
  marks : t.marks = s.marks
  holds : 0 < n.beat → t.cx.tiles[k].form = form
  get : 0 < n.beat → ∀ i, t.cx.tiles[k].get i
    = if i < r.count ∧ i < 64 * n.beat then loadValue s r form mode i else 0

theorem setIfInBounds_get (l : Vector Tile 8) (k : Fin 8) (x : Tile) : (l.setIfInBounds k.val x)[k] = x := by
  simp

theorem loadValue_of_sameMem {s t : State} {r : Region} (hscales : r.scales = none) (hkind : r.kind ≠ 2)
    (hmem : t.mem = s.mem) (hmarks : t.marks = s.marks) (form : Form) (mode : Nat) :
    loadValue t r form mode = loadValue s r form mode := by
  funext i
  rw [loadValue, loadValue, codeAt_of_sameMem hscales hkind hmem hmarks, valueAt_unscaled hscales,
    valueAt_unscaled hscales]

theorem get_empty (form : Form) (i : Nat) : ({ form := form } : Tile).get i = 0 := rfl

section
variable {s : State} {m : MCmd} {r : Region} {k : Fin 8} {form : Form} {mode : Nat}
  (hload : m.kind = .load k.val r form mode) (howner : m.owner = s.cx.uid) (hscales : r.scales = none)
  (htag : r.tag = .keep) (hkind : r.kind ≠ 2) (hclean : ∀ i < r.count, (s.codeAt r i).1.2 = false)
include hload howner hscales htag hkind hclean

theorem loadedTo_next {t : State} {n : MCmd} (h : LoadedTo s m r k form mode t n) :
    ∃ u c, t.tilePass n r false = (u, c, true) ∧ LoadedTo s m r k form mode u c ∧ c.beat = n.beat + 1 := by
  obtain ⟨hstill, hcmd, hmem, hmarks, hform, hget⟩ := h
  have hun := unparkAll_unwatched hstill.unwatched n.id
  have hclean' : ∀ i ∈ r.groupIdx n.beat, ((t.unparkAll n.id).codeAt r i).1.2 = false := fun i hi => by
    rw [codeAt_of_sameMem (t := t.unparkAll n.id) hscales hkind hmem hmarks]
    exact hclean i (mem_groupIdx.mp hi).2.2
  have hpass := tilePass_load (t := t) (hcmd.kind.trans hload) htag false
  have hrun : n.owner = (t.unparkAll n.id).cx.uid := hcmd.owner.trans (howner.trans hstill.uid.symm)
  rw [loadGroup_clean hun hkind hcmd.seen hclean', ownerTile_running hrun k,
    loadValue_of_sameMem (t := t.unparkAll n.id) hscales hkind hmem hmarks] at hpass
  refine ⟨_, _, hpass, ⟨hstill.trans ⟨hun, rfl, ?_⟩,
    between_nextGroup hcmd (fun slot a => by rw [hload]; exact MKind.noConfusion) _, hmem, hmarks, fun _ => ?_,
    fun _ i => ?_⟩, rfl⟩
  · rw [setOwnerTile_cx hrun]
    rfl
  · rw [setOwnerTile_cx hrun, setIfInBounds_get, putValues_form]
    split
    · rfl
    · next hpos => exact hform (Nat.pos_of_ne_zero hpos)
  · rw [show (n.nextGroup _).beat = n.beat + 1 from rfl, setOwnerTile_cx hrun, setIfInBounds_get, get_putValues]
    simp only [mem_groupIdx]
    by_cases hin : 64 * n.beat ≤ i ∧ i < 64 * n.beat + 64 ∧ i < r.count
    · rw [if_pos hin, if_pos (by omega)]
    · rw [if_neg hin]
      by_cases hzero : n.beat = 0
      · rw [if_pos hzero, if_neg (by omega), get_empty]
      · rw [if_neg hzero]
        refine (hget (Nat.pos_of_ne_zero hzero) i).trans (if_congr ?_ rfl rfl)
        omega

/-- All groups pass, and the tile holds the converted elements, and zeroes beyond them (08 R178). -/
theorem passGroups_load (hun : Unwatched s) (hbeat : m.beat = 0) (hacted : m.acted = []) (hseen : m.seen = [])
    (hcount : r.count ≤ 4096) (hopen : ∀ i < r.count, ∀ w ∈ r.words i, s.wsBlocked (8 * w) = false) :
    ∃ t n, State.passGroups 1024 s m = (t, n) ∧ LoadedTo s m r k form mode t n ∧ (r.count + 63) / 64 ≤ n.beat := by
  refine passGroups_reaches (P := LoadedTo s m r k form mode) (dst := false)
    (fun t n h _ => loadedTo_next hload howner hscales htag hkind hclean h) (fun t n h => ?_) (fun t n h _ => ?_)
    ⟨⟨hun, rfl, rfl⟩, ⟨rfl, rfl, rfl, hacted, hseen⟩, rfl, rfl, fun hpos => absurd hbeat (Nat.ne_of_gt hpos),
      fun hpos => absurd hbeat (Nat.ne_of_gt hpos)⟩ (by omega)
  · rw [h.command.kind, hload]
    rfl
  · rw [h.command.kind, hload]
    exact group_open hscales hopen h.still.cyc n.beat

theorem shuttleComplete_load {rest : List MCmd} (hq : s.core.shq = m :: rest) (hstarted : m.started = true)
    (hun : Unwatched s) (hbeat : m.beat = 0) (hacted : m.acted = []) (hseen : m.seen = []) (hlow : 1 ≤ r.count)
    (hcount : r.count ≤ 4096) (hopen : ∀ i < r.count, ∀ w ∈ r.words i, s.wsBlocked (8 * w) = false) :
    ∃ t, exec .shuttleCommandComplete s = .next t ∧ (∀ x ∈ t.core.shq, x.id ≠ m.id) ∧ t.mem = s.mem
      ∧ t.cx.tiles[k].form = form
      ∧ ∀ i < 4096, t.cx.tiles[k].get i = if i < r.count then loadValue s r form mode i else 0 := by
  obtain ⟨t, n, hpass, ⟨-, hcmd, hmem, -, hform, hget⟩, hdone⟩ :=
    passGroups_load hload howner hscales htag hkind hclean hun hbeat hacted hseen hcount hopen
  have hpos : 0 < n.beat := by omega
  have hend : t.tileEnd n = t := by rw [State.tileEnd, hcmd.kind, hload]
  refine ⟨t.endM n, congrArg Host.Outcome.next ?_, hcmd.id ▸ not_mem_endM t n, hmem, ?_, fun i _ => ?_⟩
  · rw [shuttleComplete_region hq hstarted (dst := false) (by rw [hload]; rfl) hpass hcmd.kind hdone, hend]
  · rw [endM_tiles]
    exact hform hpos
  · rw [endM_tiles, hget hpos]
    refine if_congr ?_ rfl rfl
    omega

end

end Sys2Proof.ShuttleProofs

/-! ### MDRAIN: the converted elements in memory (08 R178) -/

namespace Sys2Proof.ShuttleProofs

open Sys2Proof Sys2Proof.Machine Sys2Proof.Safety Sys2Proof.Laws Sys2Proof.GroupProofs

/-! Elements side by side in memory -/

/-- The location of an element of a region of stride 1 (04 R53, 07 R129). -/
theorem at_unit_stride {r : Region} (hkind : r.kind = 0) (hstride : r.stride = 1) (i : Nat) :
    r.at i = r.loc + if 16 ≤ r.fmt.width then i * (r.fmt.width / 8) else if 5 ≤ r.fmt.width then i else i / 2 := by
  rw [Region.at, Region.off, if_neg (by rw [hkind]; decide), hstride]
  split
  · rw [mul_one, ← Nat.cast_mul]
    omega
  · split <;> omega

/-- Elements of a region of stride 1 share no storage. -/
theorem apart_unit_stride {r : Region} (hkind : r.kind = 0) (hstride : r.stride = 1) {i j : Nat} (h : i ≠ j) :
    r.shares i r j = false := by
  rw [Region.shares, List.any_eq_false]
  intro c hc hshare
  obtain ⟨d, hd, hmeet⟩ := List.any_eq_true.mp hshare
  simp only [Bool.and_eq_true, beq_iff_eq, decide_eq_true_eq] at hmeet
  obtain ⟨⟨hloc, hlow⟩, hhigh⟩ := hmeet
  have hcells : ∀ k, r.cells k = if r.fmt.width ≤ 4 then [(r.at k, if (k * r.stride) % 2 = 0 then 0 else 4, 4)]
      else (List.range r.span).map (fun b => (r.at k + b, 0, 8)) := fun k => by
    rw [Region.cells, if_neg (by rw [hkind]; decide), if_neg (by rw [hkind]; decide)]
  rw [hcells] at hc hd
  have hi := at_unit_stride hkind hstride i
  have hj := at_unit_stride hkind hstride j
  by_cases hhalf : r.fmt.width ≤ 4
  · rw [if_pos hhalf, List.mem_singleton] at hc hd
    subst hc hd
    rw [if_neg (by omega), if_neg (by omega)] at hi hj
    dsimp only at hloc hlow hhigh
    rw [hstride, mul_one, mul_one] at hlow hhigh
    split_ifs at hlow hhigh <;> omega
  · rw [if_neg hhalf] at hc hd
    obtain ⟨x, hx, rfl⟩ := List.mem_map.mp hc
    obtain ⟨y, hy, rfl⟩ := List.mem_map.mp hd
    rw [List.mem_range, Region.span, if_neg (by rw [hkind]; decide)] at hx hy
    dsimp only at hloc
    by_cases hwide : 16 ≤ r.fmt.width
    · rw [if_pos hwide] at hi hj hx hy
      rw [hi, hj, Nat.add_assoc, Nat.add_assoc] at hloc
      have hsame := Nat.add_left_cancel hloc
      refine h ?_
      calc i = (i * (r.fmt.width / 8) + x) / (r.fmt.width / 8) := by
            rw [Nat.mul_comm, Nat.mul_add_div (by omega), Nat.div_eq_of_lt hx, Nat.add_zero]
        _ = (j * (r.fmt.width / 8) + y) / (r.fmt.width / 8) := by rw [hsame]
        _ = j := by rw [Nat.mul_comm, Nat.mul_add_div (by omega), Nat.div_eq_of_lt hy, Nat.add_zero]
    · rw [if_neg hwide, if_pos (by omega)] at hi hj
      rw [if_neg hwide] at hx hy
      omega

/-- An element in whole or half bytes is read back as the low bits of what was written. -/
theorem codeAt_putElem_mod {r : Region} (h1 : r.kind ≠ 1) (h2 : r.kind ≠ 2) (hfmt : r.fmt.width ≤ 8 ∨ 8 ∣ r.fmt.width)
    (s : State) (i code : Nat) : ((s.putElem r i code false).codeAt r i).1.1 = code % 2 ^ r.fmt.width := by
  have hput : s.putElem r i code false = putCode s r i code := putElem_code h1 h2 s i code false
  rw [hput]
  by_cases hhalf : r.fmt.width < 5
  · apply Nat.eq_of_testBit_eq
    intro m
    rw [testBit_codeAt_half h1 h2 hhalf, Nat.testBit_mod_two_pow]
    by_cases hm : m < r.fmt.width
    · have hle := halfBit_le r i
      rw [bit_putCode_half hhalf _ _ _ (by omega), if_pos ⟨rfl, by omega⟩, Nat.add_sub_cancel_left]
    · rw [decide_eq_false hm, Bool.false_and, Bool.false_and]
  · rw [codeAt_code h1 h2]
    by_cases hwide : 16 ≤ r.fmt.width
    · obtain ⟨n, hn⟩ : 8 ∣ r.fmt.width := hfmt.resolve_left (by omega)
      rw [if_pos hwide, putCode, if_pos hwide, readNat_writeNat, hn, Nat.mul_div_cancel_left n (by decide),
        show (256 : Nat) = 2 ^ 8 from rfl, ← Nat.pow_mul]
    · have hbyte : (2 : Nat) ^ r.fmt.width ∣ 256 ^ 1 :=
        show 2 ^ r.fmt.width ∣ 2 ^ 8 from Nat.pow_dvd_pow 2 (by omega)
      rw [if_neg hwide, if_pos (by omega), putCode, if_neg hwide, if_pos (by omega), readNat_writeNat,
        Nat.mod_mod_of_dvd _ hbyte]

/-! Codes put into a region -/

/-- Codes put into memory at some elements of a region. -/
def putCodes (s : State) (r : Region) (v : Nat → Nat) (l : List Nat) : State :=
  l.foldl (fun u i => u.putElem r i (v i) false) s

section
variable {r : Region} (h1 : r.kind ≠ 1) (h2 : r.kind ≠ 2)
include h1 h2

/-- Elements of memory are written to memory alone. -/
theorem putElem_only_mem (s : State) (i code : Nat) :
    s.putElem r i code false = { s with mem := (s.putElem r i code false).mem } := by
  rw [putElem_code h1 h2]
  show putCode s r i code = { s with mem := (putCode s r i code).mem }
  unfold putCode
  split_ifs <;> exact setBytes_only s _ _

theorem putCodes_only_mem (s : State) (v : Nat → Nat) (l : List Nat) :
    putCodes s r v l = { s with mem := (putCodes s r v l).mem } :=
  foldl_related (R := fun s t : State => t = { s with mem := t.mem }) (fun _ => rfl)
    (fun h k => by rw [h] at k; exact k) (fun s i => putElem_only_mem h1 h2 s i (v i)) l s

/-- Where no two elements share storage, each holds the low bits of its code. -/
theorem codeAt_putCodes (hfmt : r.fmt.width ≤ 8 ∨ 8 ∣ r.fmt.width) (hapart : ∀ i j, i ≠ j → r.shares i r j = false)
    (s : State) (v : Nat → Nat) (l : List Nat) (j : Nat) :
    ((putCodes s r v l).codeAt r j).1.1 = if j ∈ l then v j % 2 ^ r.fmt.width else (s.codeAt r j).1.1 := by
  induction l generalizing s with
  | nil => rw [if_neg List.not_mem_nil]; rfl
  | cons i l ih =>
    rw [putCodes, List.foldl_cons]
    refine (ih (s.putElem r i (v i) false)).trans ?_
    by_cases hl : j ∈ l
    · rw [if_pos hl, if_pos (List.mem_cons_of_mem i hl)]
    · by_cases hj : j = i
      · subst hj
        rw [if_neg hl, if_pos List.mem_cons_self, codeAt_putElem_mod h1 h2 hfmt]
      · rw [if_neg hl, if_neg (fun hin => (List.mem_cons.mp hin).elim hj hl)]
        exact codeAt_putElem_apart (fun hacc => absurd hacc h2) (hapart i j (Ne.symm hj)) (v i) false

end

theorem byte_putCodes_other {r : Region} (s : State) (v : Nat → Nat) {l : List Nat} {a : Nat} (h : ∀ i ∈ l, a ∉ r.bytesAt i) :
    (putCodes s r v l).byte a = s.byte a :=
  List.foldlRecOn l _ (motive := fun u : State => u.byte a = s.byte a) rfl
    (fun u hu i hi => (byte_putElem_other (h i hi) u (v i) false).trans hu)

/-! One group -/

/-- Where nothing watches memory, no one takes note of a write. -/
theorem wrote_unwatched {s : State} (h : Unwatched s) (old : State) (x : Actor) (ls : List Nat) :
    s.wrote old x ls = s := by
  obtain ⟨htable, htail, hclosing, hcopies, hsends, -⟩ := id h
  have hlocked : ls.filter (s.locked x) = [] :=
    List.filter_eq_nil_iff.mpr (fun l _ => by rw [locked_of_unwatched h]; exact Bool.false_ne_true)
  have hnil : ∀ {α : Type} {l : List α} (f : α → α), l = [] → l.map f = l := fun f h => by rw [h]; rfl
  unfold State.wrote
  dsimp only
  rw [hlocked, List.foldl_nil, hsends, List.foldl_nil, hnil _ hcopies, hnil _ htable, hnil _ htail, hnil _ hclosing,
    hnil _ hsends]

/-- The code that an element of a tile leaves in a region (08 R178). -/
def drainCode (t : Tile) (r : Region) (mode i : Nat) : Nat := (r.fmt.convert mode (formValue t.form (t.get i))).1

/-- One element of a group of an `MDRAIN`. -/
def drainStep (t : Tile) (r : Region) (mode : Nat) (x : State × Flags) (i : Nat) : State × Flags :=
  let (c, f) := x.1.convertAt r i mode (formValue t.form (t.get i))
  (x.1.putElem r i c (x.1.scalePoison r i), x.2 ||| f)

theorem drainGroup_eq (t : State) (n : MCmd) (r : Region) (k mode : Nat) (go : List Nat) (all : Bool) :
    t.drainGroup n r k mode go all =
      (let idx := (r.groupIdx n.beat).filter (fun i =>
        !(r.words i).any (t.freedFor n.id) && (all || (r.words i).any go.contains))
      let y := idx.foldl (drainStep (t.ownerTile n.owner k) r mode) (t, 0)
      let u := (t.onlyWords y.1 go all).wrote t r.actor
        ((idx.flatMap r.bytesAt).filter (fun l => all || go.contains (l / 8)))
      (u.tagsAct r.tag true (t.kept n go), y.2)) := rfl

theorem onlyWords_all (s t : State) (go : List Nat) : s.onlyWords t go true = t := if_pos rfl

theorem drainSteps_unscaled {r : Region} (h : r.scales = none) (t : Tile) (mode : Nat) (l : List Nat) (s : State)
    (f : Flags) : ∃ g, l.foldl (drainStep t r mode) (s, f) = (putCodes s r (drainCode t r mode) l, g) := by
  induction l generalizing s f with
  | nil => exact ⟨f, rfl⟩
  | cons i l ih =>
    have hstep : ∃ g, drainStep t r mode (s, f) i = (s.putElem r i (drainCode t r mode i) false, g) := by
      unfold drainStep
      dsimp only
      rw [scalePoison_unscaled h, State.convertAt, scaleAt_unscaled h]
      exact ⟨_, rfl⟩
    obtain ⟨g, hg⟩ := hstep
    obtain ⟨g', hg'⟩ := ih (s.putElem r i (drainCode t r mode i) false) g
    exact ⟨g', by rw [List.foldl_cons, hg, hg']; rfl⟩

section
variable {t : State} (h : Unwatched t) {r : Region} (h1 : r.kind ≠ 1) (h2 : r.kind ≠ 2) (hscales : r.scales = none)
  (htag : r.tag = .keep)
include h h1 h2 hscales htag

theorem drainGroup_all (n : MCmd) (k mode : Nat) (go : List Nat) :
    (t.drainGroup n r k mode go true).1
      = putCodes t r (drainCode (t.ownerTile n.owner k) r mode) (r.groupIdx n.beat) := by
  have hall : (r.groupIdx n.beat).filter (fun i =>
      !(r.words i).any (t.freedFor n.id) && (true || (r.words i).any go.contains)) = r.groupIdx n.beat := by
    refine List.filter_eq_self.mpr (fun i _ => ?_)
    rw [List.any_eq_false.mpr (fun w _ => by rw [freedFor_of_unwatched h]; exact Bool.false_ne_true)]
    rfl
  obtain ⟨g, hg⟩ := drainSteps_unscaled hscales (t.ownerTile n.owner k) mode (r.groupIdx n.beat) t 0
  have hun : Unwatched (putCodes t r (drainCode (t.ownerTile n.owner k) r mode) (r.groupIdx n.beat)) := by
    rw [putCodes_only_mem h1 h2]
    exact h
  rw [drainGroup_eq, hall, htag]
  dsimp only
  rw [hg, onlyWords_all, wrote_unwatched hun]
  rfl

theorem tilePass_drain {n : MCmd} {k mode : Nat} {clr : Bool} (hdrain : n.kind = .drain r k mode clr)
    (hacted : n.acted = []) (dst : Bool) :
    ∃ f, t.tilePass n r dst
      = ((putCodes t r (drainCode (t.ownerTile n.owner k) r mode) (r.groupIdx n.beat)).unparkAll n.id,
        n.nextGroup f, true) := by
  unfold State.tilePass
  split
  · next d k' mode' clr' hk =>
    obtain ⟨rfl, rfl, rfl, rfl⟩ := MKind.drain.inj (hk.symm.trans hdrain)
    dsimp only
    rw [splitWords_dst_all (fun hwait => by rw [htag] at hwait; exact TagMode.noConfusion hwait), hacted]
    dsimp only
    rw [if_pos List.isEmpty_nil, show (([] : List Nat).isEmpty && ([] : List Nat).isEmpty) = true from rfl,
      drainGroup_all h h1 h2 hscales htag]
    exact ⟨_, rfl⟩
  · next hother => exact absurd hdrain (hother r k mode clr)

end

/-! All groups -/

/-- What stands once some groups of an `MDRAIN` of tile k have passed. -/
structure DrainedTo (s : State) (m : MCmd) (r : Region) (k : Fin 8) (mode : Nat) (t : State) (n : MCmd) : Prop where
  still : Undisturbed s t
  command : Between m n
  tiles : t.cx.tiles = s.cx.tiles
  byte : ∀ l, (∀ i < r.count, l ∉ r.bytesAt i) → t.byte l = s.byte l
  code : ∀ i < r.count, i < 64 * n.beat →
    (t.codeAt r i).1.1 = drainCode s.cx.tiles[k] r mode i % 2 ^ r.fmt.width

/-- With `.clr`, a drained tile is zeroed in its form (08 R178). -/
theorem tileEnd_drain_tiles {s : State} {m : MCmd} {r : Region} {k : Fin 8} {mode : Nat} {clr : Bool}
    (hdrain : m.kind = .drain r k.val mode clr) (howner : m.owner = s.cx.uid) {t : State} {n : MCmd}
    (h : DrainedTo s m r k mode t n) :
    (t.tileEnd n).cx.tiles
      = if clr then s.cx.tiles.set k.val { form := s.cx.tiles[k].form } else s.cx.tiles := by
  have hrun : n.owner = t.cx.uid := h.command.owner.trans (howner.trans h.still.uid.symm)
  have hk : n.kind = .drain r k.val mode clr := h.command.kind.trans hdrain
  cases clr with
  | false => rw [State.tileEnd, hk]; exact h.tiles
  | true =>
    rw [State.tileEnd, hk]
    dsimp only
    rw [setOwnerTile_cx hrun, ownerTile_running hrun k, if_pos rfl]
    refine Vector.ext (fun i hi => ?_)
    simp only [h.tiles, Vector.getElem_setIfInBounds, Vector.getElem_set]

section
variable {s : State} {m : MCmd} {r : Region} {k : Fin 8} {mode : Nat} {clr : Bool}
  (hdrain : m.kind = .drain r k.val mode clr) (howner : m.owner = s.cx.uid) (hscales : r.scales = none)
  (htag : r.tag = .keep) (hkind : r.kind = 0) (hstride : r.stride = 1)
  (hfmt : r.fmt.width ≤ 8 ∨ r.fmt.width ∈ [16, 32, 64])
include hdrain howner hscales htag hkind hstride hfmt

theorem drainedTo_next {t : State} {n : MCmd} (h : DrainedTo s m r k mode t n) :
    ∃ u c, t.tilePass n r true = (u, c, true) ∧ DrainedTo s m r k mode u c ∧ c.beat = n.beat + 1 := by
  obtain ⟨hstill, hcmd, htiles, hbyte, hcode⟩ := h
  have h1 : r.kind ≠ 1 := by rw [hkind]; decide
  have h2 : r.kind ≠ 2 := by rw [hkind]; decide
  have hwidth : r.fmt.width ≤ 8 ∨ 8 ∣ r.fmt.width := by
    simp only [List.mem_cons, List.not_mem_nil, or_false] at hfmt
    omega
  have htile : t.ownerTile n.owner k.val = s.cx.tiles[k] := by
    rw [ownerTile_running (hcmd.owner.trans (howner.trans hstill.uid.symm)) k]
    simp only [htiles]
  obtain ⟨f, hpass⟩ := tilePass_drain hstill.unwatched h1 h2 hscales htag (hcmd.kind.trans hdrain) hcmd.acted true
  rw [htile] at hpass
  have honly := putCodes_only_mem h1 h2 t (drainCode s.cx.tiles[k] r mode) (r.groupIdx n.beat)
  have hput := codeAt_putCodes h1 h2 hwidth (fun i j h => apart_unit_stride hkind hstride h) t
    (drainCode s.cx.tiles[k] r mode) (r.groupIdx n.beat)
  have hother : ∀ l, (∀ i < r.count, l ∉ r.bytesAt i) →
      (putCodes t r (drainCode s.cx.tiles[k] r mode) (r.groupIdx n.beat)).byte l = t.byte l := fun l hl =>
    byte_putCodes_other t _ (fun i hi => hl i (mem_groupIdx.mp hi).2.2)
  generalize putCodes t r (drainCode s.cx.tiles[k] r mode) (r.groupIdx n.beat) = u at hpass honly hput hother
  have hun : Unwatched u := by
    rw [honly]
    exact hstill.unwatched
  have hcyc : u.cyc = t.cyc := by rw [honly]
  have hcx : u.cx = t.cx := by rw [honly]
  refine ⟨_, _, hpass, ⟨hstill.trans ⟨unparkAll_unwatched hun n.id, hcyc, congrArg Ctx.uid hcx⟩,
    between_nextGroup hcmd (fun slot a => by rw [hdrain]; exact MKind.noConfusion) f,
    (congrArg Ctx.tiles hcx).trans htiles, fun l hl => (hother l hl).trans (hbyte l hl), fun i hi hbeat => ?_⟩, rfl⟩
  have hnext : i < 64 * (n.beat + 1) := hbeat
  refine (codeAt_congr (s := u) (t := u.unparkAll n.id) h2 (fun _ _ _ _ => rfl)).trans ((hput i).trans ?_)
  by_cases hin : i ∈ r.groupIdx n.beat
  · rw [if_pos hin]
  · rw [if_neg hin]
    refine hcode i hi ?_
    rw [mem_groupIdx] at hin
    omega

theorem passGroups_drain (hun : Unwatched s) (hbeat : m.beat = 0) (hacted : m.acted = []) (hseen : m.seen = [])
    (hcount : r.count ≤ 4096) (hopen : ∀ i < r.count, ∀ w ∈ r.words i, s.wsBlocked (8 * w) = false) :
    ∃ t n, State.passGroups 1024 s m = (t, n) ∧ DrainedTo s m r k mode t n ∧ (r.count + 63) / 64 ≤ n.beat := by
  refine passGroups_reaches (P := DrainedTo s m r k mode) (dst := true)
    (fun t n h _ => drainedTo_next hdrain howner hscales htag hkind hstride hfmt h) (fun t n h => ?_) (fun t n h _ => ?_)
    ⟨⟨hun, rfl, rfl⟩, ⟨rfl, rfl, rfl, hacted, hseen⟩, rfl, fun _ _ => rfl, fun i _ hlt => by omega⟩ (by omega)
  · rw [h.command.kind, hdrain]
    rfl
  · rw [h.command.kind, hdrain]
    exact group_open hscales hopen h.still.cyc n.beat

theorem shuttleComplete_drain {rest : List MCmd} (hq : s.core.shq = m :: rest) (hstarted : m.started = true)
    (hun : Unwatched s) (hbeat : m.beat = 0) (hacted : m.acted = []) (hseen : m.seen = [])
    (hcount : r.count ≤ 4096) (hopen : ∀ i < r.count, ∀ w ∈ r.words i, s.wsBlocked (8 * w) = false) :
    ∃ t, exec .shuttleCommandComplete s = .next t ∧ (∀ x ∈ t.core.shq, x.id ≠ m.id)
      ∧ t.cx.tiles = (if clr then s.cx.tiles.set k.val { form := s.cx.tiles[k].form } else s.cx.tiles)
      ∧ (∀ l, (∀ i < r.count, l ∉ r.bytesAt i) → t.byte l = s.byte l)
      ∧ ∀ i < r.count, (t.codeAt r i).1.1 = drainCode s.cx.tiles[k] r mode i % 2 ^ r.fmt.width := by
  obtain ⟨t, n, hpass, h, hdone⟩ :=
    passGroups_drain hdrain howner hscales htag hkind hstride hfmt hun hbeat hacted hseen hcount hopen
  have hbyte : ∀ l, ((t.tileEnd n).endM n).byte l = t.byte l := fun l => by
    rw [State.byte, endM_mem, tileEnd_mem, State.byte]
  refine ⟨(t.tileEnd n).endM n, congrArg Host.Outcome.next ?_, h.command.id ▸ not_mem_endM (t.tileEnd n) n, ?_,
    fun l hl => (hbyte l).trans (h.byte l hl), fun i hi => ?_⟩
  · exact shuttleComplete_region hq hstarted (dst := true) (by rw [hdrain]; rfl) hpass h.command.kind hdone
  · rw [endM_tiles]
    exact tileEnd_drain_tiles hdrain howner h
  · refine (codeAt_congr (by rw [hkind]; decide) (fun l _ _ _ => by rw [hbyte])).trans (h.code i hi ?_)
    omega

end

end Sys2Proof.ShuttleProofs

/-! ### A product of the MAC preset in output-stationary flow (08 R156, R158, R163, R164) -/

namespace Sys2Proof.ShuttleProofs

open Sys2Proof Sys2Proof.Machine Sys2Proof.Safety Sys2Proof.Laws Sys2Proof.GroupProofs

/-! A cell -/

/-- Lane j of one side of a cell. -/
def laneOf (l : List Machine.Num) (j : Nat) : Machine.Num := (l[j]?).getD (.i 0)

/-- An accumulator with the products of some lanes added, one after another. -/
def macLanes (ca cb : List Machine.Num) (acc : Machine.Num) (l : List Nat) : Machine.Num :=
  l.foldl (fun x j => (numAdd x (numMul (laneOf ca j) (laneOf cb j)).1).1) acc

/-- One lane of the micro-word of the MAC preset. -/
def macLane (c : Cell) (j : Nat) : Cell :=
  let (v, f) := microOp 1 0 (c.lane 0 j) (c.lane 1 j) c.acc
  { c with acc := v, flags := c.flags ||| f }

/-- The micro-word of the MAC preset adds one lane after another to the accumulator (08 R163, R164). -/
theorem micro_mac (isF : Bool) (P : Nat) (keepSouth : Bool) (c : Cell) :
    Cell.micro isF P keepSouth c 0x1408 = (List.range P).foldl macLane c := rfl

theorem macLanes_cell (l : List Nat) (c : Cell) :
    (l.foldl macLane c).acc = macLanes c.ca c.cb c.acc l := by
  induction l generalizing c with
  | nil => rfl
  | cons j l ih => exact ih (macLane c j)

/-- What a cell of the MAC preset leaves in its tile. -/
theorem runCell_mac (isF : Bool) (form : Form) (P : Nat) (keepSouth : Bool) (c : Cell) :
    (runCell isF form P keepSouth (preset 8) c).2 = (roundForm form (macLanes c.ca c.cb c.acc (List.range P))).1 := by
  rw [← macLanes_cell, ← micro_mac isF P keepSouth]
  rfl

/-! The elements of a tile in rising order -/

/-- The first n elements of a tile in canonical form, unlisted where they are zero (08 R155). -/
def listed (v : Nat → Word) (n : Nat) : List (Nat × Word) :=
  ((List.range n).map (fun i => (i, v i))).filter (fun e => e.2 != 0)

theorem listed_succ (v : Nat → Word) (n : Nat) :
    listed v (n + 1) = if v n == 0 then listed v n else listed v n ++ [(n, v n)] := by
  rw [listed, List.range_succ, List.map_append, List.filter_append]
  by_cases h : v n = 0
  · rw [if_pos (beq_iff_eq.mpr h), List.map_singleton, List.filter_cons_of_neg (by simpa using h), List.filter_nil,
      List.append_nil, listed]
  · rw [if_neg (mt beq_iff_eq.mp h), List.map_singleton, List.filter_cons_of_pos (by simpa using h), List.filter_nil,
      listed]

theorem elemAt_listed (v : Nat → Word) {n i : Nat} (h : i < n) : elemAt (listed v n) i = v i := by
  induction n with
  | zero => exact absurd h (Nat.not_lt_zero i)
  | succ n ih =>
    have hlast : ∀ x, (listed v n ++ [(n, x)]).find? (fun e => e.1 == i)
        = ((listed v n).find? (fun e => e.1 == i)).or (if n == i then some (n, x) else none) := fun x => by
      rw [List.find?_append, List.find?_singleton]
    have hnone : i = n → (listed v n).find? (fun e => e.1 == i) = none := fun hin => by
      refine List.find?_eq_none.mpr (fun e he hei => ?_)
      obtain ⟨j, hj, rfl⟩ := List.mem_map.mp (List.mem_filter.mp he).1
      have := List.mem_range.mp hj
      have := beq_iff_eq.mp hei
      omega
    rw [listed_succ]
    rcases Nat.lt_succ_iff_lt_or_eq.mp h with hlt | rfl
    · split
      · exact ih hlt
      · rw [elemAt, hlast, if_neg (mt beq_iff_eq.mp (Nat.ne_of_gt hlt)), Option.or_none]
        exact ih hlt
    · split
      · next hzero => rw [elemAt, hnone rfl, beq_iff_eq.mp hzero]; rfl
      · rw [elemAt, hlast, hnone rfl, if_pos (beq_self_eq_true i)]; rfl

theorem get_fill (form : Form) (c : Word) {i : Nat} (h : i < 4096) : (Tile.fill form c).get i = c := by
  by_cases hc : c = 0
  · simp [Tile.fill, Tile.get, hc]
  · have hall : (Tile.fill form c).elems = listed (fun _ => c) 4096 := by
      rw [Tile.fill, listed, List.filter_eq_self.mpr (fun e he => ?_)]
      · exact if_neg (mt beq_iff_eq.mp hc)
      · obtain ⟨j, -, rfl⟩ := List.mem_map.mp he
        exact bne_iff_ne.mpr hc
    exact (congrArg (fun l => elemAt l i) hall).trans (elemAt_listed _ h)

/-! A beat of the array -/

section
variable {k : StepRun} (hskew : k.cfg.skew = 0) (hprog : k.prog = preset 8)
include hskew hprog

/-- The code that a beat of the MAC preset leaves at an element. -/
def macValue (k : StepRun) (t : Tile) (rows cols : List (List Machine.Num)) (i : Nat) : Word :=
  (roundForm k.cfg.form (macLanes ((rows[i / 64]?).getD []) ((cols[i % 64]?).getD [])
    (formValue k.cfg.form (t.get i)) (List.range k.P))).1

/-- A row of cells lists the elements of its row. -/
theorem rowBeat_listed (t : Tile) (rows cols : List (List Machine.Num)) {m : Nat} {w : ArrayWork}
    (hw : w.elems = listed (macValue k t rows cols) (64 * m)) :
    (rowBeat k t m ((rows[m]?).getD []) cols w).elems = listed (macValue k t rows cols) (64 * (m + 1)) := by
  unfold rowBeat
  extract_lets skewed step
  have hflat : skewed = false := by simp [skewed, hskew]
  suffices hrow : ∀ n ≤ 64, ((List.range n).foldl step ((rows[m]?).getD [], [], w)).2.2.elems
      = listed (macValue k t rows cols) (64 * m + n) from hrow 64 (Nat.le_refl 64)
  intro n
  induction n with
  | zero => exact fun _ => hw
  | succ n ih =>
    intro hn
    have hsofar := ih (by omega)
    rw [List.range_succ, List.foldl_append, List.foldl_cons, List.foldl_nil]
    generalize (List.range n).foldl step ((rows[m]?).getD [], [], w) = x at hsofar ⊢
    obtain ⟨east, souths, u⟩ := x
    have hval : macValue k t rows cols (64 * m + n) = (roundForm k.cfg.form (macLanes ((rows[m]?).getD [])
        ((cols[n]?).getD []) (formValue k.cfg.form (t.get (64 * m + n))) (List.range k.P))).1 := by
      rw [macValue, show (64 * m + n) / 64 = m by omega, show (64 * m + n) % 64 = n by omega]
    rw [← Nat.add_assoc, listed_succ, hval, ← runCell_mac k.isF k.cfg.form k.P false
      { ca := (rows[m]?).getD [], cb := (cols[n]?).getD [], acc := formValue k.cfg.form (t.get (64 * m + n))
        east := (rows[m]?).getD [], south := (cols[n]?).getD [], flags := 0, fv := u.fv }, ← hsofar, ← hprog]
    simp only [step, hflat]
    rfl

theorem arrayBeat_get (t : Tile) (rows cols : List (List Machine.Num)) (fv : Nat) {i : Nat} (hi : i < 4096) :
    (arrayBeat k t rows cols fv).1.get i = macValue k t rows cols i := by
  have hall : ∀ n, ((List.range n).foldl (fun w m => rowBeat k t m ((rows[m]?).getD []) cols w)
      { elems := [], souths := [], flags := 0, fv := fv }).elems = listed (macValue k t rows cols) (64 * n) := by
    intro n
    induction n with
    | zero => rfl
    | succ n ih =>
      rw [List.range_succ, List.foldl_append]
      exact rowBeat_listed hskew hprog t rows cols ih
  exact (congrArg (fun l => elemAt l i) (hall 64)).trans (elemAt_listed _ hi)

end

theorem arrayBeat_form (k : StepRun) (t : Tile) (rows cols : List (List Machine.Num)) (fv : Nat) :
    (arrayBeat k t rows cols fv).1.form = k.cfg.form := rfl

/-- Lane j of the edge at a position is the value of group j there. -/
theorem laneOf_edgeLanes (f : Nat → List (Machine.Num × Flags)) (groups : List Nat) {i j : Nat} (hi : i < 64)
    (hj : j < groups.length) :
    laneOf ((((edgeLanes ((groups.map f).map (fun x => x.map (·.1))))[i]?).getD [])) j
      = (((f ((groups[j]?).getD 0))[i]?).map (·.1)).getD (.i 0) := by
  simp [laneOf, edgeLanes, hi, hj]

end Sys2Proof.ShuttleProofs

/-! ### A step performs a beat (08 R156, R158, R174; 10 R195) -/

namespace Sys2Proof.ShuttleProofs

open Sys2Proof Sys2Proof.Machine Sys2Proof.Safety Sys2Proof.Laws Sys2Proof.GroupProofs

/-! The words of a beat -/

section
variable (words : Nat → List (Nat × TagMode)) (m : MCmd)

/-- The words that a step reads at its next beat, each with the mode that acts on it. -/
def beatNow : List (Nat × TagMode) := (words m.beat).map (fun w => (w.1, actMode words m.kind.beats w.1))

/-- The words whose tags the next beat meets: those it first reads in a mode that waits. -/
def metWords : List Nat :=
  wordSet (((firstAtBeat words m.beat (beatNow words m)).filter (fun w => w.2 != .keep)).map (·.1))

/-- The words of the next beat whose tags the step has met already, or never meets. -/
def restWords : List Nat := wordSet (((beatNow words m).map (·.1)).filter (fun w => !(metWords words m).contains w))

/-- The words that the next beat meets and that the step has not acted on while it waited for others of the beat. -/
def goWords : List Nat := (metWords words m).filter (fun w => !m.acted.contains w)

end

section
variable {words : Nat → List (Nat × TagMode)} {m : MCmd} {w : Nat}

theorem mem_metWords : w ∈ metWords words m
    ↔ (w, actMode words m.kind.beats w) ∈ firstAtBeat words m.beat (beatNow words m)
    ∧ actMode words m.kind.beats w ≠ .keep := by
  rw [metWords, mem_wordSet, List.mem_map]
  constructor
  · rintro ⟨e, he, rfl⟩
    obtain ⟨hfirst, hmode⟩ := List.mem_filter.mp he
    obtain ⟨x, -, rfl⟩ := List.mem_map.mp (List.mem_filter.mp hfirst).1
    exact ⟨hfirst, bne_iff_ne.mp hmode⟩
  · rintro ⟨hfirst, hmode⟩
    exact ⟨_, List.mem_filter.mpr ⟨hfirst, bne_iff_ne.mpr hmode⟩, rfl⟩

theorem mem_takenAt {beats : Nat} (h : w ∈ takenAt words m.beat beats) :
    (∃ x ∈ words m.beat, x.1 = w) ∧ actMode words beats w = .take := by
  obtain ⟨hw, hmode⟩ := List.mem_filter.mp h
  exact ⟨List.mem_map.mp hw, beq_iff_eq.mp (Bool.and_eq_true .. ▸ hmode).2⟩

/-- A word that the beat takes has its tag met now, unless an earlier beat has read it. -/
theorem mem_metWords_of_taken (h : w ∈ takenAt words m.beat m.kind.beats) :
    w ∈ metWords words m ↔ ¬ ∃ i < m.beat, ∃ x ∈ words i, x.1 = w := by
  obtain ⟨⟨x, hx, rfl⟩, hmode⟩ := mem_takenAt h
  have hnow : (x.1, actMode words m.kind.beats x.1) ∈ beatNow words m := List.mem_map_of_mem hx
  rw [mem_metWords, firstAtBeat, List.mem_filter, hmode]
  rw [hmode] at hnow
  simp [hnow]

theorem mem_restWords_of_taken (h : w ∈ takenAt words m.beat m.kind.beats) :
    w ∈ restWords words m ↔ w ∉ metWords words m := by
  obtain ⟨⟨x, hx, rfl⟩, -⟩ := mem_takenAt h
  have hnow : x.1 ∈ (beatNow words m).map (·.1) := List.mem_map.mpr ⟨_, List.mem_map_of_mem hx, rfl⟩
  rw [restWords, mem_wordSet, List.mem_filter]
  simp [hnow]

end

/-! The beat in two halves: the tags it meets, and what it does with the words -/

/-- The state in which a beat has met the tags of some words, all of which let it act. -/
def metTags (s : State) (m : MCmd) (go taken : List Nat) : State :=
  (({ s with fv := (s.hotView (some (m.owner, m.id)) go).fv }).tagsAct .take false
    (go.filter (fun w => taken.contains w && !s.freedFor m.id w))).unpark m.id go

/-- The step that has met them. -/
def metCmd (s : State) (m : MCmd) (go : List Nat) : MCmd :=
  { m with acted := m.acted ++ go, seen := m.seen ++ go.map ((s.hotView (some (m.owner, m.id)) go).beatRead m) }

/-- The state as the beat finds it once it has met its tags. -/
def inBeat (s : State) (m : MCmd) (rest : List Nat) : State :=
  let u := s.unparkAll m.id
  { u with fv := (u.hotView (some (m.owner, m.id)) rest).fv, core := { u.core with beatDone := true } }

/-- The words that the step has read for its product. -/
def beatReads (s : State) (m : MCmd) (rest : List Nat) : List (Nat × Nat × Bool) :=
  m.seen ++ rest.map (((s.unparkAll m.id).hotView (some (m.owner, m.id)) rest).beatRead m)

/-- The program runs at the last beat of a product, on memory as the step has read it. -/
def ranBeat (s : State) (last : Bool) (reads : List (Nat × Nat × Bool)) (run : State → State × Flags) : State × Flags :=
  if last then
    let (t, f) := run (s.productView reads)
    ({ t with mem := s.mem, marks := s.marks }, f)
  else (s, 0)

/-- The rest of a beat that has met its tags. -/
def endBeat (s : State) (m : MCmd) (rest taken : List Nat) (last : Bool) (run : State → State × Flags) : State :=
  let x := ranBeat (inBeat s m rest) last (beatReads s m rest) run
  (x.1.tagsAct .take false (taken.filter (fun w => rest.contains w && !x.1.freedFor m.id w))).setM
    { m with beat := m.beat + 1, flags := m.flags ||| x.2, seen := if last then [] else beatReads s m rest }

/-- Where the tag of each word that the beat meets allows it, the beat goes on. -/
theorem beatTags_full {s : State} {words : Nat → List (Nat × TagMode)} {m : MCmd} {taken : List Nat}
    (h : ∀ w ∈ goWords words m, s.full (8 * w) = true ∧ s.firstAt m.id w true = true) :
    s.beatTags m (metWords words m) taken
      = (metTags s m (goWords words m) taken, metCmd s m (goWords words m), true) := by
  have hmay : ∀ w ∈ goWords words m, (s.freedFor m.id w || (s.full (8 * w) && s.firstAt m.id w true)) = true :=
    fun w hw => by
      obtain ⟨hfull, hfirst⟩ := h w hw
      rw [hfull, hfirst, Bool.and_self, Bool.or_true]
  unfold State.beatTags
  rw [← goWords, List.partition_eq_filter_filter, List.filter_eq_self.mpr hmay,
    List.filter_eq_nil_iff.mpr (fun w hw => by simp [hmay w hw])]
  rfl

/-- No refresh window holds back the words of a beat or its scale indices (10 R195). -/
theorem not_held {s : State} {now : List (Nat × TagMode)} {ga gb : List Nat} {a : Region} {b : Option Region}
    (hopen : ∀ w ∈ now, s.wsBlocked (8 * w.1) = false) (ha : ∀ g ∈ ga, s.scaleBlocked a g = false)
    (hb : ∀ g ∈ gb, ∀ r, b = some r → s.scaleBlocked r g = false) :
    ¬ (now.any (fun w => s.wsBlocked (8 * w.1)) || ga.any (s.scaleBlocked a)
      || gb.any (fun g => b.any (fun r => s.scaleBlocked r g))) = true := by
  simp only [Bool.or_eq_true, List.any_eq_true]
  rintro ((⟨w, hw, held⟩ | ⟨g, hg, held⟩) | ⟨g, hg, held⟩)
  · exact Bool.false_ne_true ((hopen w hw).symm.trans held)
  · exact Bool.false_ne_true ((ha g hg).symm.trans held)
  · cases b with
    | none => exact Bool.false_ne_true held
    | some r => exact Bool.false_ne_true ((hb g hg r rfl).symm.trans held)

section
variable {s : State} {m : MCmd} {acc : Nat} {wide : Bool} {d : Nat} {tag : TagMode} {init : Nat} {a : Region}
  {b : Option Region} {cfg : MCfg} {words : Nat → List (Nat × TagMode)} {shape : Nat × Nat} {groups : List Nat × List Nat}
  (hfind : s.core.shq.find? (fun x => x.started && x.kind.isStep && !x.beatsDone) = some m)
  (hkind : m.kind = .step acc wide d tag init a b cfg) (hshape : shape = stepPacking cfg a.fmt (stepFmtB a b cfg))
  (hwords : words = stepWords cfg shape.1 shape.2 d wide tag a b)
  (hgroups : groups = beatGroups cfg shape.1 shape.2 d wide m.beat)
  (hopen : ∀ w ∈ beatNow words m, s.wsBlocked (8 * w.1) = false)
  (ha : ∀ g ∈ groups.1, s.scaleBlocked a g = false)
  (hb : ∀ g ∈ groups.2, ∀ r, b = some r → s.scaleBlocked r g = false)
include hfind hkind hshape hwords hgroups hopen ha hb

/-- A beat that no refresh window holds back goes on where it has met its tags. -/
theorem beat_of_met {t : State} {n : MCmd}
    (htags : s.beatTags m (metWords words m) (takenAt words m.beat m.kind.beats) = (t, n, true)) :
    s.beat = endBeat t n (restWords words m) (takenAt words m.beat m.kind.beats) (n.beat % shape.2 == shape.2 - 1)
      (fun u => u.runBeat n acc wide d init a b cfg) := by
  obtain ⟨P, bpp⟩ := shape
  obtain ⟨ga, gb⟩ := groups
  subst hwords
  unfold State.beat
  rw [hfind]
  split
  · next hnone => exact absurd hnone (Option.some_ne_none m)
  · next x hsome =>
    cases hsome
    split
    · next hk =>
      cases hkind.symm.trans hk
      extract_lets fb
      rw [← hshape]
      dsimp -zeta only
      rw [show beatGroups cfg P bpp d wide m.beat = (ga, gb) from hgroups.symm]
      dsimp -zeta only
      extract_lets ws now
      refine (if_neg (not_held hopen ha hb)).trans ?_
      extract_lets
      split
      · next hwait => exact absurd (congrArg (·.2.2) (hwait.symm.trans htags)) Bool.false_ne_true
      · next hmet =>
        cases hmet.symm.trans htags
        rfl
    · next hk => exact absurd hkind (hk _ _ _ _ _ _ _ _)

end

end Sys2Proof.ShuttleProofs

/-! ### What a beat leaves in the queue, in the tags and in memory (08 R170, R174) -/

namespace Sys2Proof.ShuttleProofs

open Sys2Proof Sys2Proof.Machine Sys2Proof.Safety Sys2Proof.Laws Sys2Proof.GroupProofs

/-! What the program of a step may change -/

/-- Tags, the queue of the shuttle and the freed partitions are as before. -/
structure Ran (s t : State) : Prop where
  empties : t.empties = s.empties
  shq : t.core.shq = s.core.shq
  freed : t.core.freed = s.core.freed
  beatDone : t.core.beatDone = s.core.beatDone

theorem ran_refl (s : State) : Ran s s := ⟨rfl, rfl, rfl, rfl⟩

theorem Ran.trans {s t u : State} (h : Ran s t) (k : Ran t u) : Ran s u :=
  ⟨k.empties.trans h.empties, k.shq.trans h.shq, k.freed.trans h.freed, k.beatDone.trans h.beatDone⟩

theorem setOwnerTile_ran (s : State) (uid k : Nat) (x : Tile) (fv : Nat) :
    Ran s ({ s with fv := fv }.setOwnerTile uid k x) := ⟨rfl, rfl, rfl, rfl⟩

theorem reformTile_ran (s : State) (t : Tile) (form : Form) (d : Nat) : Ran s (s.reformTile t form d).2 := by
  unfold State.reformTile
  split
  · exact ran_refl s
  · exact ⟨rfl, rfl, rfl, rfl⟩

theorem runBeat_ran (s : State) (m : MCmd) (acc : Nat) (wide : Bool) (d init : Nat) (a : Region) (b : Option Region)
    (cfg : MCfg) : Ran s (s.runBeat m acc wide d init a b cfg).1 := by
  unfold State.runBeat
  dsimp -zeta only
  extract_lets
  split
  · split
    · exact (reformTile_ran s _ _ _).trans (setOwnerTile_ran _ _ _ _ _)
    · exact setOwnerTile_ran s _ _ _ _
  · exact setOwnerTile_ran s _ _ _ _

theorem productView_ran (s : State) (reads : List (Nat × Nat × Bool)) : Ran s (s.productView reads) := by
  unfold State.productView
  dsimp only
  rw [seenView_only]
  exact ⟨rfl, rfl, rfl, rfl⟩

theorem ranBeat_ran {run : State → State × Flags} (hrun : ∀ t, Ran t (run t).1) (s : State) (last : Bool)
    (reads : List (Nat × Nat × Bool)) : Ran s (ranBeat s last reads run).1 := by
  cases last with
  | false => exact ran_refl s
  | true =>
    obtain ⟨hempties, hshq, hfreed, hdone⟩ := (productView_ran s reads).trans (hrun _)
    exact ⟨hempties, hshq, hfreed, hdone⟩

theorem ranBeat_mem (s : State) (last : Bool) (reads : List (Nat × Nat × Bool)) (run : State → State × Flags) :
    (ranBeat s last reads run).1.mem = s.mem := by
  cases last <;> rfl

/-! Words that are taken -/

theorem full_congr {s t : State} (h : t.empties = s.empties) (loc : Nat) : t.full loc = s.full loc := by
  rw [State.full, h, State.full]

theorem full_word (s : State) (loc : Nat) : s.full (8 * (loc / 8)) = s.full loc := by
  rw [State.full, Nat.mul_div_cancel_left _ (by decide), State.full]

/-- Words of the scratchpads that are taken stand empty, the others as before (07 R132). -/
theorem full_take {w : Nat} (h : tagged (8 * w) = true) (s : State) (l : List Nat) :
    (s.tagsAct .take false l).full (8 * w) = (s.full (8 * w) && !l.contains w) := by
  show (l.foldl (fun t v => t.setTag (8 * v) false) s).full (8 * w) = _
  induction l generalizing s with
  | nil => simp
  | cons v l ih =>
    rw [List.foldl_cons, ih]
    by_cases hv : v = w
    · subst hv
      rw [full_setTag s _ false h]
      simp
    · rw [full_setTag_other s false hv, List.contains_cons, beq_eq_false_iff_ne.mpr (Ne.symm hv), Bool.false_or]

theorem tagsAct_mem (s : State) (mode : TagMode) (dst : Bool) (l : List Nat) : (s.tagsAct mode dst l).mem = s.mem := by
  rw [show s.tagsAct mode dst l = _ from tagsAct_tagged s mode dst l]

theorem tagsAct_cx (s : State) (mode : TagMode) (dst : Bool) (l : List Nat) : (s.tagsAct mode dst l).cx = s.cx :=
  (Alike.of_tagged (tagsAct_tagged s mode dst l)).cx

/-! The two halves of a beat -/

section
variable (s : State) (m : MCmd) (go taken : List Nat)

theorem metTags_mem : (metTags s m go taken).mem = s.mem := tagsAct_mem _ .take false _

theorem metTags_cx : (metTags s m go taken).cx = s.cx := tagsAct_cx _ .take false _

theorem metTags_core : (metTags s m go taken).core = { s.core with parked := (metTags s m go taken).core.parked } := by
  unfold metTags State.unpark
  rw [tagsAct_core]

theorem metTags_freedFor (id w : Nat) : (metTags s m go taken).freedFor id w = s.freedFor id w := by
  rw [State.freedFor, metTags_core]
  rfl

theorem full_metTags_other {w : Nat} (h : w ∉ taken) : (metTags s m go taken).full (8 * w) = s.full (8 * w) := by
  have hmet : w ∉ go.filter (fun w => taken.contains w && !s.freedFor m.id w) := fun hw =>
    h (List.contains_iff_mem.mp (Bool.and_eq_true .. ▸ (List.mem_filter.mp hw).2).1)
  exact full_tagsAct_other _ .take false hmet

theorem full_metTags_taken {w : Nat} (h : w ∈ taken) (hfreed : s.freedFor m.id w = false)
    (htagged : tagged (8 * w) = true) (hgo : w ∈ go) : (metTags s m go taken).full (8 * w) = false := by
  have hmet : (go.filter (fun w => taken.contains w && !s.freedFor m.id w)).contains w = true :=
    List.contains_iff_mem.mpr (List.mem_filter.mpr ⟨hgo, by rw [List.contains_iff_mem.mpr h, hfreed]; rfl⟩)
  refine (full_take htagged _ _).trans ?_
  rw [hmet]
  exact Bool.and_false _

end

section
variable (s : State) (m : MCmd) (rest taken : List Nat) (last : Bool) {run : State → State × Flags}

theorem endBeat_mem (run : State → State × Flags) : (endBeat s m rest taken last run).mem = s.mem :=
  (tagsAct_mem _ .take false _).trans (ranBeat_mem _ last _ run)

variable (hrun : ∀ t, Ran t (run t).1)
include hrun

/-- The step stands in the queue with its next beat. -/
theorem endBeat_advances {n : MCmd} (hn : n ∈ s.core.shq) (hid : n.id = m.id) :
    ∃ x ∈ (endBeat s m rest taken last run).core.shq, x.id = m.id ∧ x.beat = m.beat + 1 := by
  refine ⟨{ m with
    beat := m.beat + 1
    flags := m.flags ||| (ranBeat (inBeat s m rest) last (beatReads s m rest) run).2
    seen := if last then [] else beatReads s m rest }, mem_setM (m := n) ?_ hid, rfl, rfl⟩
  rw [tagsAct_core, (ranBeat_ran hrun _ last _).shq]
  exact hn

theorem endBeat_beatDone : (endBeat s m rest taken last run).core.beatDone = true := by
  refine (congrArg CoreSt.beatDone (tagsAct_core _ .take false _)).trans ?_
  exact (ranBeat_ran hrun _ last _).beatDone

theorem full_endBeat_other {w : Nat} (h : w ∉ taken) :
    (endBeat s m rest taken last run).full (8 * w) = s.full (8 * w) := by
  refine (full_tagsAct_other _ .take false (fun hw => h (List.mem_filter.mp hw).1)).trans ?_
  exact full_congr (ranBeat_ran hrun _ last _).empties _

/-- What stands empty as a beat ends stays so. -/
theorem full_endBeat_emptied {w : Nat} (htagged : tagged (8 * w) = true) (h : s.full (8 * w) = false) :
    (endBeat s m rest taken last run).full (8 * w) = false := by
  have hbefore := (full_congr (ranBeat_ran hrun (inBeat s m rest) last (beatReads s m rest)).empties (8 * w)).trans h
  refine (full_take htagged _ _).trans ?_
  rw [hbefore]
  exact Bool.false_and _

theorem full_endBeat_taken {w : Nat} (h : w ∈ taken) (hfreed : s.freedFor m.id w = false)
    (htagged : tagged (8 * w) = true) (hrest : w ∈ rest) : (endBeat s m rest taken last run).full (8 * w) = false := by
  have hlate : (ranBeat (inBeat s m rest) last (beatReads s m rest) run).1.freedFor m.id w = false := by
    rw [State.freedFor, (ranBeat_ran hrun _ last _).freed]
    exact hfreed
  refine (full_take htagged _ _).trans ?_
  rw [List.contains_iff_mem.mpr (List.mem_filter.mpr ⟨h, by rw [List.contains_iff_mem.mpr hrest, hlate]; rfl⟩)]
  exact Bool.and_false _

end

end Sys2Proof.ShuttleProofs

/-! ### What a product of the MAC preset leaves in its tile (08 R156, R158, R163, R164) -/

namespace Sys2Proof.ShuttleProofs

open Sys2Proof Sys2Proof.Machine Sys2Proof.Safety Sys2Proof.Laws Sys2Proof.GroupProofs

/-! Memory as a product uses it, where nothing watches it -/

theorem hotView_unwatched {s : State} (h : Unwatched s) (x : Actor) (words : List Nat) : s.hotView x words = s := by
  rw [State.hotView, List.filter_eq_nil_iff.mpr (fun l _ => by rw [hot_of_unwatched h]; exact Bool.false_ne_true)]
  rfl

theorem beatRead_unwatched {s : State} (h : Unwatched s) (m : MCmd) (w : Nat) : s.beatRead m w = s.wordSeen w := by
  rw [State.beatRead, freedFor_of_unwatched h, if_neg Bool.false_ne_true]

theorem wordSeen_of_sameMem {s t : State} (hmem : t.mem = s.mem) (hmarks : t.marks = s.marks) (w : Nat) :
    t.wordSeen w = s.wordSeen w := by
  have hread : t.readNat (8 * w) 8 = s.readNat (8 * w) 8 :=
    readNat_congr (fun j _ => by rw [State.byte, hmem, State.byte])
  rw [State.wordSeen, State.wordSeen, hread, State.marked, hmarks, State.marked]

/-- A word that all its beats read alike is used as read. -/
theorem reads_of_word (s : State) {l : List Nat} {w : Nat} (hw : w ∈ l) (free : Nat) :
    let reads := (l.map s.wordSeen).filter (fun e => e.1 == w)
    (if reads.all (fun e => some e == reads.head?) then reads.head? else reads[free % reads.length]?)
      = some (s.wordSeen w) := by
  intro reads
  have hsame : ∀ e ∈ reads, e = s.wordSeen w := by
    intro e he
    obtain ⟨hl, hword⟩ := List.mem_filter.mp he
    obtain ⟨v, -, rfl⟩ := List.mem_map.mp hl
    rw [← beq_iff_eq.mp hword]
    rfl
  have hmem : s.wordSeen w ∈ reads := List.mem_filter.mpr ⟨List.mem_map_of_mem hw, beq_self_eq_true w⟩
  have hhead : reads.head? = some (s.wordSeen w) := by
    rw [List.head?_eq_some_head (List.ne_nil_of_mem hmem), hsame _ (List.head_mem _)]
  rw [if_pos (List.all_eq_true.mpr (fun e he => by rw [hsame e he, hhead]; exact beq_self_eq_true _)), hhead]

theorem productView_once (s : State) (l : List Nat) :
    s.productView (l.map s.wordSeen) = s.draw.2.seenView ((wordSet l).map s.draw.2.wordSeen) := by
  have hwords : (l.map s.wordSeen).map (·.1) = l := by
    rw [List.map_map]
    exact List.map_id l
  unfold State.productView
  rw [hwords]
  refine congrArg s.draw.2.seenView ?_
  refine (List.filterMap_congr (fun w hw => reads_of_word s ((mem_wordSet w l).mp hw) _)).trans ?_
  exact congrFun (List.filterMap_eq_map (f := s.wordSeen)) (wordSet l)

/-- A product that no other watches reads memory as it stands. -/
theorem productView_alike (s : State) (l : List Nat) : Alike s.draw.2 (s.productView (l.map s.wordSeen)) := by
  rw [productView_once]
  exact (alike_refl s.draw.2).seenView (wordSet l)

/-! The lanes of a group -/

theorem groupLanes_congr {s t : State} {r : Region} (hscales : r.scales = none)
    (hread : ∀ loc n, t.readNat loc n = s.readNat loc n) (hmark : ∀ loc n, t.markedRange loc n = s.markedRange loc n)
    (widen : Bool) (p g : Nat) : t.groupLanes r widen p g = s.groupLanes r widen p g := by
  simp only [State.groupLanes, hread, hmark, scalePoison_unscaled hscales, valueAt_unscaled hscales]

/-- A lane of an operand of a beat: position i of the group that product j of the beat takes. -/
def laneAt (s : State) (p : Nat) (r : Region) (groups : List Nat) (j i : Nat) : Machine.Num :=
  (((s.groupLanes r false p (groups[j]?.getD 0))[i]?).map (·.1)).getD (.i 0)

theorem laneAt_congr {s t : State} {r : Region} (hscales : r.scales = none)
    (hread : ∀ loc n, t.readNat loc n = s.readNat loc n) (hmark : ∀ loc n, t.markedRange loc n = s.markedRange loc n)
    (p : Nat) (groups : List Nat) (j i : Nat) : laneAt t p r groups j i = laneAt s p r groups j i := by
  rw [laneAt, groupLanes_congr hscales hread hmark, laneAt]

/-- The edge of the array that a group's lanes enter at. -/
def edgeOf (s : State) (p : Nat) (r : Region) (groups : List Nat) : List (List Machine.Num) :=
  edgeLanes ((groups.map (s.groupLanes r false p)).map (fun x => x.map (·.1)))

/-- The element that a product leaves: the products of a row of A and a column of B added in ascending k, exactly, and
rounded once (08 R163, R164). -/
def productCode (s : State) (cfg : MCfg) (P : Nat) (a b : Region) (groups : List Nat × List Nat) (old : Word) (i : Nat) :
    Word :=
  (roundForm cfg.form ((List.range P).foldl
    (fun x j => (numAdd x (numMul (laneAt s cfg.p a groups.1 j (i / 64)) (laneAt s cfg.p b groups.2 j (i % 64))).1).1)
    (formValue cfg.form old))).1

theorem productCode_congr {s t : State} {a b : Region} (ha : a.scales = none) (hb : b.scales = none)
    (hread : ∀ loc n, t.readNat loc n = s.readNat loc n) (hmark : ∀ loc n, t.markedRange loc n = s.markedRange loc n)
    (cfg : MCfg) (P : Nat) (groups : List Nat × List Nat) (old : Word) (i : Nat) :
    productCode t cfg P a b groups old i = productCode s cfg P a b groups old i := by
  simp only [productCode, laneAt_congr ha hread hmark, laneAt_congr hb hread hmark]

/-! The program of a step -/

/-- The run of a step whose products take one beat each, under the MAC preset. -/
def macRun (cfg : MCfg) (a : Region) (P : Nat) : StepRun :=
  { cfg := cfg, isF := a.fmt.isFloat, widen := false, P := P, bpp := 1, prog := preset 8 }

/-- The tile that a product adds to: at its first beat, where `.init` names a value, one that holds it everywhere. -/
def oldTile (s : State) (m : MCmd) (acc d init : Nat) (form : Form) : Tile :=
  if m.beat % d = 0 && init != 0 then Tile.fill form (infCode form (init - 1)) else s.ownerTile m.owner (acc + m.beat / d)

theorem get_oldTile {s : State} {m : MCmd} (howner : m.owner = s.cx.uid) {acc d : Nat} {k : Fin 8}
    (hk : k.val = acc + m.beat / d) (init : Nat) (form : Form) {i : Nat} (hi : i < 4096) :
    (oldTile s m acc d init form).get i
      = if m.beat % d = 0 ∧ init ≠ 0 then infCode form (init - 1) else s.cx.tiles[k].get i := by
  have hcond : (m.beat % d = 0 && init != 0) = true ↔ m.beat % d = 0 ∧ init ≠ 0 := by simp
  rw [oldTile, ← hk, ownerTile_running howner]
  by_cases hinit : m.beat % d = 0 ∧ init ≠ 0
  · rw [if_pos (hcond.mpr hinit), if_pos hinit, get_fill form _ hi]
  · rw [if_neg (mt hcond.mp hinit), if_neg hinit]

/-- An element after a beat of the MAC preset. -/
theorem macRun_get (s : State) {cfg : MCfg} (hskew : cfg.skew = 0) {P : Nat} (a b : Region) {groups : List Nat × List Nat}
    (ha : groups.1.length = P) (hb : groups.2.length = P) (t : Tile) (fv : Nat) {i : Nat} (hi : i < 4096) :
    (arrayBeat (macRun cfg a P) t (edgeOf s cfg.p a groups.1) (edgeOf s cfg.p b groups.2) fv).1.get i
      = productCode s cfg P a b groups (t.get i) i := by
  rw [arrayBeat_get (k := macRun cfg a P) hskew rfl t _ _ fv hi, macValue, productCode, macLanes]
  refine congrArg (fun x => (roundForm cfg.form x).1) (List.foldl_ext _ _ _ (fun x j hj => ?_))
  have hjP : j < P := List.mem_range.mp hj
  rw [edgeOf, laneOf_edgeLanes _ _ (by omega) (hjP.trans_eq ha.symm), edgeOf,
    laneOf_edgeLanes _ _ (by omega) (hjP.trans_eq hb.symm), laneAt, laneAt]

/-- A beat of the MAC preset in output-stationary flow (08 R156, R173). -/
theorem runBeat_mac (s : State) (m : MCmd) (acc : Nat) (wide : Bool) (d init : Nat) (a b : Region) {cfg : MCfg} {P : Nat}
    (hshape : stepPacking cfg a.fmt b.fmt = (P, 1)) (hflow : cfg.flow = 0) (hsel : cfg.sel = 8) :
    (s.runBeat m acc wide d init a (some b) cfg).1.cx = (s.setOwnerTile m.owner (acc + m.beat / d)
      (arrayBeat (macRun cfg a P) (oldTile s m acc d init cfg.form)
        (edgeOf s cfg.p a (beatGroups cfg P 1 d wide m.beat).1) (edgeOf s cfg.p b (beatGroups cfg P 1 d wide m.beat).2)
        s.fv).1).cx := by
  have hprog : s.programOf m.owner cfg.sel = some (preset 8) := by
    rw [hsel]
    rfl
  have hwiden : widens (preset 8) = false := rfl
  have hout : ¬ cfg.flow = 1 := by
    rw [hflow]
    exact Nat.zero_ne_one
  simp only [State.runBeat, stepFmtB, hshape, hprog, Option.getD_some, hwiden, Bool.and_false, if_neg hout, Nat.div_one,
    Nat.mul_one]
  rfl

/-! A beat that no other watches -/

section
variable (s : State) (m : MCmd) (rest : List Nat)

theorem inBeat_mem : (inBeat s m rest).mem = s.mem := rfl
theorem inBeat_marks : (inBeat s m rest).marks = s.marks := rfl
theorem inBeat_cx : (inBeat s m rest).cx = s.cx := rfl

end

section
variable {s : State} (hun : Unwatched s) {m : MCmd} (go rest taken : List Nat)

theorem metTags_marks (s : State) (m : MCmd) (go taken : List Nat) : (metTags s m go taken).marks = s.marks := by
  unfold metTags State.unpark
  rw [show State.tagsAct _ .take false _ = _ from tagsAct_tagged _ .take false _]

include hun

theorem metTags_unwatched : Unwatched (metTags s m go taken) := by
  obtain ⟨htable, htail, hclosing, hcopies, hsends, hfreed, hparked⟩ := hun
  unfold metTags State.unpark
  rw [show State.tagsAct _ .take false _ = _ from tagsAct_tagged _ .take false _]
  refine ⟨htable, htail, hclosing, hcopies, hsends, hfreed, ?_⟩
  dsimp only
  rw [tagsAct_core, hparked]
  rfl

theorem metCmd_seen (hseen : m.seen = []) : (metCmd s m go).seen = go.map s.wordSeen := by
  unfold metCmd
  dsimp only
  rw [hseen, hotView_unwatched hun, List.nil_append]
  exact List.map_congr_left (fun w _ => beatRead_unwatched hun m w)

/-- What a beat has read is what its words hold. -/
theorem beatReads_unwatched (hseen : m.seen = []) :
    beatReads (metTags s m go taken) (metCmd s m go) rest
      = (go ++ rest).map (inBeat (metTags s m go taken) (metCmd s m go) rest).wordSeen := by
  have hmet := unparkAll_unwatched (metTags_unwatched hun (m := m) go taken) (metCmd s m go).id
  rw [beatReads, metCmd_seen hun go hseen, hotView_unwatched hmet, List.map_append]
  refine congrArg₂ _ (List.map_congr_left (fun w _ => ?_)) (List.map_congr_left (fun w _ => ?_))
  · refine (wordSeen_of_sameMem ?_ ?_ w).symm
    · rw [inBeat_mem, metTags_mem]
    · rw [inBeat_marks, metTags_marks]
  · exact (beatRead_unwatched hmet _ w).trans (wordSeen_of_sameMem rfl rfl w)

end

/-- A view of memory has the bytes, the marks and the running context of a state. -/
structure SameView (s v : State) : Prop where
  read : ∀ loc n, v.readNat loc n = s.readNat loc n
  mark : ∀ loc n, v.markedRange loc n = s.markedRange loc n
  cx : v.cx = s.cx

theorem productView_unwatched {s : State} (hun : Unwatched s) {m : MCmd} (hseen : m.seen = []) (go rest taken : List Nat) :
    SameView s ((inBeat (metTags s m go taken) (metCmd s m go) rest).productView
      (beatReads (metTags s m go taken) (metCmd s m go) rest)) := by
  rw [beatReads_unwatched hun go rest taken hseen]
  have hmem : (inBeat (metTags s m go taken) (metCmd s m go) rest).draw.2.mem = s.mem := by
    rw [draw_mem, inBeat_mem, metTags_mem]
  have hmarks : (inBeat (metTags s m go taken) (metCmd s m go) rest).draw.2.marks = s.marks := by
    rw [draw_marks, inBeat_marks, metTags_marks]
  have hcx : (inBeat (metTags s m go taken) (metCmd s m go) rest).draw.2.cx = s.cx := by
    rw [draw_cx, inBeat_cx, metTags_cx]
  have halike := productView_alike (inBeat (metTags s m go taken) (metCmd s m go) rest) (go ++ rest)
  generalize (inBeat (metTags s m go taken) (metCmd s m go) rest).draw.2 = u at hmem hmarks hcx halike
  refine ⟨fun loc n => (halike.readNat loc n).trans (readNat_congr (fun j _ => ?_)),
    fun loc n => (halike.markedRange loc n).trans ?_, halike.cx.trans hcx⟩
  · rw [State.byte, hmem, State.byte]
  · rw [State.markedRange, hmarks, State.markedRange]

theorem endBeat_cx_last (s : State) (m : MCmd) (rest taken : List Nat) (run : State → State × Flags) :
    (endBeat s m rest taken true run).cx = (run ((inBeat s m rest).productView (beatReads s m rest))).1.cx :=
  tagsAct_cx _ .take false _

/-- What a beat that no other watches leaves in its tile, under the MAC preset in output-stationary flow. -/
theorem endBeat_mac {s : State} (hun : Unwatched s) {m : MCmd} (howner : m.owner = s.cx.uid) (hseen : m.seen = [])
    (go rest taken : List Nat) {acc d : Nat} (wide : Bool) (init : Nat) {a b : Region} {cfg : MCfg} {P : Nat}
    (hshape : stepPacking cfg a.fmt b.fmt = (P, 1)) (hflow : cfg.flow = 0) (hskew : cfg.skew = 0) (hsel : cfg.sel = 8)
    (ha : a.scales = none) (hb : b.scales = none) {k : Fin 8} (hk : k.val = acc + m.beat / d) {t : State}
    (ht : t = endBeat (metTags s m go taken) (metCmd s m go) rest taken true
      (fun u => u.runBeat (metCmd s m go) acc wide d init a (some b) cfg)) :
    t.cx.tiles[k].form = cfg.form ∧ ∀ i < 4096, t.cx.tiles[k].get i
      = productCode s cfg P a b (beatGroups cfg P 1 d wide m.beat)
          (if m.beat % d = 0 ∧ init ≠ 0 then infCode cfg.form (init - 1) else s.cx.tiles[k].get i) i := by
  obtain ⟨hread, hmark, hcx⟩ := productView_unwatched hun hseen go rest taken
  rw [ht, endBeat_cx_last]
  generalize (inBeat (metTags s m go taken) (metCmd s m go) rest).productView
    (beatReads (metTags s m go taken) (metCmd s m go) rest) = v at hread hmark hcx
  have hvowner : (metCmd s m go).owner = v.cx.uid := howner.trans (congrArg Ctx.uid hcx).symm
  have hlens : (beatGroups cfg P 1 d wide m.beat).1.length = P ∧ (beatGroups cfg P 1 d wide m.beat).2.length = P := by
    simp [beatGroups, hflow]
  obtain ⟨hrows, hcols⟩ := hlens
  rw [runBeat_mac v (metCmd s m go) acc wide d init a b hshape hflow hsel, setOwnerTile_cx hvowner]
  rw [show acc + (metCmd s m go).beat / d = k.val from hk.symm]
  dsimp only
  rw [setIfInBounds_get]
  refine ⟨rfl, fun i hi => ?_⟩
  have hold : (oldTile v (metCmd s m go) acc d init cfg.form).get i
      = if m.beat % d = 0 ∧ init ≠ 0 then infCode cfg.form (init - 1) else v.cx.tiles[k].get i :=
    get_oldTile hvowner hk init cfg.form hi
  rw [← productCode_congr ha hb hread hmark, ← hcx, ← hold]
  exact macRun_get v hskew a b hrows hcols _ _ hi

end Sys2Proof.ShuttleProofs

/-! ### O37, the shuttle words and the steps of the shuttle -/

namespace Sys2Proof.ShuttleProofs

open Sys2Proof Sys2Proof.Machine Sys2Proof.Safety Sys2Proof.Laws Sys2Proof.GroupProofs

/-- What a beat leaves, whatever its program computes (08 R170, R174). -/
theorem endBeat_acts {s : State} {m : MCmd} (hm : m ∈ s.core.shq) (words : Nat → List (Nat × TagMode)) (last : Bool)
    {run : State → State × Flags} (hrun : ∀ t, Ran t (run t).1) {t : State}
    (ht : t = endBeat (metTags s m (goWords words m) (takenAt words m.beat m.kind.beats)) (metCmd s m (goWords words m))
      (restWords words m) (takenAt words m.beat m.kind.beats) last run) :
    (∃ x ∈ t.core.shq, x.id = m.id ∧ x.beat = m.beat + 1) ∧ t.core.beatDone = true ∧ t.mem = s.mem
    ∧ (∀ loc, t.full loc = s.full loc ∨ loc / 8 ∈ takenAt words m.beat m.kind.beats)
    ∧ ∀ w ∈ takenAt words m.beat m.kind.beats, s.freedFor m.id w = false → tagged (8 * w) = true →
        (w ∉ m.acted ∨ ∃ i < m.beat, ∃ x ∈ words i, x.1 = w) → t.full (8 * w) = false := by
  subst ht
  refine ⟨endBeat_advances _ _ _ _ last hrun (n := m) ?_ rfl, endBeat_beatDone _ _ _ _ last hrun, ?_, fun loc => ?_,
    fun w hw hfreed htagged hread => ?_⟩
  · rw [metTags_core]
    exact hm
  · rw [endBeat_mem, metTags_mem]
  · refine or_iff_not_imp_right.mpr (fun hloc => ?_)
    rw [← full_word, full_endBeat_other _ _ _ _ last hrun hloc, full_metTags_other _ _ _ _ hloc, full_word]
  · by_cases hmet : w ∈ metWords words m
    · have hfresh : w ∉ m.acted := hread.resolve_right ((mem_metWords_of_taken hw).mp hmet)
      have hgo : w ∈ goWords words m := List.mem_filter.mpr ⟨hmet, by simpa using hfresh⟩
      exact full_endBeat_emptied _ _ _ _ last hrun htagged (full_metTags_taken s m _ _ hw hfreed htagged hgo)
    · refine full_endBeat_taken _ _ _ _ last hrun hw ?_ htagged ((mem_restWords_of_taken hw).mpr hmet)
      rw [metTags_freedFor]
      exact hfreed

/-- A word that a beat meets is among those that no beat before has read, in a mode that waits. -/
theorem goWords_full {s : State} {words : Nat → List (Nat × TagMode)} {m : MCmd}
    (h : ∀ w ∈ firstAtBeat words m.beat (beatNow words m), w.2 ≠ .keep →
      s.full (8 * w.1) = true ∧ s.firstAt m.id w.1 true = true) :
    ∀ w ∈ goWords words m, s.full (8 * w) = true ∧ s.firstAt m.id w true = true := fun w hw => by
  obtain ⟨hfirst, hmode⟩ := mem_metWords.mp (List.mem_filter.mp hw).1
  exact h _ hfirst hmode

/-- Settles O37: a word of the shuttle is its issue effect; a start, a beat and a completion are followed group by group
and word by word; the values are those of the MAC preset's cells, of the loaded and of the drained elements. -/
theorem shuttleCommands : Obligations.ShuttleCommands := by
  unfold Obligations.ShuttleCommands
  refine ⟨?_, ?_, ?_, ?_, fun s => ⟨chargeRecord_low, chargeRecord_full⟩⟩
  · intro s acc n da db depth a6 p q opt tag flags v f sl m clr wide hroom
    dsimp only
    refine ⟨⟨exec_configure hroom (x := sselWord p) rfl rfl rfl rfl rfl rfl, exec_mflow hroom, exec_mskew hroom,
      exec_mfmt hroom⟩, ?_, fun huse hok => exec_mdrain hroom huse hok n m clr,
      fun huse => ⟨fun hok => exec_mlda hroom huse hok n f m,
        fun hkind hfmt hstride hlow hhigh => exec_sload hroom huse hkind hfmt hstride hlow hhigh sl,
        fun hkind hrows hlow hhigh => exec_mwgt hroom huse hkind hrows hlow hhigh⟩,
      fun huse hplane ha hb hforms => ?_⟩
    · rw [← formsNoted_beq]
      exact exec_mzero hroom n wide v f
    · rw [← formsNoted_beq]
      exact exec_mstep hroom huse (mstep_legal huse.1 hplane ha hb hforms tag)
  · intro s before m hfirst hmay
    exact ⟨fun c hkind => shuttleStart_configures hfirst hmay hkind,
      fun hkind => shuttleStart_starts hfirst hmay hkind⟩
  · intro s m acc wide d tag init a b cfg hfind hkind shape words now groups hopen hfull ha hb
    have hbeat := beat_of_met hfind hkind (shape := shape) (words := words) (groups := groups) rfl rfl rfl hopen ha hb
      (beatTags_full (goWords_full hfull))
    obtain ⟨⟨x, hx, hid, hnext⟩, hdone, hmem, hfulls, hempty⟩ := endBeat_acts (List.mem_of_find?_eq_some hfind) words
      _ (fun t => runBeat_ran t _ acc wide d init a b cfg) hbeat
    refine ⟨s.beat, x, rfl, hx, hid, hnext, hdone, hmem, hfulls, hempty, ?_⟩
    intro hun howner hseen hone hflow hskew hsel hascales _ br hbr hbscales _ _ q lane old k hk
    subst hbr
    have hshape : stepPacking cfg a.fmt br.fmt = (shape.1, 1) := Prod.ext rfl hone
    have hgroups : groups = beatGroups cfg shape.1 1 d wide m.beat :=
      congrArg (beatGroups cfg shape.1 · d wide m.beat) hone
    rw [hone, Nat.mod_one] at hbeat
    have hmac := endBeat_mac hun howner hseen (goWords words m) (restWords words m) _ wide init hshape hflow hskew hsel
      hascales hbscales hk hbeat
    rw [← hgroups] at hmac
    exact hmac
  · intro s m rest hq hstarted
    refine ⟨fun hstep hdone => ⟨s.endM m, congrArg Host.Outcome.next (shuttleComplete_step hq hstarted hstep hdone),
        not_mem_endM s m, rfl⟩,
      fun r dst hregion hdone => ⟨(s.tileEnd m).endM m, congrArg Host.Outcome.next (shuttleComplete_region hq hstarted
        hregion (passGroups_done hregion hdone 1024) rfl hdone), not_mem_endM _ m, tileEnd_mem s m⟩,
      fun n wide v f hkind howner => ⟨(s.tileEnd m).endM m, congrArg Host.Outcome.next (shuttleComplete_zero hq hstarted
        hkind), not_mem_endM _ m, tileEnd_mem s m, (endM_tiles _ m).trans (tileEnd_zero_tiles hkind howner)⟩, ?_⟩
    intro hun howner hbeat hacted hseen r hscales htag hlow hcount hopen
    exact ⟨fun n form mode hload hkind hclean => shuttleComplete_load hload howner hscales htag hkind hclean hq hstarted
        hun hbeat hacted hseen hlow hcount hopen,
      fun n mode clr hdrain hkind hstride hfmt => shuttleComplete_drain hdrain howner hscales htag hkind hstride hfmt hq
        hstarted hun hbeat hacted hseen hcount hopen⟩

end Sys2Proof.ShuttleProofs

/-! ### The refresh schedule of the HBM (10 R190, R191) -/

namespace Sys2Proof.HbmProofs

open Sys2Proof Sys2Proof.Machine Sys2Proof.Safety Sys2Proof.Laws

/-! Banks and pseudo-channels after a write to one of them -/

/-- Looking a key up once an entry has been replaced. -/
theorem lookup_replaced {β : Type} (k j : Nat) (v : β) (l : List (Nat × β)) :
    (((k, v) :: l.filter (fun e => e.1 != k)).find? (fun e => e.1 == j)).map (·.2)
      = if k = j then some v else (l.find? (fun e => e.1 == j)).map (·.2) := by
  by_cases h : k = j
  · simp [h]
  · have hother : (fun e : Nat × β => decide ((e.1 != k) = true ∧ (e.1 == j) = true)) = fun e => e.1 == j := by
      funext e
      by_cases he : e.1 = j <;> simp [he, Ne.symm h]
    rw [if_neg h, List.find?_cons_of_neg (by simpa using h), List.find?_filter, hother]

theorem hchan_setHchan (s : State) (pc : Nat) (c : HChan) : (s.setHchan pc c).hchan pc = c := by
  simp [State.hchan, State.setHchan]

theorem hbank_setHbank (s : State) (pc k : Nat) (b : HBank) (j : Nat) :
    (s.setHbank pc k b).hbank pc j = if k = j then b else s.hbank pc j := by
  simp only [State.hbank, State.setHbank, lookup_replaced, Nat.add_left_cancel_iff]
  split <;> rfl

theorem hchan_setHbank (s : State) (pc k : Nat) (b : HBank) (c : Nat) : (s.setHbank pc k b).hchan c = s.hchan c := rfl

theorem hchan_closeAll (s : State) (pc c : Nat) : (s.closeAll pc).hchan c = s.hchan c := rfl

/-- Every bank of a pseudo-channel that has been closed has no row. -/
theorem hbank_closeAll_row (s : State) (pc : Nat) {j : Nat} (hj : j < 16) :
    ((s.closeAll pc).hbank pc j).row = none := by
  simp only [State.hbank, State.closeAll, List.find?_map, Option.map_map]
  cases hfind : s.hbm.banks.find? ((fun e => e.1 == 16 * pc + j) ∘ fun e =>
      if e.1 / 16 == pc then (e.1, { e.2 with row := none }) else e) with
  | none => rfl
  | some e =>
    have hkey := List.find?_some hfind
    have hpc : e.1 / 16 = pc := by
      simp only [Function.comp_apply] at hkey
      split at hkey <;> simp only [beq_iff_eq] at hkey <;> omega
    simp [hpc]

/-! What the controller's own acts leave alone -/

/-- Nothing but banks and pseudo-channels has changed. -/
def Refreshes (s t : State) : Prop := t = { s with hbm := { s.hbm with banks := t.hbm.banks, chans := t.hbm.chans } }

theorem Refreshes.trans {s t u : State} (h : Refreshes s t) (k : Refreshes t u) : Refreshes s u := by
  rw [Refreshes] at h k ⊢
  rw [h] at k
  exact k

theorem dueAct_refreshes (s : State) (pc : Nat) : Refreshes s (s.dueAct pc) := by
  unfold State.dueAct
  dsimp only
  split
  · rfl
  · split
    · rfl
    · split <;> rfl

theorem dueAct_dues (s : State) (pc : Nat) : ((s.dueAct pc).hchan pc).dues = (s.hchan pc).dues + 1 := by
  unfold State.dueAct
  dsimp only
  split
  · rw [hchan_setHchan]
  · split
    · rw [hchan_closeAll, hchan_setHchan]
    · split
      · rw [hchan_setHchan]
      · rw [hchan_setHbank, hchan_setHchan]

theorem dueAct_cyc (s : State) (pc : Nat) : (s.dueAct pc).cyc = s.cyc := by rw [dueAct_refreshes s pc]

theorem duesTo_refreshes (pc n : Nat) (s : State) : Refreshes s (duesTo pc n s) := by
  induction n generalizing s with
  | zero => rfl
  | succ n ih =>
    rw [duesTo]
    split
    · exact (dueAct_refreshes s pc).trans (ih _)
    · rfl

theorem refreshed_refreshes (s : State) (pc : Nat) : Refreshes s (s.refreshed pc) := duesTo_refreshes pc _ s

section
variable (s : State) (pc : Nat)

@[simp] theorem refreshed_cyc : (s.refreshed pc).cyc = s.cyc := by rw [refreshed_refreshes s pc]
@[simp] theorem refreshed_cx : (s.refreshed pc).cx = s.cx := by rw [refreshed_refreshes s pc]
@[simp] theorem refreshed_mem : (s.refreshed pc).mem = s.mem := by rw [refreshed_refreshes s pc]
@[simp] theorem refreshed_hbmrdln : (s.refreshed pc).hbm.hbmrdln = s.hbm.hbmrdln := by rw [refreshed_refreshes s pc]

end

/-! When dues fall -/

theorem dueCycle_succ (c n : Nat) : dueCycle c (n + 1) = dueCycle c n + (if n % 16 = 15 then 180 else 170) := by
  unfold dueCycle
  split <;> omega

theorem dueCycle_strictMono (c : Nat) : StrictMono (dueCycle c) :=
  strictMono_nat_of_lt_succ fun n => by rw [dueCycle_succ]; split <;> omega

theorem mul_le_dueCycle (c n : Nat) : 170 * n ≤ dueCycle c n := by
  unfold dueCycle
  omega

/-- The dues acted on are the next ones, all of cycles before the present, and either no due before the present is left
or the fuel has run out. -/
theorem duesTo_dues (pc n : Nat) (s : State) :
    (s.hchan pc).dues ≤ ((duesTo pc n s).hchan pc).dues
    ∧ (∀ k, (s.hchan pc).dues ≤ k → k < ((duesTo pc n s).hchan pc).dues → dueCycle pc k < s.cyc)
    ∧ (s.cyc ≤ dueCycle pc ((duesTo pc n s).hchan pc).dues
      ∨ ((duesTo pc n s).hchan pc).dues = (s.hchan pc).dues + n) := by
  induction n generalizing s with
  | zero => exact ⟨Nat.le_refl _, fun k hle hlt => absurd hlt (Nat.not_lt.mpr hle), .inr rfl⟩
  | succ n ih =>
    rw [duesTo]
    split
    case isFalse hopen => exact ⟨Nat.le_refl _, fun k hle hlt => absurd hlt (Nat.not_lt.mpr hle), .inl (by omega)⟩
    case isTrue hdue =>
      obtain ⟨hle, hacted, hend⟩ := ih (s.dueAct pc)
      rw [dueAct_dues] at hle hacted hend
      rw [dueAct_cyc] at hacted hend
      refine ⟨by omega, fun k hk hlt => ?_, by omega⟩
      obtain rfl | hlater := Nat.eq_or_lt_of_le hk
      · exact hdue
      · exact hacted k hlater hlt

theorem le_dueCycle_refreshed (s : State) (pc : Nat) : s.cyc ≤ dueCycle pc ((s.refreshed pc).hchan pc).dues := by
  obtain ⟨_, _, hnone | hfuel⟩ := duesTo_dues pc (s.cyc / 170 + 1) s
  · exact hnone
  · have hlate := mul_le_dueCycle pc ((s.refreshed pc).hchan pc).dues
    have hdues : ((s.refreshed pc).hchan pc).dues = (s.hchan pc).dues + (s.cyc / 170 + 1) := hfuel
    omega

/-- Settles O59: the dues follow each other by 170 or 180 cycles, and the controller's recursion stops at the first due
that is not before the present cycle, long before its fuel ends. -/
theorem refreshSchedule : Obligations.RefreshSchedule := by
  unfold Obligations.RefreshSchedule
  refine ⟨fun c cyc b hb => ⟨?_, ?_⟩, fun c n m => ⟨dueCycle_succ c n, ?_, fun h => dueCycle_strictMono c h⟩,
    fun s c => ?_⟩
  · rintro ⟨n, rfl, rfl⟩
    exact ⟨n / 16, rfl⟩
  · rintro ⟨j, rfl⟩
    refine ⟨16 * j + b, by omega, ?_⟩
    unfold dueCycle
    omega
  · unfold dueCycle
    omega
  · obtain ⟨hle, hacted, _⟩ := duesTo_dues c (s.cyc / 170 + 1) s
    have hnext := le_dueCycle_refreshed s c
    exact ⟨hnext, hle, fun n hn => ⟨hacted n hn, fun hdue =>
      (dueCycle_strictMono c).lt_iff_lt.mp (Nat.lt_of_lt_of_le hdue hnext)⟩⟩

end Sys2Proof.HbmProofs

/-! ### The steps of an HBM controller (10 R187 to R191, R193, R195; 11 R207) -/

namespace Sys2Proof.HbmProofs

open Sys2Proof Sys2Proof.Machine Sys2Proof.Safety Sys2Proof.Laws

/-! Dues -/

/-- With no due before the present cycle nothing is left to act on. -/
theorem duesTo_of_le {s : State} {pc : Nat} (h : s.cyc ≤ dueCycle pc (s.hchan pc).dues) (n : Nat) :
    duesTo pc n s = s := by
  cases n with
  | zero => rfl
  | succ n => rw [duesTo, if_neg (Nat.not_lt.mpr h)]

/-- With a single due before the present cycle that alone is acted on. -/
theorem refreshed_of_one {s : State} {pc : Nat} (hdue : dueCycle pc (s.hchan pc).dues < s.cyc)
    (hlast : s.cyc ≤ dueCycle pc ((s.hchan pc).dues + 1)) : s.refreshed pc = s.dueAct pc := by
  rw [State.refreshed, duesTo, if_pos hdue]
  exact duesTo_of_le (by rwa [dueAct_cyc, dueAct_dues]) _

theorem allBank_iff (c : HChan) (d : Nat) : c.allBank d = true ↔ ∃ st, c.allStart = some st ∧ d < st + 245 := by
  cases h : c.allStart <;> simp [HChan.allBank, h]

theorem allBank_false_iff (c : HChan) (d : Nat) : c.allBank d = false ↔ ∀ st, c.allStart = some st → st + 245 ≤ d := by
  cases h : c.allStart <;> simp [HChan.allBank, h]

section
variable {s : State} {pc : Nat} {c : HChan} (hc : s.hchan pc = c)
include hc

/-- A due under an all-bank refresh is skipped. -/
theorem dueAct_skipped (h : c.allBank (dueCycle pc c.dues) = true) :
    s.dueAct pc = s.setHchan pc { c with dues := c.dues + 1 } := by
  subst hc
  exact if_pos h

variable (h : c.allBank (dueCycle pc c.dues) = false)
include h

/-- After eight postponements an all-bank refresh is called, which closes every bank. -/
theorem dueAct_calls (hpost : c.post = 8) : s.dueAct pc = (s.setHchan pc { c with
    dues := c.dues + 1, post := 0, called := true, refall := (c.refall + 1) % 2 ^ 64
    allStart := some (s.allBankFrom pc (dueCycle pc c.dues)) }).closeAll pc := by
  subst hc
  exact (if_neg (ne_true_of_eq_false h)).trans (if_pos hpost)

variable (hpost : c.post ≠ 8) {b : HBank} (hb : s.hbank pc (c.dues % 16) = b)
include hpost hb

/-- The due of an open or queued bank is postponed. -/
theorem dueAct_postpones (hbusy : b.isOpen (dueCycle pc c.dues) = true ∨ b.queue ≠ []) :
    s.dueAct pc = s.setHchan pc { c with
      dues := c.dues + 1, post := c.post + 1, refpost := (c.refpost + 1) % 2 ^ 64 } := by
  subst hc hb
  exact (if_neg (ne_true_of_eq_false h)).trans ((if_neg hpost).trans (if_pos (by simpa using hbusy)))

/-- An idle bank is refreshed for 112 cycles. -/
theorem dueAct_refreshes_bank (hclosed : b.isOpen (dueCycle pc c.dues) = false) (hempty : b.queue = []) :
    s.dueAct pc = (s.setHchan pc { c with dues := c.dues + 1 }).setHbank pc (c.dues % 16)
      { b with row := none, refresh := dueCycle pc c.dues + 112 } := by
  subst hc hb
  exact (if_neg (ne_true_of_eq_false h)).trans ((if_neg hpost).trans (if_neg (by simp [hclosed, hempty])))

end

/-! The start of an all-bank refresh -/

theorem foldl_max_bounds (f : Nat → Nat) (l : List Nat) (d : Nat) :
    d ≤ l.foldl (fun n k => Nat.max n (f k)) d ∧ ∀ j ∈ l, f j ≤ l.foldl (fun n k => Nat.max n (f k)) d := by
  induction l generalizing d with
  | nil => simp
  | cons k l ih =>
    obtain ⟨hstart, hall⟩ := ih (Nat.max d (f k))
    refine ⟨(Nat.le_max_left _ _).trans hstart, fun j hj => ?_⟩
    obtain rfl | hj := List.mem_cons.mp hj
    · exact (Nat.le_max_right _ _).trans hstart
    · exact hall j hj

theorem foldl_max_of_le (f : Nat → Nat) (l : List Nat) {d : Nat} (h : ∀ j ∈ l, f j ≤ d) :
    l.foldl (fun n k => Nat.max n (f k)) d = d := by
  induction l with
  | nil => rfl
  | cons k l ih =>
    rw [List.foldl_cons, show Nat.max d (f k) = d from Nat.max_eq_left (h k List.mem_cons_self)]
    exact ih fun j hj => h j (List.mem_cons_of_mem k hj)

/-- An all-bank refresh starts at its call, or when the last service in progress ends (11 R207). -/
theorem allBankFrom_spec (s : State) (pc d : Nat) :
    (∀ j < 16, (s.hbank pc j).busy ≤ s.allBankFrom pc d) ∧ d ≤ s.allBankFrom pc d
    ∧ ((∀ j < 16, (s.hbank pc j).busy ≤ d) → s.allBankFrom pc d = d) := by
  obtain ⟨hstart, hall⟩ := foldl_max_bounds (fun k => (s.hbank pc k).busy) (List.range 16) d
  exact ⟨fun j hj => hall j (List.mem_range.mpr hj), hstart,
    fun h => foldl_max_of_le _ _ fun j hj => h j (List.mem_range.mp hj)⟩

/-! Arrivals and services -/

theorem countAt_bumpBy (k n : Nat) (l : List (Nat × Nat)) : countAt k (bumpBy k n l) = (countAt k l + n) % 2 ^ 64 := by
  simp [countAt, bumpBy]

section
variable (s : State) (pa : Nat) (read : Bool) (die : Nat) (id : Option Nat)

/-- An arrival stands last in the queue of its bank. -/
theorem arriveAt_queue : ((s.arriveAt pa read die id).hbank (hbmChan pa) (hbmBank pa)).queue
    = ((s.refreshed (hbmChan pa)).hbank (hbmChan pa) (hbmBank pa)).queue ++ [⟨s.cyc, hbmRow pa, read, die, id⟩] := by
  unfold State.arriveAt
  dsimp only
  rw [← refreshed_cyc s (hbmChan pa)]
  split <;> exact congrArg HBank.queue ((hbank_setHbank _ _ _ _ _).trans (if_pos rfl))

theorem arriveAt_hbmrdln : countAt die (s.arriveAt pa read die id).hbm.hbmrdln
    = if read = true then (countAt die s.hbm.hbmrdln + 1) % 2 ^ 64 else countAt die s.hbm.hbmrdln := by
  cases read
  · simp [State.arriveAt, State.setHbank]
  · simp [State.arriveAt, State.setHbank, countAt_bumpBy]

@[simp] theorem arriveAt_cx : (s.arriveAt pa read die id).cx = s.cx := by
  cases read <;> simp [State.arriveAt, State.setHbank]

@[simp] theorem arriveAt_mem : (s.arriveAt pa read die id).mem = s.mem := by
  cases read <;> simp [State.arriveAt, State.setHbank]

end

theorem isOpen_iff (b : HBank) (cyc : Nat) : b.isOpen cyc = true ↔ b.row.isSome = true ∧ cyc < b.last + 1024 := by
  simp [HBank.isOpen]

theorem canServe_iff (s : State) (pc k : Nat) : s.canServe pc k = true ↔ (s.hbank pc k).queue ≠ []
    ∧ (s.hbank pc k).refresh ≤ s.cyc ∧ (s.hbank pc k).busy ≤ s.cyc ∧ s.chanClosed pc = false := by
  simp [State.canServe, and_assoc]

/-- The cycles a bank serves an access for (10 R188, R189). -/
def serviceTime (b : HBank) (cyc : Nat) (r : HReq) : Nat := if b.isOpen cyc && b.row == some r.row then 1 else 32

theorem serviceTime_eq (b : HBank) (cyc : Nat) (r : HReq) :
    serviceTime b cyc r = if b.row = some r.row ∧ cyc < b.last + 1024 then 1 else 32 := by
  have hopen : (b.isOpen cyc && b.row == some r.row) = true ↔ b.row = some r.row ∧ cyc < b.last + 1024 := by
    rw [Bool.and_eq_true, isOpen_iff, beq_iff_eq]
    exact ⟨fun ⟨⟨_, hlast⟩, hrow⟩ => ⟨hrow, hlast⟩, fun ⟨hrow, hlast⟩ => ⟨⟨hrow ▸ rfl, hlast⟩, hrow⟩⟩
  simp only [serviceTime, hopen]

/-- The cycles an access waited count, if it is a read. -/
def waitCounted (s : State) (r : HReq) : State :=
  if r.read then { s with hbm := { s.hbm with hbmwait := bumpBy r.die (s.cyc - r.cyc) s.hbm.hbmwait } } else s

/-- The access of the core that the request stands for, if any, has been served. -/
def stageServed (s : State) : Option Nat → State
  | some id => s.setBankStage id .served
  | none => s

section
variable {s : State} {pc k : Nat}

/-- A bank that cannot serve, or with nothing queued, starts no service. -/
theorem hbmService_idle (h : (s.refreshed pc).canServe pc k = false) : s.hbmService pc k = s.refreshed pc := by
  unfold State.hbmService
  dsimp only
  split
  · rfl
  · rw [if_pos (by rw [h]; rfl)]

/-- The head access is served when no other service starts in this cycle and no lower bank has an access as old. -/
theorem hbmService_serves {u : State} (hu : s.refreshed pc = u) {r : HReq} {rest : List HReq}
    (hqueue : (u.hbank pc k).queue = r :: rest) (hcan : u.canServe pc k = true)
    (halone : ∀ j < 16, ¬ ((u.hbank pc j).last = u.cyc ∧ u.cyc < (u.hbank pc j).busy))
    (hlower : ∀ j < k, u.canServe pc j = true → u.headArrival pc j ≠ some r.cyc) :
    s.hbmService pc k = stageServed (waitCounted (u.setHbank pc k
      { u.hbank pc k with
        row := some r.row, last := u.cyc, busy := u.cyc + serviceTime (u.hbank pc k) u.cyc r, queue := rest }) r)
      r.id := by
  have hanother : (List.range 16).any (fun j => (u.hbank pc j).serving u.cyc && (u.hbank pc j).last == u.cyc)
      = false := by
    simpa [HBank.serving, imp.swap] using halone
  have hfirst : (List.range k).any (fun j => u.canServe pc j && u.headArrival pc j == u.headArrival pc k) = false := by
    have hhead : u.headArrival pc k = some r.cyc := by simp [State.headArrival, hqueue]
    simpa [hhead] using hlower
  unfold State.hbmService
  dsimp only
  rw [hu, hanother, hfirst, hcan, hqueue]
  dsimp only
  rw [if_neg (by decide)]
  cases hid : r.id <;> rfl

end

/-- Once a bank serves, the wait of a read is counted and its access may perform; banks and memory stay as they are. -/
theorem stageServed_spec (s : State) (r : HReq) (pc k : Nat) :
    (stageServed (waitCounted s r) r.id).hbank pc k = s.hbank pc k
    ∧ (r.read = true → countAt r.die (stageServed (waitCounted s r) r.id).hbm.hbmwait
        = (countAt r.die s.hbm.hbmwait + (s.cyc - r.cyc)) % 2 ^ 64)
    ∧ (stageServed (waitCounted s r) r.id).mem = s.mem
    ∧ (r.id = none → (stageServed (waitCounted s r) r.id).cx = s.cx) := by
  have hstage (t : State) (o : Option Nat) : (stageServed t o).hbm = t.hbm ∧ (stageServed t o).mem = t.mem
      ∧ (o = none → (stageServed t o).cx = t.cx) := by
    cases o
    · exact ⟨rfl, rfl, fun _ => rfl⟩
    · exact ⟨rfl, rfl, fun h => absurd h (Option.some_ne_none _)⟩
  obtain ⟨hhbm, hmem, hcx⟩ := hstage (waitCounted s r) r.id
  unfold State.hbank
  rw [hhbm, hmem]
  unfold waitCounted at hcx ⊢
  cases hread : r.read
  · exact ⟨rfl, fun h => absurd h Bool.false_ne_true, rfl, by simpa [hread] using hcx⟩
  · exact ⟨rfl, fun _ => countAt_bumpBy _ _ _, rfl, by simpa [hread] using hcx⟩

/-! The ends of services and refreshes, on the pseudo-channel with its dues acted on -/

section
variable {s : State} {pc k : Nat}

theorem bankIdleClose_idle (hrow : ((s.refreshed pc).hbank pc k).row.isSome = true)
    (hidle : ((s.refreshed pc).hbank pc k).last + 1024 ≤ s.cyc) : s.bankIdleClose pc k
      = (s.refreshed pc).setHbank pc k { (s.refreshed pc).hbank pc k with row := none } :=
  if_pos (by simp [hrow, hidle])

theorem bankRefreshEnd_due (hpos : 0 < ((s.refreshed pc).hbank pc k).refresh)
    (hle : ((s.refreshed pc).hbank pc k).refresh ≤ s.cyc) : s.bankRefreshEnd pc k
      = (s.refreshed pc).setHbank pc k { (s.refreshed pc).hbank pc k with refresh := 0 } :=
  if_pos (by simp [hle, Nat.ne_of_gt hpos])

variable {st : Nat} (hstart : ((s.refreshed pc).hchan pc).allStart = some st)
include hstart

theorem allBankStart_due (hcalled : ((s.refreshed pc).hchan pc).called = true) (hle : st ≤ s.cyc) :
    s.allBankStart pc = (s.refreshed pc).setHchan pc { (s.refreshed pc).hchan pc with called := false } :=
  if_pos (by simp [hstart, hcalled, hle])

theorem allBankEnd_due (hle : st + 245 ≤ s.cyc) : s.allBankEnd pc
    = (s.refreshed pc).setHchan pc { (s.refreshed pc).hchan pc with called := false, allStart := none } := by
  have hover : ((s.refreshed pc).hchan pc).allBank s.cyc = false :=
    (allBank_false_iff _ _).mpr fun x hx => Option.some.inj (hstart.symm.trans hx) ▸ hle
  exact if_pos (by simp [hstart, hover])

end

/-- Settles O45: each step acts on the pseudo-channel as it stands once its dues have been acted on. -/
theorem hbmSteps : Obligations.HbmSteps := by
  unfold Obligations.HbmSteps
  refine ⟨fun s pc => ⟨rfl, fun h => duesTo_of_le h _, ?_⟩, allBankFrom_spec, fun s pa read =>
    ⟨_, rfl, arriveAt_hbmrdln s pa read _ none, arriveAt_queue s pa read _ none, arriveAt_cx s pa read _ none,
      arriveAt_mem s pa read _ none⟩, ?_⟩
  · intro c d b next hdue hlast
    rw [refreshed_of_one hdue hlast]
    refine ⟨fun h => dueAct_skipped rfl ((allBank_iff c d).mpr h), fun h => ?_⟩
    have hopen : c.allBank d = false := (allBank_false_iff c d).mpr h
    refine ⟨fun hpost =>
        ⟨_, dueAct_calls rfl hopen hpost, fun j hj => hbank_closeAll_row _ pc hj, hchan_setHchan s pc _⟩,
      fun hpost hbusy => dueAct_postpones rfl hopen hpost rfl hbusy,
      fun hpost hclosed hempty => dueAct_refreshes_bank rfl hopen hpost rfl hclosed hempty⟩
  · intro s pc k hk u b c
    have hcyc : u.cyc = s.cyc := refreshed_cyc s pc
    refine ⟨?_, ?_,
      fun hrow hidle => congrArg Host.Outcome.next (bankIdleClose_idle hrow hidle),
      fun st hcalled hstart hle => congrArg Host.Outcome.next (allBankStart_due hstart hcalled hle),
      fun hpos hle => congrArg Host.Outcome.next (bankRefreshEnd_due hpos hle),
      fun st hstart hle => congrArg Host.Outcome.next (allBankEnd_due hstart hle),
      fun hbank hin => congrArg Host.Outcome.next (if_pos (by simp [hbank, hin])),
      fun hwindow hout => congrArg Host.Outcome.next (if_pos (by simp [hwindow, Nat.not_lt.mpr hout]))⟩
    · intro r rest hqueue hrefresh hbusy hopen halone hlower time
      have hcan : u.canServe pc k = true :=
        (canServe_iff u pc k).mpr ⟨by rw [hqueue]; exact List.cons_ne_nil _ _, by rwa [hcyc], by rwa [hcyc], hopen⟩
      have hstep := hbmService_serves (s := s) (u := u) rfl hqueue hcan (by rwa [hcyc]) hlower
      rw [hcyc, serviceTime_eq] at hstep
      obtain ⟨hbank, hwait, hmem, hcx⟩ := stageServed_spec (u.setHbank pc k { b with
        row := some r.row, last := s.cyc, busy := s.cyc + time, queue := rest }) r pc k
      rw [hbank_setHbank, if_pos rfl] at hbank
      rw [show State.cyc (u.setHbank pc k _) = s.cyc from hcyc] at hwait
      exact ⟨_, congrArg Host.Outcome.next hstep, hbank, hwait, hmem.trans (refreshed_mem s pc),
        fun h => (hcx h).trans (refreshed_cx s pc)⟩
    · intro h
      refine congrArg Host.Outcome.next (hbmService_idle (Bool.eq_false_iff.mpr fun hcan => ?_))
      obtain ⟨hqueue, hrefresh, hbusy, hopen⟩ := (canServe_iff u pc k).mp hcan
      rw [hcyc] at hrefresh hbusy
      rw [State.chanClosed, Bool.or_eq_false_iff, hcyc] at hopen
      obtain h | h | h | h := h
      · exact absurd (hopen.1.symm.trans h) Bool.false_ne_true
      · exact Nat.not_lt.mpr hbusy h
      · exact Nat.not_lt.mpr hrefresh h
      · exact hqueue h

end Sys2Proof.HbmProofs

/-! ### A copy that moves the destination of a collective (10 R205; 17 R276) -/

namespace Sys2Proof.CopyProofs

open Sys2Proof Sys2Proof.Machine Sys2Proof.Safety Sys2Proof.Laws Sys2Proof.GroupProofs Sys2Proof.ShuttleProofs
open Sys2Proof.HbmProofs Sys2Proof.HostProofs

/-! The memory after a segment without tags -/

theorem segmentSources_untagged (s : State) {c : CopyCmd} (hstag : blkStag c.blk = 0) (out : List OutByte) :
    s.segmentSources c out = ([], []) := by
  unfold State.segmentSources
  rw [hstag]
  rfl

/-- The lines of a segment queue at their banks, and memory stays as it is (10 R188). -/
theorem arriveAll_mem (read : Bool) (die : Nat) (l : List Nat) (s : State) :
    (l.foldl (fun (s : State) n => s.arriveAt (64 * n % 2 ^ 41) read die none) s).mem = s.mem :=
  List.foldlRecOn l _ (motive := fun t : State => t.mem = s.mem) rfl fun t ht _ _ => (arriveAt_mem t _ _ _ _).trans ht

/-- A segment without tags, none of which is written yet and which nothing holds up, is written whole: memory is as
`writeOut` leaves it (10 R204, R205). -/
theorem copySegment_untagged_mem {s : State} {id : Nat} {c : CopyCmd} (hc : s.copyOf id = some c) {m : Mover}
    (hm : s.gatherSegment c = m) (hreads : c.reading = true) (hfault : m.fault = false)
    (hshut : (m.lines ++ hbmLines m.out).any s.hbmShut = false) (hstag : blkStag c.blk = 0) (hdtag : blkDtag c.blk = 0)
    (hput : c.put = []) (hout : m.out ≠ []) (hkept : ∀ w, s.freedFor id w = false)
    (hopen : ∀ b ∈ m.out, s.wsBlocked (8 * (b.loc / 8)) = false ∧ ∀ w ∈ b.src ++ b.aux, s.wsBlocked (8 * w) = false) :
    (s.copySegment id).mem = ((m.s.unpark id []).writeOut c m.out).1.mem := by
  have hready (w : Nat) : m.out.all (fun b => b.loc / 8 != w || b.src.all (fun w => !s.wsBlocked (8 * w))
      && b.aux.all (fun w => !s.wsBlocked (8 * w)) && !s.wsBlocked (8 * (b.loc / 8))) = true := by
    rw [List.all_eq_true]
    intro b hb
    obtain ⟨hloc, hread⟩ := hopen b hb
    rw [List.forall_mem_append] at hread
    simpa [hloc] using .inr hread
  have hwords : ∀ b ∈ m.out, b.loc / 8 ∈ wordSet (m.out.map (fun b => b.loc / 8)) := fun b hb =>
    (mem_wordSet _ _).mpr (List.mem_map_of_mem hb)
  generalize hW : wordSet (m.out.map (fun b => b.loc / 8)) = words at hwords
  have hsome : words.isEmpty = false := by
    obtain ⟨b, hb⟩ := List.exists_mem_of_ne_nil _ hout
    exact List.isEmpty_eq_false_iff.mpr (List.ne_nil_of_mem (hwords b hb))
  have hwritten : m.out.filter (fun b => words.contains (b.loc / 8)) = m.out :=
    List.filter_eq_self.mpr fun b hb => List.contains_iff_mem.mpr (hwords b hb)
  have hall : words.all words.contains = true := by simp
  have hkeep : tagOfCode 0 = .keep := rfl
  unfold State.copySegment
  rw [hc]
  dsimp only
  rw [hm, hreads, hfault, hshut, segmentSources_untagged s hstag]
  simp only [hdtag, hstag, hput, hkept, hkeep, TagMode.waits, Bool.not_false, Bool.not_true, Bool.true_or,
    Bool.or_false, Bool.and_true, Bool.true_and, Bool.false_eq_true, if_false, if_true, List.contains_nil,
    List.partition_eq_filter_filter, List.filter_true, List.isEmpty_nil, hready, hW, hwritten, hall, hsome]
  exact (arriveAll_mem _ _ _ _).trans (arriveAll_mem _ _ _ _)

/-- With the whole mask a byte is written as it is. -/
theorem ofNat_whole (old v : Nat) : BitVec.ofNat 8 ((old &&& (255 - 255)) + (v &&& 255)) = BitVec.ofNat 8 v := by
  have hlow : v &&& 255 = v % 2 ^ 8 := Nat.and_two_pow_sub_one_eq_mod v 8
  rw [Nat.sub_self, Nat.and_zero, Nat.zero_add, hlow]
  exact BitVec.eq_of_toNat_eq (by simp)

/-- A byte written whole by a copy: memory is then as the record of the write leaves it (17 R276). -/
theorem writeOut_one_byte (s : State) (c : CopyCmd) {e : OutByte} (hmask : e.mask = 255) (l : Nat) :
    (s.writeOut c [e]).1.byte l
      = ((s.setByte e.loc (BitVec.ofNat 8 e.val)).wrote s (some (c.owner, c.id)) [e.loc]).byte l := by
  unfold State.writeOut
  dsimp only [List.foldl_cons, List.foldl_nil, List.map_cons, List.map_nil]
  rw [hmask, ofNat_whole, (clearWhole_sameElems _ _ _).byte]
  exact (foldl_related sameElems_refl sameElems_trans (fun s _ => setMark_sameElems s _ true) _ _).byte l

/-! The copy -/

/-- A virtual page for which the shared TLB holds a writable entry, to the frame of the table at `tablePa`. -/
def tableVa : Nat := 2 ^ 24

/-- A started copy of one byte within that page, onto the low byte of the table's entry 0. -/
def leafCopy : CopyCmd where
  id := 1
  owner := 0
  fn := 0
  eng := false
  die := 0
  blk := [mkWord (tableVa + 8), mkWord tableVa, 1, 0, 0, 0, 0, 0]
  blkLoc := coreLoc 0 0 0
  cls := 0
  asid := 1
  accepted := true
  started := true

/-- The machine of `unmapped`, in which the context has issued that copy behind its collective; the byte to be copied
is b. -/
def copying (b : Byte) : State :=
  { unmapped with
    mem := [(hbmLoc 0 (tablePa + 3), 2), (hbmLoc 0 (tablePa + 8), b)]
    xl := { unmapped.xl with
      shared := [{ asid := 1, va := tableVa, bits := 12, pa := tablePa, w := true, u := true, g := false, d := true }] }
    core := { unmapped.core with copies := [leafCopy] } }

/-- The table lies in HBM, where no refresh window stands. -/
theorem wsBlocked_table (s : State) : s.wsBlocked (8 * (hbmLoc 0 tablePa / 8)) = false := by
  have hwhere : (whereLoc (8 * (hbmLoc 0 tablePa / 8)) == Where.ws) = false := by decide
  rw [State.wsBlocked, hwhere, Bool.false_and, Bool.false_and]

section
variable (b : Byte) (h : b = 3 ∨ b = 7)
include h

/-- The segment is the byte b, for the low byte of the entry. -/
theorem gatherSegment_copying_out : ∃ e : OutByte, ((copying b).gatherSegment leafCopy).out = [e]
    ∧ e.loc = hbmLoc 0 tablePa ∧ e.val = b.toNat ∧ e.mask = 255 ∧ e.src = [] ∧ e.aux = [] := by
  have hfields : ((copying b).gatherSegment leafCopy).out.map (·.loc) = [hbmLoc 0 tablePa]
      ∧ ((copying b).gatherSegment leafCopy).out.map (·.val) = [b.toNat]
      ∧ ((copying b).gatherSegment leafCopy).out.map (·.mask) = [255]
      ∧ ((copying b).gatherSegment leafCopy).out.map (·.src) = [[]]
      ∧ ((copying b).gatherSegment leafCopy).out.map (·.aux) = [[]] := by
    obtain rfl | rfl := h <;> decide +kernel
  obtain ⟨hloc, hval, hmask, hsrc, haux⟩ := hfields
  obtain ⟨e, he, hloc⟩ := List.map_eq_singleton_iff.mp hloc
  rw [he] at hval hmask hsrc haux
  exact ⟨e, he, hloc, List.singleton_inj.mp hval, List.singleton_inj.mp hmask, List.singleton_inj.mp hsrc,
    List.singleton_inj.mp haux⟩

/-- Gathering it changes nothing, meets no fault and finds no bank shut. -/
theorem gatherSegment_copying_passes : ((copying b).gatherSegment leafCopy).s = copying b
    ∧ ((copying b).gatherSegment leafCopy).fault = false
    ∧ (((copying b).gatherSegment leafCopy).lines ++ hbmLines ((copying b).gatherSegment leafCopy).out).any
        (copying b).hbmShut = false := by
  obtain rfl | rfl := h <;> decide +kernel

/-- Before the write the page of the destination is not present, so no rule forbids the copy the entry. -/
theorem copying_unnoted : Unnoted (copying b) (some (leafCopy.owner, leafCopy.id)) (hbmLoc 0 tablePa) :=
  ⟨by obtain rfl | rfl := h <;> decide +kernel, fun _ hmem => absurd hmem List.not_mem_nil⟩

/-- With the entry made valid the destination is the frame in which the entry itself lies. -/
theorem copying_locked_after_leaf :
    (((copying b).unpark 1 []).setByte (hbmLoc 0 tablePa) (BitVec.ofNat 8 b.toNat)).locked (some
      (leafCopy.owner, leafCopy.id)) (hbmLoc 0 tablePa) = true := by
  obtain rfl | rfl := h <;> decide +kernel

/-- The byte that the copy wrote into the entry is a free one. -/
theorem byte_copySegment_copying :
    ((copying b).copySegment 1).byte (hbmLoc 0 tablePa) = (Config.freeWord 0).extractLsb' 0 8 := by
  obtain ⟨e, he, hloc, hval, hmask, hsrc, haux⟩ := gatherSegment_copying_out b h
  obtain ⟨hsame, hfault, hshut⟩ := gatherSegment_copying_passes b h
  have hmem := copySegment_untagged_mem (s := copying b) (id := 1) (c := leafCopy) rfl rfl rfl hfault hshut rfl rfl rfl
    (he ▸ List.cons_ne_nil e []) (fun _ => rfl) (by simp [he, hloc, hsrc, haux, wsBlocked_table])
  rw [hsame, he] at hmem
  calc ((copying b).copySegment 1).byte (hbmLoc 0 tablePa)
    _ = (((copying b).unpark 1 []).writeOut leafCopy [e]).1.byte (hbmLoc 0 tablePa) := by
      rw [State.byte, hmem, State.byte]
    _ = _ := writeOut_one_byte _ _ hmask _
    _ = (Config.freeWord 0).extractLsb' 0 8 := by
      rw [hloc, hval]
      exact byte_wrote_locked rfl (copying_locked_after_leaf b h)

end

/-- Refutes O38: `wrote` asks which bytes are locked in the state after the segment is written, and a copy onto a
page-table entry may itself map the destination of an unpinned collective to the written place. In `copying leafByte`
nothing forbids the copy its destination, and yet the byte there is not the source's after it. -/
theorem not_copyCommands : ¬ Obligations.CopyCommands := by
  unfold Obligations.CopyCommands
  intro h
  obtain ⟨-, -, hsteps⟩ := h
  obtain ⟨-, -, -, hwrite, -⟩ := hsteps (copying leafByte) leafCopy rfl
  obtain ⟨e, he, hloc, hval, hmask, hsrc, haux⟩ := gatherSegment_copying_out leafByte leafByte_cases
  obtain ⟨-, hfault, hshut⟩ := gatherSegment_copying_passes leafByte leafByte_cases
  have hall : ∀ {p : OutByte → Prop}, p e → ∀ b ∈ ((copying leafByte).gatherSegment leafCopy).out, p b := fun hp b hb =>
    List.mem_singleton.mp (he ▸ hb) ▸ hp
  obtain ⟨t, x, hexec, -, -, -, -, -, -, -, hbytes⟩ := hwrite rfl hfault rfl rfl
    ⟨e, he ▸ List.mem_singleton_self e, List.not_mem_nil⟩
    (fun l hl => eq_false_of_ne_true (List.any_eq_false.mp hshut l hl))
    (hall ⟨hloc ▸ copying_unnoted leafByte leafByte_cases, by rw [hloc, wsBlocked_table], by simp [hsrc, haux]⟩)
  obtain rfl : (copying leafByte).copySegment 1 = t := Host.Outcome.next.inj hexec
  have hwritten := hbytes e (he ▸ List.mem_singleton_self e) (by simp [he]) List.not_mem_nil rfl
  rw [hloc, hmask, hval, ofNat_whole, BitVec.ofNat_toNat, BitVec.setWidth_eq,
    byte_copySegment_copying leafByte leafByte_cases] at hwritten
  exact leafByte_ne_drawn hwritten.symm

end Sys2Proof.CopyProofs

/-! ### Exceptions: taking one, DTRAP, freezing and returning (13 R217, R222, R224, R228, R229; 14 R233; 20 R304) -/

namespace Sys2Proof.TrapProofs

open Sys2Proof Sys2Proof.Machine Sys2Proof.Safety Sys2Proof.Laws Sys2Proof.ControlProofs Sys2Proof.BankProofs

/-! What the landing of results may change -/

/-- From s to t results have landed: registers, tables and special registers of the running context, the counters and
the emergency area of the core, the time, and the count of free values may differ, and nothing else does (03 R31). -/
def Lands (s t : State) : Prop :=
  t = { s with
    fv := t.fv, ftime := t.ftime, ftPhase := t.ftPhase
    core := { s.core with mc := t.core.mc, emerg := t.core.emerg }
    cx := { s.cx with
      regs := t.cx.regs, preds := t.cx.preds, pend := t.cx.pend, descs := t.cx.descs, chains := t.cx.chains
      latches := t.cx.latches, fms := t.cx.fms, scs := t.cx.scs, slack := t.cx.slack, allow := t.cx.allow
      lbeg := t.cx.lbeg, lend := t.cx.lend, lcnt := t.cx.lcnt, flags := t.cx.flags, acchk := t.cx.acchk
      tcx := t.cx.tcx, tcy := t.cx.tcy, tcz := t.cx.tcz, tcause := t.cx.tcause, tbadr := t.cx.tbadr
      tval := t.cx.tval, thand := t.cx.thand, lqwait := t.cx.lqwait, lotflags := t.cx.lotflags
      ptbase := t.cx.ptbase, asid := t.cx.asid, ctxsave := t.cx.ctxsave } }

theorem lands_refl (s : State) : Lands s s := rfl

theorem lands_trans {s t u : State} (h : Lands s t) (k : Lands t u) : Lands s u := by
  rw [Lands] at h k ⊢
  rw [h] at k
  exact k

theorem setSpecial_lands (s : State) (n : Nat) (v : Word) (p : Bool) : Lands s (s.setSpecial n v p) := by
  unfold State.setSpecial
  (repeat' split) <;> rfl

theorem applyWrite_lands (s : State) (w : Write) : Lands s (s.applyWrite w) := by
  cases w with
  | special n v p => exact setSpecial_lands s n v p
  | count d n => cases n <;> rfl
  | _ => rfl

theorem applyOne_lands (s : State) (l : List Pend) (p : Option Pend) : Lands s (s.applyOne l p) := by
  unfold State.applyOne
  split
  · rfl
  · rfl
  · rfl
  · split
    · exact lands_refl s
    · exact applyWrite_lands s _
  · exact lands_refl s

theorem applyGroup_lands (s : State) (l : List Pend) : Lands s (s.applyGroup l) := by
  unfold State.applyGroup
  split
  · exact applyOne_lands s _ _
  · exact applyOne_lands s _ _
  · exact lands_trans (t := { s with fv := s.fv + 1 }) rfl (applyOne_lands _ _ _)

theorem settleList_lands (t n : Nat) (l kept : List Pend) (s : State) : Lands s (settleList t n l kept s).1 := by
  induction n generalizing l kept s with
  | zero => exact lands_refl s
  | succ n ih =>
    cases l with
    | nil => exact lands_refl s
    | cons p l =>
      simp only [settleList]
      split
      · split
        · exact lands_trans (applyWrite_lands s _) (ih _ _ _)
        · exact ih _ _ _
      · split
        · exact lands_trans (applyGroup_lands s _) (ih _ _ _)
        · split
          · exact lands_trans (applyWrite_lands s _) (ih _ _ _)
          · exact ih _ _ _

theorem settle_lands (s : State) : Lands s s.settle :=
  lands_trans (settleList_lands s.cx.icyc s.cx.pend.length s.cx.pend [] s) rfl

theorem drain_lands (s : State) : Lands s s.drain :=
  lands_trans (settleList_lands (s.cx.pend.foldl (fun n p => Nat.max n (p.issued + p.bound)) s.cx.icyc)
    s.cx.pend.length (s.cx.pend.filter (·.w.known)) [] s) (by rfl)

section
variable {s t : State} (h : Lands s t)
include h

theorem Lands.sched : t.sched = s.sched := by rw [h]
theorem Lands.dbg : t.dbg = s.dbg := by rw [h]
theorem Lands.task : t.cx.task = s.cx.task := by rw [h]

end

/-! What a capture may change -/

/-- From s to t packets have left the core and accesses have been withdrawn (06 R110; 16 R257, R261). -/
def Withdraws (s t : State) : Prop :=
  t = { s with
    core := t.core, fab := t.fab, hbm := t.hbm
    cx := { s.cx with accs := t.cx.accs, withdrawn := t.cx.withdrawn } }

theorem withdraws_trans {s t u : State} (h : Withdraws s t) (k : Withdraws t u) : Withdraws s u := by
  rw [Withdraws] at h k ⊢
  rw [h] at k
  exact k

theorem withdraws_foldl {α : Type} {f : State → α → State} (hf : ∀ s x, Withdraws s (f s x)) (l : List α)
    (s : State) : Withdraws s (l.foldl f s) := by
  induction l generalizing s with
  | nil => rfl
  | cons x l ih => exact withdraws_trans (hf s x) (ih (f s x))

theorem sendPacket_withdraws (s : State) (p : Packet) : Withdraws s (s.sendPacket p) := rfl

theorem flushLine_withdraws (s : State) (l : Line) : Withdraws s (s.flushLine l) := rfl

theorem flushLines_withdraws (s : State) (p : Line → Bool) : Withdraws s (s.flushLines p) :=
  withdraws_foldl flushLine_withdraws _ s

theorem withdrawAll_withdraws (s : State) : Withdraws s s.withdrawAll := by
  unfold State.withdrawAll
  exact withdraws_trans (by rfl) (withdraws_foldl (fun t _ => sendPacket_withdraws t _) _ _)

section
variable {s t : State} (h : Withdraws s t)
include h

theorem Withdraws.sched : t.sched = s.sched := by rw [h]
theorem Withdraws.dbg : t.dbg = s.dbg := by rw [h]
theorem Withdraws.task : t.cx.task = s.cx.task := by rw [h]
theorem Withdraws.regs : t.cx.regs = s.cx.regs := by rw [h]

end

/-- What a capture keeps, and the registers it leaves: those drained, without taint (03 R34, 05 R82). -/
structure Captured (s t : State) : Prop where
  sched : t.sched = s.sched
  dbg : t.dbg = s.dbg
  task : t.cx.task = s.cx.task
  regs : t.cx.regs = s.drain.cx.regs.map (fun r => { r with taint := [] })

theorem capture_captures (s : State) : Captured s s.capture := by
  have hd := drain_lands s
  have hw := withdraws_trans (flushLines_withdraws s.drain (fun l => l.owner == s.drain.cx.uid))
    (withdrawAll_withdraws _)
  unfold State.capture
  dsimp only
  generalize State.withdrawAll _ = t at hw ⊢
  refine ⟨hw.sched.trans hd.sched, hw.dbg.trans hd.dbg, hw.task.trans hd.task, ?_⟩
  rw [← hw.regs]
  rfl

/-! What a walk through the tables may change -/

/-- From s to t tables have been walked: memory, the TLBs and the count of free values may differ (13 R211, R212). -/
def Walks (s t : State) : Prop := t = { s with mem := t.mem, fv := t.fv, xl := t.xl }

theorem walks_refl (s : State) : Walks s s := rfl

theorem walks_trans {s t u : State} (h : Walks s t) (k : Walks t u) : Walks s u := by
  rw [Walks] at h k ⊢
  rw [h] at k
  exact k

section
variable {s t : State} (h : Walks s t)
include h

theorem Walks.cx : t.cx = s.cx := by rw [h]
theorem Walks.sh : t.sh = s.sh := by rw [h]
theorem Walks.core : t.core = s.core := by rw [h]
theorem Walks.shSt : t.shSt = s.shSt := by rw [h]
theorem Walks.cxSt : t.cxSt = s.cxSt := by rw [h]

end

theorem setBytes_walks (s : State) (loc : Nat) (l : List Byte) : Walks s (s.setBytes loc l) := by
  rw [Walks, setBytes_only]

theorem setWord_walks (s : State) (loc : Nat) (v : Word) : Walks s (s.setWord loc v) := setBytes_walks s loc _

theorem spanEntry_walks (s : State) (loc : Nat) (e : Word) (n : Nat) : Walks s (s.spanEntry loc e n).2 := by
  unfold State.spanEntry
  split
  · dsimp only
    split <;> exact rfl
  · exact walks_refl s

theorem walkFrom_walks (va : Word) (asid : Nat) (write priv : Bool) (n table : Nat) (s : State) :
    Walks s (walkFrom va asid write priv n table s).2 := by
  induction n generalizing table s with
  | zero =>
    unfold walkFrom
    dsimp only
    split
    · exact walks_refl s
    · split
      · exact walks_refl s
      · exact walks_trans (spanEntry_walks s _ _ _) (setWord_walks _ _ _)
      · exact walks_refl s
  | succ n ih =>
    unfold walkFrom
    dsimp only
    split
    · exact walks_refl s
    · split
      · exact walks_refl s
      · exact walks_trans (spanEntry_walks s _ _ _) (setWord_walks _ _ _)
      · exact walks_trans (t := s.cacheWalk _ _ _ _) rfl (ih _ _)

theorem translate_walks (s : State) (ptbase asid : Nat) (va : Word) (write priv : Bool) :
    Walks s (s.translate ptbase asid va write priv).2 := by
  unfold State.translate
  split
  · exact walks_refl s
  · dsimp only
    have hw := walkFrom_walks va asid write priv (s.walkStart ptbase asid va).1 (s.walkStart ptbase asid va).2 s
    generalize walkFrom _ _ _ _ _ _ _ = r at hw ⊢
    split
    · exact walks_trans hw rfl
    · exact hw

theorem writeHeader_walks (s : State) (r : FaultRec) : Walks s (s.writeHeader r) := by
  have ht := translate_walks s s.cx.ptbase.toNat s.cx.asid.toNat s.cx.ctxsave true true
  unfold State.writeHeader
  split
  · exact walks_refl s
  · split
    · next heq =>
      rw [heq] at ht
      exact walks_trans ht (setBytes_walks _ _ _)
    · exact walks_refl s

/-! Taking an exception -/

/-- 24 cycles are counted, whatever the count was before. -/
theorem ticks_cyc_pos (n : Nat) (s : State) : (State.ticks (n + 1) s).cyc = (s.cyc + (n + 1)) % 2 ^ 64 := by
  have hlow : s.tick.cyc < 2 ^ 64 := by rw [tick_cyc]; exact Nat.mod_lt _ (by decide)
  rw [State.ticks, ticks_cyc n s.tick hlow, tick_cyc]
  omega

/-- Where a handler stands ready the cause is recorded and 24 cycles pass (13 R217). -/
theorem trap_taken {s : State} {cause : Nat} {tval resume : Word} {done : Bool} (hset : s.drain.cx.thand ≠ 0)
    (hidle : s.drain.cx.tcause.getLsbD 10 = false) :
    ∃ u : State, s.trap cause tval done resume = State.ticks 24 u ∧ u.cyc = s.drain.cyc ∧ u.sh = s.drain.sh
      ∧ u.sched = s.drain.sched := by
  rw [State.trap]
  generalize s.drain = d at hset hidle ⊢
  have hc : ¬ (d.cx.thand == 0 || d.cx.tcause.getLsbD 10) = true := by
    rw [hidle, Bool.or_false]; simpa using hset
  rw [if_neg hc]
  exact ⟨_, rfl, rfl, rfl, rfl⟩

/-- Settles O25: the context is the one `trap_handler` gives, and the rest is left alone by the 24 cycles. -/
theorem trapEntry : Obligations.TrapEntry := by
  intro s cause tval completion resume
  dsimp only
  intro hset hidle
  obtain ⟨hcx, hctl, hmem, hempties, hmarks⟩ :=
    trap_handler (cause := cause) (tval := tval) (resume := resume) (done := completion) hset hidle
  obtain ⟨u, hu, hcyc, hsh, hsched⟩ :=
    trap_taken (cause := cause) (tval := tval) (resume := resume) (done := completion) hset hidle
  obtain ⟨dmem, dempties, dmarks⟩ := drain_sameMem s
  refine ⟨hcx, hctl, ?_, hmem.trans dmem.symm, hempties.trans dempties.symm, hmarks.trans dmarks.symm, ?_, ?_⟩
  · rw [hu, ticks_cyc_pos, hcyc]
  · rw [hu, ticks_sh, hsh]
  · rw [hu, ticks_sched, hsched]

/-! DTRAP -/

/-- DTRAP ends the task of the context with reason 2; what led to it has changed neither the banks' states, nor the
nodes, nor the task (13 R217, 14 R233). -/
theorem dtrap_ends (s : State) (cause : Nat) (tval : Word) :
    ∃ u : State, s.dtrap cause tval = u.endTask (some 2) ∧ u.shSt = s.shSt ∧ u.sched = s.sched
      ∧ u.cx.task = s.cx.task := by
  have hsame := capture_sameContexts s
  obtain ⟨hsched, -, htask, -⟩ := capture_captures s
  unfold State.dtrap
  extract_lets r c w
  have hw : Walks c w := writeHeader_walks c r
  rw [Walks] at hw
  refine ⟨_, rfl, ?_, ?_, ?_⟩
  · exact (congrArg State.shSt hw).trans hsame.shSt
  · exact (congrArg State.sched hw).trans hsched
  · exact (congrArg (·.cx.task) hw).trans htask

/-! Freezing -/

/-- A context as a freeze leaves it: captured, with its fault record (13 R222). -/
def frozen (s : State) (r : FaultRec) : State :=
  let t := (s.record 2 r.cause 0 r.badr 0).capture
  { t with cx := { t.cx with fault := some r } }

theorem freeze_eq (s : State) (r : FaultRec) : s.freeze r = (frozen s r).leave .held 2 := rfl

theorem record_sameContexts (s : State) (k n c : Nat) (x y : Word) : SameContexts s (s.record k n c x y) := by
  rw [record_only]
  exact ⟨rfl, rfl, rfl, rfl, rfl, rfl⟩

theorem frozen_sameContexts (s : State) (r : FaultRec) : SameContexts s (frozen s r) := by
  have h := sameContexts_trans (record_sameContexts s 2 r.cause 0 r.badr 0) (capture_sameContexts _)
  unfold frozen
  generalize State.capture _ = t at h ⊢
  exact ⟨h.sh, h.shSt, h.cxSt, h.bank, h.uid, h.pc⟩

theorem frozen_fault (s : State) (r : FaultRec) : (frozen s r).cx.fault = some r := rfl

theorem frozen_captured (s : State) (r : FaultRec) : (frozen s r).cx.captured = true := by
  have h := capture_captured (s.record 2 r.cause 0 r.badr 0)
  unfold frozen
  generalize State.capture _ = t at h ⊢
  exact h

/-- Settles O26: a cause without a ready handler is `dtrap` (`trap_double`), whose task ends (`endTask_over`); a frozen
context leaves its bank. -/
theorem dtrapAndFreeze : Obligations.DtrapAndFreeze := by
  refine ⟨fun s cause tval completion resume hnone => ?_, fun s r => ⟨fun hidle => ?_, fun hready => ?_⟩⟩
  · have hdtrap := trap_double (cause := cause) (tval := tval) (resume := resume) (done := completion) hnone
    obtain ⟨u, hu, hshSt, hsched, htask⟩ := dtrap_ends s.drain cause tval
    obtain ⟨hcounted, hidle, -⟩ := endTask_over u (some 2)
    rw [hshSt, (drain_sameContexts s).shSt] at hidle
    rw [hsched, (drain_lands s).sched, htask, (drain_lands s).task] at hcounted
    refine ⟨hdtrap, ?_, fun n hn hgen hdone hfailed hclean => ?_⟩
    · rw [hdtrap, hu]
      exact hidle
    · rw [hdtrap, hu]
      have hmem := hcounted n hn hgen hdone hfailed
      rwa [hclean] at hmem
  · have hne : (frozen s r).shSt ≠ .ready := (frozen_sameContexts s r).shSt.trans_ne hidle
    rw [freeze_eq, leave_idle hne]
    exact ⟨rfl, frozen_fault s r, frozen_captured s r, rfl⟩
  · have hsame := frozen_sameContexts s r
    obtain ⟨hrun, hheld, hbank, -, hold, -⟩ := leave_contexts (hsame.shSt.trans hready) .held 2
    rw [freeze_eq, hold, hheld, hrun, hbank, hsame.bank]
    exact ⟨rfl, frozen_fault s r, frozen_captured s r, rfl, rfl⟩

/-! Returning from an exception -/

/-- Settles O27: `ERET` and `ERET.to` are legal in a handler alone, and a bad target is a branch's. -/
theorem exceptionReturn : Obligations.ExceptionReturn := by
  intro s a
  refine ⟨fun hout => ?_, fun hin => ?_⟩
  · have hill : (!s.cx.tcause.getLsbD 10) = true := by rw [hout]; rfl
    exact ⟨(IssueProofs.exec_firstCauses (x := eretWord) s rfl).1 hill,
      (IssueProofs.exec_firstCauses (x := eretToWord a) s rfl).1 hill⟩
  · have hlegal : (!s.cx.tcause.getLsbD 10) = false := by rw [hin]; rfl
    dsimp only
    refine ⟨exec_effect (x := eretWord) rfl hlegal rfl rfl rfl, fun hpoison => ?_, fun hclean => ?_⟩
    · exact IssueProofs.exec_trap (x := eretToWord a) rfl hlegal rfl rfl (IssueProofs.poisonCheck_poisoned s a hpoison)
    · rw [exec_effect (x := eretToWord a) rfl hlegal rfl rfl (poisonCheck_clean s a hclean)]
      refine ⟨fun hok => ?_, fun hbad => ?_⟩
      · have htarget : s.targetOk (s.cx.sreg a).val = true := by simp [State.targetOk, hok]
        exact congrArg Host.Outcome.next (if_pos htarget)
      · have htarget : ¬ s.targetOk (s.cx.sreg a).val = true := by simpa [State.targetOk] using hbad
        refine congrArg Host.Outcome.next ((if_neg htarget).trans (branchTo_bad ?_))
        simpa [imp_iff_not_or] using hbad

/-! `TRAP`, `BRK` and `SVC` -/

theorem stopCovers_eq_false {s : State} (h : ∀ p c, s.dbg.stopHolder = some p → (p, c) ∈ s.dbg.caps →
    c.asid ≠ s.cx.asid.toNat) : s.stopCovers = false := by
  rw [State.stopCovers, List.any_eq_false]
  rintro ⟨p, c⟩ hmem hcovers
  simp only [Bool.and_eq_true, beq_iff_eq] at hcovers
  exact h p c hcovers.1 hmem hcovers.2

theorem stopCovers_eq_true {s : State} {p : Nat} {c : Cap} (hholder : s.dbg.stopHolder = some p)
    (hmem : (p, c) ∈ s.dbg.caps) (hasid : c.asid = s.cx.asid.toNat) : s.stopCovers = true := by
  rw [State.stopCovers, List.any_eq_true]
  exact ⟨(p, c), hmem, by simp [hholder, hasid]⟩

/-- The loop test changes the loop count alone (05 R93). -/
theorem loopNext_only (s : State) :
    s.loopNext.1 = { s with cx := { s.cx with lcnt := s.loopNext.1.cx.lcnt } } := by
  unfold State.loopNext
  dsimp only
  split
  · split <;> rfl
  · rfl

/-- A result lands in the same way whatever the debugger holds. -/
theorem applyWrite_dbg (s : State) (d : DbgSt) (w : Write) :
    ({ s with dbg := d } : State).applyWrite w = { s.applyWrite w with dbg := d } := by
  cases w with
  | special n v p =>
    simp only [State.applyWrite, State.setSpecial]
    split <;> first | rfl | (split <;> rfl)
  | count r n => cases n <;> rfl
  | _ => rfl

theorem specialNow_dbg (s : State) (d : DbgSt) (n : Nat) :
    ({ s with dbg := d } : State).specialNow n = s.specialNow n := by
  simp only [State.specialNow, applyWrite_dbg]
  rfl

/-- The address that the loop test chooses (05 R93). -/
theorem loopNext_addr (s : State) : s.loopNext.2 =
    if (s.nextAddr == s.specialNow 0x021 && s.specialNow 0x022 != 0) && s.specialNow 0x022 != 1 then s.specialNow 0x020
    else s.nextAddr := by
  unfold State.loopNext
  dsimp only
  by_cases hend : (s.nextAddr == s.specialNow 0x021 && s.specialNow 0x022 != 0) = true
  · rw [if_pos hend, hend, Bool.true_and]
    by_cases hone : (s.specialNow 0x022 == 1) = true
    · rw [if_pos hone, bne, hone]
      rfl
    · rw [if_neg hone, bne, Bool.eq_false_of_not_eq_true hone]
      rfl
  · rw [if_neg hend, Bool.eq_false_of_not_eq_true hend]
    rfl

/-- A trace record does not change the address that the loop test chooses. -/
theorem loopNext_record (s : State) (k n c : Nat) (x y : Word) :
    (s.record k n c x y).loopNext.2 = s.loopNext.2 := by
  rw [record_only, loopNext_addr, loopNext_addr]
  simp only [specialNow_dbg]
  rfl

/-- The end of a bundle leaves the stop of the core with its holder. -/
theorem advance_stopHolder (s : State) (a : Word) : (s.advance a).dbg.stopHolder = s.dbg.stopHolder := by
  have htick : s.tick.dbg.stopHolder = s.dbg.stopHolder := by rw [tick_only s]
  exact (congrArg DbgSt.stopHolder (settle_lands _).dbg).trans htick

/-- A context stopped for the debugger is held, captured, and stopped by the holder of the core's stop (20 R304). -/
theorem stopHere_stops (s : State) (sub code : Nat) :
    (s.stopHere sub code).cxSt = .held ∧ (s.stopHere sub code).cx.captured = true
    ∧ (s.stopHere sub code).cx.stop = s.dbg.stopHolder := by
  have hholder : (s.record 3 sub code s.badr 0).capture.dbg.stopHolder = s.dbg.stopHolder := by
    rw [(capture_captures _).dbg]
    unfold State.record State.recordFor
    (repeat' split) <;> rfl
  have hcap := capture_captured (s.record 3 sub code s.badr 0)
  unfold State.stopHere
  dsimp only
  generalize State.capture _ = t at hholder hcap ⊢
  exact ⟨rfl, hcap, hholder⟩

theorem exec_brk (s : State) (n : BitVec 14) : exec (.brk n) s = .next (
    if s.stopCovers && !s.cx.tcause.getLsbD 10 then
      (s.loopNext.1.advance s.loopNext.2).stopHere 2 n.toNat
    else s.trapDone 11 (n.zeroExtend 64)) := exec_effect (x := brkWord n) rfl rfl rfl rfl rfl

theorem exec_trap (s : State) (n : BitVec 14) : exec (.trap n) s = .next (s.trapDone 10 (n.zeroExtend 64)) := by
  rw [exec_effect (x := trapWord n) rfl rfl rfl rfl rfl]
  simp only [trapWord]

theorem exec_svc (s : State) (n : BitVec 14) : exec (.svc n) s = .next ((s.loopNext.1.advance s.loopNext.2).freeze
    { cause := 17, words := s.bundle.length, code := n.toNat, badr := s.badr }) := by
  rw [exec_effect (x := svcWord n) rfl rfl rfl rfl rfl]
  simp only [svcWord]

/-- Settles O28: each word is its effect, and `BRK` stops the context where `stopCovers` says so. -/
theorem trapBrkSvc : Obligations.TrapBrkSvc := by
  intro s n
  refine ⟨exec_trap s n, fun hnone => ?_, fun p c hholder hmem hasid hout => ?_,
    exec_svc s n, fun c tval => ?_⟩
  · have hnot : ¬ (s.stopCovers && !s.cx.tcause.getLsbD 10) = true := by
      rcases hnone with huncovered | hhandler
      · simp [stopCovers_eq_false huncovered]
      · simp [hhandler]
    rw [exec_brk, if_neg hnot]
  · have hcovers : (s.stopCovers && !s.cx.tcause.getLsbD 10) = true := by
      rw [stopCovers_eq_true hholder hmem hasid, hout]; rfl
    obtain ⟨hheld, hcap, hstop⟩ := stopHere_stops (s.loopNext.1.advance s.loopNext.2) 2 n.toNat
    rw [exec_brk, if_pos hcovers]
    refine ⟨_, rfl, hheld, hcap, ?_⟩
    rw [hstop, advance_stopHolder, loopNext_only]
    exact hholder
  · simp only [State.trapDone, State.recordTrap, Bool.or_eq_true, decide_eq_true_eq, loopNext_record]

/-! `SWAPC` and `TLBINV` -/

theorem swapc_ready {s : State} (hpriv : s.cx.priv = true) (hready : s.shSt = .ready) :
    exec .swapc s = .next (s.loopNext.1.giveWay s.loopNext.2 3) := by
  rw [exec_effect (x := swapcWord) rfl rfl rfl (by simp [swapcWord, hready]) (IssueProofs.privCheck_privileged hpriv)]
  exact congrArg Host.Outcome.next (if_pos (by rw [hready]; rfl))

/-- `TLBINV` keeps the entries that its form does not drop (13 R230). -/
theorem tlbinv_eq (s : State) (t : Nat) (v : Word) {keep : TlbEnt → Bool} (h : ∀ e, (!tlbDropped t v e) = keep e) :
    s.tlbinv t v = { s with
      xl := { micro := s.xl.micro.filter keep, shared := s.xl.shared.filter keep, walks := [] }
      cx := { s.cx with tlbWait := some s.globalIds, tlbSegs := s.openSegs } } := by
  obtain rfl : (fun e => !tlbDropped t v e) = keep := funext h
  rfl

/-- Settles O30: `SWAPC` by the state of the shadow bank, `TLBINV` by what each form drops. -/
theorem bankSwitchAndTlbDrop : Obligations.BankSwitchAndTlbDrop := by
  refine ⟨fun s hpriv => ⟨fun hfilling => ?_, fun hnot hidle => ?_, fun hready => ?_⟩, fun s a hpriv => ?_⟩
  · have hstall : swapcWord.stall s [] 0 = true := by simp [swapcWord, hpriv, hfilling]
    rw [exec_word (w := swapcWord) rfl, issueWord_stall rfl (popped_zero s) hstall]
    rfl
  · rw [exec_effect (x := swapcWord) rfl rfl rfl (by simp [swapcWord, hnot]) (IssueProofs.privCheck_privileged hpriv)]
    exact congrArg Host.Outcome.next (if_neg (by simpa using hidle))
  · have hsame : s.loopNext.1.shSt = s.shSt ∧ s.loopNext.1.bank = s.bank ∧ s.loopNext.1.sh = s.sh
        ∧ s.loopNext.1.cx.uid = s.cx.uid := by
      rw [loopNext_only]
      exact ⟨rfl, rfl, rfl, rfl⟩
    obtain ⟨hshSt, hbank, hsh, huid⟩ := hsame
    obtain ⟨-, hturn, hst, hrun, hnew, hold, hcap, -⟩ := giveWay_ready (hshSt.trans hready) s.loopNext.2 3
    rw [swapc_ready hpriv hready]
    exact ⟨_, rfl, by rw [hturn, hbank], hrun, hst, by rw [hnew, hsh], by rw [hold, huid], hcap⟩
  · have hcheck := IssueProofs.privCheck_privileged hpriv
    refine ⟨?_, ?_, fun hclean => ⟨?_, ?_⟩⟩
    · rw [exec_effect (x := tlbinvAllWord) rfl rfl rfl rfl hcheck]
      exact congrArg Host.Outcome.next (tlbinv_eq s 3 0 fun e => rfl)
    · rw [exec_effect (x := tlbinvLocalWord) rfl rfl rfl rfl hcheck]
      exact congrArg Host.Outcome.next (tlbinv_eq s 2 0 fun e => Bool.not_not e.g)
    · rw [exec_effect (x := tlbinvAsidWord a) rfl rfl rfl rfl (by
        simp only [tlbinvAsidWord, hcheck, poisonCheck_clean s a hclean]; rfl)]
      refine congrArg Host.Outcome.next (tlbinv_eq s 1 _ fun e => ?_)
      simp [tlbDropped, bitsOf, bne]
    · rw [exec_effect (x := tlbinvPageWord a) rfl rfl rfl rfl (by
        simp only [tlbinvPageWord, hcheck, poisonCheck_clean s a hclean]; rfl)]
      refine congrArg Host.Outcome.next (tlbinv_eq s 0 _ fun e => ?_)
      simp [tlbDropped, bitsOf]

end Sys2Proof.TrapProofs

/-! ### Faults, interrupts, switches, spills and fills (13 R216, R222, R224 to R227, R230) -/

namespace Sys2Proof.FaultProofs

open Sys2Proof Sys2Proof.Machine Sys2Proof.Safety Sys2Proof.Laws Sys2Proof.BankProofs Sys2Proof.TrapProofs

/-! Restored contexts -/

/-- A restore keeps the registers that the context declared (03 R35, 05 R75). -/
theorem restore_regs (s : State) {k : Fin 64} (h : savedReg s.cx.task.regsN k.val = true) :
    s.restore.cx.regs[k] = s.cx.regs[k] := by
  simp [State.restore, h]

theorem restore_captured (s : State) : s.restore.cx.captured = false := by simp only [State.restore]
theorem restore_pc (s : State) : s.restore.cx.pc = s.cx.pc := by simp only [State.restore]
theorem restore_fault (s : State) : s.restore.cx.fault = s.cx.fault := by simp only [State.restore]
theorem restore_replay (s : State) : s.restore.cx.replay = s.cx.replay := by simp only [State.restore]

/-- A context that resumes has no fault, and what it holds is translated anew (13 R222). -/
theorem resumed_replay {c : Ctx} {r : Replay} (h : c.resumed.replay = some r) : r.result = .running := by
  obtain ⟨r', -, rfl⟩ := Option.map_eq_some_iff.mp h
  rfl

/-! The firmware's decision -/

/-- Whether a bank's context waits for the firmware's decision on its fault. -/
def Awaits (b : BankSt) (c : Ctx) : Prop := b = .held ∧ c.fault.isSome = true ∧ c.stop = none

theorem awaits_iff (b : BankSt) (c : Ctx) :
    (b == .held && c.fault.isSome && c.stop.isNone) = true ↔ Awaits b c := by
  simp [Awaits, and_assoc]

/-- The running bank's context as it is resumed. -/
def resumedHere (s : State) : State := { s with cx := s.cx.resumed, cxSt := .running, stalled := false }

theorem faultResolve_running {s : State} (h : Awaits s.cxSt s.cx) (kill : Bool) :
    s.faultResolve kill = if kill then s.endTask (some 8) else (resumedHere s).restore :=
  if_pos ((awaits_iff _ _).mpr h)

theorem faultResolve_shadow {s : State} (hnot : ¬ Awaits s.cxSt s.cx) (h : Awaits s.shSt s.sh) (kill : Bool) :
    s.faultResolve kill = if kill then s.endShadow (some 8) else { s with sh := s.sh.resumed, shSt := .ready } :=
  (if_neg (mt (awaits_iff _ _).mp hnot)).trans (if_pos ((awaits_iff _ _).mpr h))

theorem faultResolve_saved {s : State} (hcx : ¬ Awaits s.cxSt s.cx) (hsh : ¬ Awaits s.shSt s.sh) {va : Nat} {c : Ctx}
    (h : s.core.saved.find? (fun e => e.2.fault.isSome) = some (va, c)) (kill : Bool) :
    s.faultResolve kill = if kill then s.endSaved va c (some 8) else { s with core := { s.core with
      saved := s.core.saved.map (fun e => if e.1 == va then (e.1, e.2.resumed) else e) } } := by
  refine ((if_neg (mt (awaits_iff _ _).mp hcx)).trans (if_neg (mt (awaits_iff _ _).mp hsh))).trans ?_
  rw [h]

/-! Tasks that end outside the running bank -/

/-- The save areas hold the contexts of the same addresses, and the spill engine is as it was. -/
structure SameAreas (s t : State) : Prop where
  keys : t.core.saved.map (·.1) = s.core.saved.map (·.1)
  filling : t.core.filling = s.core.filling

theorem sameAreas_trans {s t u : State} (h : SameAreas s t) (k : SameAreas t u) : SameAreas s u :=
  ⟨k.keys.trans h.keys, k.filling.trans h.filling⟩

theorem freeRange_sameAreas (s : State) (lo n : Nat) : SameAreas s (s.freeRange lo n) := by
  refine ⟨?_, rfl⟩
  simp [State.freeRange, State.onCtx, Function.comp_def]

theorem freeAll_sameAreas (f g : State → Grant → Nat) (l : List Grant) (s : State) :
    SameAreas s (l.foldl (fun t x => t.freeRange (f t x) (g t x)) s) := by
  induction l generalizing s with
  | nil => exact ⟨rfl, rfl⟩
  | cons x l ih => exact sameAreas_trans (freeRange_sameAreas s _ _) (ih _)

theorem releaseTask_sameAreas (s : State) : SameAreas s s.releaseTask := by
  unfold State.releaseTask
  dsimp only
  refine sameAreas_trans (sameAreas_trans ?_ (freeAll_sameAreas _ _ _ _)) ⟨rfl, rfl⟩
  exact ⟨rfl, rfl⟩

/-- The task of the shadow bank ends: the bank is empty, and the running context is the one it was. -/
theorem endShadow_spec (s : State) (r : Option Nat) :
    (s.endShadow r).shSt = .empty ∧ (s.endShadow r).cx.uid = s.cx.uid := by
  have htime := onlyTime_sameContexts (writeCharge_time s).1
  unfold State.endShadow
  dsimp only
  generalize s.writeCharge = w at htime ⊢
  have hfree := (releaseTask_released { w with cx := w.sh, sh := w.cx }).uid
  generalize State.releaseTask _ = t at hfree ⊢
  exact ⟨rfl, hfree.trans htime.uid⟩

/-- The task of a spilled context ends: its save area is given up, and the banks and the engine are as they were. -/
theorem endSaved_spec (s : State) (va : Nat) (c : Ctx) (r : Option Nat) :
    (∀ e ∈ (s.endSaved va c r).core.saved, e.1 ≠ va) ∧ (s.endSaved va c r).core.filling = s.core.filling
    ∧ (s.endSaved va c r).shSt = s.shSt := by
  have htime := (writeCharge_time s).1
  unfold State.endSaved
  dsimp only
  generalize s.writeCharge = w at htime ⊢
  have hareas := releaseTask_sameAreas { w.dropSaved va with cx := c }
  have hfree := (releaseTask_released { w.dropSaved va with cx := c }).rest
  generalize State.releaseTask _ = t at hareas hfree ⊢
  refine ⟨fun e he => ?_, hareas.filling.trans (by rw [htime]; rfl), ?_⟩
  · have hkey : e.1 ∈ t.core.saved.map (·.1) := List.mem_map_of_mem he
    rw [hareas.keys] at hkey
    obtain ⟨e', he', heq⟩ := List.mem_map.mp hkey
    rw [← heq]
    simpa using (List.mem_filter.mp he').2
  · exact (congrArg State.shSt hfree).trans (by rw [htime]; rfl)

/-! Interrupts -/

/-- The running context as an interrupt leaves it to be restored (13 R216). -/
def interrupted (s : State) : State :=
  { s.capture with cx := { s.capture.cx with replay := s.capture.cx.replay.map Replay.again }, stalled := false }

theorem interrupt_live {s : State} (h : s.live = true) : s.interrupt = (interrupted s).restore := by
  unfold State.interrupt
  rw [h]
  rfl

/-- An interrupt returns to its context, with the registers that the task declared (03 R34, R35). -/
theorem interrupt_returns {s : State} (h : s.live = true) :
    s.interrupt.cxSt = s.cxSt ∧ s.interrupt.cx.pc = s.cx.pc ∧ s.interrupt.mem = s.mem
    ∧ s.interrupt.cx.captured = false
    ∧ ∀ k : Fin 64, savedReg s.cx.task.regsN k.val = true →
      (s.interrupt.cx.regs[k]).val = (s.drain.cx.regs[k]).val ∧ (s.interrupt.cx.regs[k]).taint = [] := by
  have hsame := capture_sameContexts s
  have hmem := (capture_sameMem s).1
  obtain ⟨-, -, htask, hregs⟩ := capture_captures s
  rw [interrupt_live h]
  unfold interrupted
  generalize s.capture = t at hsame hmem htask hregs ⊢
  refine ⟨by rw [restore_cxSt]; exact hsame.cxSt, by rw [restore_pc]; exact hsame.pc,
    (restore_sameMem _).1.trans hmem, restore_captured _, fun k hk => ?_⟩
  have hreg : t.cx.regs[k] = { s.drain.cx.regs[k] with taint := [] } := by rw [hregs]; simp
  rw [restore_regs _ (by rw [← hk, ← htask])]
  dsimp only
  rw [hreg]
  exact ⟨rfl, rfl⟩

/-! The end of a `TLBINV` -/

/-- A `TLBINV` waits for accesses and for the copy segments in hand (13 R230). -/
theorem tlbinvComplete_eq {s : State} {ids : List Nat} (h : s.cx.tlbWait = some ids) : s.tlbinvComplete =
    if s.depsDone ids && !s.openSegs.any s.cx.tlbSegs.contains then
      { s with cx := { s.cx with tlbWait := none, tlbSegs := [] } }
    else s := by
  unfold State.tlbinvComplete
  rw [h]

theorem openSegs_closed {s : State} : s.openSegs.any s.cx.tlbSegs.contains = false
    ↔ ∀ x ∈ s.openSegs, x ∉ s.cx.tlbSegs := by
  simp [List.any_eq_false]

/-! Traps of the bundle at the fetch address -/

theorem trapDelivery_delivers {s : State} (hlive : s.live = true) (hfree : s.mustWait = false) {q : TrapReq}
    (hq : (s.enterBundle ((s.runAt 7 s.cx.pc).filterMap (fun x => x))).issueTrap = some q) :
    s.trapDelivery = ((s.enterBundle ((s.runAt 7 s.cx.pc).filterMap (fun x => x))).trapIssue q).finish := by
  unfold State.trapDelivery
  rw [if_neg (by simp [hlive, hfree])]
  dsimp only
  rw [hq]

/-! Switches -/

/-- A held or empty running bank gives way to a ready one (13 R224). -/
theorem contextSwitch_leaves {s : State} (hstop : s.cx.stop = none) (hon : s.host.off = false)
    (hcx : s.cxSt = .held ∨ s.cxSt = .empty) (hready : s.shSt = .ready) :
    s.contextSwitch = { s.leave s.cxSt 3 with ctl := .gone } := by
  have hgo : ¬ (s.cx.stop.isSome || s.host.off) = true := by simp [hstop, hon]
  have hturn : (s.shSt == BankSt.ready) = true := by rw [hready]; rfl
  unfold State.contextSwitch
  rw [if_neg hgo]
  obtain h | h := hcx <;> rw [h] <;> exact if_pos hturn

/-! Save areas -/

theorem writeArea_walks (c : Ctx) (l : List (Nat × Word)) (s : State) : Walks s (s.writeArea c l).1 := by
  induction l generalizing s with
  | nil => exact walks_refl s
  | cons e l ih =>
    have ht := translate_walks s c.ptbase.toNat c.asid.toNat (c.ctxsave + mkWord e.1) true true
    unfold State.writeArea
    generalize State.translate _ _ _ _ _ _ = r at ht ⊢
    split
    · exact walks_trans ht (walks_trans (setWord_walks _ _ _) (ih _))
    · exact ht

/-- Free values are drawn for the words reserved to hardware. -/
theorem spillWords_walks (s : State) (c : Ctx) (b : Bool) : Walks s (s.spillWords c b).2 := by
  unfold State.spillWords
  generalize hiddenOffsets = l
  rfl

/-- The attempt is the writing of the words of the spill. -/
theorem spillAttempt_eq (s : State) (c : Ctx) (o : Bool) : s.spillAttempt c o =
    (s.spillWords c (if o then s.bank else !s.bank)).2.writeArea c
      (s.spillWords c (if o then s.bank else !s.bank)).1 := by
  unfold State.spillAttempt
  generalize State.spillWords _ _ _ = b
  rfl

theorem spillAttempt_walks (s : State) (c : Ctx) (o : Bool) : Walks s (s.spillAttempt c o).1 := by
  rw [spillAttempt_eq]
  exact walks_trans (spillWords_walks s c _) (writeArea_walks c _ _)

theorem walks_foldl {α : Type} {f : State → α → State} (hf : ∀ s x, Walks s (f s x)) (l : List α) (s : State) :
    Walks s (l.foldl f s) := by
  induction l generalizing s with
  | nil => exact walks_refl s
  | cons x l ih => exact walks_trans (hf s x) (ih (f s x))

theorem readArea_walks (c : Ctx) (l : List Nat) (s : State) : Walks s (s.readArea c l).1 := by
  induction l generalizing s with
  | nil => exact walks_refl s
  | cons o l ih =>
    have ht := translate_walks s c.ptbase.toNat c.asid.toNat (c.ctxsave + mkWord o) false true
    unfold State.readArea
    generalize State.translate _ _ _ _ _ _ = r at ht ⊢
    split
    · exact walks_trans ht (ih _)
    · exact ht

/-! Spills -/

/-- A bank may be spilled once it does not run, is answered, and has no shuttle command in progress (13 R225; 08 R172;
16 R261). -/
theorem maySpill_of {s : State} {b : BankSt} {c : Ctx} (hb : b = .ready ∨ b = .held) (hanswered : s.answered c = true)
    (hdone : ∀ m ∈ s.core.shq, m.owner = c.uid → m.started = false) : s.maySpill b c = true := by
  have hidle : s.core.shq.any (fun m => m.owner == c.uid && m.started) = false := by
    rw [List.any_eq_false]
    intro m hm hmine
    rw [Bool.and_eq_true, beq_iff_eq] at hmine
    exact absurd hmine.2 (by rw [hdone m hm hmine.1]; decide)
  unfold State.maySpill
  rw [hanswered, hidle]
  obtain rfl | rfl := hb <;> rfl

section
variable {s : State} (hidle : s.core.spilling = none ∧ s.core.filling = none) (hroom : s.emergOcc = false)
include hidle hroom

theorem spill_eq : s.spill =
    if s.maySpill s.shSt s.sh then { s with
      shSt := .spilling, core := { s.core with spilling := some (s.cyc + s.sh.spillCycles) } }
    else if s.maySpill s.cxSt s.cx then { s with
      cxSt := .spilling, core := { s.core with spilling := some (s.cyc + s.cx.spillCycles) } }
    else s := if_neg (by simp [hidle, hroom])

end

/-- The bank of a context has been spilled, from a machine with the contexts of s (13 R225, R226). -/
structure Spilled (s : State) (c : Ctx) (o : Bool) (t : State) : Prop where
  idle : t.core.spilling = none
  saved : ∃ n, (c.ctxsave.toNat, { c with areaFv := n, flags := 0, lotflags := 0 }) ∈ t.core.saved
  shadow : o = false → t.shSt = .empty ∧ t.cx = s.cx
  running : o = true → t.cxSt = .empty ∧ t.sh = s.sh

theorem bankSpilled_spilled {s u : State} (hcx : u.cx = s.cx) (hsh : u.sh = s.sh) (c : Ctx) (o : Bool) (fv : Nat) :
    Spilled s c o (u.bankSpilled c o fv) ∧ (u.bankSpilled c o fv).core.emerg = u.core.emerg
    ∧ (u.bankSpilled c o fv).core.emergFault = u.core.emergFault := by
  cases o with
  | false => exact ⟨⟨rfl, ⟨fv, List.mem_cons_self⟩, fun _ => ⟨rfl, hcx⟩, nofun⟩, rfl, rfl⟩
  | true => exact ⟨⟨rfl, ⟨fv, List.mem_cons_self⟩, nofun, fun _ => ⟨rfl, hsh⟩⟩, rfl, rfl⟩

section
variable {s : State} {c : Ctx} {o : Bool} (hbank : s.spillBank = some (c, o)) (hdue : s.spillDue = true)
include hbank hdue

theorem spillComplete_done (hfits : (s.spillAttempt c o).2 = none) :
    s.spillComplete = (s.spillAttempt c o).1.bankSpilled c o s.fv := by
  unfold State.spillComplete
  rw [hbank, hdue]
  dsimp only
  generalize s.spillAttempt c o = a at hfits ⊢
  obtain ⟨t, x⟩ := a
  obtain rfl : x = none := hfits
  rfl

/-- A save area that does not translate: the context goes to the emergency area, occ is set and the firmware hears of
the address (13 R227). -/
theorem emergencySpill_done {x : AreaStop} (hstop : (s.spillAttempt c o).2 = some x) :
    Spilled s c o s.emergencySpill ∧ s.emergencySpill.core.emerg = s.core.emerg ||| 1
    ∧ (x = .page → s.emergencySpill.core.emergFault = some { cause := 16, addr := c.ctxsave }) := by
  have hw := spillAttempt_walks s c o
  unfold State.emergencySpill
  rw [hbank, hdue]
  dsimp only
  rw [if_neg (show ¬ (!true) = true by decide)]
  generalize s.spillAttempt c o = a at hstop hw ⊢
  obtain ⟨t, y⟩ := a
  obtain rfl : y = some x := hstop
  dsimp only
  have hwords := spillWords_walks t c (if o = true then s.bank else !s.bank)
  generalize State.spillWords _ _ _ = b at hwords ⊢
  obtain ⟨l, t1⟩ := b
  have hall := walks_trans hw (walks_trans hwords (walks_foldl (f := fun (t : State) (e : Nat × Word) =>
    t.setWord (hbmLoc t.pkgid (bitsOf s.core.emerg 12 29 * 2 ^ 12 + e.1)) e.2) (fun t e => setWord_walks t _ _) l t1))
  dsimp only
  generalize List.foldl _ t1 l = t2 at hall ⊢
  obtain ⟨hspilled, hemerg, hfault⟩ := bankSpilled_spilled (s := s) (u := { t2 with core := { t2.core with
    emerg := t2.core.emerg ||| 1
    emergFault := some { cause := if x = AreaStop.table then 18 else 16, addr := c.ctxsave } } })
    hall.cx hall.sh c o t.fv
  refine ⟨hspilled, ?_, ?_⟩
  · rw [hemerg, hall.core]
  · rintro rfl
    rw [hfault]
    rfl

end

/-! Fills -/

theorem setBank_core (s : State) (o : Bool) (c : Ctx) (st : BankSt) : (s.setBank o c st).core = s.core := by
  cases o <;> rfl

/-- The report of a fill that met an error changes what the firmware reads of it and the trace alone (13 R227). -/
theorem fillRecord_only (s : State) (c : Ctx) (o : Bool) (r : FaultRec) :
    ∃ d, s.fillRecord c o r = { s with core := { s.core with fillFault := some r }, dbg := d } := by
  unfold State.fillRecord State.recordFor
  split
  · exact ⟨_, rfl⟩
  · split <;> exact ⟨_, rfl⟩

theorem lost_fault (c : Ctx) (n : Nat) : (c.lost n).fault = c.fault := by simp only [Ctx.lost]

theorem loadWords_fault (c : Ctx) (w : Nat → Word) : (c.loadWords w).fault = c.fault := by simp only [Ctx.loadWords]

theorem loadWords_flags (c : Ctx) (w : Nat → Word) :
    (c.loadWords w).flags = (w 0x258).extractLsb' 0 6 := by simp only [Ctx.loadWords]

theorem loadWords_regs (c : Ctx) (w : Nat → Word) {k : Fin 64} (h : savedReg c.task.regsN k.val = true) :
    ((c.loadWords w).regs[k]).val = w (0x40 + 8 * (k.val - 1)) := by
  simp [Ctx.loadWords, h]

/-- What a fill takes of a context is its area's, but for the tiles. -/
theorem loadPublic_spec (s : State) (c : Ctx) (w : Nat → Word) :
    (∃ v, (s.loadPublic c w).1 = { c.loadWords w with tiles := v })
    ∧ ∃ n, (s.loadPublic c w).2 = { s with fv := n } := by
  unfold State.loadPublic
  exact ⟨⟨_, rfl⟩, ⟨_, rfl⟩⟩

/-- What is loaded from a save area (13 R225, R226; 08 R184). -/
structure Loaded (s : State) (c : Ctx) (w : Nat → Word) (x : Ctx × State) : Prop where
  only : ∃ n, x.2 = { s with fv := n }
  captured : x.1.captured = true
  fault : x.1.fault = c.fault
  flags : c.areaKept w = true → x.1.flags = (w 0x258).extractLsb' 0 6 ||| c.flags
  regs : c.areaKept w = true → ∀ k : Fin 64, savedReg c.task.regsN k.val = true →
    (x.1.regs[k]).val = w (0x40 + 8 * (k.val - 1))

theorem filled_loaded (s : State) (c : Ctx) (w : Nat → Word) : Loaded s c w (s.filled c w) := by
  obtain ⟨⟨v, hload⟩, n, hstate⟩ := loadPublic_spec s c w
  have hfault := loadWords_fault c w
  have hflags := loadWords_flags c w
  have hregs := fun (k : Fin 64) hk => loadWords_regs c w (k := k) hk
  unfold State.filled
  generalize s.loadPublic c w = x at hload hstate
  generalize c.loadWords w = d at hload hfault hflags hregs
  obtain ⟨e, t⟩ := x
  dsimp only at hload hstate ⊢
  subst hload hstate
  split
  · next hkept =>
    exact ⟨⟨_, rfl⟩, rfl, hfault, fun _ => congrArg (· ||| c.flags) hflags, fun _ => hregs⟩
  · next hchanged =>
    have hlost := lost_fault { d with tiles := v } n
    generalize Ctx.lost _ _ = e at hlost ⊢
    exact ⟨⟨_, rfl⟩, rfl, hlost.trans hfault, fun h => absurd h hchanged, fun h => absurd h hchanged⟩

/-- The bank that a fill takes, from a machine with the contexts of s (13 R225). -/
structure Filling (s : State) (va : Nat) (c : Ctx) (t : State) : Prop where
  shadow : s.shSt = .empty → t.shSt = .filling ∧ t.sh = c ∧ t.cx = s.cx
  running : s.shSt ≠ .empty → t.cxSt = .filling ∧ t.cx = c ∧ t.sh = s.sh
  due : t.core.filling = some (s.cyc + c.spillCycles)
  mem : t.mem = s.mem
  taken : ∀ e ∈ t.core.saved, e.1 ≠ va

theorem fill_filling {s : State} {va : Nat} {c : Ctx} (hidle : s.core.spilling = none ∧ s.core.filling = none)
    (hfind : s.core.saved.find? (fun e => e.1 == va) = some (va, c)) (hhere : s.inEmergency va = false)
    (hanswered : s.answered c = true) (hrestored : ∀ e ∈ s.sched.evicted, e.grant.launch ≠ c.task.launch)
    (hempty : s.shSt = .empty ∨ s.cxSt = .empty) : Filling s va c (s.fill va) := by
  have hkept : s.sched.evicted.any (fun e => e.grant.launch == c.task.launch) = false := by
    rw [List.any_eq_false]
    exact fun e he => by simpa using hrestored e he
  have hsaved : ∀ e ∈ s.core.saved.filter (fun e => e.1 != va), e.1 ≠ va := fun e he => by
    simpa using (List.mem_filter.mp he).2
  unfold State.fill
  rw [hfind]
  dsimp only
  rw [if_neg (by simp [hidle, hhere, hanswered, hkept])]
  by_cases hsh : s.shSt = .empty
  · rw [if_pos (by rw [hsh]; rfl)]
    exact ⟨fun _ => ⟨rfl, rfl, rfl⟩, fun h => absurd hsh h, rfl, rfl, hsaved⟩
  · rw [if_neg (by simpa using hsh), if_pos (by rw [hempty.resolve_left hsh]; rfl)]
    exact ⟨fun h => absurd h hsh, fun _ => ⟨rfl, rfl, rfl⟩, rfl, rfl, hsaved⟩

/-- What the fill of a bank's context reads of its save area. -/
def areaOf (s : State) (c : Ctx) : State × List (Nat × Word) × Bool × Option AreaStop :=
  ({ s with core := { s.core with filling := none } } : State).readArea c c.areaOffsets

theorem areaOf_walks (s : State) (c : Ctx) :
    Walks { s with core := { s.core with filling := none } } (areaOf s c).1 := readArea_walks c _ _

/-- A fill that is given up: the bank is empty, and the context stays in its save area. -/
def fillBack (s : State) (o : Bool) (c : Ctx) : State :=
  ({ s with core := { s.core with saved := (c.ctxsave.toNat, c) :: s.core.saved } } : State).setBank o Ctx.fresh .empty

/-- A fill with which the context's task ends. -/
def fillEnds (s : State) (o : Bool) (c : Ctx) : State :=
  (s.setBank o Ctx.fresh .empty).endSaved c.ctxsave.toNat c (some 8)

/-- Whether a filled context still waits for the firmware's decision, or is stopped. -/
def stays (c : Ctx) (w : Nat → Word) : Bool := (c.fault.isSome && !(w 32).getLsbD 0) || c.stop.isSome

/-- What becomes of a fill whose area is read, by what stopped it, whether a line was marked, and the words (13 R225 to
R227). -/
def fillEnd (s : State) (o : Bool) (c : Ctx) (w : Nat → Word) (bad : Bool) : Option AreaStop → State
  | some .page => fillBack s o c
  | some .table => (fillBack s o c).fillRecord c o { cause := 18, reason := 0, addr := c.ctxsave }
  | none =>
    if bad then (fillEnds s o c).fillRecord c o { cause := 18, reason := 1, addr := c.ctxsave }
    else if (w 32).getLsbD 1 then fillEnds s o c
    else if stays c w then (s.filled c w).2.setBank o (s.filled c w).1 .held
    else (s.filled c w).2.setBank o (s.filled c w).1.resumed .ready

section
variable {s : State} {n : Nat} (hfilling : s.core.filling = some n) (hdue : n ≤ s.cyc)
include hfilling hdue

theorem fillComplete_eq {o : Bool} (ho : (s.shSt != .filling) = o) {c : Ctx} (hc : (if o then s.cx else s.sh) = c) :
    s.fillComplete = fillEnd (areaOf s c).1 o c (areaWordAt (areaOf s c).2.1) (areaOf s c).2.2.1
      (areaOf s c).2.2.2 := by
  unfold State.fillComplete areaOf
  rw [hfilling]
  dsimp only
  rw [if_neg (Nat.not_lt.mpr hdue), ho, hc]
  generalize State.readArea _ _ _ = a
  obtain ⟨t, ws, bad, stop⟩ := a
  cases stop with
  | some x => cases x <;> rfl
  | none =>
    cases bad with
    | true => rfl
    | false =>
      unfold fillEnd
      dsimp only
      generalize t.filled c (areaWordAt ws) = f
      rfl

end

/-- Whatever becomes of it, the fill is over. -/
theorem fillEnd_filling {s : State} (h : s.core.filling = none) (o : Bool) (c : Ctx) (w : Nat → Word) (bad : Bool)
    (x : Option AreaStop) : (fillEnd s o c w bad x).core.filling = none := by
  have hback : (fillBack s o c).core.filling = none := by rw [fillBack, setBank_core]; exact h
  have hends : (fillEnds s o c).core.filling = none := by
    rw [fillEnds, (endSaved_spec _ _ _ _).2.1, setBank_core]
    exact h
  have hrecord : ∀ (t : State) r, t.core.filling = none → (t.fillRecord c o r).core.filling = none := fun t r ht => by
    obtain ⟨d, hd⟩ := fillRecord_only t c o r
    rw [hd]
    exact ht
  obtain ⟨n, hn⟩ := (filled_loaded s c w).only
  have hfilled : ∀ d st, ((s.filled c w).2.setBank o d st).core.filling = none := fun d st => by
    rw [setBank_core, hn]
    exact h
  unfold fillEnd
  split
  · exact hback
  · exact hrecord _ _ hback
  · split
    · exact hrecord _ _ hends
    · split
      · exact hends
      · split
        · exact hfilled _ _
        · exact hfilled _ _

/-- The shadow bank's fill ends (13 R225 to R227). -/
theorem fillComplete_shadow {s : State} {n : Nat} (hfilling : s.core.filling = some n) (hdue : n ≤ s.cyc)
    (hsh : s.shSt = .filling) : s.fillComplete = fillEnd (areaOf s s.sh).1 false s.sh
      (areaWordAt (areaOf s s.sh).2.1) (areaOf s s.sh).2.2.1 (areaOf s s.sh).2.2.2 :=
  fillComplete_eq hfilling hdue (by rw [hsh]; rfl) rfl

section
variable {s : State} {c : Ctx} {w : Nat → Word}

theorem fillEnd_read (o : Bool) : fillEnd s o c w false none =
    if (w 32).getLsbD 1 then fillEnds s o c
    else if stays c w then (s.filled c w).2.setBank o (s.filled c w).1 .held
    else (s.filled c w).2.setBank o (s.filled c w).1.resumed .ready := by
  unfold fillEnd
  exact if_neg Bool.false_ne_true

theorem fillEnd_bad (o : Bool) : fillEnd s o c w true none =
    (fillEnds s o c).fillRecord c o { cause := 18, reason := 1, addr := c.ctxsave } := by
  unfold fillEnd
  exact if_pos rfl

theorem fillEnds_shSt : (fillEnds s false c).shSt = .empty := (endSaved_spec _ _ _ _).2.2

/-- A shadow bank that is filled holds what was loaded, ready or held (13 R225). -/
theorem fillEnd_filled (hgo : (w 32).getLsbD 1 = false) :
    ∃ d, Loaded s c w d ∧ d.2.cx = s.cx ∧ fillEnd s false c w false none
      = if stays c w then d.2.setBank false d.1 .held else d.2.setBank false d.1.resumed .ready := by
  have hloaded := filled_loaded s c w
  obtain ⟨n, hn⟩ := hloaded.only
  refine ⟨s.filled c w, hloaded, by rw [hn], ?_⟩
  rw [fillEnd_read, hgo]
  exact if_neg Bool.false_ne_true

/-- The firmware's kill ends the task (13 R226). -/
theorem fillEnd_killed (hkill : (w 32).getLsbD 1 = true) : (fillEnd s false c w false none).shSt = .empty := by
  rw [fillEnd_read, if_pos hkill]
  exact fillEnds_shSt

/-- A marked line of the area is a machine error (13 R227). -/
theorem fillEnd_marked : (fillEnd s false c w true none).shSt = .empty
    ∧ (fillEnd s false c w true none).core.fillFault = some { cause := 18, reason := 1, addr := c.ctxsave } := by
  obtain ⟨d, hd⟩ := fillRecord_only (fillEnds s false c) c false { cause := 18, reason := 1, addr := c.ctxsave }
  rw [fillEnd_bad, hd]
  exact ⟨fillEnds_shSt, rfl⟩

theorem stays_iff : stays c w = true ↔ (c.fault.isSome = true ∧ (w 32).getLsbD 0 = false) ∨ c.stop.isSome = true := by
  simp [stays]

theorem stays_eq_false (hfault : c.fault = none ∨ (w 32).getLsbD 0 = true) (hstop : c.stop = none) :
    stays c w = false := by
  obtain h | h := hfault <;> simp [stays, h, hstop]

end

/-- Settles O47: the decisions by the bank that awaits them; the spills and fills by the walks of their save areas, which
change memory and the TLBs alone. -/
theorem faultsAndBanks : Obligations.FaultsAndBanks := by
  unfold Obligations.FaultsAndBanks
  refine ⟨fun s => ⟨fun hheld hfault hstop => ⟨?_, ?_⟩, fun hnot => ⟨fun hheld hfault hstop => ⟨?_, ?_⟩, ?_⟩,
    fun ids hids => ⟨fun hdone hclosed => ?_, fun hopen => ?_⟩, fun hlive => ⟨_, rfl, interrupt_returns hlive⟩,
    fun hlive hfree q hq => congrArg Host.Outcome.next (trapDelivery_delivers hlive hfree hq)⟩,
    fun s va c => ⟨?_, ?_, ?_, ?_, ?_, ?_⟩⟩
  · refine ⟨_, congrArg Host.Outcome.next (faultResolve_running ⟨hheld, hfault, hstop⟩ false), restore_cxSt _,
      restore_fault _, restore_pc _, (restore_sameMem _).1, fun r hr => ?_⟩
    exact resumed_replay (c := s.cx) ((restore_replay (resumedHere s)).symm.trans hr)
  · obtain ⟨hcounted, hidle, hnext⟩ := endTask_over s (some 8)
    refine ⟨_, congrArg Host.Outcome.next (faultResolve_running ⟨hheld, hfault, hstop⟩ true), fun h => (hidle h).1,
      fun h => ⟨(hnext h).1, (hnext h).2.1⟩, fun n hn hgen hdone hfailed => ?_⟩
    have hmem := hcounted n hn hgen hdone hfailed
    cases hn : n.failed <;> rw [hn] at hmem <;> exact hmem
  · exact congrArg Host.Outcome.next (faultResolve_shadow hnot ⟨hheld, hfault, hstop⟩ false)
  · obtain ⟨hempty, huid⟩ := endShadow_spec s (some 8)
    exact ⟨_, congrArg Host.Outcome.next (faultResolve_shadow hnot ⟨hheld, hfault, hstop⟩ true), hempty, huid⟩
  · intro hsh va c hfind kill
    refine ⟨_, congrArg Host.Outcome.next (faultResolve_saved hnot hsh hfind kill), ?_, ?_⟩
    · rintro rfl
      exact (endSaved_spec s va c (some 8)).1
    · rintro rfl
      exact List.mem_map.mpr ⟨(va, c), List.mem_of_find?_eq_some hfind, if_pos (beq_self_eq_true va)⟩
  · exact congrArg Host.Outcome.next ((tlbinvComplete_eq hids).trans (if_pos (by
      rw [hdone, openSegs_closed.mpr hclosed]; rfl)))
  · refine congrArg Host.Outcome.next ((tlbinvComplete_eq hids).trans (if_neg fun hover => ?_))
    rw [Bool.and_eq_true, Bool.not_eq_true', openSegs_closed] at hover
    obtain hpending | ⟨x, hx, hin⟩ := hopen
    · exact Bool.false_ne_true (hpending.symm.trans hover.1)
    · exact hover.2 x hx hin
  · intro hstop hon hcx hready
    obtain ⟨hrun, hsh, hbank, huid, hold, -⟩ := leave_contexts hready s.cxSt 3
    exact ⟨_, congrArg Host.Outcome.next (contextSwitch_leaves hstop hon hcx hready), hrun, hsh, hbank, huid,
      congrArg Ctx.uid hold, (leave_sameMem s s.cxSt 3).1⟩
  · exact fun hidle hroom hsh hanswered hdone => congrArg Host.Outcome.next
      ((spill_eq hidle hroom).trans (if_pos (maySpill_of hsh hanswered hdone)))
  · exact fun hidle hroom hnot hcx hanswered hdone => congrArg Host.Outcome.next ((spill_eq hidle hroom).trans
      ((if_neg (by rw [hnot]; decide)).trans (if_pos (maySpill_of hcx hanswered hdone))))
  · intro o hbank hdue
    refine ⟨fun hfits => ?_, fun x hstop => ?_⟩
    · have hw := spillAttempt_walks s c o
      obtain ⟨⟨hidle, hsaved, hshadow, hrunning⟩, hemerg, -⟩ := bankSpilled_spilled hw.cx hw.sh c o s.fv
      exact ⟨_, congrArg Host.Outcome.next (spillComplete_done hbank hdue hfits), ⟨hidle, hsaved, hshadow, hrunning⟩,
        hemerg.trans (by rw [hw.core])⟩
    · obtain ⟨⟨hidle, hsaved, hshadow, hrunning⟩, hemerg, hfault⟩ := emergencySpill_done hbank hdue hstop
      refine ⟨s.emergencySpill, rfl, ⟨hidle, hsaved, hshadow, hrunning⟩, ?_, hfault⟩
      rw [hemerg, BitVec.getLsbD_or]
      simp
  · intro hidle hfind hhere hanswered hrestored hempty
    obtain ⟨hshadow, hrunning, hdue, hmem, htaken⟩ := fill_filling hidle hfind hhere hanswered hrestored hempty
    exact ⟨_, rfl, hshadow, hrunning, hdue, hmem, htaken⟩
  · intro n hfilling hdue
    refine ⟨⟨_, congrArg Host.Outcome.next (fillComplete_eq hfilling hdue rfl rfl), fillEnd_filling ?_ _ _ _ _ _⟩,
      fun hsh => ?_⟩
    · rw [(areaOf_walks s _).core]
    · have hcx : (areaOf s s.sh).1.cx = s.cx := (areaOf_walks s s.sh).cx
      have hend : exec .fillComplete s = .next (fillEnd _ _ _ _ _ _) :=
        congrArg Host.Outcome.next (fillComplete_shadow hfilling hdue hsh)
      have harea : ({ s with core := { s.core with filling := none } } : State).readArea s.sh s.sh.areaOffsets
          = areaOf s s.sh := rfl
      rw [harea]
      generalize areaOf s s.sh = a at hcx hend ⊢
      obtain ⟨t, ws, bad, stop⟩ := a
      dsimp only at hcx hend ⊢
      refine ⟨?_, ?_, ?_, ?_⟩
      · rintro rfl rfl hgo
        obtain ⟨d, hd, hsame, hbank⟩ := fillEnd_filled (s := t) (c := s.sh) hgo
        refine ⟨fun hfault hstop => ?_, fun hwaits => ?_⟩
        · rw [stays_eq_false hfault hstop] at hbank
          exact ⟨_, hend.trans (congrArg _ hbank), rfl, rfl, hsame.trans hcx, hd.captured,
            fun hkept => ⟨hd.flags hkept, hd.regs hkept⟩⟩
        · rw [stays_iff.mpr hwaits] at hbank
          exact ⟨_, hend.trans (congrArg _ hbank), rfl, hd.fault, hsame.trans hcx⟩
      · rintro rfl rfl hkill
        exact ⟨_, hend, fillEnd_killed hkill⟩
      · rintro rfl rfl
        exact ⟨_, hend, fillEnd_marked⟩
      · rintro rfl
        exact ⟨_, hend, rfl, List.mem_cons_self, hcx⟩

end Sys2Proof.FaultProofs

/-! ### The decision that a held bundle completes with may empty the TLBs (13 R212, R221, R230) -/

namespace Sys2Proof.TranslationProofs

open Sys2Proof Sys2Proof.Machine Sys2Proof.Safety

/-- An entry of the shared TLB that maps the first page. -/
def firstPage : TlbEnt := { asid := 0, va := 0, bits := 12, pa := 0, w := true, u := true, g := false, d := true }

/-- A load of address 0 held for its translation, in a bundle whose C word is noted as a `TLBINV.all` still to act. -/
def heldLoad : Replay where
  acc := { id := 0, kind := .read .keep, cls := 0, addr := 0, loc := 0, size := 8 }
  lds := false
  badr := 0
  words := []
  slot := 0
  ctl := .deferWord .tlbinvAll
  walk := { va := 0, asid := 0, root := 0, write := false, priv := false, shared := false, level := 4, entry := 0 }

/-- A running context that waits for that load, whose page the shared TLB holds. -/
def holding : State :=
  { State.reset with
    cx := { Ctx.fresh with replay := some heldLoad }
    cxSt := .running
    xl := { shared := [firstPage] } }

theorem holding_alone : Alone holding := ⟨rfl, rfl, rfl, fun _ h => absurd h List.not_mem_nil⟩

/-- The shared TLB answers the load. -/
theorem holding_found : tlbFind holding.xl.shared 0 0 false false = some firstPage := by decide

/-- The entry fills the micro-TLB, and the word that acts as the bundle completes drops it again. -/
theorem sharedLookup_holding_micro : holding.sharedLookup.xl.micro = [] := by decide +kernel

/-- Refutes O46: the entry that the shared TLB answers with is claimed to stand in the micro-TLB after the step whatever
the bundle's C word has decided, but that decision is applied in the same step. In `holding` it is a `TLBINV.all`, which
leaves the micro-TLB empty. No bundle defers that word, since it acts before the transfers (03 R23), but the statement
is about every state. -/
theorem not_translation : ¬ Obligations.Translation := by
  unfold Obligations.Translation
  rintro ⟨-, hsteps⟩
  obtain ⟨hlookup, -⟩ := hsteps holding heldLoad rfl rfl holding_alone
  obtain ⟨hfound, -⟩ := hlookup rfl rfl
  obtain ⟨t, hexec, hmicro, -⟩ := hfound firstPage holding_found
  obtain rfl : holding.sharedLookup = t := Host.Outcome.next.inj hexec
  rw [sharedLookup_holding_micro] at hmicro
  exact absurd hmicro (by decide)

end Sys2Proof.TranslationProofs
